-- ==== Sys2Proof/Word.lean ====
section
/-! DEFINITION. The words of the KLK-S8-1280: a byte, a 32-bit word (the manual's word, 00_scope) and a 64-bit
double word. Everything is little-endian (R3) and bit 0 is the least significant bit (R4). -/
namespace Sys2Proof

/-- One byte of a structure or memory image. -/
abbrev Byte := BitVec 8

/-- A word is 32 bits (00_scope, *Numbers, units and bits*). -/
abbrev Word := BitVec 32

/-- A 64-bit register value. -/
abbrev DWord := BitVec 64

/-- A sparse table: the entries of an indexed set (registers, bytes of a memory, clusters) that differ from the
value an unlisted index has. Kept in one canonical form (Machine/Tab.lean). -/
abbrev Tab (α : Type) := List (Nat × α)

/-- A byte-addressed memory: a list of (address, byte) cells in canonical form. -/
abbrev Mem := List (Nat × BitVec 8)

end Sys2Proof
end

