-- ==== Sys2Proof/Syntax.lean ====
section
/-! DEFINITION. The commands of the block: one constructor of `Instr` for each of the 186 rows of
spec/opcode_table.json, with the row's operands, and the operand types. A command is one step of the module
(95_what_each_step_holds): something the host, the board or the sideband does, or one step of an agent inside the
module. What the environment or an open choice decides (bytes that arrive, a measured temperature, the tag that
is given, the planner's placement) is an operand. -/
namespace Sys2Proof

/-- An engine of a cluster (R18). -/
inductive Engine where
  | nte | rme | vec
  deriving DecidableEq, Repr

/-- What an engine reset reaches (R664): an engine, a stream engine or a Ferry. -/
inductive ResetUnit where
  | engine (cl : Fin 512) (e : Engine)
  | stream (die : Fin 8) (s : Fin 16)
  | ferry  (die : Fin 8)
  deriving DecidableEq, Repr

/-- Register blocks of one cluster (*Register and block prefixes*, 00_scope). -/
inductive ClBlock where
  | seq | scb | nte | rme | vec
  deriving DecidableEq, Repr

/-- Register blocks of one compute die. -/
inductive DieBlock where
  | fer | ste | pon | xba | msc0 | msc1
  deriving DecidableEq, Repr

/-- Where a register write goes: BAR0 (host), a block of a cluster or of a die (over the Towpath), or the PKE. -/
inductive RegTarget where
  | bar0
  | cluster (cl : Fin 512) (b : ClBlock)
  | die (d : Fin 8) (b : DieBlock)
  | pke
  deriving DecidableEq, Repr

/-- One end of a Pontoon link (R13): a controller of a compute die (0 ring-forward, 1 ring-back, 2 spoke) or the
Quay's end of the spoke to a die. -/
inductive LinkEnd where
  | pon (d : Fin 8) (l : Fin 3)
  | quay (d : Fin 8)
  deriving DecidableEq, Repr

/-- Why a job is killed: the kill statuses of *Completion status* (R569), from 0x30 up. -/
inductive KillCause where
  | killed
  | streamInvalid
  | cfgInvalid
  | addrInvalid
  | handleInvalid
  | flagOverflow
  | ledgerFault (code : BitVec 4)
  | waitTimeout
  | rearmOverrun
  | hostRead
  | dieReset (die : Fin 8)
  | thermal (stack : Fin 16)
  deriving DecidableEq, Repr

/-- What starts a replay (R421, R674). -/
inductive ReplayCause where
  | memory | keyPage | pontoon | audit
  deriving DecidableEq, Repr

/-- A unit of a landing copy that a restore reads as uncorrectable (R529): its stack and its number there, and the cluster
and the first of the 16 scratchpad words that the unit holds. -/
structure LostUnit where
  stack : Fin 16
  unit : Nat
  cl : Fin 512
  word : Nat
  deriving DecidableEq, Repr

/-- Which host read ended in error (R575). -/
inductive HostReadSite where
  | entry (ring : Fin 256)
  | graph (tag : Fin 1024)
  | run (tag : Fin 1024)
  | keyLoad (index : Nat)
  deriving DecidableEq, Repr

/-- Why the Hedge performs a die reset (R664, R666, R667, R689). -/
inductive DieResetCause where
  | quiesceCheck
  | internalError
  | engineStuck (cl : Fin 512) (e : Engine)
  | linkRetrain
  deriving DecidableEq, Repr

/-- What one cluster holds for a job (R398, *Hand-plan cluster entry* R428), with its command stream. -/
structure ClHold where
  cl : Nat
  row0 : Nat
  rows : Nat
  queue0 : Nat
  queues : Nat
  flag0 : Nat
  flags : Nat
  pair0 : Nat
  pairs : Nat
  frames : Nat
  stream : List Word
  -- the primitives of the lowered graph that the SEALs of the stream seal, in the order of their issue (R135)
  seals : List Nat := []
  deriving DecidableEq, Repr

/-- What one compute die holds for a job (*Hand-plan die entry* R428), with its Ferry list. -/
structure DieHold where
  die : Nat
  pool0 : Nat
  pools : Nat
  desc0 : Nat
  descs : Nat
  region : Nat
  regionMiB : Nat
  ferry : List Byte
  deriving DecidableEq, Repr

/-- A pool table entry the planner writes at admission (R474, R485): the eight words, the free queue of a circulating pool,
and the host buffer of the job descriptor whose address is its BASE (R411, R565). -/
structure PoolPlan where
  die : Nat
  pool : Nat
  words : List Word
  freeq : Option (BitVec 15)
  buf : Option (Fin 256)
  deriving DecidableEq, Repr

/-- A Pontoon credit entry the planner writes (R489). -/
structure CreditPlan where
  die : Nat
  entry : Nat
  qaddr : BitVec 15
  grant : BitVec 9
  deriving DecidableEq, Repr

/-- Where the value of an assigned parameter register comes from (R411): the address of a host buffer, a patch value, or a
value the plan fixes. -/
inductive ParamSrc where
  | buffer (b : Fin 256)
  | patch (i : Fin 256)
  | value (v : BitVec 64)
  deriving DecidableEq, Repr

/-- A parameter register that the plan assigns (R411, R448). -/
structure ParamPlan where
  cl : Nat
  param : Nat
  src : ParamSrc
  deriving DecidableEq, Repr

/-- One part of an audited object (R681, R683): the main copy's cluster and header slot, the shadow copy's, and the
scratchpad words of a check limb on each. -/
structure Shadow where
  cl : Nat
  slot : Nat
  at_ : Nat
  shCl : Nat
  shSlot : Nat
  shAt : Nat
  len : Nat
  deriving DecidableEq, Repr

/-- A sealed object that a landing point copies (R66, R419): the clusters of its group in order, its header slot there, the stack
address of the copy, and the bytes kept for it. -/
structure CopyPlan where
  cls : List Nat
  slot : Nat
  at_ : Nat
  bytes : Nat := 0
  deriving DecidableEq, Repr

/-- Live scratchpad rows that a landing point copies (R419): the cluster, the first row, the rows, and the stack address of the copy. -/
structure RowSave where
  cl : Nat
  row : Nat
  rows : Nat
  at_ : Nat
  deriving DecidableEq, Repr

/-- A landing point of a plan (R417 to R420): its planned a-cycle, the event flags that are not 0 there (cluster, flag, count),
the sealed objects it copies, the live rows it copies, where the roles of each cluster's landing pairs go (cluster, stack address), the
stack ranges (address, bytes) that a replay from it reads besides, and the live bytes of each die. -/
structure CutPlan where
  at_ : Nat
  flags : List (Nat × Nat × Nat) := []
  copies : List CopyPlan := []
  saves : List RowSave := []
  roles : List (Nat × Nat) := []
  live : List (Nat × Nat) := []
  bytes : List (Nat × Nat) := []
  deriving DecidableEq, Repr

/-- A descriptor that the planner generates (R368): the die, the entry and its 32 words. -/
structure DescPlan where
  die : Nat
  entry : Nat
  words : List Word
  deriving DecidableEq, Repr

/-- The direction around the ring that the planner fixes between two compute dies (R15). -/
structure RoutePlan where
  src : Nat
  dst : Nat
  forward : Bool
  deriving DecidableEq, Repr

/-- The choices of the planner that the manual leaves to it (R28, R396, R400 to R404, R415): whether a placement exists, whether a second
placement is planned beside a cached one, the figures of the receipt, the resources of a planned job, and the tables it writes. `hAc` is
the largest primitive bound and `lastAc` the planned a-cycle of the last result write (R418, R420); `floods` gives the seed of each flood
primitive in the order of the lowered graph (R131); `places` gives the stack address of each cluster's stream (R434). What follows from
the streams themselves (the wait graph, the schedule entries, the beats) is computed from them. -/
structure PlanChoice where
  placed : Bool
  fresh : Bool
  waitAc : BitVec 64
  boundAc : BitVec 64
  planUs : BitVec 32
  power : Nat
  clusters : List ClHold
  dies : List DieHold
  pools : List PoolPlan
  credits : List CreditPlan
  params : List ParamPlan
  shadows : List Shadow
  hAc : Nat := 0
  lastAc : Nat := 0
  cuts : List CutPlan := []
  descs : List DescPlan := []
  routes : List RoutePlan := []
  floods : List Nat := []
  places : List (Nat × Nat) := []
  deriving DecidableEq, Repr

/-- A reading of one AVSBus rail (R645): millivolts and milliamperes. -/
structure RailReading where
  rail : Nat
  mV : Nat
  mA : Nat
  deriving DecidableEq, Repr

/-- The lowest voltages, in mV, at which one cluster meets each of the 21 frequencies from 2.00 GHz upwards in 25 MHz
steps, as its sentinel paths give them (R693, R694). -/
structure SentinelSample where
  cl : Nat
  vreq : List Nat
  deriving DecidableEq, Repr

/-- What a margin review was held for (R693). -/
inductive ReviewCause where
  | weekly | slowFrames | voltage
  deriving DecidableEq, Repr

/-- What the persistent error log is asked to record (R705, R706). -/
structure LogEvent where
  cls : BitVec 8
  sev : BitVec 8
  unit : BitVec 32
  job : BitVec 16
  detail : BitVec 16
  addr : BitVec 64
  data : List Byte
  deriving DecidableEq, Repr

/-- What an IDE_KM message does to a stream (R577). -/
inductive IdeOp where
  | program (key : List Byte)
  | go
  | stop
  deriving DecidableEq, Repr

/-- What a JTAG access asks for (R615): a register or a scratchpad word, read or written, or UDS. -/
inductive JtagOp where
  | readReg (t : RegTarget) (off : Nat)
  | writeReg (t : RegTarget) (off : Nat) (wide : Bool) (v : BitVec 64)
  | readScratch (cl : Fin 512) (word : Nat)
  | writeScratch (cl : Fin 512) (word : Nat) (v : Word)
  | readUds
  | writeIdentity (off : Nat) (bytes : List Byte)
  deriving DecidableEq, Repr

/-- Where a fault injection strikes (R692). -/
inductive FiSite where
  | link (e : LinkEnd) (flit next : List Byte)
  | scratch (cl : Fin 512) (word : Nat)
  | unit (stack : Fin 16) (off : Nat)
  deriving DecidableEq, Repr

/-- Which FI_CTRL register a write of FI_CTRL names (R691). -/
inductive FiReg where
  | pon (d : Fin 8) (l : Fin 3)
  | xba (d : Fin 8)
  | msc (st : Fin 16)
  deriving DecidableEq, Repr

/-- The commands: one constructor per row of the opcode table, in the table's order. -/
inductive Instr where
  -- rings, submissions and completions
  | sqTail (ring : Fin 256) (tail : BitVec 16)
  | cqHead (ring : Fin 256) (head : BitVec 16)
  | submissionFetch
  | job (ring : Fin 256) (entry bufTab patchTab : List Byte)
  | hand (ring : Fin 256) (entry bufTab : List Byte)
  | keyLoad (ring : Fin 256) (entry manifest : List Byte) (pages : List (List Byte))
  | keyUnload (ring : Fin 256) (entry : List Byte)
  | keyLoadDone (index : Nat)
  | admitJob (tag : Fin 1024)
  | hostReadError (site : HostReadSite)
  | planJob (tag : Fin 1024) (image : List Byte) (choice : PlanChoice)
  | jobStart (tag : Fin 1024)
  | completionEntry (index : Nat)
  | cqCoalTimer (ring : Fin 256)
  | sqEnable (ring : Fin 256) (cfg : Word)
  | sqDisable (ring : Fin 256)
  | cqEnable (ring : Fin 256) (cfg : Word)
  | cqDisable (ring : Fin 256)
  -- host control
  | qreq
  | quiesceCheck
  | qrel
  | idereq (v : Bool)
  | lock
  | wreset (v : BitVec 8)
  | glbKill (tag : BitVec 10) (cid : Word)
  | glbHost (v : Word)
  | glbPcap (v : Word)
  | registerWrite (t : RegTarget) (off : Nat) (wide : Bool) (v : BitVec 64)
  | bar0BadAccess (read : Bool) (off : BitVec 25) (bytes : Nat)
  | d3hot
  | restEntry
  | d0
  | flr
  | dlDown
  | hotReset
  | perstAssert
  | perstDeassert
  | pwrgdRise
  | pwrgdFall
  | railOutOfTolerance (rail : Nat)
  | refclkMissing
  | refclkStable
  | aonLoss
  | ready
  | coldReset
  | warmReset
  | dieReset (die : Fin 8) (cause : DieResetCause)
  | jobKill (tag : Fin 1024) (cause : KillCause)
  | engineReset (u : ResetUnit)
  | engineOverrun (cl : Fin 512) (e : Engine)
  -- sequencer instructions: `words` is the instruction at the context's program counter, header word first
  | load (cl : Fin 512) (ctx : Fin 8) (words : List Word)
  | start (cl : Fin 512) (ctx : Fin 8) (words : List Word)
  | wait (cl : Fin 512) (ctx : Fin 8) (words : List Word)
  | signal (cl : Fin 512) (ctx : Fin 8) (words : List Word)
  | signalArrival (index : Nat)
  | pop (cl : Fin 512) (ctx : Fin 8) (words : List Word)
  | push (cl : Fin 512) (ctx : Fin 8) (words : List Word)
  | handleArrival (index : Nat)
  | swap (cl : Fin 512) (ctx : Fin 8) (words : List Word)
  | patch (cl : Fin 512) (ctx : Fin 8) (words : List Word)
  | loop (cl : Fin 512) (ctx : Fin 8) (words : List Word)
  | tmark (cl : Fin 512) (ctx : Fin 8) (words : List Word)
  | seal (cl : Fin 512) (ctx : Fin 8) (words : List Word)
  | sealc (cl : Fin 512) (ctx : Fin 8) (words : List Word)
  | tag (cl : Fin 512) (ctx : Fin 8) (words : List Word)
  | endStream (cl : Fin 512) (ctx : Fin 8) (words : List Word)
  -- engines
  | pendingStart (cl : Fin 512) (e : Engine)
  | nteFwd (cl : Fin 512)
  | nteInv (cl : Fin 512)
  | nteDone (cl : Fin 512)
  | bcast (cl : Fin 512)
  | ewmac (cl : Fin 512)
  | openMode (cl : Fin 512)
  | rmeDone (cl : Fin 512)
  | trailingPass (cl : Fin 512) (block : Nat)
  | vecOperation (cl : Fin 512)
  | vecDone (cl : Fin 512)
  | modulusEntryValidate (cl : Fin 512) (entry : Fin 256) (word3 : Word)
  | modulusValidationDone (cl : Fin 512) (entry : Fin 256)
  -- Ferry
  | land (die : Fin 8)
  | ferryEnd (die : Fin 8)
  | frameStaged (die : Fin 8) (cl : Fin 64) (frame : Nat)
  | bindingReport (cl : Fin 512) (page : Nat)
  | tokenRelease (die : Fin 8) (cl : Fin 64) (frame : Nat)
  -- scratchpad
  | scrubRewrite (cl : Fin 512)
  | scrubRow (cl : Fin 512)
  | sliceWipe (cl : Fin 512)
  | restrict (cl : Fin 512) (v : Bool)
  | hashoff (cl : Fin 512) (v : Bool)
  | landingPairWrite (cl : Fin 512) (pair : Fin 32) (hi : Bool) (v : Word)
  -- stream engines
  | steDcmt (die : Fin 8) (v : Word)
  | descriptorValidationDone (die : Fin 8) (entry : Fin 4096)
  | descriptorWrite (die : Fin 8) (entry : Fin 4096) (word : Fin 32) (v : Word)
  | steStreamStart (cl : Fin 512) (ctx : Fin 8) (words : List Word)
  | transfer (die : Fin 8) (s : Fin 16) (hostWords : List Word)
  | transferBoundary (die : Fin 8) (s : Fin 16)
  -- ledger
  | ledgerReport (index : Nat)
  | creditReturn (index : Nat)
  | negCount (die : Fin 8) (pool : Fin 1024)
  | jobEndAudit (tag : Fin 1024)
  | watchdogTrip (cl : Fin 512) (ctx : Fin 8)
  | breakpoint (cl : Fin 512) (ctx : Fin 8)
  | resume (die : Fin 8)
  -- replay and Pontoon
  | landingPoint (tag : Fin 1024)
  | replay (tag : Fin 1024) (cause : ReplayCause) (lost : List LostUnit)
  | flitReceive (e : LinkEnd) (flit : List Byte)
  | nak (e : LinkEnd) (seq : Word)
  | retryExhausted (e : LinkEnd)
  | linkRetrainDone (e : LinkEnd) (ok : Bool)
  | fiArm (r : FiReg) (v : Word)
  | faultInjection (site : FiSite)
  -- stacks
  | frameBoundary (st : Fin 16)
  | mscMapFlip (st : Fin 16)
  | stackRewrite (st : Fin 16)
  | stackPatrol (st : Fin 16)
  | stackFenceZero (st : Fin 16)
  | stackWipe
  | stackTempSample (st : Fin 16) (t : BitVec 10)
  | throttleStep (st : Fin 16) (up : Bool)
  | tCrit (st : Fin 16)
  -- clocks and power
  | aclkStep (die : Fin 8)
  | avsPoll (readings : List RailReading) (watts : BitVec 13)
  | regulatorFault (rail : Nat)
  | powerLevelStep (up : Bool)
  | idleEntry
  | idleExit
  | junctionShutdown (die : Nat)
  | thermtripComparator (die : Nat)
  | firmwareWatchdog
  | plannerHeartbeat
  | plannerWatchdog
  -- margin and logs
  | marginReview (cause : ReviewCause) (samples : List SentinelSample)
  | marchTest (cl : Fin 512) (failing : Bool)
  | logWrite (e : LogEvent)
  | heartbeat
  | corrSummary (unit : BitVec 32) (count : BitVec 32)
  -- Hedge
  | drbgReseed
  | healthTestFail
  | nonceExpiry
  | info
  | logRead (off : Word)
  | lcSet (target : BitVec 8) (serial : BitVec 64) (token : List Byte)
  | lifecycleTransition
  | dbgChal
  | dbgUnlock (token : List Byte)
  | dbgLock
  | pldm (request : List Byte)
  | mailboxDone
  | pldmSensorRead (sensor : Nat)
  | pldmUpdateData (off : Nat) (bytes : List Byte)
  | verifyComplete
  | activateFirmware
  -- SPDM
  | getVersion
  | getCapabilities (flags : Word)
  | negotiateAlgorithms (algs : Word)
  | getDigests
  | getCertificate (slot : BitVec 8) (off len : BitVec 16)
  | challenge (slot : BitVec 8) (nonce : List Byte)
  | getMeasurements (signed : Bool) (index : BitVec 8) (nonce : List Byte)
  | keyExchange (share : List Byte)
  | finish (hmacOk : Bool)
  | heartbeatSpdm
  | keyUpdate
  | endSession
  | ideKm (stream : Fin 5) (op : IdeOp)
  -- PKE
  | madd (cls : BitVec 2) (a b c d : BitVec 8)
  | msub (cls : BitVec 2) (a b c d : BitVec 8)
  | mmul (cls : BitVec 2) (a b c d : BitVec 8)
  | minv (cls : BitVec 2) (a b c d : BitVec 8)
  | mexp (cls : BitVec 2) (a b c d : BitVec 8)
  | ecdsaSignP256 (cls : BitVec 2) (a b c d : BitVec 8)
  | ecdsaVerifyP256 (cls : BitVec 2) (a b c d : BitVec 8)
  | ecdhP256 (cls : BitVec 2) (a b c d : BitVec 8)
  | pointValidate (cls : BitVec 2) (a b c d : BitVec 8)
  | macMode (base : BitVec 8) (count : BitVec 11)
  | pkeDone
  | pkeWipe
  | pkeDma (addr : BitVec 21) (slot : BitVec 8) (nslot : BitVec 9) (toSram : Bool)
  | pkeDmaDone
  | randomPoolRefill
  -- test port, DOE and sideband
  | jtagAccess (die : Nat) (op : JtagOp)
  | doeDiscovery (index : BitVec 8)
  | doeAbort
  | endpointIdAssign (eid : BitVec 8)
  | platformEventRead
  | cancelUpdate
  deriving DecidableEq, Repr

end Sys2Proof
end

