-- ==== Sys2Proof/Decode.lean ====
section
/-! DEFINITION. The command that a table word spells. spec/opcode_table.json gives no row any bits: the block has no
command encoding of its own, so no word spells a command. -/
namespace Sys2Proof

/-- The command that the `nbits` bits `w` spell: none, for every word. -/
def decodeTableWord (_nbits _w : Nat) : Option Instr := none

end Sys2Proof
end

