-- ==== Sys2Proof/Config.lean ====
section
/-! DEFINITION. What one implementation of the KLK-S8-1280 fixes: the manual's sizes, and the free values
(opaque constants without a body) that stand for every value the manual leaves open. -/
namespace Sys2Proof.Config

/-- Words of a scratchpad slice (R22). -/
def sliceWords : Nat := 1179648
/-- Rows of a scratchpad slice: 18,432 rows of 64 words (R23). -/
def sliceRows : Nat := 18432
/-- Bytes of a populated stack: offsets 0 to 0x13_FFFF_FFFF (R24). -/
def stackBytes : Nat := 0x1400000000
/-- First offset of the plan region of a stack (R20, R512). -/
def planRegion : Nat := 0x13C0000000
/-- First offset of the general region of a stack (R512). -/
def generalRegion : Nat := 0x880000000
/-- Bytes of a key page slot (R294). -/
def pageSlotBytes : Nat := 1052672
/-- Key slots of one stack's key region (R512, R513). -/
def keySlotsPerStack : Nat := 34680
/-- Page slots that stored pages of all key sets may take together (R305). -/
def maxPageSlots : Nat := 524288
/-- Jobs in flight at most (R30). -/
def maxJobs : Nat := 1024
/-- Cached plans at most (R410). -/
def maxPlans : Nat := 4096
/-- Key sets in the directory at most (R303). -/
def maxKeySets : Nat := 4096
/-- Key objects in the directory at most (R303). -/
def maxKeyObjects : Nat := 65536
/-- Watchdog trip count, 2^28 a-cycles (R501). -/
def watchdogTrip : Nat := 268435456
/-- MSI-X vectors (R544). -/
def msixVectors : Nat := 512

/-- FREE VALUE. Word number `n` of those the manual calls unspecified (R193, R217). Nothing constrains it. -/
opaque freeWord : Nat → BitVec 32

/-- FREE VALUE. The `n`-th 256-bit output of the DRBG (R131, R609, R616, R636). -/
opaque drbg : Nat → BitVec 256

/-- FREE VALUE. The bytes of a response body whose encoding an outside standard gives (SPDM, DOE, PLDM, X.509)
and this manual does not, number `n`. -/
opaque freeBytes : Nat → List (BitVec 8)

/-- FREE VALUE. A number the manual leaves open, number `n` (a reading that no rule gives). -/
opaque freeNat : Nat → Nat

/-- FREE VALUE. PTM master time in ns at a-cycle `n` of the module (R571), which the PTM root gives. -/
opaque ptmTime : Nat → Nat

/-- FREE VALUE. The power of the module in Idle, in W: R651 counts it and no rule gives the figure. -/
opaque idlePower : Nat

/-- FREE VALUE. Which operating frequency F₀ the Hedge sets for a committed rate in MHz (R37, R535). -/
opaque operatingRate : Nat → Nat

/-- FREE VALUE. Number `n` of the placement stream of a seed (R636: AES-256 in counter mode, with draws by rejection). -/
opaque placement : BitVec 256 → Nat → Nat

/-- FREE VALUE. Real operations in window `w` of a ladder of a curve command (R635): no rule gives how many of the 8 slots they take. -/
opaque curveSlots : Nat → Nat

/-- FREE VALUE. The digit that GDECOMP takes from x with base 2^`w` and `l` levels at index `i` where R121 has none (log entry 146). -/
opaque openDigit (w l i x : Nat) : Int

/-- FREE VALUE. V(F) in mV of die `d` at step `k` where no margin record exists: no rule gives it (R697). -/
opaque voltage : Nat → Nat → Nat

/-- FREE VALUE. NOISE of the L2S key of a key set, read as a slot ciphertext (R151): no field of its pages gives it. -/
opaque l2sNoise : Nat → Nat

/-- Digest of the boot ROM (measurement 1, R606): fixed in the part, not stated by the manual. -/
opaque romDigest : BitVec 256

/-- Board identity fields of R544 that fuses hold and the manual does not state are in the fuse state. The Kalrek
root hash of the certificate chain (R605) is fixed in the part and not stated. -/
opaque rootHash : BitVec 256

end Sys2Proof.Config
end

