-- ==== Sys2Proof/Machine/Tab.lean ====
section
/-! DEFINITION. The operations over sparse tables and byte memories: read, write, read and write of a run, the canonical
form, and words, half-words and numbers in little-endian byte order (R3). What an unlisted index reads as is the
argument `d`. -/
namespace Sys2Proof.Machine

/-- The entry of index `k`, `d` when the table lists none. -/
def tget {α : Type} (d : α) : Tab α → Nat → α
  | [], _ => d
  | (j, v) :: t, k => if k = j then v else if k < j then d else tget d t k

/-- The table with `v` at index `k`. Writing `d` unlists the index, so the form stays canonical. -/
def tset {α : Type} [DecidableEq α] (d : α) : Tab α → Nat → α → Tab α
  | [], k, v => if v = d then [] else [(k, v)]
  | (j, w) :: t, k, v =>
    if k < j then (if v = d then (j, w) :: t else (k, v) :: (j, w) :: t)
    else if k = j then
      (if v = d then t.dropWhile (fun p => decide (p.1 ≤ k)) else (k, v) :: t)
    else (j, w) :: tset d t k v

/-- The table with `f` applied to the entry of index `k`. -/
def tmod {α : Type} [DecidableEq α] (d : α) (t : Tab α) (k : Nat) (f : α → α) : Tab α :=
  tset d t k (f (tget d t k))

/-- The entries, not the unlisted value, of a run of values that starts at index `k`. -/
def tentries {α : Type} [DecidableEq α] (d : α) : Nat → List α → Tab α
  | _, [] => []
  | k, v :: vs => if v = d then tentries d (k + 1) vs else (k, v) :: tentries d (k + 1) vs

/-- The table with the values `vs` at indexes `k`, `k + 1`, …: one pass. -/
def tsetRange {α : Type} [DecidableEq α] (d : α) (t : Tab α) (k : Nat) (vs : List α) : Tab α :=
  t.takeWhile (fun p => decide (p.1 < k)) ++ tentries d k vs
    ++ t.dropWhile (fun p => decide (p.1 < k + vs.length))

/-- `n` consecutive entries from index `k`, of a table whose listed indexes are all at least `k`. -/
def twalk {α : Type} (d : α) : Tab α → Nat → Nat → List α
  | _, _, 0 => []
  | [], k, n + 1 => d :: twalk d [] (k + 1) n
  | (j, v) :: t, k, n + 1 =>
    if j = k then v :: twalk d t (k + 1) n else d :: twalk d ((j, v) :: t) (k + 1) n

/-- `n` consecutive entries from index `k`: one pass. -/
def tgetRange {α : Type} (d : α) (t : Tab α) (k n : Nat) : List α :=
  twalk d (t.dropWhile (fun p => decide (p.1 < k))) k n

/-- The canonical form above a bound: indexes rise strictly from `lo` on, and no entry has the unlisted value. -/
def twfFrom {α : Type} [DecidableEq α] (d : α) : Nat → Tab α → Bool
  | _, [] => true
  | lo, (j, v) :: t => decide (lo ≤ j) && decide (v ≠ d) && twfFrom d (j + 1) t

/-- The canonical form of a table. -/
def twf {α : Type} [DecidableEq α] (d : α) (t : Tab α) : Bool := twfFrom d 0 t

/-- The canonical form of a byte memory whose unlisted bytes read 0. -/
def memWf (m : Mem) : Bool := twf (0 : Byte) m

/-! ## Byte memories -/

/-- One byte. -/
def mget (m : Mem) (a : Nat) : Byte := tget (0 : Byte) m a

/-- `n` bytes from address `a`. -/
def mbytes (m : Mem) (a n : Nat) : List Byte := tgetRange (0 : Byte) m a n

/-- The memory with bytes `bs` at address `a`. -/
def mput (m : Mem) (a : Nat) (bs : List Byte) : Mem := tsetRange (0 : Byte) m a bs

/-- The number that little-endian bytes hold (R3). -/
def leNat : List Byte → Nat
  | [] => 0
  | b :: bs => b.toNat + 256 * leNat bs

/-- The number that big-endian bytes hold (standards that keep their own order, 00_scope). -/
def beNat (bs : List Byte) : Nat := leNat bs.reverse

/-- The low `n` bytes of a number, little-endian. -/
def leBytes : Nat → Nat → List Byte
  | 0, _ => []
  | n + 1, x => BitVec.ofNat 8 x :: leBytes n (x / 256)

/-- The low `n` bytes of a number, big-endian. -/
def beBytes (n x : Nat) : List Byte := (leBytes n x).reverse

/-- The words of a byte string, little-endian, 4 bytes each; a short last word is filled with zero bytes. -/
def wordsOf : List Byte → List Word
  | [] => []
  | [a] => [BitVec.ofNat 32 a.toNat]
  | [a, b] => [BitVec.ofNat 32 (leNat [a, b])]
  | [a, b, c] => [BitVec.ofNat 32 (leNat [a, b, c])]
  | a :: b :: c :: d :: rest => BitVec.ofNat 32 (leNat [a, b, c, d]) :: wordsOf rest

/-- The bytes of a string of words, little-endian. -/
def bytesOf : List Word → List Byte
  | [] => []
  | w :: ws => leBytes 4 w.toNat ++ bytesOf ws

/-- Word `w` (word address) of a memory. -/
def mword (m : Mem) (w : Nat) : Word := BitVec.ofNat 32 (leNat (mbytes m (4 * w) 4))

/-- `n` words from word address `w`. -/
def mwords (m : Mem) (w n : Nat) : List Word := wordsOf (mbytes m (4 * w) (4 * n))

/-- The memory with the words `ws` from word address `w`. -/
def mputWords (m : Mem) (w : Nat) (ws : List Word) : Mem := mput m (4 * w) (bytesOf ws)

/-! ## Fields -/

/-- Bits `[hi:lo]` of a number (R4). -/
def bits (x hi lo : Nat) : Nat := (x >>> lo) % 2 ^ (hi + 1 - lo)

/-- Bit `i` of a number. -/
def bit (x i : Nat) : Bool := (x >>> i) % 2 = 1

/-- `x` with bits `[hi:lo]` replaced by the low bits of `v`. -/
def setBits (x hi lo v : Nat) : Nat :=
  x - (bits x hi lo) * 2 ^ lo + (v % 2 ^ (hi + 1 - lo)) * 2 ^ lo

/-- The two's-complement value of the low `n` bits of `x`. -/
def signed (n x : Nat) : Int :=
  let y := x % 2 ^ n
  if 2 * y ≥ 2 ^ n then (y : Int) - (2 ^ n : Nat) else y

/-- The 1 of a flag. -/
def b2n (b : Bool) : Nat := if b then 1 else 0

/-- `⌈a ÷ b⌉`. -/
def ceilDiv (a b : Nat) : Nat := (a + b - 1) / b

/-- Addition that saturates at the largest value of the width. -/
def satAdd {w : Nat} (x : BitVec w) (n : Nat) : BitVec w :=
  if x.toNat + n ≥ 2 ^ w then BitVec.ofNat w (2 ^ w - 1) else BitVec.ofNat w (x.toNat + n)

/-- `x` saturated to `w` bits. -/
def satN (w x : Nat) : Nat := if x ≥ 2 ^ w then 2 ^ w - 1 else x

/-- The little-endian number in bytes `off` to `off + n − 1` of a structure. -/
def field (bs : List Byte) (off n : Nat) : Nat := leNat ((bs.drop off).take n)

/-- Whether bytes `off` to `off + n − 1` are all zero. -/
def zeroField (bs : List Byte) (off n : Nat) : Bool := ((bs.drop off).take n).all (· = 0)

/-- `n` zero bytes. -/
def zeros (n : Nat) : List Byte := List.replicate n 0

/-- Bit reversal of the low `n` bits (brv of R63). -/
def brv : Nat → Nat → Nat
  | 0, _ => 0
  | n + 1, x => (x % 2) * 2 ^ n + brv n (x / 2)

/-- The list with element `i` replaced; unchanged when there is none. -/
def lset {α : Type} : List α → Nat → α → List α
  | [], _, _ => []
  | _ :: xs, 0, v => v :: xs
  | x :: xs, i + 1, v => x :: lset xs i v

/-- The list without element `i`. -/
def ldel {α : Type} : List α → Nat → List α
  | [], _ => []
  | _ :: xs, 0 => xs
  | x :: xs, i + 1 => x :: ldel xs i

/-- The least element, `d` for the empty list. -/
def lmin (d : Nat) : List Nat → Nat
  | [] => d
  | x :: xs => min x (lmin x xs)

/-- The greatest element, 0 for the empty list. -/
def lmax : List Nat → Nat
  | [] => 0
  | x :: xs => max x (lmax xs)

/-- The sum. -/
def lsum : List Nat → Nat
  | [] => 0
  | x :: xs => x + lsum xs

/-- Whether two half-open ranges `[a, a + n)` and `[b, b + m)` share a place; an empty one shares none. -/
def rangesMeet (a n b m : Nat) : Bool := decide (a < b + m ∧ b < a + n ∧ n ≠ 0 ∧ m ≠ 0)

end Sys2Proof.Machine
end

