-- ==== Sys2Proof/Machine/Fp.lean ====
section
/-! DEFINITION. Open arithmetic (08_open_arithmetic): element encodings (R259), exact dyadic values, one rounding to a
format (R264, R270), the flags (R265), special values (R267 to R272), the FP32 operations of the VEC (R238 to R240) and
the reference accumulation order (R273 to R276). Flags are a 4-bit set: bit 0 invalid, 1 overflow, 2 underflow,
3 inexact. -/
namespace Sys2Proof.Machine

/-- A set of sticky flags. -/
abbrev FFlags := BitVec 4

def fInvalid : FFlags := 1
def fOverflow : FFlags := 2
def fUnderflow : FFlags := 4
def fInexact : FFlags := 8

/-- An element value: NaN with its 32-bit FP32 form and whether it is signalling, infinity, or (−1)^neg × m × 2^e. -/
inductive Fv where
  | nan (w : Word) (sig : Bool)
  | inf (neg : Bool)
  | fin (neg : Bool) (m : Nat) (e : Int)
  deriving DecidableEq, Repr

/-- A floating-point format (*Element encodings*): exponent and mantissa widths, bias, the largest finite value as
`maxM × 2^maxE`. -/
structure FFmt where
  eb : Nat
  mb : Nat
  bias : Int
  maxM : Nat
  maxE : Int
  deriving DecidableEq, Repr

def fmtFP32 : FFmt := { eb := 8, mb := 23, bias := 127, maxM := 2 ^ 24 - 1, maxE := 104 }
def fmtBF16 : FFmt := { eb := 8, mb := 7, bias := 127, maxM := 2 ^ 8 - 1, maxE := 120 }
def fmtFP16 : FFmt := { eb := 5, mb := 10, bias := 15, maxM := 2 ^ 11 - 1, maxE := 5 }
def fmtE5M2 : FFmt := { eb := 5, mb := 2, bias := 15, maxM := 7, maxE := 13 }
def fmtE4M3 : FFmt := { eb := 4, mb := 3, bias := 7, maxM := 14, maxE := 5 }
def fmtE2M1 : FFmt := { eb := 2, mb := 1, bias := 1, maxM := 3, maxE := 1 }

/-- The default NaN (R268). -/
def nanDefault : Word := 0x7FC00000

/-- The finite value of sign, exponent and mantissa fields (R259). -/
def fpFin (f : FFmt) (neg : Bool) (ex man : Nat) : Fv :=
  if ex = 0 then .fin neg man (1 - f.bias - f.mb)
  else .fin neg (2 ^ f.mb + man) ((ex : Int) - f.bias - f.mb)

/-- An FP32 word. -/
def fpOf (w : Word) : Fv :=
  let n := w.toNat
  let ex := bits n 30 23
  let man := bits n 22 0
  if ex = 255 then (if man = 0 then .inf (bit n 31) else .nan w (!bit n 22))
  else fpFin fmtFP32 (bit n 31) ex man

/-- The value of a non-MX element code (R259, R272): the low bits of `n` in the format with this code. NaNs carry the
FP32 word that R272 widens them to. -/
def elemOf (code n : Nat) : Fv :=
  if code = 0x1 then
    let k := signed 8 n
    .fin (decide (k < 0)) k.natAbs 0
  else if code = 0x2 then
    let s := bit n 7
    if n % 128 = 127 then .nan (BitVec.ofNat 32 (b2n s * 2 ^ 31 + 0x7FC00000)) false
    else fpFin fmtE4M3 s (bits n 6 3) (bits n 2 0)
  else if code = 0x3 then
    let s := bit n 7
    if bits n 6 2 = 31 then
      (if n % 4 = 0 then .inf s else .nan (BitVec.ofNat 32 (b2n s * 2 ^ 31 + 0x7FC00000)) false)
    else fpFin fmtE5M2 s (bits n 6 2) (bits n 1 0)
  else if code = 0x8 then
    let s := bit n 15
    if bits n 14 7 = 255 then
      (if n % 128 = 0 then .inf s
       else .nan (BitVec.ofNat 32 ((n % 65536) * 65536) ||| 0x00400000) (!bit n 6))
    else fpFin fmtBF16 s (bits n 14 7) (bits n 6 0)
  else if code = 0x9 then
    let s := bit n 15
    if bits n 14 10 = 31 then
      (if n % 1024 = 0 then .inf s
       else .nan (BitVec.ofNat 32 (b2n s * 2 ^ 31 + 0x7FC00000 + bits n 8 0 * 2 ^ 13)) (!bit n 9))
    else fpFin fmtFP16 s (bits n 14 10) (bits n 9 0)
  else fpOf (BitVec.ofNat 32 n)

/-- An FP4 E2M1 code or an MXINT8 code, MX elements only. -/
def mxElemOf (code n : Nat) : Fv :=
  if code = 0x4 then
    let k := signed 8 n
    .fin (decide (k < 0)) k.natAbs (-6)
  else if code = 0x5 then elemOf 0x2 n
  else if code = 0x6 then elemOf 0x3 n
  else fpFin fmtE2M1 (bit n 3) (bits n 2 1) (n % 2)

/-- An MX element under its E8M0 scale (R260, R262). -/
def mxScaled (x : Nat) (v : Fv) : Fv :=
  if x = 255 then .nan nanDefault false
  else match v with
    | .fin s m e => .fin s m (e + (x : Int) - 127)
    | o => o

/-! ## Rounding -/

/-- The magnitude `(num + frac) × 2^e`, `0 ≤ frac < 1`, `sticky` when `frac ≠ 0`, rounded to `p` bits of precision with
the least quantum `2^qmin`, to nearest with ties to even (R264): mantissa, exponent, inexact. -/
def roundMag (p : Nat) (qmin : Int) (num : Nat) (e : Int) (sticky : Bool) : Nat × Int × Bool :=
  if num = 0 then (0, qmin, sticky)
  else
    let q := max ((Nat.log2 num : Int) + e - (p - 1)) qmin
    if q ≤ e then (num * 2 ^ (e - q).toNat, q, sticky)
    else
      let sh := (q - e).toNat
      let m := num / 2 ^ sh
      let r := num % 2 ^ sh
      let half := 2 ^ (sh - 1)
      let up := decide (r > half) || (decide (r = half) && (sticky || decide (m % 2 = 1)))
      (m + b2n up, q, decide (r ≠ 0) || sticky)

/-- Whether `m × 2^e` is above `m' × 2^e'`. -/
def magGt (m : Nat) (e : Int) (m' : Nat) (e' : Int) : Bool :=
  let k := min e e'
  decide (m * 2 ^ (e - k).toNat > m' * 2 ^ (e' - k).toNat)

/-- Sign, exponent and mantissa fields of a rounded finite magnitude `m × 2^q` of a format. -/
def fpFields (f : FFmt) (neg : Bool) (m : Nat) (q : Int) : Nat :=
  let s := b2n neg * 2 ^ (f.eb + f.mb)
  let (m, q) := if m = 2 ^ (f.mb + 1) then (m / 2, q + 1) else (m, q)
  if m < 2 ^ f.mb then s + m
  else s + (q + f.mb + f.bias).toNat * 2 ^ f.mb + (m - 2 ^ f.mb)

/-- The rounding of an exact non-zero magnitude to a format with infinities (FP32, BF16, FP16, E5M2): the code and the
flags (R264, R265, R270). -/
def fpRound (f : FFmt) (neg : Bool) (num : Nat) (e : Int) (sticky : Bool) : Nat × FFlags :=
  let emin : Int := 1 - f.bias
  let (m, q, inex) := roundMag (f.mb + 1) (emin - f.mb) num e sticky
  if magGt m q f.maxM f.maxE then
    (b2n neg * 2 ^ (f.eb + f.mb) + (2 ^ f.eb - 1) * 2 ^ f.mb, fOverflow ||| fInexact)
  else
    let tiny := decide ((Nat.log2 num : Int) + e < emin) && (decide (num ≠ 0) || sticky)
    (fpFields f neg m q, (if inex then fInexact else 0) ||| (if inex && tiny then fUnderflow else 0))

/-- rnd32 of an exact value: the FP32 word and its flags. -/
def rnd32 (neg : Bool) (num : Nat) (e : Int) (sticky : Bool) : Word × FFlags :=
  let (n, f) := fpRound fmtFP32 neg num e sticky
  (BitVec.ofNat 32 n, f)

/-- FP32 infinity of a sign. -/
def infWord (neg : Bool) : Word := if neg then 0xFF800000 else 0x7F800000

/-- FP32 zero of a sign. -/
def zeroWord (neg : Bool) : Word := if neg then 0x80000000 else 0

/-- A result and the flags it raises. -/
abbrev FRes := Word × FFlags

/-- The default NaN with invalid raised (R268). -/
def nanInvalid : FRes := (nanDefault, fInvalid)

/-- The first NaN among the operands, quieted (R267), with invalid when any operand is signalling (R265). -/
def nanOperand (ops : List Word) : Option FRes :=
  let sig := ops.any (fun w => match fpOf w with | .nan _ s => s | _ => false)
  match ops.filter (fun w => match fpOf w with | .nan _ _ => true | _ => false) with
  | [] => none
  | w :: _ => some (w ||| 0x00400000, if sig then fInvalid else 0)

/-- The exact sum of two dyadics, as sign, magnitude and exponent; `zneg` is the sign an exact zero takes. -/
def dyAdd (s1 : Bool) (m1 : Nat) (e1 : Int) (s2 : Bool) (m2 : Nat) (e2 : Int) (zneg : Bool) : Bool × Nat × Int :=
  let k := min e1 e2
  let x1 : Int := (m1 * 2 ^ (e1 - k).toNat : Nat)
  let x2 : Int := (m2 * 2 ^ (e2 - k).toNat : Nat)
  let t := (if s1 then -x1 else x1) + (if s2 then -x2 else x2)
  if t = 0 then (zneg, 0, k) else (decide (t < 0), t.natAbs, k)

/-- A value rounded to FP32: exact zero keeps its sign. -/
def fvRound : Fv → FRes
  | .nan w _ => (w, 0)
  | .inf s => (infWord s, 0)
  | .fin s m e => if m = 0 then (zeroWord s, 0) else rnd32 s m e false

/-- The exact sum of two non-NaN values, or `none` for ∞ − ∞. -/
def fvAdd (a b : Fv) : Option Fv :=
  match a, b with
  | .inf s, .inf t => if s = t then some (.inf s) else none
  | .inf s, _ => some (.inf s)
  | _, .inf t => some (.inf t)
  | .fin s1 m1 e1, .fin s2 m2 e2 =>
    let (s, m, e) := dyAdd s1 m1 e1 s2 m2 e2 (decide (m1 = 0 ∧ m2 = 0) && s1 && s2)
    some (.fin s m e)
  | a, _ => some a

/-- The exact product of two non-NaN values, or `none` for 0 × ∞. -/
def fvMul (a b : Fv) : Option Fv :=
  match a, b with
  | .inf s, .inf t => some (.inf (s != t))
  | .inf s, .fin t m _ => if m = 0 then none else some (.inf (s != t))
  | .fin s m _, .inf t => if m = 0 then none else some (.inf (s != t))
  | .fin s1 m1 e1, .fin s2 m2 e2 => some (.fin (s1 != s2) (m1 * m2) (e1 + e2))
  | a, _ => some a

/-- FP32 a + b. -/
def fpAdd (a b : Word) : FRes :=
  match nanOperand [a, b] with
  | some r => r
  | none => match fvAdd (fpOf a) (fpOf b) with
    | some v => fvRound v
    | none => nanInvalid

/-- FP32 −a, the sign flipped. -/
def fpNeg (a : Word) : Word := a ^^^ 0x80000000

/-- FP32 a − b: a NaN operand keeps its sign (R267). -/
def fpSub (a b : Word) : FRes :=
  match nanOperand [a, b] with
  | some r => r
  | none => fpAdd a (fpNeg b)

/-- FP32 a × b. -/
def fpMul (a b : Word) : FRes :=
  match nanOperand [a, b] with
  | some r => r
  | none => match fvMul (fpOf a) (fpOf b) with
    | some v => fvRound v
    | none => nanInvalid

/-- FP32 a × b + c with one rounding. -/
def fpFma (a b c : Word) : FRes :=
  match nanOperand [a, b, c] with
  | some r => r
  | none => match fvMul (fpOf a) (fpOf b) with
    | some p => match fvAdd p (fpOf c) with
      | some v => fvRound v
      | none => nanInvalid
    | none => nanInvalid

/-- Whether a value is below another, −0 and +0 equal; false with a NaN. -/
def fvLt (a b : Fv) : Bool :=
  match a, b with
  | .nan _ _, _ => false
  | _, .nan _ _ => false
  | .inf s, .inf t => s && !t
  | .inf s, _ => s
  | _, .inf t => !t
  | .fin s1 m1 e1, .fin s2 m2 e2 =>
    let (s, m, _) := dyAdd s1 m1 e1 (!s2) m2 e2 false
    s && decide (m ≠ 0)

/-- FEQ: −0 and +0 equal, false with a NaN. -/
def fvEq (a b : Fv) : Bool :=
  match a, b with
  | .nan _ _, _ => false
  | _, .nan _ _ => false
  | a, b => !fvLt a b && !fvLt b a

/-- Whether a word is a NaN. -/
def isNan (w : Word) : Bool := match fpOf w with | .nan _ _ => true | _ => false

/-- IEEE 754-2019 minimum: a NaN wins, −0 is below +0 (R238). -/
def fpMin (a b : Word) : FRes :=
  match nanOperand [a, b] with
  | some r => r
  | none =>
    if fvLt (fpOf a) (fpOf b) then (a, 0) else if fvLt (fpOf b) (fpOf a) then (b, 0)
    else (if bit a.toNat 31 then a else b, 0)

/-- IEEE 754-2019 maximum. -/
def fpMax (a b : Word) : FRes :=
  match nanOperand [a, b] with
  | some r => r
  | none =>
    if fvLt (fpOf a) (fpOf b) then (b, 0) else if fvLt (fpOf b) (fpOf a) then (a, 0)
    else (if bit a.toNat 31 then b else a, 0)

/-- FP32 a ÷ b (R238, R240). -/
def fpDiv (a b : Word) : FRes :=
  match nanOperand [a, b] with
  | some r => r
  | none => match fpOf a, fpOf b with
    | .inf _, .inf _ => nanInvalid
    | .inf s, .fin t _ _ => (infWord (s != t), 0)
    | .fin s _ _, .inf t => (zeroWord (s != t), 0)
    | .fin s m e, .fin t n k =>
      if n = 0 then (if m = 0 then nanInvalid else (infWord (s != t), fOverflow))
      else if m = 0 then (zeroWord (s != t), 0)
      else
        let x := m * 2 ^ 64
        rnd32 (s != t) (x / n) (e - k - 64) (decide (x % n ≠ 0))
    | _, _ => nanInvalid

/-! ## Functions (R239) -/

/-- ⌊√n⌋, bit by bit from bit `k`. -/
def isqrtF : Nat → Nat → Nat → Nat
  | 0, _, r => r
  | k + 1, n, r => if (r + 2 ^ k) * (r + 2 ^ k) ≤ n then isqrtF k n (r + 2 ^ k) else isqrtF k n r

/-- ⌊√n⌋. -/
def isqrt (n : Nat) : Nat := isqrtF (Nat.log2 n / 2 + 1) n 0

/-- 2^256, the unit of the fixed-point constants below. -/
def fix : Nat := 2 ^ 256

/-- Σ z^(2k+1) / (2k+1) from term `k` on, in fixed point: `p` is z^(2k+1), `z2` is z². -/
def atanhF (z2 : Nat) : Nat → Nat → Nat → Nat
  | 0, _, _ => 0
  | f + 1, k, p => p / (2 * k + 1) + atanhF z2 f (k + 1) (p * z2 / fix)

/-- atanh of a fixed-point z ≤ 1/3. -/
def atanhFix (z : Nat) : Nat := atanhF (z * z / fix) 90 0 z

/-- ln 2 in fixed point: 2 atanh(1/3). -/
def ln2Fix : Nat := 2 * atanhFix (fix / 3)

/-- Σ x^k / k! from term `k` on. -/
def expF (x : Nat) : Nat → Nat → Nat → Nat
  | 0, _, _ => 0
  | f + 1, k, p => p + expF x f (k + 1) (p * x / fix / (k + 1))

/-- e^x of a fixed-point x in [0, 1). -/
def expFix (x : Nat) : Nat := expF x 70 0 fix

/-- e^−x of a fixed-point x ≥ 0: the reduction by ln 2, and a division. -/
def expNegFix (x : Nat) : Nat :=
  let n := x / ln2Fix
  let r := x % ln2Fix
  fix * fix / expFix r / 2 ^ n

/-- RCP. -/
def fpRcp (a : Word) : FRes :=
  match fpOf a with
  | .nan _ _ => (nanOperand [a]).getD nanInvalid
  | .inf s => (zeroWord s, 0)
  | .fin s m _ => if m = 0 then (infWord s, fOverflow) else fpDiv 0x3F800000 a

/-- RSQRT: 1 ÷ √a, rounded from the exact value. -/
def fpRsqrt (a : Word) : FRes :=
  match fpOf a with
  | .nan _ _ => (nanOperand [a]).getD nanInvalid
  | .inf s => if s then nanInvalid else (0, 0)
  | .fin s m e =>
    if m = 0 then (infWord s, fOverflow)
    else if s then nanInvalid
    else
      -- 1/√(m·2^e) = √(2^(K − e)/m)·2^(−K/2), with K − e even
      let (m, e) := if e % 2 = 0 then (m, e) else (2 * m, e - 1)
      let x := 2 ^ 128 / m
      let r := isqrt x
      rnd32 false r (-64 - e / 2) (decide (r * r * m ≠ 2 ^ 128))

/-- EXP2: 2^a to the nearest FP32. An integer a gives an exact power; every other finite non-zero a an inexact result. -/
def fpExp2 (a : Word) : FRes :=
  match fpOf a with
  | .nan _ _ => (nanOperand [a]).getD nanInvalid
  | .inf s => if s then (0, 0) else (infWord false, 0)
  | .fin s m e =>
    if m = 0 then (0x3F800000, 0)
    else if (Nat.log2 m : Int) + e ≥ 8 then
      (if s then (0, fUnderflow ||| fInexact) else (infWord false, fOverflow ||| fInexact))
    else
      -- a as a fixed-point integer of unit 2^-256; e is at least -149
      let x : Int := (m * 2 ^ (e + 256).toNat : Nat)
      let x := if s then -x else x
      let n := x / (fix : Int)
      let f := (x % (fix : Int)).toNat
      let y := if f = 0 then fix else expFix (f * ln2Fix / fix)
      let (w, fl) := rnd32 false y (n - 256) (decide (f ≠ 0))
      let small := decide (w.toNat < 0x00800000)
      (w, (fl &&& (fOverflow ||| fInexact)) ||| (if small && decide (fl &&& fInexact ≠ 0) then fUnderflow else 0))

/-- LOG2. -/
def fpLog2 (a : Word) : FRes :=
  match fpOf a with
  | .nan _ _ => (nanOperand [a]).getD nanInvalid
  | .inf s => if s then nanInvalid else (infWord false, 0)
  | .fin s m e =>
    if m = 0 then (infWord true, fOverflow)
    else if s then nanInvalid
    else
      let l := Nat.log2 m
      let ex : Int := (l : Int) + e
      let z := (m - 2 ^ l) * fix / (m + 2 ^ l)
      let t : Int := ex * (fix : Int) + ((2 * atanhFix z * fix / ln2Fix : Nat) : Int)
      if m = 2 ^ l then (if ex = 0 then (0, 0) else rnd32 (decide (ex < 0)) ex.natAbs 0 false)
      else rnd32 (decide (t < 0)) t.natAbs (-256) true

/-- TANH. -/
def fpTanh (a : Word) : FRes :=
  match fpOf a with
  | .nan _ _ => (nanOperand [a]).getD nanInvalid
  | .inf s => (if s then 0xBF800000 else 0x3F800000, 0)
  | .fin s m e =>
    if m = 0 then (a, 0)
    else if (Nat.log2 m : Int) + e ≥ 5 then rnd32 s (fix - 1) (-256) true
    -- below 2^-40 the exact value lies between a·(1 − 2^-64) and a
    else if (Nat.log2 m : Int) + e < -40 then rnd32 s (m * 2 ^ 64 - 1) (e - 64) true
    else
      let x := m * 2 ^ (e + 256).toNat
      let u := expNegFix (2 * x)
      rnd32 s ((fix - u) * fix / (fix + u)) (-256) true

/-! ## Conversions (R270 to R272) -/

/-- I2F. -/
def fpOfInt (a : Word) : FRes :=
  let x := signed 32 a.toNat
  if x = 0 then (0, 0) else rnd32 (decide (x < 0)) x.natAbs 0 false

/-- An exact dyadic rounded to an integer, ties to even: magnitude and inexact. -/
def roundInt (m : Nat) (e : Int) : Nat × Bool :=
  if e ≥ 0 then (m * 2 ^ e.toNat, false)
  else
    let sh := (-e).toNat
    let q := m / 2 ^ sh
    let r := m % 2 ^ sh
    let half := 2 ^ (sh - 1)
    (q + b2n (decide (r > half) || (decide (r = half) && decide (q % 2 = 1))), decide (r ≠ 0))

/-- An FP32 word to a two's-complement integer of `w` bits: saturation and NaN raise invalid (R235 F2I, R270 INT8). -/
def fpToInt (w : Nat) (a : Word) : Nat × FFlags :=
  match fpOf a with
  | .nan _ _ => (0, fInvalid)
  | .inf s => (if s then 2 ^ (w - 1) else 2 ^ (w - 1) - 1, fInvalid)
  | .fin s m e =>
    -- any magnitude of 2^40 or above saturates
    if m ≠ 0 ∧ (Nat.log2 m : Int) + e ≥ 40 then (if s then 2 ^ (w - 1) else 2 ^ (w - 1) - 1, fInvalid)
    else
      let (q, inex) := roundInt m e
      if s then
        (if q > 2 ^ (w - 1) then (2 ^ (w - 1), fInvalid) else ((2 ^ w - q) % 2 ^ w, if inex then fInexact else 0))
      else
        (if q > 2 ^ (w - 1) - 1 then (2 ^ (w - 1) - 1, fInvalid) else (q, if inex then fInexact else 0))

/-- FP32 to E4M3, or an exact finite value to E4M3, with saturation to ±448 (R270). -/
def e4m3Round (neg : Bool) (num : Nat) (e : Int) : Nat × FFlags :=
  let (m, q, inex) := roundMag 4 (-9) num e false
  if magGt m q 14 5 then (b2n neg * 128 + 0x7E, fOverflow ||| fInexact)
  else
    let tiny := decide (num ≠ 0) && decide ((Nat.log2 num : Int) + e < -6)
    (fpFields fmtE4M3 neg m q, (if inex then fInexact else 0) ||| (if inex && tiny then fUnderflow else 0))

/-- NARROW and CAST (R270, R271): an FP32 word to the format with this code (0x1, 0x2, 0x3, 0x8, 0x9). -/
def fpNarrow (code : Nat) (a : Word) : Nat × FFlags :=
  let n := a.toNat
  if code = 0x1 then fpToInt 8 a
  else
    let s := bit n 31
    let f := if code = 0x3 then fmtE5M2 else if code = 0x8 then fmtBF16 else fmtFP16
    match fpOf a with
    | .nan _ sig =>
      let fl := if sig then fInvalid else 0
      if code = 0x8 then (n / 65536 ||| 64, fl)
      else if code = 0x9 then (b2n s * 32768 + 0x7E00 + bits n 21 13, fl)
      else (b2n s * 128 + 127, fl)
    | .inf _ =>
      if code = 0x2 then (b2n s * 128 + 0x7E, fInvalid)
      else (b2n s * 2 ^ (f.eb + f.mb) + (2 ^ f.eb - 1) * 2 ^ f.mb, 0)
    | .fin _ m e =>
      if m = 0 then (if code = 0x2 ∨ code = 0x3 then b2n s * 128 else b2n s * 32768, 0)
      else if code = 0x2 then e4m3Round s m e
      else fpRound f s m e false

/-- WIDEN (R272): an element code to FP32. -/
def fpWiden (code n : Nat) : FRes :=
  match elemOf code n with
  | .nan w sig => (w, if sig then fInvalid else 0)
  | v => fvRound v

/-! ## OPEN products (R273 to R276) -/

/-- What a group of products sums to: the flags it raises, and its value (NaN, an infinity or an exact value). -/
def groupSum (ps : List (Fv × Fv)) : FFlags × Fv :=
  let sig := ps.any (fun (a, b) => (match a with | .nan _ s => s | _ => false) || (match b with | .nan _ s => s | _ => false))
  let prods := ps.map (fun (a, b) => match a, b with
    | .nan w _, _ => Fv.nan w false
    | _, .nan w _ => Fv.nan w false
    | a, b => (fvMul a b).getD (.nan nanDefault true))
  let zeroInf := prods.any (fun v => match v with | .nan _ s => s | _ => false)
  let anyNan := prods.any (fun v => match v with | .nan _ _ => true | _ => false)
  let posInf := prods.any (fun v => match v with | .inf s => !s | _ => false)
  let negInf := prods.any (fun v => match v with | .inf s => s | _ => false)
  let inv := sig || zeroInf || (posInf && negInf)
  let fl := if inv then fInvalid else 0
  if anyNan || (posInf && negInf) then (fl, .nan nanDefault false)
  else if posInf then (fl, .inf false)
  else if negInf then (fl, .inf true)
  else
    let allNegZero := prods.all (fun v => match v with | .fin s m _ => s && decide (m = 0) | _ => false)
    let (s, m, e) := prods.foldl (fun (acc : Bool × Nat × Int) v => match v with
      | .fin t n k => dyAdd acc.1 acc.2.1 acc.2.2 t n k false
      | _ => acc) (false, 0, 0)
    (fl, .fin (if m = 0 then allNegZero else s) m e)

/-- One accumulation step of R273: the group sum of `ps` into the accumulator, one rounding. -/
def accStep (acc : Option Word × FFlags) (ps : List (Fv × Fv)) : Option Word × FFlags :=
  let (gf, s) := groupSum ps
  match acc.1 with
  | none => match s with
    | .nan _ _ => (some nanDefault, acc.2 ||| gf)
    | v => let (w, f) := fvRound v; (some w, acc.2 ||| gf ||| f)
  | some a => match fpOf a, s with
    | .nan _ _, _ => (some nanDefault, acc.2 ||| gf)
    | _, .nan _ _ => (some nanDefault, acc.2 ||| gf)
    | x, y => match fvAdd x y with
      | some v => let (w, f) := fvRound v; (some w, acc.2 ||| gf ||| f)
      | none => (some nanDefault, acc.2 ||| gf ||| fInvalid)

/-- The products in groups of 16 consecutive positions (R186: an absent position contributes no product). -/
def groups16 : Nat → List (Fv × Fv) → List (List (Fv × Fv))
  | 0, _ => []
  | f + 1, ps => match ps with
    | [] => []
    | _ => ps.take 16 :: groups16 f (ps.drop 16)

/-- One output word of an OPEN operation (R273). -/
def openDot (ps : List (Fv × Fv)) : FRes :=
  let (a, f) := (groups16 (ps.length / 16 + 1) ps).foldl accStep (none, 0)
  (a.getD 0, f)

/-! ## Block scales (R279 to R281) -/

/-- F_max of an MX format as `m × 2^e` (*MX formats*). -/
def mxFmax (code : Nat) : Nat × Int :=
  if code = 0x4 then (127, -6) else if code = 0x5 then (14, 5) else if code = 0x6 then (7, 13) else (3, 1)

/-- The smallest e in [−127, 127] with a ≤ F_max × 2^e, tried upwards from `e` (R279). -/
def mxExpF (m : Nat) (k : Int) (fm : Nat) (fe : Int) : Nat → Int → Int
  | 0, e => e
  | f + 1, e => if magGt m k fm (fe + e) then mxExpF m k fm fe f (e + 1) else e

/-- One element code of a block, rounded once to the element format (R280). -/
def mxElemRound (code : Nat) (neg : Bool) (num : Nat) (e : Int) : Nat × FFlags :=
  if code = 0x4 then
    let (q, inex) := roundInt num (e + 6)
    let (q, fl) := if q > 127 then (127, fOverflow ||| fInexact) else (q, if inex then fInexact else 0)
    ((if neg then (256 - q) % 256 else q), fl)
  else
    let f := if code = 0x5 then fmtE4M3 else if code = 0x6 then fmtE5M2 else fmtE2M1
    let emin : Int := 1 - f.bias
    let (m, q, inex) := roundMag (f.mb + 1) (emin - f.mb) num e false
    if magGt m q f.maxM f.maxE then
      (fpFields f neg f.maxM f.maxE, fOverflow ||| fInexact)
    else
      let tiny := decide (num ≠ 0) && decide ((Nat.log2 num : Int) + e < emin)
      (fpFields f neg m q, (if inex then fInexact else 0) ||| (if inex && tiny then fUnderflow else 0))

/-- A block of 32 FP32 words to an MX format: the scale, the element codes and the flags (R279 to R281). -/
def mxBlock (code : Nat) (ws : List Word) : Nat × List Nat × FFlags :=
  let vs := ws.map fpOf
  let anyNan := vs.any (fun v => match v with | .nan _ _ => true | _ => false)
  let sig := vs.any (fun v => match v with | .nan _ s => s | _ => false)
  let anyInf := vs.any (fun v => match v with | .inf _ => true | _ => false)
  let sf := if sig then fInvalid else 0
  if anyNan then (255, vs.map (fun _ => 0), sf ||| (if anyInf && decide (code ≠ 0x6) then fInvalid else 0))
  else if anyInf ∧ code ≠ 0x6 then (255, vs.map (fun _ => 0), fInvalid)
  else
    let (am, ae) := vs.foldl (fun (acc : Nat × Int) v => match v with
      | .fin _ m e => if magGt m e acc.1 acc.2 then (m, e) else acc
      | _ => acc) (0, 0)
    let (fm, fe) := mxFmax code
    let e := if am = 0 then -127 else mxExpF am ae fm fe 254 (-127)
    let rs := vs.map (fun v => match v with
      | .fin s m k => if m = 0 then (mxElemRound code s 0 0) else mxElemRound code s m (k - e)
      | .inf s => (if s then 0xFC else 0x7C, 0)
      | .nan _ _ => (0, 0))
    ((e + 127).toNat, rs.map (·.1), rs.foldl (fun f r => f ||| r.2) sf)

end Sys2Proof.Machine
end

