-- ==== Sys2Proof/Machine/State.lean ====
section
/-! DEFINITION. The state of the module: every register, queue, table, memory, counter, mode and pin the manual names,
and the queue of waiting commands. Plain data: every type below is a structure of numbers, bit vectors, lists and
options. A field's default is its value right after a power-on reset (R664, R670, the Reset columns); indexed sets are
sparse tables (`Tab`) whose unlisted entries have the reset value. -/
namespace Sys2Proof.Machine

/-! ## Engines of a cluster -/

/-- Modulus table entry (R165): 0 / die reset. `busy`: a validation is running (R166). -/
structure ModEntry where
  q : BitVec 31 := 0
  psi : BitVec 31 := 0
  psiinv : BitVec 31 := 0
  ne : BitVec 5 := 0
  valid : Bool := false
  busy : Bool := false
  deriving DecidableEq, Repr

/-- What the header of the page slot that a LAND read says of a key page (R295, R321, R731). -/
structure PageInfo where
  slot : Nat := 0
  bind : BitVec 64 := 0
  spset : BitVec 16 := 0
  kkind : BitVec 8 := 0
  gal : BitVec 32 := 0
  pidx : BitVec 32 := 0
  chk : Bool := false
  epidx : BitVec 16 := 0
  corrupt : Bool := false
  -- whether the LAND met an uncorrectable stack unit (R528, R679)
  memUnc : Bool := false
  deriving DecidableEq, Repr

/-- A word of a chain's drain that waits for the confirmation of the pages (numbered in the operation's page list)
it depends on (R221, R323). -/
structure HeldWord where
  addr : Nat
  val : Word
  pages : List Nat
  deriving DecidableEq, Repr

/-- A page that a delivery reads, and the report of its binding check: none while the check is in flight, an empty list of
causes when the page is confirmed (R321, R322, R325). -/
structure PageUse where
  info : PageInfo
  report : Option (List Nat) := none
  deriving DecidableEq, Repr

/-- A running engine operation: the configuration, modulus entries and port controls latched at its start (R169, R191,
R340), the context and record it belongs to (R454, R464), and what it raised so far (R464, R266). -/
structure RunOp where
  regs : Tab Word := []
  moduli : Tab ModEntry := []
  rix : Tab Word := []
  ctx : Nat := 0
  job : Nat := 0
  opid : Nat := 0
  dflag : Option Nat := none
  record : Option Nat := none
  zeroRows : List Nat := []
  done : Bool := false
  dropped : Bool := false
  domain : Bool := false
  modInvalid : Bool := false
  keyfail : Bool := false
  memUnc : Bool := false
  chnDomain : Bool := false
  oflags : BitVec 4 := 0
  pages : List PageUse := []
  held : List HeldWord := []
  frames : List Nat := []
  startedAt : Nat := 0
  -- the stage of S_MRR that it belongs to (R117), 0 for every other primitive
  stage : Nat := 0
  -- the words of its modulus lists and programs as it read them at its start (R167), by local word
  side : Tab Word := []
  -- row blocks of a chain with a NORM stage, and the trailing passes made (R211, R215)
  blocks : Nat := 0
  passed : Nat := 0
  deriving DecidableEq, Repr

/-- A started operation that waits for the running one to finish (PENDING, R191). -/
structure PendOp where
  ctx : Nat := 0
  job : Nat := 0
  opid : Nat := 0
  dflag : Option Nat := none
  record : Option Nat := none
  frames : List Nat := []
  stage : Nat := 0
  deriving DecidableEq, Repr

/-- One engine (NTE, RME or VEC): its pending configuration set, keyed by word of the load window (R443), and the job that loaded it
last (R667); the started and the running operation (R191); the sticky STATUS bits; and CHN_STATUS (R199): 0 / engine reset. -/
structure EngineState where
  cfg : Tab Word := []
  cfgJob : Option Nat := none
  pend : Option PendOp := none
  run : Option RunOp := none
  domain : Bool := false
  modInvalid : Bool := false
  keyfail : Bool := false
  empty : Bool := false
  oflags : BitVec 4 := 0
  chnDomain : Bool := false
  chnKeyfail : Bool := false
  chnOflags : BitVec 4 := 0
  fstage : BitVec 3 := 0
  fvalid : Bool := false
  deriving DecidableEq, Repr

/-! ## Sequencer, scoreboard and scratchpad of a cluster -/

/-- A scoreboard entry (R452, SCB_ENT_i): the range, its kind, and the context, engine (0 NTE, 1 RME, 2 VEC, 4 STE) and
operation that declared it. -/
structure ScbEntry where
  lo : Nat
  hi : Nat
  wr : Bool
  ctx : Nat
  eng : Nat
  opid : Nat
  deriving DecidableEq, Repr

/-- A header record of a context (R463): open while SEALC has not closed it. `bound` counts the operations bound to it
that have not completed (R464); `causes` are the poison codes they reported. A record that its SEALC has closed keeps the
group's lead and members and its own payload rows until the lead has merged the group (R465, R467). -/
structure Record where
  isOpen : Bool := false
  closed : Bool := false
  lead : Nat := 0
  size : Nat := 0
  mask : BitVec 64 := 0
  rows : List (Nat × Nat) := []
  code : Nat := 0
  outSlot : Nat := 0
  opSlots : List Nat := []
  imm : BitVec 64 := 0
  bound : Nat := 0
  causes : List Nat := []
  -- the primitive of the lowered graph that the record seals, by the plan (none in a hand plan)
  prim : Option Nat := none
  -- S_MRR: the stage that new operations belong to (R117), and whether keys and their sum have been seen
  stage : Nat := 0
  keyed : Bool := false
  summed : Bool := false
  -- UNCONF of the sequencer's copy of the output header (R49, R222): the check of a page that the chain uses is in flight
  unconf : Bool := false
  deriving DecidableEq, Repr

/-- One level of a running LOOP (R450): where the body starts, where it ends, and the iterations left. -/
structure LoopFrame where
  level : Nat
  first : Nat
  last : Nat
  left : Nat
  deriving DecidableEq, Repr

/-- A context of a sequencer (R433, SEQ_CTX_c): 0 / job kill; handle registers 0xFFFF_FFFF / job kill (unlisted). -/
structure Context where
  state : BitVec 2 := 0
  job : Nat := 0
  pc : Nat := 0
  len : Nat := 0
  base : Nat := 0
  origin : Nat := 0
  planned : Nat := 0
  slipTotal : Nat := 0
  slipEvents : Nat := 0
  lastCause : BitVec 4 := 0
  lastOffset : Nat := 0
  -- the running hold: the offset of its instruction and its last a-cycle; its cause; the object it waits for (R503)
  holdRun : Option (Nat × Nat) := none
  holdCause : BitVec 4 := 0
  holdObject : Nat := 0
  holdWant : Nat := 0
  holdHave : Nat := 0
  curtag : BitVec 16 := 0
  kill : BitVec 4 := 0
  params : Tab (BitVec 64) := []
  handles : Tab Word := []
  own : BitVec 16 := 0
  wdog : Nat := 0
  loops : List LoopFrame := []
  curSte : Nat := 0
  issued : Nat := 0
  records : Tab Record := []
  -- SEALs issued (the model's own count, which finds the primitive of each)
  sealed : Nat := 0
  -- the count of issued instructions at which a replay has caught up (log entry 154)
  replayTo : Nat := 0
  -- the 16 KiB fetch buffer (R434): the stream offset of its first word, and the words
  fbuf : Nat × List Word := (0, [])
  brkHit : Bool := false
  ended : Bool := false
  deriving DecidableEq, Repr

/-- A scratchpad row behind the scrub fence, and the number of the fence that placed it (R349, R352). -/
structure FenceRow where
  row : Nat
  fence : Nat
  deriving DecidableEq, Repr

/-- A handle in a queue; `remote` names the sending die and credit entry of a handle that came over Pontoon (R489); `at_` is the
a-cycle in which it entered (R477), none for one placed before the job's ORIGIN (R485). -/
structure QHandle where
  h : Word
  remote : Option (Nat × Nat) := none
  at_ : Option Nat := none
  deriving DecidableEq, Repr

/-- One cluster. -/
structure Cluster where
  mods : Tab ModEntry := []
  nte : EngineState := {}
  rme : EngineState := {}
  vec : EngineState := {}
  -- scratchpad slice: bytes, little-endian words (R3), all zero after the wipe of R354
  scratch : Mem := []
  spErr : Tab Nat := []
  -- words that stand for an uncorrectable read that no replay cleared (R679): the primitive that reads one records MEM_UNCORR
  lost : List Nat := []
  poisoned : Tab Bool := []
  fence : List FenceRow := []
  rewriteQ : List Nat := []
  -- SEQ
  ctxs : Tab Context := []
  flags : Tab (BitVec 16) := []
  queues : Tab (List QHandle) := []
  reserved : Tab Nat := []
  -- places that a POP freed in a queue: the a-cycle, and how many in it (R477)
  freed : Tab (Nat × Nat) := []
  headers : Tab (List Byte) := []
  hdrJob : Tab Nat := []
  hdrReady : Tab Nat := []
  -- for each header slot, the rows of its object's payload here, and the lowered primitive that wrote it, plus 1
  hdrRows : Tab (List (Nat × Nat)) := []
  hdrPrim : Tab Nat := []
  lp : Tab Word := []
  rix : Tab Word := []
  brk : Tab Word := []
  -- the a-cycle from which the issue slot is free, and the context whose instruction has it until then (R440)
  issueFree : Nat := 0
  issueOwner : Nat := 0
  nextOp : Nat := 0
  -- SCB
  unchecked : BitVec 8 := 0
  scb : List ScbEntry := []
  holdRbf : Word := 0
  holdObd : Word := 0
  holdFull : Word := 0
  conflicts : Word := 0
  -- XBA_MODE_l and the counters of the cluster; RESTRICT is 1 / die reset
  restricted : Bool := true
  hashoff : Bool := false
  refused : Bool := false
  wiping : Bool := false
  eccCorr : Word := 0
  eccUnc : Word := 0
  eccDrop : BitVec 16 := 0
  fenceHits : BitVec 16 := 0
  restrictHits : BitVec 16 := 0
  deriving DecidableEq, Repr

/-! ## Compute dies -/

/-- STE_DSTAT_n: 0 / job kill. -/
structure DStat where
  valid : Bool := false
  busy : Bool := false
  code : BitVec 2 := 0
  check : BitVec 4 := 0
  job : BitVec 10 := 0
  deriving DecidableEq, Repr

/-- A pool's ledger entry STE_LDG_n (R485); counts are two's-complement, 18 bits. The last four fields give for each count the
a-cycle from which it has been below 0 (R495). -/
structure Ledger where
  freeq : BitVec 15 := 0
  fqv : Bool := false
  free : BitVec 18 := 0
  queued : BitVec 18 := 0
  held : BitVec 18 := 0
  transit : BitVec 18 := 0
  negFree : Option Nat := none
  negQueued : Option Nat := none
  negHeld : Option Nat := none
  negTransit : Option Nat := none
  deriving DecidableEq, Repr

/-- An active or shadow stream of a stream engine (R504): its loaded set, the transfers done, and whether a transfer
has made its last write and waits for its boundary. -/
structure Stream where
  set : List Word := []
  job : Nat := 0
  cl : Nat := 0
  ctx : Nat := 0
  r : Nat := 0
  moved : Bool := false
  opid : Nat := 0
  -- the a-cycle by which the host model has answered the transfer's read (R401, R576); none when it reads no host memory
  due : Option Nat := none
  -- SEQ_RIX_2 of the source's cluster as latched at the start (R340), the rows that read 0 for it (R467: cluster, row), and the
  -- rows of the scratchpad destination of all its transfers: cluster, first, last (R349)
  rix : Tab Word := []
  zeroRows : List (Nat × Nat) := []
  dest : Option (Nat × Nat × Nat) := none
  deriving DecidableEq, Repr

/-- A stream engine: active and shadow streams, ARMED and OVERRUN (STE_SSTAT_s). -/
structure StreamEngine where
  active : Option Stream := none
  shadow : Option Stream := none
  armed : Bool := false
  overrun : Bool := false
  deriving DecidableEq, Repr

/-- A frame of a key window: its token state (R313: 0 FREE, 1 LANDING, 2 STAGED), its page, its deliveries left, how many
operations read it now, and its place in the order of landing. -/
structure Frame where
  st : BitVec 2 := 0
  page : PageInfo := {}
  left : Nat := 0
  reading : Nat := 0
  seq : Nat := 0
  deriving DecidableEq, Repr

/-- A key window (R312): the local cluster, the job, the first word, the frames and how many frames have landed so far. -/
structure KeyWindow where
  cl : Nat
  job : Nat
  base : Nat
  size : Nat
  frames : Tab Frame := []
  landed : Nat := 0
  deriving DecidableEq, Repr

/-- The Ferry list of one job on a die (R314): the commands' bytes, the index of the next command. -/
structure FerryList where
  job : Nat
  bytes : List Byte
  idx : Nat := 0
  origin : Nat := 0
  ended : Bool := false
  deriving DecidableEq, Repr

/-- A Pontoon credit entry PON_QCRED_e (R489). -/
structure Credit where
  qaddr : BitVec 15 := 0
  valid : Bool := false
  job : BitVec 10 := 0
  grant : BitVec 9 := 0
  avail : BitVec 9 := 0
  deriving DecidableEq, Repr

/-- A flit kept in a retry buffer until an ACK covers it (R687). -/
structure RetryFlit where
  seq : Word
  bytes : List Byte
  sends : Nat := 1
  job : Option Nat := none
  deriving DecidableEq, Repr

/-- One end of a Pontoon link (R686 to R689): as sender, the retry buffer, the next SEQ and the a-cycle from which it
sends again; as receiver, the expected SEQ and whether it discards until that SEQ arrives; the counters; a retrain and
its attempts; FI_CTRL and FI_COUNT (R691). -/
structure Link where
  retry : List RetryFlit := []
  nextSeq : Word := 0
  expected : Word := 0
  discarding : Bool := false
  crcErr : Word := 0
  seqErr : Word := 0
  nakTx : Word := 0
  retries : Word := 0
  exhaust : BitVec 16 := 0
  retrain : BitVec 16 := 0
  training : Bool := false
  attempts : Nat := 0
  retryAt : Option Nat := none
  -- flits accepted here that go on over this end's own link (R15), as their bytes 0 to 243, and the payload delivered last
  fwd : List (List Byte) := []
  rx : List Byte := []
  fiCtrl : Word := 0
  fiCount : Word := 0
  deriving DecidableEq, Repr

/-- One compute die. -/
structure Die where
  -- STE
  desc : Tab Word := []
  dstat : Tab DStat := []
  pool : Tab Word := []
  ledger : Tab Ledger := []
  ldgFault : Word := 0
  sd : Tab Word := []
  ste : Tab StreamEngine := []
  oobWr : Word := 0
  padClip : Word := 0
  -- FER
  ferBase : BitVec 64 := 0
  ferBusy : Bool := false
  ferCrc : Bool := false
  ferBind : Bool := false
  ferExhaust : Bool := false
  ferLate : Bool := false
  cmdIdx : BitVec 16 := 0
  ferPages : Word := 0
  ferCrcFails : Word := 0
  ferBindFails : Word := 0
  ferLateCycles : Word := 0
  windows : List KeyWindow := []
  lists : List FerryList := []
  -- PON
  credits : Tab Credit := []
  links : Tab Link := []
  -- XBA fault injection
  xbaFi : Word := 0
  xbaFiCount : Word := 0
  -- die-wide halt
  halted : Bool := false
  haltSrc : BitVec 9 := 0
  haltCtx : BitVec 3 := 0
  -- the a-cycle in which the halt began (SEQ_HALT.SRC of a tie)
  haltAt : Nat := 0
  -- clock and rail
  mhz : Nat := 2300
  clocks : Bool := true
  railOn : Bool := true
  mV : Nat := 0
  openJobs : Nat := 0
  temp : BitVec 10 := 0
  deriving DecidableEq, Repr

/-! ## Memory stacks -/

/-- A range of stack bytes behind the scrub fence (R539). -/
structure StkFence where
  off : Nat
  len : Nat
  fence : Nat
  deriving DecidableEq, Repr

/-- One stack and its MSC (R509 to R543). `err` counts the wrong symbols of a stored unit, by unit; `flips` are the a-cycles at
which an MSC_MAP_FLIP was received that no frame boundary has met yet; `critRun`, `hotRun` and `coolRun` count the latest samples in
a row at T_CRIT, at the throttle threshold, and 2 °C or more below it. -/
structure Stack where
  mem : Mem := []
  err : Tab Nat := []
  -- units that stand for an uncorrectable read that no replay cleared (R679)
  lost : List Nat := []
  state : BitVec 3 := 0
  level : BitVec 6 := 0
  crit : Bool := false
  eos : Bool := false
  temp : BitVec 10 := 0
  tmax : BitVec 10 := 0
  tthrot : BitVec 7 := 95
  eccCorr : Word := 0
  eccUnc : Word := 0
  eccDrop : Word := 0
  thrFrames : Word := 0
  slowFrames : Word := 0
  lastUnc : BitVec 41 := 0
  shadow : Tab (BitVec 5) := []
  map : Tab (BitVec 5) := []
  flips : List Nat := []
  frame : Nat := 0
  rewriteQ : List Nat := []
  fence : List StkFence := []
  patrol : Nat := 0
  retired : List Nat := []
  critRun : Nat := 0
  hotRun : Nat := 0
  coolRun : Nat := 0
  served : Nat := 0
  refreshed : List Nat := []
  fiCtrl : Word := 0
  fiCount : Word := 0
  deriving DecidableEq, Repr

/-! ## Quay: rings, jobs, keys, plans -/

/-- Ring register set RING_i (R553) with what the Quay keeps for the ring; COUNT is 1 / warm and PHASE is 1 / warm. -/
structure Ring where
  sqBase : BitVec 64 := 0
  cqBase : BitVec 64 := 0
  sqLogsz : BitVec 5 := 0
  cqid : BitVec 8 := 0
  sqEn : Bool := false
  cqLogsz : BitVec 5 := 0
  vec : BitVec 9 := 0
  ien : Bool := false
  cqEn : Bool := false
  coalCount : BitVec 8 := 1
  coalTime : BitVec 16 := 0
  sqHead : BitVec 16 := 0
  cqTail : BitVec 16 := 0
  phase : Bool := true
  err : BitVec 3 := 0
  dbign : Word := 0
  sqTail : BitVec 16 := 0
  cqHead : BitVec 16 := 0
  sinceSignal : Nat := 0
  timer : Bool := false
  deriving DecidableEq, Repr

/-- A submission entry whose host read is outstanding (R560). -/
structure Fetch where
  ring : Nat
  index : Nat
  deriving DecidableEq, Repr

/-- Phases of a job in the module (*Stages of a job*, 01_module_at_work). -/
inductive Phase where
  | admitted | planned | running | auditing | finishing
  deriving DecidableEq, Repr

/-- The job descriptor of a submission entry (*Job descriptor*, R565) with the buffer table and the patch values. -/
structure JobDesc where
  ring : Nat := 0
  hand : Bool := false
  unchk : Bool := false
  nbuf : Nat := 0
  cid : Word := 0
  gaddr : BitVec 64 := 0
  glen : BitVec 64 := 0
  hints : Word := 0
  npatch : Nat := 0
  rcpt : BitVec 64 := 0
  snap : BitVec 64 := 0
  report : BitVec 64 := 0
  bufs : List (Nat × Nat) := []
  patches : List (BitVec 64) := []
  deriving DecidableEq, Repr

/-- What a landing point saved of one cluster beside the copies in the stacks (R419, R449): the header slots, flags and the
context. -/
structure LandingCluster where
  cl : Nat
  headers : Tab (List Byte)
  hdrRows : Tab (List (Nat × Nat)) := []
  hdrPrim : Tab Nat := []
  flags : Tab (BitVec 16)
  ctx : Nat
  saved : Context
  nextOp : Nat := 0
  deriving DecidableEq, Repr

/-- What a landing point saved of one die: the job's books and the next command of its Ferry list. -/
structure LandingDie where
  die : Nat
  ledger : Tab Ledger
  credits : Tab Credit
  ferryIdx : Nat
  deriving DecidableEq, Repr

/-- The counts of a job's results (R569, R571), which a replay counts again. -/
structure JobCounts where
  ninval : Nat := 0
  firstCheck : Nat := 0
  oob : Nat := 0
  pad : Nat := 0
  poison : Tab Nat := []
  fptens : Option Nat := none
  oflags : BitVec 4 := 0
  sealedOnce : List (Nat × Bool) := []
  deriving DecidableEq, Repr

/-- A landing point of a job (R419): its number, its a-cycle, where the stacks hold the live rows and the roles of the landing pairs,
and what else it saved. -/
structure LandingPoint where
  number : Nat := 0
  at_ : Nat := 0
  saves : List RowSave := []
  roles : List (Nat × Nat) := []
  clusters : List LandingCluster := []
  dies : List LandingDie := []
  counts : JobCounts := {}
  deriving DecidableEq, Repr

/-- A tensor of a job's graph (*Tensor entry*, R387). -/
structure Tensor where
  tkind : Nat := 0
  role : Nat := 0
  fmt : Nat := 0
  ndim : Nat := 1
  pset : Nat := 0
  sflags : Nat := 0
  ksid : Nat := 0
  level : Nat := 0
  comps : Nat := 0
  scale : Nat := 0
  count : Nat := 0
  exts : List Nat := []
  buf : Nat := 0
  cref : Nat := 0
  boff : Nat := 0
  deriving DecidableEq, Repr

/-- A node (*Node entry*): its input and output slots in order, none where unused, and the 32 immediate bytes. -/
structure GNode where
  op : Nat
  nin : Nat
  nout : Nat
  ins : List (Option Nat)
  outs : List (Option Nat)
  imm : List Byte
  form : Bool
  deriving DecidableEq, Repr

/-- Where a primitive of a lowered graph takes an operand: the object with an R51 number (tensor and element), the output of
an earlier primitive, or the slot ciphertext of an L2S key (R151). -/
inductive Src where
  | object (id : Nat)
  | prim (i : Nat)
  | key (ksid : Nat)
  deriving DecidableEq, Repr

/-- Where a word that is encoded, or a table entry, comes from: a constant; an element of an open tensor; or a switched word
of a scalar operand, negated or not (R151). -/
inductive Cell where
  | word (w : Word)
  | elem (t e : Nat)
  | scalar (o c : Nat) (neg : Bool)
  deriving DecidableEq, Repr

/-- The header of a plaintext that a lowering encodes (R77): its set, level, scale exponent, order and check limb. -/
structure EncPlan where
  pset : Nat
  level : Nat
  scale : Int
  ntt : Bool
  chk : Bool
  deriving DecidableEq, Repr

/-- What the time bound of a primitive takes of its operand 0 (R106): its set, level, components, order and check limb. -/
structure Shape0 where
  pset : Nat := 0
  level : Nat := 0
  comps : Nat := 0
  ntt : Bool := false
  chk : Bool := false
  deriving DecidableEq, Repr

/-- A primitive of a lowered graph (R135): its code, its operands in order, its header immediate, and what it takes besides:
the FP32 constant of S_ADDC and S_MULC, the table of L_PBS, the values and header of an encoding, the slot and message bits
of an extraction, the seed of a flood; and the R51 number of its output. Codes besides those of *Sealed Primitives*: 0xC3 an
encoding, 0x86 an extraction of one slot (R148), 0x8C a key switch of the bootstrap with immediate 4 or 5 (R158). `out` is the SCALE
that the rule of a network operation gives its output, where its last primitive would write another (R138, R152, R162). `in0` is what the
bound of the primitive takes of operand 0 (R106). -/
structure LPrim where
  code : Nat
  ops : List Src := []
  imm : Nat := 0
  fp : Word := 0
  table : List Cell := []
  re : List Cell := []
  im : List Word := []
  enc : Option EncPlan := none
  slot : Nat := 0
  bits : Nat := 0
  tset : Nat := 0
  seed : Nat := 0
  objid : Nat := 0
  out : Option Nat := none
  in0 : Shape0 := {}
  deriving DecidableEq, Repr

/-- A sealed object of a job: its 64 header bytes and its payload words. -/
structure SealedObj where
  hdr : List Byte
  pay : List Word
  deriving DecidableEq, Repr

/-- A job in flight (R28 to R35, R398, R421, R569, R571). -/
structure Job where
  desc : JobDesc := {}
  phase : Phase := .admitted
  bound : BitVec 64 := 0
  waitAc : BitVec 64 := 0
  clusters : List ClHold := []
  dies : List DieHold := []
  pools : List PoolPlan := []
  credits : List CreditPlan := []
  params : List (Nat × Nat × BitVec 64) := []
  planId : Option Nat := none
  shadows : List Shadow := []
  tensors : List Tensor := []
  -- the lowered graph (R135), its nodes and constants, the objects its primitives have written, the objects ingested, and the
  -- host bytes read, by address
  prims : List LPrim := []
  nodes : List GNode := []
  consts : List Byte := []
  vals : Tab (Option SealedObj) := []
  inputs : Tab (Option SealedObj) := []
  hostIn : Mem := []
  cuts : List CutPlan := []
  descs : List DescPlan := []
  routes : List RoutePlan := []
  places : List (Nat × Nat) := []
  floods : Nat := 0
  seeds : List (BitVec 256) := []
  floodsDone : Nat := 0
  ksids : List (BitVec 64) := []
  power : Nat := 0
  cap : Nat := 0
  -- the place in the order of admission (R427)
  order : Nat := 0
  origin : Nat := 0
  planned : Bool := false
  killed : Option KillCause := none
  detail : BitVec 8 := 0
  receipt : Bool := false
  ninval : Nat := 0
  firstCheck : Nat := 0
  fence : Nat := 0
  oob : Nat := 0
  pad : Nat := 0
  poison : Tab Nat := []
  fptens : Option Nat := none
  oflags : BitVec 4 := 0
  replays : Nat := 0
  attempts : Nat := 0
  auditRan : Bool := false
  snapped : Bool := false
  slip : Nat := 0
  slipEvents : Nat := 0
  released : List Nat := []
  audit : BitVec 2 := 0
  landing : Option LandingPoint := none
  landed : Nat := 0
  auditing : Option Nat := none
  lastWrite : Nat := 0
  replayReq : Option ReplayCause := none
  -- AUDIT 3: sealed copies (slot of the main copy; whether it is the main copy) whose counterpart is not sealed yet
  sealedOnce : List (Nat × Bool) := []
  deriving DecidableEq, Repr

/-- A completion that waits to be written (R561): the fields of *Completion entry* (R569) that do not depend on the
moment of writing, and the job report that goes before it (R571). -/
structure Completion where
  ring : Nat
  cid : Word := 0
  jobtag : BitVec 16 := 0xFFFF
  status : BitVec 8 := 0
  cflags : BitVec 8 := 0
  slip : Nat := 0
  slipev : Nat := 0
  oob : Nat := 0
  count : Word := 0
  pad : Nat := 0
  detail : BitVec 8 := 0
  pcode : BitVec 8 := 0
  oflags : BitVec 4 := 0
  replays : Nat := 0
  report : Option (BitVec 64 × List Byte) := none
  snapshot : Option (BitVec 64 × List Byte) := none
  job : Option Nat := none
  deriving DecidableEq, Repr

/-- A key object of a key set in the directory (R290, R303). -/
structure KeyObject where
  kkind : BitVec 8
  gal : BitVec 32
  seeded : Bool
  firstPage : Nat
  npages : Nat
  deriving DecidableEq, Repr

/-- A key set in the key directory (R302). `pages` lists the stack address of every stored page, by PIDX (R309). -/
structure KeySet where
  ksid : BitVec 64
  pset : BitVec 16
  chk : Bool
  scalar : Bool
  peer : BitVec 64
  objects : List KeyObject
  pages : List Nat
  deriving DecidableEq, Repr

/-- A running KEY_LOAD (R568): the set it will enter, or the status of the check that failed with its page. -/
structure KeyUpload where
  ring : Nat
  cid : Word
  status : BitVec 8
  page : Word := 0
  set : Option KeySet := none
  deriving DecidableEq, Repr

/-- A replica of a key page (R311). -/
structure Replica where
  ksid : BitVec 64
  pidx : Nat
  addr : Nat
  deriving DecidableEq, Repr

/-- A custom parameter set (R58, R393). -/
structure CustomSet where
  setno : BitVec 16
  scalar : Bool
  logn : Nat
  qs : List Nat := []
  ps : List Nat := []
  dnum : Nat := 1
  scale : Nat := 0
  n : Nat := 0
  k : Nat := 0
  mbits : Nat := 0
  qa : Nat := 0
  qb : Nat := 0
  brw : Nat := 0
  brl : Nat := 0
  ksw : Nat := 0
  ksl : Nat := 0
  noiseL : Int := 0
  noiseG : Int := 0
  deriving DecidableEq, Repr

/-- A key object that a plan uses (R412): KKIND, GAL, SEEDED, page count, and the PSET and CHK of its set. -/
structure KeyUse where
  kkind : Nat
  gal : Nat
  seeded : Bool
  npages : Nat
  pset : BitVec 16
  chk : Bool
  deriving DecidableEq, Repr

/-- A cached plan (R409 to R412): its number and key, what the planner chose, the patch values it was made with, the key
objects it uses, the outcomes of its scale tests and alignments, and when it was last submitted. -/
structure CachedPlan where
  id : Nat := 0
  key : BitVec 64
  choice : PlanChoice
  patches : List (BitVec 64)
  uses : List KeyUse := []
  log : List Nat := []
  seq : Nat := 0
  -- PSET and CHK of the key sets that the graph names, and the pages of the key objects it needs, when it was planned (R412)
  kinds : List (Option (BitVec 16 × Bool)) := []
  pages : List Nat := []
  deriving DecidableEq, Repr

/-- The Quay. -/
structure Quay where
  -- planner SRAM (R19): XOSTIRO as the Hedge loaded it; the key directory and the plan index have fields of their own
  sram : Mem := []
  ready : Bool := false
  qstate : BitVec 2 := 0
  quiesceD3 : Bool := false
  -- dies that failed a quiesce check and wait for their die reset (R499)
  quiesceBad : List Nat := []
  ideReq : Bool := false
  lock : Bool := false
  rdRate : BitVec 10 := 100
  wrRate : BitVec 10 := 100
  rdLat : BitVec 12 := 20
  pcap : BitVec 13 := 4200
  evt : BitVec 7 := 0
  evtEn : BitVec 7 := 0
  killTag : BitVec 32 := 0
  -- the lower halves written of 64-bit registers whose upper half is not written yet (R550)
  half : Tab (Option Word) := []
  rings : Tab Ring := []
  msixTable : Tab Word := []
  msixCtl : Tab Word := []
  msixPba : Tab Bool := []
  admitted : BitVec 64 := 0
  finished : BitVec 64 := 0
  slips : BitVec 64 := 0
  replays : BitVec 64 := 0
  audits : BitVec 64 := 0
  auditFails : BitVec 64 := 0
  ievents : Word := 0
  eos : Bool := false
  power : BitVec 13 := 0
  rr : Nat := 255
  fetches : List Fetch := []
  waiting : List JobDesc := []
  uploads : List KeyUpload := []
  compl : List Completion := []
  jobs : Tab (Option Job) := []
  dir : List KeySet := []
  replicas : List Replica := []
  plans : List CachedPlan := []
  planSeq : Nat := 0
  imageSets : List CustomSet := []
  jobSets : List (Nat × CustomSet) := []
  links : Tab Link := []
  deriving DecidableEq, Repr

/-! ## PCI Express side: power state, AER, IDE, DOE, SPDM -/

/-- An AER report of the function (R549, R575, R581). -/
inductive Aer where
  | unsupportedRequest (read : Bool) (off : BitVec 25)
  | completionError
  | correctedInternal
  | uncorrectableInternal (fatal : Bool)
  deriving DecidableEq, Repr

/-- One IDE stream (R577): index 0 the link stream, 1 to 4 the selective streams. -/
structure IdeStream where
  key : List Byte := []
  secure : Bool := false
  deriving DecidableEq, Repr

/-- The SPDM responder (R579): how far the connection has been negotiated, and the session. -/
structure Spdm where
  version : Bool := false
  caps : Option Word := none
  algs : Option Word := none
  keying : Bool := false
  session : Bool := false
  share : List Byte := []
  keyUpdates : Nat := 0
  response : Option (BitVec 8 × List Byte) := none
  deriving DecidableEq, Repr

/-- The endpoint (R544 to R547, R577 to R584). -/
structure Endpoint where
  d3hot : Bool := false
  linkUp : Bool := false
  perst : Bool := true
  crs : Bool := true
  ptm : Bool := false
  readiness : List (BitVec 8) := []
  -- completion timeout value (R576): 0, 50 µs to 50 ms
  cto : BitVec 4 := 0
  ide : Tab IdeStream := []
  spdm : Spdm := {}
  doe : Option (List Byte) := none
  deriving DecidableEq, Repr

/-! ## Hedge -/

/-- Fuse fields (R586). A fuse changes only from 0 to 1. -/
structure Fuses where
  serial : BitVec 64 := 0
  vendor : BitVec 16 := 0
  uds : BitVec 256 := 0
  keyhash : Tab (BitVec 256) := []
  revoke : BitVec 8 := 0
  svn : BitVec 64 := 0
  lcs : BitVec 8 := 0
  deriving DecidableEq, Repr

/-- How far the Hedge has booted (R595, R601, R656). -/
inductive Boot where
  | off | recovery | running | restMonitor | shutdown
  deriving DecidableEq, Repr

/-- Power states of the module (R654), with the thermal or rail shutdown that only a power-on reset ends. -/
inductive Power where
  | active | idle | restEntry | rest | off
  deriving DecidableEq, Repr

/-- The debug nonce of R616. -/
structure Nonce where
  value : BitVec 256
  deriving DecidableEq, Repr

/-- A mailbox command that runs (R619): its response code and bytes, written when it completes. -/
structure Mail where
  code : BitVec 8
  resp : List Byte
  after : Nat := 0
  deriving DecidableEq, Repr

/-- A PLDM firmware update in progress (R622): the slot written (0 A, 1 B), and whether VerifyComplete accepted it. -/
structure Update where
  slot : Nat
  verified : Bool := false
  deriving DecidableEq, Repr

/-- The Hedge. -/
structure Hedge where
  fuses : Fuses := {}
  flash : Mem := []
  sram : Mem := []
  boot : Boot := .off
  slot : Nat := 0
  headerImage : List Byte := []
  imgSvn : Nat := 0
  idk : Option (BitVec 256) := none
  ak : Option (BitVec 256) := none
  udsClosed : Bool := false
  meas : List (BitVec 256) := []
  cert : List Byte := []
  drbgCount : Nat := 0
  drbgGens : Nat := 0
  healthAt : List Nat := []
  debug : Bool := false
  scope : BitVec 8 := 0
  nonce : Option Nonce := none
  -- margin
  rate : Nat := 2300
  vtab : List (List Nat) := []
  fenceMask : List Nat := []
  testing : List Nat := []
  -- clusters whose march test runs: the fence mask counts them (R699)
  marching : List Nat := []
  reviews : Nat := 0
  warn : Bool := false
  marginSeq : Nat := 0
  reviewOpsec : Nat := 0
  framesAtReview : Tab Nat := []
  vq : Nat := 750
  -- VCORE_Q now, in mV (R648, R656), and the readings in a row above the limit and below 95 % of it (R653)
  vqNow : Nat := 0
  overPolls : Nat := 0
  underPolls : Nat := 0
  opsec : BitVec 64 := 0
  slowAtReview : Tab Word := []
  engineResets : List (Nat × Nat × Nat) := []
  -- log: the next record's SEQ and its place among the 262,144 of the flash region (R705)
  logSeq : Nat := 0
  logPos : Nat := 0
  -- events that wait for their log record (R706)
  logQ : List LogEvent := []
  -- power and thermal
  power : Power := .off
  kp : Nat := 0
  readings : Tab Nat := []
  railsOff : Bool := false
  railFault : Bool := false
  refclk : Bool := true
  aonLost : Bool := false
  heartbeat : Nat := 0
  -- control pins, true when asserted
  wake : Bool := false
  clkreq : Bool := false
  thermtrip : Bool := false
  faultPin : Bool := false
  alert : Bool := false
  -- mailbox HMB
  hmbOpc : BitVec 8 := 0
  hmbLen : BitVec 13 := 0
  hmbDone : Bool := false
  hmbCode : BitVec 8 := 0
  hmbRlen : BitVec 13 := 0
  hmbIen : Bool := false
  hmbData : Mem := []
  mail : Option Mail := none
  -- sideband
  eid : Option (BitVec 8) := none
  smbAddr : BitVec 8 := 0
  sben : BitVec 8 := 0
  events : List (BitVec 8) := []
  sensor : Option Nat := none
  update : Option Update := none
  lifecycle : Option Nat := none
  config : List Byte := []
  deriving DecidableEq, Repr

/-! ## Public-Key Engine -/

/-- A running PKE command (R634): the words to write at its end, its status and its duration. -/
structure PkeRun where
  writes : List (Nat × List Byte) := []
  acc : Option (BitVec 1088) := none
  code : BitVec 8 := 0
  failmask : BitVec 11 := 0
  dur : Word := 0
  -- the seed of the placement stream (R636), and the command and size class whose ladder it places
  seed : Option (BitVec 256 × Nat × Nat) := none
  deriving DecidableEq, Repr

/-- A started PKE command with the operation and slots it latched (R637, R638). -/
structure PkeReq where
  opc : Nat
  cls : Nat
  a : Nat
  b : Nat
  c : Nat
  d : Nat
  base : Nat
  count : Nat
  deriving DecidableEq, Repr

/-- A running PKE DMA: the SRAM address, the first slot, the slots, and whether it writes SRAM (R626). -/
structure PkeMove where
  addr : Nat
  slot : Nat
  nslot : Nat
  toSram : Bool
  deriving DecidableEq, Repr

/-- The PKE (R624 to R642): everything 0 / warm. -/
structure Pke where
  mem : Mem := []
  opc : BitVec 8 := 0
  cls : BitVec 2 := 0
  ops : Word := 0
  list : BitVec 19 := 0
  run : Option PkeRun := none
  waitRng : Option PkeReq := none
  done : Bool := false
  ignored : Bool := false
  wiped : Bool := false
  code : BitVec 8 := 0
  failmask : BitVec 11 := 0
  dur : Word := 0
  cnt : Word := 0
  dmaSrc : BitVec 21 := 0
  dmaCtl : BitVec 18 := 0
  dmaRun : Option PkeMove := none
  dmaDone : Bool := false
  dmaRefused : Bool := false
  ien : BitVec 2 := 0
  acc : BitVec 1088 := 0
  -- the internal registers of the dummy multiplications: the operands and the product of the last (R635)
  dummy : Nat × Nat × Nat := (0, 0, 0)
  poolBits : Nat := 0
  deriving DecidableEq, Repr

/-! ## Messages in flight and outputs -/

/-- One of the four places of a pool slot on the books (R486). -/
inductive Place where
  | free | queued | held | transit
  deriving DecidableEq, Repr

/-- A message on its way (R487, R490, R491): a SIGNAL, a pushed handle, a pool move report or a credit return. -/
inductive Msg where
  | signal (flag : Nat) (amount : Nat) (job : Nat)
  | handle (queue : Nat) (h : Word) (remote : Option (Nat × Nat)) (job : Nat)
  | report (die pool : Nat) (src dst : Place)
  | credit (die entry : Nat)
  deriving DecidableEq, Repr

/-- What an a-cycle does to one event flag so far (R471, R472): the flag's address, an amount that arrived in it, or the n of a WAIT
that issued in it, and the job. -/
structure FlagEvent where
  addr : Nat
  add : Nat := 0
  taken : Nat := 0
  job : Nat
  deriving DecidableEq, Repr

/-- One DMA write to host memory (R574): the address and the bytes. -/
structure HostWrite where
  addr : BitVec 64
  bytes : List Byte
  deriving DecidableEq, Repr

/-- The resources of a killed or failed job that stand behind the scrub fence `fence`; its queues, flags, ledger and
credit entries are cleared when the fence is clear (R496). -/
structure Grave where
  fence : Nat
  job : Nat
  clusters : List ClHold
  dies : List DieHold
  credits : List CreditPlan := []
  deriving DecidableEq, Repr

/-- Everything the manual gives the module, but not the queue of waiting commands. `now` is the one time count of the
model, in a-cycles; `free` numbers the next free value (both the model's own fields). -/
structure Module where
  now : Nat := 0
  free : Nat := 0
  quay : Quay := {}
  ep : Endpoint := {}
  dies : Tab Die := []
  clusters : Tab Cluster := []
  stks : Tab Stack := []
  hedge : Hedge := {}
  pke : Pke := {}
  transit : List Msg := []
  -- additions and WAITs of this a-cycle, which the end of the a-cycle turns into new counts
  flagIn : List FlagEvent := []
  graves : List Grave := []
  fenceSeq : Nat := 0
  hostOut : List HostWrite := []
  msixOut : List Nat := []
  aer : List Aer := []
  jtagOut : Option (BitVec 64) := none
  deriving DecidableEq, Repr

/-- The state of the block: the module and the commands that wait, first in, first out. -/
structure State where
  pending : List Instr := []
  m : Module := {}
  deriving DecidableEq, Repr

/-- The block right after a power-on reset: every field at its Reset column's value, every memory zero (R541, R354),
and the queue of commands empty. The cold start that follows is the command PWRGD_RISE. -/
def State.reset : State := {}

/-- Why the module stops. No rule of the manual stops the whole module with the state undefined: every error ends in a
kill, a reset or a shutdown, which are next states. -/
inductive Fault where
  /-- Raised by no meaning. Safe. -/
  | unreachable
  deriving DecidableEq, Repr

/-- Why a command has no meaning. -/
inductive Refusal where
  /-- Raised by an arm of `exec` whose command has no meaning yet. Safe: nothing can be proved of it. -/
  | notModelled (mnemonic : String)
  deriving DecidableEq, Repr

/-- The outcome of a command: the block goes on with module `m`, and the queue is as it was. -/
def ok (s : State) (m : Module) : Host.Outcome State Fault Refusal := .next { s with m := m }

end Sys2Proof.Machine
end

