-- ==== Sys2Proof/Machine/Residue.lean ====
section
/-! DEFINITION. Residue arithmetic and the parameter sets: powers and inverses modulo a prime, primality (R58), the
primes of the default sets (R54, R57), the root of unity (R62), the logarithms of *Level, scale and noise* (R68, R69,
R73) and the noise constants (R118, R129). -/
namespace Sys2Proof.Machine

/-- `b^e mod q`, the low `fuel` bits of `e`. -/
def powModF (q : Nat) : Nat → Nat → Nat → Nat
  | 0, _, _ => 1 % q
  | f + 1, b, e =>
    let r := powModF q f (b * b % q) (e / 2)
    if e % 2 = 1 then r * b % q else r

/-- `b^e mod q`. -/
def powMod (q b e : Nat) : Nat := powModF q (Nat.log2 e + 1) (b % q) e

/-- The extended Euclidean steps: the coefficient of the second number. -/
def egcdF : Nat → Int → Int → Int → Int → Int × Int
  | 0, r0, _, t0, _ => (r0, t0)
  | f + 1, r0, r1, t0, t1 =>
    if r1 = 0 then (r0, t0) else egcdF f r1 (r0 % r1) t1 (t0 - (r0 / r1) * t1)

/-- The inverse of `a` modulo `q`, 0 when there is none. -/
def invMod (q a : Nat) : Nat :=
  let (g, t) := egcdF (2 * Nat.log2 q + 4) q (a % q) 0 1
  if g = 1 then (t % (q : Int)).toNat else 0

/-- `(a − b) mod q` of canonical residues. -/
def subMod (q a b : Nat) : Nat := (a + q - b % q) % q

/-- The residue of an integer. -/
def intMod (q : Nat) (x : Int) : Nat := (x % (q : Int)).toNat

/-! ## Primality and primes -/

/-- Whether some square of `x` in `s` squarings is `q − 1`. -/
def mrSquares (q : Nat) : Nat → Nat → Bool
  | 0, _ => false
  | s + 1, x => decide (x = q - 1) || mrSquares q s (x * x % q)

/-- How often 2 divides `n`, and the odd part. -/
def oddPart : Nat → Nat → Nat × Nat
  | 0, n => (0, n)
  | f + 1, n => if n % 2 = 0 ∧ n ≠ 0 then let (s, d) := oddPart f (n / 2); (s + 1, d) else (0, n)

/-- Miller–Rabin with base `a`. -/
def mrBase (q a : Nat) : Bool :=
  let (s, d) := oddPart 64 (q - 1)
  let x := powMod q a d
  decide (x = 1) || mrSquares q s x

/-- Miller–Rabin with bases 2, 3, 5 and 7, exact below 3,215,031,751 (R58). -/
def isPrime (q : Nat) : Bool :=
  if q < 11 then decide (q = 2 ∨ q = 3 ∨ q = 5 ∨ q = 7)
  else decide (q % 2 = 1) && [2, 3, 5, 7].all (mrBase q)

/-- The first `n` primes in `c, c − step, c − 2·step, …`. -/
def primesDown (step : Nat) : Nat → Nat → Nat → List Nat
  | 0, _, _ => []
  | _, 0, _ => []
  | f + 1, n + 1, c =>
    if isPrime c then c :: primesDown step f n (c - step) else primesDown step f (n + 1) (c - step)

/-- The largest number below `2^31` that is 1 modulo `2N`. -/
def topCandidate (n2 : Nat) : Nat := 2 ^ 31 - n2 + 1

/-- The candidates around `2^29` in the order of R54: by `|q − 2^29|`, the smaller of two equidistant ones first. The
`i`-th is `2^29 + 1` for `i = 0`, then `2^29 + 1 − 2N`, `2^29 + 1 + 2N`, …. -/
def scalingCandidate (n2 i : Nat) : Nat :=
  if i % 2 = 1 then 2 ^ 29 + 1 - ((i + 1) / 2) * n2 else 2 ^ 29 + 1 + (i / 2) * n2

/-- The first `n` primes of the scaling order not in `used`. -/
def scalingPrimes (n2 : Nat) (used : List Nat) : Nat → Nat → Nat → List Nat
  | 0, _, _ => []
  | _, 0, _ => []
  | f + 1, n + 1, i =>
    let c := scalingCandidate n2 i
    if isPrime c && !used.contains c then c :: scalingPrimes n2 used f n (i + 1)
    else scalingPrimes n2 used f (n + 1) (i + 1)

/-- A default slot set (R53, R54). -/
def slotSet (no : BitVec 16) (logn nq np dnum : Nat) : CustomSet :=
  let n2 := 2 ^ (logn + 1)
  let top := primesDown n2 4096 (np + 2) (topCandidate n2)
  let q0 := top.getD 0 0
  let ps := (top.drop 1).take np
  { setno := no, scalar := false, logn := logn, qs := q0 :: scalingPrimes n2 top 4096 (nq - 1) 0, ps := ps,
    dnum := dnum, scale := 7424 }

/-- A default scalar set (R56, R57). Noise figures are in 1/256 bit. -/
def scalarSet (no : BitVec 16) (n logn k mb brw brl ksw ksl : Nat) (nl ng : Int) : CustomSet :=
  let n2 := 2 ^ (logn + 1)
  let top := primesDown n2 4096 2 (topCandidate n2)
  { setno := no, scalar := true, logn := logn, n := n, k := k, mbits := mb, qa := top.getD 0 0, qb := top.getD 1 0,
    brw := brw, brl := brl, ksw := ksw, ksl := ksl, noiseL := nl, noiseG := ng }

/-- The set that a PSET names (R52): a default set, or one of the custom sets given. -/
def psetOf (custom : List CustomSet) (pset : BitVec 16) : Option CustomSet :=
  if pset = 0x0001 then some (slotSet 0x0001 15 21 7 3)
  else if pset = 0x0002 then some (slotSet 0x0002 16 44 12 4)
  else if pset = 0x0003 then some (slotSet 0x0003 17 88 24 4)
  else if pset = 0x0011 then some (scalarSet 0x0011 768 11 1 5 23 2 4 4 (-4544) (-12608))
  else if pset = 0x0012 then some (scalarSet 0x0012 1024 14 1 8 14 3 4 5 (-6144) (-15040))
  else custom.find? (fun c => c.setno = pset)

/-- Ring dimension. -/
def setN (c : CustomSet) : Nat := 2 ^ c.logn

/-- Maximum level (R53): one less than the number of q-primes. -/
def setMaxLevel (c : CustomSet) : Nat := c.qs.length - 1

/-- Digit size α of R55. -/
def setAlpha (c : CustomSet) : Nat := ceilDiv c.qs.length c.dnum

/-- The check prime q_c (R54, and *Custom parameter sets*): the next smaller prime after the smallest listed prime that
is 1 modulo 2N and above 2^30; the search starts at 2^31 when no listed prime is. -/
def setCheckPrime (c : CustomSet) : Nat :=
  let n2 := 2 * setN c
  let good := (c.qs ++ c.ps).filter (fun q => q % n2 = 1 ∧ q > 2 ^ 30)
  let start := match good with
    | [] => topCandidate n2
    | _ => lmin (2 ^ 31) good - n2
  (primesDown n2 4096 1 start).getD 0 0

/-- The prime of limb `p` of a slot object at level `l` (R65). -/
def limbPrime (c : CustomSet) (l p : Nat) : Nat :=
  if p ≤ l then c.qs.getD p 0 else setCheckPrime c

/-! ## Logarithms and noise -/

/-- L(q) of R68: 256 × log2 q rounded to the nearest integer. -/
def logL (q : Nat) : Nat := (Nat.log2 (q ^ 512) + 1) / 2

/-- The scalar modulus Q (R57). -/
def setQ (c : CustomSet) : Nat := c.qa * c.qb

/-- LQ of R69. -/
def setLQ (c : CustomSet) : Nat := Nat.log2 (setQ c ^ 256)

/-- Lc of *Slot primitives*: the smallest t ≥ 0 with 2^t ≥ |c|^256, and 0 for c = 0. -/
def logC (c : Nat) : Nat := if c ≤ 1 then 0 else Nat.log2 (c ^ 256 - 1) + 1

/-- ⌈128 × log2(a ÷ b)⌉ for a ≥ b > 0, by integers. -/
def ceilLog128 (a b : Nat) : Nat :=
  let f := (a ^ 128 - 1) / b ^ 128
  if f = 0 then 0 else Nat.log2 f + 1

/-- *Noise sum table* (R73). -/
def noiseT : List Nat := [128, 75, 41, 22, 11, 6, 3, 1, 1, 0]

/-- nadd of R73 on integers. -/
def nadd (a b : Int) : Int := max a b + (noiseT.getD (min ((a - b).natAbs / 128) 9) 0 : Nat)

/-- The clamp of a NOISE formula (R102). -/
def noiseClamp (n : Int) : Nat := if n < 0 then 0 else if n > 65535 then 65535 else n.toNat

/-- E_ks of R118. -/
def eKs (c : CustomSet) : Int := 128 * c.logn + 512

/-- E_rs of R118. -/
def eRs (c : CustomSet) : Int := 128 * c.logn - 534

/-- E_br of R129. -/
def eBr (c : CustomSet) : Int :=
  (ceilLog128 (c.n * (c.k + 1) * c.brl * setN c) 6 : Nat) + 256 * c.brw + (setLQ c : Nat) + c.noiseG

/-- E_lks(d) of R129. -/
def eLks (c : CustomSet) (d : Nat) : Int :=
  (setLQ c : Nat) + c.noiseL + (ceilLog128 (d * c.ksl) 1 : Nat)

/-- E_s2l of R149, from ring dimension `n`. -/
def eS2l (c : CustomSet) (n : Nat) : Int := (setLQ c : Nat) + c.noiseG + (ceilLog128 (n * 5) 1 : Nat)

/-- NB(m) of R75. -/
def noiseBound (c : CustomSet) (m : Nat) : Int := (setLQ c : Nat) - 256 * (m + 5)

/-! ## Roots and transforms -/

/-- Trial division: the prime factors of `n` from divisor `d` on. -/
def factorsF : Nat → Nat → Nat → List Nat
  | 0, n, _ => if n > 1 then [n] else []
  | f + 1, n, d =>
    if n ≤ 1 then [] else if d * d > n then [n]
    else if n % d = 0 then d :: factorsF f (n / d) d else factorsF f n (d + 1)

/-- The smallest primitive root: the least g ≥ 2 with g^((q − 1)/f) ≠ 1 for every prime factor f of q − 1 (R62). -/
def rootF (q : Nat) (fs : List Nat) : Nat → Nat → Nat
  | 0, g => g
  | k + 1, g => if fs.all (fun f => powMod q g ((q - 1) / f) ≠ 1) then g else rootF q fs k (g + 1)

/-- ψ of R62: the primitive 2N-th root of unity modulo q. -/
def psiOf (q logn : Nat) : Nat :=
  let g := rootF q (factorsF 65536 (q - 1) 2) 1024 2
  powMod q g ((q - 1) / 2 ^ (logn + 1))

/-- The forward transform of R171 on a block of `2^k` words whose butterfly index is `i` (the `m + i` of the procedure):
the upper half times ψ_N^brv(i) is added to and subtracted from the lower half, and each half is transformed with
index `2i` and `2i + 1`. -/
def fwdBlock (q psi logn : Nat) : Nat → Nat → List Nat → List Nat
  | 0, _, a => a
  | k + 1, i, a =>
    let w := powMod q psi (brv logn i)
    let lo := a.take (2 ^ k)
    let hi := (a.drop (2 ^ k)).map (fun x => x * w % q)
    fwdBlock q psi logn k (2 * i) (List.zipWith (fun u v => (u + v) % q) lo hi)
      ++ fwdBlock q psi logn k (2 * i + 1) (List.zipWith (fun u v => (u + q - v) % q) lo hi)

/-- The inverse transform of R171 on a block, without the factor 1/N. -/
def invBlock (q psi logn : Nat) : Nat → Nat → List Nat → List Nat
  | 0, _, a => a
  | k + 1, i, a =>
    let w := powMod q psi (brv logn i)
    let lo := invBlock q psi logn k (2 * i) (a.take (2 ^ k))
    let hi := invBlock q psi logn k (2 * i + 1) (a.drop (2 ^ k))
    List.zipWith (fun u v => (u + v) % q) lo hi ++ List.zipWith (fun u v => (u + q - v) % q * w % q) lo hi

/-- FWD of R171: `psi` is ψ_N, `cin` the input factor (1 when unused). -/
def nttFwd (q psi logn cin : Nat) (a : List Nat) : List Nat :=
  fwdBlock q psi logn logn 1 (a.map (fun x => x * cin % q))

/-- INV of R171: `psi` is ψ_N^−1, `cout` the output factor. -/
def nttInv (q psi logn cout : Nat) (a : List Nat) : List Nat :=
  let ninv := q - (q - 1) / 2 ^ logn
  (invBlock q psi logn logn 1 a).map (fun x => x * ninv % q * cout % q)

/-- NTT order of R63 with the module's root (R62). -/
def nttOf (q logn : Nat) (a : List Nat) : List Nat := nttFwd q (psiOf q logn) logn 1 a

end Sys2Proof.Machine
end

