-- ==== Sys2Proof/Machine/VecCore.lean ====
section
/-! DEFINITION. The vector engine's element program and row reductions (R227 to R258): micro-operations as functions of
one element's registers, the tree of R213, and the checks of R253 on a program. -/
namespace Sys2Proof.Machine

/-! ## Pairs of residues and digits -/

/-- x of R120 from a residue pair; `none` when q_a has no inverse modulo q_b (R237). -/
def crtPair (qa qb ra rb : Nat) : Option Nat :=
  let inv := invMod qb (qa % qb)
  if inv * (qa % qb) % qb = 1 % qb ∧ qb > 1 then some (ra + qa * (subMod qb (rb % qb) ra * inv % qb)) else none

/-- The digits of R121, least significant first, of `y`. -/
def digitsF (w : Nat) : Nat → Nat → List Int
  | 0, _ => []
  | l + 1, y =>
    let d := y % 2 ^ w
    if d ≥ 2 ^ (w - 1) then ((d : Int) - 2 ^ w) :: digitsF w l (y / 2 ^ w + 1) else (d : Int) :: digitsF w l (y / 2 ^ w)

/-- Digit `i` (0 most significant) of x under R121 with base 2^w and L levels, modulus Q. A GDECOMP stage may name w = 0, a digit
at or above L, or w × L above 62: R206 does not refuse it and no rule states its result, which is then a free value (DESIGN
CHOICE, log entry 146). -/
def digitOf (q w l x i : Nat) : Int :=
  if w = 0 ∨ l ≤ i ∨ 62 < w * l then Config.openDigit w l i x
  else
    let y := ((x * 2 ^ (w * l) + q / 2) / q) % 2 ^ (w * l)
    (digitsF w l y).getD (l - 1 - i) 0

/-! ## Micro-operations -/

/-- Whether a micro-operation's fields are used: D, A, B, C as a register, C as a predicate, and the IMM bits it uses
(*Micro-operations*); `none` for an unlisted code. -/
def uopFields (op : Nat) : Option (Bool × Bool × Bool × Bool × Bool × Nat) :=
  if op = 0x05 ∨ op = 0x43 then some (true, true, true, true, false, 0)
  else if op = 0x06 then some (true, true, false, false, false, 0xFF)
  else if op = 0x08 then some (true, true, true, false, false, 0x0F)
  else if op = 0x09 then some (true, true, true, false, false, 0x9F)
  else if op = 0x28 then some (false, true, true, false, true, 0x0F)
  else if op = 0x29 then some (true, true, true, false, true, 0)
  else if op = 0x31 then some (true, false, false, false, false, 0x0F)
  else if op = 0x32 then some (true, false, false, false, false, 0x01)
  else if op = 0x33 then some (true, false, false, false, false, 0)
  else if op = 0x34 then some (true, true, false, false, false, 0x1F)
  else if op = 0x5A ∨ op = 0x5B then some (true, true, false, false, false, 0x0F)
  else if op = 0x01 ∨ op = 0x02 ∨ op = 0x03 ∨ (0x10 ≤ op ∧ op ≤ 0x1A) ∨ (0x20 ≤ op ∧ op ≤ 0x22)
      ∨ (0x40 ≤ op ∧ op ≤ 0x42) ∨ op = 0x44 ∨ op = 0x45 ∨ op = 0x48 then some (true, true, true, false, false, 0)
  else if op = 0x04 ∨ op = 0x07 ∨ (0x23 ≤ op ∧ op ≤ 0x25) ∨ op = 0x30 ∨ op = 0x46 ∨ op = 0x47
      ∨ (0x50 ≤ op ∧ op ≤ 0x54) ∨ op = 0x58 ∨ op = 0x59 then some (true, true, false, false, false, 0)
  else none

/-- The program checks of R253 on one micro-operation word: a listed code, unused fields zero, a listed relation or
format, and the digit, switch and table conditions. -/
def uopOk (luten : Bool) (w l : Nat) (u : Word) : Bool :=
  let n := u.toNat
  let op := n % 256
  let imm := n / 2 ^ 24
  match uopFields op with
  | none => false
  | some (d, a, b, c, p, im) =>
    (d || decide (bits n 11 8 = 0)) && (a || decide (bits n 15 12 = 0)) && (b || decide (bits n 19 16 = 0))
      && (c || (if p then decide (bits n 23 22 = 0) else decide (bits n 23 20 = 0))) && decide (imm &&& (255 - im) = 0)
      && (if op = 0x28 then decide (imm ≤ 9) else true)
      && (if op = 0x5A ∨ op = 0x5B then [1, 2, 3, 8, 9].contains imm else true)
      && (if op = 0x08 then decide (imm < l ∧ w ≠ 0 ∧ w * l ≤ 62) else true)
      && (if op = 0x09 then decide (1 ≤ imm % 32) else true)
      && (if op = 0x34 then luten else true)

/-- Whether a program may stand in a VPROG stage (R258). -/
def uopInChain (u : Word) : Bool := !([0x31, 0x32, 0x34, 0x08, 0x09].contains (u.toNat % 256))

/-- What an element program knows: the row's modulus entry, the other latched entries, the constants and the table, its
place, and the digit configuration. -/
structure ElemEnv where
  row : ModEntry
  mods : Nat → ModEntry
  cst : Nat → Word
  lut : Nat → Word
  j : Nat
  r : Nat
  qa : Nat
  qb : Nat
  w : Nat
  l : Nat

/-- One element: registers, predicates, and the status it raised. -/
structure Elem where
  v : List Word
  p : List Bool
  domain : Bool := false
  modInvalid : Bool := false
  fl : FFlags := 0
  deriving DecidableEq, Repr

/-- A residue operation on `ops`, each checked against its prime (R236): 0 and DOMAIN when a check fails. -/
def resOp (q : Nat) (ops : List (Nat × Nat)) (f : Nat) : Word × Bool :=
  if ops.any (fun (x, p) => decide (x ≥ p)) then (0, true) else (BitVec.ofNat 32 (f % (if q = 0 then 1 else q)), false)

/-- The relation of CMP. -/
def cmpRel (rel : Nat) (a b : Word) : Bool :=
  if rel = 0 then a == b else if rel = 1 then a != b
  else if rel = 2 then decide (a.toNat < b.toNat) else if rel = 3 then decide (a.toNat ≤ b.toNat)
  else if rel = 4 then decide (a.toInt < b.toInt) else if rel = 5 then decide (a.toInt ≤ b.toInt)
  else if rel = 6 then fvEq (fpOf a) (fpOf b) else if rel = 7 then fvLt (fpOf a) (fpOf b)
  else if rel = 8 then fvLt (fpOf a) (fpOf b) || fvEq (fpOf a) (fpOf b)
  else isNan a || isNan b

/-- Invalid for a signalling NaN among the operands of an FP relation (R265). -/
def relFlags (rel : Nat) (a b : Word) : FFlags :=
  if rel ≥ 6 then ((nanOperand [a, b]).map (·.2)).getD 0 else 0

/-- Number of 1 bits. -/
def popCount : Nat → Nat → Nat
  | 0, _ => 0
  | f + 1, n => n % 2 + popCount f (n / 2)

/-- The word result of a micro-operation that is neither modular nor CMP, and its flags. -/
def uopWord (e : ElemEnv) (s : Elem) (op imm : Nat) (a b c : Word) (pred : Nat) : FRes :=
  let an := a.toNat
  let bn := b.toNat
  if op = 0x10 then (a + b, 0) else if op = 0x11 then (a - b, 0) else if op = 0x12 then (a * b, 0)
  else if op = 0x13 then (BitVec.ofNat 32 (an * bn / 2 ^ 32), 0)
  else if op = 0x14 then (if an ≤ bn then a else b, 0) else if op = 0x15 then (if an ≤ bn then b else a, 0)
  else if op = 0x16 then (if a.toInt ≤ b.toInt then a else b, 0)
  else if op = 0x17 then (if a.toInt ≤ b.toInt then b else a, 0)
  else if op = 0x18 then (a <<< (bn % 32), 0) else if op = 0x19 then (a >>> (bn % 32), 0)
  else if op = 0x1A then (a.sshiftRight (bn % 32), 0)
  else if op = 0x20 then (a &&& b, 0) else if op = 0x21 then (a ||| b, 0) else if op = 0x22 then (a ^^^ b, 0)
  else if op = 0x23 then (~~~ a, 0) else if op = 0x24 then (BitVec.ofNat 32 (popCount 32 an), 0)
  else if op = 0x25 then (BitVec.ofNat 32 (if an = 0 then 32 else 31 - Nat.log2 an), 0)
  else if op = 0x29 then (if s.p.getD pred false then a else b, 0)
  else if op = 0x30 then (a, 0) else if op = 0x31 then (e.cst (imm % 16), 0)
  else if op = 0x32 then (BitVec.ofNat 32 (if imm = 0 then e.j else e.r), 0)
  else if op = 0x34 then (e.lut ((an >>> (imm % 32)) % 64), 0)
  else if op = 0x40 then fpAdd a b else if op = 0x41 then fpSub a b else if op = 0x42 then fpMul a b
  else if op = 0x43 then fpFma a b c else if op = 0x44 then fpMin a b else if op = 0x45 then fpMax a b
  else if op = 0x46 then (a &&& 0x7FFFFFFF, 0) else if op = 0x47 then (fpNeg a, 0)
  else if op = 0x48 then fpDiv a b else if op = 0x50 then fpRcp a else if op = 0x51 then fpRsqrt a
  else if op = 0x52 then fpExp2 a else if op = 0x53 then fpLog2 a else if op = 0x54 then fpTanh a
  else if op = 0x58 then fpOfInt a
  else if op = 0x59 then (let (x, f) := fpToInt 32 a; (BitVec.ofNat 32 x, f))
  else if op = 0x5A then (let (x, f) := fpNarrow imm a; (BitVec.ofNat 32 x, f))
  else fpWiden imm an

/-- A modular micro-operation (R235 to R237): the result, DOMAIN and MOD_INVALID. A value is compared with its prime only
where the entry of that prime is valid (DEDUCED, log entry 103). -/
def uopMod (e : ElemEnv) (op imm : Nat) (a b c : Nat) : Word × Bool × Bool :=
  let q := e.row.q.toNat
  let ea := e.mods e.qa
  let eb := e.mods e.qb
  let qa := ea.q.toNat
  let qb := eb.q.toNat
  let above (e : ModEntry) (x : Nat) : Bool := e.valid && decide (x ≥ e.q.toNat)
  -- every value is compared with its prime, whatever else fails
  let pair := above ea a || above eb b
  let bad (dom : Bool) : Word × Bool × Bool := (0, dom, true)
  let fin (r : Word × Bool) : Word × Bool × Bool := (r.1, r.2, false)
  if op = 0x09 then
    if !(ea.valid && eb.valid) then bad pair
    else match crtPair qa qb a b with
      | none => bad pair
      | some x =>
        if a ≥ qa ∨ b ≥ qb then (0, true, false)
        else
          let t := imm % 32
          let qq := qa * qb
          let y := (x * 2 ^ t + qq / 2) / qq % 2 ^ t
          let y' : Int := if bit imm 7 ∧ y ≥ 2 ^ (t - 1) then (y : Int) - 2 ^ t else y
          (BitVec.ofInt 32 y', false, false)
  else if !e.row.valid then bad (if op = 0x08 then pair else decide (op = 0x06) && above (e.mods imm) a)
  else if op = 0x01 then fin (resOp q [(a, q), (b, q)] (a + b))
  else if op = 0x02 then fin (resOp q [(a, q), (b, q)] (a + q - b))
  else if op = 0x03 then fin (resOp q [(a, q), (b, q)] (a * b))
  else if op = 0x04 then fin (resOp q [(a, q)] (q - a))
  else if op = 0x05 then fin (resOp q [(a, q), (b, q), (c, q)] (a * b + c))
  else if op = 0x06 then
    let es := e.mods imm
    let qs := es.q.toNat
    if !es.valid then bad false
    else if a ≤ (qs - 1) / 2 then fin (resOp q [(a, qs)] a)
    else fin (resOp q [(a, qs)] (intMod q ((a : Int) - qs)))
  else if op = 0x07 then fin (resOp q [] a)
  else if op = 0x08 then
    if !(ea.valid && eb.valid) then bad pair
    else match crtPair qa qb a b with
      | none => bad pair
      | some x => fin (resOp q [(a, qa), (b, qb)] (intMod q (digitOf (qa * qb) e.w e.l x (imm % 16))))
  else fin (BitVec.ofNat 32 q, false)  -- MODQ

/-- Whether a code is that of a modular micro-operation (R237). -/
def isModOp (op : Nat) : Bool := decide (1 ≤ op ∧ op ≤ 9) || decide (op = 0x33)

/-- One micro-operation on one element. -/
def uopExec (e : ElemEnv) (s : Elem) (u : Word) : Elem :=
  let n := u.toNat
  let op := n % 256
  let imm := n / 2 ^ 24
  let a := s.v.getD (bits n 15 12) 0
  let b := s.v.getD (bits n 19 16) 0
  let c := s.v.getD (bits n 23 20) 0
  let d := bits n 11 8
  if isModOp op then
    let (r, dom, inv) := uopMod e op imm a.toNat b.toNat c.toNat
    { s with v := lset s.v d r, domain := s.domain || dom, modInvalid := s.modInvalid || inv }
  else if op = 0x28 then
    { s with p := lset s.p (bits n 21 20) (cmpRel (imm % 16) a b), fl := s.fl ||| relFlags (imm % 16) a b }
  else
    let (r, f) := uopWord e s op imm a b c (bits n 21 20)
    { s with v := lset s.v d r, fl := s.fl ||| f }

/-- An element program (R234), from the starting registers of R230 or R257. -/
def elemRun (e : ElemEnv) (prog : List Word) (v0 : List Word) (p0 : Bool) : Elem :=
  prog.foldl (uopExec e) { v := v0 ++ List.replicate (16 - v0.length) 0, p := [p0, false, false, false] }

/-! ## Reductions -/

/-- A node of the reduction tree: value and element index. -/
abbrev Node := Word × Nat

/-- One level of the tree of R213: pairs of present nodes combine, a single present node passes. -/
def treeLevel {α : Type} (f : α → α → α × FFlags) : List (Option α) → List (Option α) × FFlags
  | [] => ([], 0)
  | [x] => ([x], 0)
  | x :: y :: rest =>
    let (t, fl) := treeLevel f rest
    match x, y with
    | some a, some b => let (c, g) := f a b; (some c :: t, fl ||| g)
    | some a, none => (some a :: t, fl)
    | none, o => (o :: t, fl)

/-- The tree reduction of R213 over leaves in ascending order. -/
def treeReduce {α : Type} (f : α → α → α × FFlags) : Nat → List (Option α) → Option α × FFlags
  | 0, _ => (none, 0)
  | _ + 1, [] => (none, 0)
  | _ + 1, [x] => (x, 0)
  | k + 1, xs =>
    let (t, fl) := treeLevel f xs
    let (r, g) := treeReduce f k t
    (r, fl ||| g)

/-- Identity of a reduction (*Reduction operations*). -/
def redIdentity (op : Nat) : Word :=
  if op = 4 then 1 else if op = 5 then 0x3F800000 else if op = 6 ∨ op = 10 ∨ op = 14 then 0xFFFFFFFF
  else if op = 7 ∨ op = 11 then 0x7F800000 else if op = 9 ∨ op = 13 then 0xFF800000 else 0

/-- Whether the right node of an FP32 ARG pair is strictly better: NaN counts below every number for ARGMIN and above
for ARGMAX (R243, R244). -/
def argF32Better (isMax : Bool) (x y : Word) : Bool :=
  match isNan x, isNan y with
  | true, _ => false
  | false, true => true
  | false, false => if isMax then fvLt (fpOf x) (fpOf y) else fvLt (fpOf y) (fpOf x)

/-- Combination of a left and a right node (*Reduction operations*). -/
def redCombine (op q : Nat) (x y : Node) : Node × FFlags :=
  let a := x.1
  let b := y.1
  let val (r : FRes) : Node × FFlags := ((r.1, 0xFFFF), r.2)
  let pick (right : Bool) (f : FFlags) : Node × FFlags := (if right then y else x, f)
  let sigF := ((nanOperand [a, b]).map (·.2)).getD 0
  if op = 1 then val (BitVec.ofNat 32 ((a.toNat + b.toNat) % q), 0)
  else if op = 2 then val (a + b, 0)
  else if op = 3 then val (fpAdd a b)
  else if op = 4 then val (BitVec.ofNat 32 (a.toNat * b.toNat % q), 0)
  else if op = 5 then val (fpMul a b)
  else if op = 6 then val (if a.toNat ≤ b.toNat then a else b, 0)
  else if op = 7 then val (fpMin a b)
  else if op = 8 then val (if a.toNat ≤ b.toNat then b else a, 0)
  else if op = 9 then val (fpMax a b)
  else if op = 10 then pick (decide (b.toNat < a.toNat)) 0
  else if op = 11 then pick (argF32Better false a b) sigF
  else if op = 12 then pick (decide (b.toNat > a.toNat)) 0
  else if op = 13 then pick (argF32Better true a b) sigF
  else if op = 14 then val (a &&& b, 0)
  else val (a ||| b, 0)

/-- What the reduction of a row writes and raises: value, status word, DOMAIN, MOD_INVALID, EMPTY, flags (R242 to
R247). -/
structure RedOut where
  value : Word
  status : Word
  domain : Bool
  modInvalid : Bool
  empty : Bool
  fl : FFlags
  deriving DecidableEq, Repr

/-- The reduction of a row's leaves (present elements with their index; absent ones are `none`). -/
def redRow (op : Nat) (ent : ModEntry) (leaves : List (Option Node)) : RedOut :=
  let q := ent.q.toNat
  let modular := decide (op = 1 ∨ op = 4)
  let npres := (leaves.filter (·.isSome)).length
  let empty := decide (npres = 0)
  let inv := modular && !ent.valid
  let dom := modular && ent.valid && leaves.any (fun o => match o with | some (v, _) => decide (v.toNat ≥ q) | none => false)
  let (root, fl) := treeReduce (redCombine op q) (leaves.length + 1) leaves
  let isArg := decide (10 ≤ op ∧ op ≤ 13)
  let (v, idx) := match root with
    | some (v, i) => (v, if isArg then i else 0xFFFF)
    | none => (redIdentity op, 0xFFFF)
  { value := if inv || dom then 0 else v,
    status := BitVec.ofNat 32 (idx + npres * 2 ^ 16 + b2n empty * 2 ^ 31),
    domain := dom, modInvalid := inv, empty := empty, fl := fl }

end Sys2Proof.Machine
end

