-- ==== Sys2Proof/Machine/Operands.lean ====
section
/-! DEFINITION. The operand forms: element packing in rows (R375 to R378), scratchpad spans (R21, R22), and the
configuration blocks of the engines as the LOAD window holds them, with the ranges each operation declares and the
refusals of its block (R174, R175, R189, R206, R207, R253, R254, R338 to R340). -/
namespace Sys2Proof.Machine

/-! ## Packing -/

/-- Row words for `k` elements of a format (*Row words of packed formats*); one word per element otherwise. -/
def rowWords (fmt k : Nat) : Nat :=
  if fmt = 1 ∨ fmt = 2 ∨ fmt = 3 then ceilDiv k 4
  else if fmt = 8 ∨ fmt = 9 then ceilDiv k 2
  else if fmt = 4 ∨ fmt = 5 ∨ fmt = 6 then k / 4 + ceilDiv k 128
  else if fmt = 7 then k / 8 + ceilDiv k 128
  else k

/-- Byte `i` of a row of words. -/
def rowByte (ws : List Word) (i : Nat) : Nat := bits (ws.getD (i / 4) 0).toNat (8 * (i % 4) + 7) (8 * (i % 4))

/-- Whether a format code is an MX format. -/
def isMx (fmt : Nat) : Bool := decide (4 ≤ fmt ∧ fmt ≤ 7)

/-- First row word of MX block `b`, and of its quad's scale word (R377). -/
def mxPlace (fmt b : Nat) : Nat × Nat :=
  let bw := if fmt = 7 then 4 else 8
  let q := (b / 4) * (1 + 4 * bw)
  (q, q + 1 + (b % 4) * bw)

/-- The code of element `k` of a row, and its block scale in an MX format (R376 to R378). -/
def rowCode (fmt : Nat) (ws : List Word) (k : Nat) : Nat × Nat :=
  if isMx fmt then
    let b := k / 32
    let (sw, w0) := mxPlace fmt b
    let x := rowByte ws (4 * sw + b % 4)
    let i := k % 32
    if fmt = 7 then
      let y := rowByte ws (4 * w0 + i / 2)
      (if i % 2 = 0 then y % 16 else y / 16, x)
    else (rowByte ws (4 * w0 + i), x)
  else if fmt = 1 ∨ fmt = 2 ∨ fmt = 3 then (rowByte ws k, 0)
  else if fmt = 8 ∨ fmt = 9 then
    (bits (ws.getD (k / 2) 0).toNat (16 * (k % 2) + 15) (16 * (k % 2)), 0)
  else ((ws.getD k 0).toNat, 0)

/-- The value of element `k` of a row. -/
def rowElem (fmt : Nat) (ws : List Word) (k : Nat) : Fv :=
  let (c, x) := rowCode fmt ws k
  if isMx fmt then mxScaled x (mxElemOf fmt c) else elemOf fmt c

/-- Words made of byte codes, four per word, the last word zero-filled. -/
def packBytes (cs : List Nat) : List Word := wordsOf (cs.map (BitVec.ofNat 8))

/-- Two 4-bit codes per byte. -/
def packNibbles : List Nat → List Nat
  | a :: b :: rest => (a + 16 * b) :: packNibbles rest
  | [a] => [a]
  | [] => []

/-- Two 16-bit codes per word. -/
def packHalves : List Nat → List Word
  | a :: b :: rest => BitVec.ofNat 32 (a + 65536 * b) :: packHalves rest
  | [a] => [BitVec.ofNat 32 a]
  | [] => []

/-- The words of a quad of MX blocks: the scale word, then the blocks (R377). -/
def packQuad (fmt : Nat) (bs : List (Nat × List Nat)) : List Word :=
  let scales := bs.map (·.1)
  packBytes (scales ++ List.replicate (4 - scales.length) 0)
    ++ bs.flatMap (fun b => packBytes (if fmt = 7 then packNibbles b.2 else b.2))

/-- The words of an MX row from its blocks. -/
def packMxF (fmt : Nat) : Nat → List (Nat × List Nat) → List Word
  | 0, _ => []
  | f + 1, bs => match bs with
    | [] => []
    | _ => packQuad fmt (bs.take 4) ++ packMxF fmt f (bs.drop 4)

/-- The words of a row of element codes in a packed format that is not MX. -/
def packRow (fmt : Nat) (cs : List Nat) : List Word :=
  if fmt = 8 ∨ fmt = 9 then packHalves cs
  else if fmt = 1 ∨ fmt = 2 ∨ fmt = 3 then packBytes cs
  else cs.map (BitVec.ofNat 32)

/-! ## Spans -/

/-- A span of 30-bit word addresses, first and last. -/
structure Span where
  lo : Nat
  hi : Nat
  deriving DecidableEq, Repr

/-- The span from a base to the largest address that counts and strides reach. -/
def spanOf (base extra : Nat) : Span := { lo := base, hi := base + extra }

/-- Whether a span lies in the populated words of global cluster `cl` (R21, R22). -/
def spanIn (cl : Nat) (s : Span) : Bool :=
  decide (cl * 2 ^ 21 ≤ s.lo ∧ s.hi < cl * 2 ^ 21 + Config.sliceWords)

/-- Whether two spans share a word. -/
def spanMeets (a b : Span) : Bool := decide (a.lo ≤ b.hi ∧ b.lo ≤ a.hi)

/-- `(n − 1) × stride`. -/
def reach (n stride : Nat) : Nat := (n - 1) * stride

/-! ## Configuration words -/

/-- Bits of word `w` of a configuration set. -/
def cfgBits (t : Tab Word) (w hi lo : Nat) : Nat := bits (tget (0 : Word) t w).toNat hi lo

/-- A stage descriptor of a chain (*Stage descriptor i*). -/
structure Stage where
  op : Nat
  outfmt : Nat
  func : Nat
  side : Nat
  sn : Nat
  sm : Nat
  gs : Nat
  imm0 : Nat
  imm1 : Nat
  deriving DecidableEq, Repr

/-- A descriptor of zeros: no stage. -/
def noStage : Stage := { op := 0, outfmt := 0, func := 0, side := 0, sn := 0, sm := 0, gs := 0, imm0 := 0, imm1 := 0 }

/-- The chain registers. -/
structure Chain where
  npro : Nat
  nepi : Nat
  hold : Nat
  stages : List Stage
  deriving DecidableEq, Repr

/-- Stage descriptor `i`. -/
def stageOf (t : Tab Word) (i : Nat) : Stage :=
  let b := 0x28 + 8 * i
  { op := cfgBits t b 7 0, outfmt := cfgBits t b 11 8, func := cfgBits t b 19 12, side := cfgBits t (b + 1) 29 0,
    sn := cfgBits t (b + 2) 20 0, sm := cfgBits t (b + 3) 20 0, gs := cfgBits t (b + 4) 20 0,
    imm0 := cfgBits t (b + 5) 31 0, imm1 := cfgBits t (b + 6) 31 0 }

/-- The chain of an NTE or RME block; at most 8 stage descriptors exist. -/
def chainOf (t : Tab Word) : Chain :=
  let npro := cfgBits t 0x20 3 0
  let nepi := cfgBits t 0x20 7 4
  { npro := npro, nepi := nepi, hold := cfgBits t 0x21 29 0,
    stages := (List.range (min 8 (npro + nepi))).map (stageOf t) }

/-- Prologue stages. -/
def Chain.pro (c : Chain) : List Stage := c.stages.take c.npro
/-- Epilogue stages. -/
def Chain.epi (c : Chain) : List Stage := c.stages.drop c.npro

/-- An NTE operation (*NTE_CTRL*, *NTE address registers*). -/
structure NteCfg where
  op : Nat
  cmul : Bool
  logn : Nat
  count : Nat
  src : Nat
  dst : Nat
  stride : Nat
  caddr : Nat
  midx : Nat
  mstep : Nat
  chain : Chain
  deriving DecidableEq, Repr

/-- The NTE block. -/
def nteCfg (t : Tab Word) : NteCfg :=
  { op := cfgBits t 0 2 1, cmul := decide (cfgBits t 0 3 3 = 1), logn := cfgBits t 0 8 4, count := cfgBits t 0 17 9,
    src := cfgBits t 1 29 0, dst := cfgBits t 2 29 0, stride := cfgBits t 3 20 0, caddr := cfgBits t 4 29 0,
    midx := cfgBits t 5 7 0, mstep := cfgBits t 5 15 8, chain := chainOf t }

/-- An RME operation (*RME_CTRL*, *RME size, address and stride registers*, *RME_MOD*). -/
structure RmeCfg where
  mode : Nat
  bsrc : Bool
  aml : Bool
  cml : Bool
  afmt : Nat
  bfmt : Nat
  g : Nat
  m : Nat
  n : Nat
  k : Nat
  aAddr : Nat
  aS1 : Nat
  aS2 : Nat
  aGs : Nat
  bAddr : Nat
  bS1 : Nat
  bS2 : Nat
  bGs : Nat
  cAddr : Nat
  cS1 : Nat
  cGs : Nat
  amlAddr : Nat
  cmlAddr : Nat
  amidx : Nat
  amstep : Nat
  cmidx : Nat
  cmstep : Nat
  chain : Chain
  deriving DecidableEq, Repr

/-- The RME block. -/
def rmeCfg (t : Tab Word) : RmeCfg :=
  { mode := cfgBits t 0 2 1, bsrc := decide (cfgBits t 0 3 3 = 1), aml := decide (cfgBits t 0 4 4 = 1),
    cml := decide (cfgBits t 0 5 5 = 1), afmt := cfgBits t 0 11 8, bfmt := cfgBits t 0 15 12, g := cfgBits t 0 23 16,
    m := cfgBits t 1 17 0, n := cfgBits t 2 15 0, k := cfgBits t 3 15 0,
    aAddr := cfgBits t 4 29 0, aS1 := cfgBits t 5 20 0, aS2 := cfgBits t 6 20 0, aGs := cfgBits t 7 20 0,
    bAddr := cfgBits t 8 29 0, bS1 := cfgBits t 9 20 0, bS2 := cfgBits t 10 20 0, bGs := cfgBits t 11 20 0,
    cAddr := cfgBits t 12 29 0, cS1 := cfgBits t 13 20 0, cGs := cfgBits t 14 20 0,
    amlAddr := cfgBits t 15 29 0, cmlAddr := cfgBits t 16 29 0,
    amidx := cfgBits t 17 7 0, amstep := cfgBits t 17 15 8, cmidx := cfgBits t 17 23 16, cmstep := cfgBits t 17 31 24,
    chain := chainOf t }

/-- A VEC stream. -/
structure VStream where
  on : Bool
  base : Nat
  estr : Nat
  rstr : Nat
  deriving DecidableEq, Repr

/-- A VEC operation (*VEC registers*). `ins` and `outs` hold four streams each. -/
structure VecCfg where
  rows : Nat
  elems : Nat
  padr : Nat
  nuop : Nat
  masken : Bool
  luten : Bool
  ins : List VStream
  outs : List VStream
  maskAddr : Nat
  maskRstr : Nat
  redOp : Nat
  redSrc : Nat
  redAddr : Nat
  redRstr : Nat
  midx : Nat
  mstep : Nat
  mshift : Nat
  qa : Nat
  qb : Nat
  w : Nat
  l : Nat
  lutAddr : Nat
  cst : List Word
  deriving DecidableEq, Repr

/-- Stream `n` of the VEC block: 0 to 3 inputs, 4 to 7 outputs. -/
def vStream (t : Tab Word) (en n : Nat) : VStream :=
  { on := bit en (n % 4), base := cfgBits t (4 + 3 * n) 29 0, estr := cfgBits t (5 + 3 * n) 20 0,
    rstr := cfgBits t (6 + 3 * n) 20 0 }

/-- The VEC block. -/
def vecCfg (t : Tab Word) : VecCfg :=
  { rows := cfgBits t 1 15 0, elems := cfgBits t 1 28 16, padr := cfgBits t 2 29 0, nuop := cfgBits t 3 5 0,
    masken := decide (cfgBits t 0 12 12 = 1), luten := decide (cfgBits t 0 13 13 = 1),
    ins := [0, 1, 2, 3].map (vStream t (cfgBits t 0 7 4)), outs := [4, 5, 6, 7].map (vStream t (cfgBits t 0 11 8)),
    maskAddr := cfgBits t 0x1C 29 0, maskRstr := cfgBits t 0x1D 20 0, redOp := cfgBits t 0x1E 3 0,
    redSrc := cfgBits t 0x1E 7 4, redAddr := cfgBits t 0x1F 29 0, redRstr := cfgBits t 0x20 20 0,
    midx := cfgBits t 0x21 7 0, mstep := cfgBits t 0x21 15 8, mshift := cfgBits t 0x21 20 16,
    qa := cfgBits t 0x22 7 0, qb := cfgBits t 0x22 15 8, w := cfgBits t 0x22 20 16, l := cfgBits t 0x22 27 24,
    lutAddr := cfgBits t 0x23 29 0, cst := (List.range 16).map (fun i => tget (0 : Word) t (0x30 + i)) }

/-- The read-port index controls of one port (SEQ_RIX_p, SEQ_RIXP_p, SEQ_RIXS_p), from the table keyed 4·p + word. -/
structure Rix where
  mode : Nat
  gal : Nat
  logn : Nat
  base : Nat
  pitch : Nat
  nblk : Nat
  deriving DecidableEq, Repr

/-- The index controls of port `p`: words 4p (RIX), 4p + 1 (RIXP), 4p + 2 (RIXS). -/
def rixOf (t : Tab Word) (p : Nat) : Rix :=
  let w := fun i => (tget (0 : Word) t (4 * p + i)).toNat
  { mode := bits (w 0) 1 0, gal := bits (w 0) 19 2, logn := bits (w 0) 24 20, base := bits (w 1) 29 0,
    pitch := bits (w 2) 8 0, nblk := bits (w 2) 20 9 }

/-- The position that automorphism t takes position `i` from (R115, R338): 2·brv(i′) + 1 ≡ t·(2·brv(i) + 1) mod 2N. -/
def autoPos (logn t i : Nat) : Nat := brv logn ((t * (2 * brv logn i + 1) % 2 ^ (logn + 1)) / 2)

/-- Word `x` of the sequence that the transposition unit delivers: block by block, column by column, each column in
ascending row (R336). -/
def transposedAddr (r : Rix) (x : Nat) : Nat :=
  r.base + 64 * (x / 4096) + (x / 64) % 64 + (x % 64) * (r.pitch * 4096)

/-- The words a transposed read touches, as one span. -/
def transposedSpan (r : Rix) : Span := spanOf r.base (63 * r.pitch * 4096 + 64 * r.nblk - 1)

/-! ## Declared ranges and refusals -/

/-- A declared range: a span and whether it is written. -/
abbrev Declared1 := Span × Bool

/-- The kind of an engine's refusal: CFG_INVALID or ADDR_INVALID. -/
inductive Refused where
  | cfg | addr
  deriving DecidableEq, Repr

/-- Outputs per group of an RME operation after a TWIST2 stage (R202). -/
def rmeOutputs (c : RmeCfg) : Nat :=
  if c.chain.epi.any (fun s => decide (s.op = 0x11)) then c.n / 2 else c.n

/-- The output format of the last stage of an OPEN anchor: FP32 unless CAST or BSCALE narrows it. An OUTFMT other than 0xA on
a last FP32 stage of another kind is not refused by R206, and R200 and R209 give such a stage an FP32 result: it has no
effect (DESIGN CHOICE, log entry 107). -/
def rmeOutFmt (c : RmeCfg) : Nat :=
  match c.chain.epi.getLast? with
  | some s => if s.op = 0x16 ∨ s.op = 0x17 then s.outfmt else 0xA
  | none => 0xA

/-- The C words of an RME operation as one span. -/
def rmeCSpan (c : RmeCfg) : Span :=
  if c.mode = 2 then
    spanOf c.cAddr (reach c.g c.cGs + reach c.m c.cS1 + rowWords (rmeOutFmt c) c.n - 1)
  else spanOf c.cAddr (reach c.g c.cGs + reach (rmeOutputs c) c.cS1 + c.m - 1)

/-- The A words. -/
def rmeASpan (c : RmeCfg) : Span :=
  if c.mode = 2 then spanOf c.aAddr (reach c.g c.aGs + reach c.m c.aS1 + rowWords c.afmt c.k - 1)
  else spanOf c.aAddr (reach c.g c.aGs + reach c.n c.aS2 + reach c.k c.aS1 + c.m - 1)

/-- The B words. -/
def rmeBSpan (c : RmeCfg) : Span :=
  if c.mode = 2 then spanOf c.bAddr (reach c.g c.bGs + reach c.n c.bS1 + rowWords c.bfmt c.k - 1)
  else spanOf c.bAddr (reach c.g c.bGs + reach c.n c.bS2 + reach c.k c.bS1 + (if c.mode = 1 then c.m - 1 else 0))

/-- The words of a byte list of `n` bytes. -/
def listSpan (addr n : Nat) : Span := spanOf addr ((n - 1) / 4)

/-- Counts over which a stage's side operand is addressed on the anchor: (g, n, m) for the RME, (1, c, N) for the
NTE. -/
structure Extent where
  g : Nat
  n : Nat
  m : Nat

/-- Whether a stage reads a side word. -/
def usesSide (s : Stage) : Bool := [0x10, 0x12, 0x13, 0x18].contains s.op

/-- The side words of a stage as one span. -/
def sideSpan (e : Extent) (s : Stage) : Span := spanOf s.side (reach e.g s.gs + reach e.n s.sn + reach e.m s.sm)

/-- The ranges a chain declares: side, constant and program words as read, the holding region as written (R208).
`consts` is how many constant words a PMUL reads. -/
def chainRanges (c : Chain) (e : Extent) (consts holdWords : Nat) : List Declared1 :=
  c.stages.flatMap (fun s =>
    (if usesSide s then [(sideSpan e s, false)] else [])
    ++ (if s.op = 0x01 then [(spanOf (s.imm0 % 2 ^ 30) (consts - 1), false)] else [])
    ++ (if s.op = 0x10 then [(spanOf (s.imm0 % 2 ^ 30) (e.n - 1), false)] else [])
    ++ (if s.op = 0x18 then [(spanOf (s.imm0 % 2 ^ 30) (s.imm1 % 64 - 1), false)] else [])
    ++ (if s.op = 0x15 then [(spanOf c.hold (holdWords - 1), true)] else []))

/-- Words of a holding region: 2 × 16 × Nn′ (R212, R217). -/
def holdWords (n : Nat) : Nat := 2 * 16 * (32 * ceilDiv n 32)

/-- The typing rules of R206 that do not look at addresses. `open_` and `ewmac` describe an RME anchor, `fwd` an NTE
operation; `n` is Nn. -/
def chainTyped (nte fwd open_ ewmac : Bool) (n : Nat) (c : Chain) : Bool :=
  let len := c.npro + c.nepi
  let proOk (i : Nat) (s : Stage) : Bool :=
    (s.op = 0x01 || s.op = 0x04 || (nte && s.op = 0x02) || (nte && fwd && s.op = 0x03 && i = 0))
      && !open_ && s.outfmt = 0
  let epiOk (i : Nat) (s : Stage) : Bool :=
    let last := i + 1 = c.nepi
    let fp := open_
    [0x04, 0x10, 0x11, 0x12, 0x13, 0x14, 0x15, 0x16, 0x17, 0x18].contains s.op
      && (if fp then !([0x04, 0x10, 0x11].contains s.op) else !([0x14, 0x15, 0x16, 0x17].contains s.op))
      && (s.op ≠ 0x11 || (i = 0 && ewmac && n % 2 = 0))
      && (if fp then s.outfmt ≠ 0 && (last || s.outfmt = 0xA) else s.outfmt = 0)
      && (s.op ≠ 0x16 || (last && [1, 2, 3, 8, 9].contains s.outfmt))
      && (s.op ≠ 0x17 || (last && isMx s.outfmt && n % 32 = 0))
      && (s.op ≠ 0x18 || (1 ≤ s.imm1 % 64 && s.imm1 % 64 ≤ 32))
      && (!([0x14, 0x15].contains s.op) || s.func ≤ 1)
  decide (len ≤ 8)
    && (c.pro.zipIdx.all (fun (s, i) => proOk i s)) && (c.epi.zipIdx.all (fun (s, i) => epiOk i s))
    && decide ((c.stages.filter (·.op = 0x15)).length ≤ 1) && decide ((c.stages.filter (·.op = 0x18)).length ≤ 1)

/-- Whether a side operand is the destination word for word (R206, R208): the same strides over every count above 1, where
output `n` lies `off n` words into a destination row. -/
def sideInPlace (e : Extent) (addr gs sm : Nat) (off : Nat → Nat) (s : Stage) : Bool :=
  decide (e.g ≤ 1 ∨ s.gs = gs) && decide (e.m ≤ 1 ∨ s.sm = sm)
    && (List.range e.n).all (fun n => decide (s.side + n * s.sn = addr + off n))

/-- The word of element `n` in a row of a format (R375 to R377). -/
def rowWordOf (fmt n : Nat) : Nat :=
  if isMx fmt then (mxPlace fmt (n / 32)).2 + n % 32 / (if fmt = 7 then 8 else 4)
  else if fmt = 1 ∨ fmt = 2 ∨ fmt = 3 then n / 4
  else if fmt = 8 ∨ fmt = 9 then n / 2
  else n

/-- The overlap rules of R206; `inPlace` says which side operands are the destination word for word. -/
def chainOverlaps (c : Chain) (e : Extent) (consts hw : Nat) (srcs : List Span) (dst : Span)
    (inPlace : Stage → Bool) : Bool :=
  let hold := spanOf c.hold (hw - 1)
  let others := srcs ++ [dst] ++ ((chainRanges c e consts hw).filter (fun d => !d.2)).map (·.1)
  (c.stages.any (fun s => decide (s.op = 0x15)) && others.any (spanMeets hold))
    || c.stages.any (fun s => usesSide s && spanMeets (sideSpan e s) dst && !inPlace s)

/-- The NTE's extent for side operands. -/
def nteExtent (c : NteCfg) : Extent := { g := 1, n := c.count, m := 2 ^ c.logn }

/-- Whether the first prologue stage is GDECOMP (R201). -/
def nteGdecomp (c : NteCfg) : Option Stage :=
  match c.chain.pro with
  | s :: _ => if s.op = 0x03 then some s else none
  | [] => none

/-- The input words of an NTE operation as one span (R175, R177, R201). -/
def nteSrcSpan (c : NteCfg) : Span :=
  match nteGdecomp c with
  | some s => spanOf c.src (s.sn + 2 ^ c.logn - 1)
  | none => spanOf c.src (reach c.count c.stride + 2 ^ c.logn - 1)

/-- The output words of an NTE operation as one span. -/
def nteDstSpan (c : NteCfg) : Span := spanOf c.dst (reach c.count c.stride + 2 ^ c.logn - 1)

/-- The ranges an NTE operation declares (R177, R208). -/
def nteRanges (c : NteCfg) : List Declared1 :=
  [(nteSrcSpan c, false), (nteDstSpan c, true)]
    ++ (if c.cmul then [(spanOf c.caddr (c.count - 1), false)] else [])
    ++ chainRanges c.chain (nteExtent c) c.count 0

/-- The refusals of an NTE block (R174, R175, R206, R207). Overlap of source and destination is judged over the span from the
first word of the first limb to the last of the last: R175 does not say whether limbs that interleave without a common word
overlap (DESIGN CHOICE, log entry 106). No rule orders CFG_INVALID and ADDR_INVALID: the configuration is judged first (DESIGN
CHOICE, log entry 144). -/
def nteRefused (cl : Nat) (c : NteCfg) : Option Refused :=
  let n := 2 ^ c.logn
  if c.logn < 10 ∨ c.logn > 17 ∨ c.count = 0 ∨ c.count > 256 ∨ c.stride < n ∨ c.stride % 64 ≠ 0 ∨ c.op ≥ 2 then
    some .cfg
  else if spanMeets (nteSrcSpan c) (nteDstSpan c) && decide (nteSrcSpan c ≠ nteDstSpan c) then some .cfg
  else if !chainTyped true (decide (c.op = 0)) false false c.count c.chain then some .cfg
  else if chainOverlaps c.chain (nteExtent c) c.count 0 [nteSrcSpan c] (nteDstSpan c)
      (sideInPlace (nteExtent c) c.dst 0 1 (· * c.stride)) then some .cfg
  else if (nteRanges c).any (fun d => !spanIn cl d.1) then some .addr
  else none

/-- The RME's extent for side operands: in OPEN mode the columns are n and the rows m. -/
def rmeExtent (c : RmeCfg) : Extent :=
  if c.mode = 2 then { g := c.g, n := c.n, m := c.m } else { g := c.g, n := rmeOutputs c, m := c.m }

/-- The ranges an RME operation declares (R188, R208); `rix` is the index control of its A port. -/
def rmeRanges (c : RmeCfg) (rix : Rix) : List Declared1 :=
  [((if rix.mode = 2 then transposedSpan rix else rmeASpan c), false)]
    ++ (if c.bsrc then [] else [(rmeBSpan c, false)])
    ++ [(rmeCSpan c, true)]
    ++ (if c.aml ∧ c.mode = 0 then [(listSpan c.amlAddr (c.g * c.k), false)] else [])
    ++ (if c.cml ∧ c.mode ≠ 2 then [(listSpan c.cmlAddr (c.g * c.n), false)] else [])
    ++ chainRanges c.chain (rmeExtent c) (c.g * c.k) (holdWords c.n)

/-- Row of *Open-mode format codes* that a code stands in; `none` when it is not listed. -/
def fmtRow (f : Nat) : Option Nat :=
  if f = 1 then some 0 else if f = 2 ∨ f = 3 then some 1 else if f = 4 then some 2
  else if 5 ≤ f ∧ f ≤ 7 then some 3 else if f = 8 then some 4 else if f = 9 then some 5 else if f = 10 then some 6 else none

/-- A-cycles per group of 16 K per tile (*Open-mode format codes*). -/
def fmtCycles (f : Nat) : Nat := if f = 10 then 64 else if f = 8 ∨ f = 9 then 16 else 4

/-- Whether the index control of a port cannot be met by a linear limb read of `m` positions (R338, R340). -/
def rixBad (r : Rix) (auto : Bool) (words : Nat) : Bool :=
  decide (r.mode = 3)
    || (decide (r.mode = 1) && (!auto || decide (r.logn < 10 ∨ r.logn > 17 ∨ r.gal % 2 = 0 ∨ r.gal ≥ 2 ^ (r.logn + 1))))
    || (decide (r.mode = 2) && decide (r.pitch = 0 ∨ r.pitch > 288 ∨ r.nblk = 0 ∨ r.base % 64 ≠ 0 ∨ 4096 * r.nblk < words))

/-- The refusals of an RME block (R182, R185, R189, R206, R207, R338). -/
def rmeRefused (cl : Nat) (c : RmeCfg) (rix : Rix) : Option Refused :=
  let fmtBad := decide (c.mode = 2) &&
    (decide (fmtRow c.afmt = none ∨ fmtRow c.afmt ≠ fmtRow c.bfmt) || (isMx c.afmt && decide (c.k % 32 ≠ 0)))
  let cmp := decide (c.mode = 2)
  if c.m = 0 ∨ c.n = 0 ∨ c.k = 0 ∨ c.g = 0 ∨ c.m > 131072 ∨ c.mode = 3 then some .cfg
  else if (c.bsrc && decide (c.mode ≠ 1)) || fmtBad then some .cfg
  else if rixBad rix (decide (c.mode ≠ 2) && decide (c.m = 2 ^ rix.logn))
      (if c.mode = 2 then c.g * c.m * rowWords c.afmt c.k else c.g * c.n * c.k * c.m) then some .cfg
  else if !chainTyped false false cmp (decide (c.mode = 1)) c.n c.chain then some .cfg
  else if chainOverlaps c.chain (rmeExtent c) (c.g * c.k) (holdWords c.n)
      ((rmeRanges { c with chain := { c.chain with stages := [] } } rix).filter (fun d => !d.2) |>.map (·.1))
      (rmeCSpan c)
      (sideInPlace (rmeExtent c) c.cAddr c.cGs (if c.mode = 2 then c.cS1 else 1)
        (fun n => if c.mode = 2 then rowWordOf (rmeOutFmt c) n else n * c.cS1)) then some .cfg
  else if (rmeRanges c rix).any (fun d => !spanIn cl d.1) then some .addr
  else none

/-- A stream's words as one span (R251). -/
def vSpan (c : VecCfg) (s : VStream) : Span := spanOf s.base (reach c.rows s.rstr + reach c.elems s.estr)

/-- The positions of its limb that the first `n` positions of an automorphism read come from (R338). -/
def autoReads (rix : Rix) (n : Nat) : List Nat := (List.range n).map (autoPos rix.logn rix.gal)

/-- The words input stream number `n` reads through the read port, as one span from the first to the last word addressed (R251,
R336, R338): in automorphism mode whole groups of rows read whole limbs, and a last group of fewer rows the words its positions
come from. -/
def vInSpan (c : VecCfg) (rix : Rix) (n : Nat) (s : VStream) : Span :=
  if rix.mode = 1 then
    let whole := c.rows / 2 ^ c.mshift * 2 ^ rix.logn
    match autoReads rix (c.rows % 2 ^ c.mshift * c.elems) with
    | [] => spanOf s.base (whole - 1)
    | p :: ps => { lo := s.base + (if whole = 0 then ps.foldl min p else 0), hi := s.base + whole + ps.foldl max p }
  else if rix.mode = 2 ∧ n = 0 then transposedSpan rix
  else vSpan c s

/-- Enabled input streams with their number among the enabled ones. -/
def vInsOn (c : VecCfg) : List (VStream × Nat) := (c.ins.filter (·.on)).zipIdx

/-- Word address (30 bits) of element j of row r of input stream number `n`, through the read port (R228, R336, R338). -/
def vecInWord (v : VecCfg) (x : Rix) (n : Nat) (s : VStream) (r j : Nat) : Nat :=
  let ms := 2 ^ v.mshift
  if x.mode = 1 then s.base + (r - r % ms) * s.rstr + autoPos x.logn x.gal ((r % ms) * v.elems + j)
  else if x.mode = 2 ∧ n = 0 then transposedAddr x (r * v.elems + j)
  else s.base + r * s.rstr + j * s.estr

/-- The reduction words as one span. -/
def vRedSpan (c : VecCfg) : Span := spanOf c.redAddr (reach c.rows c.redRstr + 1)

/-- Read ranges of a VEC operation other than its input streams: mask, program, table. -/
def vSideSpans (c : VecCfg) : List Span :=
  (if c.masken then [spanOf c.maskAddr (reach c.rows c.maskRstr + (c.elems - 1) / 32)] else [])
    ++ [spanOf c.padr (c.nuop - 1)] ++ (if c.luten then [spanOf c.lutAddr 63] else [])

/-- The ranges a VEC operation declares (R251); `rix` is the index control of its read port. -/
def vecRanges (c : VecCfg) (rix : Rix) : List Declared1 :=
  ((vInsOn c).map (fun p => (vInSpan c rix p.2 p.1, false)))
    ++ ((vSideSpans c).map (fun s => (s, false)))
    ++ ((c.outs.filter (·.on)).map (fun s => (vSpan c s, true)))
    ++ (if c.redOp ≠ 0 then [(vRedSpan c, true)] else [])

/-- Whether two streams have the same base and strides (R252). -/
def sameStream (a b : VStream) : Bool := decide (a.base = b.base ∧ a.estr = b.estr ∧ a.rstr = b.rstr)

/-- Whether two streams share a word: their spans meet, and some word of the one is a word of the other (R252, R253). -/
def streamsMeet (c : VecCfg) (a b : VStream) : Bool :=
  spanMeets (vSpan c a) (vSpan c b) &&
    (List.range c.rows).any (fun r1 => (List.range c.rows).any (fun r2 => (List.range c.elems).any (fun j =>
      let x := a.base + r1 * a.rstr + j * a.estr
      let y := b.base + r2 * b.rstr
      decide (y ≤ x) && (if b.estr = 0 then decide (x = y)
        else decide ((x - y) % b.estr = 0 ∧ (x - y) / b.estr < c.elems)))))

/-- Whether some pair of a list of streams shares a word. -/
def anyPairMeets (c : VecCfg) : List VStream → Bool
  | [] => false
  | s :: rest => rest.any (streamsMeet c s) || anyPairMeets c rest

/-- Whether word `x` is a word of a linear stream. -/
def inStream (c : VecCfg) (s : VStream) (x : Nat) : Bool :=
  (List.range c.rows).any (fun r =>
    let y := s.base + r * s.rstr
    decide (y ≤ x) && (if s.estr = 0 then decide (x = y) else decide ((x - y) % s.estr = 0 ∧ (x - y) / s.estr < c.elems)))

/-- Whether output stream `o` shares a word with input stream number `n` other than under R252. The words of a stream that the
read port permutes or transposes are those it reads. R252 lets an output with the registers of a permuted input run in
place; the operation then reads every input word before it writes any (DESIGN CHOICE, log entry 108). -/
def outMeetsIn (c : VecCfg) (rix : Rix) (o i : VStream) (n : Nat) : Bool :=
  if rix.mode = 1 ∨ (rix.mode = 2 ∧ n = 0) then
    !(sameStream o i && decide (rix.mode = 1)) && spanMeets (vSpan c o) (vInSpan c rix n i)
        && (List.range c.rows).any (fun r => (List.range c.elems).any (fun j =>
      inStream c o (vecInWord c rix n i r j)))
  else !sameStream o i && streamsMeet c o i

/-- The overlap rules of R252 and R253. -/
def vOverlap (c : VecCfg) (rix : Rix) : Bool :=
  let ins := vInsOn c
  let outs := c.outs.filter (·.on)
  anyPairMeets c outs
    || outs.any (fun o => ins.any (fun p => outMeetsIn c rix o p.1 p.2))
    || (decide (c.redOp ≠ 0) &&
        (ins.map (fun p => vInSpan c rix p.2 p.1) ++ outs.map (vSpan c) ++ vSideSpans c).any (spanMeets (vRedSpan c)))

/-- The refusals of a VEC block that do not need its program (R253, R254, R338). -/
def vecRefused (cl : Nat) (c : VecCfg) (rix : Rix) : Option Refused :=
  let autoOk := (c.ins.filter (·.on)).all (fun s => decide (s.estr = 1 ∧ s.rstr = c.elems))
    && decide (c.elems * 2 ^ c.mshift = 2 ^ rix.logn)
  if c.rows = 0 ∨ c.elems = 0 ∨ c.elems > 4096 ∨ c.nuop = 0 ∨ c.nuop > 32 ∨ c.mshift > 16 then some .cfg
  else if c.redOp ≠ 0 ∧ c.redRstr < 2 then some .cfg
  else if rixBad rix autoOk (c.rows * c.elems) then some .cfg
  else if vOverlap c rix then some .cfg
  else if (vecRanges c rix).any (fun d => !spanIn cl d.1) then some .addr
  else none

/-- The modulus entries an NTE operation names (R167). -/
def nteEntries (c : NteCfg) : List Nat :=
  (List.range c.count).map (fun i => (c.midx + i * c.mstep) % 256)
    ++ c.chain.stages.flatMap (fun s =>
      if s.op = 0x02 then [s.imm1 % 256] else if s.op = 0x03 then [s.imm1 % 256, s.imm1 / 256 % 256] else [])

/-- The modulus entries a VEC operation with program `prog` names (R167). -/
def vecEntries (c : VecCfg) (prog : List Word) : List Nat :=
  (List.range c.rows).map (fun r => (c.midx + (r >>> c.mshift) * c.mstep) % 256)
    ++ (if prog.any (fun u => [0x08, 0x09].contains (u.toNat % 256)) then [c.qa, c.qb] else [])
    ++ (prog.filter (fun u => u.toNat % 256 = 0x06)).map (fun u => u.toNat / 2 ^ 24)

/-- The ranges that a configuration declares (R453). -/
def opRanges (e : Engine) (cfg rix : Tab Word) : List Declared1 :=
  match e with
  | .nte => nteRanges (nteCfg cfg)
  | .rme => rmeRanges (rmeCfg cfg) (rixOf rix 0)
  | .vec => vecRanges (vecCfg cfg) (rixOf rix 1)

/-- Spans that an operation writes. -/
def opWrites (e : Engine) (cfg rix : Tab Word) : List Span := ((opRanges e cfg rix).filter (·.2)).map (·.1)

/-- Scratchpad rows that spans touch, each once. -/
def spanRows (spans : List Span) : List Nat :=
  (spans.flatMap (fun s =>
    let lo := s.lo % 2 ^ 21 / 64
    (List.range (s.hi % 2 ^ 21 / 64 + 1 - lo)).map (lo + ·))).foldl
    (fun (acc : List Nat) r => if acc.contains r then acc else acc ++ [r]) []

/-- The index controls of an engine's read port (R340), 0 after the engine's reset. -/
def clearRix (e : Engine) (t : Tab Word) : Tab Word :=
  match e with
  | .nte => t
  | .rme => t.filter (fun p => decide (p.1 / 4 ≠ 0))
  | .vec => t.filter (fun p => decide (p.1 / 4 ≠ 1))

end Sys2Proof.Machine
end

