-- ==== Sys2Proof/Machine/Ops.lean ====
section
/-! DEFINITION. The named operations that the meanings share: the parts of the module by number, the host-visible events
and vectors, scratchpad reads and writes with the fence, the poison marks and the error code (R345 to R351, R467), the
completion of a job (R569 to R571) and the job kill (R502). -/
namespace Sys2Proof.Machine

/-! ## Parts by number -/

/-- Cluster `c`. -/
def clAt (m : Module) (c : Nat) : Cluster := tget {} m.clusters c
/-- The module with cluster `c` changed. -/
def onCl (m : Module) (c : Nat) (f : Cluster → Cluster) : Module := { m with clusters := tmod {} m.clusters c f }
/-- Compute die `d`. -/
def dieAt (m : Module) (d : Nat) : Die := tget {} m.dies d
/-- The module with die `d` changed. -/
def onDie (m : Module) (d : Nat) (f : Die → Die) : Module := { m with dies := tmod {} m.dies d f }
/-- Stack `n`. -/
def stkAt (m : Module) (n : Nat) : Stack := tget {} m.stks n
/-- The module with stack `n` changed. -/
def onStk (m : Module) (n : Nat) (f : Stack → Stack) : Module := { m with stks := tmod {} m.stks n f }
/-- Context `c` of a cluster. -/
def ctxOf (cl : Cluster) (c : Nat) : Context := tget {} cl.ctxs c
/-- The cluster with context `c` changed. -/
def onCtx (cl : Cluster) (c : Nat) (f : Context → Context) : Cluster := { cl with ctxs := tmod {} cl.ctxs c f }
/-- The job with a tag. -/
def jobAt (m : Module) (tag : Nat) : Option Job := tget none m.quay.jobs tag
/-- The module with the Quay changed. -/
def onQuay (m : Module) (f : Quay → Quay) : Module := { m with quay := f m.quay }
/-- The module with the Hedge changed. -/
def onHedge (m : Module) (f : Hedge → Hedge) : Module := { m with hedge := f m.hedge }
/-- The module with the PKE changed. -/
def onPke (m : Module) (f : Pke → Pke) : Module := { m with pke := f m.pke }
/-- The module with the endpoint changed. -/
def onEp (m : Module) (f : Endpoint → Endpoint) : Module := { m with ep := f m.ep }
/-- The Quay with the job of a tag changed, when there is one. -/
def Quay.onJob (q : Quay) (tag : Nat) (f : Job → Job) : Quay :=
  { q with jobs := tmod none q.jobs tag (fun o => o.map f) }
/-- The module with the job of a tag changed, when there is one. -/
def onJob (m : Module) (tag : Nat) (f : Job → Job) : Module := onQuay m (fun q => q.onJob tag f)
/-- Submission and completion ring `i`. -/
def ringAt (m : Module) (i : Nat) : Ring := tget {} m.quay.rings i
/-- The module with ring `i` changed. -/
def onRing (m : Module) (i : Nat) (f : Ring → Ring) : Module :=
  onQuay m (fun q => { q with rings := tmod {} q.rings i f })
/-- The engine of a cluster. -/
def engOf (cl : Cluster) : Engine → EngineState
  | .nte => cl.nte
  | .rme => cl.rme
  | .vec => cl.vec
/-- The cluster with an engine changed. -/
def onEng (cl : Cluster) (e : Engine) (f : EngineState → EngineState) : Cluster :=
  match e with
  | .nte => { cl with nte := f cl.nte }
  | .rme => { cl with rme := f cl.rme }
  | .vec => { cl with vec := f cl.vec }
/-- The number that the scoreboard and a LOAD give an engine (R441, R452). -/
def engNo : Engine → Nat
  | .nte => 0
  | .rme => 1
  | .vec => 2
/-- The die of global cluster `c` (R21). -/
def dieOf (c : Nat) : Nat := c / 64

/-- The next free value's number, and the module that has used it. -/
def takeFree (m : Module) : Nat × Module := (m.free, { m with free := m.free + 1 })

/-- Jobs that are in flight (INFLIGHT of R494). -/
def inflight (m : Module) : Nat := m.quay.jobs.length

/-! ## Events, vectors and host writes -/

/-- Whether R580 keeps the module from host memory: IDEREQ is 1 and no stream is Secure. -/
def muted (m : Module) : Bool := m.quay.ideReq && !(m.ep.ide.any (fun p => p.2.secure))

/-- Whether the module runs: it has booted, and no shutdown is in force. -/
def alive (m : Module) : Bool := decide (m.hedge.boot = .running ∨ m.hedge.boot = .recovery ∨ m.hedge.boot = .restMonitor)

/-- Whether vector `v` is masked (bit 0 of its Vector Control word, which resets to 1). -/
def vecMasked (m : Module) (v : Nat) : Bool := bit (tget (1 : Word) m.quay.msixCtl v).toNat 0

/-- Signals MSI-X vector `v`: the message, or its pending bit while the vector is masked or the module is muted. -/
def signalVec (m : Module) (v : Nat) : Module :=
  if vecMasked m v || muted m then onQuay m (fun q => { q with msixPba := tset false q.msixPba v true })
  else { m with msixOut := m.msixOut ++ [v] }

/-- Sets bit `i` of GLB_EVT; an enabled bit signals vector 510 (R564) and asserts WAKE# in Rest (R671). -/
def raiseEvt (m : Module) (i : Nat) : Module :=
  let m1 := onQuay m (fun q => { q with evt := q.evt ||| BitVec.ofNat 7 (2 ^ i) })
  if m.quay.evtEn.getLsbD i then
    let m2 := signalVec m1 510
    if m.hedge.power = .rest then onHedge m2 (fun h => { h with wake := true }) else m2
  else m1

/-- Records a ring error: RING_ERR of ring `i`, GLB_EVT bit 4, and vector 510, which signals every ring error (R564). -/
def ringError (m : Module) (i : Nat) (code : BitVec 3) : Module :=
  let m1 := onRing m i (fun r => { r with err := code })
  let m2 := onQuay m1 (fun q => { q with evt := q.evt ||| 16 })
  signalVec m2 510

/-- A DMA write to host memory. -/
def hostWrite (m : Module) (addr : BitVec 64) (bytes : List Byte) : Module :=
  { m with hostOut := m.hostOut ++ [{ addr := addr, bytes := bytes }] }

/-- An AER report. -/
def aerReport (m : Module) (a : Aer) : Module := { m with aer := m.aer ++ [a] }

/-- An event that the Hedge logs waits for its record (R706, LOG_WRITE). -/
def logLater (m : Module) (e : LogEvent) : Module := onHedge m (fun h => { h with logQ := h.logQ ++ [e] })

/-- Whether a replay of the job is still within its budget; a hand plan has none (R432, R676, R679). -/
def canReplay (j : Job) : Bool := !j.desc.hand && decide (j.attempts < 4 ∧ j.replays < 16)

/-- Whether job `tag` waits for a replay: it then issues and starts nothing (R421, R675). -/
def replayWaits (m : Module) (tag : Nat) : Bool := match jobAt m tag with
  | some j => j.replayReq.isSome
  | none => false

/-- Whether an error of job `tag` starts a replay. -/
def jobReplays (m : Module) (tag : Nat) : Bool := match jobAt m tag with
  | some j => canReplay j
  | none => false

/-- An error of job `tag` requests a replay; errors before its restore share one (R678). -/
def askReplay (m : Module) (tag : Nat) (c : ReplayCause) : Module :=
  onJob m tag (fun j => if canReplay j && j.replayReq.isNone then { j with replayReq := some c } else j)

/-! ## Scratchpad -/

/-- Row of word `w` (R23). -/
def rowOf (w : Nat) : Nat := w / 64

/-- Whether row `r` is behind the scrub fence. -/
def rowFenced (c : Cluster) (r : Nat) : Bool := c.fence.any (fun f => decide (f.row = r))

/-- A read of word `w` by an operation whose `zero` rows read 0 (R467): the fence and the poison marks read 0, and so
does an uncorrectable word (R348); a corrected word reads as written (R346). -/
def scrWord (c : Cluster) (zero : List Nat) (w : Nat) : Word :=
  if rowFenced c (rowOf w) || tget false c.poisoned (rowOf w) || zero.contains (rowOf w)
      || decide (tget 0 c.spErr w = 2) then 0
  else mword c.scratch w

/-- `n` words from word `w`. -/
def scrRun (c : Cluster) (zero : List Nat) (w n : Nat) : List Word :=
  (List.range n).map (fun i => scrWord c zero (w + i))

/-- A list with every element once, in the order of the first occurrences. -/
def uniq (l : List Nat) : List Nat := l.foldl (fun acc a => if acc.contains a then acc else acc ++ [a]) []

/-- What reading the words `ws` does, each as often as it is listed: hits of the fence, corrected words with their rewrites (at most
16 wait, R347), and uncorrectable words. -/
def scrReadFx (c : Cluster) (ws : List Nat) : Cluster :=
  let hits := (ws.filter (fun w => rowFenced c (rowOf w))).length
  let seen := ws.filter (fun w => !rowFenced c (rowOf w))
  let corr := seen.filter (fun w => decide (tget 0 c.spErr w = 1))
  let unc := (seen.filter (fun w => decide (tget 0 c.spErr w = 2))).length
  let fresh := uniq (corr.filter (fun w => !c.rewriteQ.contains w))
  let room := 16 - c.rewriteQ.length
  { c with
    fenceHits := satAdd c.fenceHits hits,
    eccCorr := satAdd c.eccCorr corr.length, eccUnc := satAdd c.eccUnc unc,
    eccDrop := satAdd c.eccDrop (fresh.length - room), rewriteQ := c.rewriteQ ++ fresh.take room }

/-- Fenced words among `ws`. -/
def fencedCount (c : Cluster) (ws : List Nat) : Nat := (ws.filter (fun w => rowFenced c (rowOf w))).length

/-- A write of one word: dropped and counted in a fenced row (R350), else stored with fresh check bits. -/
def scrWrite (c : Cluster) (w : Nat) (v : Word) : Cluster :=
  if rowFenced c (rowOf w) then { c with fenceHits := satAdd c.fenceHits 1 }
  else { c with scratch := mputWords c.scratch w [v], spErr := tset 0 c.spErr w 0, lost := c.lost.filter (· ≠ w) }

/-- Writes in order. -/
def scrWrites (c : Cluster) (ws : List (Nat × Word)) : Cluster := ws.foldl (fun c p => scrWrite c p.1 p.2) c

/-- What an uncorrectable word at word `w` of cluster `cl` does beyond its read (R348, R699, R706): a replay is requested,
the event is logged, and the cluster takes no new plan until its march test. -/
def scrUnc (m : Module) (cl tag w : Nat) : Module :=
  let m1 := logLater (askReplay m tag .memory)
    { cls := 1, sev := 2, unit := BitVec.ofNat 32 cl, job := BitVec.ofNat 16 tag, detail := 0,
      addr := BitVec.ofNat 64 (cl * 2 ^ 21 + w), data := [] }
  onHedge m1 (fun h => if h.testing.contains cl then h else { h with testing := h.testing ++ [cl] })

/-- The first uncorrectable word among `ws`. -/
def firstUnc (c : Cluster) (ws : List Nat) : Option Nat :=
  (c.spErr.find? (fun p => decide (p.2 = 2) && ws.contains p.1 && !rowFenced c (rowOf p.1))).map (·.1)

/-- Whether a read of the words `ws` meets an uncorrectable word, or one that stands for an earlier uncorrectable read that no replay
cleared (R679, log entry 110). -/
def readsLost (c : Cluster) (ws : List Nat) : Bool :=
  (firstUnc c ws).isSome || c.lost.any (fun w => ws.contains w && !rowFenced c (rowOf w))

/-- Reads and writes of an operation of job `tag` on cluster `cl`, with the marks that SCRUB_FENCE and an uncorrectable
word leave on the job (R348, R351). -/
def scrAccess (m : Module) (cl tag : Nat) (reads : List Nat) (writes : List (Nat × Word)) : Module :=
  let c := clAt m cl
  let hits := fencedCount c reads + fencedCount c (writes.map (·.1))
  let m1 := onCl m cl (fun c => scrWrites (scrReadFx c reads) writes)
  let m2 := onJob m1 tag (fun j => { j with fence := j.fence + hits })
  match firstUnc c reads with
  | some w => scrUnc m2 cl tag w
  | none => m2

/-! ## Flags and messages -/

/-- Cluster and number of a flag address: die [16:14], local cluster [13:8], flag [7:0] (R470). -/
def flagPlace (a : Nat) : Nat × Nat := (bits a 16 8, bits a 7 0)

/-- Cluster and number of a queue address: die [14:12], local cluster [11:6], queue [5:0] (R476). -/
def queuePlace (a : Nat) : Nat × Nat := (bits a 14 6, bits a 5 0)

/-! ## Reports of a job -/

/-- Total of poisoned objects a job egressed. -/
def poisonTotal (j : Job) : Nat := lsum (j.poison.map (·.2))

/-- Lowest poison code among them, 0 for none. -/
def poisonLow (j : Job) : Nat := match j.poison with
  | [] => 0
  | p :: _ => p.1

/-- Time in ns of `ac` a-cycles at `mhz`. -/
def acToNs (mhz ac : Nat) : Nat := if mhz = 0 then 0 else ac * 1000 / mhz

/-- The job report (R571): 124 bytes and their CRC. `tdone` is T_DONE. -/
def jobReport (tag : Nat) (j : Job) (status : BitVec 8) (mhz tdone : Nat) : List Byte :=
  withCrc (leBytes 4 0x5450524A ++ leBytes 1 1 ++ [status] ++ leBytes 2 tag ++ leBytes 4 j.desc.cid.toNat
    ++ leBytes 4 (satN 32 j.ninval) ++ leBytes 8 j.bound.toNat ++ leBytes 8 (acToNs mhz (j.lastWrite - j.origin))
    ++ leBytes 4 (satN 32 j.slip) ++ leBytes 4 (satN 32 j.slipEvents) ++ leBytes 4 (satN 32 j.oob)
    ++ leBytes 4 (satN 32 j.pad) ++ leBytes 4 (satN 32 j.fence) ++ leBytes 4 (satN 32 (poisonTotal j))
    ++ leBytes 4 (j.fptens.getD 0xFFFFFFFF) ++ zeros 4
    ++ ((List.range 10).flatMap (fun i => leBytes 4 (satN 32 (tget 0 j.poison (i + 1)))))
    ++ leBytes 2 (satN 16 j.replays) ++ leBytes 1 j.oflags.toNat ++ zeros 1 ++ leBytes 8 tdone ++ zeros 8)

/-- The completion of a job with a status (R569): its counts, its report when it is asked for and the job reached
planning (R571), and its snapshot. -/
def completionOf (tag : Nat) (j : Job) (status detail : BitVec 8) (count : Option Nat) (mhz tdone : Nat)
    (snap : Option (BitVec 64 × List Byte)) : Completion :=
  let rep := decide (j.desc.report ≠ 0) && j.planned
  { ring := j.desc.ring, cid := j.desc.cid, jobtag := BitVec.ofNat 16 tag, status := status,
    cflags := BitVec.ofNat 8 (2 * b2n (decide (poisonTotal j ≠ 0)) + 4 * b2n rep + 8 * b2n snap.isSome
      + 16 * b2n (decide (j.fence ≠ 0)) + 32 * b2n j.auditRan + 64 * b2n (decide (j.replays ≠ 0))),
    slip := j.slip, slipev := j.slipEvents, oob := j.oob,
    count := BitVec.ofNat 32 (count.getD (satN 32 (poisonTotal j))), pad := j.pad, detail := detail,
    pcode := BitVec.ofNat 8 (poisonLow j), oflags := j.oflags, replays := j.replays,
    report := if rep then some (j.desc.report, jobReport tag j status mhz tdone) else none,
    snapshot := snap, job := some tag }

/-- The completion with the SCRUB_FENCE hits of its job as they stand when the entry is written: an operation of a killed job that runs
to its end (R667) still marks the entry (R351). -/
def lateFence (j : Job) (c : Completion) : Completion :=
  { c with cflags := if j.fence ≠ 0 then c.cflags ||| 16 else c.cflags,
           report := c.report.map (fun r => (r.1, withCrc (r.2.take 48 ++ leBytes 4 (satN 32 j.fence) ++ (r.2.take 124).drop 52))) }

/-- T_DONE (R571): PTM master time, or 0 while PTM is off (log entry 20). -/
def tDone (m : Module) : Nat := if m.ep.ptm then Config.ptmTime m.now else 0

/-- Operating frequency of the first die that a job holds, in MHz. -/
def jobMhz (m : Module) (j : Job) : Nat := (dieAt m ((j.dies.map (·.die)).headD 0)).mhz

/-- The job's completion is queued; the job stays in flight until the entry is written (R561). -/
def finishJob (m : Module) (tag : Nat) (status detail : BitVec 8) (count : Option Nat)
    (snap : Option (BitVec 64 × List Byte)) : Module :=
  match jobAt m tag with
  | none => m
  | some j =>
    onQuay m (fun q => { q.onJob tag (fun j => { j with phase := .finishing }) with
      compl := q.compl ++ [completionOf tag j status detail count (jobMhz m j) (tDone m) snap] })

/-! ## Job kill -/

/-- STATUS and DETAIL of a kill (*Completion status*). -/
def killStatus : KillCause → BitVec 8 × BitVec 8
  | .killed => (0x30, 0)
  | .streamInvalid => (0x31, 1)
  | .cfgInvalid => (0x32, 2)
  | .addrInvalid => (0x33, 3)
  | .handleInvalid => (0x34, 4)
  | .flagOverflow => (0x35, 5)
  | .ledgerFault c => (0x36, BitVec.ofNat 8 c.toNat)
  | .waitTimeout => (0x37, 0)
  | .rearmOverrun => (0x38, 0)
  | .hostRead => (0x39, 3)
  | .dieReset d => (0x3A, BitVec.ofNat 8 d.val)
  | .thermal s => (0x3B, BitVec.ofNat 8 s.val)

/-- SEQ_CTX KILL of a kill: 1 to 5 for the kills of R451, else 0. -/
def killCode : KillCause → BitVec 4
  | .streamInvalid => 1
  | .cfgInvalid => 2
  | .addrInvalid => 3
  | .handleInvalid => 4
  | .flagOverflow => 5
  | _ => 0

/-- Whether an engine's pending set holds another job's operation (R667): started, or being loaded. -/
def pendOther (tag : Nat) (e : EngineState) : Bool :=
  match e.pend with
  | some p => decide (p.job ≠ tag)
  | none => match e.cfgJob with
    | some t => decide (t ≠ tag)
    | none => false

/-- An engine when the kill of job `tag` reaches its cluster (R667, R193): unconfirmed words are discarded (R326), and an operation
that runs to its end waits for no page. -/
def killEngine (tag : Nat) (e : EngineState) : EngineState :=
  match e.run with
  | some r =>
    if r.job = tag then
      (if pendOther tag e then { e with run := some { r with dflag := none, record := none, pages := [], held := [] } } else {})
    else match e.pend with
      | some p => if p.job = tag then { e with pend := none, cfg := [], cfgJob := none } else e
      | none => if e.cfgJob = some tag then { e with cfg := [], cfgJob := none } else e
  | none => if e.cfgJob = some tag then { e with cfg := [], cfgJob := none } else e

/-- Whether the scoreboard entry `e` belongs to an operation that still runs. -/
def stillRuns (c : Cluster) (e : ScbEntry) : Bool :=
  [c.nte, c.rme, c.vec].any (fun g => match g.run with
    | some r => decide (r.opid = e.opid)
    | none => false)

/-- Contexts of a cluster that serve job `tag`. -/
def ctxsOf (c : Cluster) (tag : Nat) : List Nat :=
  (c.ctxs.filter (fun p => decide (p.2.state ≠ 0 ∧ p.2.job = tag))).map (·.1)

/-- Contexts of a cluster that serve job `tag`, those that have issued END with them. -/
def ctxsAll (c : Cluster) (tag : Nat) : List Nat :=
  (c.ctxs.filter (fun p => (decide (p.2.state ≠ 0) || p.2.ended) && decide (p.2.job = tag))).map (·.1)

/-- Whether the kill of job `tag` resets an engine (R667): it runs an operation of the job, and no other job's is pending. -/
def killResets (tag : Nat) (e : EngineState) : Bool :=
  match e.run with
  | some r => decide (r.job = tag) && !pendOther tag e
  | none => false

/-- Rows that an operation of job `tag` which its kill stops would have written (R193, R349). -/
def stoppedRows (tag : Nat) (c : Cluster) : List Nat :=
  spanRows ([Engine.nte, .rme, .vec].flatMap (fun e =>
    let g := engOf c e
    (match g.run with
      | some r => if killResets tag g then opWrites e r.regs r.rix else []
      | none => [])
    ++ (match g.pend with
      | some p => if p.job = tag then opWrites e g.cfg c.rix else []
      | none => [])))

/-- A fenced row put into its place: fences in the order of their numbers, the rows of one fence ascending (R352). -/
def insFence (x : FenceRow) : List FenceRow → List FenceRow
  | [] => [x]
  | y :: rest => if x.fence < y.fence ∨ (x.fence = y.fence ∧ x.row ≤ y.row) then x :: y :: rest else y :: insFence x rest

/-- Listed rows placed behind the fence numbered `fence`. -/
def fenceList (c : Cluster) (rows : List Nat) (fence : Nat) : Cluster :=
  { c with fence := rows.foldl (fun t r => insFence { row := r, fence := fence } (t.filter (fun f => decide (f.row ≠ r)))) c.fence }

/-- The read-port controls after the engine resets of a kill (R340, R667). -/
def killRix (tag : Nat) (c : Cluster) : Tab Word :=
  [Engine.nte, .rme, .vec].foldl (fun t e => if killResets tag (engOf c e) then clearRix e t else t) c.rix

/-- Rows `row0` to `row0 + rows − 1` placed behind the fence numbered `fence` (R349). -/
def fenceRows (c : Cluster) (row0 rows fence : Nat) : Cluster :=
  let rest := c.fence.filter (fun f => decide (f.row < row0 ∨ row0 + rows ≤ f.row))
  let first (f : FenceRow) : Bool := decide (f.fence < fence ∨ (f.fence = fence ∧ f.row < row0))
  { c with fence := rest.filter first ++ (List.range rows).map (fun i => { row := row0 + i, fence := fence })
      ++ rest.filter (fun f => !first f) }

/-- The header slots that a job wrote, zeroed (R734). -/
def zeroHeaders (c : Cluster) (tag : Nat) : Cluster :=
  let mine := (c.hdrJob.filter (fun p => decide (p.2 = tag + 1))).map (·.1)
  { c with headers := c.headers.filter (fun p => !mine.contains p.1),
           hdrReady := c.hdrReady.filter (fun p => !mine.contains p.1),
           hdrRows := c.hdrRows.filter (fun p => !mine.contains p.1),
           hdrPrim := c.hdrPrim.filter (fun p => !mine.contains p.1),
           hdrJob := c.hdrJob.filter (fun p => decide (p.2 ≠ tag + 1)) }

/-- One cluster when the kill of job `tag` reaches it: contexts, engines, scoreboard entries, landing pairs, header slots
and rows (R349, R496, R667, R670, R734). -/
def killCluster (tag : Nat) (code : BitVec 4) (fence : Nat) (h : ClHold) (c : Cluster) : Cluster :=
  let mine := ctxsAll c tag
  let c1 := { c with nte := killEngine tag c.nte, rme := killEngine tag c.rme, vec := killEngine tag c.vec }
  let c2 := { c1 with
    brk := c1.brk.filter (fun p => !mine.contains p.1),
    ctxs := mine.foldl (fun t k => tset {} t k { kill := code }) c1.ctxs,
    unchecked := mine.foldl (fun u k => u &&& ~~~(BitVec.ofNat 8 (2 ^ k))) c1.unchecked,
    scb := c1.scb.filter (fun e => !mine.contains e.ctx || stillRuns c1 e),
    lp := c1.lp.filter (fun p => decide (p.1 < 2 * h.pair0 ∨ 2 * (h.pair0 + h.pairs) ≤ p.1)), rix := killRix tag c }
  fenceList (fenceRows (zeroHeaders c2 tag) h.row0 h.rows fence)
    ((stoppedRows tag c).filter (fun r => decide (r < h.row0 ∨ h.row0 + h.rows ≤ r))) fence

/-- Whether a stream is one of job `tag`. -/
def runsFor (tag : Nat) (o : Option Stream) : Bool := match o with
  | some s => decide (s.job = tag)
  | none => false

/-- A stream engine when the kill of job `tag` reaches it: one that runs a stream of the job is reset (R667), its OVERRUN with it;
the OVERRUN that R507 sets stands, because R507 has stopped that stream before its kill (DEDUCED, log entry 122). -/
def killStream (tag : Nat) (e : StreamEngine) : StreamEngine :=
  let gone := runsFor tag
  if gone e.active then {}
  else if gone e.shadow then { e with shadow := none, armed := false } else e

/-- A Ferry's status fields after its reset. -/
def resetFerry (d : Die) : Die :=
  { d with ferBusy := false, ferCrc := false, ferBind := false, ferExhaust := false, ferLate := false, cmdIdx := 0 }

/-- Whether the Ferry of a die lands or delivers a page of job `tag`. -/
def ferryRuns (tag : Nat) (d : Die) : Bool :=
  d.windows.any (fun w => decide (w.job = tag) && w.frames.any (fun f => decide (f.2.st = 1 ∨ f.2.reading ≠ 0)))

/-- One die when the kill of job `tag` reaches it; a stream engine or a Ferry that runs for the job is reset (R664, R667). -/
def killDie (tag : Nat) (started : Bool) (d0 : Die) : Die :=
  let d := if ferryRuns tag d0 then resetFerry d0 else d0
  { d with
    sd := d.sd.filter (fun p => !runsFor tag (tget {} d.ste (p.1 / 8)).active),
    ste := (d.ste.map (fun p => (p.1, killStream tag p.2))).filter (fun p => decide (p.2 ≠ {})),
    dstat := d.dstat.filter (fun p => decide (p.2.job.toNat ≠ tag)),
    ledger := (d.ledger.map (fun p =>
      if bits (tget 0 d.pool (8 * p.1)).toNat 23 14 = tag
      then (p.1, { p.2 with free := 0, queued := 0, held := 0, transit := 0, negFree := none, negQueued := none, negHeld := none,
                                negTransit := none }) else p)).filter
        (fun p => decide (p.2 ≠ {})),
    credits := (d.credits.map (fun p =>
      if p.2.valid ∧ p.2.job.toNat = tag then (p.1, { p.2 with avail := 0 }) else p)).filter
        (fun p => decide (p.2 ≠ {})),
    windows := d.windows.filter (fun w => decide (w.job ≠ tag)),
    lists := d.lists.filter (fun l => decide (l.job ≠ tag)),
    openJobs := d.openJobs - b2n started }

/-- The destination rows of the streams of job `tag` on stream engine `e`, with their cluster: what a reset of the engine places
behind the fence (R193, R349). -/
def streamDests (tag : Option Nat) (e : StreamEngine) : List (Nat × Nat × Nat) :=
  [e.active, e.shadow].filterMap (fun o => match o with
    | some s => if tag.isNone || decide (some s.job = tag) then s.dest else none
    | none => none)

/-- Destination rows (cluster, first, last) behind the fence numbered `fence`. -/
def fenceDests (m : Module) (fence : Nat) (ds : List (Nat × Nat × Nat)) : Module :=
  ds.foldl (fun m d => onCl m d.1 (fun c => fenceList c
    (((List.range (d.2.2 + 1 - d.2.1)).map (d.2.1 + ·)).filter (fun r => !c.fence.any (fun f => decide (f.row = r ∧ f.fence = fence))))
    fence)) m

/-- Fault injection off on a die, its links and its stacks (R483, R691). -/
def fiOff (m : Module) (d : Nat) : Module :=
  let m1 := onDie m d (fun x => { x with
    xbaFi := 0, links := (x.links.map (fun p => (p.1, { p.2 with fiCtrl := 0 }))).filter (fun p => decide (p.2 ≠ {})) })
  onStk (onStk m1 (2 * d) (fun s => { s with fiCtrl := 0 })) (2 * d + 1) (fun s => { s with fiCtrl := 0 })

/-- The general-region units a die entry holds, behind the fence (R539). -/
def fenceUnits (m : Module) (fence : Nat) (h : DieHold) : Module :=
  if h.regionMiB = 0 then m
  else onStk m (h.region / 2 ^ 37) (fun s => { s with
    fence := s.fence ++ [{ off := h.region % 2 ^ 37, len := h.regionMiB * 2 ^ 20, fence := fence }] })

/-- Whether a message in flight belongs to job `tag`: a report to its owner's pool, a credit to its credit entry. -/
def msgOf (m : Module) (tag : Nat) : Msg → Bool
  | .signal _ _ j => decide (j = tag)
  | .handle _ _ _ j => decide (j = tag)
  | .report d p _ _ => decide (bits (tget (0 : Word) (dieAt m d).pool (8 * p)).toNat 23 14 = tag)
  | .credit d e => decide ((tget {} (dieAt m d).credits e).job.toNat = tag)

/-- The slip figures of a job with those of its contexts on one cluster (R439). -/
def addSlips (j : Job) (c : Cluster) (tag : Nat) : Job :=
  (ctxsAll c tag).foldl (fun j k =>
    { j with slip := max j.slip (ctxOf c k).slipTotal, slipEvents := j.slipEvents + (ctxOf c k).slipEvents }) j

/-- The slip figures of a job with those of all its contexts (R439). -/
def withSlips (m : Module) (tag : Nat) (j : Job) : Job := j.clusters.foldl (fun j h => addSlips j (clAt m h.cl) tag) j

/-- The plan clock of a context in a-cycle `now` (R435): a hold of this a-cycle counts from the next one on. -/
def planClock (now : Nat) (x : Context) : Nat :=
  let late := match x.holdRun with
    | some (_, t) => b2n (decide (t = now))
    | none => 0
  now - x.origin - (x.slipTotal - late)

/-- A record of the wait-graph snapshot (*Snapshot record*). -/
def snapRecord (now cl k : Nat) (x : Context) : List Byte :=
  let held := match x.holdRun with
    | some (_, t) => decide (now ≤ t + 1)
    | none => false
  let pick (n : Nat) : Nat := if held then n else 0
  leBytes 2 cl ++ leBytes 1 k ++ leBytes 1 (pick x.holdCause.toNat) ++ leBytes 4 x.pc
    ++ leBytes 8 (planClock now x) ++ leBytes 4 (pick x.holdObject) ++ leBytes 4 (pick x.holdWant)
    ++ leBytes 4 (pick x.holdHave) ++ leBytes 4 x.wdog

/-- The clusters of a job in ascending global index, each once. -/
def sortedCls (hs : List ClHold) : List Nat := (List.range 512).filter (fun c => hs.any (fun h => decide (h.cl = c)))

/-- The wait-graph snapshot of a job (R503): header, then its records by cluster and context, SCRC over bytes 0 to 59 and the
records. -/
def snapshotOf (m : Module) (tag : Nat) (j : Job) (trip : Nat × Nat) : List Byte :=
  let recs := (sortedCls j.clusters).flatMap (fun cl =>
    (ctxsAll (clAt m cl) tag).map (fun k => snapRecord m.now cl k (ctxOf (clAt m cl) k)))
  let front := leBytes 4 0x4E534757 ++ leBytes 1 1 ++ zeros 1 ++ leBytes 2 tag ++ leBytes 2 recs.length
    ++ leBytes 2 trip.1 ++ leBytes 1 trip.2 ++ zeros 3 ++ leBytes 8 m.now ++ zeros 36
  front ++ leBytes 4 (crc32c (front ++ recs.flatten)) ++ recs.flatten

/-- Whether a job has started (its contexts exist). -/
def Job.started (j : Job) : Bool := decide (j.phase = .running ∨ j.phase = .auditing)

/-- What a kill or a failed audit leaves of the job's resources: everything behind a new fence, the contexts stopped and
the entries reset (R349, R496, R502, R539, R667). -/
def tearDown (m : Module) (tag : Nat) (j : Job) (code : BitVec 4) : Module :=
  let f := m.fenceSeq + 1
  let m0 := j.clusters.foldl (fun m h => onCl m h.cl (killCluster tag code f h)) m
  let m1 := fenceDests m0 f (j.dies.flatMap (fun h => (dieAt m h.die).ste.flatMap (fun p => streamDests (some tag) p.2)))
  let m2 := j.dies.foldl (fun m h => fenceUnits (fiOff (onDie m h.die (killDie tag j.started)) h.die) f h) m1
  { m2 with
    fenceSeq := f,
    transit := m2.transit.filter (fun x => !msgOf m tag x),
    graves := m2.graves ++ [{ fence := f, job := tag, clusters := j.clusters, dies := j.dies, credits := j.credits }] }

/-- The DRBG reseeds, as at every reset (R609, R670). -/
def reseed (m : Module) : Module := onHedge m (fun h => { h with drbgGens := 0 })

/-- The job kill (R502, R670): once per job, with its first cause. `trip` names the context of a WAIT_TIMEOUT (R503). A job that
has not started holds nothing on any die yet and completes with the status alone. -/
def killJob (m : Module) (tag : Nat) (cause : KillCause) (trip : Option (Nat × Nat)) : Module :=
  match jobAt m tag with
  | none => m
  | some j0 =>
    if j0.killed.isSome || decide (j0.phase = .finishing) then m
    else
      let j := withSlips m tag j0
      let snap := match cause, trip with
        | .waitTimeout, some t =>
          if j.desc.snap = 0 then none else some (j.desc.snap, snapshotOf m tag j t)
        | _, _ => none
      let m1 := onJob m tag (fun _ => { j with killed := some cause })
      let m2 := if j.started then tearDown m1 tag j (killCode cause) else m1
      finishJob (reseed m2) tag (killStatus cause).1 (killStatus cause).2 none snap

/-- The primitive of the job's lowered graph that a record of a planned job seals. -/
def recPrim (j : Job) (r : Record) : Option (Nat × LPrim) :=
  match r.prim with
  | some i => match j.prims[i]? with
    | some p => if !j.desc.hand && decide (p.code % 256 = r.code) then some (i, p) else none
    | none => none
  | none => none

/-- The first ledger fault of a die is kept in STE_LDG_FAULT (R495). -/
def ldgRecord (d : Die) (code pool job : Nat) : Die :=
  if bit d.ldgFault.toNat 31 then d
  else { d with ldgFault := BitVec.ofNat 32 (code % 16 + (pool % 1024) * 2 ^ 4 + (job % 1024) * 2 ^ 14 + 2 ^ 31) }

/-- The log record of a LEDGER_FAULT of a planned job (R496). -/
def ledgerEvent (die tag code : Nat) : LogEvent :=
  { cls := 12, sev := 3, unit := BitVec.ofNat 32 die, job := BitVec.ofNat 16 tag, detail := BitVec.ofNat 16 code, addr := 0,
    data := [] }

/-- Whether a job in flight is a planned one. -/
def plannedAt (m : Module) (tag : Nat) : Bool := match jobAt m tag with
  | some j => !j.desc.hand
  | none => false

/-- A ledger fault of codes 1 to 5: recorded on the die, for a planned job in the log too (R496), and the job is killed at once
(R495). -/
def ledgerKill (m : Module) (die pool tag : Nat) (code : Nat) : Module :=
  let m1 := onDie m die (fun d => ldgRecord d code pool tag)
  killJob (if plannedAt m tag then logLater m1 (ledgerEvent die tag code) else m1) tag (.ledgerFault (BitVec.ofNat 4 code)) none

/-- The count of the flag at an address with everything that this a-cycle has brought so far (R471). -/
def flagCount (m : Module) (addr : Nat) : Nat :=
  let (cl, f) := flagPlace addr
  (tget (0 : BitVec 16) (clAt m cl).flags f).toNat + lsum (m.flagIn.map (fun e => if e.addr = addr then e.add else 0))

/-- An addition to an event flag arrives (R471): a WAIT sees it from the next a-cycle on (R472). -/
def addFlag (m : Module) (addr amount tag : Nat) : Module :=
  { m with flagIn := m.flagIn ++ [{ addr := addr, add := amount, job := tag }] }

/-- The new count of a flag at the end of an a-cycle (R471): the old one, less the n of a WAIT, plus every addition. Above 65,535
the count keeps its old value and the job that added is killed. -/
def settleFlag (m : Module) (addr : Nat) : Module :=
  let (cl, f) := flagPlace addr
  let es := m.flagIn.filter (fun e => decide (e.addr = addr))
  let v := (tget (0 : BitVec 16) (clAt m cl).flags f).toNat
  let n := v + lsum (es.map (·.add))
  let put (k : Nat) : Module := onCl m cl (fun c => { c with flags := tset 0 c.flags f (BitVec.ofNat 16 k) })
  if n ≤ 65535 then put n
  else killJob (put (v + lsum (es.map (·.taken)))) (match es.find? (fun e => decide (e.add ≠ 0)) with
    | some e => e.job
    | none => 0) .flagOverflow none

/-- One a-cycle passes: the flags take their new counts, and the time count grows. -/
def tick (m : Module) : Module :=
  let m1 := (uniq (m.flagIn.map (·.addr))).foldl settleFlag m
  { m1 with flagIn := [], now := m.now + 1 }

/-- Whether the flag at an address is one that a job holds. -/
def flagHeld (hs : List ClHold) (addr : Nat) : Bool :=
  let (cl, f) := flagPlace addr
  hs.any (fun h => decide (h.cl = cl ∧ h.flag0 ≤ f ∧ f < h.flag0 + h.flags))

/-- Nothing of this a-cycle is left for the flags that the entries hold. -/
def dropFlagIn (m : Module) (hs : List ClHold) : Module := { m with flagIn := m.flagIn.filter (fun e => !flagHeld hs e.addr) }

/-- Every job ends without a completion entry or a report (R582, R647, R649, R662, R672): rings stay as they are. -/
def dropJobs (m : Module) : Module :=
  let live := m.quay.jobs.filterMap (fun p => p.2.map (fun j => (p.1, j)))
  let m1 := live.foldl (fun m p => if p.2.started then tearDown m p.1 p.2 0 else m) m
  onQuay m1 (fun q => { q with jobs := [], compl := [], fetches := [], waiting := [], uploads := [] })

/-- The fences that have cleared: the queues, flags, ledger and credit entries of their jobs reset (R496). -/
def clearGrave (m : Module) (g : Grave) : Module :=
  let m1 := g.clusters.foldl (fun m h => onCl m h.cl (fun c => { c with
    flags := c.flags.filter (fun p => decide (p.1 < h.flag0 ∨ h.flag0 + h.flags ≤ p.1)),
    queues := c.queues.filter (fun p => decide (p.1 < h.queue0 ∨ h.queue0 + h.queues ≤ p.1)),
    reserved := c.reserved.filter (fun p => decide (p.1 < h.queue0 ∨ h.queue0 + h.queues ≤ p.1)),
    freed := c.freed.filter (fun p => decide (p.1 < h.queue0 ∨ h.queue0 + h.queues ≤ p.1)) })) (dropFlagIn m g.clusters)
  g.dies.foldl (fun m h => onDie m h.die (fun d => { d with
    ledger := d.ledger.filter (fun p => decide (p.1 < h.pool0 ∨ h.pool0 + h.pools ≤ p.1)),
    credits := d.credits.filter (fun p => decide (p.2.job.toNat ≠ g.job)) })) m1

/-- Whether a fence number is still in use. -/
def fenceLive (m : Module) (f : Nat) : Bool :=
  m.clusters.any (fun p => p.2.fence.any (fun r => decide (r.fence = f)))
    || m.stks.any (fun p => p.2.fence.any (fun r => decide (r.fence = f)))

/-- Clears the graves whose fence is clear. -/
def settleFences (m : Module) : Module :=
  let done := m.graves.filter (fun g => !fenceLive m g.fence)
  { done.foldl clearGrave m with graves := m.graves.filter (fun g => fenceLive m g.fence) }

end Sys2Proof.Machine
end

