-- ==== Sys2Proof/Machine/Flags.lean ====
section
/-! DEFINITION. Every flag computation: the engines' STATUS words and CHN_STATUS as software reads and clears them (R8),
the sticky bits and the open-arithmetic flags of an operation (R199, R226, R266), and the poison causes that an engine
reports to a header record (R464). -/
namespace Sys2Proof.Machine

/-- NTE_STATUS, RME_STATUS or VEC_STATUS: bit 4 is KEYFAIL of the RME and EMPTY of the VEC. -/
def engStatus (e : EngineState) : Nat :=
  b2n e.run.isSome + 2 * b2n e.pend.isSome + 4 * b2n e.domain + 8 * b2n e.modInvalid
    + 16 * b2n (e.keyfail || e.empty) + 256 * e.oflags.toNat

/-- TRAIL: a row block has drained and its trailing pass is not finished (R215). -/
def trailing (e : EngineState) : Bool := match e.run with
  | some o => decide (o.passed < o.blocks)
  | none => false

/-- CHN_STATUS of an anchor. -/
def chnStatus (e : EngineState) : Nat :=
  b2n (trailing e) + 2 * b2n e.chnDomain + 4 * b2n e.chnKeyfail + 256 * e.chnOflags.toNat + 4096 * e.fstage.toNat
    + 32768 * b2n e.fvalid

/-- A write to the STATUS word: a 1 clears a W1C bit. -/
def engStatusW1c (e : EngineState) (v : Nat) : EngineState :=
  { e with
    domain := e.domain && !bit v 2, modInvalid := e.modInvalid && !bit v 3, keyfail := e.keyfail && !bit v 4,
    empty := e.empty && !bit v 4, oflags := e.oflags &&& ~~~(BitVec.ofNat 4 (v / 256)) }

/-- A write to CHN_STATUS; a 1 in bit 15 clears FVALID and FSTAGE. -/
def chnStatusW1c (e : EngineState) (v : Nat) : EngineState :=
  { e with
    chnDomain := e.chnDomain && !bit v 1, chnKeyfail := e.chnKeyfail && !bit v 2,
    chnOflags := e.chnOflags &&& ~~~(BitVec.ofNat 4 (v / 256)),
    fstage := if bit v 15 then 0 else e.fstage, fvalid := e.fvalid && !bit v 15 }

/-- What an operation raised: STATUS bits, its open-arithmetic flags, and what its chain's stages raised, with the first
stage that raised anything. -/
structure Raised where
  domain : Bool := false
  modInvalid : Bool := false
  keyfail : Bool := false
  empty : Bool := false
  fl : FFlags := 0
  chnDomain : Bool := false
  chnKeyfail : Bool := false
  chnFl : FFlags := 0
  stage : Option Nat := none
  -- the output word depends on a modulus entry that is not valid and is 0 (R170)
  dead : Bool := false
  deriving DecidableEq, Repr

/-- The earlier of two stages. -/
def firstStage : Option Nat → Option Nat → Option Nat
  | some a, some b => some (min a b)
  | some a, none => some a
  | none, b => b

/-- What two parts of an operation raised. -/
def Raised.and (a b : Raised) : Raised :=
  { domain := a.domain || b.domain, modInvalid := a.modInvalid || b.modInvalid, keyfail := a.keyfail || b.keyfail,
    empty := a.empty || b.empty, fl := a.fl ||| b.fl, chnDomain := a.chnDomain || b.chnDomain,
    chnKeyfail := a.chnKeyfail || b.chnKeyfail, chnFl := a.chnFl ||| b.chnFl, stage := firstStage a.stage b.stage, dead := a.dead || b.dead }

/-- The sticky bits of an engine after an operation raised `r`; FSTAGE is taken while FVALID is 0. -/
def stick (e : EngineState) (r : Raised) : EngineState :=
  { e with
    domain := e.domain || r.domain, modInvalid := e.modInvalid || r.modInvalid, keyfail := e.keyfail || r.keyfail,
    empty := e.empty || r.empty, oflags := e.oflags ||| r.fl, chnDomain := e.chnDomain || r.chnDomain,
    chnKeyfail := e.chnKeyfail || r.chnKeyfail, chnOflags := e.chnOflags ||| r.chnFl,
    fstage := match r.stage with
      | some s => if e.fvalid then e.fstage else BitVec.ofNat 3 s
      | none => e.fstage,
    fvalid := e.fvalid || r.stage.isSome }

/-- The running operation after it raised `r`. -/
def runRaised (o : RunOp) (r : Raised) : RunOp :=
  { o with
    domain := o.domain || r.domain, modInvalid := o.modInvalid || r.modInvalid, keyfail := o.keyfail || r.keyfail,
    chnDomain := o.chnDomain || r.chnDomain, oflags := o.oflags ||| r.fl ||| r.chnFl }

/-- The causes a completed operation reports (*Causes from engine status*): DOMAIN 9, PARAM_MISMATCH 5, the codes the
Ferry reported for its pages, and MEM_UNCORR 2 of a read that no replay clears (R679); each plus 16 times the stage of S_MRR
that the operation belongs to (R91, R117). -/
def runCauses (o : RunOp) : List Nat :=
  let codes : List Nat := (if o.domain || o.chnDomain then [9] else []) ++ (if o.modInvalid then [5] else [])
    ++ (if o.memUnc then [2] else []) ++ o.pages.flatMap (fun p => p.report.getD [])
  codes.map (· + 16 * o.stage)

/-- The record of an operation after its completion (R464). -/
def recordDone (r : Record) (causes : List Nat) : Record :=
  { r with bound := r.bound - 1, causes := r.causes ++ causes }

/-- The union of a job's open flags with those of an operation (R266). -/
def jobFlags (j : Job) (fl : FFlags) : Job := { j with oflags := j.oflags ||| fl }

end Sys2Proof.Machine
end

