-- ==== Sys2Proof/Machine/Link.lean ====
section
/-! DEFINITION. The Pontoon links (R11 to R15): their ends, the path that a transfer, a handle or a signal takes between two dies,
and the flits that cross it. -/
namespace Sys2Proof.Machine

/-! ## Ends of a link -/

/-- One end of a link. -/
def linkAt (m : Module) : LinkEnd → Link
  | .pon d l => tget {} (dieAt m d).links l
  | .quay d => tget {} m.quay.links d

/-- The module with one end of a link changed. -/
def onLink (m : Module) (e : LinkEnd) (f : Link → Link) : Module := match e with
  | .pon d l => onDie m d (fun x => { x with links := tmod {} x.links l f })
  | .quay d => onQuay m (fun q => { q with links := tmod {} q.links d f })

/-- The other end (*Pontoon links*): 0 ring-forward, 1 ring-back, 2 spoke. -/
def peerOf : LinkEnd → LinkEnd
  | .pon d l => if l = 0 then .pon (d + 1) 1 else if l = 1 then .pon (d - 1) 0 else .quay d
  | .quay d => .pon d 2

/-- The compute die of an end, and the number of its link in the log (die × 3 + L). -/
def linkUnit : LinkEnd → Nat × Nat
  | .pon d l => (d, 3 * d.val + l)
  | .quay d => (d, 3 * d.val + 2)

/-! ## Paths (R12, R15) -/

/-- The ring links from die `a` to die `b` in one direction, each named by its sending end. -/
def ringHops (forward : Bool) : Nat → Nat → Nat → List LinkEnd
  | 0, _, _ => []
  | f + 1, a, b =>
    if a = b then []
    else if forward then .pon (Fin.ofNat 8 a) 0 :: ringHops forward f ((a + 1) % 8) b
    else .pon (Fin.ofNat 8 a) 1 :: ringHops forward f ((a + 7) % 8) b

/-- The direction around the ring from die `a` to die `b`: the one that the plan fixes (R15); without a plan the shorter way, ring-forward
where both are equal (DESIGN CHOICE, log entry 124). -/
def ringForward (routes : List RoutePlan) (a b : Nat) : Bool :=
  match routes.find? (fun r => decide (r.src = a ∧ r.dst = b)) with
  | some r => r.forward
  | none => decide ((b + 8 - a) % 8 ≤ 4)

/-- The links that data from die `a` to die `b` crosses. -/
def pathOf (routes : List RoutePlan) (a b : Nat) : List LinkEnd := ringHops (ringForward routes a b) 8 a b

/-- Whether a link carries new flits: neither end retrains and no retry round runs (R687 to R689). -/
def linkReady (m : Module) (e : LinkEnd) : Bool :=
  let s := linkAt m e
  let r := linkAt m (peerOf e)
  !s.training && s.retryAt.isNone && !r.training && !r.discarding

/-- `n` flits cross a link in order: both ends count their sequence numbers, and the receiver's ACK covers them (R687). -/
def crossLink (n : Nat) (m : Module) (e : LinkEnd) : Module :=
  onLink (onLink m e (fun l => { l with nextSeq := l.nextSeq + BitVec.ofNat 32 n })) (peerOf e)
    (fun l => { l with expected := l.expected + BitVec.ofNat 32 n })

/-- Flits of `words` words: 240 bytes of payload each (R14). -/
def flitsFor (words : Nat) : Nat := ceilDiv (4 * words) 240

/-- Data of `words` words crosses every link of a path; the dies between forward its flits (R15). -/
def crossPath (m : Module) (path : List LinkEnd) (words : Nat) : Module := path.foldl (crossLink (flitsFor words)) m

/-- The routes of a job's plan. -/
def routesOf (m : Module) (tag : Nat) : List RoutePlan := match jobAt m tag with
  | some j => j.routes
  | none => []

/-- One message of job `tag` (a handle, a signal, a credit return) goes from die `a` to die `b`: one flit on every link of the path
(R14, R490, R491). -/
def sendFlit (m : Module) (tag a b : Nat) : Module := crossPath m (pathOf (routesOf m tag) a b) 1

end Sys2Proof.Machine
end

