-- ==== Sys2Proof/Machine/Seq.lean ====
section
/-! DEFINITION. The sequencer: contexts and the plan clock (R433 to R439), the form of an instruction (R441, R451), and
the effects of LOAD, WAIT, SIGNAL, POP, PUSH, SWAP, PATCH, LOOP, TMARK, TAG and END, with the arrival of signals,
handles, ledger reports and credit returns (R470 to R492). -/
namespace Sys2Proof.Machine

/-! ## Attempting an instruction -/

/-- What the cluster holds for a job. -/
def holdOf (m : Module) (cl tag : Nat) : Option ClHold :=
  (jobAt m tag).bind (fun j => j.clusters.find? (fun h => decide (h.cl = cl)))

/-- An attempt's result: the instruction kills its job, holds with a cause of *Slip causes* and the object it waits for
(R503), is not tried yet (no hold counts), or issues and takes some issue a-cycles. -/
inductive Res where
  | kill (cause : KillCause) (m : Module)
  | ledger (pool code : Nat) (m : Module)
  | hold (cause obj want have_ : Nat) (m : Module)
  | idle
  | done (cycles : Nat) (m : Module)

/-- A hold in this a-cycle (R437, R438, R500): counted once per a-cycle; a new run of holds records SLIP_LAST; the
watchdog counts FLAG, QUEUE, KEY_TOKEN and HEADER. -/
def holdCtx (now cause obj want have_ : Nat) (x : Context) : Context :=
  match x.holdRun with
  | some (off, t) =>
    if off = x.pc ∧ t = now then x
    else
      let fresh := !decide (off = x.pc ∧ t + 1 = now)
      { x with
        slipTotal := min (x.slipTotal + 1) (2 ^ 32 - 1), slipEvents := min (x.slipEvents + b2n fresh) (2 ^ 32 - 1),
        lastCause := if fresh then BitVec.ofNat 4 cause else x.lastCause,
        lastOffset := if fresh then x.pc else x.lastOffset,
        holdRun := some (x.pc, now), holdCause := BitVec.ofNat 4 cause, holdObject := obj, holdWant := want,
        holdHave := have_, wdog := x.wdog + b2n (decide (5 ≤ cause ∧ cause ≤ 8) && decide (x.state = 1)) }
  | none =>
    { x with
      slipTotal := min (x.slipTotal + 1) (2 ^ 32 - 1), slipEvents := min (x.slipEvents + 1) (2 ^ 32 - 1),
      lastCause := BitVec.ofNat 4 cause, lastOffset := x.pc,
      holdRun := some (x.pc, now), holdCause := BitVec.ofNat 4 cause, holdObject := obj, holdWant := want,
      holdHave := have_, wdog := x.wdog + b2n (decide (5 ≤ cause ∧ cause ≤ 8) && decide (x.state = 1)) }

/-- Back edges and ends of loop bodies at offset `pc` (R450): at most one level ends per frame. -/
def loopEnds : List LoopFrame → Nat → List LoopFrame × Nat
  | [], pc => ([], pc)
  | f :: rest, pc =>
    if pc < f.last then (f :: rest, pc)
    else if f.left > 1 then ({ f with left := f.left - 1 } :: rest, f.first)
    else loopEnds rest pc

/-- Whether job `tag` is replaying (R422, R500): a context of it has not yet caught up with what it had issued (log entry 154). -/
def replaying (m : Module) (tag : Nat) : Bool := match jobAt m tag with
  | some j => j.clusters.any (fun h => (clAt m h.cl).ctxs.any (fun p => decide (p.2.job = tag ∧ p.2.state = 3)))
  | none => false

/-- The context after its instruction of `len` words issued: the pc moves on, the hold and the watchdog end (R500), and
the instruction count of R479 grows; a replay ends when it reaches what the context had issued before (R422, R500; log entry 154). A
count breakpoint is hit when the count equals COUNT, a tag breakpoint when a TAG set the tag it names. -/
def issueCtx (brk : Word) (tagIssued : Bool) (len : Nat) (x : Context) : Context :=
  let (ls, pc) := loopEnds x.loops (x.pc + len)
  let n := x.issued + 1
  let b := brk.toNat
  { x with
    pc := pc, loops := ls, issued := n, wdog := 0, holdRun := none,
    state := if x.state = 3 ∧ x.replayTo ≤ n then 1 else x.state,
    brkHit := (decide (b % 4 = 1) && decide (n = b / 4))
      || (decide (b % 4 = 2) && tagIssued && decide (x.curtag.toNat = bits b 17 2)) }

/-- Instruction codes (*Sequencer instructions*). -/
def opListed (op : Nat) : Bool := decide (1 ≤ op ∧ op ≤ 0x0E)

/-- Whether a context's plan clock has reached the planned issue a-cycle of its next instruction (R435, R436). -/
def clockReached (now : Nat) (x : Context) : Bool := decide (x.origin + x.slipTotal + x.planned ≤ now)

/-- Whether any die is halted: the watchdogs stand still (R481). A hold of this context then counts no watchdog. -/
def anyHalt (m : Module) : Bool := m.dies.any (fun p => p.2.halted)

/-- Whether a host read of a stream that context `k` of cluster `cl` started is later than the host model says (R401, R576). -/
def hostLate (m : Module) (cl k : Nat) : Bool :=
  (dieAt m (dieOf cl)).ste.any (fun p => match p.2.active with
    | some s => decide (s.cl = cl ∧ s.ctx = k) && !s.moved && (match s.due with
      | some t => decide (t < m.now)
      | none => false)
    | none => false)

/-- The module with a hold of context `k` of cluster `cl` counted: the watchdog stands still in a halt and in the replay of its own
job (R500). -/
def addHold (m : Module) (cl k cause obj want have_ : Nat) : Module :=
  let frozen := anyHalt m || replaying m (ctxOf (clAt m cl) k).job
  onCl m cl (fun c => onCtx c k (fun x =>
    let y := holdCtx m.now cause obj want have_ x
    if frozen then { y with wdog := x.wdog } else y))

/-- Word `i` of the instruction, as a number. -/
def wd (ws : List Word) (i : Nat) : Nat := (ws.getD i 0).toNat

/-- ARG of the header word (*Instruction header*), as bits [15:0] of a number; a field written [h:l] of ARG stands at
[h − 16 : l − 16]. -/
def argOf (ws : List Word) : Nat := wd ws 0 / 65536

/-- LEN of the header word. -/
def lenOf (ws : List Word) : Nat := bits (wd ws 0) 15 8

/-! ## Handles, pools and the ledger -/

/-- Bits of a pool table word that are not reserved (*STE_POOL_n*). -/
def poolMask (w : Nat) : Nat :=
  if w = 0 then 0xFFFFFF else if w = 1 then 0xFFFF else if w = 2 then 0xFFFFFFF else if w = 4 ∨ w = 5 then 0xFFFFFFFF else 0

/-- Word `w` of pool entry `p` on die `d` (*STE_POOL_n*). -/
def poolWord (m : Module) (d p w : Nat) : Nat := (tget (0 : Word) (dieAt m d).pool (8 * p + w)).toNat

/-- Whether pool `p` of die `d` belongs to job `tag`: KIND is not 3 and JOB is the tag. -/
def poolMine (m : Module) (d p tag : Nat) : Bool :=
  decide (bits (poolWord m d p 0) 1 0 ≠ 3 ∧ bits (poolWord m d p 0) 23 14 = tag)

/-- The die whose pool a handle names on die `d`: that die when its entry is the job's, else the lowest die whose entry is
(DEDUCED, log entry 21: a handle holds no die). -/
def poolDie (m : Module) (d p tag : Nat) : Nat :=
  if poolMine m d p tag then d
  else ((List.range 8).find? (fun e => poolMine m e p tag)).getD d

/-- Pool, slot and generation of a handle (R473). -/
def hPool (h : Word) : Nat := bits h.toNat 31 22
def hSlot (h : Word) : Nat := bits h.toNat 21 6
def hGen (h : Word) : Nat := bits h.toNat 5 0

/-- R475 for a handle that a context of job `tag` on die `d` uses. -/
def handleOk (m : Module) (d tag : Nat) (h : Word) : Bool :=
  let e := poolDie m d (hPool h) tag
  decide (h ≠ 0xFFFFFFFF) && poolMine m e (hPool h) tag
    && decide (hGen h = bits (poolWord m e (hPool h) 0) 13 8)
    && decide (hSlot h ≤ bits (poolWord m e (hPool h) 1) 15 0)

/-- The scratchpad address of a handle's slot, as a 30-bit address; none for a stack or host pool (R445). -/
def handleAddr (m : Module) (d tag : Nat) (h : Word) : Option Nat :=
  let e := poolDie m d (hPool h) tag
  let w0 := poolWord m e (hPool h) 0
  if bits w0 1 0 = 0 then
    some (e * 2 ^ 27 + bits w0 7 2 * 2 ^ 21 + bits (poolWord m e (hPool h) 4) 20 0
      + hSlot h * bits (poolWord m e (hPool h) 2) 27 0)
  else none

/-- The ledger of pool `p` on die `d`. -/
def ledgerOf (m : Module) (d p : Nat) : Ledger := tget {} (dieAt m d).ledger p

/-- A report of a move of handle `h` from `a` to `b`, sent when its pool is circulating (R487); to another die it crosses the links
(R14). -/
def sendReport (m : Module) (d tag : Nat) (h : Word) (a b : Place) : Module :=
  let e := poolDie m d (hPool h) tag
  if (ledgerOf m e (hPool h)).fqv then sendFlit { m with transit := m.transit ++ [.report e (hPool h) a b] } tag d e else m

/-- Whether queue address `q` is the free queue of the handle's pool. -/
def isFreeQ (m : Module) (d tag : Nat) (h : Word) (q : Nat) : Bool :=
  let l := ledgerOf m (poolDie m d (hPool h) tag) (hPool h)
  l.fqv && decide (l.freeq.toNat = q)

/-- The queue of a cluster. -/
def queueOf (c : Cluster) (q : Nat) : List QHandle := tget [] c.queues q

/-- Places a queue keeps for remote arrivals: GRANT of the credit entry that targets it (R489). -/
def grantFor (m : Module) (q : Nat) : Nat :=
  match (m.dies.flatMap (fun p => p.2.credits.map (·.2))).find? (fun e => e.valid && decide (e.qaddr.toNat = q)) with
  | some e => e.grant.toNat
  | none => 0

/-- Places that local handles have left in a-cycle `now`: a PUSH sees them from the next a-cycle on (R477). -/
def freedNow (now : Nat) (c : Cluster) (q : Nat) : Nat :=
  let f := tget (0, 0) c.freed q
  if f.1 = now then f.2 else 0

/-- Places in use by local handles and reservations, as a PUSH of a-cycle `now` sees them. -/
def localUse (now : Nat) (c : Cluster) (q : Nat) : Nat :=
  ((queueOf c q).filter (fun h => h.remote.isNone)).length + tget 0 c.reserved q + freedNow now c q

/-- Free places for a local PUSH (R478, R489). -/
def localRoom (m : Module) (cl q : Nat) : Nat :=
  (256 - grantFor m (cl * 64 + q)) - localUse m.now (clAt m cl) q

/-! ## LOAD -/

/-- Whether window word `w` of an engine is mapped (*Load windows*). -/
def winMapped (eng w : Nat) : Bool :=
  if eng = 0 then decide (w ≤ 5 ∨ w = 0x20 ∨ w = 0x21 ∨ (0x28 ≤ w ∧ w ≤ 0x67) ∨ (0x100 ≤ w ∧ w ≤ 0x4FF))
  else if eng = 1 then decide (w ≤ 0x11 ∨ w = 0x20 ∨ w = 0x21 ∨ (0x28 ≤ w ∧ w ≤ 0x67))
  else if eng = 2 then decide (w ≤ 0x23 ∨ (0x30 ≤ w ∧ w ≤ 0x3F))
  else if eng = 3 then decide ((0x180 ≤ w ∧ w ≤ 0x182) ∨ (0x184 ≤ w ∧ w ≤ 0x186) ∨ (0x188 ≤ w ∧ w ≤ 0x18A)
    ∨ (0x1C0 ≤ w ∧ w ≤ 0x1FF) ∨ (0x400 ≤ w ∧ w ≤ 0x40F))
  else decide (w ≤ 7)

/-- Bits of a configuration word that are not reserved, START excluded (R9, R10, R733). -/
def cfgMask (eng w : Nat) : Nat :=
  let stage := (w - 0x28) % 8
  if eng ≤ 1 ∧ w ≥ 0x28 then
    (if stage = 0 then 0xFFFFF else if stage = 1 then 0x3FFFFFFF else if stage ≤ 4 then 0x1FFFFF
     else if stage ≤ 6 then 0xFFFFFFFF else 0)
  else if eng ≤ 1 ∧ w = 0x20 then 0xFF
  else if eng ≤ 1 ∧ w = 0x21 then 0x3FFFFFFF
  else if eng = 0 then
    (if w = 0 then 0x3FFFE else if w = 3 then 0x1FFFFF else if w = 5 then 0xFFFF else 0x3FFFFFFF)
  else if eng = 1 then
    (if w = 0 then 0xFFFF3E else if w = 1 then 0x3FFFF else if w = 2 ∨ w = 3 then 0xFFFF
     else if w = 4 ∨ w = 8 ∨ w = 12 ∨ w = 15 ∨ w = 16 then 0x3FFFFFFF else if w = 17 then 0xFFFFFFFF else 0x1FFFFF)
  else
    (if w = 0 then 0x3FF0 else if w = 1 then 0x1FFFFFFF else if w = 3 then 0x3F
     else if 4 ≤ w ∧ w ≤ 0x1B then (if w % 3 = 1 then 0x3FFFFFFF else 0x1FFFFF)
     else if w = 0x1D ∨ w = 0x20 ∨ w = 0x21 then 0x1FFFFF else if w = 0x1E then 0xFF
     else if w = 0x22 then 0xF1FFFFF else if w ≥ 0x30 then 0xFFFFFFFF else 0x3FFFFFFF)

/-- `v` masked. -/
def maskW (v : Word) (mask : Nat) : Word := v &&& BitVec.ofNat 32 mask

/-- A write to a word of a modulus table entry (R165, R166): words 0 to 2 clear VALID, word 3 clears it and starts the
validation. -/
def modWrite (e : ModEntry) (w : Nat) (v : Word) : ModEntry :=
  if w = 0 then { e with q := BitVec.ofNat 31 v.toNat, valid := false }
  else if w = 1 then { e with psi := BitVec.ofNat 31 v.toNat, valid := false }
  else if w = 2 then { e with psiinv := BitVec.ofNat 31 v.toNat, valid := false }
  else { e with ne := BitVec.ofNat 5 v.toNat, valid := false, busy := true }

/-- The table with one word written. -/
def modTabWrite (t : Tab ModEntry) (w : Nat) (v : Word) : Tab ModEntry :=
  tmod {} t (w / 4) (fun e => modWrite e (w % 4) v)

/-- A landing pair's two words are allowed (R344). -/
def lpOk (w0 w1 : Nat) : Bool :=
  let r0 := bits w0 14 0
  let r1 := bits w0 29 15
  let n := bits w1 14 0
  !bit w0 31 || (decide (1 ≤ n ∧ n ≤ 9216 ∧ r0 + n ≤ Config.sliceRows ∧ r1 + n ≤ Config.sliceRows)
    && !rangesMeet r0 n r1 n)

/-- A landing-pair word as it is stored: a write restarts SWAPS (RO) at 0. -/
def lpStore (t : Tab Word) (w : Nat) (v : Word) : Tab Word :=
  if w % 2 = 0 then tset 0 (tset 0 t w v) (w + 1) (maskW (tget 0 t (w + 1)) 0x7FFF)
  else tset 0 t w (maskW v 0x7FFF)

/-- The groups of a LOAD's further words (R442): each data word with its mask bit. `none` when a group has no data. -/
def loadGroups : Nat → List Word → Option (List (Word × Bool))
  | 0, ws => if ws = [] then some [] else none
  | f + 1, ws => match ws with
    | [] => some []
    | mask :: rest =>
      if rest = [] then none
      else
        let data := rest.take 32
        let here := data.zipIdx.map (fun p => (p.1, bit mask.toNat p.2))
        (loadGroups f (rest.drop 32)).map (here ++ ·)

/-- The value of a reference word (R444), or the kill its resolution causes. -/
def resolveRef (m : Module) (cl : Nat) (x : Context) (w : Word) : Except KillCause Word :=
  let n := w.toNat
  let idx := n % 256
  let src := bits n 9 8
  let disp := BitVec.ofInt 32 (signed 22 (n / 1024))
  let c := clAt m cl
  let d := dieOf cl
  if src = 0 then .ok (BitVec.ofNat 32 (tget (0 : BitVec 64) x.params idx).toNat + disp)
  else if src = 1 then .ok (BitVec.ofNat 32 ((tget (0 : BitVec 64) x.params idx).toNat / 2 ^ 32) + disp)
  else if src = 2 then
    let h := tget (0xFFFFFFFF : Word) x.handles (idx % 16)
    if !handleOk m d x.job h then .error .handleInvalid
    else if bit idx 7 then .ok (h + disp)
    else match handleAddr m d x.job h with
      | some a => .ok (BitVec.ofNat 32 a + disp)
      | none => .error .cfgInvalid
  else
    let p := idx % 32
    let w0 := (tget (0 : Word) c.lp (2 * p)).toNat
    if !bit w0 31 then .error .cfgInvalid
    else
      let half1 := bit w0 30 != bit idx 5
      .ok (BitVec.ofNat 32 (cl * 2 ^ 21 + 64 * (if half1 then bits w0 29 15 else bits w0 14 0)) + disp)

/-- The words of a LOAD, references resolved. -/
def resolveAll (m : Module) (cl : Nat) (x : Context) : List (Word × Bool) → Except KillCause (List Word)
  | [] => .ok []
  | (w, r) :: rest =>
    match (if r then resolveRef m cl x w else .ok w), resolveAll m cl x rest with
    | .error e, _ => .error e
    | .ok _, .error e => .error e
    | .ok v, .ok vs => .ok (v :: vs)

/-- Engine registers written by a LOAD: the pending set, or the modulus table at once (R443). -/
def loadEngine (eng regw job : Nat) (vs : List Word) (c : Cluster) : Cluster :=
  vs.zipIdx.foldl (fun c p =>
    let w := regw + p.2
    if eng = 0 ∧ w ≥ 0x100 then { c with mods := modTabWrite c.mods (w - 0x100) p.1 }
    else
      let v := maskW p.1 (cfgMask eng w)
      let put (e : EngineState) : EngineState := { e with cfg := tset 0 e.cfg w v, cfgJob := some job }
      if eng = 0 then { c with nte := put c.nte } else if eng = 1 then { c with rme := put c.rme }
      else { c with vec := put c.vec }) c

/-- Landing-pair words `vs` from window word 0x1C0 + `w0`, tested after every word is in place (R344); a LOAD of none tests
nothing. -/
def lpLoad (t : Tab Word) (w0 : Nat) (vs : List Word) : Option (Tab Word) :=
  let t1 := vs.zipIdx.foldl (fun t p => lpStore t (w0 + p.2) p.1) t
  if vs.isEmpty || (List.range 32).all (fun p => lpOk (tget (0 : Word) t1 (2 * p)).toNat (tget (0 : Word) t1 (2 * p + 1)).toNat)
  then some t1 else none

/-- SEQ registers written by a LOAD (R446, R488). -/
def loadSeq (m : Module) (cl k : Nat) (x : Context) (regw : Nat) (vs : List Word) : Res :=
  let words := vs.zipIdx.map (fun p => (regw + p.2, p.1))
  let rix := words.filter (fun p => decide (p.1 < 0x1C0))
  let lps := words.filter (fun p => decide (0x1C0 ≤ p.1 ∧ p.1 < 0x400))
  let hs := words.filter (fun p => decide (0x400 ≤ p.1))
  let held (w : Nat) : Bool := match holdOf m cl x.job with
    | some h => decide (h.pair0 ≤ (w - 0x1C0) / 2 ∧ (w - 0x1C0) / 2 < h.pair0 + h.pairs)
    | none => false
  if lps.any (fun p => !held p.1) then .kill .cfgInvalid m
  else match hs.find? (fun p => x.own.getLsbD (p.1 - 0x400)) with
    | some p => .ledger (hPool (tget (0xFFFFFFFF : Word) x.handles (p.1 - 0x400))) 2 m
    | none =>
      match lpLoad (clAt m cl).lp (((lps.map (·.1)).headD 0x1C0) - 0x1C0) (lps.map (·.2)) with
      | none => .kill .cfgInvalid m
      | some lp1 =>
        let rixKey (w : Nat) : Nat := 4 * ((w - 0x180) % 4) + (w - 0x180) / 4
        let rixMask (w : Nat) : Nat := if w < 0x184 then 0x1FFFFFF else if w < 0x188 then 0x3FFFFFFF else 0x1FFFFF
        .done (ceilDiv vs.length 8) (onCl m cl (fun c => onCtx { c with
            lp := if lps = [] then c.lp else lp1,
            rix := rix.foldl (fun t p => tset 0 t (rixKey p.1) (maskW p.2 (rixMask p.1))) c.rix } k (fun x =>
          { x with handles := hs.foldl (fun t p => tset 0xFFFFFFFF t (p.1 - 0x400) p.2) x.handles })))

/-- Bits of a loaded-set word that are not reserved (*STE_SD_s*). -/
def sdMask (w : Nat) : Nat :=
  if w = 0 then 0xFFFFFFF else if w = 3 then 0xFFFFFF else if w = 6 then 0xFFFFFFF else if w = 7 then 0x3FFFF
  else 0xFFFFFFFF

/-- The loaded set of the current stream engine written by a LOAD (R732). -/
def loadSte (m : Module) (cl k : Nat) (x : Context) (regw : Nat) (vs : List Word) : Module :=
  let cur := if regw = 0 then (vs.headD 0).toNat % 16 else x.curSte
  let m1 := onDie m (dieOf cl) (fun d => { d with
    sd := vs.zipIdx.foldl (fun t p => tset 0 t (8 * cur + regw + p.2) (maskW p.1 (sdMask (regw + p.2)))) d.sd })
  onCl m1 cl (fun c => onCtx c k (fun x => { x with curSte := cur }))

/-- The engine of a code 0 to 2. -/
def engOfNo (n : Nat) : Engine := if n = 0 then .nte else if n = 1 then .rme else .vec

/-- LOAD (R442 to R447, R732, R733). -/
def loadBody (cl k : Nat) (m : Module) (x : Context) (ws : List Word) : Res :=
  let arg := argOf ws
  let eng := arg % 16
  let regw := arg / 16
  if eng > 4 then .kill .streamInvalid m
  else match loadGroups 8 ((ws.drop 1).take (lenOf ws)) with
    | none => .kill .streamInvalid m
    | some [] => .kill .streamInvalid m
    | some data =>
      if eng ≤ 2 ∧ (engOf (clAt m cl) (engOfNo eng)).pend.isSome then .hold 4 0 0 0 m
      else if (List.range data.length).any (fun i => !winMapped eng (regw + i)) then .kill .cfgInvalid m
      else match resolveAll m cl x data with
        | .error e => .kill e m
        | .ok vs =>
          if eng ≤ 2 then .done (ceilDiv vs.length 8) (onCl m cl (loadEngine eng regw x.job vs))
          else if eng = 3 then loadSeq m cl k x regw vs
          else .done (ceilDiv vs.length 8) (loadSte m cl k x regw vs)

/-! ## WAIT and SIGNAL -/

/-- WAIT (R472): it sees the additions of earlier a-cycles. -/
def waitBody (cl : Nat) (m : Module) (x : Context) (ws : List Word) : Res :=
  let f := argOf ws % 256
  let n := argOf ws / 256
  let v := (tget (0 : BitVec 16) (clAt m cl).flags f).toNat
  if lenOf ws ≠ 0 ∨ n = 0 then .kill .streamInvalid m
  else if v < n then .hold 6 (cl * 256 + f) n (flagCount m (cl * 256 + f)) m
  else .done 1 { onCl m cl (fun c => { c with flags := tset 0 c.flags f (BitVec.ofNat 16 (v - n)) }) with
    flagIn := m.flagIn ++ [{ addr := cl * 256 + f, taken := n, job := x.job }] }

/-- SIGNAL (R471): at once on its own cluster, else a message, which crosses the links to another die (R14, R491). -/
def signalBody (cl : Nat) (m : Module) (x : Context) (ws : List Word) : Res :=
  let w := wd ws 1
  let addr := w % 2 ^ 17
  let amt := w / 2 ^ 24
  if lenOf ws ≠ 1 ∨ argOf ws ≠ 0 ∨ bits w 23 17 ≠ 0 ∨ amt = 0 then .kill .streamInvalid m
  else if addr / 256 = cl then .done 1 (addFlag m addr amt x.job)
  else .done 1 (sendFlit { m with transit := m.transit ++ [.signal addr amt x.job] } x.job (dieOf cl) (addr / 2 ^ 14))

/-- The module without message `i`. -/
def dropMsg (m : Module) (i : Nat) : Module := { m with transit := ldel m.transit i }

/-- The arrival of the signal that is message `i` (R471, R491). -/
def signalArrivalStep (m : Module) (i : Nat) : Module :=
  match m.transit[i]? with
  | some (.signal addr amt job) => addFlag (dropMsg m i) addr amt job
  | _ => m

/-- SIGNAL_ARRIVAL. -/
def execSignalArrival (index : Nat) (s : State) : Host.Outcome State Fault Refusal :=
  ok s (signalArrivalStep s.m index)

/-! ## POP, PUSH and the messages of the books -/

/-- POP (R477, R487, R488, R490). -/
def popBody (cl k : Nat) (m : Module) (x : Context) (ws : List Word) : Res :=
  let r := argOf ws % 16
  let q := bits (argOf ws) 9 4
  let qa := cl * 64 + q
  if lenOf ws ≠ 0 ∨ argOf ws / 1024 ≠ 0 then .kill .streamInvalid m
  else if x.own.getLsbD r then .ledger (hPool (tget (0xFFFFFFFF : Word) x.handles r)) 2 m
  else match queueOf (clAt m cl) q with
    | [] => .hold 7 qa 1 0 m
    | e :: rest =>
      -- a handle that entered in this a-cycle is seen from the next one on (R477)
      if e.at_ = some m.now then .hold 7 qa 1 (rest.length + 1) m
      else if !handleOk m (dieOf cl) x.job e.h then .kill .handleInvalid m
      else
        let m1 := onCl m cl (fun c => onCtx { c with
            queues := tset [] c.queues q rest,
            freed := if e.remote.isNone then tset (0, 0) c.freed q (m.now, freedNow m.now c q + 1) else c.freed } k (fun x =>
          { x with handles := tset 0xFFFFFFFF x.handles r e.h, own := x.own ||| BitVec.ofNat 16 (2 ^ r) }))
        let m2 := sendReport m1 (dieOf cl) x.job e.h
          (if isFreeQ m (dieOf cl) x.job e.h qa then .free else .queued) .held
        .done 1 (match e.remote with
          | some (d, en) => sendFlit { m2 with transit := m2.transit ++ [.credit d en] } x.job (dieOf cl) d
          | none => m2)

/-- The credit entry of job `tag` on die `d` for queue `q`. -/
def creditFor (m : Module) (d tag q : Nat) : Option (Nat × Credit) :=
  (dieAt m d).credits.find? (fun p => p.2.valid && decide (p.2.qaddr.toNat = q ∧ p.2.job.toNat = tag))

/-- The register's ownership ends and the handle is on its way (R486, R488). -/
def sendHandle (m : Module) (cl k r : Nat) (x : Context) (q : Nat) (h : Word) (remote : Option (Nat × Nat)) : Module :=
  let m1 := onCl m cl (fun c => onCtx c k (fun x =>
    { x with own := x.own &&& ~~~(BitVec.ofNat 16 (2 ^ r)) }))
  let m2 := sendFlit { m1 with transit := m1.transit ++ [.handle q h remote x.job] } x.job (dieOf cl) (q / 2 ^ 12)
  sendReport m2 (dieOf cl) x.job h .held .transit

/-- PUSH (R477, R478, R488, R489, R490). -/
def pushBody (cl k : Nat) (m : Module) (x : Context) (ws : List Word) : Res :=
  let r := argOf ws % 16
  let w := wd ws 1
  let h := tget (0xFFFFFFFF : Word) x.handles r
  if lenOf ws ≠ 1 ∨ argOf ws / 16 ≠ 0 ∨ w / 2 ^ 15 ≠ 0 then .kill .streamInvalid m
  else if !x.own.getLsbD r then .ledger (hPool h) 1 m
  else if !handleOk m (dieOf cl) x.job h then .kill .handleInvalid m
  else if w / 2 ^ 12 = dieOf cl then
    let room := localRoom m (w / 64) (w % 64)
    if room = 0 then .hold 7 w 1 0 m
    else .done 1 (onCl (sendHandle m cl k r x w h none) (w / 64) (fun c =>
      { c with reserved := tmod 0 c.reserved (w % 64) (· + 1) }))
  else match creditFor m (dieOf cl) x.job w with
    | none => .hold 7 w 1 0 m
    | some (e, cr) =>
      if cr.avail = 0 then .hold 7 w 1 0 m
      else .done 1 (onDie (sendHandle m cl k r x w h (some (dieOf cl, e))) (dieOf cl) (fun d =>
        { d with credits := tmod {} d.credits e (fun c => { c with avail := c.avail - 1 }) }))

/-- Whether an earlier handle of the same sender waits before message `i` for the same queue (R492). -/
def handleWaits (ms : List Msg) (i q : Nat) (remote : Option (Nat × Nat)) : Bool :=
  (ms.take i).any (fun x => match x with
    | .handle q2 _ r2 _ => decide (q2 = q ∧ r2.map (·.1) = remote.map (·.1))
    | _ => false)

/-- The arrival of the handle that is message `i`: it enters its queue (R478, R487, R492), and a stale generation is a
ledger fault (R495). -/
def handleArrivalStep (m : Module) (i : Nat) : Module :=
  match m.transit[i]? with
  | some (.handle q h remote job) =>
    let cl := q / 64
    let e := poolDie m (dieOf cl) (hPool h) job
    if handleWaits m.transit i q remote then m
    else if hGen h ≠ bits (poolWord m e (hPool h) 0) 13 8 then ledgerKill (dropMsg m i) e (hPool h) job 5
    else
      let m1 := onCl (dropMsg m i) cl (fun c => { c with
        queues := tmod [] c.queues (q % 64) (· ++ [{ h := h, remote := remote, at_ := some m.now }]),
        reserved := if remote.isNone then tmod 0 c.reserved (q % 64) (· - 1) else c.reserved })
      sendReport m1 (dieOf cl) job h .transit (if isFreeQ m (dieOf cl) job h q then .free else .queued)
  | _ => m

/-- HANDLE_ARRIVAL. -/
def execHandleArrival (index : Nat) (s : State) : Host.Outcome State Fault Refusal :=
  ok s (handleArrivalStep s.m index)

/-- A count of the ledger changed by `d` (two's complement, 18 bits). -/
def ledgerBump (l : Ledger) (p : Place) (d : BitVec 18) : Ledger :=
  match p with
  | .free => { l with free := l.free + d }
  | .queued => { l with queued := l.queued + d }
  | .held => { l with held := l.held + d }
  | .transit => { l with transit := l.transit + d }

/-- The a-cycle from which a count has been below 0, `old` before its latest change in a-cycle `now`. -/
def negSince (now : Nat) (c : BitVec 18) (old : Option Nat) : Option Nat := if c.msb then some (old.getD now) else none

/-- A report applied (R487), with the a-cycles from which the counts have been below 0 (R495). -/
def ledgerApply (now : Nat) (l : Ledger) (a b : Place) : Ledger :=
  let l1 := ledgerBump (ledgerBump l a (BitVec.ofInt 18 (-1))) b 1
  { l1 with negFree := negSince now l1.free l.negFree, negQueued := negSince now l1.queued l.negQueued,
            negHeld := negSince now l1.held l.negHeld, negTransit := negSince now l1.transit l.negTransit }

/-- The a-cycle from which the count that has been below 0 longest has been so. -/
def Ledger.negAt (l : Ledger) : Option Nat :=
  [l.negFree, l.negQueued, l.negHeld, l.negTransit].foldl (fun a b => match a, b with
    | some x, some y => some (min x y)
    | some x, none => some x
    | none, y => y) none

/-- The arrival of the report that is message `i`. -/
def ledgerReportStep (m : Module) (i : Nat) : Module :=
  match m.transit[i]? with
  | some (.report d p a b) =>
    onDie (dropMsg m i) d (fun die => { die with ledger := tmod {} die.ledger p (fun l => ledgerApply m.now l a b) })
  | _ => m

/-- LEDGER_REPORT. -/
def execLedgerReport (index : Nat) (s : State) : Host.Outcome State Fault Refusal :=
  ok s (ledgerReportStep s.m index)

/-- The arrival of the credit return that is message `i` (R490): above GRANT it is a ledger fault. -/
def creditReturnStep (m : Module) (i : Nat) : Module :=
  match m.transit[i]? with
  | some (.credit d e) =>
    let c := tget {} (dieAt m d).credits e
    if c.avail.toNat + 1 > c.grant.toNat then ledgerKill (dropMsg m i) d 0 c.job.toNat 4
    else onDie (dropMsg m i) d (fun die => { die with
      credits := tmod {} die.credits e (fun c => { c with avail := c.avail + 1 }) })
  | _ => m

/-- CREDIT_RETURN. -/
def execCreditReturn (index : Nat) (s : State) : Host.Outcome State Fault Refusal :=
  ok s (creditReturnStep s.m index)

/-- Whether some Pontoon link is sending again or retraining. -/
def anyRetry (m : Module) : Bool :=
  m.dies.any (fun d => d.2.links.any (fun l => l.2.retryAt.isSome || l.2.training))
    || m.quay.links.any (fun l => l.2.retryAt.isSome || l.2.training)

/-- One pool count below 0 for more than 512 a-cycles, which stand still while a link retries (R495, R688). -/
def negCountStep (m : Module) (d p : Nat) : Module :=
  match (ledgerOf m d p).negAt with
  | some t =>
    if m.now > t + 512 ∧ anyRetry m = false then ledgerKill m d p (bits (poolWord m d p 0) 23 14) 3 else m
  | none => m

/-- NEG_COUNT. -/
def execNegCount (die : Fin 8) (pool : Fin 1024) (s : State) : Host.Outcome State Fault Refusal :=
  ok s (negCountStep s.m die pool)

/-! ## SWAP, PATCH, LOOP, TMARK, TAG and END -/

/-- A swap of a pair's words (R342). -/
def lpSwap (t : Tab Word) (p : Nat) : Tab Word :=
  let w0 := tget (0 : Word) t (2 * p)
  let w1 := tget (0 : Word) t (2 * p + 1)
  tset 0 (tset 0 t (2 * p) (w0 ^^^ 0x40000000)) (2 * p + 1) (w1 + 0x10000)

/-- SWAP (R342): naming an invalid pair is refused with CFG_INVALID. -/
def swapBody (cl : Nat) (m : Module) (_ : Context) (ws : List Word) : Res :=
  let p := argOf ws % 32
  if lenOf ws ≠ 0 ∨ argOf ws / 32 ≠ 0 then .kill .streamInvalid m
  else if !bit (tget (0 : Word) (clAt m cl).lp (2 * p)).toNat 31 then .kill .cfgInvalid m
  else .done 1 (onCl m cl (fun c => { c with lp := lpSwap c.lp p }))

/-- A parameter after a PATCH (*Sequencer instructions*). -/
def patchVal (mode : Nat) (v : BitVec 64) (imm : Nat) : BitVec 64 :=
  if mode = 0 then BitVec.ofNat 64 (v.toNat / 2 ^ 32 * 2 ^ 32 + imm)
  else if mode = 1 then BitVec.ofNat 64 (imm * 2 ^ 32 + v.toNat % 2 ^ 32)
  else v + BitVec.ofInt 64 (signed 32 imm)

/-- PATCH. -/
def patchBody (cl k : Nat) (m : Module) (_ : Context) (ws : List Word) : Res :=
  let p := argOf ws % 256
  let mode := bits (argOf ws) 9 8
  if lenOf ws ≠ 1 ∨ argOf ws / 1024 ≠ 0 ∨ mode = 3 then .kill .streamInvalid m
  else .done 1 (onCl m cl (fun c => onCtx c k (fun x =>
    { x with params := tmod 0 x.params p (fun v => patchVal mode v (wd ws 1)) })))

/-- LOOP (R450): the level must lie above the enclosing level and the body inside the enclosing body. A body of no words
repeats nothing. -/
def loopBody (cl k : Nat) (m : Module) (x : Context) (ws : List Word) : Res :=
  let level := argOf ws % 4
  let n := wd ws 1
  let len := wd ws 2
  let first := x.pc + 3
  let fits := match x.loops with
    | [] => true
    | f :: _ => decide (f.level < level ∧ first + len ≤ f.last)
  if lenOf ws ≠ 2 ∨ argOf ws / 4 ≠ 0 ∨ n = 0 ∨ n ≥ 2 ^ 24 ∨ len ≥ 2 ^ 24 ∨ !fits then .kill .streamInvalid m
  else if len = 0 then .done 1 m
  else .done 1 (onCl m cl (fun c => onCtx c k (fun x =>
    { x with loops := { level := level, first := first, last := first + len, left := n } :: x.loops })))

/-- TMARK (R436): the planned issue a-cycle of every instruction up to the next TMARK. -/
def tmarkBody (cl k : Nat) (m : Module) (_ : Context) (ws : List Word) : Res :=
  if lenOf ws ≠ 1 then .kill .streamInvalid m
  else .done 0 (onCl m cl (fun c => onCtx c k (fun x => { x with planned := argOf ws * 2 ^ 32 + wd ws 1 })))

/-- TAG: the context's current tag. -/
def tagBody (cl k : Nat) (m : Module) (_ : Context) (ws : List Word) : Res :=
  if lenOf ws ≠ 0 then .kill .streamInvalid m
  else .done 0 (onCl m cl (fun c => onCtx c k (fun x => { x with curtag := BitVec.ofNat 16 (argOf ws) })))

/-- END: the job's stream on the cluster ends; the context keeps its slip figures, which the job's completion takes (R439). -/
def endBody (cl k : Nat) (m : Module) (_ : Context) (ws : List Word) : Res :=
  if lenOf ws ≠ 0 ∨ argOf ws ≠ 0 then .kill .streamInvalid m
  else .done 1 (onCl m cl (fun c => onCtx c k (fun x => { x with state := 0, ended := true })))

/-! ## Breakpoints and the die-wide halt -/

/-- A breakpoint fires (R479, R480): its die halts, and SRC names the breakpoint that fired first, a tie of one a-cycle going to the
lower global cluster index. -/
def breakpointStep (m : Module) (cl k : Nat) : Module :=
  let x := ctxOf (clAt m cl) k
  if !x.brkHit then m
  else
    let m1 := onCl m cl (fun c => onCtx c k (fun x => { x with brkHit := false }))
    onDie m1 (dieOf cl) (fun d =>
      if d.halted ∧ ¬(d.haltAt = m.now ∧ (cl < d.haltSrc.toNat ∨ (cl = d.haltSrc.toNat ∧ k < d.haltCtx.toNat))) then d
      else { d with halted := true, haltSrc := BitVec.ofNat 9 cl, haltCtx := BitVec.ofNat 3 k, haltAt := m.now })

/-- BREAKPOINT. -/
def execBreakpoint (cl : Fin 512) (ctx : Fin 8) (s : State) : Host.Outcome State Fault Refusal :=
  ok s (breakpointStep s.m cl ctx)

/-- A write of SEQ_HALT.RESUME (R482). -/
def resumeStep (m : Module) (d : Nat) : Module := onDie m d (fun d => { d with halted := false })

/-- RESUME. -/
def execResume (die : Fin 8) (s : State) : Host.Outcome State Fault Refusal := ok s (resumeStep s.m die)

end Sys2Proof.Machine
end

