-- ==== Sys2Proof/Machine/Desc.lean ====
section
/-! DEFINITION. Tensor descriptors (R358 to R368): the fields of an entry, the descriptor checks, and the commands that
commit, validate and write an entry. -/
namespace Sys2Proof.Machine

/-- A dimension of a descriptor. -/
structure Dim where
  ext : Nat
  valid : Nat
  off : Int
  stride : Int
  deriving DecidableEq, Repr

/-- A descriptor entry (*STE_DESC_n*): the dimensions in use, and whether the others hold what R361 says. -/
structure Desc where
  fmt : Nat
  ndim : Nat
  wr : Bool
  matpad : Bool
  xpose : Bool
  obj : Bool
  region : Word
  alo : Nat
  alen : Nat
  base : Nat
  fill : Word
  objWords : Nat
  dims : List Dim
  clean : Bool
  deriving DecidableEq, Repr

/-- Bits of a descriptor word that are not reserved (*STE_DESC_n*, R9). -/
def descMask (w : Nat) : Nat :=
  if w = 0 then 0x7FF else if w = 3 then 0xFFFFFF else if w = 7 then 0xFFFFFFF
  else if w ≥ 8 ∧ w % 4 ≤ 1 then 0xFFFFFF else 0xFFFFFFFF

/-- Word `w` of entry `n`. -/
def descWord (d : Die) (n w : Nat) : Nat := (tget (0 : Word) d.desc (32 * n + w)).toNat

/-- Dimension `i` of entry `n`. -/
def dimOf (d : Die) (n i : Nat) : Dim :=
  { ext := bits (descWord d n (8 + 4 * i)) 23 0, valid := bits (descWord d n (9 + 4 * i)) 23 0,
    off := signed 32 (descWord d n (10 + 4 * i)), stride := signed 32 (descWord d n (11 + 4 * i)) }

/-- Entry `n` of a die's descriptor table. -/
def descOf (d : Die) (n : Nat) : Desc :=
  let w := descWord d n
  let nd := bits (w 0) 6 4
  let dims := (List.range 6).map (dimOf d n)
  { fmt := bits (w 0) 3 0, ndim := nd, wr := bit (w 0) 7, matpad := bit (w 0) 8, xpose := bit (w 0) 9, obj := bit (w 0) 10,
    region := BitVec.ofNat 32 (w 1), alo := w 2 + bits (w 3) 7 0 * 2 ^ 32, alen := w 4 + bits (w 3) 15 8 * 2 ^ 32,
    base := w 5 + bits (w 3) 23 16 * 2 ^ 32, fill := BitVec.ofNat 32 (w 6), objWords := bits (w 7) 27 0,
    dims := dims.take nd,
    clean := (dims.drop nd).all (fun x => decide (x = { ext := 1, valid := 1, off := 0, stride := 0 })) }

/-- Whether dimension 0 is packed (R375). -/
def Desc.packed (x : Desc) : Bool := decide (1 ≤ x.fmt ∧ x.fmt ≤ 9)

/-- Dimension `i`, a dimension of one element when it is not in use. -/
def Desc.dim (x : Desc) (i : Nat) : Dim := x.dims.getD i { ext := 1, valid := 1, off := 0, stride := 0 }

/-- Row words of a packed dimension 0. -/
def Desc.rowWords (x : Desc) : Nat := Machine.rowWords x.fmt (x.dim 0).ext

/-- Words of the innermost unit (R363). -/
def Desc.unit (x : Desc) : Nat := if x.obj then x.objWords else if x.packed then x.rowWords else 1

/-- The dimensions whose strides enter the address bounds: all but a packed dimension 0. -/
def Desc.outer (x : Desc) : List Dim := if x.packed then x.dims.drop 1 else x.dims

/-- Lowest and highest word, from the slot's start, of the in-bounds tuples at a base (R363). -/
def Desc.bounds (x : Desc) (base : Int) : Int × Int :=
  let t (d : Dim) : Int := ((d.valid : Int) - 1) * d.stride
  (x.outer.foldl (fun a d => a + min 0 (t d)) base, x.outer.foldl (fun a d => a + max 0 (t d)) base + x.unit - 1)

/-- Check 1, as far as no pool enters it (R361, R375, R377, R380, R382). -/
def Desc.fieldsOk (x : Desc) : Bool :=
  let d0 := x.dim 0
  let d1 := x.dim 1
  let whole (d : Dim) : Bool := decide (d.off = 0 ∧ d.valid = d.ext)
  decide (x.fmt ≤ 0xA ∧ 1 ≤ x.ndim ∧ x.ndim ≤ 6) && x.clean
    && x.dims.all (fun d => decide (1 ≤ d.ext ∧ 1 ≤ d.valid ∧ -8388608 ≤ d.off ∧ d.off ≤ 8388607))
    && (!x.packed || (decide (d0.stride = 1) && whole d0 && (!isMx x.fmt || decide (d0.ext % 32 = 0))))
    && (!x.xpose || (decide ((x.fmt = 0 ∨ x.fmt = 0xA) ∧ 2 ≤ x.ndim ∧ x.obj = false ∧ d0.stride = 1
        ∧ d0.ext % 64 = 0 ∧ d1.ext % 64 = 0) && whole d0 && whole d1))
    && (!x.obj || decide (x.fmt = 0 ∧ x.objWords % 16 = 0 ∧ 32 ≤ x.objWords))

/-- A pool slot as a transfer uses it: its kind, where the slot starts (a word of cluster `cl`, or a byte address), and its
size in words. -/
structure Slot where
  kind : Nat
  cl : Nat
  start : Nat
  size : Nat
  deriving DecidableEq, Repr

/-- The slot that a handle of job `tag` names on die `d`; none when its pool is unused or its slot is beyond SLOTS. -/
def slotOf (m : Module) (d tag : Nat) (h : Word) : Option Slot :=
  let e := poolDie m d (hPool h) tag
  let w := poolWord m e (hPool h)
  let k := bits (w 0) 1 0
  let base := w 4 + w 5 * 2 ^ 32
  let sz := bits (w 2) 27 0
  if h = 0xFFFFFFFF ∨ k = 3 ∨ hSlot h > bits (w 1) 15 0 then none
  else some { kind := k, cl := 64 * e + bits (w 0) 7 2, size := sz,
              start := if k = 0 then base % 2 ^ 21 + hSlot h * sz
                else (if k = 1 then base % 2 ^ 41 else base) + 4 * (hSlot h * sz) }

/-- The pool's share of checks 1, 2 and 3 (R363, R381, R382): the number of the first that fails, 0 for none. -/
def Desc.poolCheck (x : Desc) (p : Slot) : Nat :=
  let s1 := (x.dim 1).stride
  let xok := decide (0 < s1 ∧ s1 % 4096 = 0 ∧ x.base % 64 = 0) || decide (s1 % 64 = 0 ∧ s1 / 64 % 2 = 1)
  let run := if x.obj then x.objWords else if x.packed then x.rowWords else (x.dim 0).ext
  let inner := if x.obj then decide ((x.dim 0).stride % 16 = 0) else x.packed || decide ((x.dim 0).stride = 1)
  if p.kind = 0 && (x.obj || (x.xpose && !xok)) then 1
  else if x.alo + x.alen > p.size then 2
  else if p.kind = 1 && !(decide (x.base % 16 = 0 ∧ x.alo % 16 = 0 ∧ x.alen % 16 = 0 ∧ run % 16 = 0) && inner
      && (x.dims.drop 1).all (fun d => decide (d.stride % 16 = 0))) then 3
  else 0

/-- The terms of the injectivity test (R364): spans and absolute strides. -/
def Desc.terms (x : Desc) : List (Nat × Nat) :=
  let t (d : Dim) : Nat × Nat := (if x.matpad then d.ext else d.valid, d.stride.natAbs)
  (if x.obj then [(x.objWords, 1)] else if x.packed then [(x.rowWords, 1)] else [])
    ++ (x.outer.map t).filter (fun p => decide (p.1 > 1))

/-- Insertion by stride, behind equal strides. -/
def insTerm (p : Nat × Nat) : List (Nat × Nat) → List (Nat × Nat)
  | [] => [p]
  | q :: qs => if p.2 < q.2 then p :: q :: qs else q :: insTerm p qs

/-- Whether every term's stride passes the sum of the earlier terms. -/
def termsPass : Nat → List (Nat × Nat) → Bool
  | _, [] => true
  | acc, (n, s) :: rest => decide (s ≥ 1 + acc) && termsPass (acc + s * (n - 1)) rest

/-- The injectivity test of a write descriptor. -/
def Desc.injective (x : Desc) : Bool := termsPass 0 (x.terms.foldl (fun l p => insTerm p l) [])

/-- Code and number of the first of *Descriptor checks* that an entry fails; (0, 0) when it passes. -/
def descCheck (m : Module) (d tag : Nat) (x : Desc) : Nat × Nat :=
  let slot := slotOf m d tag x.region
  let open_ := decide (x.region = 0xFFFFFFFF)
  let pc := match slot with
    | some p => x.poolCheck p
    | none => 0
  let (lo, hi) := x.bounds x.base
  if !x.fieldsOk || pc = 1 then (1, 1)
  else if (!open_ && slot.isNone) || pc = 2 || x.alen = 0 then (2, 2)
  else if pc = 3 then (1, 3)
  else if lo < x.alo ∨ hi ≥ (x.alo + x.alen : Nat) then (2, 4)
  else if x.wr && !x.injective then (3, 5)
  else (0, 0)

/-! ## Commands -/

/-- STE_DCMT: the entry is committed for a job and its validation runs (R362, R366). -/
def dcmtStep (m : Module) (die : Nat) (v : Word) : Module :=
  let st : DStat := { busy := true, job := BitVec.ofNat 10 (v.toNat / 4096) }
  onDie m die (fun d => { d with dstat := tset {} d.dstat (v.toNat % 4096) st })

/-- STE_DCMT. -/
def execSteDcmt (die : Fin 8) (v : Word) (s : State) : Host.Outcome State Fault Refusal := ok s (dcmtStep s.m die v)

/-- The validation of an entry ends (R362, R365). -/
def descDoneStep (m : Module) (die n : Nat) : Module :=
  let d := dieAt m die
  let st := tget {} d.dstat n
  if !st.busy then m
  else
    let (code, check) := descCheck m die st.job.toNat (descOf d n)
    let st1 : DStat := { valid := decide (code = 0), busy := false, code := BitVec.ofNat 2 code,
                         check := BitVec.ofNat 4 check, job := st.job }
    onDie m die (fun d => { d with dstat := tset {} d.dstat n st1 })

/-- DESCRIPTOR_VALIDATION_DONE. -/
def execDescriptorValidationDone (die : Fin 8) (entry : Fin 4096) (s : State) : Host.Outcome State Fault Refusal :=
  ok s (descDoneStep s.m die entry)

/-- A write to a word of an entry clears its VALID and cancels a validation (R366); its reserved bits are ignored (R10). -/
def descWriteDie (n w : Nat) (v : Word) (d : Die) : Die :=
  { d with desc := tset 0 d.desc (32 * n + w) (maskW v (descMask w)),
           dstat := tmod {} d.dstat n (fun s => { s with valid := false, busy := false }) }

/-- DESCRIPTOR_WRITE. -/
def execDescriptorWrite (die : Fin 8) (entry : Fin 4096) (word : Fin 32) (v : Word) (s : State) :
    Host.Outcome State Fault Refusal := ok s (onDie s.m die (descWriteDie entry word v))

end Sys2Proof.Machine
end

