-- ==== Sys2Proof/Machine/Header.lean ====
section
/-! DEFINITION. Seal headers (R44 to R51, *Header fields by kind*) and the header rules of the primitives: R87, R88,
R97 to R103, R108, R117, R129, R149 and R729. A header is rebuilt by the lead of a group when SEALC closes a record
(R465). -/
namespace Sys2Proof.Machine

/-- The fields of a seal header (*Seal header*). -/
structure Hdr where
  magic : Nat := 0x5EA1
  version : Nat := 1
  kind : Nat := 0
  pset : Nat := 0
  ntt : Bool := false
  chk : Bool := false
  flooded : Bool := false
  unconf : Bool := false
  flagsRes : Nat := 0
  ksid : Nat := 0
  level : Nat := 0
  comps : Nat := 0
  scale : Nat := 0
  noise : Nat := 0
  poison : Nat := 0
  upstream : Bool := false
  multi : Bool := false
  pflagsRes : Nat := 0
  count : Nat := 0
  plen : Nat := 0
  objid : Nat := 0
  pcrc : Nat := 0
  hcrc : Nat := 0
  deriving DecidableEq, Repr

/-- The header that 64 bytes hold. -/
def hdrParse (b : List Byte) : Hdr :=
  let fl := field b 6 2
  let pf := field b 23 1
  { magic := field b 0 2, version := field b 2 1, kind := field b 3 1, pset := field b 4 2,
    ntt := bit fl 0, chk := bit fl 1, flooded := bit fl 2, unconf := bit fl 3, flagsRes := fl / 16,
    ksid := field b 8 8, level := field b 16 1, comps := field b 17 1, scale := field b 18 2,
    noise := field b 20 2, poison := field b 22 1, upstream := bit pf 0, multi := bit pf 1, pflagsRes := pf / 4,
    count := field b 24 4, plen := field b 28 4, objid := field b 32 8, pcrc := field b 40 4, hcrc := field b 44 4 }

/-- Bytes 0 to 43 of a header, with the given PCRC. Reserved bits are zero and UNCONF is 0 (R48, R49). -/
def hdrFront (h : Hdr) (pcrc : Nat) : List Byte :=
  leBytes 2 h.magic ++ leBytes 1 h.version ++ leBytes 1 h.kind ++ leBytes 2 h.pset
    ++ leBytes 2 (b2n h.ntt + 2 * b2n h.chk + 4 * b2n h.flooded)
    ++ leBytes 8 h.ksid ++ leBytes 1 h.level ++ leBytes 1 h.comps ++ leBytes 2 h.scale ++ leBytes 2 h.noise
    ++ leBytes 1 h.poison ++ leBytes 1 (b2n h.upstream + 2 * b2n h.multi) ++ leBytes 4 h.count ++ leBytes 4 h.plen
    ++ leBytes 8 h.objid ++ leBytes 4 pcrc

/-- The 64 bytes of a header as the module writes it, with PCRC and HCRC (R48). -/
def hdrBytes (h : Hdr) (pcrc : Nat) : List Byte := withCrc (hdrFront h pcrc) ++ zeros 16

/-- CRC-32C of a payload of `plen` zero words (R88). -/
def zeroPcrc (plen : Nat) : Nat := crc32c (zeros (4 * plen))

/-- Limbs of one component of a slot object or plaintext: l + 1 + χ (R44). -/
def slotLimbs (h : Hdr) : Nat := h.level + 1 + b2n h.chk

/-- Payload length in words that R44 gives for the header's own fields. -/
def plenOf (c : CustomSet) (h : Hdr) : Nat :=
  if h.kind = 1 then h.comps * slotLimbs h * setN c
  else if h.kind = 2 then 2 * (c.n + 1)
  else if h.kind = 3 then slotLimbs h * setN c
  else (c.k + 1) * 2 * setN c

/-- A power of two from 1 to `m`. -/
def isPow2Upto (x m : Nat) : Bool := decide (0 < x) && decide (x ≤ m) && decide (2 ^ Nat.log2 x = x)

/-- *Header fields by kind*: whether every field holds a value that the object's kind allows. -/
def fieldsAllowed (sets : List CustomSet) (h : Hdr) : Bool :=
  match psetOf sets (BitVec.ofNat 16 h.pset) with
  | none => false
  | some c =>
    decide (h.poison ≤ 10) &&
    (if h.kind = 1 then
      !c.scalar && decide (h.ksid ≠ 0) && decide (h.level ≤ setMaxLevel c) && decide (h.comps = 2 ∨ h.comps = 3)
        && isPow2Upto h.count (setN c / 2)
    else if h.kind = 2 then
      c.scalar && !h.ntt && !h.chk && decide (h.ksid ≠ 0) && decide (h.level = 0) && decide (h.comps = 1)
        && decide (h.scale = 0) && decide (1 ≤ h.count ∧ h.count ≤ c.mbits)
    else if h.kind = 3 then
      !c.scalar && !h.flooded && decide (h.ksid = 0) && decide (h.level ≤ setMaxLevel c) && decide (h.comps = 1)
        && isPow2Upto h.count (setN c / 2) && decide (h.noise = if h.poison = 0 then 0 else 0xFFFF)
    else if h.kind = 4 then
      c.scalar && !h.chk && decide (h.ksid ≠ 0) && decide (h.level = 0) && decide (h.comps = c.k + 1)
        && decide (h.scale = 0) && decide (1 ≤ h.count ∧ h.count ≤ c.mbits)
    else false)

/-! ## Poison codes -/

/-- PARAM_MISMATCH, SCALE_MISMATCH, LEVEL_EXHAUSTED, NOISE_EXHAUSTED and DOMAIN of *Poison codes*. -/
def pParam : Nat := 5
def pScale : Nat := 6
def pLevel : Nat := 7
def pNoise : Nat := 8
def pDomain : Nat := 9

/-- R87: the poison code, UPSTREAM and MULTI that an output takes from its operands and the causes of its own. -/
def poisonMerge (ops : List Hdr) (causes : List Nat) : Nat × Bool × Bool :=
  let codes := (ops.map (·.poison)).filter (· ≠ 0)
  let own := causes.filter (· ≠ 0)
  let mixed := own.any (· ≠ lmin 11 own)
  match codes with
  | c :: rest => (c, true, ops.any (·.multi) || rest.any (· ≠ c) || decide (own ≠ []))
  | [] => (if own = [] then 0 else lmin 11 own, false, ops.any (·.multi) || mixed)

/-- What a primitive would write into its output header without poison, and the causes its header rules detect. -/
structure HdrOut where
  h : Hdr
  scale : Int := 0
  noise : Int := 0
  causes : List Nat := []

/-- A cause when a condition holds. -/
def causeIf (b : Bool) (c : Nat) : List Nat := if b then [c] else []

/-- The output header from what the primitive would write, the operands and the causes the engines reported: R71 (scale
clamp), R102 (noise clamp), R87 and R88. The payload is zero when the poison code is not. Where PSET names no parameter set, no
rule gives the object a length, and PLEN stays operand 0's (DESIGN CHOICE, log entry 151). -/
def hdrFinish (sets : List CustomSet) (ops : List Hdr) (engine : List Nat) (o : HdrOut) : Hdr :=
  let badScale := decide (o.scale < 0 ∨ o.scale > 65535)
  let own := o.causes ++ engine ++ causeIf badScale pDomain
  let (p, up, mu) := poisonMerge ops own
  let h := { o.h with
    version := 1, unconf := false, flagsRes := 0, pflagsRes := 0, magic := 0x5EA1,
    scale := noiseClamp o.scale,
    noise := if p ≠ 0 then 0xFFFF else noiseClamp o.noise,
    poison := p, upstream := up, multi := mu,
    flooded := o.h.flooded || ops.any (·.flooded) }
  match psetOf sets (BitVec.ofNat 16 h.pset) with
  | some c => { h with plen := plenOf c h }
  | none => h

/-- The causes of R99 that every primitive shares: an operand field not allowed, a kind or component count not accepted
(`accept`), and operands that differ in PSET, CHK or, for ciphertexts, KSID. DESIGN CHOICE (log entry 111): a number of
operands other than the primitive's table gives PARAM_MISMATCH; R99 names no outcome for it. -/
def commonCauses (sets : List CustomSet) (ops : List Hdr) (accept : List (Hdr → Bool)) : List Nat :=
  let a := ops.headD {}
  causeIf (ops.any (fun h => !fieldsAllowed sets h)
    || decide (ops.length ≠ accept.length)
    || (List.zipWith (fun h f => !f h) ops accept).any id
    || ops.any (fun h => decide (h.pset ≠ a.pset) || (h.chk != a.chk))
    || ops.any (fun h => decide (h.kind ≠ 3 ∧ a.kind ≠ 3 ∧ h.ksid ≠ a.ksid))) pParam

/-- A slot ciphertext in NTT order with one of the component counts (R98). -/
def ctIn (cs : List Nat) (h : Hdr) : Bool := decide (h.kind = 1) && cs.contains h.comps && h.ntt

/-- A plaintext in NTT order. -/
def ptIn (h : Hdr) : Bool := decide (h.kind = 3) && h.ntt

/-- A scalar ciphertext. -/
def scIn (h : Hdr) : Bool := decide (h.kind = 2)

/-- R72: the scale exponents do not agree. -/
def scalesDiffer (a b : Hdr) : Bool := decide (((a.scale : Int) - b.scale).natAbs > 2)

/-- Operand 0's header with the KIND, COMPONENTS and NTT that a slot primitive's table gives its output (R88, R98, R101). Where the
table lets COMPONENTS follow operand 0 and operand 0 has neither 2 nor 3, it is 2 (DESIGN CHOICE, log entry 120). -/
def tableHdr (code : Nat) (a : Hdr) : Hdr :=
  let two := decide (a.comps = 3) && !([0x0A, 0x0C, 0x0D, 0x0E, 0x0F, 0x11, 0x13].contains code)
  let ct := { a with kind := 1, comps := if code = 0x09 then 3 else if two then 3 else 2 }
  let h := if (code = 0x10 ∨ code = 0x12) ∧ a.kind = 3 then { a with comps := 1 } else ct
  if code = 0x12 then h else { h with ntt := true }

/-- One stage of a slot primitive: *Slot primitives: operands and header effects* with R99, R100, R101, R108 and R729.
`imm` is the header immediate of R463. Codes: 0x01 S_ADD to 0x13 S_FLOOD, without S_MRR, and of a lowering 0x8C, a key switch
of the bootstrap. -/
def slotStage (sets : List CustomSet) (code : Nat) (ops : List Hdr) (imm : Nat) : HdrOut :=
  let a := ops.headD {}
  let b := ops.getD 1 {}
  let c := (psetOf sets (BitVec.ofNat 16 a.pset)).getD { setno := 0, scalar := false, logn := 0 }
  let lg : Int := 128 * c.logn
  let ql := logL (c.qs.getD a.level 2)
  let na : Int := a.noise
  let nb : Int := b.noise
  let sa : Int := a.scale
  let sb : Int := b.scale
  let levels := decide (a.level ≠ b.level)
  let k16 := imm % 65536
  let t := tableHdr code a
  let base : HdrOut := { h := t, scale := sa, noise := na }
  if code = 0x01 ∨ code = 0x02 then
    { base with noise := nadd na nb,
                causes := commonCauses sets ops [ctIn [2, 3], ctIn [a.comps]] ++ causeIf levels pParam
                  ++ causeIf (scalesDiffer a b) pScale }
  else if code = 0x04 then
    { base with noise := nadd na nb,
                causes := commonCauses sets ops [ctIn [2, 3], ptIn] ++ causeIf levels pParam
                  ++ causeIf (scalesDiffer a b) pScale }
  else if code = 0x06 then
    { base with scale := sa + sb, noise := na + sb + lg,
                causes := commonCauses sets ops [ctIn [2, 3], ptIn] ++ causeIf levels pParam }
  else if code = 0x07 then
    let e := signed 16 k16
    { base with scale := sa + e, noise := na + e, causes := commonCauses sets ops [ctIn [2, 3]] }
  else if code = 0x08 then
    let x := signed 32 imm
    let bad := decide (x.natAbs ≥ 2 ^ 31)
    { base with noise := if bad then na else if x = 0 then 0 else na + logC x.natAbs,
                causes := commonCauses sets ops [ctIn [2, 3]] ++ causeIf bad pDomain }
  else if code = 0x09 then
    { base with scale := sa + sb, noise := nadd (na + sb) (nb + sa) + lg,
                causes := commonCauses sets ops [ctIn [2], ctIn [2]] ++ causeIf levels pParam }
  else if code = 0x0A then
    { base with noise := nadd na (eKs c), causes := commonCauses sets ops [ctIn [3]] }
  else if code = 0x0B then
    if a.level = 0 then { base with causes := pLevel :: commonCauses sets ops [ctIn [2, 3]] }
    else { base with h := { t with level := a.level - 1 }, scale := sa - ql, noise := nadd (na - ql) (eRs c),
                     causes := commonCauses sets ops [ctIn [2, 3]] }
  else if code = 0x0D ∨ code = 0x0E then
    { base with noise := nadd na (eKs c),
                causes := commonCauses sets ops [ctIn [2]]
                  ++ causeIf (decide (k16 = 0 ∨ k16 ≥ setN c / 2)) pDomain }
  else if code = 0x0F then
    { base with noise := nadd na (eKs c), causes := commonCauses sets ops [ctIn [2]] }
  else if code = 0x10 then
    let cs := commonCauses sets ops [fun h => ctIn [2, 3] h || ptIn h]
    if a.level = 0 then { base with causes := pLevel :: cs }
    else { base with h := { t with level := a.level - 1 }, causes := cs }
  else if code = 0x11 then
    let bad := decide (k16 = 0 ∨ k16 > setMaxLevel c)
    { base with h := { t with level := if bad then a.level else k16 },
                causes := commonCauses sets ops [ctIn [2]] ++ causeIf (decide (a.level ≠ 0)) pParam
                  ++ causeIf bad pDomain }
  else if code = 0x12 then
    let bad := decide (k16 > 1)
    let toNtt := decide (k16 = 0)
    { base with h := { t with ntt := if bad then a.ntt else toNtt },
                causes := commonCauses sets ops [fun h => decide (h.kind = 1 ∨ h.kind = 3)]
                  ++ causeIf (!bad && (a.ntt == toNtt)) pParam ++ causeIf bad pDomain }
  else if code = 0x13 then
    let bad := decide (k16 < 2 ∨ k16 > 56)
    { base with h := { t with flooded := true }, noise := if bad then na else nadd na (256 * k16),
                causes := commonCauses sets ops [ctIn [2]] ++ causeIf bad pDomain }
  else if code = 0x8C then { base with noise := nadd na (eKs c) }
  else  -- S_NEG (0x03) and S_ADDC (0x05)
    { base with causes := commonCauses sets ops [ctIn [2, 3]] }

/-- S_MRR (R91, R117): S_TMUL, S_RELIN and S_RESCALE in sequence. An engine's cause stands in the list as its code plus 16 times
the number of the stage it arose in (log entry 12). UPSTREAM is that of S_MRR's own operands. -/
def mrrHdr (sets : List CustomSet) (ops : List Hdr) (engine : List Nat) : Hdr :=
  let own (s : Nat) : List Nat := (engine.filter (fun c => decide (c / 16 = s))).map (· % 16)
  let t := hdrFinish sets ops (own 0) (slotStage sets 0x09 ops 0)
  let r := hdrFinish sets [t] (own 1) (slotStage sets 0x0A [t] 0)
  let z := hdrFinish sets [r] (own 2) (slotStage sets 0x0B [r] 0)
  { z with upstream := ops.any (fun h => h.poison ≠ 0) }

/-- A scalar primitive: *Scalar primitives: operands and header effects* with R76, R127, R129, R729. -/
def scalarStage (sets : List CustomSet) (code : Nat) (ops : List Hdr) (imm : Nat) : HdrOut :=
  let a := ops.headD {}
  let b := ops.getD 1 {}
  let c := (psetOf sets (BitVec.ofNat 16 a.pset)).getD { setno := 0, scalar := true, logn := 0 }
  let na : Int := a.noise
  let nb : Int := b.noise
  let k16 := imm % 65536
  let t := { a with kind := 2, level := 0, comps := 1, ntt := false }
  let base : HdrOut := { h := t, noise := na }
  let one := commonCauses sets ops [scIn]
  let pbs := nadd (eLks c (c.k * setN c)) (eBr c)
  if code = 0x40 ∨ code = 0x41 then
    { base with noise := nadd na nb,
                causes := commonCauses sets ops [scIn, scIn] ++ causeIf (decide (a.count ≠ b.count)) pParam }
  else if code = 0x43 then
    { base with causes := one ++ causeIf (decide (k16 ≥ 2 ^ a.count)) pDomain }
  else if code = 0x44 then
    let x := signed 32 imm
    let bad := decide (x.natAbs ≥ 2 ^ 15)
    { base with noise := if bad then na else if x = 0 then 0 else na + logC x.natAbs,
                causes := one ++ causeIf bad pDomain }
  else if code = 0x45 then
    { base with causes := one ++ causeIf (decide (a.count ≠ 2)) pParam }
  else if code = 0x46 then
    { base with h := { t with ksid := imm }, noise := nadd na (eLks c c.n), causes := one }
  else if code = 0x47 then
    let bad := decide (k16 = 0 ∨ k16 > c.mbits)
    { base with h := { t with count := if bad then a.count else k16 }, noise := pbs,
                causes := one ++ causeIf bad pDomain ++ causeIf (decide (na > noiseBound c a.count)) pNoise }
  else if code = 0x48 then
    let n := noiseClamp (nadd (noiseClamp (na + 256)) nb)
    { base with h := { t with count := 2 }, noise := pbs,
                causes := commonCauses sets ops [scIn, scIn] ++ causeIf (decide (a.count ≠ 2 ∨ b.count ≠ 2)) pParam
                  ++ causeIf (decide (k16 > 15)) pDomain ++ causeIf (decide ((n : Int) > noiseBound c 2)) pNoise }
  else if code = 0x49 then
    let bad := decide (k16 < 2 ∨ k16 > 56)
    { base with h := { t with flooded := true }, noise := if bad then na else nadd na (256 * k16),
                causes := one ++ causeIf bad pDomain }
  else  -- L_NEG (0x42)
    { base with causes := one }

/-- N_EXTRACT (R149): the target key set is named by the immediate, its parameter set `tset` comes from the key
directory; `m` is the message-bit count of the outputs. A hand plan may name a key set that is not there; no rule names that
outcome: the output is poisoned with PARAM_MISMATCH, has the fields that N_EXTRACT gives it (R88, R149), and keeps operand 0's PSET,
because no target set is known (DESIGN CHOICE, log entry 151). -/
def extractStage (sets : List CustomSet) (ops : List Hdr) (imm : Nat) (tset : Option CustomSet) (m : Nat) : HdrOut :=
  let a := ops.headD {}
  let src := (psetOf sets (BitVec.ofNat 16 a.pset)).getD { setno := 0, scalar := false, logn := 0 }
  let bad := ops.any (fun h => !fieldsAllowed sets h) || decide (a.kind ≠ 1) || decide (ops.length ≠ 1)
  match tset with
  | none => { h := { a with kind := 2, level := 0, count := m, ksid := imm, comps := 1, ntt := false, chk := false }, causes := [pParam] }
  | some c =>
    let n := nadd ((a.noise : Int) - a.scale + (setLQ c : Nat) - 256 * (m + 1)) (eS2l c (setN src))
    { h := { a with kind := 2, level := 0, count := m, pset := c.setno.toNat, ksid := imm, comps := 1,
                    ntt := false, chk := false },
      noise := nadd n (eLks c (c.k * setN c)),
      causes := causeIf bad pParam ++ causeIf (decide (m > c.mbits)) pDomain }

/-- Whether a code is that of a primitive that writes a header of its own (*Slot primitives*, *Scalar primitives*, and
N_EXTRACT of R463). -/
def primCode (code : Nat) : Bool :=
  decide (1 ≤ code ∧ code ≤ 0x13) || decide (0x40 ≤ code ∧ code ≤ 0x49) || decide (code = 0x86)

/-- The output header of a primitive (R465 step 3). -/
def primHeader (sets : List CustomSet) (tset : Option CustomSet) (m : Nat) (code : Nat) (ops : List Hdr) (imm : Nat)
    (engine : List Nat) : Hdr :=
  let causes := engine.map (· % 16)
  if code = 0x0C then mrrHdr sets ops engine
  else if code < 0x40 ∨ code = 0x8C then hdrFinish sets ops causes (slotStage sets code ops imm)
  else if code = 0x86 then hdrFinish sets ops causes (extractStage sets ops imm tset m)
  else hdrFinish sets ops causes (scalarStage sets code ops imm)

/-! ## Ingest validation -/

/-- What an ingest validates an object against: a declared header (a planned job, R93) or none (a hand plan, R728). -/
abbrev Declared := Option Hdr

/-- The lowest limb prime an object's payload word must be below (check 9): the prime of payload word `w` (R65). -/
def wordPrime (c : CustomSet) (h : Hdr) (w : Nat) : Nat :=
  if h.kind = 2 then (if w / (c.n + 1) = 0 then c.qa else c.qb)
  else if h.kind = 4 then (if (w / setN c) % 2 = 0 then c.qa else c.qb)
  else limbPrime c h.level ((w / setN c) % slotLimbs h)

/-- Check 9 of *Ingest checks* on a payload. -/
def residuesBelow (c : CustomSet) (h : Hdr) : Nat → List Word → Bool
  | _, [] => true
  | w, x :: xs => decide (x.toNat < wordPrime c h w) && residuesBelow c h (w + 1) xs

/-- The number of the first of *Ingest checks* that an object fails, 0 when it passes all. `hb` holds the 64 header
bytes, `pay` the payload words read (OBJWORDS − 16 of them). -/
def ingestCheck (sets : List CustomSet) (d : Declared) (hb : List Byte) (pay : List Word) (objPay : Nat) : Nat :=
  let h := hdrParse hb
  let set := psetOf sets (BitVec.ofNat 16 h.pset)
  let plenOk : Bool := match set with
    | some c => decide (h.plen = plenOf c h)
    | none => false
  if h.magic ≠ 0x5EA1 then 1
  else if h.hcrc ≠ crc32c (hb.take 44) then 2
  else if h.version ≠ 1 then 3
  else if (match d with
      | some e => decide (h.kind ≠ e.kind ∨ h.pset ≠ e.pset ∨ h.ksid ≠ e.ksid ∨ h.level ≠ e.level
          ∨ h.comps ≠ e.comps ∨ h.scale ≠ e.scale ∨ h.count ≠ e.count)
      | none => false) then 4
  else if h.flagsRes ≠ 0 ∨ h.pflagsRes ≠ 0 ∨ h.unconf = true ∨ zeroField hb 48 16 = false then 5
  else if !fieldsAllowed sets h || (match d with
      | some e => (h.ntt != e.ntt) || (h.chk != e.chk)
      | none => false) then 6
  else if !plenOk || (d.isNone && decide (h.plen ≠ objPay)) then 7
  else if crc32c (bytesOf pay) ≠ h.pcrc then 8
  else match set with
    | some c => if residuesBelow c h 0 pay then 0 else 9
    | none => 6

/-- The header an ingest stores for an object whose first failed check is `chk` (R94, R728), with OBJID `objid` of R51
(or the walk index of R728) when check 2 did not pass. R728 tells only check 2 passed from check 2 failed; an object of a hand plan
that fails check 1 counts as one that failed check 2, because its CRC was not looked at (DESIGN CHOICE, log entry 151). -/
def ingestFailHdr (d : Declared) (hb : List Byte) (chk objPay objid : Nat) : Hdr :=
  let own := hdrParse hb
  let crcOk := decide (own.hcrc = crc32c (hb.take 44) ∧ chk ≠ 1)
  let base : Hdr := match d with
    | some e => e
    | none => if crcOk then own else { kind := 0 }
  { base with magic := 0x5EA1, version := if d.isNone && crcOk then own.version else 1,
              poison := 1, upstream := false, multi := false, pflagsRes := 0, flagsRes := 0, unconf := false,
              noise := 0xFFFF, plen := objPay,
              objid := if crcOk then own.objid else objid }

/-- The header an ingest stores for an object that passes every check but carries poison (R95). -/
def ingestPoisonHdr (hb : List Byte) (objPay : Nat) : Hdr :=
  { hdrParse hb with upstream := true, noise := 0xFFFF, plen := objPay }

end Sys2Proof.Machine
end

