-- ==== Sys2Proof/Machine/Audit.lean ====
section
/-! DEFINITION. Check-limb audits (R681 to R684): the comparison of a main and a shadow copy, what a failed one leaves, and
the comparisons of AUDIT 3 at the output of every key switch. -/
namespace Sys2Proof.Machine

/-- The 64 bytes of a header slot; a slot nothing has written holds zeros (R734). -/
def hdrSlot (c : Cluster) (s : Nat) : List Byte :=
  match tget [] c.headers s with
  | [] => zeros 64
  | b => b

/-- The header of an egressed object after a cause of the egress itself: the object keeps an earlier code with MULTI, or
takes the cause (R87), with a zero payload. -/
def egressCause (hb : List Byte) (plen code : Nat) : List Byte :=
  let h := hdrParse hb
  if h.poison ≠ 0 then hdrBytes { h with multi := true } h.pcrc
  else hdrBytes { h with poison := code, noise := 0xFFFF, upstream := false } (zeroPcrc plen)

/-- Whether the main and the shadow copy of one part agree (R683): header bytes 0 to 43 and the words of the check
limb. -/
def shadowSame (m : Module) (x : Shadow) : Bool :=
  let a := clAt m x.cl
  let b := clAt m x.shCl
  decide ((hdrSlot a x.slot).take 44 = (hdrSlot b x.shSlot).take 44
    ∧ scrRun a [] x.at_ x.len = scrRun b [] x.shAt x.len)

/-- The parts of an audited object in header slot `slot` of cluster `cl`. -/
def shadowsOf (j : Job) (cl slot : Nat) : List Shadow :=
  j.shadows.filter (fun x => decide (x.cl = cl ∧ x.slot = slot))

/-- One audit comparison counted (R683, R684): a mismatch asks for a replay. The answer says whether it fails where it
stands, without a replay (R679). -/
def auditParts (m : Module) (tag : Nat) (parts : List Shadow) : Module × Bool :=
  if parts = [] then (m, false)
  else
    let same := parts.all (shadowSame m)
    let m1 := onQuay m (fun q => { q with audits := q.audits + 1, auditFails := if same then q.auditFails else q.auditFails + 1 })
    let m2 := onJob m1 tag (fun j => { j with auditRan := true })
    if same then (m2, false)
    else if jobReplays m2 tag then (askReplay m2 tag .audit, false) else (m2, true)

/-- The groups of audited parts that one object makes: those that share a slot number of the main copy. -/
def shadowGroups (j : Job) : List (List Shadow) :=
  (List.range 1024).filterMap (fun s =>
    let g := j.shadows.filter (fun x => decide (x.slot = s))
    if g = [] then none else some g)

/-- Rows marked as poisoned (R467). -/
def markRows (rows : List (Nat × Nat)) (t : Tab Bool) : Tab Bool :=
  rows.foldl (fun t p => (List.range p.2).foldl (fun t i => tset false t (p.1 + i) true) t) t

/-- AUDIT_FAIL written into one header slot of a cluster: the header, and the rows of its payload, which read zero from then on
(R88, R90, R467). -/
def failSlot (slot : Nat) (c : Cluster) : Cluster :=
  let hb := hdrSlot c slot
  { c with headers := tset [] c.headers slot (egressCause hb (hdrParse hb).plen 10),
           poisoned := markRows (tget [] c.hdrRows slot) c.poisoned }

/-- The job's own copy of an object after AUDIT_FAIL. -/
def failVal (c : Cluster) (slot : Nat) (j : Job) : Job :=
  let i := tget 0 c.hdrPrim slot
  match tget none j.vals (i - 1) with
  | some o =>
    if i = 0 then j
    else { j with vals := tset none j.vals (i - 1) (some { hdr := egressCause o.hdr (hdrParse o.hdr).plen 10,
                                                           pay := List.replicate o.pay.length 0 }) }
  | none => j

/-- AUDIT_FAIL written into the main copy of an audited object (R679): its header slots, its rows, and the object of its
primitive. -/
def failMain (m : Module) (tag : Nat) (parts : List Shadow) : Module :=
  parts.foldl (fun m x => onCl (onJob m tag (failVal (clAt m x.cl) x.slot)) x.cl (failSlot x.slot)) m

/-- The primitives whose output AUDIT 3 compares: S_RELIN, S_MRR, S_ROT, S_ROTH and S_CONJ. -/
def auditedCodes : List Nat := [0x0A, 0x0C, 0x0D, 0x0E, 0x0F]

/-- A copy of an audited object was sealed: when its counterpart already was, the two are compared (R684); else the job
remembers it. `main` says which copy. -/
def auditSealed (m : Module) (tag : Nat) (parts : List Shadow) (main : Bool) : Module :=
  match parts, jobAt m tag with
  | x :: _, some j =>
    if j.sealedOnce.contains (x.slot, !main) then
      let m1 := onJob m tag (fun j => { j with sealedOnce := j.sealedOnce.filter (· ≠ (x.slot, !main)) })
      let g := j.shadows.filter (fun y => decide (y.slot = x.slot))
      match auditParts m1 tag g with
      | (m2, true) => failMain m2 tag g
      | (m2, false) => m2
    else if j.sealedOnce.contains (x.slot, main) then m
    else onJob m tag (fun j => { j with sealedOnce := j.sealedOnce ++ [(x.slot, main)] })
  | _, _ => m

/-- The comparison of AUDIT 3 after the merge of output slot `slot` of the clusters `cls`, sealed by primitive `code`. -/
def auditMerged (m : Module) (tag code slot : Nat) (cls : List Nat) : Module :=
  match jobAt m tag with
  | some j =>
    if j.audit ≠ 3 ∨ !auditedCodes.contains code then m
    else
      let m1 := auditSealed m tag (j.shadows.filter (fun x => decide (x.slot = slot) && cls.contains x.cl)) true
      auditSealed m1 tag (j.shadows.filter (fun x => decide (x.shSlot = slot) && cls.contains x.shCl)) false
  | none => m

end Sys2Proof.Machine
end

