-- ==== Sys2Proof/Machine/Beats.lean ====
section
/-! DEFINITION. The beats of a port (R330 to R332, R336, R339): which words an operation puts into one beat, and the bank cycles that a
beat takes. The manual does not list the words of an engine's beats; a beat here holds 64 consecutive positions of an operand, in
the order in which the operation's indices name them, as the forms of *Beat forms that are always conflict-free* do (DEDUCED, log
entry 15). -/
namespace Sys2Proof.Machine

/-- The bank of a scratchpad word (R23). -/
def bankOf (w : Nat) : Nat := (w % 64) ^^^ (w / 64 % 64)

/-- Bank cycles of a beat (R332): the largest number of its words that share one bank; a word that is delivered to several
positions is read once. -/
def beatCycles (ws : List Nat) : Nat :=
  let bs := (ws.foldl (fun acc w => if acc.contains w then acc else acc ++ [w]) []).map bankOf
  bs.foldl (fun n b => max n (bs.filter (· = b)).length) 0

/-- Whether a beat holds at most 64 words and is free of conflicts (R330, R331). -/
def beatOk (ws : List Nat) : Bool := decide (ws.length ≤ 64 ∧ beatCycles ws ≤ 1)

/-- A-cycles that beats take beyond one each (R332). -/
def extraCycles (bs : List (List Nat)) : Nat := bs.foldl (fun n b => n + (beatCycles b - 1)) 0

/-- The beats of `n` positions: 64 at a time. -/
def beatsOf (n : Nat) (word : Nat → Nat) : List (List Nat) :=
  (List.range ((n + 63) / 64)).map (fun b => (List.range (min 64 (n - 64 * b))).map (fun i => word (64 * b + i) % 2 ^ 21))

/-- The beats of a chain's side operands over an extent: for each group and row or column, the positions of the inner index
(R208). -/
def sideBeats (e : Extent) (inner : Bool) (s : Stage) : List (List Nat) :=
  if !usesSide s then []
  else (List.range e.g).flatMap (fun g =>
    if inner then (List.range e.n).flatMap (fun n => beatsOf e.m (fun m => s.side + g * s.gs + n * s.sn + m * s.sm))
    else (List.range e.m).flatMap (fun m => beatsOf e.n (fun n => s.side + g * s.gs + n * s.sn + m * s.sm)))

/-- The beats of an NTE operation: limb by limb the source words, the destination words and the side words. -/
def nteBeats (c : NteCfg) : List (List Nat) :=
  let n := 2 ^ c.logn
  let limbs (a : Nat) : List (List Nat) := (List.range c.count).flatMap (fun i => beatsOf n (fun j => a + i * c.stride + j))
  (match nteGdecomp c with
    | some s => beatsOf n (c.src + ·) ++ beatsOf n (fun j => c.src + s.sn + j)
    | none => limbs c.src)
  ++ limbs c.dst ++ c.chain.stages.flatMap (sideBeats (nteExtent c) true)

/-- The beats of an RME operation. A transposed A port gathers without conflict (R336). -/
def rmeBeats (c : RmeCfg) (r : Rix) : List (List Nat) :=
  let each (f : Nat → List (List Nat)) (n : Nat) : List (List Nat) := (List.range n).flatMap f
  if c.mode = 2 then
    (if r.mode = 2 then [] else each (fun g => each (fun m => beatsOf (rowWords c.afmt c.k) (fun i => c.aAddr + g * c.aGs + m * c.aS1 + i)) c.m) c.g)
    ++ each (fun g => each (fun n => beatsOf (rowWords c.bfmt c.k) (fun i => c.bAddr + g * c.bGs + n * c.bS1 + i)) c.n) c.g
    ++ each (fun g => each (fun m => beatsOf (rowWords (rmeOutFmt c) c.n) (fun i => c.cAddr + g * c.cGs + m * c.cS1 + i)) c.m) c.g
    ++ c.chain.stages.flatMap (sideBeats (rmeExtent c) false)
  else
    (if r.mode = 2 then []
     else each (fun g => each (fun n => each (fun k => beatsOf c.m (fun m =>
       c.aAddr + g * c.aGs + n * c.aS2 + k * c.aS1 + (if r.mode = 1 then autoPos r.logn r.gal m else m))) c.k) c.n) c.g)
    ++ (if c.bsrc ∨ c.mode ≠ 1 then []
        else each (fun g => each (fun n => each (fun k => beatsOf c.m (fun m => c.bAddr + g * c.bGs + n * c.bS2 + k * c.bS1 + m)) c.k) c.n) c.g)
    ++ each (fun g => each (fun n => beatsOf c.m (fun m => c.cAddr + g * c.cGs + n * c.cS1 + m)) (rmeOutputs c)) c.g
    ++ c.chain.stages.flatMap (sideBeats (rmeExtent c) true)

/-- The beats of a VEC operation: row by row its streams and its mask. -/
def vecBeats (c : VecCfg) (r : Rix) : List (List Nat) :=
  (List.range c.rows).flatMap (fun row =>
    (vInsOn c).flatMap (fun p => if r.mode = 2 ∧ p.2 = 0 then [] else beatsOf c.elems (vecInWord c r p.2 p.1 row))
    ++ (c.outs.filter (·.on)).flatMap (fun s => beatsOf c.elems (fun j => s.base + row * s.rstr + j * s.estr))
    ++ (if c.masken then beatsOf (ceilDiv c.elems 32) (fun j => c.maskAddr + row * c.maskRstr + j) else [])
    ++ (if c.redOp ≠ 0 then beatsOf 2 (fun j => c.redAddr + row * c.redRstr + j) else []))

/-- The beats of an operation with the port controls of its start. -/
def opBeats (e : Engine) (cfg rix : Tab Word) : List (List Nat) :=
  match e with
  | .nte => nteBeats (nteCfg cfg)
  | .rme => rmeBeats (rmeCfg cfg) (rixOf rix 0)
  | .vec => vecBeats (vecCfg cfg) (rixOf rix 1)

end Sys2Proof.Machine
end

