-- ==== Sys2Proof/Machine/Score.lean ====
section
/-! DEFINITION. The scoreboard and the starts of engine operations (R452 to R461, R167, R191), the key tokens a start
waits for (R460, R321). -/
namespace Sys2Proof.Machine

/-! ## What an operation declares -/

/-- The VPROG stage of an anchor's configuration. -/
def cfgVprog (e : Engine) (cfg : Tab Word) : Option Stage :=
  if e = .vec then none else (chainOf cfg).stages.find? (fun s => decide (s.op = 0x18))

/-- Whether the VEC is reserved by the chain of an engine other than `e`. -/
def vecReservedBy (c : Cluster) (e : Engine) : Bool :=
  [(Engine.nte, c.nte), (Engine.rme, c.rme)].any (fun p => decide (p.1 ≠ e) && (match p.2.run with
    | some o => (cfgVprog p.1 o.regs).isSome
    | none => false))

/-- Whether the VEC lets an operation of engine `e` begin (R205): a chain with a VPROG stage needs the VEC idle and reserved by no
other chain. -/
def vecAllows (c : Cluster) (e : Engine) (cfg : Tab Word) : Bool :=
  match e with
  | .vec => !vecReservedBy c .vec
  | _ => (cfgVprog e cfg).isNone || (c.vec.run.isNone && c.vec.pend.isNone && !vecReservedBy c e)

/-- The refusal of a configuration (R174, R189, R206, R207, R253, R254). -/
def opRefused (cl : Nat) (e : Engine) (cfg rix : Tab Word) : Option Refused :=
  match e with
  | .nte => nteRefused cl (nteCfg cfg)
  | .rme => rmeRefused cl (rmeCfg cfg) (rixOf rix 0)
  | .vec => vecRefused cl (vecCfg cfg) (rixOf rix 1)

/-- Byte `i` of a list at word address `a` (R180), its words read by `rd`. -/
def listByte (rd : Nat → Word) (a i : Nat) : Nat := bits (rd (a % 2 ^ 21 + i / 4)).toNat (8 * (i % 4) + 7) (8 * (i % 4))

/-- Modulus entry of A[g][·][k] in BCAST (*Residue-mode operands*). -/
def rmeEntryA (rd : Nat → Word) (c : RmeCfg) (g k : Nat) : Nat :=
  if c.aml then listByte rd c.amlAddr (g * c.k + k) else (c.amidx + (g * c.k + k) * c.amstep) % 256

/-- Modulus entry of output n. -/
def rmeEntryC (rd : Nat → Word) (c : RmeCfg) (g n : Nat) : Nat :=
  if c.cml then listByte rd c.cmlAddr (g * c.n + n) else (c.cmidx + (g * c.n + n) * c.cmstep) % 256

/-- The modulus entries an RME operation names (R167). -/
def rmeEntries (rd : Nat → Word) (c : RmeCfg) : List Nat :=
  if c.mode = 2 then []
  else (List.range c.g).flatMap (fun g =>
    (if c.mode = 0 then (List.range c.k).map (rmeEntryA rd c g) else [])
      ++ (List.range c.n).map (rmeEntryC rd c g))

/-- `n` words from local word `a`, read by `rd`. -/
def runBy (rd : Nat → Word) (a n : Nat) : List Word := (List.range n).map (fun i => rd (a % 2 ^ 21 + i))

/-- The program of a VEC operation, its words read by `rd`. -/
def vecProg (rd : Nat → Word) (v : VecCfg) : List Word := runBy rd v.padr v.nuop

/-- The program of a VPROG stage, its words read by `rd`. -/
def stageProg (rd : Nat → Word) (s : Stage) : List Word := runBy rd (s.imm0 % 2 ^ 30) (s.imm1 % 64)

/-- Whether the program of a VPROG stage breaks R253 or R258. -/
def vprogBad (c : Cluster) (e : Engine) (cfg : Tab Word) : Bool :=
  match cfgVprog e cfg with
  | some s => (stageProg (scrWord c []) s).any (fun u => !uopOk false 0 0 u || !uopInChain u)
  | none => false

/-- The local words that an operation reads as it starts: its modulus lists (R167), its program, and the program of a VPROG
stage (R253, R258). -/
def sideWords (e : Engine) (cfg : Tab Word) : List Nat :=
  let run (a n : Nat) : List Nat := (List.range n).map (a % 2 ^ 21 + ·)
  (match e with
    | .nte => []
    | .rme =>
      let c := rmeCfg cfg
      (if c.aml ∧ c.mode = 0 then run c.amlAddr (ceilDiv (c.g * c.k) 4) else [])
        ++ (if c.cml ∧ c.mode ≠ 2 then run c.cmlAddr (ceilDiv (c.g * c.n) 4) else [])
    | .vec => run (vecCfg cfg).padr (vecCfg cfg).nuop)
  ++ (match cfgVprog e cfg with
    | some s => run (s.imm0 % 2 ^ 30) (s.imm1 % 64)
    | none => [])

/-- The word of a list or a program as a running operation latched it. -/
def RunOp.word (o : RunOp) (a : Nat) : Word := tget 0 o.side a

/-- The modulus entries a configuration names (R167). -/
def opEntries (c : Cluster) (e : Engine) (cfg : Tab Word) : List Nat :=
  match e with
  | .nte => nteEntries (nteCfg cfg)
  | .rme => rmeEntries (scrWord c []) (rmeCfg cfg)
  | .vec => vecEntries (vecCfg cfg) (vecProg (scrWord c []) (vecCfg cfg))

/-- Whether every entry that a configuration names has completed its validation (R167). -/
def entriesReady (c : Cluster) (e : Engine) (cfg : Tab Word) : Bool :=
  c.mods.all (fun p => !p.2.busy) || (opEntries c e cfg).all (fun i => !(tget {} c.mods i).busy)

/-- The parameter sets known to a job: the image's and the graph's own. -/
def jobSetsOf (m : Module) (tag : Nat) : List CustomSet :=
  m.quay.imageSets ++ (m.quay.jobSets.filter (fun p => decide (p.1 = tag))).map (·.2)

/-! ## Key deliveries -/

/-- The key window of job `tag` on cluster `cl`. -/
def windowOf (m : Module) (cl tag : Nat) : Option KeyWindow :=
  (dieAt m (dieOf cl)).windows.find? (fun w => decide (w.cl = cl % 64 ∧ w.job = tag))

/-- Insertion of a frame in the order of landing. -/
def insFrame (x : Nat × Frame) : List (Nat × Frame) → List (Nat × Frame)
  | [] => [x]
  | y :: ys => if x.2.seq ≤ y.2.seq then x :: y :: ys else y :: insFrame x ys

/-- The frames of a window that a new delivery can still read, in the order in which they landed (DEDUCED, log entry
22). -/
def openFrames (w : KeyWindow) : List Nat :=
  ((w.frames.filter (fun p => decide (p.2.st = 2 ∧ p.2.reading < p.2.left))).foldr insFrame []).map (·.1)

/-- Frames that the Ferry stream of an EWMAC takes: one row of ⌈M ÷ 1,024⌉ frames for each g, n and k. -/
def streamNeed (c : RmeCfg) : Nat :=
  if c.bsrc && decide (c.mode = 1) then c.g * c.n * c.k * ceilDiv c.m 1024 else 0

/-- Frames that the A range overlaps (R460). -/
def aFrames (w : KeyWindow) (c : RmeCfg) (rix : Rix) : List Nat :=
  let s := if rix.mode = 2 then transposedSpan rix else rmeASpan c
  let lo := s.lo % 2 ^ 21
  let hi := s.hi % 2 ^ 21
  if hi < w.base ∨ w.base + 1024 * w.size ≤ lo then []
  else
    let f0 := (max lo w.base - w.base) / 1024
    let f1 := (min hi (w.base + 1024 * w.size - 1) - w.base) / 1024
    (List.range (f1 + 1 - f0)).map (f0 + ·)

/-- What a start needs of the key window: the frames it reads, whether all of them are STAGED, and the snapshot's OBJECT,
WANT and HAVE (R460, R503). -/
structure KeyNeed where
  delivers : Bool := false
  ready : Bool := true
  frames : List Nat := []
  obj : Nat := 0
  want : Nat := 0
  have_ : Nat := 0

/-- The key need of a configuration on cluster `cl` for job `tag`. -/
def keyNeed (m : Module) (cl tag : Nat) (e : Engine) (cfg rix : Tab Word) : KeyNeed :=
  match e with
  | .rme =>
    let c := rmeCfg cfg
    let n := streamNeed c
    match windowOf m cl tag with
    | none => { delivers := decide (n ≠ 0), ready := decide (n = 0), want := n }
    | some w =>
      let a := aFrames w c (rixOf rix 0)
      let st := (openFrames w).take n
      let staged := a.filter (fun f => decide ((tget {} w.frames f).st = 2))
      let missing := (List.range w.size).filter (fun f => decide ((tget {} w.frames f).st ≠ 2)
        && (a.contains f || decide (st.length < n)))
      { delivers := decide (n ≠ 0) || decide (a ≠ []), ready := decide (st.length = n ∧ staged.length = a.length),
        frames := st ++ a.filter (fun f => !st.contains f),
        obj := match missing with
          | f :: _ => cl * 2 ^ 21 + w.base + 1024 * f
          | [] => 0,
        want := n + a.length, have_ := st.length + staged.length }
  | _ => {}

/-- The key kinds that a record's code names (*Slot primitives*, *Scalar primitives*, *Network operations*). -/
def keyKinds (code : Nat) : List Nat :=
  if code = 0x0A ∨ code = 0x0C ∨ code = 0x83 then [1]
  else if code = 0x0D ∨ code = 0x0E ∨ code = 0x80 ∨ code = 0x81 ∨ code = 0x84 ∨ code = 0x85 then [2]
  else if code = 0x0F then [3]
  else if code = 0x46 then [9]
  else if code = 0x47 ∨ code = 0x48 ∨ code = 0x89 ∨ code = 0x8A ∨ code = 0x8B then [8, 9]
  else if code = 0x86 then [2, 3, 6, 9]
  else if code = 0x87 then [1, 2, 7]
  else if code = 0x88 then [1, 2, 3, 6, 7, 8, 9]
  else if code = 0x8C then [1, 2, 3, 4, 5]
  else []

/-! ## Starting an operation -/

/-- Rows of `c` that are poisoned and that a configuration declares as written (R467). -/
def clearedRows (c : Cluster) (ranges : List Declared1) : List Nat :=
  (c.poisoned.filter (fun p => ranges.any (fun d =>
    d.2 && decide (rowOf (d.1.lo % 2 ^ 21) ≤ p.1 ∧ p.1 ≤ rowOf (d.1.hi % 2 ^ 21))))).map (·.1)

/-- More rows that read 0 for a running operation. -/
def withZero (rows : List Nat) (e : EngineState) : EngineState :=
  { e with run := e.run.map (fun r => { r with zeroRows := r.zeroRows ++ rows }) }

/-- The operation of the pending set begins (R167, R169, R191, R340, R467): it latches its configuration, the modulus table, the
port controls and the words of its lists and programs, and the rows it declares as written stop being poisoned for every later
operation. `lost`: one of the words it latches is uncorrectable and no replay clears that. -/
def beginOp (now : Nat) (e : Engine) (p : PendOp) (lost : Bool) (c : Cluster) : Cluster :=
  let g := engOf c e
  let rows := clearedRows c (opRanges e g.cfg c.rix)
  let run : RunOp := { regs := g.cfg, moduli := c.mods, rix := c.rix, ctx := p.ctx, job := p.job, opid := p.opid,
                       dflag := p.dflag, record := p.record, frames := p.frames, zeroRows := rows, startedAt := now,
                       stage := p.stage, memUnc := lost,
                       side := (sideWords e g.cfg).foldl (fun t a => tset 0 t a (scrWord c [] a)) [] }
  let c1 := { c with nte := withZero rows c.nte, rme := withZero rows c.rme, vec := withZero rows c.vec,
                     poisoned := c.poisoned.filter (fun q => !rows.contains q.1) }
  onEng c1 e (fun g => { g with run := some run, pend := none })

/-- Every started stream goes on reading 0 from the rows of cluster `cl` that stop being poisoned (R467). -/
def zeroStreams (cl : Nat) (rows : List Nat) (m : Module) : Module :=
  let more (o : Option Stream) : Option Stream := o.map (fun s => { s with zeroRows := s.zeroRows ++ rows.map (fun r => (cl, r)) })
  if rows = [] then m
  else { m with dies := m.dies.map (fun p => (p.1, { p.2 with
    ste := p.2.ste.map (fun e => (e.1, { e.2 with active := more e.2.active, shadow := more e.2.shadow })) })) }

/-- The operation of the pending set begins on cluster `cl`: the words it latches are read (R345 to R351). -/
def beginAt (m : Module) (cl : Nat) (e : Engine) (p : PendOp) : Module :=
  let c := clAt m cl
  let ws := sideWords e (engOf c e).cfg
  let m1 := zeroStreams cl (clearedRows c (opRanges e (engOf c e).cfg c.rix)) m
  onCl (scrAccess m1 cl p.job ws []) cl (beginOp m.now e p (readsLost c ws && !jobReplays m p.job))

/-- Conflicts of declared ranges with the scoreboard (R455): any read-before-fill, any overwrite-before-drain. -/
def scbConflicts (scb : List ScbEntry) (ranges : List Declared1) : Bool × Bool :=
  let hit (d : Declared1) (e : ScbEntry) : Bool :=
    decide (d.1.lo % 2 ^ 21 ≤ e.hi ∧ e.lo ≤ d.1.hi % 2 ^ 21) && (d.2 || e.wr)
  (ranges.any (fun d => !d.2 && scb.any (hit d)), ranges.any (fun d => d.2 && scb.any (hit d)))

/-- Scoreboard entries of an operation. -/
def scbEntries (ranges : List Declared1) (k eng opid : Nat) : List ScbEntry :=
  ranges.map (fun d => { lo := d.1.lo % 2 ^ 21, hi := d.1.hi % 2 ^ 21, wr := d.2, ctx := k, eng := eng, opid := opid })

/-- A hold of the scoreboard counted in SCB_HOLD_RBF, SCB_HOLD_OBD or SCB_HOLD_FULL, once per a-cycle of hold. -/
def countHold (cause : Nat) (again : Bool) (c : Cluster) : Cluster :=
  if again then c
  else if cause = 1 then { c with holdRbf := satAdd c.holdRbf 1 }
  else if cause = 2 then { c with holdObd := satAdd c.holdObd 1 }
  else { c with holdFull := satAdd c.holdFull 1 }

/-- Whether context `x` has already counted a hold of its next instruction in this a-cycle. -/
def heldNow (now : Nat) (x : Context) : Bool := decide (x.holdRun = some (x.pc, now))

/-- Whether context `k` of a cluster runs unchecked: its bit of SCB_CTRL is set and it serves a hand plan (R461, R462). -/
def runsUnchecked (m : Module) (cl k : Nat) : Bool :=
  (clAt m cl).unchecked.getLsbD k && !plannedAt m (ctxOf (clAt m cl) k).job

/-- The scoreboard's verdict on a start, `un` in unchecked mode: the slip cause, or none (R455, R456, R458, R461). -/
def scbCause (c : Cluster) (un : Bool) (ranges : List Declared1) : Option Nat :=
  let (rbf, obd) := scbConflicts c.scb ranges
  let free := decide (c.scb.length + ranges.length ≤ 64)
  if rbf && !un then some 1 else if obd && !un then some 2 else if !free then some 3 else none

/-- The record of an S_MRR after one more operation is bound to it (R117): its S_RELIN stage begins with the first NTE operation
or key delivery, its S_RESCALE stage with the first NTE operation after a VEC operation that follows the key deliveries
(DEDUCED, log entry 12). -/
def mrrAdvance (e : Engine) (keys : Bool) (r : Record) : Record :=
  if r.code ≠ 0x0C then r
  else if keys then { r with stage := max 1 r.stage, keyed := true }
  else if r.stage = 0 then (if e = .nte then { r with stage := 1 } else r)
  else if e = .vec then { r with summed := r.keyed }
  else if e = .nte ∧ r.summed = true then { r with stage := 2 }
  else r

/-- The operation that a START names enters the scoreboard and waits as PENDING (R191, R454). -/
def startOp (e : Engine) (p : PendOp) (ranges : List Declared1) (conflict : Bool) (c : Cluster) : Cluster :=
  let c1 := { c with
    scb := c.scb ++ scbEntries ranges p.ctx (engNo e) p.opid, nextOp := p.opid + 1,
    conflicts := if conflict then satAdd c.conflicts 1 else c.conflicts }
  let c2 := onEng c1 e (fun g => { g with pend := some p })
  match p.record with
  | some r => onCtx c2 p.ctx (fun x => { x with records := tmod {} x.records r (fun r =>
      { mrrAdvance e (decide (p.frames ≠ [])) r with bound := r.bound + 1 }) })
  | none => c2

/-- The frames of a delivery are being read (R313). -/
def readFrames (frames : List Nat) (w : KeyWindow) : KeyWindow :=
  { w with frames := frames.foldl (fun t f => tmod {} t f (fun x => { x with reading := x.reading + 1 })) w.frames }

/-- The window of job `tag` on cluster `cl` changed. -/
def onWindow (m : Module) (cl tag : Nat) (f : KeyWindow → KeyWindow) : Module :=
  onDie m (dieOf cl) (fun d => { d with
    windows := d.windows.map (fun w => if w.cl = cl % 64 ∧ w.job = tag then f w else w) })

/-- The context of a START whose beats take `n` bank cycles beyond the first of each: they are recorded as a slip (R332,
R438). -/
def bankSlip (n : Nat) (x : Context) : Context :=
  if n = 0 then x
  else { x with slipTotal := min (x.slipTotal + n) (2 ^ 32 - 1), slipEvents := min (x.slipEvents + 1) (2 ^ 32 - 1),
                lastCause := 10, lastOffset := x.pc }

/-- The bank cycles of an operation with beats `bs` that context `k` of cluster `cl` has issued, beyond the first of each. Only
unchecked contexts issue beats that are not conflict-free (R332). -/
def bankSlips (m : Module) (cl k : Nat) (bs : List (List Nat)) : Module :=
  if runsUnchecked m cl k then onCl m cl (fun c => onCtx c k (bankSlip (extraCycles bs))) else m

/-- START of the NTE, the RME or the VEC (R332, R451, R454 to R461, R321, R167). -/
def startEngine (cl k : Nat) (m : Module) (x : Context) (e : Engine) (w1 : Nat) : Res :=
  let c := clAt m cl
  let g := engOf c e
  let rec_ := bits w1 19 16
  let recEn := bit w1 20
  let r := tget {} x.records rec_
  let ranges := opRanges e g.cfg c.rix
  let need := keyNeed m cl x.job e g.cfg c.rix
  if recEn && !r.isOpen then .kill .streamInvalid m
  else if g.pend.isSome || (decide (e ≠ .vec) && !vecAllows c e g.cfg) then .hold 4 0 0 0 m
  else match opRefused cl e g.cfg c.rix with
    | some .cfg => .kill .cfgInvalid m
    | some .addr => .kill .addrInvalid m
    | none =>
      if need.delivers && (!recEn || decide (keyKinds r.code = [])) then .kill .cfgInvalid m
      else if !entriesReady c e g.cfg then .idle
      else match scbCause c (runsUnchecked m cl k) ranges with
        | some cause => .hold cause 0 0 0 (onCl m cl (countHold cause (heldNow m.now x)))
        | none =>
          let now_ := g.run.isNone && vecAllows c e g.cfg
          if !need.ready then .hold 5 need.obj need.want need.have_ m
          else if now_ && vprogBad c e g.cfg then .kill .cfgInvalid m
          else
            let (rbf, obd) := scbConflicts c.scb ranges
            let p : PendOp := { ctx := k, job := x.job, opid := c.nextOp,
                                dflag := if bit w1 8 then some (w1 % 256) else none,
                                record := if recEn then some rec_ else none, frames := need.frames,
                                stage := if recEn then (mrrAdvance e (decide (need.frames ≠ [])) r).stage else 0 }
            let m1 := if need.frames = [] then m else onWindow m cl x.job (readFrames need.frames)
            let m2 := onCl m1 cl (startOp e p ranges (rbf || obd))
            let m2 := if now_ then beginAt m2 cl e p else m2
            .done 1 (bankSlips m2 cl k (opBeats e g.cfg c.rix))

/-- START (R451, R733): ENGINE 4 belongs to STE_STREAM_START. -/
def startBody (cl k : Nat) (m : Module) (x : Context) (ws : List Word) : Res :=
  let eng := argOf ws % 16
  let w1 := wd ws 1
  if eng = 4 then .idle
  else if eng > 2 ∨ argOf ws / 16 ≠ 0 ∨ lenOf ws ≠ 1 ∨ bits w1 15 9 ≠ 0 ∨ w1 / 2 ^ 21 ≠ 0 then .kill .streamInvalid m
  else startEngine cl k m x (engOfNo eng) w1

/-- An engine that is idle moves its started pending set to running (R191), once the named entries are validated. The port
controls are those of now (R340) and so are the program's words: an operation that they make refusable is refused (DEDUCED, log entry
157). -/
def pendingStartStep (m : Module) (cl : Nat) (e : Engine) : Module :=
  let c := clAt m cl
  let g := engOf c e
  match g.run, g.pend with
  | none, some p =>
    if entriesReady c e g.cfg && vecAllows c e g.cfg then
      match opRefused cl e g.cfg c.rix with
      | some .cfg => killJob m p.job .cfgInvalid none
      | some .addr => killJob m p.job .addrInvalid none
      | none => if vprogBad c e g.cfg then killJob m p.job .cfgInvalid none else beginAt m cl e p
    else m
  | _, _ => m

/-- PENDING_START. -/
def execPendingStart (cl : Fin 512) (e : Engine) (s : State) : Host.Outcome State Fault Refusal :=
  ok s (pendingStartStep s.m cl e)

/-! ## Completion of an operation -/

/-- The deliveries of an operation end: its frames have one delivery less to make (R313). -/
def endDelivery (frames : List Nat) (w : KeyWindow) : KeyWindow :=
  { w with frames := frames.foldl (fun t f =>
      tmod {} t f (fun x => { x with reading := x.reading - 1, left := x.left - 1 })) w.frames }

/-- Whether every page of an operation has been reported (R322). -/
def pagesReported (o : RunOp) : Bool := o.pages.all (fun p => p.report.isSome)

/-- The flags of an operation that was started before the job's latest landing point go into what that point saved too, because
a replay does not run it again (R266, R421). -/
def landFlags (j : Job) (cl opid : Nat) (fl : FFlags) : Job :=
  { j with landing := j.landing.map (fun p =>
      if p.clusters.any (fun c => decide (c.cl = cl ∧ opid < c.nextOp))
      then { p with counts := { p.counts with oflags := p.counts.oflags ||| fl } } else p) }

/-- The completion of the running operation of an engine, once its work and its trailing passes are done and its pages
are reported: the scoreboard entries leave, the record gets its causes, the job its open flags and DFLAG its 1 (R266,
R454, R464, R471). An operation whose job was killed leaves nothing. -/
def opDone (m : Module) (cl : Nat) (e : Engine) : Module :=
  let c := clAt m cl
  match (engOf c e).run with
  | none => m
  | some o =>
    if !o.done || !pagesReported o then m
    else
      let live := (ctxsAll c o.job).contains o.ctx
      let m1 := onCl m cl (fun c =>
        let c1 := onEng { c with scb := c.scb.filter (fun s => decide (s.opid ≠ o.opid)) } e
          (fun g => { g with run := none })
        match o.record with
        | some r => if live then onCtx c1 o.ctx (fun x =>
            { x with records := tmod {} x.records r (fun r => recordDone r (runCauses o)) }) else c1
        | none => c1)
      let m2 := if o.frames = [] then m1 else onWindow m1 cl o.job (endDelivery o.frames)
      let m3 := onJob m2 o.job (fun j => jobFlags (landFlags j cl o.opid o.oflags) o.oflags)
      match o.dflag with
      | some f => addFlag m3 (cl * 256 + f) 1 o.job
      | none => m3

end Sys2Proof.Machine
end

