-- ==== Sys2Proof/Machine/Chain.lean ====
section
/-! DEFINITION. Fused chains (R196 to R226): each stage as a function of its input word, side word, constant and place, in
residues and in FP32, the normalisation of a row, and what one operation reads, writes and raises. -/
namespace Sys2Proof.Machine

/-- What one operation does: a working copy of the cluster whose scratchpad follows its writes, the words read, the words
written with the pages they depend on, and what it raised. -/
structure OpOut where
  c : Cluster
  reads : List Nat := []
  outs : List (Nat × Word × List Nat) := []
  r : Raised := {}

/-- The latched modulus entry `i` of an operation. -/
def entOf (o : RunOp) (i : Nat) : ModEntry := tget {} o.moduli (i % 256)

/-- Whether an entry is valid for ring dimension 2^logn (R170). -/
def entFor (e : ModEntry) (logn : Nat) : Bool := e.valid && decide (logn ≤ e.ne.toNat)

/-- ψ_N and its inverse of an entry (R171). -/
def psiN (e : ModEntry) (logn : Nat) : Nat := powMod e.q.toNat e.psi.toNat (2 ^ (e.ne.toNat - logn))
def psiInvN (e : ModEntry) (logn : Nat) : Nat := powMod e.q.toNat e.psiinv.toNat (2 ^ (e.ne.toNat - logn))

/-- ψ_N^(a·e_j) for position `j` (R200): e_j = 2·brv(j) + 1, and `a` is taken modulo 2N. -/
def twistFactor (e : ModEntry) (logn : Nat) (a : Int) (j : Nat) : Nat :=
  powMod e.q.toNat (psiN e logn) (((a * (2 * brv logn j + 1 : Nat)) % (2 ^ (logn + 1) : Nat)).toNat)

/-- The place of a word in a chain: its prime's entry, ring dimension, group, output, position along m (j), and the index
of its constant. -/
structure Place4 where
  ent : ModEntry
  logn : Nat
  g : Nat
  n : Nat
  m : Nat
  j : Nat
  cidx : Nat

/-- Side address of a stage (*Stage descriptor*). -/
def sideAddr (s : Stage) (p : Place4) : Nat := (s.side + p.g * s.gs + p.n * s.sn + p.m * s.sm) % 2 ^ 21

/-- A stage result: the word, what it raised besides, and the words read. -/
structure StageOut where
  v : Nat
  dom : Bool := false
  inv : Bool := false
  fl : FFlags := 0
  reads : List Nat := []
  dead : Bool := false

/-- The environment of a VPROG program (R257). -/
def vprogEnv (o : RunOp) (ent : ModEntry) : ElemEnv :=
  { row := ent, mods := entOf o, cst := fun _ => 0, lut := fun _ => 0, j := 0, r := 0, qa := 0, qb := 0, w := 0, l := 0 }

/-- A residue stage (*Stage operations*, R203) other than GDECOMP and TWIST2. A stage input at or above its own prime (which
CLIFT meets in another prime's words, and any stage after a VPROG) makes the stage write 0 with CHN_STATUS.DOMAIN, as its
separate form does (R225, R236): DEDUCED, log entry 104. A VPROG that meets an invalid entry writes what the VEC would
(R237); the other stages make the output word 0 (R170). -/
def resStage (c : Cluster) (o : RunOp) (p : Place4) (s : Stage) (v : Nat) : StageOut :=
  let q := p.ent.q.toNat
  let above (x : Nat) : Bool := p.ent.valid && decide (x ≥ q)
  let z := o.zeroRows
  let ca := (s.imm0 % 2 ^ 30 + p.cidx) % 2 ^ 21
  let sa := sideAddr s p
  let sv := (scrWord c z sa).toNat
  let cv := (scrWord c z ca).toNat
  if s.op = 0x01 then
    if above v || above cv then { v := 0, dom := true, reads := [ca] } else { v := v * cv % q, reads := [ca] }
  else if s.op = 0x02 then
    let es := entOf o (s.imm1 % 256)
    let qs := es.q.toNat
    if !es.valid then { v := 0, inv := true, dead := true }
    else if v ≥ qs then { v := 0, dom := true }
    else { v := if v ≤ (qs - 1) / 2 then v % q else intMod q ((v : Int) - qs) }
  else if s.op = 0x04 then
    if !entFor p.ent p.logn then { v := 0, inv := true, dead := true }
    else if above v then { v := 0, dom := true }
    else
      let f := twistFactor p.ent p.logn (signed 32 s.imm0) p.j
      let f := if s.func % 2 = 1 then subMod q f 1 else f
      { v := v * f % q }
  else if s.op = 0x10 then
    if above v || above sv || above cv then { v := 0, dom := true, reads := [sa, ca] }
    else { v := subMod q sv v * cv % q, reads := [sa, ca] }
  else if s.op = 0x12 then
    if above v || above sv then { v := 0, dom := true, reads := [sa] } else { v := (v + sv) % q, reads := [sa] }
  else if s.op = 0x13 then
    if above v || above sv then { v := 0, dom := true, reads := [sa] } else { v := v * sv % q, reads := [sa] }
  else
    let x := elemRun (vprogEnv o p.ent) (stageProg o.word s) [BitVec.ofNat 32 v, scrWord c z sa] true
    { v := (x.v.headD 0).toNat, dom := x.domain, inv := x.modInvalid, fl := x.fl, reads := [sa] }

/-- Stages in order from stage number `i`; DOMAIN and flags of a stage name it in FSTAGE. -/
def resStages (c : Cluster) (o : RunOp) (p : Place4) : Nat → List Stage → Nat → Nat × Raised × List Nat
  | _, [], v => (v, {}, [])
  | i, s :: rest, v =>
    let x := resStage c o p s v
    let (y, r, rd) := resStages c o p (i + 1) rest x.v
    let here : Raised := { modInvalid := x.inv, chnDomain := x.dom, chnFl := x.fl,
                           stage := if x.dom ∨ x.fl ≠ 0 then some i else none, dead := x.dead }
    (y, here.and r, x.reads ++ rd)

/-- A fused NaN result is the default NaN (R226). -/
def fusedNan (r : FRes) : FRes := (if isNan r.1 then nanDefault else r.1, r.2)

/-- ACT: RELU (`func` 0) or CLAMP to ±`bound`. -/
def actWord (func : Nat) (bound v : Word) : FRes :=
  if func = 0 then (if isNan v || fvLt (.fin false 0 0) (fpOf v) then v else 0, 0)
  else if isNan v then (v, 0)
  else
    let x := fpMax v (fpNeg bound)
    let y := fpMin x.1 bound
    (y.1, x.2 ||| y.2)

/-- An FP32 stage that yields FP32 (*Stage operations*). R200 gives the words of an OPEN anchor no prime, so a modular
micro-operation of a VPROG stage meets an entry that is not valid there: 0 and MOD_INVALID (R237; DESIGN CHOICE, log entry 145). -/
def fpStage (c : Cluster) (o : RunOp) (p : Place4) (s : Stage) (v : Word) : StageOut :=
  let sa := sideAddr s p
  let sv := scrWord c o.zeroRows sa
  let b := BitVec.ofNat 32 s.imm1
  let out (x : FRes) (rd : List Nat) : StageOut := { v := (fusedNan x).1.toNat, fl := x.2, reads := rd }
  if s.op = 0x12 then out (fpAdd v sv) [sa]
  else if s.op = 0x13 then out (fpMul v sv) [sa]
  else if s.op = 0x14 then out (actWord s.func b v) []
  else if s.op = 0x18 then
    let x := elemRun (vprogEnv o {}) (stageProg o.word s) [v, sv] true
    { out (x.v.headD 0, x.fl) [sa] with dom := x.domain, inv := x.modInvalid }
  else out (v, 0) []

/-- FP32 stages in order from stage number `i`. -/
def fpStages (c : Cluster) (o : RunOp) (p : Place4) : Nat → List Stage → Word → Word × Raised × List Nat
  | _, [], v => (v, {}, [])
  | i, s :: rest, v =>
    let x := fpStage c o p s v
    let (y, r, rd) := fpStages c o p (i + 1) rest (BitVec.ofNat 32 x.v)
    let here : Raised := { modInvalid := x.inv, chnDomain := x.dom, chnFl := x.fl,
                           stage := if x.dom ∨ x.fl ≠ 0 then some i else none }
    (y, here.and r, x.reads ++ rd)

/-- The sum of a row by the tree of R213. -/
def treeSum (xs : List Word) : FRes :=
  let (r, f) := treeReduce fpAdd (xs.length + 1) (xs.map some)
  (r.getD 0, f)

/-- A list of results with the union of its flags. -/
def flagged (rs : List FRes) : List Word × FFlags := (rs.map (·.1), rs.foldl (fun f r => f ||| r.2) 0)

/-- NORM of a row (R214): FUNC 0 LAYER, FUNC 1 RMS. -/
def normRow (func : Nat) (eps : Word) (xs : List Word) : List Word × FFlags :=
  let n := (fpOfInt (BitVec.ofNat 32 xs.length)).1
  let mean (ys : List Word) : FRes :=
    let t := treeSum ys
    let d := fpDiv t.1 n
    (d.1, t.2 ||| d.2)
  let scale (ds : List Word) : List Word × FFlags :=
    let (sq, f1) := flagged (ds.map (fun x => fpMul x x))
    let v := mean sq
    let a := fpAdd v.1 eps
    let r := fpRsqrt a.1
    let (ys, f2) := flagged (ds.map (fun x => fusedNan (fpMul x r.1)))
    (ys, f1 ||| v.2 ||| a.2 ||| r.2 ||| f2)
  if func = 1 then scale xs
  else
    let mu := mean xs
    let (ds, f1) := flagged (xs.map (fun x => fpSub x mu.1))
    let (ys, f2) := scale ds
    (ys, mu.2 ||| f1 ||| f2)

/-- The words of a row in the last stage's format (R204, R209): CAST, BSCALE, or FP32 as it stands. -/
def rowOut (last : Option Stage) (ws : List Word) : List Word × FFlags :=
  match last with
  | some s =>
    if s.op = 0x16 then
      let rs := ws.map (fpNarrow s.outfmt)
      (packRow s.outfmt (rs.map (·.1)), rs.foldl (fun f r => f ||| r.2) 0)
    else if s.op = 0x17 then
      let bs := (List.range (ceilDiv ws.length 32)).map (fun b => mxBlock s.outfmt ((ws.drop (32 * b)).take 32))
      (packMxF s.outfmt bs.length (bs.map (fun b => (b.1, b.2.1))), bs.foldl (fun f b => f ||| b.2.2) 0)
    else (ws, 0)
  | none => (ws, 0)

/-- The working copy after one more word, which has fresh check bits (R345). -/
def OpOut.put (x : OpOut) (a : Nat) (v : Word) (deps : List Nat) : OpOut :=
  { x with c := { x.c with scratch := mputWords x.c.scratch a [v], spErr := tset 0 x.c.spErr a 0 }, outs := x.outs ++ [(a, v, deps)] }

/-- The working copy after a run of words. -/
def OpOut.putRun (x : OpOut) (a : Nat) (vs : List Word) : OpOut :=
  { x with c := { x.c with scratch := mputWords x.c.scratch a vs,
                           spErr := x.c.spErr.filter (fun p => decide (p.1 < a ∨ a + vs.length ≤ p.1)) },
           outs := x.outs ++ vs.zipIdx.map (fun p => (a + p.2, p.1, [])) }

/-- More that the operation raised and read. -/
def OpOut.see (x : OpOut) (r : Raised) (reads : List Nat) : OpOut := { x with r := x.r.and r, reads := x.reads ++ reads }

/-- The sequencer's copy of the output header while a page of the operation is unconfirmed (R49, R222): UNCONF of the record to which
it is bound. -/
def markUnconf (o : RunOp) (c : Cluster) : Cluster :=
  match o.pages, o.record with
  | [], _ => c
  | _, none => c
  | ps, some r => onCtx c o.ctx (fun x => { x with
      records := tmod {} x.records r (fun r => { r with unconf := ps.any (fun p => p.report.isNone) }) })

/-- Whether every page that a held word depends on is reported. -/
def heldReady (ps : List PageUse) (w : HeldWord) : Bool := w.pages.all (fun i => (ps.getD i { info := {} }).report.isSome)

/-- Whether a page that a held word depends on failed. -/
def heldFailed (ps : List PageUse) (w : HeldWord) : Bool :=
  w.pages.any (fun i => decide (((ps.getD i { info := {} }).report.getD []) ≠ []))

/-- The word that leaves the hold: 0 when it depends on a failed page (R183, R223). -/
def heldVal (ps : List PageUse) (w : HeldWord) : Nat × Word := (w.addr, if heldFailed ps w then 0 else w.val)

/-- The effect of an operation on the module: its reads and writes, its sticky bits, and what its run carries on (R350,
R464). Words that wait for pages are held (R221); `fin` says whether the operation's work is done. An uncorrectable read
that no replay clears is a cause of the primitive's own (R679). -/
def opEffect (m : Module) (cl : Nat) (e : Engine) (o : RunOp) (x : OpOut) (fin : Bool) : Module :=
  let ws := x.outs.map (fun w => ({ addr := w.1, val := w.2.1, pages := w.2.2 } : HeldWord))
  let held := ws.filter (fun w => !heldReady o.pages w)
  let unc := readsLost (clAt m cl) x.reads && !jobReplays m o.job
  let m1 := scrAccess m cl o.job x.reads ((ws.filter (heldReady o.pages)).map (heldVal o.pages))
  onCl m1 cl (fun c => onEng (markUnconf o c) e (fun g =>
    { stick g x.r with
      run := some { runRaised o x.r with done := fin, held := o.held ++ held, memUnc := o.memUnc || unc } }))

/-- The VPROG stage of a chain. -/
def chainVprog (c : Chain) : Option Stage := c.stages.find? (fun s => decide (s.op = 0x18))

/-- The NORM stage of a chain. -/
def chainNorm (c : Chain) : Option Stage := c.epi.find? (fun s => decide (s.op = 0x15))

end Sys2Proof.Machine
end

