-- ==== Sys2Proof/Machine/Hash.lean ====
section
/-! DEFINITION. The hash functions that the manual takes from their standards: SHAKE128 of FIPS 202 with the rejection
sampling of R296, SHA-256 of FIPS 180-4, and the HMAC and HKDF over it (R300, R593, R603, R631). -/
namespace Sys2Proof.Machine

/-! ## Keccak-f[1600] -/

/-- A 64-bit lane. -/
abbrev Lane := BitVec 64

/-- Rotation offsets of the lanes x + 5y. -/
def keccakRot : List Nat :=
  [0, 1, 62, 28, 27, 36, 44, 6, 55, 20, 3, 10, 43, 25, 39, 41, 45, 15, 21, 8, 18, 2, 61, 56, 14]

/-- Round constants. -/
def keccakRc : List Nat :=
  [0x0000000000000001, 0x0000000000008082, 0x800000000000808A, 0x8000000080008000, 0x000000000000808B,
   0x0000000080000001, 0x8000000080008081, 0x8000000000008009, 0x000000000000008A, 0x0000000000000088,
   0x0000000080008009, 0x000000008000000A] ++
  [0x000000008000808B, 0x800000000000008B, 0x8000000000008089, 0x8000000000008003, 0x8000000000008002,
   0x8000000000000080, 0x000000000000800A, 0x800000008000000A, 0x8000000080008081, 0x8000000000008080,
   0x0000000080000001, 0x8000000080008008]

/-- Lane `x`, `y` of a state of 25 lanes. -/
def laneAt (s : List Lane) (x y : Nat) : Lane := s.getD (x % 5 + 5 * (y % 5)) 0

/-- One round: θ, ρ, π, χ, ι. -/
def keccakRound (s : List Lane) (rc : Nat) : List Lane :=
  let c := (List.range 5).map (fun x => (List.range 5).foldl (fun a y => a ^^^ laneAt s x y) 0)
  let d := (List.range 5).map (fun x => c.getD ((x + 4) % 5) 0 ^^^ (c.getD ((x + 1) % 5) 0).rotateLeft 1)
  let t := s.zipIdx.map (fun p => p.1 ^^^ d.getD (p.2 % 5) 0)
  let b := (List.range 25).map (fun i =>
    let x := (i % 5 + 3 * (i / 5)) % 5
    let y := i % 5
    (laneAt t x y).rotateLeft (keccakRot.getD (x + 5 * y) 0))
  let e := (List.range 25).map (fun i =>
    laneAt b (i % 5) (i / 5) ^^^ (~~~(laneAt b (i % 5 + 1) (i / 5)) &&& laneAt b (i % 5 + 2) (i / 5)))
  e.zipIdx.map (fun p => if p.2 = 0 then p.1 ^^^ BitVec.ofNat 64 rc else p.1)

/-- The permutation. -/
def keccakF (s : List Lane) : List Lane := keccakRc.foldl keccakRound s

/-- SHAKE128's state after absorbing a message shorter than one block of 168 bytes. -/
def shakeStart (msg : List Byte) : List Lane :=
  let body := msg ++ [0x1F] ++ zeros (167 - msg.length)
  let blk := body.take 167 ++ [body.getD 167 0 ^^^ 0x80]
  let lanes := (List.range 21).map (fun i => BitVec.ofNat 64 (field blk (8 * i) 8))
  keccakF (lanes ++ List.replicate 4 0)

/-- The 42 candidates of a block: 4 output bytes each, little-endian. -/
def shakeCands (s : List Lane) : List Nat := (s.take 21).flatMap (fun l => [l.toNat % 2 ^ 32, l.toNat / 2 ^ 32])

/-- Candidates of a block taken in turn while words are wanted and the budget lasts: budget, wanted, words so far in
reverse. -/
def takeCands (bits q : Nat) : List Nat → Nat → Nat → List Word → Nat × Nat × List Word
  | [], n, w, acc => (n, w, acc)
  | u :: us, n, w, acc =>
    if w = 0 ∨ n = 0 then (n, w, acc)
    else
      let v := u % 2 ^ bits
      if v < q then takeCands bits q us (n - 1) (w - 1) (BitVec.ofNat 32 v :: acc) else takeCands bits q us (n - 1) w acc

/-- Blocks of output until enough words are drawn. -/
def genBlocks (bits q : Nat) : Nat → List Lane → Nat → Nat → List Word → Option (List Word)
  | 0, _, _, w, acc => if w = 0 then some acc.reverse else none
  | f + 1, s, n, w, acc =>
    let (n1, w1, acc1) := takeCands bits q (shakeCands s) n w acc
    if w1 = 0 then some acc1.reverse
    else if n1 = 0 then none
    else genBlocks bits q f (keccakF s) n1 w1 acc1

/-- The generated words of row `r` for prime `q` (R296): `w` words from a budget of 2w + 4,096 candidates; none when it is
exhausted (R297). -/
def genWords (seed : List Byte) (r p q w : Nat) : Option (List Word) :=
  let bits := Nat.log2 q + 1
  genBlocks bits q (ceilDiv (2 * w + 4096) 42) (shakeStart (seed ++ leBytes 4 r ++ leBytes 1 p)) (2 * w + 4096) w []

/-- Output blocks of SHAKE128 after a state. -/
def shakeOut : Nat → List Lane → List Byte
  | 0, _ => []
  | f + 1, s => (s.take 21).flatMap (fun l => leBytes 8 l.toNat) ++ shakeOut f (keccakF s)

/-- The first `n` output bytes of SHAKE128 over a message shorter than one block. -/
def shakeBytes (msg : List Byte) (n : Nat) : List Byte := (shakeOut (ceilDiv n 168) (shakeStart msg)).take n

/-! ## SHA-256 -/

/-- Whether `n` has no divisor from 2 to `d + 1`. -/
def noDivisor (n : Nat) : Nat → Bool
  | 0 => true
  | d + 1 => decide (n % (d + 2) ≠ 0) && noDivisor n d

/-- The primes up to 311: the first 64. -/
def smallPrimes : List Nat := (List.range 312).filter (fun n => decide (2 ≤ n) && noDivisor n (min 16 (n - 2)))

/-- The largest number below `acc + 2^b` whose `k`-th power is at most `n`, found from the top bit down. -/
def rootBits (k n : Nat) : Nat → Nat → Nat
  | 0, acc => acc
  | b + 1, acc => rootBits k n b (if (acc + 2 ^ b) ^ k ≤ n then acc + 2 ^ b else acc)

/-- The first 32 bits behind the point of the `k`-th root of `p`. -/
def rootFrac (k p : Nat) : Nat := rootBits k (p * 2 ^ (32 * k)) 37 0 % 2 ^ 32

/-- Round constants of SHA-256: from the cube roots of the first 64 primes. -/
def shaK : List Nat := smallPrimes.map (rootFrac 3)

/-- The eight working words. -/
structure ShaState where
  a : Word
  b : Word
  c : Word
  d : Word
  e : Word
  f : Word
  g : Word
  h : Word
  deriving DecidableEq, Repr

/-- The state whose words are `f 0` to `f 7`. -/
def shaOf (f : Nat → Word) : ShaState :=
  { a := f 0, b := f 1, c := f 2, d := f 3, e := f 4, f := f 5, g := f 6, h := f 7 }

/-- The initial hash value: from the square roots of the first 8 primes. -/
def shaInit : ShaState := shaOf (fun i => BitVec.ofNat 32 (rootFrac 2 (smallPrimes.getD i 0)))

/-- One round with schedule word `w` and constant `k`. -/
def shaRound (s : ShaState) (kw : Nat × Word) : ShaState :=
  let s1 := s.e.rotateRight 6 ^^^ s.e.rotateRight 11 ^^^ s.e.rotateRight 25
  let ch := (s.e &&& s.f) ^^^ (~~~s.e &&& s.g)
  let t1 := s.h + s1 + ch + BitVec.ofNat 32 kw.1 + kw.2
  let s0 := s.a.rotateRight 2 ^^^ s.a.rotateRight 13 ^^^ s.a.rotateRight 22
  let maj := (s.a &&& s.b) ^^^ (s.a &&& s.c) ^^^ (s.b &&& s.c)
  { a := t1 + s0 + maj, b := s.a, c := s.b, d := s.c, e := s.d + t1, f := s.e, g := s.f, h := s.g }

/-- The next schedule word from the last sixteen, oldest first. -/
def shaNext (ws : List Word) : Word :=
  let w15 := ws.getD 1 0
  let w2 := ws.getD 14 0
  let s0 := w15.rotateRight 7 ^^^ w15.rotateRight 18 ^^^ (w15 >>> 3)
  let s1 := w2.rotateRight 17 ^^^ w2.rotateRight 19 ^^^ (w2 >>> 10)
  ws.getD 0 0 + s0 + ws.getD 9 0 + s1

/-- `n` schedule words, from the last sixteen. -/
def shaSchedule : Nat → List Word → List Word
  | 0, _ => []
  | n + 1, ws => ws.getD 0 0 :: shaSchedule n (ws.drop 1 ++ [shaNext ws])

/-- Big-endian words of a byte string. -/
def beWords : List Byte → List Word
  | a :: b :: c :: d :: rest => BitVec.ofNat 32 (beNat [a, b, c, d]) :: beWords rest
  | _ => []

/-- One 64-byte block. -/
def shaBlock (s : ShaState) (blk : List Byte) : ShaState :=
  let t := (shaK.zip (shaSchedule 64 (beWords blk))).foldl shaRound s
  { a := s.a + t.a, b := s.b + t.b, c := s.c + t.c, d := s.d + t.d, e := s.e + t.e, f := s.f + t.f, g := s.g + t.g,
    h := s.h + t.h }

/-- Blocks in turn. -/
def shaBlocks : Nat → ShaState → List Byte → ShaState
  | 0, s, _ => s
  | n + 1, s, bs => shaBlocks n (shaBlock s (bs.take 64)) (bs.drop 64)

/-- The digest's 32 bytes. -/
def shaBytes (s : ShaState) : List Byte :=
  [s.a, s.b, s.c, s.d, s.e, s.f, s.g, s.h].flatMap (fun w => beBytes 4 w.toNat)

/-- SHA-256 of a byte string. -/
def sha256 (bs : List Byte) : List Byte :=
  let n := bs.length
  let pad := bs ++ [0x80] ++ zeros ((119 - n % 64) % 64) ++ beBytes 8 (8 * n)
  shaBytes (shaBlocks (pad.length / 64) shaInit pad)

/-- SHA-256 as a number: its 32 bytes, little-endian, so that byte 0 is the low byte. -/
def sha256N (bs : List Byte) : BitVec 256 := BitVec.ofNat 256 (leNat (sha256 bs))

/-- HMAC with SHA-256. -/
def hmac256 (key msg : List Byte) : List Byte :=
  let k0 := if key.length > 64 then sha256 key else key
  let k := k0 ++ zeros (64 - k0.length)
  sha256 (k.map (· ^^^ 0x5C) ++ sha256 (k.map (· ^^^ 0x36) ++ msg))

/-- HKDF's extract step. -/
def hkdfExtract (salt ikm : List Byte) : List Byte := hmac256 salt ikm

/-- HKDF's expand step: `n` blocks from block number `i` after the block `t`. -/
def hkdfBlocks (prk info : List Byte) : Nat → Nat → List Byte → List Byte
  | 0, _, _ => []
  | n + 1, i, t =>
    let b := hmac256 prk (t ++ info ++ [BitVec.ofNat 8 i])
    b ++ hkdfBlocks prk info n (i + 1) b

/-- HKDF's expand step: `len` bytes. -/
def hkdfExpand (prk info : List Byte) (len : Nat) : List Byte :=
  (hkdfBlocks prk info (ceilDiv len 32) 1 []).take len

end Sys2Proof.Machine
end

