-- ==== Sys2Proof/Machine/Keys.lean ====
section
/-! DEFINITION. Key objects, their rows and pages (R290 to R297), and the checks of a key upload (R298 to R305). -/
namespace Sys2Proof.Machine

/-! ## Rows of an object -/

/-- How the rows of a key object lie: its rows, the words of a row and of a stored row, the stored rows, and how stored
rows recur: in each period of `period` rows, the rows from `skip` on below `skip + keep` are stored. -/
structure Geo where
  rows : Nat
  roww : Nat
  sroww : Nat
  stored : Nat
  period : Nat
  skip : Nat
  keep : Nat
  deriving DecidableEq, Repr

/-- Kinds of the switching row order: RLK, ROT, CONJ, DNS. -/
def switchKind (k : Nat) : Bool := [1, 2, 3, 5].contains k

/-- Kinds whose rows are LWE ciphertexts: S2L, LKS. -/
def lweKind (k : Nat) : Bool := decide (k = 6 ∨ k = 9)

/-- The primes that index the rows of a slot kind (R291). -/
def keyBasis (kind : Nat) (c : CustomSet) (chk : Bool) : List Nat :=
  let qc := if chk then [setCheckPrime c] else []
  if switchKind kind then c.qs ++ qc ++ c.ps
  else if kind = 4 then c.qs.take 1 ++ qc ++ c.ps
  else if kind = 7 then c.qs ++ qc
  else [c.qa, c.qb]

/-- Geometry of an object: `c` is the set that owns the key, `peer` the peer scalar set of an S2L object. -/
def geoOf (kind : Nat) (c : CustomSet) (chk seeded : Bool) (peer : Option CustomSet) : Option Geo :=
  let n := setN c
  let nb := (keyBasis kind c chk).length
  let whole (rows roww : Nat) : Geo :=
    { rows := rows, roww := roww, sroww := roww, stored := rows, period := 1, skip := 0, keep := 1 }
  let lwe (rows d : Nat) : Geo := { whole rows (2 * (d + 1)) with sroww := if seeded then 2 else 2 * (d + 1) }
  let part (rows period skip keep : Nat) : Geo :=
    if seeded then { whole rows n with stored := rows / period * keep, period := period, skip := skip, keep := keep }
    else whole rows n
  if kind = 0 ∨ kind > 9 ∨ c.scalar ≠ decide (kind = 8 ∨ kind = 9) then none
  else if switchKind kind then some (part (nb * 2 * c.dnum) (2 * c.dnum) 0 c.dnum)
  else if kind = 4 then some (part (2 * nb) 2 0 1)
  else if kind = 7 then some (part (2 * nb) (2 * nb) 0 nb)
  else if kind = 8 then
    let blk := (c.k + 1) * c.brl
    some (part (c.n * 4 * (c.k + 1) * blk) (4 * (c.k + 1) * blk) (4 * blk) (4 * c.k * blk))
  else if kind = 9 then some (lwe (c.k * n * c.ksl) c.n)
  else peer.map (fun p => lwe (n * 5) (p.k * setN p))

/-- Whether row `r` is stored. -/
def Geo.isStored (g : Geo) (r : Nat) : Bool :=
  decide (g.skip ≤ r % g.period ∧ r % g.period < g.skip + g.keep)

/-- Stored rows below row `r`. -/
def Geo.storedBelow (g : Geo) (r : Nat) : Nat := r / g.period * g.keep + min (r % g.period - g.skip) g.keep

/-- Object row number of stored row `i`. -/
def Geo.storedRow (g : Geo) (i : Nat) : Nat := i / g.keep * g.period + g.skip + i % g.keep

/-- Stored rows of a page (R293). -/
def Geo.perPage (g : Geo) : Nat := 262144 / g.sroww

/-- Pages of an object; none when a stored row is longer than a page. -/
def Geo.pages (g : Geo) : Option Nat := if g.perPage = 0 then none else some (ceilDiv g.stored g.perPage)

/-- The prime of row `r` of a slot kind or BSK object (R291). -/
def rowPrime (kind : Nat) (c : CustomSet) (chk : Bool) (r : Nat) : Nat :=
  let b := keyBasis kind c chk
  if switchKind kind then b.getD (r / (2 * c.dnum)) 0
  else if kind = 4 then b.getD (r / 2) 0
  else if kind = 7 then b.getD (r % b.length) 0
  else
    let n := r / ((c.k + 1) * c.brl) % (4 * (c.k + 1))
    b.getD (n / 2 % 2) 0

/-! ## Page slots -/

/-- A page header (*Key page header*). -/
structure PageHdr where
  magic : Nat
  version : Nat
  kkind : Nat
  spset : Nat
  tpset : Nat
  bind : Nat
  pidx : Nat
  gal : Nat
  obj : Nat
  pflags : Nat
  res : Nat
  frow : Nat
  nrows : Nat
  sroww : Nat
  tcrc : Nat
  hcrc : Nat
  deriving DecidableEq, Repr

/-- The header of a page slot. -/
def pageHdr (b : List Byte) : PageHdr :=
  { magic := field b 0 2, version := field b 2 1, kkind := field b 3 1, spset := field b 4 2, tpset := field b 6 2,
    bind := field b 8 8, pidx := field b 16 4, gal := field b 20 4, obj := field b 24 2, pflags := field b 26 1,
    res := field b 27 1, frow := field b 28 4, nrows := field b 32 4, sroww := field b 36 4, tcrc := field b 40 4,
    hcrc := field b 44 4 }

/-- SEEDED and CHK of a page. -/
def PageHdr.seeded (p : PageHdr) : Bool := bit p.pflags 0
def PageHdr.chk (p : PageHdr) : Bool := bit p.pflags 1

/-- Whether HCRC matches (R295). -/
def hcrcOk (b : List Byte) : Bool := decide (crc32c (b.take 44) = field b 44 4)

/-- Whether TCRC matches. -/
def tcrcOk (b : List Byte) : Bool := decide (crc32c ((b.drop 64).take 1056) = field b 40 4)

/-- Whether every body frame matches its CRC in the frame table (R294). -/
def framesOk (b : List Byte) : Bool :=
  (List.range 256).all (fun f => decide (crc32c ((b.drop (4096 + 4096 * f)).take 4096) = field b (64 + 4 * f) 4))

/-- The set that owns a page's key, and its peer (R295): TPSET is the owning set of L2S and the peer of S2L. -/
def pageSets (sets : List CustomSet) (p : PageHdr) : Option CustomSet × Option CustomSet :=
  (psetOf sets (BitVec.ofNat 16 (if p.kkind = 7 then p.tpset else p.spset)),
   if p.kkind = 6 then psetOf sets (BitVec.ofNat 16 p.tpset) else none)

/-- Geometry of the object of a page; none when its fields name none. -/
def pageGeo (sets : List CustomSet) (p : PageHdr) : Option (CustomSet × Option CustomSet × Geo) :=
  match pageSets sets p with
  | (some c, peer) => (geoOf p.kkind c p.chk p.seeded peer).map (fun g => (c, peer, g))
  | _ => none

/-- The first row and the row after the last that belong to a page (R292); none when its FROW is no stored row. -/
def pageRange (g : Geo) (p : PageHdr) : Option (Nat × Nat) :=
  if p.frow < g.rows ∧ g.isStored p.frow then
    let i := g.storedBelow p.frow
    some (if i = 0 then 0 else p.frow, if i + p.nrows < g.stored then g.storedRow (i + p.nrows) else g.rows)
  else none

/-- `n` body words of a page slot from body word `w`. -/
def bodyWords (b : List Byte) (w n : Nat) : List Word := wordsOf ((b.drop (4096 + 4 * w)).take (4 * n))

/-- The words of a whole object row; none for a generated row or mask that returns EXHAUSTED (R296, R297). -/
def pageRow (b : List Byte) (p : PageHdr) (c : CustomSet) (peer : Option CustomSet) (g : Geo) (r : Nat) :
    Option (List Word) :=
  let seed := (b.drop 1088).take 32
  let i := g.storedBelow r - g.storedBelow p.frow
  let stored := bodyWords b (i * g.sroww) g.sroww
  if lweKind p.kkind then
    if p.seeded then
      let t := if p.kkind = 6 then peer.getD c else c
      let d := g.roww / 2 - 1
      match genWords seed r 0 t.qa d, genWords seed r 1 t.qb d with
      | some x, some y => some (x ++ stored.take 1 ++ y ++ (stored.drop 1).take 1)
      | _, _ => none
    else some stored
  else if g.isStored r then some stored
  else genWords seed r 0 (rowPrime p.kkind c p.chk r) g.roww

/-! ## Upload -/

/-- The status of an upload's first failed check with the page it names, or the key set that passed (R300). -/
inductive Upload where
  | fail (status : BitVec 8) (page : Nat)
  | good (k : KeySet) (pages : List (List Byte))

/-- A manifest's objects, with the reserved bits of their entries checked. -/
def manifestObjects (m : List Byte) (n : Nat) : List KeyObject :=
  (List.range n).map (fun i =>
    let o := 64 + 16 * i
    { kkind := BitVec.ofNat 8 (field m o 1), gal := BitVec.ofNat 32 (field m (o + 4) 4), seeded := bit (field m (o + 1) 1) 0,
      firstPage := field m (o + 8) 4, npages := field m (o + 12) 4 })

/-- Check 1 of *Upload checks*. -/
def manifestForm (m : List Byte) : Bool :=
  let no := field m 10 2
  let np := field m 12 4
  decide (m.length ≥ 64) && decide (field m 0 4 = 0x4E414D4B ∧ field m 4 1 = 1)
    && decide (field m 5 1 = 1 ∨ field m 5 1 = 2) && decide (field m 8 2 < 2) && zeroField m 24 40
    && decide (1 ≤ no ∧ no ≤ 4096 ∧ 1 ≤ np ∧ np ≤ 1048576 ∧ m.length = 64 + 16 * no + 32 * np)
    && (List.range no).all (fun i => decide (field m (64 + 16 * i + 1) 1 < 2) && zeroField m (64 + 16 * i + 2) 2)

/-- Objects ascend in FIRSTPAGE and cover pages `at` to `np − 1` without gap or overlap. -/
def pagesCover (np : Nat) : Nat → List KeyObject → Bool
  | at_, [] => decide (at_ = np)
  | at_, o :: rest => decide (o.firstPage = at_ ∧ o.npages ≠ 0) && pagesCover np (at_ + o.npages) rest

/-- Whether no two ROT objects share GAL. -/
def rotsDiffer : List KeyObject → Bool
  | [] => true
  | o :: rest => !(decide (o.kkind = 2) && rest.any (fun x => decide (x.kkind = 2 ∧ x.gal = o.gal))) && rotsDiffer rest

/-- Whether the pages of an object are as many as R293 gives. -/
def objPagesOk (c : CustomSet) (chk : Bool) (peer : Option CustomSet) (o : KeyObject) : Bool :=
  match geoOf o.kkind.toNat c chk o.seeded peer with
  | some g => decide (g.pages = some o.npages)
  | none => false

/-- Kinds whose rows include check-limb columns. -/
def chkColumns (kind : Nat) : Bool := [1, 2, 3, 4, 5, 7].contains kind

/-- Check 8 of *Upload checks* for page `i` of object number `oi`, whose first page is `first`. -/
def pageForm (c : CustomSet) (peer : Option CustomSet) (pset ppset : Nat) (chk : Bool) (oi : Nat) (o : KeyObject)
    (first b : List Byte) (i : Nat) : Bool :=
  let p := pageHdr b
  match geoOf o.kkind.toNat c chk o.seeded peer with
  | none => false
  | some g =>
    let before := (i - o.firstPage) * g.perPage
    let n := min g.perPage (g.stored - before)
    hcrcOk b && tcrcOk b && framesOk b
      && decide (p.magic = 0x4B50 ∧ p.version = 1 ∧ p.kkind = o.kkind.toNat
        ∧ p.spset = (if o.kkind = 7 then ppset else pset) ∧ p.tpset = (if o.kkind = 6 then ppset else pset)
        ∧ p.bind = 0 ∧ p.pidx = i ∧ p.gal = o.gal.toNat ∧ p.obj = oi
        ∧ p.pflags = b2n o.seeded + 2 * b2n (chk && chkColumns o.kkind.toNat) ∧ p.res = 0 ∧ p.frow = g.storedRow before ∧ p.nrows = n
        ∧ p.sroww = g.sroww)
      && zeroField b 48 16 && zeroField b 1120 2976
      && zeroField b (4096 + 4 * n * g.sroww) (1048576 - 4 * n * g.sroww)
      && (if o.seeded then decide ((b.drop 1088).take 32 = (first.drop 1088).take 32) else zeroField b 1088 32)

/-- Checks 7 and 8, page by page in PIDX order. -/
def pageChecks (m : List Byte) (no : Nat) (okPage : Nat → List Byte → Bool) : Nat → List (List Byte) → Option (Nat × Nat)
  | _, [] => none
  | i, b :: rest =>
    if b.length ≠ Config.pageSlotBytes ∨ sha256 b ≠ (m.drop (64 + 16 * no + 32 * i)).take 32 then some (7, i)
    else if !okPage i b then some (8, i)
    else pageChecks m no okPage (i + 1) rest

/-- The object, with its number, that page `i` belongs to. -/
def objectOf (os : List KeyObject) (i : Nat) : Option (Nat × KeyObject) :=
  (os.zipIdx.find? (fun p => decide (p.1.firstPage ≤ i ∧ i < p.1.firstPage + p.1.npages))).map (fun p => (p.2, p.1))

/-- The stack of page `p` of a key set (R309). -/
def pageStack (ksid : BitVec 64) (p : Nat) : Nat := (p + ksid.toNat % 16) % 16

/-- Key slots in use on a stack. -/
def slotsUsed (dir : List KeySet) (ups : List KeyUpload) (st : Nat) : List Nat :=
  let mine (k : KeySet) : List Nat :=
    (k.pages.filter (fun a => decide (a / 2 ^ 37 = st))).map (fun a => a % 2 ^ 37 / Config.pageSlotBytes)
  dir.flatMap mine ++ ups.flatMap (fun u => match u.set with
    | some k => mine k
    | none => [])

/-- Whether key slot `s` overlaps a retired region of its stack (R531). -/
def slotRetired (retired : List Nat) (s : Nat) : Bool :=
  retired.any (fun r => rangesMeet (s * Config.pageSlotBytes) Config.pageSlotBytes (r * 2 ^ 20) (2 ^ 20))

/-- The lowest `n` free key slots of a stack from slot `s`. -/
def freeSlots (used retired : List Nat) : Nat → Nat → Nat → List Nat
  | 0, _, _ => []
  | _, 0, _ => []
  | f + 1, n + 1, s =>
    if used.contains s || slotRetired retired s then freeSlots used retired f (n + 1) (s + 1)
    else s :: freeSlots used retired f n (s + 1)

/-- Stack addresses for the pages of a new set (R309, R512); none when a stack has no room (R513). -/
def placePages (dir : List KeySet) (ups : List KeyUpload) (retired : Nat → List Nat) (ksid : BitVec 64) (np : Nat) :
    Option (List Nat) :=
  let free := (List.range 16).map (fun st =>
    let need := ((List.range np).filter (fun p => decide (pageStack ksid p = st))).length
    freeSlots (slotsUsed dir ups st) (retired st) Config.keySlotsPerStack need 0)
  let at_ (p : Nat) : Option Nat :=
    (free.getD (pageStack ksid p) [])[p / 16]?.map (fun s => pageStack ksid p * 2 ^ 37 + s * Config.pageSlotBytes)
  let as := (List.range np).map at_
  if as.all (·.isSome) then some (as.map (·.getD 0)) else none

/-- A page slot as the Quay stores it: BIND written and HCRC made again (R301). -/
def boundPage (bind : Nat) (b : List Byte) : List Byte :=
  let front := b.take 8 ++ leBytes 8 bind ++ (b.drop 16).take 28
  front ++ leBytes 4 (crc32c front) ++ b.drop 48

/-- The checks of an upload in order (R300). The limits of R303 and R305 count what running uploads that have passed will enter, so
that the directory never passes them. -/
def uploadCheck (sets : List CustomSet) (dir : List KeySet) (ups : List KeyUpload) (retired : Nat → List Nat)
    (m : List Byte) (pages : List (List Byte)) : Upload :=
  let pset := field m 6 2
  let kind2 := decide (field m 5 1 = 2)
  let no := field m 10 2
  let np := field m 12 4
  let chk := bit (field m 8 2) 0
  let peerId := BitVec.ofNat 64 (field m 16 8)
  let os := manifestObjects m no
  let ksid := BitVec.ofNat 64 (leNat ((sha256 m).take 8))
  if !manifestForm m then .fail 1 0
  else match psetOf sets (BitVec.ofNat 16 pset) with
    | none => .fail 2 0
    | some c =>
      if c.scalar ≠ kind2 ∨ pset > 0x1FF then .fail 2 0
      else if !pagesCover np 0 os
          || os.any (fun o => decide (o.kkind = 0 ∨ o.kkind > 9) || decide (kind2 ≠ decide (o.kkind ≥ 8)))
          || os.any (fun o => decide (o.kkind ≠ 6) && !objPagesOk c chk none o) || !rotsDiffer os then .fail 1 0
      else if ksid = 0 ∨ dir.any (fun k => decide (k.ksid = ksid)) then .fail 3 0
      else
        let needs := os.any (fun o => decide (o.kkind = 6 ∨ o.kkind = 7))
        let peerSet := dir.find? (fun k => decide (k.ksid = peerId) && k.scalar)
        let peer := peerSet.bind (fun k => psetOf sets k.pset)
        if needs ≠ decide (peerId ≠ 0) ∨ (needs ∧ peer = none) then .fail 4 0
        else if os.any (fun o => decide (o.kkind = 6) && !objPagesOk c chk peer o) then .fail 1 0
        else
          let all := dir ++ ups.filterMap (·.set)
          if all.length + 1 > Config.maxKeySets ∨ lsum (all.map (·.objects.length)) + no > Config.maxKeyObjects then .fail 5 0
          else if lsum (all.map (·.pages.length)) + np > Config.maxPageSlots then .fail 6 0
          else match placePages dir ups retired ksid np with
            | none => .fail 6 0
            | some as =>
              let ppset := match peerSet with
                | some k => k.pset.toNat
                | none => 0
              let okPage (i : Nat) (b : List Byte) : Bool := match objectOf os i with
                | some (oi, o) => pageForm c peer pset ppset chk oi o (pages.getD o.firstPage []) b i
                | none => false
              match pageChecks m no okPage 0 (pages.take np ++ List.replicate (np - pages.length) []) with
              | some (7, i) => .fail 7 i
              | some (_, i) => .fail 8 i
              | none => .good { ksid := ksid, pset := BitVec.ofNat 16 pset, chk := chk, scalar := kind2, peer := peerId,
                                objects := os, pages := as }
                  (pages.zipIdx.map (fun p => match objectOf os p.2 with
                    | some (_, o) => boundPage (if o.kkind = 7 then peerId.toNat else ksid.toNat) p.1
                    | none => p.1))

end Sys2Proof.Machine
end

