-- ==== Sys2Proof/Machine/StackM.lean ====
section
/-! DEFINITION. The memory stacks and their controllers (R509 to R543): unit reads and writes under RS(72, 64), the slot
frame, the scrub engine, the wipe, and the temperature and throttle level. -/
namespace Sys2Proof.Machine

/-! ## Units -/

/-- Stack and offset of a stack address (R24). -/
def stkOf (a : Nat) : Nat := a / 2 ^ 37
def stkOff (a : Nat) : Nat := a % 2 ^ 37

/-- Where a byte of a stack lies (R511): pseudo-channel, column unit, bank, row and the byte of the unit. -/
structure StackPlace where
  pseudo : Nat
  column : Nat
  bank : Nat
  row : Nat
  byte : Nat
  deriving DecidableEq, Repr

/-- The place of offset `off`. -/
def placeOf (off : Nat) : StackPlace :=
  { pseudo := bits off 11 6, column := bits off 15 12, bank := bits off 21 16, row := bits off 36 22, byte := bits off 5 0 }

/-- The channel of a place, and the stack ID, bank group and bank that its bank number names. -/
def StackPlace.channel (p : StackPlace) : Nat := p.pseudo / 2
def StackPlace.stackId (p : StackPlace) : Nat := bits p.bank 5 4
def StackPlace.group (p : StackPlace) : Nat := bits p.bank 3 2
def StackPlace.bankIn (p : StackPlace) : Nat := bits p.bank 1 0

/-- The offset of a place. -/
def StackPlace.offset (p : StackPlace) : Nat := p.row * 2 ^ 22 + p.bank * 2 ^ 16 + p.column * 2 ^ 12 + p.pseudo * 2 ^ 6 + p.byte

/-- Whether byte `off` of a stack is behind the scrub fence (R539). -/
def stkFenced (s : Stack) (off : Nat) : Bool := s.fence.any (fun f => decide (f.off ≤ off ∧ off < f.off + f.len))

/-- Whether unit `u` holds more wrong symbols than the code corrects (R526). -/
def unitBad (s : Stack) (u : Nat) : Bool := decide (tget 0 s.err u > 3)

/-- `n` bytes from offset `off` as a read delivers them (R526, R528, R539): zeros for a fenced or an uncorrectable unit. -/
def stkRead (s : Stack) (off n : Nat) : List Byte :=
  (mbytes s.mem off n).zipIdx.map (fun p =>
    if stkFenced s (off + p.2) || unitBad s ((off + p.2) / 64) then 0 else p.1)

/-- Units in error that a read of `n` bytes from `off` meets outside the fence, with their wrong symbols. -/
def unitsHit (s : Stack) (off n : Nat) : Tab Nat :=
  s.err.filter (fun p => decide (off / 64 ≤ p.1 ∧ p.1 * 64 < off + n) && !stkFenced s (64 * p.1))

/-- The controller after a read (R527, R528): corrected units are counted and queued for a rewrite, at most 16;
uncorrectable ones are counted and the last one recorded. -/
def stkSee (st : Nat) (s : Stack) (off n : Nat) : Stack :=
  let hits := unitsHit s off n
  let corr := (hits.filter (fun p => decide (p.2 ≤ 3))).map (·.1)
  let unc := (hits.filter (fun p => decide (p.2 > 3))).map (·.1)
  let fresh := corr.filter (fun u => !s.rewriteQ.contains u)
  let room := 16 - s.rewriteQ.length
  { s with
    eccCorr := satAdd s.eccCorr corr.length, eccUnc := satAdd s.eccUnc unc.length,
    eccDrop := satAdd s.eccDrop (fresh.length - room), rewriteQ := s.rewriteQ ++ fresh.take room,
    lastUnc := match unc.getLast? with
      | some u => BitVec.ofNat 41 (st * 2 ^ 37 + 64 * u)
      | none => s.lastUnc }

/-- The first uncorrectable unit that a read meets. -/
def stkUnc (s : Stack) (off n : Nat) : Option Nat := ((unitsHit s off n).find? (fun p => decide (p.2 > 3))).map (·.1)

/-- A read of job `tag` from stack address `a` (R527, R528): the controller's counts, and for an uncorrectable unit the
log and the replay of the reading job with the given cause. -/
def stkAccess (m : Module) (a n tag : Nat) (cause : ReplayCause) : Module :=
  let s := stkAt m (stkOf a)
  let m1 := onStk m (stkOf a) (fun s => stkSee (stkOf a) s (stkOff a) n)
  match stkUnc s (stkOff a) n with
  | none => m1
  | some u => logLater (askReplay m1 tag cause)
      { cls := 2, sev := 2, unit := BitVec.ofNat 32 (stkOf a), job := BitVec.ofNat 16 tag, detail := 0,
        addr := BitVec.ofNat 64 (stkOf a * 2 ^ 37 + 64 * u), data := [] }

/-- Bytes written from offset `off`: fenced units drop them (R539); the units written carry valid check bytes, and a
rewrite that waited for one is cancelled (R527). -/
def stkWrite (s : Stack) (off : Nat) (bs : List Byte) : Stack :=
  let old := mbytes s.mem off bs.length
  let keep := bs.zipIdx.map (fun p => if stkFenced s (off + p.2) then old.getD p.2 0 else p.1)
  let mine (u : Nat) : Bool := decide (off / 64 ≤ u ∧ u * 64 < off + bs.length) && !stkFenced s (64 * u)
  { s with mem := mput s.mem off keep, err := s.err.filter (fun p => !mine p.1), lost := s.lost.filter (fun u => !mine u),
           rewriteQ := s.rewriteQ.filter (fun u => !mine u) }

/-- Bytes written to a stack address. -/
def stkPut (m : Module) (a : Nat) (bs : List Byte) : Module := onStk m (stkOf a) (fun s => stkWrite s (stkOff a) bs)

/-- Bytes that the Quay writes to a stack: they cross the spoke of the die that commands it, in flits (R12, R14). -/
def quayPut (m : Module) (a : Nat) (bs : List Byte) : Module :=
  stkPut (crossLink (flitsFor (ceilDiv bs.length 4)) m (.quay (Fin.ofNat 8 (stkOf a / 2)))) a bs

/-- Whether the spoke of die `d` carries new flits from the Quay. -/
def spokeReady (m : Module) (d : Nat) : Bool := linkReady m (.quay (Fin.ofNat 8 d))

/-- Whether a stack takes accesses: none takes place until its wipe ends, nor in self-refresh (R541, R543). -/
def stackOpen (m : Module) (st : Nat) : Bool := decide ((stkAt m st).state = 3)

/-- Whether both stacks of a die take accesses. -/
def stacksOpen (m : Module) (d : Nat) : Bool := stackOpen m (2 * d) && stackOpen m (2 * d + 1)

/-! ## The frame -/

/-- Positions of the slot map with an owner code (R517). -/
def positionsOf (s : Stack) (code : BitVec 5) : Nat :=
  ((List.range 152).filter (fun p => decide (tget (0 : BitVec 5) s.map p = code))).length

/-- Whether an MSC runs frames: it is wiping or active. -/
def frameRuns (s : Stack) : Bool := decide (s.state = 2 ∨ s.state = 3)

/-- A-cycles of a die in `n` MCLK cycles of 0.8 ns, at its frequency, rounded up. -/
def mclkAc (mhz n : Nat) : Nat := ceilDiv (n * mhz) 1250

/-- A new slot frame (R515, R518, R519, R536, R538; DESIGN CHOICE, log entry 159): the shadow map takes effect when a flip came at
least 16 MCLK cycles ago; the eight banks that refresh; the privileged positions served; the throttled and slow frames. -/
def frameStep (m : Module) (st : Nat) : Module :=
  let s := stkAt m st
  let mhz := (dieAt m (st / 2)).mhz
  if !frameRuns s then m
  else
    let due (t : Nat) : Bool := decide (t + mclkAc mhz 16 ≤ m.now)
    let s1 := if s.flips.any due then { s with map := s.shadow, flips := s.flips.filter (fun t => !due t) } else s
    let f := s1.frame + 1
    onStk m st (fun _ => { s1 with
      frame := f, refreshed := (List.range 8).map (fun i => (8 * f + i) % 64),
      served := ceilDiv (positionsOf s1 1 * (100 - s1.level.toNat)) 100,
      thrFrames := if s1.level ≠ 0 then satAdd s1.thrFrames 1 else s1.thrFrames,
      slowFrames := if mhz < m.hedge.rate then satAdd s1.slowFrames 1 else s1.slowFrames })

/-- FRAME_BOUNDARY. -/
def execFrameBoundary (st : Fin 16) (s : State) : Host.Outcome State Fault Refusal := ok s (frameStep s.m st)

/-- MSC_MAP_FLIP (R518). -/
def execMscMapFlip (st : Fin 16) (s : State) : Host.Outcome State Fault Refusal :=
  ok s (onStk s.m st (fun t => { t with flips := t.flips ++ [s.m.now] }))

/-! ## Scrub, patrol, fence and wipe -/

/-- The oldest queued unit is rewritten in a position with owner 0 (R527). -/
def stackRewriteOne (s : Stack) : Stack :=
  match s.rewriteQ with
  | [] => s
  | u :: rest =>
    if s.state ≠ 3 ∨ positionsOf s 0 = 0 then s
    else { s with rewriteQ := rest, err := if unitBad s u then s.err else s.err.filter (fun p => decide (p.1 ≠ u)) }

/-- STACK_REWRITE. -/
def execStackRewrite (st : Fin 16) (s : State) : Host.Outcome State Fault Refusal := ok s (onStk s.m st stackRewriteOne)

/-- Units of a stack. -/
def stackUnits : Nat := Config.stackBytes / 64

/-- The patrol has read its next unit. -/
def patrolOne (st : Nat) (s : Stack) : Stack :=
  { stkSee st s (64 * s.patrol) 64 with patrol := (s.patrol + 1) % stackUnits }

/-- The patrol reads the next unit in a position with owner 0, when no fence waits (R530, R539); an uncorrectable unit that
it meets is logged (R528, R706). -/
def patrolStep (m : Module) (st : Nat) : Module :=
  let s := stkAt m st
  if s.state ≠ 3 ∨ positionsOf s 0 = 0 ∨ s.fence ≠ [] then m
  else
    let m1 := onStk m st (patrolOne st)
    match stkUnc s (64 * s.patrol) 64 with
    | none => m1
    | some u => logLater m1 { cls := 2, sev := 2, unit := BitVec.ofNat 32 st, job := 0xFFFF, detail := 0,
                              addr := BitVec.ofNat 64 (st * 2 ^ 37 + 64 * u), data := [] }

/-- STACK_PATROL. -/
def execStackPatrol (st : Fin 16) (s : State) : Host.Outcome State Fault Refusal := ok s (patrolStep s.m st)

/-- A stack with `n` bytes from `off` zero, with valid check bytes. -/
def zeroUnits (s : Stack) (off n : Nat) : Stack :=
  { s with mem := s.mem.filter (fun p => decide (p.1 < off ∨ off + n ≤ p.1)),
           err := s.err.filter (fun p => decide (p.1 * 64 + 64 ≤ off ∨ off + n ≤ p.1 * 64)),
           lost := s.lost.filter (fun u => decide (u * 64 + 64 ≤ off ∨ off + n ≤ u * 64)) }

/-- The scrub engine zeroes the oldest fenced range in positions with owner 0 (R539). -/
def fenceZeroStep (m : Module) (st : Nat) : Module :=
  let s := stkAt m st
  match s.fence with
  | [] => m
  | f :: rest =>
    if s.state ≠ 3 ∨ positionsOf s 0 = 0 then m
    else settleFences (onStk m st (fun s => { zeroUnits s f.off f.len with fence := rest }))

/-- STACK_FENCE_ZERO. -/
def execStackFenceZero (st : Fin 16) (s : State) : Host.Outcome State Fault Refusal := ok s (fenceZeroStep s.m st)

/-- A stack after its wipe (R541): zero units with valid check bytes everywhere, and active. -/
def wipedStack (s : Stack) : Stack :=
  { s with mem := [], err := [], lost := [], fence := [], rewriteQ := [], state := 3 }

/-- The wipe that a reset or a lifecycle change began ends on every stack that wipes (R541). -/
def stackWipeStep (m : Module) : Module :=
  settleFences ((List.range 16).foldl (fun m st =>
    if (stkAt m st).state = 2 then onStk m st wipedStack else m) m)

/-- STACK_WIPE. -/
def execStackWipe (s : State) : Host.Outcome State Fault Refusal := ok s (stackWipeStep s.m)

/-! ## Temperature and throttle -/

/-- The latest sample with the runs of samples that the thresholds count (R533, R534, R537): 0.25 °C a unit. -/
def sampleStack (t : BitVec 10) (s : Stack) : Stack :=
  let hot := 4 * s.tthrot.toNat
  let v := t.toNat
  if s.state = 0 then s
  else { s with
    temp := t, tmax := if s.tmax.toNat < v then t else s.tmax,
    critRun := if v ≥ 420 then s.critRun + 1 else 0,
    hotRun := if v ≥ hot then s.hotRun + 1 else 0,
    coolRun := if v + 8 ≤ hot then s.coolRun + 1 else 0 }

/-- STACK_TEMP_SAMPLE. -/
def execStackTempSample (st : Fin 16) (t : BitVec 10) (s : State) : Host.Outcome State Fault Refusal :=
  ok s (onStk s.m st (sampleStack t))

/-- A step of the throttle level (R534): up after 10 samples in a row at or above the threshold, down after 100 at least 2 °C
below it, one sample a microsecond; the interval then begins again. -/
def throttleStack (up : Bool) (s : Stack) : Stack :=
  if up then (if 10 ≤ s.hotRun ∧ s.level.toNat < 32 then { s with level := s.level + 1, hotRun := 0 } else s)
  else (if 100 ≤ s.coolRun ∧ s.level.toNat > 0 then { s with level := s.level - 1, coolRun := 0 } else s)

/-- THROTTLE_STEP. -/
def execThrottleStep (st : Fin 16) (up : Bool) (s : State) : Host.Outcome State Fault Refusal :=
  ok s (onStk s.m st (throttleStack up))

end Sys2Proof.Machine
end

