-- ==== Sys2Proof/Machine/Ferry.lean ====
section
/-! DEFINITION. The Ferry (R312 to R327, R730, R731): its commands, the landing of key rows, the key tokens, and the report
of a page's binding check with what it does to the held words. -/
namespace Sys2Proof.Machine

/-! ## Commands -/

/-- A Ferry command (*Ferry command*). -/
structure FerryCmd where
  op : Nat
  cl : Nat
  ndlv : Nat
  frow : Nat
  nrow : Nat
  waddr : Nat
  slot : Nat
  tmark : Nat
  epidx : Nat
  res : Nat
  deriving DecidableEq, Repr

/-- Command `i` of a list; none when the list has no whole command there. -/
def ferryCmd (bs : List Byte) (i : Nat) : Option FerryCmd :=
  if 32 * (i + 1) ≤ bs.length then
    let b := (bs.drop (32 * i)).take 32
    some { op := field b 0 1, cl := field b 1 1, ndlv := field b 2 2, frow := field b 4 4, nrow := field b 8 4,
           waddr := field b 12 4, slot := field b 16 8, tmark := field b 24 4, epidx := field b 28 2, res := field b 30 2 }
  else none

/-- What a LAND is about to do: the page, its rows as they land, frames per row, whether a generated row
of the page returns EXHAUSTED (R297), and whether one of the rows that land does. -/
structure LandPlan where
  page : PageInfo
  rows : List (List Word)
  perRow : Nat
  exhausted : Bool
  dry : Bool

/-- Whether any generated row of a page returns EXHAUSTED (R297): the seed fixes it, so every LAND of the page finds the same,
whichever rows it lands (DEDUCED, log entry 147). -/
def pageDry (b : List Byte) (p : PageHdr) (s : CustomSet) (peer : Option CustomSet) (g : Geo) : Bool :=
  p.seeded && (match pageRange g p with
    | some (lo, hi) => (List.range (hi - lo)).any (fun i => (pageRow b p s peer g (lo + i)).isNone)
    | none => false)

/-- The page that a LAND reads from a slot's bytes (R315, R318, R731): the rows by the page's own header; rows of a slot
whose header gives no geometry are one frame of body words each. -/
def landPlan (sets : List CustomSet) (b : List Byte) (unc : Bool) (c : FerryCmd) : LandPlan :=
  let p := pageHdr b
  let bad := unc || !(hcrcOk b && tcrcOk b && framesOk b)
  let info (corrupt : Bool) : PageInfo :=
    { slot := c.slot, bind := BitVec.ofNat 64 p.bind, spset := BitVec.ofNat 16 p.spset, kkind := BitVec.ofNat 8 p.kkind,
      gal := BitVec.ofNat 32 p.gal, pidx := BitVec.ofNat 32 p.pidx, chk := p.chk, epidx := BitVec.ofNat 16 c.epidx,
      corrupt := corrupt, memUnc := unc }
  match pageGeo sets p with
  | some (s, peer, g) =>
    let rs := (List.range c.nrow).map (fun i => pageRow b p s peer g (c.frow + i))
    let out := rs.any (·.isNone) || pageDry b p s peer g
    { page := info (bad || out), rows := rs.map (·.getD []), perRow := ceilDiv g.roww 1024,
      exhausted := out, dry := rs.any (·.isNone) }
  | none =>
    { page := info bad, rows := (List.range c.nrow).map (fun i => bodyWords b (1024 * i) 1024), perRow := 1,
      exhausted := false, dry := false }

/-- Frames per row of a LAND, and whether the page's header, passing HCRC, shows a row that is not the page's (R730). -/
def landShape (sets : List CustomSet) (b : List Byte) (c : FerryCmd) : Nat × Bool :=
  let p := pageHdr b
  match pageGeo sets p with
  | some (_, _, g) => (ceilDiv g.roww 1024,
      hcrcOk b && (match pageRange g p with
        | some (lo, hi) => decide (c.frow < lo ∨ hi < c.frow + c.nrow)
        | none => true))
  | none => (1, false)

/-- The local scratchpad word of WADDR: a 30-bit address of this cluster, or its low 21 bits (R21). -/
def landWord (die : Nat) (c : FerryCmd) : Option Nat :=
  if c.waddr / 2 ^ 21 = 0 ∨ c.waddr / 2 ^ 21 = 64 * die + c.cl then some (c.waddr % 2 ^ 21) else none

/-- The window of a LAND, and its first frame there. -/
def landWindow (d : Die) (die tag : Nat) (c : FerryCmd) : Option (KeyWindow × Nat) :=
  match d.windows.find? (fun w => decide (w.cl = c.cl ∧ w.job = tag)), landWord die c with
  | some w, some a => if w.base ≤ a then some (w, (a - w.base) / 1024) else none
  | _, _ => none

/-- What a command does now: kill its job, wait, end the list, or land in frames from a first one. -/
inductive FerryAct where
  | kill (c : KillCause)
  | wait
  | endList
  | land (c : FerryCmd) (first : Nat) (plan : LandPlan)

/-- Bytes of the page slot at a stack address. -/
def slotBytes (m : Module) (a : Nat) : List Byte := stkRead (stkAt m (stkOf a)) (stkOff a) Config.pageSlotBytes

/-- The next command of a list (R314 to R316, R730). -/
def ferryAct (m : Module) (die : Nat) (l : FerryList) (sets : List CustomSet) : FerryAct :=
  match ferryCmd l.bytes l.idx with
  | none => .kill .streamInvalid
  | some c =>
    if (c.op ≠ 1 ∧ c.op ≠ 2) ∨ c.ndlv = 0 ∨ c.nrow = 0 ∨ c.res ≠ 0 then .kill .cfgInvalid
    else if c.op = 2 then .endList
    else if m.now < l.origin + c.tmark then .wait
    else if c.waddr % 1024 ≠ 0 ∨ c.slot % 4096 ≠ 0 ∨ c.slot / 2 ^ 38 ≠ die
        ∨ c.slot % 2 ^ 37 + Config.pageSlotBytes > Config.stackBytes then .kill .addrInvalid
    else
      let b := slotBytes m c.slot
      let (per, beyond) := landShape sets b c
      match landWindow (dieAt m die) die l.job c with
      | none => .kill .addrInvalid
      | some (w, f) =>
        let n := c.nrow * per
        if f + n > w.size then .kill .addrInvalid
        else if beyond then .kill .cfgInvalid
        else if (List.range n).any (fun i => decide ((tget {} w.frames (f + i)).st ≠ 0)) then .wait
        -- a Ferry reads only in positions granted to it (R327, R524), and no stack that wipes (R541)
        else if positionsOf (stkAt m (stkOf c.slot)) 1 = 0 ∨ stackOpen m (stkOf c.slot) = false then .wait
        else
          let unc := (stkUnc (stkAt m (stkOf c.slot)) (stkOff c.slot) Config.pageSlotBytes).isSome
          .land c f (landPlan sets b unc c)

/-- The words of the rows of a LAND in its frames, the rest of a row's last frame zero (R315). -/
def landWords (base : Nat) (p : LandPlan) : List (Nat × Word) :=
  p.rows.zipIdx.flatMap (fun r =>
    let ws := r.1.take (1024 * p.perRow)
    (ws ++ List.replicate (1024 * p.perRow - ws.length) 0).zipIdx.map (fun w =>
      (base + 1024 * p.perRow * r.2 + w.2, w.1)))

/-- The frames of a LAND become LANDING with their page (R313). -/
def landFrames (c : FerryCmd) (f : Nat) (p : LandPlan) (w : KeyWindow) : KeyWindow :=
  let n := p.rows.length * p.perRow
  { w with landed := w.landed + n,
           frames := (List.range n).foldl (fun t i =>
             tset {} t (f + i) { st := 1, page := p.page, left := c.ndlv, reading := 0, seq := w.landed + i }) w.frames }

/-- Landing writes: dropped and counted in a restricted cluster (R355), dropped in fenced rows (R350). -/
def landWrite (m : Module) (cl tag : Nat) (ws : List (Nat × Word)) : Module :=
  if (clAt m cl).restricted then onCl m cl (fun c => { c with restrictHits := satAdd c.restrictHits ws.length })
  else scrAccess m cl tag [] ws

/-- The effect of a LAND (R315, R316, R318, R528): its words, its tokens, the counters of the block, and the replays that a
failed page starts. -/
def landStep (m : Module) (die : Nat) (l : FerryList) (c : FerryCmd) (f : Nat) (p : LandPlan) : Module :=
  let late := m.now - (l.origin + c.tmark)
  let m1 := stkAccess m c.slot Config.pageSlotBytes l.job .memory
  let m2 := if p.page.corrupt && !p.exhausted then askReplay m1 l.job .keyPage else m1
  let m3 := match landWindow (dieAt m die) die l.job c with
    | some (w, _) => landWrite m2 (64 * die + c.cl) l.job (landWords (w.base + 1024 * f) p)
    | none => m2
  onDie m3 die (fun d => { d with
    windows := d.windows.map (fun w => if w.cl = c.cl ∧ w.job = l.job then landFrames c f p w else w),
    lists := d.lists.map (fun x => if x.job = l.job then { x with idx := x.idx + 1 } else x),
    cmdIdx := BitVec.ofNat 16 l.idx, ferBusy := true, ferCrc := d.ferCrc || p.page.corrupt,
    ferExhaust := d.ferExhaust || p.dry, ferLate := d.ferLate || decide (late > 0),
    ferLateCycles := satAdd d.ferLateCycles late, ferPages := satAdd d.ferPages 1,
    ferCrcFails := satAdd d.ferCrcFails (b2n p.page.corrupt) })

/-- The first list, in the order in which their jobs started, the lists of replaying jobs last (R422), whose next command is not waiting
and is an END exactly when `wantEnd` says so. -/
def ferryPick (m : Module) (die : Nat) (wantEnd : Bool) : Option (FerryList × FerryAct) :=
  let ls := (dieAt m die).lists.filter (fun l => !l.ended && !replayWaits m l.job)
  (ls.filter (fun l => !replaying m l.job) ++ ls.filter (fun l => replaying m l.job)).findSome? (fun l =>
    match ferryAct m die l (jobSetsOf m l.job) with
    | .wait => none
    | .endList => if wantEnd then some (l, .endList) else none
    | .kill c => some (l, .kill c)
    | .land c f p => if wantEnd then none else some (l, .land c f p))

/-- A Ferry step: a LAND, an END, or the kill of a command that breaks R730. A halted die starts none (R480). -/
def ferryStep (m : Module) (die : Nat) (wantEnd : Bool) : Module :=
  if (dieAt m die).halted then m
  else match ferryPick m die wantEnd with
  | some (l, .land c f p) => landStep m die l c f p
  | some (l, .kill c) => killJob m l.job c none
  | some (l, .endList) => onDie m die (fun d => { d with
      lists := d.lists.map (fun x => if x.job = l.job then { x with ended := true } else x), cmdIdx := BitVec.ofNat 16 l.idx })
  | _ => m

/-- LAND. -/
def execLand (die : Fin 8) (s : State) : Host.Outcome State Fault Refusal := ok s (ferryStep s.m die false)

/-- FERRY_END. -/
def execFerryEnd (die : Fin 8) (s : State) : Host.Outcome State Fault Refusal := ok s (ferryStep s.m die true)

/-! ## Tokens -/

/-- The windows of a die with the frame at frame number `f` of the slice changed. -/
def onFrame (d : Die) (cl f : Nat) (g : Frame → Frame) : Die :=
  { d with windows := d.windows.map (fun w =>
      if w.cl = cl ∧ w.base ≤ 1024 * f ∧ 1024 * f < w.base + 1024 * w.size then
        { w with frames := tmod {} w.frames ((1024 * f - w.base) / 1024) g } else w) }

/-- Whether any frame of a die is LANDING. -/
def anyLanding (d : Die) : Bool := d.windows.any (fun w => w.frames.any (fun p => decide (p.2.st = 1)))

/-- A frame whose last word and CRC result are in becomes STAGED (R313, R318). -/
def stageDie (cl f : Nat) (d : Die) : Die :=
  let d1 := onFrame d cl f (fun x => if x.st = 1 then { x with st := 2 } else x)
  { d1 with ferBusy := anyLanding d1 }

/-- FRAME_STAGED. -/
def execFrameStaged (die : Fin 8) (cl : Fin 64) (frame : Nat) (s : State) : Host.Outcome State Fault Refusal :=
  ok s (onDie s.m die (stageDie cl frame))

/-- A frame whose deliveries have all ended, with their pages reported, is FREE again (R313, R493). -/
def releaseDie (cl f : Nat) (d : Die) : Die :=
  onFrame d cl f (fun x => if x.st = 2 ∧ x.left = 0 ∧ x.reading = 0 then {} else x)

/-- TOKEN_RELEASE. -/
def execTokenRelease (die : Fin 8) (cl : Fin 64) (frame : Nat) (s : State) : Host.Outcome State Fault Refusal :=
  ok s (onDie s.m die (releaseDie cl frame))

/-! ## Binding check -/

/-- What a record needs of its key pages: the primitive's code, the amount of a rotation, and the kinds. A record of a planned job
names its primitive; the code of a network operation that a hand plan seals names the kinds of its table, any of which may come, and
any rotation (DESIGN CHOICE, log entry 148). -/
structure KeyWant where
  code : Nat
  amount : Nat
  kinds : List Nat

/-- The needs of a record, `p` its primitive in a planned job. -/
def keyWant (r : Record) (p : Option LPrim) : KeyWant :=
  match p with
  | some p => { code := p.code, amount := p.imm,
                kinds := if p.code = 0x8C then [p.imm] else if p.code = 0x86 then [6, 9] else keyKinds (p.code % 256) }
  | none => { code := r.code, amount := r.imm.toNat % 65536, kinds := keyKinds r.code }

/-- Whether a page's GAL is the Galois element that is needed (R321): 5^k mod 2N for a rotation, 2N − 1 for CONJ, 0 otherwise. -/
def galNeeded (c : CustomSet) (w : KeyWant) (p : PageInfo) : Bool :=
  let n2 := 2 * setN c
  let g := p.gal.toNat
  if p.kkind = 2 then
    (if w.code = 0x0D ∨ w.code = 0x0E then decide (g = powMod n2 5 w.amount)
     else decide (g % 4 = 1 ∧ 1 < g ∧ g < n2))
  else if p.kkind = 3 then decide (g = n2 - 1)
  else decide (g = 0)

/-- The causes a page's binding check reports against the target header (*Binding check*): KEY_CORRUPT 3, KEY_MISMATCH 4,
PARAM_MISMATCH 5. -/
def bindCauses (sets : List CustomSet) (w : KeyWant) (h : Hdr) (p : PageInfo) : List Nat :=
  let galOk := match psetOf sets (BitVec.ofNat 16 h.pset) with
    | some c => galNeeded c w p
    | none => false
  let same := decide (p.bind.toNat = h.ksid ∧ p.spset.toNat = h.pset ∧ p.pidx.toNat % 65536 = p.epidx.toNat)
    && w.kinds.contains p.kkind.toNat && galOk
  (if p.memUnc then [2] else if p.corrupt then [3] else []) ++ (if same then [] else [4]) ++ (if h.chk && !p.chk then [5] else [])

/-- The running operation after page `i` of its list is reported with its causes: the held words whose pages are now all
reported leave the hold (R222), as zeros where a page failed (R183, R223). -/
def reportRun (o : RunOp) (i : Nat) (causes : List Nat) : RunOp × List (Nat × Word) :=
  let ps := (o.pages.zipIdx).map (fun p => if p.2 = i then { p.1 with report := some causes } else p.1)
  ({ o with pages := ps, held := o.held.filter (fun w => !heldReady ps w) },
   (o.held.filter (heldReady ps)).map (heldVal ps))

/-- What a failed page raises on the anchor: KEYFAIL, and KEYFAIL of its chain when it has stages. -/
def pageRaised (o : RunOp) (i : Nat) (causes : List Nat) : Raised :=
  let hit := decide (causes ≠ []) && o.held.any (fun w => w.pages.contains i)
  let n := (rmeCfg o.regs).chain.npro
  let chn := hit && decide ((rmeCfg o.regs).chain.nepi ≠ 0)
  { keyfail := hit, chnKeyfail := chn, stage := if chn then some n else none }

/-- The header of the target object of a page (R321): operand 0, or for L2S the first scalar input. -/
def targetHdr (c : Cluster) (r : Record) (p : PageInfo) : Hdr :=
  let hs := r.opSlots.map (fun s => hdrParse (hdrSlot c s))
  let first := hdrParse (hdrSlot c (r.opSlots.headD 0))
  if p.kkind = 7 then (hs.find? (fun h => decide (h.kind = 2))).getD first else first

/-- The Ferry's report of page `i` of the operation that the RME of a cluster runs (R321 to R325). -/
def bindingStep (m : Module) (cl i : Nat) : Module :=
  let c := clAt m cl
  match c.rme.run with
  | none => m
  | some o =>
    match o.pages[i]?, o.record with
    | some pu, some rn =>
      if pu.report.isSome then m
      else
        let r := tget {} (ctxOf c o.ctx).records rn
        let want := keyWant r (((jobAt m o.job).bind (fun j => recPrim j r)).map (·.2))
        let causes := bindCauses (jobSetsOf m o.job) want (targetHdr c r pu.info) pu.info
        let (o1, ws) := reportRun o i causes
        let x := pageRaised o i causes
        let m1 := scrAccess m cl o.job [] ws
        let m2 := onCl m1 cl (fun c => { markUnconf o1 c with
          rme := { stick c.rme x with run := some { o1 with keyfail := o1.keyfail || x.keyfail } } })
        if causes = [] then m2
        else onDie m2 (dieOf cl) (fun d => { d with ferBind := true, ferBindFails := satAdd d.ferBindFails 1 })
    | _, _ => m

/-- BINDING_REPORT. -/
def execBindingReport (cl : Fin 512) (page : Nat) (s : State) : Host.Outcome State Fault Refusal :=
  ok s (bindingStep s.m cl page)

end Sys2Proof.Machine
end

