-- ==== Sys2Proof/Machine/Real.lean ====
section
/-! DEFINITION. Real constants of the manual's procedures in fixed point of unit 2^−256: π, cosines and sines of rational
parts of a turn, powers of two, square roots, and the nearest integer and the nearest FP32 of such a value (R77, R160,
R161). The errors of the fixed point lie far below every rounding step that the manual names (DEDUCED, log entry 115). -/
namespace Sys2Proof.Machine

/-- Σ (−1)^k / ((2k + 1) n^(2k+1)) from term `k` on, in fixed point: `p` is n^−(2k+1). -/
def atanInvF (n : Nat) : Nat → Nat → Nat → Int
  | 0, _, _ => 0
  | f + 1, k, p => ((p / (2 * k + 1) : Nat) : Int) - atanInvF n f (k + 1) (p / (n * n))

/-- π by 16 atan(1/5) − 4 atan(1/239). -/
def piFix : Nat := (16 * atanInvF 5 120 0 (fix / 5) - 4 * atanInvF 239 120 0 (fix / 239)).toNat

/-- Σ (−1)^i x^(k+2i) / (k+2i)! of a fixed-point x, from the term `p` = x^k / k! on. -/
def trigF (x2 : Nat) : Nat → Nat → Nat → Int
  | 0, _, _ => 0
  | f + 1, k, p => (p : Int) - trigF x2 f (k + 2) (p * x2 / fix / ((k + 1) * (k + 2)))

/-- Cosine and sine of a fixed-point angle of at most π/4. -/
def cosSin8 (x : Nat) : Int × Int := (trigF (x * x / fix) 45 0 fix, trigF (x * x / fix) 45 1 x)

/-- Cosine and sine, in fixed point, of `a/b` of a turn. -/
def turn (a : Int) (b : Nat) : Int × Int :=
  let n := (a % (b : Int)).toNat
  let t := 4 * n % b
  let (c, s) := if 2 * t ≤ b then cosSin8 (piFix * t / (2 * b))
    else let (x, y) := cosSin8 (piFix * (b - t) / (2 * b)); (y, x)
  match 4 * n / b with
  | 0 => (c, s)
  | 1 => (-s, c)
  | 2 => (-c, -s)
  | _ => (s, -c)

/-- The integer nearest to 2^`k` times a fixed-point value. -/
def nearFix (k : Nat) (v : Int) : Int := (v * 2 ^ k + (fix / 2 : Nat)) / (fix : Int)

/-- The FP32 nearest to a fixed-point value. -/
def f32OfFix (v : Int) : Word := if v = 0 then 0 else (rnd32 (decide (v < 0)) v.natAbs (-256) false).1

/-- 2^(f/256) in fixed point, 0 ≤ f < 256. -/
def exp2Fix (f : Nat) : Nat := expFix (f * ln2Fix / 256)

/-- √x of a fixed-point x. -/
def sqrtFix (x : Nat) : Nat := isqrt (x * fix)

/-- A finite FP32 word as an exact multiple of 2^−149; 0 for a NaN or an infinity. -/
def f32Units (w : Word) : Int := match fpOf w with
  | .fin s m e => if s then -((m * 2 ^ (e + 149).toNat : Nat) : Int) else ((m * 2 ^ (e + 149).toNat : Nat) : Int)
  | _ => 0

/-- The FP32 nearest to a multiple of 2^−149, ties to even. -/
def f32OfUnits (v : Int) : Word := if v = 0 then 0 else (rnd32 (decide (v < 0)) v.natAbs (-149) false).1

end Sys2Proof.Machine
end

