-- ==== Sys2Proof/Machine/Encode.lean ====
section
/-! DEFINITION. Plaintext encoding (R77, R78) and its use on constants (R109) and on complex diagonals (R160). -/
namespace Sys2Proof.Machine

/-- rnd(v, k) of R77: half rounds towards plus infinity. -/
def rndHalfUp (v : Int) (k : Nat) : Int := (v + 2 ^ (k - 1)) / (2 ^ k : Int)

/-- C(t) and S(t) of R77 for ring dimension `n`. -/
def encTwiddle (n t : Nat) : Int × Int := let (c, s) := turn t (2 * n); (nearFix 62 c, nearFix 62 s)

/-- EXP2T[f] of R77. -/
def encExp2 (f : Nat) : Int := nearFix 62 (exp2Fix f)

/-- A value as exact fixed point with 40 fraction bits, rounded half to even; none for a NaN, an infinity or a magnitude of
2^20 and above (R77). -/
def encFixed (w : Word) : Option Int := match fpOf w with
  | .fin s m e =>
    if m ≠ 0 ∧ (Nat.log2 m : Int) + e ≥ 20 then none
    else let x : Int := (roundInt m (e + 40)).1; some (if s then -x else x)
  | _ => none

/-- A complex value in fixed point. -/
abbrev Cpx := Int × Int

/-- One block of the butterfly loop of R77: its lower half takes the halved sums, its upper half the halved differences
times the twiddles. -/
def encBlock (n len : Nat) (xs : List Cpx) : List Cpx :=
  let h := len / 2
  let ps := List.zip (xs.take h) (xs.drop h)
  ps.map (fun p => (rndHalfUp (p.1.1 + p.2.1) 1, rndHalfUp (p.1.2 + p.2.2) 1))
    ++ ps.zipIdx.map (fun q =>
      let (c, s) := encTwiddle n ((4 * len - 5 ^ q.2 % (4 * len)) * (2 * n / (4 * len)))
      let dr := q.1.1.1 - q.1.2.1
      let di := q.1.1.2 - q.1.2.2
      (rndHalfUp (dr * c - di * s) 63, rndHalfUp (dr * s + di * c) 63))

/-- A layer of the loop over all blocks of `len` values. -/
def encLayer (n len : Nat) (xs : List Cpx) : List Cpx :=
  (List.range (xs.length / len)).flatMap (fun b => encBlock n len ((xs.drop (b * len)).take len))

/-- The layers from blocks of 2^k values down to blocks of 2. -/
def encLayers (n : Nat) : Nat → List Cpx → List Cpx
  | 0, xs => xs
  | k + 1, xs => encLayers n k (encLayer n (2 ^ (k + 1)) xs)

/-- scl of R77 at scale exponent `e`. -/
def encScale (e v : Int) : Int :=
  let sh := 102 - e / 256
  let y := v * encExp2 (e % 256).toNat
  if sh ≥ 1 then rndHalfUp y sh.toNat else y * 2 ^ (-sh).toNat

/-- The polynomial that encodes slot values in ring dimension `n` at scale exponent `e` (R77). -/
def encPoly (n : Nat) (e : Int) (xs : List Cpx) : List Int :=
  let s := xs.length
  let k := Nat.log2 s
  let ys := encLayers n k xs
  let zs := (List.range s).map (fun j => ys.getD (brv k j) (0, 0))
  let gap := n / (2 * s)
  let put (vs : List Int) : List Int := vs.flatMap (fun v => encScale e v :: List.replicate (gap - 1) 0)
  put (zs.map (·.1)) ++ put (zs.map (·.2))

/-- The product of a list of primes. -/
def primeProd (qs : List Nat) : Nat := qs.foldl (· * ·) 1

/-- Slot values `re` with imaginary parts `im` (R160; no list for R77's zeros) encoded into the polynomial m of R77 for a
modulus that is the product of `qs`; none is the DOMAIN result (R78). -/
def encode (n : Nat) (qs : List Nat) (e : Int) (re im : List Word) : Option (List Int) :=
  let xs := re.map encFixed
  let ys := if im = [] then re.map (fun _ => some 0) else im.map encFixed
  if xs.any (·.isNone) || ys.any (·.isNone) then none
  else
    let m := encPoly n e (List.zip (xs.map (·.getD 0)) (ys.map (·.getD 0)))
    if m.any (fun v => decide (2 * v.natAbs ≥ primeProd qs)) then none else some m

/-- m[0] of a constant (R109). -/
def encodeConst (n : Nat) (qs : List Nat) (e : Int) (x : Word) : Option Int :=
  (encode n qs e [x] []).map (·.headD 0)

/-- The limb of a polynomial modulo `q`: in coefficient order, or transformed as R63 defines. -/
def polyLimb (logn : Nat) (ntt : Bool) (m : List Int) (q : Nat) : List Nat :=
  let a := m.map (intMod q)
  if ntt then nttOf q logn a else a

end Sys2Proof.Machine
end

