-- ==== Sys2Proof/Machine/Boot.lean ====
section
/-! DEFINITION. The tables of the bootstrap (R158 to R161): the linear stages that R77's butterfly layers are split into, their
complex diagonals, and the constants of the modular reduction. -/
namespace Sys2Proof.Machine

/-! ## Linear stages (R159) -/

/-- A product of complex fixed-point values. -/
def cmul (a b : Cpx) : Cpx := ((a.1 * b.1 - a.2 * b.2) / (fix : Int), (a.1 * b.2 + a.2 * b.1) / (fix : Int))

/-- One butterfly layer of R77 over blocks of `len` values, exact: sums and differences halved, differences times the twiddle.
`inv` is the inverse layer. R159's letter: slot-to-coefficient stages apply R77's own butterflies to the slots, although R148 speaks
of coefficient p_j as slot value v_j; and "without the fixed-point scaling" leaves out R77's factors 2^40 and EXP2T, not the halvings
(DESIGN CHOICE, log entry 152). -/
def bootLayer (inv : Bool) (len : Nat) (xs : List Cpx) : List Cpx :=
  let h := len / 2
  (List.range (xs.length / len)).flatMap (fun b =>
    let blk := (xs.drop (b * len)).take len
    let ps := List.zip (blk.take h) (blk.drop h)
    let tw (j : Nat) : Cpx := turn (if inv then (5 ^ j % (4 * len) : Nat) else (4 * len - 5 ^ j % (4 * len) : Nat)) (4 * len)
    if inv then
      let us := ps.zipIdx.map (fun q => let u := cmul q.1.2 (tw q.2); (q.1.1, u))
      us.map (fun p => (p.1.1 + p.2.1, p.1.2 + p.2.2)) ++ us.map (fun p => (p.1.1 - p.2.1, p.1.2 - p.2.2))
    else
      ps.map (fun p => ((p.1.1 + p.2.1) / 2, (p.1.2 + p.2.2) / 2))
        ++ ps.zipIdx.map (fun q => cmul ((q.1.1.1 - q.1.2.1) / 2, (q.1.1.2 - q.1.2.2) / 2) (tw q.2)))

/-- How many layers each of `s` stages takes of `n`: as equal as possible, the wider first. -/
def stageWidths (n s : Nat) : List Nat := (List.range s).map (fun i => n / s + b2n (decide (i < n % s)))

/-- The block lengths of the layers of each stage, first layer first: 2^n, 2^(n−1), … . -/
def stageLayers (n s : Nat) : List (List Nat) :=
  ((stageWidths n s).foldl (fun (acc : List (List Nat) × Nat) w =>
    (acc.1 ++ [(List.range w).map (fun i => 2 ^ (acc.2 - i))], acc.2 - w)) ([], n)).1

/-- Values in bit-reversed order. -/
def bitRev (n : Nat) (xs : List Cpx) : List Cpx := (List.range xs.length).map (fun j => xs.getD (brv n j) (0, 0))

/-- Stage `i` of the slot-to-coefficient transform of 2^n slots in `s` stages: its layers, and after the last one R77's bit
reversal (R159; which stage holds the reversal is DESIGN CHOICE, log entry 117). -/
def slotStageMap (n s i : Nat) (xs : List Cpx) : List Cpx :=
  let ys := ((stageLayers n s).getD i []).foldl (fun v len => bootLayer false len v) xs
  if i + 1 = s then bitRev n ys else ys

/-- Stage `i` of the coefficient-to-slot transform: the inverse of slot-to-coefficient stage s − 1 − i. -/
def coefStageMap (n s i : Nat) (xs : List Cpx) : List Cpx :=
  let k := s - 1 - i
  let ys := if i = 0 then bitRev n xs else xs
  ((stageLayers n s).getD k []).reverse.foldl (fun v len => bootLayer true len v) ys

/-- The columns of a linear map of `s` slots. -/
def mapCols (s : Nat) (f : List Cpx → List Cpx) : List (List Cpx) :=
  (List.range s).map (fun c => f ((List.range s).map (fun j => if j = c then ((fix : Int), 0) else (0, 0))))

/-- Diagonal `i` of a linear map with these columns: entry j is M[j][(j + i) mod s] (R139). -/
def mapDiag (cols : List (List Cpx)) (i : Nat) : List Cpx :=
  let s := cols.length
  (List.range s).map (fun j => (cols.getD ((j + i) % s) []).getD j (0, 0))

/-- Whether a diagonal holds a value that is not zero. -/
def diagLive (d : List Cpx) : Bool := d.any (fun v => decide (v ≠ (0, 0)))

/-- The FP32 words nearest to the real and imaginary parts of a diagonal times `num / den` (R160). -/
def diagWords (num den : Nat) (d : List Cpx) : List Word × List Word :=
  let w (v : Int) : Word := f32OfFix (v * num / (den : Int))
  (d.map (fun v => w v.1), d.map (fun v => w v.2))

/-! ## Constants of the modular reduction (R161) -/

/-- g(u) = cos(2π(Ku − ¼) ÷ 2^r) of a fixed-point u. -/
def bootG (k r : Nat) (u : Int) : Int := (turn ((k : Int) * u - (fix / 4 : Nat)) (fix * 2 ^ r)).1

/-- c_i of R161. -/
def bootC (k r i : Nat) : Int :=
  let sum := (List.range 64).foldl (fun (acc : Int) t =>
    acc + bootG k r (turn (2 * t + 1 : Nat) 256).1 * (turn (i * (2 * t + 1) : Nat) 256).1 / (fix : Int)) 0
  sum * (if i = 0 then 1 else 2) / 64

/-- a_i, in fixed point, from the final constant a_r (R161), for i = r down to 0. -/
def bootAs (ar : Nat) : Nat → List Nat
  | 0 => [ar]
  | r + 1 => bootAs (sqrtFix (2 * ar)) r ++ [ar]

/-- The final constant of N_BOOT: q0 ÷ (2π × 2^(s ÷ 256)) for input SCALE `s`. -/
def bootFinal (q0 s : Nat) : Nat := q0 * fix * fix / (2 * piFix) * fix / exp2Fix (s % 256) / 2 ^ (s / 256)

/-- The final constant of N_REPACK: 2^(m + 1) ÷ 2π (R151). -/
def repackFinal (m : Nat) : Nat := 2 ^ (m + 1) * fix * fix / (2 * piFix)

/-- The FP32 coefficients a_0 c_i of the reduction's polynomial, and a_1 to a_r. -/
def bootConsts (k r ar : Nat) : List Word × List Word :=
  let as := bootAs ar r
  ((List.range 64).map (fun i => f32OfFix (bootC k r i * (as.headD 0 : Nat) / (fix : Int))), (as.drop 1).map (fun (a : Nat) => f32OfFix a))

end Sys2Proof.Machine
end

