-- ==== Sys2Proof/Machine/Custom.lean ====
section
/-! DEFINITION. Custom parameter sets: the entry layout of R393, the validation of R58, and the table of a graph or of an
image's PSETS section. -/
namespace Sys2Proof.Machine

/-- T in bits for log2 N (*Security limits*). -/
def securityLimit (logn : Nat) : Nat := [27, 54, 109, 218, 438, 881, 1772, 3524].getD (logn - 10) 0

/-- Whether all numbers of a list differ. -/
def allDiffer : List Nat → Bool
  | [] => true
  | x :: xs => !xs.contains x && allDiffer xs

/-- Checks 2 to 4 of R58 over a list of primes: the first that fails, 0 for none. -/
def primeChecks (logn : Nat) (qs : List Nat) : Nat :=
  if qs.any (fun q => decide (q ≤ 2 ^ 19 ∨ q ≥ 2 ^ 31)) then 2
  else if qs.any (fun q => !isPrime q) then 3
  else if qs.any (fun q => decide (q % 2 ^ (logn + 1) ≠ 1)) then 4
  else 0

/-- *Custom set validation* for a slot set. -/
def slotCheck (c : CustomSet) : Nat :=
  let all := c.qs ++ c.ps
  if c.logn < 12 ∨ c.logn > 17 then 1
  else if primeChecks c.logn all ≠ 0 then primeChecks c.logn all
  else if !allDiffer (setCheckPrime c :: all) then 5
  else if c.qs = [] ∨ c.qs.length > 128 ∨ c.dnum = 0 ∨ c.dnum > c.qs.length ∨ c.ps.length < ceilDiv c.qs.length c.dnum then 6
  else if (setCheckPrime c :: all).foldl (· * ·) 1 ≥ 2 ^ securityLimit c.logn then 7
  else 0

/-- The least noise figure of check 7, in 1/256 bit, for dimension `d`. -/
def noiseFloor (c : CustomSet) (d : Nat) : Int := max (256 - ((63 * d / 10 : Nat) : Int)) (768 - (setLQ c : Nat))

/-- *Custom set validation* for a scalar set. -/
def scalarCheck (c : CustomSet) : Nat :=
  if c.n < 256 ∨ c.n > 2048 ∨ c.n % 16 ≠ 0 ∨ c.logn < 10 ∨ c.logn > 15 ∨ c.k = 0 ∨ c.k > 4 ∨ c.mbits = 0 ∨ c.mbits > 8 then 1
  else if primeChecks c.logn [c.qa, c.qb] ≠ 0 then primeChecks c.logn [c.qa, c.qb]
  else if c.qa = c.qb then 5
  else if c.brw * c.brl > 62 ∨ c.ksw * c.ksl > 62 then 6
  else if c.noiseL < noiseFloor c c.n ∨ c.noiseG < noiseFloor c (c.k * setN c) then 7
  else 0

/-- The first check of R58 that a custom set fails, 0 for none. -/
def customCheck (c : CustomSet) : Nat := if c.scalar then scalarCheck c else slotCheck c

/-- The set of the entry at the head of `e` (*Custom-set entry*). -/
def customOf (e : List Byte) : CustomSet :=
  let f := fun o n => field e o n
  let nq := f 8 1
  let np := f 9 1
  let word (i : Nat) : Nat := f (16 + 4 * i) 4
  if f 2 1 = 2 then
    { setno := BitVec.ofNat 16 (f 0 2), scalar := true, logn := f 3 1, n := f 8 2, k := f 10 1, mbits := f 11 1,
      qa := f 12 4, qb := f 16 4, brw := f 20 1, brl := f 21 1, ksw := f 22 1, ksl := f 23 1,
      noiseL := signed 16 (f 24 2), noiseG := signed 16 (f 26 2) }
  else
    { setno := BitVec.ofNat 16 (f 0 2), scalar := false, logn := f 3 1, qs := (List.range nq).map word,
      ps := (List.range np).map (fun i => word (nq + i)), dnum := f 10 1, scale := f 12 2 }

/-- ELEN as the fields of the entry require it. -/
def customLen (e : List Byte) : Nat :=
  if field e 2 1 = 2 then 32 else 16 * ceilDiv (16 + 4 * (field e 8 1 + field e 9 1)) 16

/-- Whether the entry meets the layout of R393, with SETNO from `lo` to `hi`. -/
def customForm (e : List Byte) (lo hi : Nat) : Bool :=
  let n := field e 0 2
  let k := field e 2 1
  decide (lo ≤ n ∧ n ≤ hi ∧ (k = 1 ∨ k = 2) ∧ field e 4 4 = customLen e ∧ customLen e ≤ e.length)
    && (if k = 2 then zeroField e 28 4
        else zeroField e 11 1 && zeroField e 14 2)

/-- The entries of a table, in order; `none` for the first one that does not meet R393, after which nothing is read. -/
def customTable (lo hi : Nat) : Nat → List Byte → List (Option CustomSet)
  | 0, _ => []
  | n + 1, bs =>
    if customForm bs lo hi then some (customOf bs) :: customTable lo hi n (bs.drop (customLen bs)) else [none]

end Sys2Proof.Machine
end

