-- ==== Sys2Proof/Machine/Ste.lean ====
section
/-! DEFINITION. The stream engines: the start of a stream and its re-arming (R504 to R508), the checks of a transfer (R363, R366 to
R370), its walks, and its reads and writes of memory (R371 to R374). -/
namespace Sys2Proof.Machine

/-! ## Loaded sets and starts -/

/-- A loaded set (*STE_SD_s*). -/
structure SSet where
  srcd : Nat
  dstd : Nat
  srch : Word
  dsth : Word
  rep : Nat
  sadv : Int
  dadv : Int
  dflag : Nat
  den : Bool
  hslot : Nat
  aflag : Nat
  aen : Bool

/-- The loaded set that eight words hold. -/
def ssetOf (ws : List Word) : SSet :=
  let w := wd ws
  { srcd := bits (w 0) 15 4, dstd := bits (w 0) 27 16, srch := ws.getD 1 0, dsth := ws.getD 2 0, rep := bits (w 3) 23 0,
    sadv := signed 32 (w 4), dadv := signed 32 (w 5), dflag := bits (w 6) 16 0, den := bit (w 6) 17,
    hslot := bits (w 6) 27 18, aflag := bits (w 7) 16 0, aen := bit (w 7) 17 }

/-- The handle a transfer uses for an entry. -/
def useHandle (x : Desc) (h : Word) : Word := if x.region = 0xFFFFFFFF then h else x.region

/-- Lowest and highest word of the padding coordinates that MATPAD writes, inside the allocated range. -/
def padBounds (x : Desc) (base : Int) : Int × Int :=
  let ends (d : Dim) : Int × Int := (d.off * d.stride, (d.off + d.ext - 1) * d.stride)
  let lo := x.outer.foldl (fun a d => a + min (ends d).1 (ends d).2) base
  let hi := x.outer.foldl (fun a d => a + max (ends d).1 (ends d).2) base + x.unit - 1
  (max lo x.alo, min hi ((x.alo : Int) + x.alen - 1))

/-- The span of one side of a stream over all its transfers, in a scratchpad, with its cluster (R505). -/
def steSpan (m : Module) (die tag : Nat) (x : Desc) (h : Word) (adv : Int) (rep : Nat) (wr : Bool) : Option (Nat × Span) :=
  match slotOf m die tag (useHandle x h) with
  | some p =>
    if p.kind = 0 then
      let (lo, hi) := x.bounds x.base
      let (plo, phi) := if wr && x.matpad then padBounds x x.base else (lo, hi)
      let k := ((rep : Int) - 1) * adv
      let at_ (a : Int) : Nat := ((p.cl * 2 ^ 21 + p.start : Nat) + a).toNat
      some (p.cl, { lo := at_ (min lo plo + min 0 k), hi := at_ (max hi phi + max 0 k) })
    else none
  | none => none

/-- SEQ_RIX_2, SEQ_RIXP_2 and SEQ_RIXS_2 of the cluster that a stream reads: the controls of its crossbar send port (R336, R340). -/
def sendPort (m : Module) (die tag : Nat) (s : SSet) : Tab Word :=
  let x := descOf (dieAt m die) s.srcd
  match slotOf m die tag (useHandle x s.srch) with
  | some p => if p.kind = 0 then (clAt m p.cl).rix.filter (fun q => decide (q.1 / 4 = 2)) else []
  | none => []

/-- The source words of a stream in a scratchpad, with their cluster: those of its entry, or those of the transposed blocks. -/
def steSource (m : Module) (die tag : Nat) (s : SSet) : Option (Nat × Span) :=
  let r := rixOf (sendPort m die tag s) 2
  (steSpan m die tag (descOf (dieAt m die) s.srcd) s.srch s.sadv s.rep false).map (fun p =>
    if r.mode = 2 then (p.1, transposedSpan r) else p)

/-- The destination words of a stream in a scratchpad, with their cluster. -/
def steTarget (m : Module) (die tag : Nat) (s : SSet) : Option (Nat × Span) :=
  steSpan m die tag (descOf (dieAt m die) s.dstd) s.dsth s.dadv s.rep true

/-- The rows of those words inside the slice. -/
def destRows (t : Option (Nat × Span)) : Option (Nat × Nat × Nat) :=
  t.map (fun p => (p.1, (p.2.lo - p.1 * 2 ^ 21) / 64, min ((p.2.hi - p.1 * 2 ^ 21) / 64) (Config.sliceRows - 1)))

/-- The ranges of a stream on its own cluster (R453): its source read, its destination written. -/
def steRanges (m : Module) (cl tag : Nat) (s : SSet) : List Declared1 :=
  let own (o : Option (Nat × Span)) (wr : Bool) : List Declared1 := match o with
    | some p => if p.1 = cl then [(p.2, wr)] else []
    | none => []
  own (steSource m (dieOf cl) tag s) false ++ own (steTarget m (dieOf cl) tag s) true

/-- Index tuples of an entry: its objects for OBJ, else its elements. -/
def Desc.count (x : Desc) : Nat := x.dims.foldl (fun n d => n * d.ext) 1

/-- Whether an egress of the stream reads a header slot whose merge is in flight (R466). -/
def steHeaderBusy (m : Module) (die tag : Nat) (s : SSet) : Bool :=
  let src := descOf (dieAt m die) s.srcd
  let dst := descOf (dieAt m die) s.dstd
  match slotOf m die tag (useHandle src s.srch) with
  | some p => dst.obj && decide (p.kind = 0)
      && (clAt m p.cl).hdrReady.any (fun q => decide (q.2 ≠ 0 ∧ (q.1 + 1024 - s.hslot) % 1024 < dst.count))
  | none => false

/-- Stream engine `s` of a die. -/
def steAt (d : Die) (s : Nat) : StreamEngine := tget {} d.ste s

/-- The module with stream engine `s` of die `die` changed. -/
def onSte (m : Module) (die s : Nat) (f : StreamEngine → StreamEngine) : Module :=
  onDie m die (fun d => { d with ste := tmod {} d.ste s f })

/-- The a-cycle by which the host model (GLB_HOST) answers the host read of transfer `r` of a stream that starts now (R40, R401): latency in
units of 0.1 µs, then the bytes at the read rate in GB/s. -/
def hostDue (m : Module) (die tag : Nat) (s : SSet) : Option Nat :=
  let x := descOf (dieAt m die) s.srcd
  match slotOf m die tag (useHandle x s.srch) with
  | some p =>
    if p.kind = 2 then
      some (m.now + 250 * m.quay.rdLat.toNat + ceilDiv (5 * 4 * x.count * x.unit) (2 * max 1 m.quay.rdRate.toNat))
    else none
  | none => none

/-- The rows that an operation of cluster `cl` declares as written stop being poisoned for every later operation (R467). -/
def clearDeclared (m : Module) (cl : Nat) (ranges : List Declared1) : Module :=
  let rows := clearedRows (clAt m cl) ranges
  onCl (zeroStreams cl rows m) cl (fun c =>
    { c with nte := withZero rows c.nte, rme := withZero rows c.rme, vec := withZero rows c.vec,
             poisoned := c.poisoned.filter (fun q => !rows.contains q.1) })

/-- START with ENGINE 4 (R504 to R507, R340, R455, R466): the current stream engine of the context. A declared range beyond the populated
words is refused (R22), and so is a mode of the send port that it cannot meet (R340); the transposed blocks are the same in every
transfer (DESIGN CHOICE, log entry 150). -/
def steStartBody (cl k : Nat) (m : Module) (x : Context) (ws : List Word) : Res :=
  if argOf ws % 16 ≠ 4 then .idle
  else if argOf ws / 16 ≠ 0 ∨ lenOf ws ≠ 1 ∨ wd ws 1 ≠ 0 then .kill .streamInvalid m
  else
    let die := dieOf cl
    let ws8 := tgetRange (0 : Word) (dieAt m die).sd (8 * x.curSte) 8
    let s := ssetOf ws8
    let e := steAt (dieAt m die) x.curSte
    let other := match e.active with
      | some a => decide (a.job ≠ x.job)
      | none => false
    if s.rep = 0 then .kill .cfgInvalid m
    else if other then .hold 4 0 0 0 m
    else if e.active.isSome && e.armed then
      .kill .rearmOverrun (fenceDests (onSte m die x.curSte (fun _ => { overrun := true })) (m.fenceSeq + 1) (streamDests none e))
    else if steHeaderBusy m die x.job s then .hold 8 0 0 0 m
    else
      let c := clAt m cl
      let ranges := steRanges m cl x.job s
      let port := sendPort m die x.job s
      let src := descOf (dieAt m die) s.srcd
      let far := match steSource m die x.job s with
        | some p => decide ((rixOf port 2).mode = 2) && !spanIn p.1 p.2
        | none => false
      if rixBad (rixOf port 2) false (src.count * src.unit) then .kill .cfgInvalid m
      else if ranges.any (fun r => !spanIn cl r.1) || far then .kill .addrInvalid m
      else match scbCause c (runsUnchecked m cl k) ranges with
      | some cause => .hold cause 0 0 0 (onCl m cl (countHold cause (heldNow m.now x)))
      | none =>
        let (rbf, obd) := scbConflicts c.scb ranges
        let st : Stream := {
          set := ws8, job := x.job, cl := cl, ctx := k, opid := c.nextOp, due := hostDue m die x.job s,
          rix := port, zeroRows := (clearedRows c ranges).map (fun r => (cl, r)),
          dest := destRows (steTarget m die x.job s) }
        let m1 := onCl (clearDeclared m cl ranges) cl (fun c => { c with
          scb := c.scb ++ scbEntries ranges k 4 c.nextOp, nextOp := c.nextOp + 1,
          conflicts := if rbf || obd then satAdd c.conflicts 1 else c.conflicts })
        .done 1 (onSte m1 die x.curSte (fun e =>
          if e.active.isSome then { e with shadow := some st, armed := true } else { e with active := some st }))

/-! ## Checks of a transfer -/

/-- What a transfer moves: its two entries, their slots and their advanced bases. -/
structure Move where
  src : Desc
  dst : Desc
  ps : Slot
  pd : Slot
  bs : Int
  bd : Int

/-- First and last word (scratchpad) or byte (stack, host) of a side's interval, with the memory it lies in; none when it
leaves the allocated range, the populated addresses or, in a stack, whole units (R22, R25, R505). -/
def sideSpan1 (x : Desc) (p : Slot) (base : Int) : Option (Nat × Nat × Int × Int) :=
  let (lo, hi) := x.bounds base
  if lo < x.alo ∨ hi ≥ (x.alo + x.alen : Nat) then none
  else if p.kind = 0 then
    let a := (p.start : Int) + lo
    let b := (p.start : Int) + hi
    if a < 0 ∨ b ≥ (Config.sliceWords : Int) then none else some (0, p.cl, a, b)
  else
    let a := (p.start : Int) + 4 * lo
    let b := (p.start : Int) + 4 * hi + 3
    if a < 0 then none
    else if p.kind = 1 then
      (if a / 2 ^ 37 ≠ b / 2 ^ 37 ∨ b % 2 ^ 37 ≥ (Config.stackBytes : Int) ∨ a / 2 ^ 37 ≥ 16 ∨ a % 64 ≠ 0 ∨ b % 64 ≠ 63
       then none else some (1, (a / 2 ^ 37).toNat, a, b))
    else some (2, 0, a, b)

/-- Whether the pad words that a destination writes lie in populated addresses (R22, R25). -/
def padPopulated (x : Desc) (p : Slot) (base : Int) : Bool :=
  let (lo, hi) := padBounds x base
  !x.matpad || decide (hi < lo)
    || (if p.kind = 0 then decide (0 ≤ (p.start : Int) + lo ∧ (p.start : Int) + hi < (Config.sliceWords : Int))
        else if p.kind = 1 then
          let a := (p.start : Int) + 4 * lo
          let b := (p.start : Int) + 4 * hi + 3
          decide (0 ≤ a ∧ a / 2 ^ 37 = b / 2 ^ 37 ∧ b % 2 ^ 37 < (Config.stackBytes : Int) ∧ a / 2 ^ 37 < 16 ∧ a % 64 = 0 ∧ b % 64 = 63)
        else decide (0 ≤ (p.start : Int) + 4 * lo))

/-- Words of an OBJ walk's payload per object, 1 otherwise. -/
def Desc.per (x : Desc) : Nat := if x.obj then x.objWords - 16 else 1

/-- The checks that a transfer makes when it starts (R363, R366 to R370, R475, R505). -/
def moveCheck (m : Module) (die : Nat) (st : Stream) : Except KillCause Move :=
  let d := dieAt m die
  let s := ssetOf st.set
  let src := descOf d s.srcd
  let dst := descOf d s.dstd
  let hs := useHandle src s.srch
  let hd := useHandle dst s.dsth
  let bs := (src.base : Int) + st.r * s.sadv
  let bd := (dst.base : Int) + st.r * s.dadv
  let supplied (x : Desc) (p : Slot) : Nat := if x.region = 0xFFFFFFFF then x.poolCheck p else 0
  if !(tget {} d.dstat s.srcd).valid || !(tget {} d.dstat s.dstd).valid || !dst.wr || dst.xpose then .error .cfgInvalid
  else if !handleOk m die st.job hs || !handleOk m die st.job hd then .error .handleInvalid
  else match slotOf m die st.job hs, slotOf m die st.job hd with
    | some ps, some pd =>
      let c1 := supplied src ps
      let c2 := if c1 = 0 then supplied dst pd else c1
      if c2 = 2 then .error .addrInvalid
      else if c2 ≠ 0 ∨ src.fmt ≠ dst.fmt ∨ (src.obj && dst.obj && decide (src.objWords ≠ dst.objWords)) = true
          ∨ src.count * src.per ≠ dst.count * dst.per then .error .cfgInvalid
      else match sideSpan1 src ps bs, sideSpan1 dst pd bd with
        | some (ka, ma, la, ha), some (kb, mb, lb, hb) =>
          if !padPopulated dst pd bd then .error .addrInvalid
          else if ka = kb ∧ ma = mb ∧ la ≤ hb ∧ lb ≤ ha then .error .cfgInvalid
          else .ok { src := src, dst := dst, ps := ps, pd := pd, bs := bs, bd := bd }
        | _, _ => .error .addrInvalid
    | _, _ => .error .handleInvalid

/-! ## Walks, reads and writes -/

/-- The tuples of dimensions given slowest first: whether each is in bounds, and its address (R360). -/
def walkDims : List Dim → Bool × Int → List (Bool × Int)
  | [], a => [a]
  | d :: ds, (ok, a) => (List.range d.ext).flatMap (fun (i : Nat) =>
      let c := (i : Int) + d.off
      walkDims ds (ok && decide (0 ≤ c ∧ c < d.valid), a + c * d.stride))

/-- The walk of an entry: one tuple for each word, each packed row, or each object (R360, R375, R382). -/
def Desc.walk (x : Desc) (base : Int) : List (Bool × Int) :=
  let ds := match x.xpose, x.outer with
    | true, a :: b :: rest => b :: a :: rest
    | _, ds => ds
  walkDims ds.reverse (true, base)

/-- An element on its way: its code, and the block scale of an MX element. -/
abbrev Elt := Nat × Nat

/-- The fill element of a format (R379). -/
def Desc.fillElt (x : Desc) : Elt :=
  let f := x.fill.toNat
  if isMx x.fmt then (if x.fmt = 7 then f % 16 else f % 256, bits f 15 8)
  else if x.fmt = 8 ∨ x.fmt = 9 then (f % 65536, 0)
  else if x.packed then (f % 256, 0) else (f, 0)

/-- Blocks of 32 elements with their scale. -/
def mxBlocks : Nat → List Elt → List (Nat × List Nat)
  | 0, _ => []
  | n + 1, es => match es with
    | [] => []
    | e :: _ => (e.2, (es.take 32).map (·.1)) :: mxBlocks n (es.drop 32)

/-- The words that elements of a format take in a row (R375 to R378). -/
def packElts (fmt : Nat) (es : List Elt) : List Word :=
  if isMx fmt then packMxF fmt es.length (mxBlocks es.length es) else packRow fmt (es.map (·.1))

/-- A unit full of fill elements. -/
def Desc.fillUnit (x : Desc) : List Word :=
  if x.packed then packElts x.fmt (List.replicate (x.dim 0).ext x.fillElt)
  else List.replicate x.unit x.fill

/-- Row word that holds element `k` of a packed row. -/
def eltWord (fmt k : Nat) : Nat :=
  if isMx fmt then (mxPlace fmt (k / 32)).2 + (if fmt = 7 then k % 32 / 8 else k % 32 / 4)
  else if fmt = 8 ∨ fmt = 9 then k / 2 else if 1 ≤ fmt ∧ fmt ≤ 3 then k / 4 else k

/-- The words of each unit of a source's walk, as addresses of its memory: scratchpad words, or bytes of a stack or of the host; none
for a unit of padding. Through a transposed send port the words come from the blocks, in the order in which the port delivers them
(R336). -/
def unitAddrs (x : Desc) (p : Slot) (rix : Rix) : Nat → List (Bool × Int) → List (List Nat)
  | _, [] => []
  | k, (inb, a) :: rest =>
    if inb then
      (List.range x.unit).map (fun i =>
        if p.kind = 0 then (if rix.mode = 2 then transposedAddr rix (k + i) % 2 ^ 21 else p.start + a.toNat + i)
        else p.start + 4 * (a.toNat + i)) :: unitAddrs x p rix (k + x.unit) rest
    else [] :: unitAddrs x p rix k rest

/-- The words of a unit at the addresses `ws`, as a read delivers them, `fill` standing for fenced words (R350, R355, R374); `zero`
lists the rows that read 0 for the stream (R467). A host slot delivers what the host answers. -/
def unitWords (m : Module) (p : Slot) (zero : List Nat) (fill : List Word) (ws : List Nat) (host : List Word) : List Word :=
  if p.kind = 0 then
    let c := clAt m p.cl
    ws.zipIdx.map (fun w =>
      if c.restricted then 0 else if rowFenced c (rowOf w.1) then fill.getD w.2 0 else scrWord c zero w.1)
  else if p.kind = 1 then
    let b := ws.headD 0
    let s := stkAt m (stkOf b)
    (wordsOf (stkRead s (stkOff b) (4 * ws.length))).zipIdx.map (fun w =>
      if stkFenced s (stkOff b + 4 * w.2) then fill.getD w.2 0 else w.1)
  else (List.range ws.length).map (fun i => host.getD i 0)

/-- The units of a source: the in-bounds ones read, the padding ones FILL (R371). The host's answers come in walk order. -/
def readUnits (m : Module) (x : Desc) (p : Slot) (zero : List Nat) : List (List Nat) → List Word → List (List Word)
  | [], _ => []
  | ws :: rest, host =>
    if ws = [] then x.fillUnit :: readUnits m x p zero rest host
    else unitWords m p zero x.fillUnit ws (host.take x.unit) :: readUnits m x p zero rest (host.drop x.unit)

/-- Whether a word at address `a` of a slot's memory stands for an uncorrectable read, this one or an earlier one (R348, R528). -/
def wordLost (m : Module) (p : Slot) (a : Nat) : Bool :=
  if p.kind = 0 then !(clAt m p.cl).restricted && readsLost (clAt m p.cl) [a]
  else if p.kind = 1 then
    let s := stkAt m (stkOf a)
    !stkFenced s (stkOff a) && (unitBad s (stkOff a / 64) || s.lost.contains (stkOff a / 64))
  else false

/-- For each unit of a source, whether a word of it is lost and no replay of job `tag` clears that (R679). -/
def lostUnits (m : Module) (tag : Nat) (p : Slot) (us : List (List Nat)) : List Bool :=
  us.map (fun ws => !jobReplays m tag && ws.any (wordLost m p))

/-- Every second of equal neighbours dropped. -/
def dedup1 : List Nat → List Nat
  | a :: b :: rest => if a = b then dedup1 (b :: rest) else a :: dedup1 (b :: rest)
  | l => l

/-- Word offsets of the in-bounds units of a walk. -/
def walkWords (x : Desc) (w : List (Bool × Int)) : List Nat :=
  (w.filter (·.1)).flatMap (fun t => (List.range x.unit).map (t.2.toNat + ·))

/-- `n` accesses to fenced units of a stack: SCRUB_FENCE counts them in the cluster `cl` that started the stream and marks the job
(R351, R374, R539; DESIGN CHOICE, log entry 149). -/
def stackFenceHits (m : Module) (cl tag n : Nat) : Module :=
  if n = 0 then m
  else onJob (onCl m cl (fun c => { c with fenceHits := satAdd c.fenceHits n })) tag (fun j => { j with fence := j.fence + n })

/-- Words at the byte addresses `ws` of a stack that are fenced. -/
def stackHits (m : Module) (ws : List Nat) : Nat := (ws.filter (fun b => stkFenced (stkAt m (stkOf b)) (stkOff b))).length

/-- The effects of a source's reads at the addresses `ws`, for a stream of cluster `cl`: the scratchpad's and the controllers' counts,
the fence marks of the job, and the replays of uncorrectable words (R346, R348, R351, R355, R527, R528, R539). -/
def readFx (m : Module) (cl tag : Nat) (p : Slot) (ws : List Nat) : Module :=
  if p.kind = 0 then
    (if (clAt m p.cl).restricted then onCl m p.cl (fun c => { c with restrictHits := satAdd c.restrictHits ws.length })
     else scrAccess m p.cl tag ws [])
  else if p.kind = 1 then
    (dedup1 (ws.map (· / 64))).foldl (fun m u => stkAccess m (64 * u) 64 tag .memory) (stackFenceHits m cl tag (stackHits m ws))
  else m

/-- Consecutive addresses of a list of writes joined to runs; `step` is the distance of neighbours. -/
def runsOf (step : Nat) : List (Nat × Word) → List (Nat × List Word)
  | [] => []
  | (a, v) :: rest => match runsOf step rest with
    | (b, vs) :: more => if b = a + step then (a, v :: vs) :: more else (a, [v]) :: (b, vs) :: more
    | [] => [(a, [v])]

/-- Words of a slot that a transfer has written from lost reads: the primitive that reads one of them records MEM_UNCORR (R679; DESIGN
CHOICE, log entry 110). -/
def markLost (m : Module) (p : Slot) (ws : List Nat) : Module :=
  if ws = [] then m
  else if p.kind = 0 then onCl m p.cl (fun c => if c.restricted then c else
    { c with lost := c.lost ++ (uniq (ws.map (p.start + ·))).filter (fun w => !rowFenced c (rowOf w)) })
  else if p.kind = 1 then ws.foldl (fun m w =>
    let b := p.start + 4 * w
    onStk m (stkOf b) (fun s =>
      if stkFenced s (stkOff b) || s.lost.contains (stkOff b / 64) then s else { s with lost := s.lost ++ [stkOff b / 64] })) m
  else m

/-- Words written to a slot: words of the cluster, stack units, or host writes in runs (R350, R355, R374, R539, R574). -/
def writeWords (m : Module) (cl tag : Nat) (p : Slot) (ws : List (Nat × Word)) : Module :=
  if p.kind = 0 then
    let out := ws.map (fun w => (p.start + w.1, w.2))
    (if (clAt m p.cl).restricted then onCl m p.cl (fun c => { c with restrictHits := satAdd c.restrictHits out.length })
     else scrAccess m p.cl tag [] out)
  else
    let runs := runsOf 4 (ws.map (fun w => (p.start + 4 * w.1, w.2)))
    if p.kind = 1 then
      runs.foldl (fun m r => stkPut m r.1 (bytesOf r.2))
        (stackFenceHits m cl tag (stackHits m (ws.map (fun w => p.start + 4 * w.1))))
    else runs.foldl (fun m r => hostWrite m (BitVec.ofNat 64 r.1) (bytesOf r.2)) m

/-! ## Declared objects -/

/-- The header a graph declares for the objects of a tensor (R389). -/
def tensorHdr (sets : List CustomSet) (t : Tensor) : Hdr :=
  let h : Hdr := { kind := t.tkind, pset := t.pset, ntt := bit t.sflags 0, chk := bit t.sflags 1, ksid := t.ksid,
                   level := t.level, comps := t.comps, scale := t.scale, count := t.count }
  match psetOf sets (BitVec.ofNat 16 t.pset) with
  | some c => { h with plen := plenOf c h }
  | none => h

end Sys2Proof.Machine
end

