-- ==== Sys2Proof/Machine/Graph.lean ====
section
/-! DEFINITION. The Trazal graph: its header, tensors, nodes and patch slots (R385 to R394), and the checks 1 to 4a of R395
with the patch values of the job descriptor in place. -/
namespace Sys2Proof.Machine

/-! ## The image -/

/-- *Graph header*. -/
structure GraphHdr where
  totlen : Nat
  ntens : Nat
  nnode : Nat
  npset : Nat
  nslot : Nat
  tensOff : Nat
  nodeOff : Nat
  psetOff : Nat
  psetLen : Nat
  slotOff : Nat
  constOff : Nat
  constLen : Nat
  deriving DecidableEq, Repr

/-- The header of an image. -/
def graphHdr (b : List Byte) : GraphHdr :=
  { totlen := field b 8 8, ntens := field b 16 4, nnode := field b 20 4, npset := field b 24 2, nslot := field b 26 2,
    tensOff := field b 32 8, nodeOff := field b 40 8, psetOff := field b 48 8, psetLen := field b 56 8,
    slotOff := field b 64 8, constOff := field b 72 8, constLen := field b 80 8 }

/-- A graph that has passed its first checks. -/
structure Graph where
  hdr : GraphHdr
  tensors : List Tensor
  nodes : List GNode
  sets : List CustomSet
  slots : List (Nat × Nat)
  consts : List Byte
  deriving DecidableEq, Repr

/-- The tensor of a 64-byte entry. -/
def tensorOf (e : List Byte) : Tensor :=
  { tkind := field e 0 1, role := field e 1 1, fmt := field e 2 1, ndim := field e 3 1, pset := field e 4 2,
    sflags := field e 6 2, ksid := field e 8 8, level := field e 16 1, comps := field e 17 1, scale := field e 18 2,
    count := field e 20 4, exts := (List.range 6).map (fun d => field e (24 + 4 * d) 4), buf := field e 48 2,
    cref := field e 52 4, boff := field e 56 8 }

/-- A tensor number field; none for 0xFFFF_FFFF. -/
def tensorNo (e : List Byte) (off : Nat) : Option Nat :=
  if field e off 4 = 0xFFFFFFFF then none else some (field e off 4)

/-- The node of a 64-byte entry; `form` says that its reserved bytes are zero. -/
def nodeOf (e : List Byte) : GNode :=
  { op := field e 0 2, nin := field e 2 1, nout := field e 3 1, ins := (List.range 4).map (fun i => tensorNo e (8 + 4 * i)),
    outs := (List.range 2).map (fun i => tensorNo e (24 + 4 * i)), imm := (e.drop 32).take 32, form := zeroField e 4 4 }

/-- Entry `i` of a table of entries of `n` bytes at `off`. -/
def entryAt (b : List Byte) (off n i : Nat) : List Byte := (b.drop (off + n * i)).take n

/-! ## Checks 1 to 3 -/

/-- Sections in their order, each on a 64-byte boundary and not before the end of the one before; an empty section stands
where the next one does (R385). -/
def graphSectionsOk (tot : Nat) : Nat → List (Nat × Nat) → Bool
  | at_, [] => decide (at_ ≤ tot)
  | at_, [(off, len)] => decide (off % 64 = 0 ∧ at_ ≤ off ∧ off + len ≤ tot)
  | at_, (off, len) :: (o2, l2) :: rest =>
    decide (off % 64 = 0 ∧ at_ ≤ off ∧ (len = 0 → off = o2)) && graphSectionsOk tot (off + len) ((o2, l2) :: rest)

/-- Check 1 of *Graph checks*. -/
def graphForm (b : List Byte) (glen : Nat) : Bool :=
  let h := graphHdr b
  decide (128 ≤ b.length ∧ field b 0 4 = 0x4C5A5254 ∧ field b 4 2 = 1 ∧ h.totlen = glen ∧ b.length = glen)
    && zeroField b 6 2 && zeroField b 28 4 && zeroField b 96 32
    && decide (1 ≤ h.ntens ∧ h.ntens ≤ 2 ^ 20 ∧ 1 ≤ h.nnode ∧ h.nnode ≤ 2 ^ 20 ∧ h.npset ≤ 16 ∧ h.nslot ≤ 256
        ∧ h.constLen % 64 = 0)
    && graphSectionsOk h.totlen 128 [(h.tensOff, 64 * h.ntens), (h.nodeOff, 64 * h.nnode), (h.psetOff, h.psetLen),
        (h.slotOff, 16 * h.nslot), (h.constOff, h.constLen)]

/-- Check 2: HCRC, then GCRC. -/
def graphCrc (b : List Byte) : Bool :=
  decide (crc32c (b.take 92) = field b 92 4) && decide (crc32c (b.drop 128) = field b 88 4)

/-- The custom sets of an image, none for an entry that breaks R393. -/
def graphSets (b : List Byte) (h : GraphHdr) : List (Option CustomSet) :=
  customTable 0x8000 0x800F h.npset ((b.drop h.psetOff).take h.psetLen)

/-- The first custom set that fails check 3: its form, R58, or a SETNO used before. -/
def badSet : Nat → List (BitVec 16) → List (Option CustomSet) → Option Nat
  | _, _, [] => none
  | i, _, none :: _ => some i
  | i, seen, some c :: rest =>
    if seen.contains c.setno || decide (customCheck c ≠ 0) then some i else badSet (i + 1) (c.setno :: seen) rest

/-! ## Tensors -/

/-- Elements of a tensor. -/
def elemsOf (t : Tensor) : Nat := t.exts.foldl (· * ·) 1

/-- Bytes of an open tensor in a buffer or in the constants (R390). -/
def openBytes (t : Tensor) : Nat := 4 * rowWords t.fmt (t.exts.headD 1) * (t.exts.drop 1).foldl (· * ·) 1

/-- Distance between sealed elements of PLEN words in a buffer (R390). -/
def sealedStride (plen : Nat) : Nat := 64 * ceilDiv (64 + 4 * plen) 64

/-- Whether a tensor's entry declares the headers of its elements: a sealed input or state tensor (R389). -/
def Tensor.declares (t : Tensor) : Bool := decide (1 ≤ t.tkind ∧ t.tkind ≤ 4 ∧ (t.role = 1 ∨ t.role = 4))

/-- Whether a tensor has a host buffer. -/
def Tensor.hosted (t : Tensor) : Bool := decide (t.role = 1 ∨ t.role = 2 ∨ t.role = 4)

/-- The extents of a tensor: 1 to 16,777,215 within NDIM, 1 beyond it, with a product of at most 2^44 (R387, R388). -/
def extentsOk (t : Tensor) : Bool :=
  decide (1 ≤ t.ndim ∧ t.ndim ≤ 6) && (t.exts.take t.ndim).all (fun x => decide (1 ≤ x ∧ x ≤ 0xFFFFFF))
    && (t.exts.drop t.ndim).all (· = 1) && decide (elemsOf t ≤ 2 ^ 44)

/-- Check 4 for one tensor: R387 to R390 and *Header fields by kind*, for the entry `e`. -/
def tensorOk (sets : List CustomSet) (constLen : Nat) (e : List Byte) (t : Tensor) : Bool :=
  decide (1 ≤ t.tkind ∧ t.tkind ≤ 5 ∧ t.role ≤ 4 ∧ t.boff % 64 = 0) && zeroField e 50 2 && extentsOk t
    && decide (if t.tkind = 5 then t.fmt ≤ 0xA else t.fmt = 0)
    && decide (t.role = 3 → t.tkind = 5)
    && decide (t.role = 4 → t.tkind = 1 ∨ (t.tkind = 5 ∧ t.fmt = 0xA))
    && decide (if t.hosted then t.buf ≤ 255 else t.buf = 0xFFFF)
    && (if t.declares then decide (t.sflags < 4) && fieldsAllowed sets (tensorHdr sets t) else zeroField e 4 20)
    && decide (t.role = 3 → 64 * t.cref + openBytes t ≤ constLen)

/-- A tensor with its patched KSID or SCALE (R394). -/
def patchTensor (ts : List Tensor) (p : (Nat × Nat) × BitVec 64) : List Tensor :=
  match ts[p.1.2]? with
  | some t =>
    if !t.declares then ts
    else if p.1.1 = 1 then lset ts p.1.2 { t with ksid := p.2.toNat }
    else if p.1.1 = 2 then lset ts p.1.2 { t with scale := p.2.toNat % 65536 }
    else ts
  | none => ts

/-- The patch slots of an image: SKIND and TARGET. -/
def graphSlots (b : List Byte) (h : GraphHdr) : List (Nat × Nat) :=
  (List.range h.nslot).map (fun i => let e := entryAt b h.slotOff 16 i; (field e 0 1, field e 4 4))

/-- The tensors of an image with the patch values in place (R394). -/
def graphTensors (b : List Byte) (h : GraphHdr) (patches : List (BitVec 64)) : List Tensor :=
  ((graphSlots b h).zip patches).foldl patchTensor
    ((List.range h.ntens).map (fun t => tensorOf (entryAt b h.tensOff 64 t)))

/-- An MX tensor whose blocked dimension is not a multiple of 32 (check 4a, R263). -/
def mxBad (t : Tensor) : Bool := decide (t.tkind = 5) && isMx t.fmt && decide (t.exts.headD 1 % 32 ≠ 0)

/-- How a graph fails: the plan status, the check number, and the entry at fault (R407). -/
structure Reject where
  status : Nat
  check : Nat
  detail : Nat := 0
  deriving DecidableEq, Repr

/-- The index of the first entry that meets a test. -/
def firstIdx {α : Type} (p : α → Bool) (l : List α) : Option Nat :=
  (l.zipIdx.find? (fun x => p x.1)).map (·.2)

/-- The graph of an image with its patch values, or the first of the checks 1 to 3 and of what check 4 says of single tensors that
fails (R395). `image` are the custom sets of the Zalpin image. -/
def graphRead (b : List Byte) (glen : Nat) (patches : List (BitVec 64)) (image : List CustomSet) : Except Reject Graph :=
  let h := graphHdr b
  if !graphForm b glen then .error { status := 0x10, check := 1 }
  else if !graphCrc b then .error { status := 0x11, check := 2 }
  else match badSet 0 [] (graphSets b h) with
    | some i => .error { status := 0x12, check := 3, detail := i }
    | none =>
      let own := (graphSets b h).filterMap id
      let sets := image ++ own
      let ts := graphTensors b h patches
      match firstIdx (fun p => !tensorOk sets h.constLen (entryAt b h.tensOff 64 p.2) p.1) ts.zipIdx with
      | some t => .error { status := 0x10, check := 4, detail := t }
      | none => .ok { hdr := h, tensors := ts, nodes := (List.range h.nnode).map (fun i => nodeOf (entryAt b h.nodeOff 64 i)),
                      sets := own, slots := graphSlots b h, consts := (b.drop h.constOff).take h.constLen }

/-! ## Constants -/

/-- Tensor `t` of a graph. -/
def Graph.tensor (g : Graph) (t : Nat) : Tensor := g.tensors.getD t {}

/-- The bytes of a constant tensor (R390). -/
def Graph.constBytes (g : Graph) (t : Tensor) : List Byte := (g.consts.drop (64 * t.cref)).take (openBytes t)

/-- The words of a constant tensor with one element in a word. -/
def Graph.constWords (g : Graph) (t : Tensor) : List Word := wordsOf (g.constBytes t)

/-- Element `e` of a tensor stored in words `ws`, as a value. -/
def openElem (t : Tensor) (ws : List Word) (e : Nat) : Fv :=
  let k := t.exts.headD 1
  let rw := rowWords t.fmt k
  rowElem t.fmt ((ws.drop (rw * (e / k))).take rw) (e % k)

/-- Element `e` as a word: WORD as it stands, every other format widened to FP32 (R272). -/
def openVal (t : Tensor) (ws : List Word) (e : Nat) : Word :=
  if t.fmt = 0 then ws.getD e 0 else if t.fmt = 0xA then ws.getD e 0 else (fvRound (openElem t ws e)).1

/-- Whether element `i` of row `r` of a constant tensor widens to the word 0 (R140). -/
def constZero (t : Tensor) (bytes : List Byte) (r i : Nat) : Bool :=
  let row := (wordsOf bytes).drop (rowWords t.fmt (t.exts.headD 1) * r)
  if 1 ≤ t.fmt ∧ t.fmt ≤ 3 then decide (rowByte row i = 0)
  else if t.fmt = 8 ∨ t.fmt = 9 then decide (bits (row.getD (i / 2) 0).toNat (16 * (i % 2) + 15) (16 * (i % 2)) = 0)
  else if isMx t.fmt then
    let quad := 4 * (i / 128 * (if t.fmt = 7 then 17 else 33))
    let e := rowByte row (quad + 4 + (if t.fmt = 7 then i % 128 / 2 else i % 128))
    decide (rowByte row (quad + i % 128 / 32) ≠ 255)
      && decide ((if t.fmt = 7 then bits e (4 * (i % 2) + 3) (4 * (i % 2)) else e) = 0)
  else decide (row.getD i 0 = 0)

end Sys2Proof.Machine
end

