-- ==== Sys2Proof/Machine/Types.lean ====
section
/-! DEFINITION. What planning derives of every tensor of a graph (R389, check 7 of R395): the seal-header fields that each
operation of *Sealed Primitives*, *Network operations* and *Open operations* gives its outputs, with the alignments of R137
and the levels that run out (R103). The headers here carry no NOISE. -/
namespace Sys2Proof.Machine

/-! ## Headers along the lowering -/

/-- The set of a header. -/
def cOf (sets : List CustomSet) (h : Hdr) : CustomSet :=
  (psetOf sets (BitVec.ofNat 16 h.pset)).getD { setno := 0, scalar := false, logn := 0 }

/-- The result `h` of operands `ops` at scale `s`, with causes of its own (R71, R87). -/
def hOut (ops : List Hdr) (own : List Nat) (h : Hdr) (s : Int) : Hdr :=
  { h with scale := noiseClamp s, noise := 0,
           poison := (poisonMerge ops (own ++ causeIf (decide (s < 0 ∨ s > 65535)) pDomain)).1 }

/-- One S_DROP (R67, R108). -/
def hDrop (h : Hdr) : Hdr :=
  if h.level = 0 then hOut [h] [pLevel] h h.scale else { h with level := h.level - 1 }

/-- S_DROPs down to a level that a procedure names; a header below it runs out at LEVEL 0 (R67, R103). -/
def hDropTo (h : Hdr) (l : Nat) : Hdr :=
  if h.level < l then hOut [h] [pLevel] { h with level := 0 } h.scale else { h with level := l }

/-- S_RESCALE (R108, R111). -/
def hRescale (c : CustomSet) (h : Hdr) : Hdr :=
  if h.level = 0 then hOut [h] [pLevel] h h.scale
  else hOut [h] [] { h with level := h.level - 1 } ((h.scale : Int) - logL (c.qs.getD h.level 2))

/-- L(q_l) of a header's level. -/
def hL (c : CustomSet) (h : Hdr) : Int := logL (c.qs.getD h.level 2)

/-- S_MULC with exponent L(q_l), then S_RESCALE: one level down at the same scale. -/
def hScaleStep (c : CustomSet) (h : Hdr) : Hdr := hRescale c (hOut [h] [] h (h.scale + hL c h))

/-- S_MRR; the operand at the higher level is first dropped to the other's (R99, R117). -/
def hMrr (c : CustomSet) (a b : Hdr) : Hdr :=
  hRescale c (hOut [a, b] [] { a with level := min a.level b.level } ((a.scale : Int) + b.scale))

/-- `a` aligned to the level and scale of `b` by steps 1 to 3 of R137. -/
def hAlign (c : CustomSet) (a b : Hdr) : Hdr :=
  let a1 := hDropTo a (b.level + 1)
  hRescale c (hOut [a1] [] a1 ((b.scale : Int) + logL (c.qs.getD (b.level + 1) 2)))

/-- An addition of two ciphertexts under R137 and what was decided: 0 no alignment; 1 the first operand is aligned, 2 the
second, 3 the first after the second lost a level. -/
def hAdd (c : CustomSet) (a b : Hdr) : Hdr × Nat :=
  if a.level = b.level ∧ scalesDiffer a b = false then (hOut [a, b] [] a a.scale, 0)
  else if b.level < a.level then
    let x := hAlign c a b
    (hOut [x, b] [] x x.scale, 1)
  else if a.level < b.level then
    let y := hAlign c b a
    (hOut [a, y] [] a a.scale, 2)
  else
    let y := hDrop b
    let x := hAlign c a y
    (hOut [x, y] [] x x.scale, 3)

/-! ## N_POLY -/

/-- ⌈log2 x⌉ for x ≥ 1. -/
def clog2 (x : Nat) : Nat := if x ≤ 1 then 0 else Nat.log2 (x - 1) + 1

/-- The next power T[i] of R144 appended to those before it, with the decision of its subtraction. -/
def polyPow (c : CustomSet) (acc : List Hdr × List Nat) (i : Nat) : List Hdr × List Nat :=
  let t (j : Nat) : Hdr := acc.1.getD (j - 1) {}
  if i % 2 = 0 then (acc.1 ++ [hMrr c (t (i / 2)) (t (i / 2))], acc.2)
  else
    let (h, d) := hAdd c (hMrr c (t ((i + 1) / 2)) (t ((i - 1) / 2))) (t 1)
    (acc.1 ++ [h], acc.2 ++ [d])

/-- A baby power as ev at h = 0 multiplies it, aligned to the last one, and what was decided: 0 no alignment, 1 steps 1 to 3 of R137,
2 the difference of the scales in the exponent of S_MULC (DESIGN CHOICE, log entry 114). -/
def polyTerm (c : CustomSet) (ref t : Hdr) : Hdr × Nat :=
  let q : Int := logL (c.qs.getD ref.level 2)
  if ref.level < t.level then
    let a := hAlign c t ref
    (hOut [a] [] a (a.scale + q), 1)
  else if scalesDiffer t ref then (hOut [t] [] t (ref.scale + q), 2)
  else (hOut [t] [] t (t.scale + q), 0)

/-- The sum of ev at h = 0 (R144): the aligned baby powers times L(q), q their level, added in ascending i, and rescaled. -/
def polyBase (c : CustomSet) (ts : List Hdr) : Hdr × List Nat :=
  let terms := ts.map (polyTerm c (ts.getLastD {}))
  let s := ((terms.drop 1).map (·.1)).foldl (fun acc t => (hAdd c acc t).1) (terms.headD ({}, 0)).1
  (hRescale c s, terms.map (·.2))

/-- ev of R144: both halves have the same header. -/
def polyEv (c : CustomSet) (base : Hdr) (gs : List Hdr) : Nat → Hdr × List Nat
  | 0 => (base, [])
  | h + 1 =>
    let (e, log) := polyEv c base gs h
    let (r, d) := hAdd c e (hMrr c (gs.getD h base) e)
    (r, log ++ [d])

/-- The output of N_POLY of degree `d` with interval exponent `b` (R144, R145). -/
def polyHdr (c : CustomSet) (x : Hdr) (d b : Nat) : Hdr × List Nat :=
  let m := clog2 (d + 1)
  let k := 2 ^ ceilDiv m 2
  let g := m - ceilDiv m 2
  let t1 := if b = 0 then x else hScaleStep c x
  let (ts, log1) := ((List.range (k - 1)).map (· + 2)).foldl (polyPow c) ([t1], [])
  let gs := (List.range (g - 1)).foldl (fun gs _ => let y := gs.getLastD {}; gs ++ [hMrr c y y]) [ts.getLastD {}]
  let (base, log2) := polyBase c (ts.take (k - 1))
  let (y, log3) := polyEv c base gs g
  let dp := m + 1 + b2n (decide (b ≠ 0))
  let out := if x.level < dp then hOut [y] [pLevel] { y with level := 0 } y.scale
    else { y with level := min y.level (x.level - dp) }
  (out, log1 ++ log2 ++ log3)

/-! ## Types -/

/-- What is known of a tensor: the header of its elements (KIND 5 open; KIND 0 when the key set that would give it is not
in the directory), its format, its extents, and whether it is a graph constant. -/
structure Ty where
  h : Hdr := {}
  fmt : Nat := 0
  exts : List Nat := []
  const : Bool := false
  deriving DecidableEq, Repr

/-- The type of a tensor that its entry gives: a sealed input or state tensor, or an open tensor no node writes. -/
def tyOf (sets : List CustomSet) (t : Tensor) : Option Ty :=
  if t.declares then some { h := tensorHdr sets t, exts := t.exts }
  else if t.role = 1 ∨ t.role = 3 ∨ t.role = 4 then
    some { h := { kind := 5 }, fmt := t.fmt, exts := t.exts, const := decide (t.role = 3) }
  else none

/-- Whether extents fit the output's: each equals it or is 1 (R392). -/
def fits (x o : List Nat) : Bool :=
  (List.range 6).all (fun i => decide (x.getD i 1 = 1 ∨ x.getD i 1 = o.getD i 1))

/-- Whether all extents from dimension `n` on are 1. -/
def flatFrom (x : List Nat) (n : Nat) : Bool := (x.drop n).all (· = 1)

/-- Extent `i`. -/
def Ty.ext (t : Ty) (i : Nat) : Nat := t.exts.getD i 1

/-- Open tensors: of a given format, or of any format that widens to FP32. -/
def Ty.isOpen (t : Ty) (fmt : Nat) : Bool := decide (t.h.kind = 5 ∧ t.fmt = fmt)
def Ty.isFloat (t : Ty) : Bool := decide (t.h.kind = 5 ∧ 1 ≤ t.fmt ∧ t.fmt ≤ 0xA)

/-- An operand that is not there, or meets a test. -/
def optTy (t : Option Ty) (p : Ty → Bool) : Bool := match t with
  | some x => p x
  | none => true

/-- Operands agree in PSET and CHK, and ciphertexts in KSID (R99). -/
def agreeIn (hs : List Hdr) : Bool :=
  let a := hs.headD {}
  hs.all (fun h => decide (h.pset = a.pset) && (h.chk == a.chk) && decide (h.kind = 3 ∨ a.kind = 3 ∨ h.ksid = a.ksid))

/-- What an operation gives its outputs: whether its operands are as its tables and R392 require, the output headers, and
the outcomes of its scale tests and alignments. -/
structure Infer where
  ok : Bool
  outs : List Hdr := []
  log : List Nat := []
  deriving DecidableEq, Repr

/-- Fields of a node's immediates. -/
def GNode.i8 (n : GNode) (o : Nat) : Nat := field n.imm o 1
def GNode.i16 (n : GNode) (o : Nat) : Nat := field n.imm o 2
def GNode.i32 (n : GNode) (o : Nat) : Nat := field n.imm o 4
def GNode.i64 (n : GNode) (o : Nat) : Nat := field n.imm o 8

/-- The key set of a KSID. -/
def keySetOf (dir : List KeySet) (ksid : Nat) : Option KeySet := dir.find? (fun k => decide (k.ksid.toNat = ksid))

/-- A slot primitive on operands `a`, `b` with output extents `o` (*Slot primitives*). A plaintext or ciphertext at a higher
level than the other operand is dropped first; S_RAISE reads its operand at level 0. -/
def inferSlot (sets : List CustomSet) (n : GNode) (a b : Ty) (o : List Nat) : Infer :=
  let x := a.h
  let y := b.h
  let c := cOf sets x
  let one := fits a.exts o
  let two := one && fits b.exts o && agreeIn [x, y]
  let low : Hdr := { x with level := min x.level y.level }
  let sx : Int := x.scale
  if n.op = 0x01 ∨ n.op = 0x02 then
    let (h, d) := hAdd c x y
    { ok := two && ctIn [2, 3] x && ctIn [x.comps] y, outs := [h], log := [d] }
  else if n.op = 0x04 then
    { ok := two && ctIn [2, 3] x && ptIn y, outs := [hOut [x, y] (causeIf (scalesDiffer x y) pScale) low sx],
      log := [b2n (scalesDiffer x y)] }
  else if n.op = 0x06 then { ok := two && ctIn [2, 3] x && ptIn y, outs := [hOut [x, y] [] low (sx + y.scale)] }
  else if n.op = 0x07 then { ok := one && ctIn [2, 3] x, outs := [hOut [x] [] x (sx + signed 16 (n.i16 4))] }
  else if n.op = 0x09 then
    { ok := two && ctIn [2] x && ctIn [2] y, outs := [hOut [x, y] [] { low with comps := 3 } (sx + y.scale)] }
  else if n.op = 0x0A then { ok := one && ctIn [3] x, outs := [hOut [x] [] { x with comps := 2 } sx] }
  else if n.op = 0x0B then { ok := one && ctIn [2, 3] x, outs := [hRescale c x] }
  else if n.op = 0x0C then { ok := two && ctIn [2] x && ctIn [2] y, outs := [hMrr c x y] }
  else if n.op = 0x0D ∨ n.op = 0x0F ∨ n.op = 0x13 then { ok := one && ctIn [2] x, outs := [hOut [x] [] x sx] }
  else if n.op = 0x0E then
    { ok := ctIn [2] x && b.isOpen 0 && b.const && flatFrom b.exts 1 && decide (b.ext 0 ≤ 64 ∧ o.headD 0 = b.ext 0)
        && fits a.exts (o.drop 1), outs := [hOut [x] [] x sx] }
  else if n.op = 0x10 then { ok := one && (ctIn [2, 3] x || ptIn x), outs := [hDrop x] }
  else if n.op = 0x11 then
    { ok := one && ctIn [2] x, outs := [hOut [x] [] { x with level := n.i8 0 } sx] }
  else if n.op = 0x12 then
    { ok := one && decide (x.kind = 1 ∨ x.kind = 3) && (x.ntt != decide (n.i8 0 = 0)),
      outs := [hOut [x] [] { x with ntt := decide (n.i8 0 = 0) } sx] }
  else { ok := one && ctIn [2, 3] x, outs := [hOut [x] [] x sx] }

/-- A scalar primitive (*Scalar primitives*). -/
def inferScalar (dir : List KeySet) (n : GNode) (a b : Ty) (o : List Nat) : Infer :=
  let x := a.h
  let y := b.h
  let one := fits a.exts o && scIn x
  let two := one && fits b.exts o && scIn y && agreeIn [x, y]
  if n.op = 0x40 ∨ n.op = 0x41 then { ok := two && decide (x.count = y.count), outs := [hOut [x, y] [] x 0] }
  else if n.op = 0x45 then { ok := one && decide (x.count = 2), outs := [hOut [x] [] x 0] }
  else if n.op = 0x46 then
    { ok := one && (match keySetOf dir (n.i64 8) with
        | some k => decide (k.pset.toNat = x.pset)
        | none => true), outs := [hOut [x] [] { x with ksid := n.i64 8 } 0] }
  else if n.op = 0x47 then
    { ok := one && b.isOpen 0 && flatFrom b.exts 1 && decide (b.ext 0 = 2 ^ x.count),
      outs := [hOut [x] [] { x with count := n.i8 0 } 0] }
  else if n.op = 0x48 then { ok := two && decide (x.count = 2 ∧ y.count = 2), outs := [hOut [x, y] [] x 0] }
  else { ok := one, outs := [hOut [x] [] x 0] }

/-- Levels of the slot-to-coefficient stages: σ of R148 and R158. -/
def sigmaOf (count : Nat) : Nat := ceilDiv (Nat.log2 count) 5

/-- The slot ciphertext that N_REPACK writes under key set `k` (R151, R152), from scalars of set `src`: the L2S key gives
its scale. KIND 0 when the key set is absent. DESIGN CHOICE (log entry 112): no field of a key set states the L2S key's SCALE,
and the model takes its slot set's default exponent. -/
def repackHdr (sets : List CustomSet) (k : Option KeySet) (src : CustomSet) (s : Nat) (ops : List Hdr) : Hdr :=
  match k with
  | none => {}
  | some k =>
    let h : Hdr := { kind := 1, pset := k.pset.toNat, ntt := true, chk := k.chk, ksid := k.ksid.toNat, comps := 2,
                     count := max s (2 ^ clog2 src.n) }
    let c := cOf sets h
    if setMaxLevel c < 13 then hOut ops [pLevel] h c.scale else hOut ops [] { h with level := setMaxLevel c - 13 } c.scale

/-- The scalar ciphertexts that N_EXTRACT writes (R148, R149). -/
def extractHdr (sets : List CustomSet) (x : Hdr) (m pset ksid : Nat) : Hdr :=
  let h : Hdr := { kind := 2, pset := pset, ksid := ksid, comps := 1, count := m }
  let d := hDropTo x (sigmaOf x.count)
  hOut [d] (causeIf (decide (m > (cOf sets h).mbits)) pDomain) h 0

/-- Whether an immediate names a set of a kind, and the key set it goes with is of that set when it is there. -/
def targetOk (sets : List CustomSet) (dir : List KeySet) (pset : Option Nat) (ksid : Nat) (scalar : Bool) : Bool :=
  (match pset with
    | some p => (match psetOf sets (BitVec.ofNat 16 p) with
      | some c => c.scalar == scalar
      | none => false)
    | none => true)
  && (match keySetOf dir ksid with
    | some k => (k.scalar == scalar) && (match pset with
      | some p => decide (k.pset.toNat = p)
      | none => true)
    | none => true)

/-- COUNT of index bits over 2^h candidates (R155). -/
def indexBits (h : Nat) : Nat := max 3 (clog2 (h + 1))

/-- A network operation on IN0 to IN2 with output extents `o` and `o1` (*Network operations*, R392). DESIGN CHOICE (log
entry 113): an N_DENSE, N_CONV or N_MIX whose weights are all known zeros keeps its input's SCALE, R138's sentence before
R139's procedure. -/
def inferNet (sets : List CustomSet) (dir : List KeySet) (n : GNode) (a b : Ty) (d : Option Ty) (o o1 : List Nat) : Infer :=
  let x := a.h
  let y := b.h
  let c := cOf sets x
  let one := fits a.exts o
  let ct := ctIn [2] x
  if n.op = 0x80 then
    { ok := one && ct && b.isFloat && flatFrom b.exts 2 && decide (2 ^ clog2 (b.ext 0) ≤ x.count ∧ b.ext 1 ≤ x.count)
        && optTy d (fun t => t.isFloat && flatFrom t.exts 1 && decide (t.ext 0 = b.ext 1)), outs := [hScaleStep c x] }
  else if n.op = 0x81 then
    { ok := b.isFloat && flatFrom b.exts 1
        && (if n.i8 0 = 0 then one && ct else one && ctIn [2, 3] x && b.const && decide (a.ext 0 = o.headD 0)),
      outs := [hScaleStep c x] }
  else if n.op = 0x82 then
    { ok := ctIn [2, 3] x && b.isOpen 0xA && b.const && flatFrom b.exts 2
        && decide (b.ext 0 = a.ext 0 ∧ b.ext 1 = o.headD 0)
        && fits (1 :: a.exts.drop 1) o
        && optTy d (fun t => t.isOpen 0xA && t.const && flatFrom t.exts 1 && decide (t.ext 0 = o.headD 0 ∨ t.ext 0 = 1)),
      outs := [hScaleStep c x] }
  else if n.op = 0x83 then
    let (h, log) := polyHdr c x (b.ext 0 - 1) (n.i8 0)
    { ok := one && ct && b.isOpen 0xA && b.const && flatFrom b.exts 1 && decide (2 ≤ b.ext 0 ∧ b.ext 0 ≤ 1024),
      outs := [h], log := log }
  else if n.op = 0x84 then { ok := one && ct, outs := [hOut [x] [] x x.scale] }
  else if n.op = 0x85 then { ok := one && ct, outs := [hScaleStep c x] }
  else if n.op = 0x86 then
    { ok := ct && targetOk sets dir (some (n.i16 2)) (n.i64 8) true && decide (o.headD 0 = x.count) && fits a.exts (o.drop 1),
      outs := [extractHdr sets x (n.i8 0) (n.i16 2) (n.i64 8)] }
  else if n.op = 0x87 then
    { ok := scIn x && targetOk sets dir none (n.i64 8) false && fits (a.exts.drop 1) o
        && (match keySetOf dir (n.i64 8) with
          | some k => isPow2Upto (a.ext 0) (setN (cOf sets { pset := k.pset.toNat }) / 2)
          | none => true),
      outs := [repackHdr sets (keySetOf dir (n.i64 8)) c (a.ext 0) [x]] }
  else if n.op = 0x88 then
    let table := b.isOpen 0 && flatFrom b.exts 1
    if x.kind = 2 then
      { ok := one && table && decide (b.ext 0 = 2 ^ x.count), outs := [hOut [x] [] { x with count := n.i8 0 } 0] }
    else
      let e := extractHdr sets x (Nat.log2 (b.ext 0)) (n.i16 2) (n.i64 8)
      { ok := one && ct && table && isPow2Upto (b.ext 0) 65536 && targetOk sets dir (some (n.i16 2)) (n.i64 8) true
          && targetOk sets dir none (n.i64 16) false,
        outs := [repackHdr sets (keySetOf dir (n.i64 16)) (cOf sets e) x.count [e]] }
  else if n.op = 0x89 then
    { ok := one && fits b.exts o && scIn x && scIn y && agreeIn [x, y] && decide (x.count = y.count),
      outs := [hOut [x, y] [] { x with count := n.i8 0 } 0] }
  else if n.op = 0x8A ∨ n.op = 0x8B then
    let h := Nat.log2 (a.ext 0)
    let idx := hOut [x] (causeIf (decide (indexBits h > c.mbits)) pDomain) { x with count := indexBits h } 0
    { ok := scIn x && decide (2 ≤ a.ext 0) && isPow2Upto (a.ext 0) 4096 && decide (o.headD 0 = h)
        && (if n.op = 0x8A then fits (1 :: a.exts.drop 1) o && fits (1 :: a.exts.drop 1) o1 && decide (o1.headD 1 = 1)
            else decide (o.getD 1 0 = n.i8 0) && fits (a.exts.drop 1) (o.drop 2)),
      outs := [idx, hOut [x] [] x 0] }
  else if n.op = 0x8C then
    let s := sigmaOf x.count
    let e := hDropTo x s
    let h := if setMaxLevel c < s + 10 then hOut [e] [pLevel] { e with level := 0 } x.scale
      else hOut [e] [] { e with level := setMaxLevel c - (s + 10) } x.scale
    { ok := one && ct, outs := [h] }
  else
    let u := hDropTo y x.level
    let e := (2 * c.scale : Int) - y.scale
    let p : Hdr := { kind := 3, poison := if e < 0 ∨ e > 65535 then pDomain else 0 }
    let (w, g) := hAdd c x (hOut [u, p] [] u (2 * c.scale))
    { ok := one && fits b.exts o && fits a.exts o1 && fits b.exts o1 && ct && ctIn [2] y && agreeIn [x, y]
        && (match d with
          | some t => t.isOpen 0xA && flatFrom t.exts 1 && isPow2Upto (t.ext 0) (setN c / 2)
          | none => false),
      outs := [w, hRescale c w], log := [g] }

/-- An open operation (*Open operations*): formats and extents. K of O_MATMUL runs along dimension 0 of A and of B, M and Nn
along their dimension 1. -/
def inferOpen (sets : List CustomSet) (n : GNode) (ins : List (Option Ty)) (outs : List Ty) : Infer :=
  let a := (ins.getD 0 none).getD {}
  let b := (ins.getD 1 none).getD {}
  let q := outs.headD {}
  let o := q.exts
  let open_ : Hdr := { kind := 5 }
  let flat (t : Ty) : Bool := t.isOpen 0 || t.isOpen 0xA
  if n.op = 0xC0 then
    let side (t : Option Ty) : Bool := optTy t (fun t => t.isOpen 0xA && fits t.exts o)
    { ok := a.isFloat && b.isFloat && decide (fmtRow a.fmt = fmtRow b.fmt ∧ a.ext 0 = b.ext 0 ∧ b.ext 1 = o.headD 0
          ∧ a.ext 1 = o.getD 1 1) && fits (1 :: 1 :: a.exts.drop 2) o && fits (1 :: 1 :: b.exts.drop 2) o
        && side (ins.getD 2 none) && side (ins.getD 3 none) && decide (q.fmt ≠ 0), outs := [open_] }
  else if n.op = 0xC1 then
    { ok := (ins.take 3).all (fun t => optTy t (fun t => flat t && outs.all (fun u => fits t.exts u.exts))) && outs.all flat
        && (match ins.getD 3 none with
          | some p => p.isOpen 0 && flatFrom p.exts 1 && decide (p.ext 0 ≤ 32)
          | none => false), outs := [open_, open_] }
  else if n.op = 0xC2 then
    { ok := flat a && q.isOpen 0 && decide (o.headD 0 = 2) && fits (1 :: a.exts.drop 1) o, outs := [open_] }
  else if n.op = 0xC3 then
    let h : Hdr := { kind := 3, pset := n.i16 6, ntt := bit (n.i8 4) 0, chk := bit (n.i8 4) 1, level := n.i8 0, comps := 1,
                     scale := n.i16 2, count := a.ext 0 }
    { ok := a.isFloat && fits (a.exts.drop 1) o && (match psetOf sets (BitVec.ofNat 16 (n.i16 6)) with
        | some c => !c.scalar && isPow2Upto (a.ext 0) (setN c / 2)
        | none => false), outs := [h] }
  else if n.op = 0xC4 then
    { ok := a.isOpen 0xA && b.isOpen 0xA && q.isOpen 0xA && fits a.exts o && fits b.exts o
        && decide (n.ins.headD none = n.outs.headD none)
        && optTy (ins.getD 2 none) (fun t => t.isOpen 0xA && fits t.exts o), outs := [open_] }
  else { ok := a.isOpen 0xA && q.isFloat && fits a.exts o, outs := [open_] }

/-- The types of a node's operands, by slot. -/
def nodeIns (env : List (Option Ty)) (n : GNode) : List (Option Ty) :=
  n.ins.map (fun t => t.bind (fun i => env.getD i none))

/-- What a node gives its outputs. An operand whose key set is absent leaves the outputs open: check 8 rejects the job. -/
def inferNode (g : Graph) (sets : List CustomSet) (dir : List KeySet) (env : List (Option Ty)) (n : GNode) : Infer :=
  let ins := nodeIns env n
  let a := (ins.getD 0 none).getD {}
  let b := (ins.getD 1 none).getD {}
  let ts := n.outs.filterMap id |>.map (fun t => g.tensor t)
  let o := (ts.headD {}).exts
  let o1 := (ts.getD 1 { exts := o.set 0 1 }).exts
  if (List.zipWith (fun (i : Option Nat) (t : Option Ty) => i.isSome && t.isNone) n.ins ins).any id then { ok := false }
  else if ins.any (fun t => match t with
      | some t => decide (t.h.kind = 0)
      | none => false) then { ok := true, outs := [{}, {}] }
  else if n.op < 0x40 then inferSlot sets n a b o
  else if n.op < 0x80 then inferScalar dir n a b o
  else if n.op < 0xC0 then inferNet sets dir n a b (ins.getD 2 none) o o1
  else inferOpen sets n ins (ts.map (fun t => { h := { kind := 5 }, fmt := t.fmt, exts := t.exts }))

/-- Whether an output header is what the tensor's entry says: its TKIND, and for a state tensor the fields its entry
declares, level and scale apart. -/
def outAgrees (sets : List CustomSet) (t : Tensor) (h : Hdr) : Bool :=
  decide (h.kind = 0) || (decide (t.tkind = h.kind) && (!t.declares ||
    (let w := tensorHdr sets t
     decide (w.pset = h.pset ∧ w.ksid = h.ksid ∧ w.count = h.count ∧ w.comps = h.comps) && (w.chk == h.chk) && (w.ntt == h.ntt))))

/-- The environment with a node's outputs typed. -/
def bindOuts (g : Graph) (env : List (Option Ty)) (n : GNode) (hs : List Hdr) : List (Option Ty) :=
  (n.outs.zip hs).foldl (fun env p => match p.1 with
    | some t => lset env t (some { h := p.2, fmt := (g.tensor t).fmt, exts := (g.tensor t).exts })
    | none => env) env

/-- The types before the first node. -/
def startEnv (g : Graph) (sets : List CustomSet) : List (Option Ty) := g.tensors.map (tyOf sets)

/-- The types and outcomes after the nodes, or the first node that fails check 7. -/
def inferAll (g : Graph) (sets : List CustomSet) (dir : List KeySet) :
    Nat → List (Option Ty) → List Nat → List GNode → Except Nat (List (Option Ty) × List Nat)
  | _, env, log, [] => .ok (env, log)
  | i, env, log, n :: rest =>
    let r := inferNode g sets dir env n
    let agree := ((n.outs.zip r.outs).all (fun p => match p.1 with
      | some t => outAgrees sets (g.tensor t) p.2
      | none => true))
    if r.ok && agree then inferAll g sets dir (i + 1) (bindOuts g env n r.outs) (log ++ r.log) rest else .error i

end Sys2Proof.Machine
end

