-- ==== Sys2Proof/Machine/Check.lean ====
section
/-! DEFINITION. The checks 5 to 9 of a Trazal graph (R395): node fields and immediates, the writers of tensors (R391), the
key objects that a job needs (R307, R412), and K of an open product (R277). -/
namespace Sys2Proof.Machine

/-! ## Check 5 -/

/-- The input slots that an operation requires, and those it may use. -/
def opIns (op : Nat) : Option (List Bool × List Bool) :=
  let first (r m : Nat) : Option (List Bool × List Bool) :=
    some ((List.range 4).map (fun i => decide (i < r)), (List.range 4).map (fun i => decide (i < m)))
  if [0x01, 0x02, 0x04, 0x06, 0x09, 0x0C, 0x0E, 0x40, 0x41, 0x47, 0x48, 0x81, 0x83, 0x88, 0x89].contains op then first 2 2
  else if (1 ≤ op ∧ op ≤ 0x13) ∨ (0x42 ≤ op ∧ op ≤ 0x49) then first 1 1
  else if op = 0x80 ∨ op = 0x82 then first 2 3
  else if op = 0x8D ∨ op = 0xC4 then first 3 3
  else if 0x84 ≤ op ∧ op ≤ 0x8C then first 1 1
  else if op = 0xC0 then first 2 4
  else if op = 0xC1 then some ([false, false, false, true], [true, true, true, true])
  else if op = 0xC2 ∨ op = 0xC3 ∨ op = 0xC5 then first 1 1
  else none

/-- The fewest and the most outputs of an operation. -/
def opOuts (op : Nat) : Nat × Nat :=
  if op = 0x8A ∨ op = 0xC1 then (1, 2) else if op = 0x8D then (2, 2) else (1, 1)

/-- The immediate bytes that an operation uses, as offsets and lengths (*Node immediates*, *Open operations*). -/
def immUsed (op : Nat) (slot : Bool) : List (Nat × Nat) :=
  if [0x05, 0x08, 0x0D, 0x43, 0x44, 0x84, 0x85].contains op then [(0, 4)]
  else if op = 0x07 then [(0, 6)]
  else if [0x11, 0x12, 0x13, 0x47, 0x48, 0x49, 0x81, 0x83, 0x89, 0x8B, 0xC2].contains op then [(0, 1)]
  else if op = 0x46 ∨ op = 0x87 then [(8, 8)]
  else if op = 0x88 then (if slot then [(0, 1), (2, 2), (8, 16)] else [(0, 1)])
  else if op = 0x86 then [(0, 1), (2, 2), (8, 8)]
  else if op = 0xC0 then [(0, 2), (4, 8)]
  else if op = 0xC3 then [(0, 1), (2, 3), (6, 2)]
  else []

/-- Whether the other immediate bytes are zero. -/
def immClean (n : GNode) (slot : Bool) : Bool :=
  n.imm.zipIdx.all (fun p => decide (p.1 = 0) || (immUsed n.op slot).any (fun u => decide (u.1 ≤ p.2 ∧ p.2 < u.1 + u.2)))

/-- The modular micro-operations, and those that read constants or a table: none may stand in an O_VPROG program. -/
def vprogOpBarred (u : Word) : Bool := [1, 2, 3, 4, 5, 6, 7, 8, 9, 0x31, 0x33, 0x34].contains (u.toNat % 256)

/-- A message-bit count of a table's outputs within the limit of a set. -/
def bitsIn (c : CustomSet) (m : Nat) : Bool := decide (1 ≤ m ∧ m ≤ c.mbits)

/-- Whether the immediates of a node are in range, as far as the type of its operand 0 is known (R729, *Node immediates*). -/
def immInRange (g : Graph) (sets : List CustomSet) (n : GNode) (a : Option Ty) : Bool :=
  let x := (a.getD {}).h
  let c := cOf sets x
  let known := decide (x.kind ≠ 0 ∧ x.kind ≠ 5)
  let half := setN c / 2
  let k := n.i32 0
  let b := n.i8 0
  let words : List Word := match n.ins.getD 1 none with
    | some t => g.constWords (g.tensor t)
    | none => []
  let prog : List Word := match n.ins.getD 3 none with
    | some t => if (g.tensor t).role = 3 then g.constWords (g.tensor t) else []
    | none => []
  if n.op = 0x08 then decide (k ≠ 2 ^ 31)
  else if n.op = 0x0D then decide (1 ≤ k) && (!known || decide (k < half))
  else if n.op = 0x0E then !known || words.all (fun w => decide (1 ≤ w.toNat ∧ w.toNat < half))
  else if n.op = 0x11 then decide (1 ≤ b) && (!known || decide (b ≤ setMaxLevel c))
  else if n.op = 0x12 ∨ n.op = 0x81 then decide (b ≤ 1)
  else if n.op = 0x13 ∨ n.op = 0x49 then decide (2 ≤ b ∧ b ≤ 56)
  else if n.op = 0x43 then decide (k < 2 ^ 31) && (!known || decide (k < 2 ^ x.count))
  else if n.op = 0x44 then decide ((signed 32 k).natAbs < 2 ^ 15)
  else if n.op = 0x48 then decide (b < 16)
  else if n.op = 0x47 ∨ n.op = 0x89 then decide (1 ≤ b) && (!known || bitsIn c b)
  else if n.op = 0x88 then
    decide (1 ≤ b) && (!known || bitsIn (if x.kind = 1 then cOf sets { pset := n.i16 2 } else c) b)
  else if n.op = 0x83 then decide (b ≤ 20)
  else if n.op = 0x84 ∨ n.op = 0x85 then isPow2Upto k (2 ^ 31) && (!known || decide (k ≤ x.count))
  else if n.op = 0x86 then decide (1 ≤ b)
  else if n.op = 0x8B then decide (1 ≤ b ∧ b ≤ 16)
  else if n.op = 0xC0 then decide (b ≤ 2 ∧ n.i8 1 ≤ 2)
  else if n.op = 0xC1 then prog.all (fun u => uopOk false 0 0 u && !vprogOpBarred u)
  else if n.op = 0xC2 then decide (2 ≤ b ∧ b ≤ 15 ∧ b ≠ 4)
  else if n.op = 0xC3 then
    decide (n.i8 4 < 4) && (match psetOf sets (BitVec.ofNat 16 (n.i16 6)) with
      | some p => decide (b ≤ setMaxLevel p)
      | none => true)
  else true

/-- Whether a node's fields are in range: its code, its tensors, its counts and its immediates. -/
def nodeOk (g : Graph) (sets : List CustomSet) (n : GNode) (a : Option Ty) : Bool :=
  let slot := match n.ins.headD none with
    | some t => decide ((g.tensor t).tkind = 1)
    | none => false
  match opIns n.op with
  | none => false
  | some (need, may) =>
    n.form && (List.zipWith (fun (r : Bool) (i : Option Nat) => !r || i.isSome) need n.ins).all id
      && (List.zipWith (fun (r : Bool) (i : Option Nat) => r || i.isNone) may n.ins).all id
      && (n.ins ++ n.outs).all (fun t => decide (t.getD 0 < g.hdr.ntens))
      && decide (n.nin = (n.ins.filter (·.isSome)).length ∧ n.nout = (n.outs.filter (·.isSome)).length)
      && decide ((opOuts n.op).1 ≤ n.nout ∧ n.nout ≤ (opOuts n.op).2) && (n.outs.headD none).isSome
      && immClean n slot && immInRange g sets n a

/-- The types of the tensors, derived as far as the nodes allow. -/
def knownTypes (g : Graph) (sets : List CustomSet) (dir : List KeySet) : List (Option Ty) → List GNode → List (Option Ty)
  | env, [] => env
  | env, n :: rest =>
    let r := inferNode g sets dir env n
    knownTypes g sets dir (if nodeOk g sets n ((nodeIns env n).getD 0 none) && r.ok then bindOuts g env n r.outs else env) rest

/-- The type of a tensor with the PLEN of its elements. -/
def lenTy (sets : List CustomSet) (ty : Ty) : Ty :=
  match psetOf sets (BitVec.ofNat 16 ty.h.pset) with
  | some c => if ty.h.kind = 5 then ty else { ty with h := { ty.h with plen := plenOf c ty.h } }
  | none => ty

/-- The buffer and the bytes from its start that the sealed elements of every host tensor take; none for an open tensor, for one that
has no host memory, and for one whose type the nodes do not give. -/
def sealedSpans (g : Graph) (sets : List CustomSet) (env : List (Option Ty)) : List (Option (Nat × Nat × Nat)) :=
  g.tensors.zipIdx.map (fun p => match env.getD p.2 none with
    | some ty => if p.1.hosted && decide (p.1.tkind ≠ 5) then some (p.1.buf, p.1.boff, elemsOf p.1 * sealedStride (lenTy sets ty).h.plen)
                 else none
    | none => none)

/-- The first tensor whose sealed elements lie over those of an earlier one in the same buffer (check 4). -/
def overlapped : Nat → List (Nat × Nat × Nat) → List (Option (Nat × Nat × Nat)) → Option Nat
  | _, _, [] => none
  | i, seen, none :: rest => overlapped (i + 1) seen rest
  | i, seen, some (buf, at_, len) :: rest =>
    if seen.any (fun u => decide (u.1 = buf) && rangesMeet u.2.1 u.2.2 at_ len) then some i
    else overlapped (i + 1) ((buf, at_, len) :: seen) rest

/-- What check 4 says of several tensors, then check 4a. -/
def badTensors (g : Graph) (sets : List CustomSet) (dir : List KeySet) : Option Reject :=
  match overlapped 0 [] (sealedSpans g sets (knownTypes g sets dir (startEnv g sets) g.nodes)) with
  | some t => some { status := 0x10, check := 4, detail := t }
  | none => (firstIdx mxBad g.tensors).map (fun t => { status := 0x12, check := 4, detail := t })

/-- The first node that fails check 5. The types it needs are derived as far as the nodes allow. -/
def badNode (g : Graph) (sets : List CustomSet) (dir : List KeySet) : Nat → List (Option Ty) → List GNode → Option Nat
  | _, _, [] => none
  | i, env, n :: rest =>
    let ins := nodeIns env n
    if !nodeOk g sets n (ins.getD 0 none) then some i
    else
      let r := inferNode g sets dir env n
      badNode g sets dir (i + 1) (if r.ok then bindOuts g env n r.outs else env) rest

/-- Whether patch slot `i` of an image is in range (R394). -/
def slotOk (g : Graph) (b : List Byte) (i : Nat) : Bool :=
  let e := entryAt b g.hdr.slotOff 16 i
  let t := field e 4 4
  decide (field e 0 1 = 1 ∨ field e 0 1 = 2) && zeroField e 1 3 && zeroField e 8 8 && decide (t < g.hdr.ntens)
    && (g.tensor t).declares

/-! ## Check 6 -/

/-- The nodes that write tensor `t`. -/
def writersOf (g : Graph) (t : Nat) : List Nat :=
  (g.nodes.zipIdx.filter (fun p => p.1.outs.contains (some t))).map (·.2)

/-- The first node that writes a tensor it may not, or one an earlier node (or its own other output) writes. -/
def badWriter (g : Graph) : Option Nat :=
  firstIdx (fun p => p.1.outs.any (fun o => match o with
      | some t => decide ((g.tensor t).role = 1 ∨ (g.tensor t).role = 3) || (writersOf g t).any (fun w => decide (w < p.2))
      | none => false)
    || decide (p.1.nout = 2 ∧ p.1.outs.getD 0 none = p.1.outs.getD 1 none)) g.nodes.zipIdx

/-- The first tensor of ROLE 0 or 2 that no node writes. -/
def unwritten (g : Graph) : Option Nat :=
  firstIdx (fun p => decide (p.1.role = 0 ∨ p.1.role = 2) && decide (writersOf g p.2 = [])) g.tensors.zipIdx

/-- The first node that reads a tensor no earlier node writes (R391). -/
def earlyReader (g : Graph) : Option Nat :=
  firstIdx (fun p => p.1.ins.any (fun i => match i with
    | some t => decide ((g.tensor t).role = 0 ∨ (g.tensor t).role = 2) && !(writersOf g t).any (fun w => decide (w < p.2))
    | none => false)) g.nodes.zipIdx

/-- Check 6: the entry at fault. -/
def cycleAt (g : Graph) : Option Nat :=
  match badWriter g, unwritten g with
  | some n, _ => some n
  | none, some t => some t
  | none, none => earlyReader g

/-! ## Key objects -/

/-- A key object that a node needs of a key set. -/
structure Need where
  ksid : Nat
  kkind : Nat
  gal : Nat := 0
  deriving DecidableEq, Repr

/-- GAL of the rotation by `k` in ring dimension N: 5^k mod 2N (R115). -/
def galOf (c : CustomSet) (k : Nat) : Nat := powMod (2 * setN c) 5 k

/-- ROT objects of some amounts. -/
def rots (c : CustomSet) (ksid : Nat) (ks : List Nat) : List Need :=
  ks.map (fun k => { ksid := ksid, kkind := 2, gal := galOf c k })

/-- Baby steps of N_DENSE over d′ diagonals (R139). -/
def babies (d : Nat) : Nat := 2 ^ ceilDiv (Nat.log2 d) 2

/-- The rotations of a matrix in N_DENSE form over d′ diagonals: every baby step, and each giant step with a diagonal that is
not a known zero (R139, R140). -/
def denseRots (d : Nat) (nonzero : Nat → Bool) : List Nat :=
  let n1 := babies d
  (List.range (n1 - 1)).map (· + 1)
    ++ ((List.range (d / n1)).filter (fun k => decide (k ≠ 0) && (List.range n1).any (fun j => nonzero (k * n1 + j)))).map (· * n1)

/-- Whether diagonal `i` of the weight matrix of N_DENSE holds a word that is not a known zero (R140): only graph constants
are looked at. -/
def denseDiag (g : Graph) (w : Nat) (d s i : Nat) : Bool :=
  let t := g.tensor w
  let bytes := g.constBytes t
  decide (t.role ≠ 3) || (List.range (min s (t.exts.getD 1 1))).any (fun j =>
    decide ((j + i) % d < t.exts.headD 1) && !constZero t bytes j ((j + i) % d))

/-- Whether diagonal `i` of the slot form of N_CONV1D holds a tap that is not a known zero (R140, R141): of a kernel that the host
supplies at run time no diagonal is one. -/
def convDiag (g : Graph) (w : Nat) (s i : Nat) : Bool :=
  let t := g.tensor w
  let bytes := g.constBytes t
  let tap := (s - i) % s
  decide (t.role ≠ 3) || (decide (tap < t.exts.headD 1) && !constZero t bytes 0 tap)

/-- The rotations that the linear stages with maps `f 0` to `f (σ − 1)` name over `count` slots, each stage in N_DENSE form
(R139, R159). -/
def stageRots (count : Nat) (f : Nat → Nat → Nat → List Cpx → List Cpx) : List Nat :=
  let s := sigmaOf count
  (List.range s).flatMap (fun i =>
    let cols := mapCols count (f (Nat.log2 count) s i)
    denseRots count (fun k => diagLive (mapDiag cols k)))

/-- What the primitives of a node need (*Slot primitives*, *Scalar primitives*, *Network operations*, R307). -/
def nodeNeeds (g : Graph) (sets : List CustomSet) (dir : List KeySet) (env : List (Option Ty)) (n : GNode) : List Need :=
  let ins := nodeIns env n
  let a := (ins.getD 0 none).getD {}
  let x := a.h
  let c := cOf sets x
  let k := x.ksid
  let need (kind : Nat) : Need := { ksid := k, kkind := kind }
  let w := (n.ins.getD 1 none).getD 0
  let pbs : List Need := [need 8, need 9]
  let stages : List Need := rots c k (stageRots x.count slotStageMap)
  let extract (target : Nat) : List Need := stages ++ [need 3, need 6, { ksid := target, kkind := 9 }]
  let repack (target : Nat) (src : CustomSet) : List Need :=
    match keySetOf dir target with
    | some t =>
      rots (cOf sets { pset := t.pset.toNat }) target (denseRots (2 ^ clog2 src.n) (fun _ => true))
        ++ [{ ksid := target, kkind := 1 }, { ksid := target, kkind := 7 }]
    | none => []
  if n.op = 0x0A ∨ n.op = 0x0C ∨ n.op = 0x83 then [need 1]
  else if n.op = 0x0D then rots c k [n.i32 0]
  else if n.op = 0x0E then rots c k ((g.constWords (g.tensor w)).map (·.toNat))
  else if n.op = 0x0F then [need 3]
  else if n.op = 0x46 then [{ ksid := n.i64 8, kkind := 9 }]
  else if n.op = 0x47 ∨ n.op = 0x48 ∨ (0x89 ≤ n.op ∧ n.op ≤ 0x8B) then pbs
  else if n.op = 0x80 then
    let d := 2 ^ clog2 ((g.tensor w).exts.headD 1)
    rots c k (denseRots d (denseDiag g w d x.count))
  else if n.op = 0x81 ∧ n.i8 0 = 0 then rots c k (denseRots x.count (convDiag g w x.count))
  else if n.op = 0x84 ∨ n.op = 0x85 then rots c k ((List.range (Nat.log2 (n.i32 0))).map (2 ^ ·))
  else if n.op = 0x86 then extract (n.i64 8)
  else if n.op = 0x87 then repack (n.i64 8) c
  else if n.op = 0x88 then
    (if x.kind = 2 then pbs
     else extract (n.i64 8) ++ [{ ksid := n.i64 8, kkind := 8 }] ++ repack (n.i64 16) (cOf sets { pset := n.i16 2 }))
  else if n.op = 0x8C then stages ++ rots c k (stageRots x.count coefStageMap) ++ [need 1, need 3, need 4, need 5]
  else []

/-- The object that a need names. -/
def needFound (dir : List KeySet) (x : Need) : Option (KeySet × KeyObject) :=
  match keySetOf dir x.ksid with
  | none => none
  | some k => (k.objects.find? (fun o => decide (o.kkind.toNat = x.kkind ∧ (x.kkind ≠ 2 ∨ o.gal.toNat = x.gal)))).map
      (fun o => (k, o))

/-- KSIDs that a node's immediates name. -/
def nodeKsids (g : Graph) (n : GNode) : List Nat :=
  let slot := match n.ins.headD none with
    | some t => decide ((g.tensor t).tkind = 1)
    | none => false
  if n.op = 0x46 ∨ n.op = 0x86 ∨ n.op = 0x87 then [n.i64 8]
  else if n.op = 0x88 ∧ slot = true then [n.i64 8, n.i64 16]
  else []

/-- The KSIDs that a job names (R306, R307). -/
def graphKsids (g : Graph) : List Nat :=
  (g.tensors.filter (·.declares)).map (·.ksid) ++ g.nodes.flatMap (nodeKsids g)

/-- Check 8 (R307): the tensor, then the node, at fault. -/
def keyAbsent (g : Graph) (sets : List CustomSet) (dir : List KeySet) (env : List (Option Ty)) : Option Nat :=
  let there (k : Nat) : Bool := (keySetOf dir k).isSome
  match firstIdx (fun t => t.declares && !there t.ksid) g.tensors with
  | some t => some t
  | none => firstIdx (fun n => (nodeKsids g n).any (fun k => !there k)
      || (nodeNeeds g sets dir env n).any (fun x => (needFound dir x).isNone)) g.nodes

/-- The key objects that a job uses (R412), each once. -/
def usesOf (g : Graph) (sets : List CustomSet) (dir : List KeySet) (env : List (Option Ty)) : List KeyUse :=
  ((g.nodes.flatMap (nodeNeeds g sets dir env)).filterMap (needFound dir)).foldl (fun us p =>
    let u : KeyUse := { kkind := p.2.kkind.toNat, gal := p.2.gal.toNat, seeded := p.2.seeded, npages := p.2.npages,
                        pset := p.1.pset, chk := p.1.chk }
    if us.contains u then us else us ++ [u]) []

/-! ## The checks in order -/

/-- A graph that has passed its checks: with its types, the outcomes of its scale tests, and the key objects it uses. -/
structure Checked where
  g : Graph
  env : List (Option Ty)
  log : List Nat
  uses : List KeyUse
  deriving DecidableEq, Repr

/-- An image checked under R395, with the patch values of the job descriptor (R394). -/
def graphCheck (b : List Byte) (glen : Nat) (patches : List (BitVec 64)) (image : List CustomSet) (dir : List KeySet) :
    Except Reject Checked :=
  match graphRead b glen patches image with
  | .error r => .error r
  | .ok g =>
    let sets := image ++ g.sets
    match badTensors g sets dir with
    | some r => .error r
    | none =>
    match badNode g sets dir 0 (startEnv g sets) g.nodes, firstIdx (fun i => !slotOk g b i) (List.range g.hdr.nslot) with
    | some n, _ => .error { status := 0x10, check := 5, detail := n }
    | none, some i => .error { status := 0x10, check := 5, detail := i }
    | none, none => match cycleAt g with
      | some e => .error { status := 0x13, check := 6, detail := e }
      | none => match inferAll g sets dir 0 (startEnv g sets) [] g.nodes with
        | .error n => .error { status := 0x14, check := 7, detail := n }
        | .ok (env, log) => match keyAbsent g sets dir env with
          | some e => .error { status := 0x15, check := 8, detail := e }
          | none => match firstIdx (fun n => decide (n.op = 0xC0)
              && decide ((g.tensor ((n.ins.headD none).getD 0)).exts.headD 1 > 65535)) g.nodes with
            | some n => .error { status := 0x12, check := 9, detail := n }
            | none => .ok { g := g, env := env, log := log, uses := usesOf g sets dir env }

end Sys2Proof.Machine
end

