-- ==== Sys2Proof/Machine/Lower.lean ====
section
/-! DEFINITION. The lowering of a graph (R135): the primitives that every node becomes, with their operand order, constants,
rotation amounts and alignments (R136 to R164). A lowering runs with the headers that the primitives give (without NOISE and
poison), because levels and scales decide its alignments (R137). -/
namespace Sys2Proof.Machine

/-! ## Building a lowering -/

/-- A ciphertext or plaintext of a lowering: where it comes from, and its header. -/
structure Val where
  src : Src
  h : Hdr
  deriving DecidableEq, Repr

/-- A lowering under way: the sets and keys it knows, the R51 number that new primitives take, the primitives so far, and the
next seed. -/
structure Build where
  sets : List CustomSet
  dir : List KeySet
  id : Nat := 0
  prims : List LPrim := []
  seeds : Nat := 0

abbrev Lower := StateM Build

/-- What the bound of a primitive takes of its operand 0. -/
def shape0 (h : Hdr) : Shape0 := { pset := h.pset, level := h.level, comps := h.comps, ntt := h.ntt, chk := h.chk }

/-- One more primitive. -/
def emit (p : LPrim) (h : Hdr) : Lower Val := fun b =>
  ({ src := .prim b.prims.length, h := { h with noise := 0, poison := 0, scale := p.out.getD h.scale } },
      { b with prims := b.prims ++ [{ p with objid := b.id }] })

/-- A primitive of *Sealed Primitives* on operands, with the header that its table gives. -/
def prim (p : LPrim) (xs : List Val) : Lower Val := fun b =>
  let count := lmax ((xs.filter (fun x => match x.src with
    | .key _ => true
    | _ => false)).map (·.h.count))
  emit { p with ops := xs.map (·.src), slot := max p.slot count, in0 := shape0 (xs.headD ⟨.object 0,
      {}⟩).h } (primHeader b.sets none 0 p.code (xs.map (·.h)) p.imm []) b

/-- A primitive without further parameters. -/
def op (code : Nat) (xs : List Val) (imm : Nat := 0) : Lower Val := prim { code := code, imm := imm } xs

/-- The set of a value. -/
def setOfVal (x : Val) : Lower CustomSet := fun b => (cOf b.sets x.h, b)

/-- A two's-complement immediate. -/
def immOf (v : Int) : Nat := (v % 2 ^ 32).toNat

def oneF : Word := 0x3F800000

def mulC (x : Val) (fp : Word) (e : Int) : Lower Val := prim { code := 0x07, imm := immOf e, fp := fp } [x]
def addC (x : Val) (fp : Word) : Lower Val := prim { code := 0x05, fp := fp } [x]
def rescale (x : Val) : Lower Val := op 0x0B [x]

/-- S_DROPs from the operand's level down to `l`. LEVEL never rises (R67): an operand below `l` is dropped until its level runs out,
and the last S_DROP, at LEVEL 0, writes LEVEL_EXHAUSTED (R103, R108; DESIGN CHOICE, log entry 121). -/
def dropTo (x : Val) (l : Nat) : Lower Val :=
  (List.range (if x.h.level < l then x.h.level + 1 else x.h.level - l)).foldlM (fun y _ => op 0x10 [y]) x

/-- Steps 1 to 3 of R137: `a` brought to the level and scale of `b`. -/
def alignTo (a b : Val) : Lower Val := do
  let c ← setOfVal a
  let a1 ← dropTo a (b.h.level + 1)
  let a2 ← mulC a1 oneF ((b.h.scale : Int) + logL (c.qs.getD (b.h.level + 1) 2) - a1.h.scale)
  rescale a2

/-- Two ciphertexts at one level and scale (R137), in operand order. -/
def aligned (a b : Val) : Lower (Val × Val) :=
  if a.h.level = b.h.level ∧ scalesDiffer a.h b.h = false then pure (a, b)
  else if b.h.level < a.h.level then do return (← alignTo a b, b)
  else if a.h.level < b.h.level then do return (a, ← alignTo b a)
  else do
    let b1 ← op 0x10 [b]
    return (← alignTo a b1, b1)

def add (a b : Val) : Lower Val := do let (x, y) ← aligned a b; op 0x01 [x, y]
def sub (a b : Val) : Lower Val := do let (x, y) ← aligned a b; op 0x02 [x, y]

/-- Operands at the lower of their levels. -/
def level2 (a b : Val) : Lower (Val × Val) := do
  return (← dropTo a (min a.h.level b.h.level), ← dropTo b (min a.h.level b.h.level))

/-- a × b of R144. -/
def mrr (a b : Val) : Lower Val := do let (x, y) ← level2 a b; op 0x0C [x, y]

/-- A left-to-right sum with R137's alignments; none of nothing. -/
def sumVals : List Val → Lower (Option Val)
  | [] => pure none
  | x :: xs => do return some (← xs.foldlM add x)

/-- An encoding (R77) at `level` with scale exponent `e`, in NTT order, with a check limb as `x` has. -/
def encodeLike (x : Val) (level : Nat) (e : Int) (re : List Cell) (im : List Word) : Lower Val :=
  let p : EncPlan := { pset := x.h.pset, level := level, scale := e, ntt := true, chk := x.h.chk }
  emit { code := 0xC3, re := re, im := im, enc := some p }
    { kind := 3, pset := x.h.pset, ntt := true, chk := x.h.chk, level := level, comps := 1, scale := noiseClamp e, count := re.length }

/-! ## Linear layers (R138 to R143) -/

/-- A diagonal: the words of its real parts and of its imaginary parts (none for a real diagonal, R160). -/
abbrev Diagonal := List Cell × List Word

/-- rot(v, −a)[j] = v[(j − a) mod s]. -/
def rotBack {α : Type} (a : Nat) (v : List α) : List α :=
  let s := v.length
  v.drop ((s - a % s) % s) ++ v.take ((s - a % s) % s)

/-- The procedure of R139 over `d` diagonals, without bias; a diagonal that is a known zero is none (R140). `extra` is added to
the exponent of every plaintext. With no diagonal left the output keeps the input's SCALE, as R138 says (DESIGN CHOICE, log entry
113). -/
def dense (x : Val) (d : Nat) (diag : Nat → Option Diagonal) (extra : Int) : Lower Val := do
  let c ← setOfVal x
  let n1 := babies d
  let e : Int := (logL (c.qs.getD x.h.level 2) : Nat) + extra
  let rs ← (List.range (n1 - 1)).mapM (fun j => op 0x0E [x] (j + 1))
  let r (j : Nat) : Val := if j = 0 then x else rs.getD (j - 1) x
  let y ← (List.range (d / n1)).foldlM (fun (y : Option Val) k => do
    let t ← (List.range n1).foldlM (fun (t : Option Val) j =>
      match diag (k * n1 + j) with
      | none => pure t
      | some (re, im) => do
        let p ← encodeLike x x.h.level e (rotBack (k * n1) re) (rotBack (k * n1) im)
        let m ← op 0x06 [r j, p]
        match t with
        | some t => do return some (← op 0x01 [t, m])
        | none => return some m) none
    match t with
    | none => pure y
    | some t => do
      let t1 ← if k > 0 then op 0x0D [t] (k * n1) else pure t
      match y with
      | some y => do return some (← op 0x01 [y, t1])
      | none => return some t1) none
  match y with
  | some y => rescale y
  | none => do prim { code := 0x0B, out := some x.h.scale } [← op 0x08 [x] 0]

/-- A bias added at the output's level with exponent s_x (R139). -/
def addBias (x y : Val) (bias : Option (List Cell)) : Lower Val := match bias with
  | some b => do op 0x04 [y, ← encodeLike y y.h.level (x.h.scale : Int) b []]
  | none => pure y

/-- Diagonal `i` of the weight matrix in tensor `w` for N_DENSE over `d` diagonals and `s` slots: u[i][j] = W[j][(j + i) mod d]
(R139, R140). -/
def weightDiag (g : Graph) (w d s i : Nat) : Option Diagonal :=
  let t := g.tensor w
  let cols := t.exts.headD 1
  if denseDiag g w d s i then
    some ((List.range s).map (fun j =>
      let c := (j + i) % d
      if c < cols ∧ j < t.exts.getD 1 1 then .elem w (c + j * cols) else .word 0), [])
  else none

/-- Diagonal `i` of the slot form of N_CONV1D: W[j][c] = κ_(j−c) (R141). -/
def kernelDiag (g : Graph) (w s i : Nat) : Option Diagonal :=
  let t := g.tensor w
  if convDiag g w s i then
    some ((List.range s).map (fun j =>
      let c := (j + i) % s
      if c ≤ j ∧ j - c < t.exts.headD 1 then .elem w (j - c) else .word 0), [])
  else none

/-- The FP32 value of element `e` of a constant tensor, whose rows stand in the tensor's format (R390). -/
def constElem (g : Graph) (t e : Nat) : Word := openVal (g.tensor t) (g.constWords (g.tensor t)) e

/-- N_MIX for one output (R142): Σ_i S_MULC(x_i, c_i, L(q_l)) in ascending i, rescaled; then the bias. -/
def mix (xs : List Val) (cs : List Word) (bias : Option Word) : Lower (Option Val) := do
  match xs with
  | [] => return none
  | x :: _ => do
    let c ← setOfVal x
    let e : Int := logL (c.qs.getD x.h.level 2)
    let ps ← (List.zip xs cs).mapM (fun p => mulC p.1 p.2 e)
    match ps with
    | [] => return none
    | p :: rest => do
      let y ← rescale (← rest.foldlM (fun a b => op 0x01 [a, b]) p)
      match bias with
      | some b => return some (← addC y b)
      | none => return some y

/-! ## Polynomials (R144, R145) -/

/-- 2 × z of R144. -/
def twice (z : Val) : Lower Val := op 0x08 [z] 2

/-- −1 as FP32. -/
def minusOneF : Word := 0xBF800000

/-- T[i] from those before it, T[1] first. At d = 1 (k = 2, g = 0) the loop of R144 computes T[2], which nothing reads, while R145
counts no S_MRR: the model follows the loop and emits that S_MRR (DESIGN CHOICE, log entry 152). 2 × T × T doubles the product
(DESIGN CHOICE, log entry 118). -/
def chebyNext (ts : List Val) (i : Nat) : Lower (List Val) :=
  let t (j : Nat) : Val := ts.getD (j - 1) { src := .object 0, h := {} }
  if i % 2 = 0 then do
    return ts ++ [← addC (← twice (← mrr (t (i / 2)) (t (i / 2)))) minusOneF]
  else do
    return ts ++ [← sub (← twice (← mrr (t ((i + 1) / 2)) (t ((i - 1) / 2)))) (t 1)]

/-- A baby power aligned to the last one, which has the lowest level: from a higher level by steps 1 to 3 of R137. -/
def babyAligned (t ref : Val) : Lower Val := if ref.h.level < t.h.level then alignTo t ref else pure t

/-- What the exponent of a baby power's S_MULC takes besides L(q): the difference to the last power's scale, where the two are at
one level and do not agree. R137's fourth step would cost a level that D_p does not count (R145; DESIGN CHOICE, log entry 114). -/
def babyShift (t ref : Hdr) : Int := if scalesDiffer t ref then (ref.scale : Int) - t.scale else 0

/-- ev at h = 0: the aligned baby powers times their coefficients with exponent L(q) + `extra`, q their level, summed in ascending
i, rescaled, then c[0]. -/
def evBase (ts : List Val) (cs : List Word) (extra : Int) : Lower (Option Val) := do
  match ts.getLast? with
  | none => return none
  | some ref => do
    let c ← setOfVal ref
    let e : Int := logL (c.qs.getD ref.h.level 2) + extra
    let ps ← (List.zip ts (cs.drop 1)).mapM (fun p => do
      let t ← babyAligned p.1 ref
      mulC t p.2 (e + babyShift t.h ref.h))
    match ps with
    | p :: rest => do return some (← addC (← rescale (← rest.foldlM (fun a b => op 0x01 [a, b]) p)) (cs.headD 0))
    | [] => return none

/-- The halves q and r of coefficients c[0 .. 2K − 1] (R144): each exact, then rounded to the nearest FP32. -/
def splitCoeffs (k : Nat) (c : List Word) : List Word × List Word :=
  ((List.range k).map (fun j => if j = 0 then c.headD 0 else (fpSub (c.getD j 0) (c.getD (2 * k - j) 0)).1),
   (List.range k).map (fun j => if j = 0 then c.getD k 0 else (fpAdd (c.getD (k + j) 0) (c.getD (k + j) 0)).1))

/-- ev of R144. -/
def ev (ts gs : List Val) (extra : Int) : Nat → List Word → Lower (Option Val)
  | 0, c => evBase ts c extra
  | h + 1, c => do
    let (q, r) := splitCoeffs (c.length / 2) c
    match ← ev ts gs extra h q, ← ev ts gs extra h r, gs[h]? with
    | some a, some b, some g => do return some (← add a (← mrr g b))
    | _, _, _ => return none

/-- N_POLY of coefficients `cs` with interval exponent `b` (R144), and the S_DROPs to D_p levels below the input (R145), the last of
them at LEVEL 0 where the input has fewer. `extra` is added to the exponents of ev's constants (R162). -/
def poly (x : Val) (cs : List Word) (b : Nat) (extra : Int) : Lower Val := do
  let c ← setOfVal x
  let m := clog2 cs.length
  let k := 2 ^ ceilDiv m 2
  let g := m - ceilDiv m 2
  let t1 ← if b = 0 then pure x else do
    rescale (← mulC x (f32OfFix (fix / 2 ^ b : Nat)) (logL (c.qs.getD x.h.level 2)))
  let ts ← ((List.range (k - 1)).map (· + 2)).foldlM chebyNext [t1]
  let gs ← (List.range (g - 1)).foldlM (fun (gs : List Val) _ => do
    let y := gs.getLastD t1
    return gs ++ [← addC (← twice (← mrr y y)) minusOneF]) [ts.getLastD t1]
  let full := cs ++ List.replicate (k * 2 ^ g - cs.length) 0
  match ← ev (ts.take (k - 1)) gs extra g full with
  | none => return x
  | some y =>
    let out : Int := (x.h.level : Int) - (m + 1 + b2n (decide (b ≠ 0)) : Nat)
    (List.range ((y.h.level : Int) - out).toNat).foldlM (fun y _ => op 0x10 [y]) y

/-! ## Sums (R146, R147) -/

/-- N_SUM with width `w`. -/
def innerSum (x : Val) (w : Nat) : Lower Val :=
  ((List.range (Nat.log2 w)).reverse.map (2 ^ ·)).foldlM (fun y t => do op 0x01 [y, ← op 0x0D [y] t]) x

/-- N_AVGPOOL with width `w`. -/
def avgPool (x : Val) (w : Nat) : Lower Val := do
  let y ← innerSum x w
  let c ← setOfVal y
  rescale (← mulC y (f32OfFix (fix / w : Nat)) (logL (c.qs.getD y.h.level 2)))

/-! ## The bootstrap (R158 to R162) -/

/-- The linear stages `f 0` to `f (s − 1)` in N_DENSE form with complex diagonals over x's slots, the last one's diagonals times
`num / den`. -/
def linearStages (x : Val) (f : Nat → List Cpx → List Cpx) (s num den : Nat) : Lower Val :=
  (List.range s).foldlM (fun y i =>
    let cols := mapCols x.h.count (f i)
    let diag (k : Nat) : Option Diagonal :=
      let d := mapDiag cols k
      if diagLive d then
        let (re, im) := if i + 1 = s then diagWords num den d else diagWords 1 1 d
        some (re.map .word, im)
      else none
    dense y x.h.count diag 0) x

/-- Stage 1 of the bootstrap, and step 1 of R148: S_DROP to level σ, σ slot-to-coefficient stages, S_XFORM to coefficient
order. -/
def slotToCoeff (x : Val) : Lower Val := do
  let n := Nat.log2 x.h.count
  let s := sigmaOf x.h.count
  let y ← dropTo x s
  op 0x12 [← linearStages y (slotStageMap n s) s 1 1] 1

/-- The modular reduction (stage 6): the polynomial of degree 63, then r squarings, each less a_i; `out` is the SCALE that its
output takes. -/
def reduction (y : Val) (k r ar : Nat) (extra : Int) (out : Option Nat) : Lower Val := do
  let (cs, as) := bootConsts k r ar
  let d0 ← poly y cs 0 extra
  as.zipIdx.foldlM (fun d a => do
    prim { code := 0x05, fp := fpNeg a.1, out := if a.2 + 1 = as.length then out else none } [← mrr d d]) d0

/-- The reduction with the exponents of its constants chosen so that its output has SCALE `target` (R152, R162). The exponents of
ev's constants move the output's scale in steps of 2^r; the rest, less than a step, goes into the final constant, which is scaled
by 2^(rest ÷ 256), so that the words stand for the slot values at the SCALE written (DESIGN CHOICE, log entry 119). -/
def reductionTo (y : Val) (k r ar target : Nat) : Lower Val := fun b =>
  let diff := (target : Int) - ((reduction y k r ar 0 none b).1.h.scale : Nat)
  let extra := diff / 2 ^ r
  reduction y k r (ar * exp2Fix (diff - extra * 2 ^ r).toNat / fix) extra (some target) b

/-- A key switch of the bootstrap under kind 4 (SPS) or 5 (DNS). -/
def bootSwitch (x : Val) (kind : Nat) : Lower Val := emit { code := 0x8C, ops := [x.src], imm := kind, in0 := shape0 x.h } { x.h with ntt := true }

/-- N_BOOT (R158). The last coefficient-to-slot stage folds ½, 1/q0 and 1/K, and the scale 2^(s/256) that R161's final
constant takes out again (DESIGN CHOICE, log entry 119), into its diagonals. -/
def boot (x : Val) : Lower Val := do
  let c ← setOfVal x
  let n := Nat.log2 x.h.count
  let s := sigmaOf x.h.count
  let q0 := c.qs.headD 2
  let low ← bootSwitch (← slotToCoeff x) 4
  let up ← bootSwitch (← op 0x11 [low] (setMaxLevel c)) 5
  let z ← linearStages up (coefStageMap n s) s (exp2Fix (x.h.scale % 256) * 2 ^ (x.h.scale / 256)) (2 * q0 * 16 * fix)
  let re ← op 0x01 [z, ← op 0x0F [z]]
  reductionTo re 16 3 (bootFinal q0 x.h.scale) x.h.scale

/-! ## Extraction and repacking (R148 to R152) -/

/-- N_EXTRACT of `m` message bits under key set `ksid` of parameter set `pset`: one primitive for each slot after the shared
stages. n_a and SCALE of R149 are those of the ciphertext that the stages leave: R149 does not say whether it means the input of
N_EXTRACT or the ciphertext that is extracted (DESIGN CHOICE, log entry 152). -/
def extract (x : Val) (m pset ksid : Nat) : Lower (List Val) := do
  let y ← slotToCoeff x
  (List.range x.h.count).mapM (fun j =>
    emit { code := 0x86, in0 := shape0 y.h, ops := [y.src], imm := ksid, slot := j, bits := m, tset := pset }
      { kind := 2, pset := pset, ksid := ksid, comps := 1, count := m })

/-- N_REPACK of scalars `xs` under the L2S key of key set `ksid` (R151): N_DENSE on the key, the bodies, the reduction with
K = 64 and r = 5. Its SCALE is the key's (R152). -/
def repack (xs : List Val) (ksid : Nat) : Lower (Option Val) := fun b =>
  match xs, keySetOf b.dir ksid with
  | x :: _, some k =>
    let src := cOf b.sets x.h
    let s := xs.length
    let d := 2 ^ clog2 src.n
    let c := cOf b.sets { pset := k.pset.toNat }
    let count := max s d
    let kh : Hdr := { kind := 1, pset := k.pset.toNat, ntt := true, chk := k.chk, ksid := ksid, level := setMaxLevel c,
                      comps := 2, scale := c.scale, count := count }
    let key : Val := { src := .key ksid, h := kh }
    let cellAt (i col : Nat) (neg : Bool) : Cell := .scalar i col neg
    let diag (i : Nat) : Option Diagonal :=
      some ((List.range count).map (fun j =>
        let col := (j + i) % d
        if j < s ∧ col < src.n then cellAt j col true else .word 0), [])
    let scalars (b0 : Build) (b1 : Build) : Build :=
      { b1 with prims := b1.prims.zipIdx.map (fun p =>
          if p.2 ≥ b0.prims.length ∧ p.1.code = 0xC3 then { p.1 with ops := xs.map (·.src), bits := x.h.count } else p.1) }
    let (z, b1) := (do
      let y ← dense key d diag 0
      let body ← encodeLike y y.h.level (y.h.scale : Int) ((List.range count).map (fun j =>
        if j < s then cellAt j src.n false else .word 0)) []
      op 0x04 [y, body] : Lower Val) b
    let (o, b2) := reductionTo z 64 5 (repackFinal x.h.count) key.h.scale (scalars b b1)
    (some o, b2)
  | _, _ => (none, b)

/-! ## Scalars: tables, comparisons and trees (R153 to R157) -/

/-- L_PBS through a table given by a rule on v. -/
def pbsFn (x : Val) (m2 : Nat) (f : Nat → Nat) : Lower Val :=
  prim { code := 0x47, imm := m2, table := (List.range (2 ^ x.h.count)).map (fun v => .word (BitVec.ofNat 32 (f v))) } [x]

/-- d of R154: L_ADDC(L_SUB(a, b), 2^(m − 1)). -/
def cmpInput (a b : Val) : Lower Val := do op 0x43 [← op 0x41 [a, b]] (2 ^ (a.h.count - 1))

def tGe (m v : Nat) : Nat := if 2 ^ (m - 1) ≤ v then 1 else 0
def tRelu (m v : Nat) : Nat := v - 2 ^ (m - 1)
def tMux (v : Nat) : Nat := if v ≥ 4 then v / 2 % 2 else v % 2

/-- N_CMP (R154). -/
def cmp (a b : Val) (m2 : Nat) : Lower Val := do pbsFn (← cmpInput a b) m2 (tGe a.h.count)

/-- 1 − w. -/
def notBit (w : Val) : Lower Val := do op 0x43 [← op 0x42 [w]] 1

/-- A candidate of the tournament: its score and its index bits so far, least significant first. -/
structure Cand where
  score : Val
  bits : List Val

/-- One match (R155): the maximum, the inherited index bits, and the new bit. A tie gives w = 1, so that the lower index wins
(R156). -/
def playMatch (root : Bool) (mi : Nat) (a b : Cand) : Lower Cand := do
  let m := a.score.h.count
  let d ← cmpInput a.score b.score
  let w ← pbsFn d mi (tGe m)
  let sum ← op 0x40 [b.score, ← pbsFn d m (tRelu m)]
  let best ← if root then pure sum else pbsFn sum m id
  let old ← (List.zip a.bits b.bits).mapM (fun p => do
    pbsFn (← op 0x40 [← op 0x40 [← op 0x44 [w] 4, ← op 0x44 [p.1] 2], p.2]) mi tMux)
  return { score := best, bits := old ++ [← notBit w] }

/-- One level of the tree: adjacent candidates play. -/
def playLevel (root : Bool) (mi : Nat) : List Cand → Lower (List Cand)
  | a :: b :: rest => do return (← playMatch root mi a b) :: (← playLevel root mi rest)
  | _ => pure []

/-- N_ARGMAX over 2^h scores (R155): the winner. -/
def argmax (h : Nat) (xs : List Val) : Lower (Option Cand) := do
  let ys ← (List.range h).foldlM (fun (cs : List Cand) i => playLevel (decide (i + 1 = h)) (indexBits h) cs)
    (xs.map (fun x => { score := x, bits := [] }))
  return ys.head?

/-- The scores after a winner with index bits `bits` is knocked out (R157). -/
def knockOut (h : Nat) (bits : List Val) (xs : List Val) : Lower (List Val) :=
  xs.zipIdx.mapM (fun p => do
    let m := p.1.h.count
    let terms ← bits.zipIdx.mapM (fun q => if p.2.testBit q.2 then pure q.1 else notBit q.1)
    match terms with
    | [] => return p.1
    | t :: ts => do
      let sum ← ts.foldlM (fun a b => op 0x40 [a, b]) t
      let f ← pbsFn sum m (fun v => if v = h then 2 ^ (m - 1) else 0)
      pbsFn (← op 0x40 [p.1, f]) m (fun v => if v < 2 ^ (m - 1) then v else 0))

/-- N_TOPK (R157): the index bits of each rank in turn. -/
def topK (h : Nat) : Nat → List Val → Lower (List Val)
  | 0, _ => pure []
  | k + 1, xs => do
    match ← argmax h xs with
    | none => return []
    | some w => do
      let rest ← if k = 0 then pure [] else do topK h k (← knockOut h w.bits xs)
      return w.bits ++ rest

/-! ## Nodes -/

/-- Element numbers of a tensor with extents `x` for the coordinates `co` of an output (R388, R392). -/
def elemAt : List Nat → List Nat → Nat
  | x :: xs, c :: cs => (if x = 1 then 0 else c) + x * elemAt xs cs
  | _, _ => 0

/-- The coordinates of element `e`. -/
def coordsOf : List Nat → Nat → List Nat
  | [], _ => []
  | x :: xs, e => e % x :: coordsOf xs (e / x)

/-- The values known of each tensor, by element. -/
abbrev Env := List (List Val)

/-- What a node reads for one tuple: the graph, the values so far, the coordinates. -/
structure Tuple where
  g : Graph
  env : Env
  n : GNode
  co : List Nat

/-- Input slot `i` of a node. -/
def Tuple.inNo (t : Tuple) (i : Nat) : Nat := (t.n.ins.getD i none).getD 0

/-- Element of input `i` at coordinates `co`. -/
def Tuple.at_ (t : Tuple) (i : Nat) (co : List Nat) : Val :=
  let x := t.inNo i
  ((t.env.getD x []).getD (elemAt (t.g.tensor x).exts co) { src := .object 0, h := {} })

/-- Element of input `i` for this tuple, and the list that input `i` supplies along dimension 0 (R392). -/
def Tuple.val (t : Tuple) (i : Nat) : Val := t.at_ i t.co
def Tuple.list (t : Tuple) (i : Nat) : List Val :=
  (List.range ((t.g.tensor (t.inNo i)).exts.headD 1)).map (fun k => t.at_ i (k :: t.co))

/-- The table in input 1, as words. -/
def Tuple.table (t : Tuple) : List Cell :=
  (List.range ((t.g.tensor (t.inNo 1)).exts.headD 1)).map (fun e => .elem (t.inNo 1) e)

/-- The bias of N_DENSE in input 2, padded with zeros to `s` slots. -/
def Tuple.bias (t : Tuple) (s : Nat) : Option (List Cell) := (t.n.ins.getD 2 none).map (fun b =>
  (List.range s).map (fun j => if j < (t.g.tensor b).exts.headD 1 then .elem b j else .word 0))

/-- One value as a list. -/
def single (x : Lower Val) : Lower (List Val × List Val) := do return ([← x], [])

/-- How many leading dimensions a node's outputs have beyond its element tuples (R392). -/
def leadDims (n : GNode) : Nat :=
  if [0x0E, 0x82, 0x86, 0x8A].contains n.op ∨ (n.op = 0x81 ∧ n.i8 0 = 1) then 1 else if n.op = 0x8B then 2 else 0

/-- A slot primitive as a node: levels are met by S_DROP, additions follow R137. -/
def lowerSlot (t : Tuple) : Lower (List Val × List Val) :=
  let n := t.n
  let x := t.val 0
  let two (code : Nat) : Lower Val := do let (a, b) ← level2 x (t.val 1); op code [a, b]
  if n.op = 0x01 then single (add x (t.val 1))
  else if n.op = 0x02 then single (sub x (t.val 1))
  else if [0x04, 0x06, 0x09, 0x0C].contains n.op then single (two n.op)
  else if n.op = 0x05 then single (addC x (BitVec.ofNat 32 (n.i32 0)))
  else if n.op = 0x07 then single (mulC x (BitVec.ofNat 32 (n.i32 0)) (signed 16 (n.i16 4)))
  else if n.op = 0x0E then do
    let ks := (t.g.constWords (t.g.tensor (t.inNo 1))).map (·.toNat)
    return (← ks.mapM (fun k => op 0x0E [x] k), [])
  else if n.op = 0x11 then do
    let y ← dropTo x 0
    single (op 0x11 [y] (n.i8 0))
  else if n.op = 0x13 then fun b => (single (prim { code := 0x13, imm := n.i8 0, seed := b.seeds } [x])) { b with seeds := b.seeds + 1 }
  else if n.op = 0x12 then single (op 0x12 [x] (n.i8 0))
  else single (op n.op [x] (n.i32 0))

/-- A scalar primitive as a node. -/
def lowerScalar (t : Tuple) : Lower (List Val × List Val) :=
  let n := t.n
  let x := t.val 0
  if n.op = 0x40 ∨ n.op = 0x41 then single (op n.op [x, t.val 1])
  else if n.op = 0x48 then single (op 0x48 [x, t.val 1] (n.i8 0))
  else if n.op = 0x46 then single (op 0x46 [x] (n.i64 8))
  else if n.op = 0x47 then single (prim { code := 0x47, imm := n.i8 0, table := t.table } [x])
  else if n.op = 0x49 then fun b => (single (prim { code := 0x49, imm := n.i8 0, seed := b.seeds } [x])) { b with seeds := b.seeds + 1 }
  else single (op n.op [x] (n.i32 0))

/-- A network operation as a node. -/
def lowerNet (t : Tuple) : Lower (List Val × List Val) :=
  let n := t.n
  let x := t.val 0
  let w := t.inNo 1
  let exts (i : Nat) : List Nat := (t.g.tensor (t.inNo i)).exts
  let mixed (cs : Nat → List Word) (bias : Nat → Option Word) (outs : Nat) : Lower (List Val × List Val) := do
    let xs := t.list 0
    return ((← (List.range outs).mapM (fun o => mix xs (cs o) (bias o))).filterMap id, [])
  let outs := (t.g.tensor ((n.outs.headD none).getD 0)).exts
  if n.op = 0x80 then
    let d := 2 ^ clog2 ((exts 1).headD 1)
    single (do addBias x (← dense x d (weightDiag t.g w d x.h.count) 0) (t.bias x.h.count))
  else if n.op = 0x81 then
    if n.i8 0 = 0 then single (dense x x.h.count (kernelDiag t.g w x.h.count) 0)
    else
      let taps := (exts 1).headD 1
      let ins := (exts 0).headD 1
      mixed (fun j => (List.range ins).map (fun i => if i ≤ j ∧ j - i < taps then constElem t.g w (j - i) else 0)) (fun _ => none)
        (outs.headD 1)
  else if n.op = 0x82 then
    let k := (exts 1).headD 1
    mixed (fun o => (List.range k).map (fun i => constElem t.g w (i + o * k)))
      (fun o => (n.ins.getD 2 none).map (fun b => constElem t.g b (if (t.g.tensor b).exts.headD 1 = 1 then 0 else o)))
      (outs.headD 1)
  else if n.op = 0x83 then single (poly x ((List.range ((exts 1).headD 1)).map (constElem t.g w)) (n.i8 0) 0)
  else if n.op = 0x84 then single (innerSum x (n.i32 0))
  else if n.op = 0x85 then single (avgPool x (n.i32 0))
  else if n.op = 0x86 then do return (← extract x (n.i8 0) (n.i16 2) (n.i64 8), [])
  else if n.op = 0x87 then do return ((← repack (t.list 0) (n.i64 8)).toList, [])
  else if n.op = 0x88 then
    if x.h.kind = 2 then single (prim { code := 0x47, imm := n.i8 0, table := t.table } [x])
    else do
      let ys ← extract x (Nat.log2 ((exts 1).headD 1)) (n.i16 2) (n.i64 8)
      let zs ← ys.mapM (fun y => prim { code := 0x47, imm := n.i8 0, table := t.table } [y])
      return ((← repack zs (n.i64 16)).toList, [])
  else if n.op = 0x89 then single (cmp x (t.val 1) (n.i8 0))
  else if n.op = 0x8A then do
    let xs := t.list 0
    match ← argmax (Nat.log2 xs.length) xs with
    | some c => return (c.bits, [c.score])
    | none => return ([], [])
  else if n.op = 0x8B then do
    let xs := t.list 0
    return (← topK (Nat.log2 xs.length) (n.i8 0) xs, [])
  else if n.op = 0x8C then single (boot x)
  else do
    -- N_FTUPDATE (R163, R164, R287)
    let c ← setOfVal x
    let u ← dropTo (t.val 1) x.h.level
    let s := t.inNo 2
    let p ← encodeLike x x.h.level (2 * (c.scale : Int) - u.h.scale) ((List.range ((exts 2).headD 1)).map (.elem s)) []
    let v ← add x (← op 0x06 [u, p])
    return ([v], [← rescale v])

/-- O_ENCODE (R289). -/
def lowerEncode (t : Tuple) : Lower (List Val × List Val) :=
  let n := t.n
  let a := t.inNo 0
  let xs := (t.g.tensor a).exts
  let s := xs.headD 1
  let p : EncPlan := { pset := n.i16 6, level := n.i8 0, scale := n.i16 2, ntt := bit (n.i8 4) 0, chk := bit (n.i8 4) 1 }
  single (emit { code := 0xC3, re := (List.range s).map (fun j => .elem a (elemAt xs (j :: t.co))), enc := some p }
    { kind := 3, pset := p.pset, ntt := p.ntt, chk := p.chk, level := p.level, comps := 1, scale := n.i16 2, count := s })

/-- The output of a node takes its R51 number. -/
def nameOut (t : Nat) (xs : List Val) (first : Nat) (ps : List LPrim) : List LPrim :=
  xs.zipIdx.foldl (fun ps p => match p.1.src with
    | .prim i => lset ps i { ps.getD i { code := 0 } with objid := t * 2 ^ 44 + first + p.2 }
    | _ => ps) ps

/-- One tuple of a node: its values for OUT0 and OUT1. -/
def lowerTuple (t : Tuple) (k : Nat) : Lower (List Val × List Val) := fun b =>
  let no (i : Nat) : Nat := (t.n.outs.getD i none).getD 0
  let per (xs : List Val) : Nat := k * xs.length
  let run : Lower (List Val × List Val) :=
    if t.n.op < 0x40 then lowerSlot t else if t.n.op < 0x80 then lowerScalar t
    else if t.n.op < 0xC0 then lowerNet t else if t.n.op = 0xC3 then lowerEncode t else pure ([], [])
  let n0 := ((t.g.tensor (no 0)).exts.take (leadDims t.n)).foldl (· * ·) 1
  let ((xs, ys), b1) := run { b with id := no 0 * 2 ^ 44 + k * n0 }
  ((xs, ys), { b1 with prims := nameOut (no 1) ys (per ys) (nameOut (no 0) xs (per xs) b1.prims) })

/-- A node over all its tuples (R392). -/
def lowerNode (g : Graph) (env : Env) (n : GNode) : Lower Env := do
  let outs := (g.tensor ((n.outs.headD none).getD 0)).exts.drop (leadDims n)
  let rs ← (List.range (outs.foldl (· * ·) 1)).mapM (fun k =>
    lowerTuple { g := g, env := env, n := n, co := coordsOf outs k } k)
  let put (env : Env) (o : Option Nat) (xs : List Val) : Env := match o with
    | some t => if xs = [] then env else lset env t xs
    | none => env
  return put (put env (n.outs.getD 0 none) (rs.flatMap (·.1))) (n.outs.getD 1 none) (rs.flatMap (·.2))

/-- The values of the tensors before the first node: every element of a sealed input or state tensor, as ingested. -/
def inputEnv (g : Graph) (sets : List CustomSet) : Env :=
  g.tensors.zipIdx.map (fun p =>
    if p.1.declares then (List.range (elemsOf p.1)).map (fun e => { src := .object (p.2 * 2 ^ 44 + e), h := tensorHdr sets p.1 })
    else [])

/-- The primitives of a graph, in the order of its nodes (R135). -/
def lowerGraph (g : Graph) (sets : List CustomSet) (dir : List KeySet) : List LPrim :=
  (g.nodes.foldlM (lowerNode g) (inputEnv g sets) { sets := sets, dir := dir }).2.prims

end Sys2Proof.Machine
end

