-- ==== Sys2Proof/Machine/OpenEval.lean ====
section
/-! DEFINITION. What the open operations of a graph compute (*Open operations*, R273 to R289): every open tensor as the words
that R390 stores, node after node. -/
namespace Sys2Proof.Machine

/-- The words of every open tensor. -/
abbrev Opens := Tab (List Word)

/-- Words of tensor `t`. -/
def openOf (v : Opens) (t : Nat) : List Word := tget [] v t

/-- A row of FP32 words in the format of the tensor that takes it: CAST, the block scales of R279 (R282, R283), or FP32. -/
def openRowOut (fmt : Nat) (ws : List Word) : List Word :=
  if fmt = 0 ∨ fmt = 0xA then ws
  else (rowOut (some { op := if isMx fmt then 0x17 else 0x16, outfmt := fmt, func := 0, imm0 := 0, imm1 := 0, side := 0, sn := 0,
                       sm := 0, gs := 0 }) ws).1

/-- What one node reads: the tensors and the words so far. -/
structure OpenIn where
  tensors : List Tensor
  vals : Opens
  n : GNode

/-- Input slot `i` at the coordinates `co` of an output, where it is used. -/
def OpenIn.word (x : OpenIn) (i : Nat) (co : List Nat) : Option Word :=
  (x.n.ins.getD i none).map (fun t =>
    let u := x.tensors.getD t {}
    openVal u (openOf x.vals t) (elemAt u.exts co))

/-- The rows of an output with extents `o`: the coordinates from dimension 1 on of each. -/
def openRows (o : List Nat) : List (List Nat) :=
  (List.range ((o.drop 1).foldl (· * ·) 1)).map (coordsOf (o.drop 1))

/-- One row of O_MATMUL: the products of R273 over the whole of K (R277), then bias, ACT, NORM and gain. -/
def matmulRow (x : OpenIn) (n : Nat) (co : List Nat) : List Word :=
  let a := x.tensors.getD ((x.n.ins.getD 0 none).getD 0) {}
  let b := x.tensors.getD ((x.n.ins.getD 1 none).getD 0) {}
  let wa := openOf x.vals ((x.n.ins.getD 0 none).getD 0)
  let wb := openOf x.vals ((x.n.ins.getD 1 none).getD 0)
  let m := co.headD 0
  let outer := co.drop 1
  let pre := (List.range n).map (fun i =>
    let at_ : List Nat := i :: co
    let p := (openDot ((List.range (a.exts.headD 1)).map (fun k =>
      (openElem a wa (elemAt a.exts (k :: m :: outer)), openElem b wb (elemAt b.exts (k :: i :: outer)))))).1
    let q := match x.word 2 at_ with
      | some v => (fusedNan (fpAdd p v)).1
      | none => p
    if x.n.i8 0 = 0 then q else (actWord (x.n.i8 0 - 1) (BitVec.ofNat 32 (x.n.i32 8)) q).1)
  let normed := if x.n.i8 1 = 0 then pre else (normRow (x.n.i8 1 - 1) (BitVec.ofNat 32 (x.n.i32 4)) pre).1
  normed.zipIdx.map (fun p => match x.word 3 (p.2 :: co) with
    | some v => (fusedNan (fpMul p.1 v)).1
    | none => p.1)

/-- One element of O_VPROG: the words of its outputs. An output that the program's P0 leaves unwritten is a free value. -/
def vprogElem (x : OpenIn) (co : List Nat) (e : Nat) : List Word :=
  let p := (x.n.ins.getD 3 none).getD 0
  let prog := openOf x.vals p
  let env : ElemEnv := { row := {}, mods := fun _ => {}, cst := fun _ => 0, lut := fun _ => 0, j := co.headD 0, r := 0, qa := 0,
                         qb := 0, w := 0, l := 0 }
  let s := elemRun env prog ((List.range 3).map (fun i => (x.word i co).getD 0)) true
  if s.p.headD false then s.v.take 2 else [Config.freeWord e, Config.freeWord e]

/-- The outputs of an open node. -/
def openNode (x : OpenIn) : List (Nat × List Word) :=
  let out (i : Nat) : Nat := (x.n.outs.getD i none).getD 0
  let t (i : Nat) : Tensor := x.tensors.getD (out i) {}
  let rows (i : Nat) : List (List Nat) := openRows (t i).exts
  let each (i : Nat) (f : List Nat → Word) : List Word :=
    (rows i).flatMap (fun co => openRowOut (t i).fmt ((List.range ((t i).exts.headD 1)).map (fun j => f (j :: co))))
  if x.n.op = 0xC0 then [(out 0, (rows 0).flatMap (fun co => openRowOut (t 0).fmt (matmulRow x ((t 0).exts.headD 1) co)))]
  else if x.n.op = 0xC1 then
    ((x.n.outs.zipIdx.filter (fun o => o.1.isSome)).map (fun o =>
      (o.1.getD 0, each o.2 (fun co => (vprogElem x co (elemAt (t o.2).exts co)).getD o.2 0))))
  else if x.n.op = 0xC2 then
    let a := x.tensors.getD ((x.n.ins.getD 0 none).getD 0) {}
    [(out 0, (rows 0).flatMap (fun co =>
      let d := redRow (x.n.i8 0) {} ((List.range (a.exts.headD 1)).map (fun j => (x.word 0 (j :: co)).map (fun w => (w, j))))
      [d.value, d.status]))]
  else if x.n.op = 0xC4 then
    -- w := FMA(η, g, w) (R284)
    [(out 0, each 0 (fun co => (fpFma ((x.word 2 co).getD 0) ((x.word 1 co).getD 0) ((x.word 0 co).getD 0)).1))]
  else if x.n.op = 0xC5 then [(out 0, each 0 (fun co => (x.word 0 co).getD 0))]
  else []

/-- The words of the open tensors before the first node: constants, and what the job has read from the host (R390). -/
def openStart (j : Job) : Opens :=
  j.tensors.zipIdx.foldl (fun v p =>
    let t := p.1
    if t.tkind ≠ 5 then v
    else if t.role = 3 then tset [] v p.2 (wordsOf ((j.consts.drop (64 * t.cref)).take (openBytes t)))
    else if t.role = 1 ∨ t.role = 4 then
      tset [] v p.2 (wordsOf (mbytes j.hostIn ((j.desc.bufs.getD t.buf (0, 0)).1 + t.boff) (openBytes t)))
    else v) []

/-- The words of the open tensors after every node of the job's graph (R278, R289): an updated master and each copy made from it
after the update included (R285). -/
def openVals (j : Job) : Opens :=
  j.nodes.foldl (fun v n => (openNode { tensors := j.tensors, vals := v, n := n }).foldl (fun v p => tset [] v p.1 p.2) v)
    (openStart j)

end Sys2Proof.Machine
end

