-- ==== Sys2Proof/Machine/PrimSlot.lean ====
section
/-! DEFINITION. The payload that each slot primitive computes from its operands' payloads, its key rows and its immediate
parameters (R104, R109 to R117), with the check limb beside the q-limbs (R80, R82, R83), and noise flooding (R132, R133). -/
namespace Sys2Proof.Machine

/-- The residues of one component, limb by limb: q_0 to q_l, then q_c when the object has a check limb. -/
abbrev Limbs := List (List Nat)

/-- Primes of the limbs of a slot object (R65). -/
def objPrimes (c : CustomSet) (level : Nat) (chk : Bool) : List Nat :=
  c.qs.take (level + 1) ++ (if chk then [setCheckPrime c] else [])

/-- The components of a payload in the layout of R65: `n` words a limb, `k` limbs a component. -/
def splitPay (n k : Nat) (ws : List Word) (comps : Nat) : List Limbs :=
  (List.range comps).map (fun c => (List.range k).map (fun p => ((ws.drop ((c * k + p) * n)).take n).map (·.toNat)))

/-- The payload words of components (R65). -/
def joinPay (cs : List Limbs) : List Word := cs.flatMap (fun ls => ls.flatMap (fun xs => xs.map (BitVec.ofNat 32)))

/-- A word-by-word operation of two components modulo each prime. -/
def limbs2 (f : Nat → Nat → Nat → Nat) (qs : List Nat) (a b : Limbs) : Limbs :=
  (List.zip qs (List.zip a b)).map (fun x => List.zipWith (f x.1) x.2.1 x.2.2)

/-- A word-by-word operation of one component modulo each prime. -/
def limbs1 (f : Nat → Nat → Nat) (qs : List Nat) (a : Limbs) : Limbs := (List.zip qs a).map (fun x => x.2.map (f x.1))

def addL (qs : List Nat) : Limbs → Limbs → Limbs := limbs2 (fun q x y => (x + y) % q) qs
def mulL (qs : List Nat) : Limbs → Limbs → Limbs := limbs2 (fun q x y => x * y % q) qs

/-- A limb back in coefficient order with the module's root (R62, R171). -/
def coefOf (q logn : Nat) (a : List Nat) : List Nat := nttInv q (invMod q (psiOf q logn)) logn 1 a

/-- The signed integer of a residue (R111, R112). -/
def centred (q x : Nat) : Int := if x ≤ (q - 1) / 2 then x else (x : Int) - q

/-- σ_t on a limb in NTT order (R115). -/
def sigmaL (logn t : Nat) (a : List Nat) : List Nat := (List.range a.length).map (fun i => a.getD (autoPos logn t i) 0)

/-! ## Key switching (R113) -/

/-- Digit `j` of a slot set holds q-primes jα to (j + 1)α − 1, as far as there are any (R55); below level `l` only those up to
q_l are active. -/
def digitPrimes (c : CustomSet) (l j : Nat) : List Nat :=
  (List.range (min ((j + 1) * setAlpha c) (l + 1) - j * setAlpha c)).map (j * setAlpha c + ·)

/-- β of R106: the digits active at level `l`. -/
def digitCount (c : CustomSet) (l : Nat) : Nat := ceilDiv (l + 1) (setAlpha c)

/-- Σ_i ((x_i × hat_i^−1 mod q_i) mod q_i) × (hat_i mod t) mod t for every position, hat_i the product of the source primes over
q_i. -/
def baseConv (qs : List Nat) (xs : Limbs) (t : Nat) : List Nat :=
  let prod := primeProd qs
  let terms := (List.zip qs xs).map (fun p =>
    let hat := prod / p.1
    let inv := invMod p.1 (hat % p.1)
    p.2.map (fun x => x * inv % p.1 * (hat % t)))
  (List.range ((xs.headD []).length)).map (fun i => lsum (terms.map (fun l => l.getD i 0)) % t)

/-- The rows of a key object that one switch reads: component, digit, and prime as its number in the extended basis of the
key. -/
abbrev SwitchKey := Nat → Nat → Nat → List Nat

/-- The digits raised to the extended basis `basis`, in NTT order (R113): `ds` lists the source limbs of each digit by their
number in the basis. `d` is in coefficient order. -/
def raiseDigits (logn : Nat) (basis : List Nat) (ds : List (List Nat)) (d : Limbs) : List Limbs :=
  ds.map (fun own =>
    let src := own.map (fun i => d.getD i [])
    basis.zipIdx.map (fun t =>
      nttOf t.1 logn (if own.contains t.2 then d.getD t.2 [] else baseConv (own.map (fun i => basis.getD i 2)) src t.1)))

/-- The back part of a key switch: inner product with the key rows, division by P of the last `np` primes of the basis. `kt`
numbers a prime of the basis in the key's own basis. -/
def switchBack (logn : Nat) (basis : List Nat) (np : Nat) (kt : Nat → Nat) (key : SwitchKey) (ys : List Limbs) (c : Nat) : Limbs :=
  let nq := basis.length - np
  let ps := basis.drop nq
  let u := basis.zipIdx.map (fun t =>
    let rows := ys.zipIdx.map (fun y => List.zipWith (· * ·) (y.1.getD t.2 []) (key c y.2 (kt t.2)))
    (List.range (2 ^ logn)).map (fun i => lsum (rows.map (fun r => r.getD i 0)) % t.1))
  let w := (List.zip ps (u.drop nq)).map (fun p => coefOf p.1 logn p.2)
  (basis.take nq).zipIdx.map (fun t =>
    let lower := nttOf t.1 logn (baseConv ps w t.1)
    let pinv := invMod t.1 (primeProd ps % t.1)
    List.zipWith (fun x y => subMod t.1 x y * pinv % t.1) (u.getD t.2 []) lower)

/-- The extended basis at level `l` (R105) and the number of each of its primes in the basis at the key's maximum level: a key
with check-limb columns has q_c after its q-primes. -/
def extBasis (c : CustomSet) (l : Nat) (chk keyChk : Bool) : List Nat × (Nat → Nat) :=
  let nq := c.qs.length
  (objPrimes c l chk ++ c.ps, fun i =>
    if i ≤ l then i
    else if chk && decide (i = l + 1) then nq
    else nq + b2n keyChk + (i - (l + 1) - b2n chk))

/-- The key switch of polynomial `d`, in coefficient order, at level `l`: (ks_0, ks_1). `gal` is the automorphism applied to the
raised digits, none for a relinearisation. -/
def keySwitch (c : CustomSet) (l : Nat) (chk keyChk : Bool) (gal : Option Nat) (key : SwitchKey) (d : Limbs) : Limbs × Limbs :=
  let (basis, kt) := extBasis c l chk keyChk
  let ds := (List.range (digitCount c l)).map (digitPrimes c l)
  let ys := raiseDigits c.logn basis ds d
  let zs := match gal with
    | some t => ys.map (fun y => y.map (sigmaL c.logn t))
    | none => ys
  (switchBack c.logn basis c.ps.length kt key zs 0, switchBack c.logn basis c.ps.length kt key zs 1)

/-- The bootstrap's sparse switch (KKIND 4): one digit, over q_0, q_c and the p-primes, at level 0 (R158, R291). -/
def sparseSwitch (c : CustomSet) (chk keyChk : Bool) (key : SwitchKey) (d : Limbs) : Limbs × Limbs :=
  let (basis, _) := extBasis c 0 chk keyChk
  let kt (i : Nat) : Nat := if i = 0 then 0 else if chk && decide (i = 1) then 1 else 1 + b2n keyChk + (i - 1 - b2n chk)
  let ys := raiseDigits c.logn basis [[0]] d
  (switchBack c.logn basis c.ps.length kt key ys 0, switchBack c.logn basis c.ps.length kt key ys 1)

/-! ## Flooding -/

/-- Set bits of a word. -/
def popcount (w : Nat) : Nat := lsum ((List.range 32).map (fun i => b2n (w.testBit i)))

/-- Errors e of R132 for the output OBJID `objid` and exponent `f`: 8 bytes a coefficient of SHAKE128 over seed and OBJID. -/
def floodErrors (seed : BitVec 256) (objid f n : Nat) : List Int :=
  let bs := shakeBytes (leBytes 32 seed.toNat ++ leBytes 8 objid) (8 * n)
  (List.range n).map (fun j =>
    ((popcount (field bs (8 * j) 4) : Int) - popcount (field bs (8 * j + 4) 4)) * 2 ^ (f - 2))

/-! ## The primitives -/

/-- What a primitive reads besides its operands: the integer m[0] of its constant (R109), its key rows by kind and Galois
element, whether its key set carries check-limb columns, and the seed and OBJID of a flood. -/
structure PrimEnv where
  const : Int := 0
  key : Nat → Nat → SwitchKey := fun _ _ _ _ _ => []
  keyChk : Bool := false
  seed : BitVec 256 := 0
  objid : Nat := 0

/-- S_TMUL: the three components of a product. -/
def tmulL (qs : List Nat) (a b : List Limbs) : List Limbs :=
  let x (i : Nat) : Limbs := a.getD i []
  let y (i : Nat) : Limbs := b.getD i []
  [mulL qs (x 0) (y 0), addL qs (mulL qs (x 0) (y 1)) (mulL qs (x 1) (y 0)), mulL qs (x 1) (y 1)]

/-- S_RELIN (R114): component 2 switched under RLK. -/
def relinL (c : CustomSet) (l : Nat) (chk : Bool) (e : PrimEnv) (a : List Limbs) : List Limbs :=
  let qs := objPrimes c l chk
  let d := (List.zip qs (a.getD 2 [])).map (fun p => coefOf p.1 c.logn p.2)
  let (k0, k1) := keySwitch c l chk e.keyChk none (e.key 1 0) d
  [addL qs (a.getD 0 []) k0, addL qs (a.getD 1 []) k1]

/-- S_ROT, S_ROTH and S_CONJ (R114 to R116): σ_t of component 0 plus the switched component 1. -/
def rotL (c : CustomSet) (l : Nat) (chk : Bool) (e : PrimEnv) (kind gal : Nat) (a : List Limbs) : List Limbs :=
  let qs := objPrimes c l chk
  let d := (List.zip qs (a.getD 1 [])).map (fun p => coefOf p.1 c.logn p.2)
  let (k0, k1) := keySwitch c l chk e.keyChk (some gal) (e.key kind gal) d
  [addL qs ((a.getD 0 []).map (sigmaL c.logn gal)) k0, k1]

/-- The key switches of the bootstrap (R158): component 1 to the sparse secret under SPS (KKIND 4), or back to the dense one
under DNS (KKIND 5). The result is in NTT order, which the next primitive requires (R98). -/
def bootSwitchL (c : CustomSet) (h : Hdr) (e : PrimEnv) (kind : Nat) (a : List Limbs) : List Limbs :=
  let qs := objPrimes c h.level h.chk
  let conv (f : Nat → Nat → List Nat → List Nat) (x : Limbs) : Limbs := (List.zip qs x).map (fun p => f p.1 c.logn p.2)
  let d := if h.ntt then conv coefOf (a.getD 1 []) else a.getD 1 []
  let c0 := if h.ntt then a.getD 0 [] else conv nttOf (a.getD 0 [])
  let (k0, k1) := if kind = 4 then sparseSwitch c h.chk e.keyChk (e.key 4 0) d
    else keySwitch c h.level h.chk e.keyChk none (e.key 5 0) d
  [addL qs c0 k0, k1]

/-- S_RESCALE (R111): q_l removed from every component; the check limb is one more limb that keeps its place (R80). -/
def rescaleL (c : CustomSet) (l : Nat) (chk : Bool) (a : List Limbs) : List Limbs :=
  let qs := objPrimes c l chk
  let ql := qs.getD l 2
  a.map (fun limbs =>
    let r := (coefOf ql c.logn (limbs.getD l [])).map (centred ql)
    ((List.zip qs limbs).zipIdx.filter (fun x => decide (x.2 ≠ l))).map (fun x =>
      let q := x.1.1
      let rn := nttOf q c.logn (r.map (intMod q))
      let inv := invMod q (ql % q)
      List.zipWith (fun v w => subMod q v w * inv % q) x.1.2 rn))

/-- S_RAISE to level `t` (R112); the check limb is rebuilt from q_0 (R83). -/
def raiseL (c : CustomSet) (t : Nat) (chk : Bool) (a : List Limbs) : List Limbs :=
  let q0 := c.qs.headD 2
  a.map (fun limbs =>
    let v := (coefOf q0 c.logn (limbs.getD 0 [])).map (centred q0)
    limbs.getD 0 [] :: ((objPrimes c t chk).drop 1).map (fun q => nttOf q c.logn (v.map (intMod q))))

/-- The payload of slot primitive `code` with header immediate `imm` on operands `ops`, whose first header is `h` of set
`c` (*Slot primitives*). -/
def slotPay (c : CustomSet) (code imm : Nat) (e : PrimEnv) (h : Hdr) (a b : List Limbs) : List Limbs :=
  let l := h.level
  let qs := objPrimes c l h.chk
  let k16 := imm % 65536
  let onFirst (f : Limbs → Limbs) : List Limbs := f (a.getD 0 []) :: a.drop 1
  let gal := powMod (2 ^ (c.logn + 1)) 5 k16
  if code = 0x01 then List.zipWith (addL qs) a b
  else if code = 0x02 then List.zipWith (limbs2 subMod qs) a b
  else if code = 0x03 then a.map (limbs1 (fun q x => subMod q 0 x) qs)
  else if code = 0x04 then onFirst (fun x => addL qs x (b.getD 0 []))
  else if code = 0x05 then onFirst (limbs1 (fun q x => (x + intMod q e.const) % q) qs)
  else if code = 0x06 then a.map (fun x => mulL qs x (b.getD 0 []))
  else if code = 0x07 then a.map (limbs1 (fun q x => x * intMod q e.const % q) qs)
  else if code = 0x08 then a.map (limbs1 (fun q x => x * intMod q (signed 32 imm) % q) qs)
  else if code = 0x09 then tmulL qs a b
  else if code = 0x0A then relinL c l h.chk e a
  else if code = 0x0B then rescaleL c l h.chk a
  else if code = 0x0C then rescaleL c l h.chk (relinL c l h.chk e (tmulL qs a b))
  else if code = 0x0D ∨ code = 0x0E then rotL c l h.chk e 2 gal a
  else if code = 0x0F then rotL c l h.chk e 3 (2 ^ (c.logn + 1) - 1) a
  else if code = 0x10 then a.map (fun x => x.take l ++ x.drop (l + 1))
  else if code = 0x11 then raiseL c k16 h.chk a
  else if code = 0x12 then
    a.map (fun x => (List.zip qs x).map (fun p => if k16 = 0 then nttOf p.1 c.logn p.2 else coefOf p.1 c.logn p.2))
  else if code = 0x13 then
    let errs := floodErrors e.seed e.objid k16 (setN c)
    onFirst (fun x => addL qs x (qs.map (fun q =>
      let p := errs.map (intMod q)
      if h.ntt then nttOf q c.logn p else p)))
  else a

end Sys2Proof.Machine
end

