-- ==== Sys2Proof/Machine/PrimScalar.lean ====
section
/-! DEFINITION. The payload that each scalar primitive computes (R119 to R127, R133), and the steps of N_EXTRACT and N_REPACK
that turn slots into scalars and scalars into slots (R148, R151). -/
namespace Sys2Proof.Machine

/-- A scalar ciphertext: the words of limb q_a and of limb q_b, mask first, body last (R64). -/
abbrev Lwe := List Nat × List Nat

/-- The words of a scalar ciphertext of dimension `n` (R65). -/
def lweOf (n : Nat) (ws : List Word) : Lwe :=
  ((ws.take (n + 1)).map (·.toNat), ((ws.drop (n + 1)).take (n + 1)).map (·.toNat))

def lweWords (x : Lwe) : List Word := (x.1 ++ x.2).map (BitVec.ofNat 32)

/-- A word-by-word operation on both limbs. -/
def lwe2 (c : CustomSet) (f : Nat → Nat → Nat → Nat) (x y : Lwe) : Lwe :=
  (List.zipWith (f c.qa) x.1 y.1, List.zipWith (f c.qb) x.2 y.2)
def lwe1 (c : CustomSet) (f : Nat → Nat → Nat) (x : Lwe) : Lwe := (x.1.map (f c.qa), x.2.map (f c.qb))

/-- `v` added to the body. -/
def addBody (c : CustomSet) (v : Int) (x : Lwe) : Lwe :=
  let put (q : Nat) (l : List Nat) : List Nat := l.dropLast ++ [(l.getLastD 0 + intMod q v) % q]
  (put c.qa x.1, put c.qb x.2)

/-- Δ_m = Q div 2^(m + 1) (R119). -/
def deltaOf (c : CustomSet) (m : Nat) : Nat := setQ c / 2 ^ (m + 1)

/-- The integers in [0, Q) that the residue pairs hold (R120). -/
def crtInts (c : CustomSet) (x : Lwe) : List Nat :=
  List.zipWith (fun ra rb => (crtPair c.qa c.qb ra rb).getD 0) x.1 x.2

/-- An integer switched to modulus 2^`k`: ((x × 2^k) + (Q div 2)) div Q mod 2^k (R123, R151). -/
def switchPow (q k x : Nat) : Nat := (x * 2 ^ k + q / 2) / q % 2 ^ k

/-! ## LWE key switch -/

/-- The rows K[j][i] of an LWE switching key. -/
abbrev LweKey := Nat → Nat → Lwe

/-- R125: (0, b′) − Σ_j Σ_i digit_i(a′_j) × K[j][i] modulo q_a and q_b, to dimension `d`, digits of base 2^w and l levels
(R121). -/
def lweSwitch (c : CustomSet) (w l d : Nat) (key : LweKey) (x : Lwe) : Lwe :=
  let a := (crtInts c x).dropLast
  let start : Lwe := (List.replicate d 0 ++ [x.1.getLastD 0], List.replicate d 0 ++ [x.2.getLastD 0])
  a.zipIdx.foldl (fun acc p => (List.range l).foldl (fun acc i =>
    let t := digitOf (setQ c) w l p.1 i
    lwe2 c (fun q u v => subMod q u (intMod q t * v % q)) acc (key p.2 i)) acc) start

/-! ## Programmable bootstrap -/

/-- A GLWE accumulator in coefficient order: by component, then by limb. -/
abbrev Glwe := List Limbs

/-- X^t × v modulo X^N + 1 and q (R123). -/
def shiftPoly (q t : Nat) (v : List Nat) : List Nat :=
  let n := v.length
  (List.range n).map (fun j =>
    let i := (j + 2 * n - t % (2 * n)) % (2 * n)
    if i < n then v.getD i 0 % q else subMod q 0 (v.getD (i - n) 0))

/-- The test polynomial v of R123 modulo `q` for table `tb` and `m2` output bits. -/
def testPoly (c : CustomSet) (m m2 : Nat) (tb : List Nat) (q : Nat) : List Nat :=
  let n := setN c
  let h := n / 2 ^ (m + 1)
  let d := setQ c / 2 ^ (m2 + 1)
  (List.range n).map (fun j =>
    if j < n - h then d * tb.getD ((j + h) / (2 * h)) 0 % q else (setQ c - d * tb.getD 0 0) % setQ c % q)

/-- The rows of a BSK object: LWE coefficient, n, kk (R291), in NTT order. -/
abbrev BskKey := Nat → Nat → Nat → List Nat

/-- The digits of every accumulator polynomial in NTT order modulo `q`, in the order of kk (R121, R291). -/
def accDigits (c : CustomSet) (q : Nat) (acc : Glwe) : Limbs :=
  acc.flatMap (fun p =>
    let xs := crtInts c (p.getD 0 [], p.getD 1 [])
    (List.range c.brl).map (fun lv =>
      nttOf q c.logn (xs.map (fun x => intMod q (digitOf (setQ c) c.brw c.brl x lv)))))

/-- Σ digit × row for one output limb, back in coefficient order. -/
def digitProduct (c : CustomSet) (q : Nat) (digs : Limbs) (row : Nat → List Nat) : List Nat :=
  let terms := digs.zipIdx.map (fun d => List.zipWith (· * ·) d.1 (row d.2))
  coefOf q c.logn ((List.range (setN c)).map (fun i => lsum (terms.map (fun t => t.getD i 0)) % q))

/-- One step of blind rotation for LWE coefficient `i` and its switched mask word `t` (R123). -/
def rotateStep (c : CustomSet) (key : BskKey) (acc : Glwe) (i t : Nat) : Glwe :=
  let qs := [c.qa, c.qb]
  let digs := qs.map (fun q => accDigits c q acc)
  acc.zipIdx.map (fun comp => comp.1.zipIdx.map (fun limb =>
    let q := qs.getD limb.2 2
    let prod (s : Nat) : List Nat := digitProduct c q (digs.getD limb.2 []) (key i (2 * (comp.2 * 2 + limb.2) + s))
    let term (t : Nat) (p : List Nat) : List Nat := List.zipWith (subMod q) (shiftPoly q t p) p
    let plus := term t (prod 0)
    let minus := term (2 * setN c - t) (prod 1)
    List.zipWith (fun x y => (x + y) % q) limb.1 (List.zipWith (· + ·) plus minus)))

/-- Sample extraction (R124): a′_0 = A_0, a′_j = −A_(N−j), b′ = B_0, mask polynomial after mask polynomial. -/
def sampleExtract (c : CustomSet) (acc : Glwe) : Lwe :=
  let limb (p q : Nat) : List Nat :=
    (acc.dropLast.flatMap (fun comp =>
      let a := comp.getD p []
      a.getD 0 0 :: ((a.drop 1).reverse.map (subMod q 0)))) ++ [((acc.getLastD []).getD p []).getD 0 0]
  (limb 0 c.qa, limb 1 c.qb)

/-- L_PBS (R123): a refresh of `x` with `m` message bits through table `tb`. -/
def pbs (c : CustomSet) (bsk : BskKey) (lks : LweKey) (m m2 : Nat) (tb : List Nat) (x : Lwe) : Lwe :=
  let sw := (crtInts c x).map (switchPow (setQ c) (c.logn + 1))
  let b := sw.getLastD 0
  let v (q : Nat) : List Nat := shiftPoly q (2 * setN c - b) (testPoly c m m2 tb q)
  let zero : Limbs := List.replicate 2 (List.replicate (setN c) 0)
  let acc0 : Glwe := List.replicate c.k zero ++ [[v c.qa, v c.qb]]
  let acc := sw.dropLast.zipIdx.foldl (fun acc p => rotateStep c bsk acc p.2 p.1) acc0
  lweSwitch c c.ksw c.ksl c.n lks (sampleExtract c acc)

/-! ## The primitives -/

/-- What a scalar primitive reads besides its operands. -/
structure ScalarEnv where
  bsk : BskKey := fun _ _ _ => []
  lks : LweKey := fun _ _ => ([], [])
  table : List Nat := []
  seed : BitVec 256 := 0
  objid : Nat := 0
  batch : Nat := 0

/-- c times every word modulo q_a and q_b. -/
def lweMul (c : CustomSet) (k : Int) : Lwe → Lwe := lwe1 c (fun q v => v * intMod q k % q)

/-- The payload of scalar primitive `code` with immediate `imm` on operands of COUNT `m` (*Scalar primitives*). The LWE switch
of L_KS takes the first n source coefficients of its LKS object (DEDUCED, log entry 116). -/
def scalarPay (c : CustomSet) (code imm m : Nat) (e : ScalarEnv) (x y : Lwe) : Lwe :=
  let k16 := imm % 65536
  let add := lwe2 c (fun q u v => (u + v) % q)
  let neg := lwe1 c (fun q v => subMod q 0 v)
  if code = 0x40 then add x y
  else if code = 0x41 then lwe2 c subMod x y
  else if code = 0x42 then neg x
  else if code = 0x43 then addBody c (k16 * deltaOf c m : Nat) x
  else if code = 0x44 then lweMul c (signed 32 imm) x
  else if code = 0x45 then addBody c (deltaOf c 2) (neg x)
  else if code = 0x46 then lweSwitch c c.ksw c.ksl c.n e.lks x
  else if code = 0x47 then pbs c e.bsk e.lks m k16 e.table x
  else if code = 0x48 then pbs c e.bsk e.lks 2 2 ((List.range 4).map (fun i => b2n (k16.testBit i))) (add (lweMul c 2 x) y)
  else if code = 0x49 then addBody c ((floodErrors e.seed e.objid k16 (e.batch + 1)).getD e.batch 0) x
  else x

/-! ## Slots to scalars and back -/

/-- Step 2 of R148: the mask and body of slot position `p` of a ciphertext in coefficient order at level 0, modulo `q0`. -/
def slotExtract (q0 p : Nat) (c0 c1 : List Nat) : List Nat :=
  let n := c1.length
  (List.range n).map (fun i => if i ≤ p then c1.getD (p - i) 0 else subMod q0 0 (c1.getD (n + p - i) 0)) ++ [c0.getD p 0]

/-- Step 3 of R148: a word of limb q_0 lifted to modulus Q of the target set, from scale `s` to the spacing of `m` message
bits. -/
def liftWord (c : CustomSet) (q0 s m x : Nat) : Nat :=
  let f := (256 - s % 256) % 256
  let k := 62 + (s + f) / 256
  intMod (setQ c) ((centred q0 x * deltaOf c m * encExp2 f + 2 ^ (k - 1)) / (2 ^ k : Int))

/-- Steps 2 to 5 of R148 for slot `j` of `s`: extraction at p_j = jN ÷ 2s, the lift, the S2L switch with base 2^6 and 5 levels,
and the target's LWE switch. -/
def extractPay (c : CustomSet) (q0 scale count m j : Nat) (s2l lks : LweKey) (c0 c1 : List Nat) : Lwe :=
  let xs := (slotExtract q0 (j * c1.length / (2 * count)) c0 c1).map (liftWord c q0 scale m)
  let lifted : Lwe := (xs.map (· % c.qa), xs.map (· % c.qb))
  lweSwitch c c.ksw c.ksl c.n lks (lweSwitch c 6 5 (c.k * setN c) s2l lifted)

/-- Step 1 of R151: the mask words and body switched to 2^(m+9) and centred. -/
def repackWords (c : CustomSet) (m : Nat) (x : Lwe) : List Int :=
  (crtInts c x).map (fun v =>
    let y := switchPow (setQ c) (m + 9) v
    if y < 2 ^ (m + 8) then (y : Int) else (y : Int) - 2 ^ (m + 9))

/-- A centred word over 2^(m+9) × 64 as FP32, exactly (R151). -/
def repackValue (m : Nat) (y : Int) : Word := if y = 0 then 0 else (rnd32 (decide (y < 0)) y.natAbs (-(m + 15)) false).1

end Sys2Proof.Machine
end

