-- ==== Sys2Proof/Machine/PrimEval.lean ====
section
/-! DEFINITION. What a primitive of a lowered graph writes (R104, R135): its header by *Sealed Primitives* and its payload, from
the operands' objects, the key objects of the directory, its constants and its seed. -/
namespace Sys2Proof.Machine

/-- An object as header and payload. -/
abbrev ObjVal := Hdr × List Word

/-- The bytes that a job keeps of an object, and the object of such bytes. -/
def keepObj (x : ObjVal) : SealedObj :=
  { hdr := hdrBytes x.1 (if x.1.poison ≠ 0 then zeroPcrc x.1.plen else crc32c (bytesOf x.2)), pay := x.2 }
def objOf (o : SealedObj) : ObjVal := (hdrParse o.hdr, o.pay)

/-! ## Key rows -/

/-- The key object of a kind, and of a Galois element for a rotation. -/
def keyObject (m : Module) (ksid kind gal : Nat) : Option (KeySet × KeyObject) :=
  needFound m.quay.dir { ksid := ksid, kkind := kind, gal := gal }

/-- The page that row `r` belongs to, counted from the object's first (R292). -/
def rowPage (g : Geo) (r : Nat) : Nat := (if g.isStored r then g.storedBelow r else g.storedBelow r - 1) / g.perPage

/-- The words of row `r` of a key object, as its page slots in the stacks give them (R291 to R297). -/
def keyRow (m : Module) (sets : List CustomSet) (k : KeySet) (o : KeyObject) (r : Nat) : List Nat :=
  let peer := (keySetOf m.quay.dir k.peer.toNat).bind (fun p => psetOf sets p.pset)
  match psetOf sets k.pset with
  | none => []
  | some c =>
    match geoOf o.kkind.toNat c (k.chk && chkColumns o.kkind.toNat) o.seeded peer with
    | none => []
    | some g =>
      let a := k.pages.getD (o.firstPage + rowPage g r) 0
      let b := stkRead (stkAt m (stkOf a)) (stkOff a) Config.pageSlotBytes
      ((pageRow b (pageHdr b) c peer g r).getD []).map (·.toNat)

/-- Row `r` of the object of a kind in key set `ksid`. -/
def rowOfKey (m : Module) (sets : List CustomSet) (ksid kind gal r : Nat) : List Nat :=
  match keyObject m ksid kind gal with
  | some (k, o) => keyRow m sets k o r
  | none => []

/-- The rows that a switch of slot objects reads (R291). -/
def switchRows (m : Module) (sets : List CustomSet) (ksid dnum : Nat) (kind gal : Nat) : SwitchKey := fun c j t =>
  rowOfKey m sets ksid kind gal (if kind = 4 then t * 2 + c else (t * 2 + c) * dnum + j)

/-- Rows of an LWE key object with `l` digits and target dimension `d`. -/
def lweRows (m : Module) (sets : List CustomSet) (ksid kind l d : Nat) : LweKey := fun j i =>
  let ws := rowOfKey m sets ksid kind 0 (j * l + i)
  (ws.take (d + 1), (ws.drop (d + 1)).take (d + 1))

/-- Rows of a BSK object. -/
def bskRows (m : Module) (sets : List CustomSet) (c : CustomSet) (ksid : Nat) : BskKey := fun i n kk =>
  rowOfKey m sets ksid 8 0 ((i * (4 * (c.k + 1)) + n) * ((c.k + 1) * c.brl) + kk)

/-- The L2S key of a key set as a slot ciphertext of `count` slots (R151, R291). Its SCALE is its set's default exponent (log
entry 112), and its NOISE, which no rule states, a free value. -/
def l2sObj (m : Module) (sets : List CustomSet) (ksid count : Nat) : ObjVal :=
  match keySetOf m.quay.dir ksid with
  | none => ({}, [])
  | some k =>
    let c := cOf sets { pset := k.pset.toNat }
    let h : Hdr := { kind := 1, pset := k.pset.toNat, ntt := true, chk := k.chk, ksid := ksid, level := setMaxLevel c, comps := 2,
                     scale := c.scale, noise := Config.l2sNoise ksid % 65536, count := count }
    let rows := 2 * slotLimbs h
    ({ h with plen := plenOf c h }, (List.range rows).flatMap (fun r => (rowOfKey m sets ksid 7 0 r).map (BitVec.ofNat 32)))

/-! ## Encodings and tables -/

/-- The word of a cell: open elements widened, switched words of a scalar operand as FP32 (R77, R151). -/
def cellWord (sets : List CustomSet) (j : Job) (v : Opens) (m : Nat) (ops : List ObjVal) : Cell → Word
  | .word w => w
  | .elem t e => openVal (j.tensors.getD t {}) (openOf v t) e
  | .scalar o col neg =>
    let (h, pay) := ops.getD o ({}, [])
    let c := cOf sets h
    let y := (repackWords c m (lweOf c.n pay)).getD col 0
    repackValue m (if neg then -y else y)

/-- The plaintext of an encoding (R77, R78, R287): its values out of range, or its exponent, give DOMAIN; a poisoned operand
poisons it. -/
def encodeObj (sets : List CustomSet) (p : LPrim) (e : EncPlan) (re : List Word) (ops : List Hdr) : ObjVal :=
  let c := cOf sets { pset := e.pset }
  let m := if e.scale < 0 ∨ e.scale > 65535 then none else encode (setN c) (c.qs.take (e.level + 1)) e.scale re p.im
  let (code, up, mu) := poisonMerge ops (causeIf m.isNone pDomain)
  let h : Hdr := { kind := 3, pset := e.pset, ntt := e.ntt, chk := e.chk, level := e.level, comps := 1, scale := noiseClamp e.scale,
                   noise := if code = 0 then 0 else 0xFFFF, poison := code, upstream := up, multi := mu, count := re.length,
                   flooded := ops.any (·.flooded) }
  ({ h with plen := plenOf c h },
   joinPay [(objPrimes c e.level e.chk).map (polyLimb c.logn e.ntt (m.getD []))])

/-! ## One primitive -/

/-- The causes that the immediates of a lowered primitive raise beyond its header rules: a constant that R77 cannot encode
(R85, R109), a table entry outside the message space (R126). -/
def constCauses (sets : List CustomSet) (p : LPrim) (h : Hdr) (table : List Nat) : List Nat :=
  let c := cOf sets h
  let e : Int := if p.code = 0x05 then h.scale else signed 16 (p.imm % 65536)
  if p.code = 0x05 ∨ p.code = 0x07 then causeIf (encodeConst (setN c) (c.qs.take (h.level + 1)) e p.fp).isNone pDomain
  else if p.code = 0x47 then causeIf (table.any (fun t => decide (t ≥ 2 ^ (p.imm % 65536)))) pDomain
  else []

/-- The payload of a lowered primitive without poison. -/
def primPay (m : Module) (j : Job) (sets : List CustomSet) (p : LPrim) (table : List Nat) (ops : List ObjVal) : List Word :=
  let (h, pay) := ops.headD ({}, [])
  let (g, pay2) := ops.getD 1 ({}, [])
  let c := cOf sets h
  let seed := j.seeds.getD p.seed 0
  if p.code = 0x86 then
    let t := cOf sets { pset := p.tset }
    let limbs := splitPay (setN c) (slotLimbs h) pay 2
    let limb (i : Nat) : List Nat := ((limbs.getD i []).getD 0 [])
    lweWords (extractPay t (c.qs.headD 2) h.scale h.count p.bits p.slot (lweRows m sets h.ksid 6 5 (t.k * setN t))
      (lweRows m sets p.imm 9 t.ksl t.n) (limb 0) (limb 1))
  else if 0x40 ≤ p.code ∧ p.code ≤ 0x49 then
    let ksid := if p.code = 0x46 then p.imm else h.ksid
    lweWords (scalarPay c p.code p.imm h.count
      { bsk := bskRows m sets c ksid, lks := lweRows m sets ksid 9 c.ksl c.n, table := table, seed := seed, objid := p.objid }
      (lweOf c.n pay) (lweOf c.n pay2))
  else
    let e : Int := if p.code = 0x05 then h.scale else signed 16 (p.imm % 65536)
    let env : PrimEnv := { const := (encodeConst (setN c) (c.qs.take (h.level + 1)) e p.fp).getD 0,
                           key := switchRows m sets h.ksid c.dnum,
                           keyChk := ((keySetOf m.quay.dir h.ksid).map (·.chk)).getD false, seed := seed, objid := p.objid }
    let a := splitPay (setN c) (slotLimbs h) pay h.comps
    let b := splitPay (setN c) (slotLimbs g) pay2 g.comps
    joinPay (if p.code = 0x8C then bootSwitchL c h env p.imm a else slotPay c p.code p.imm env h a b)

/-- What a lowered primitive writes from its operands and the causes its engines reported: header (R87, R88, R101, R51), and
payload, zero where it is poisoned. FLOODED passes through a plaintext too (R50). -/
def primObj (m : Module) (j : Job) (sets : List CustomSet) (v : Opens) (p : LPrim) (ops : List ObjVal) (engine : List Nat) : ObjVal :=
  let flooded := ops.any (·.1.flooded)
  let hs := ops.map (fun o => if o.1.kind = 3 then { o.1 with flooded := false } else o.1)
  match p.enc with
  | some e =>
    let (h, pay) := encodeObj sets p e (p.re.map (cellWord sets j v p.bits ops)) (ops.map (·.1))
    ({ h with objid := p.objid }, if h.poison = 0 then pay else List.replicate h.plen 0)
  | none =>
    let table := p.table.map (fun c => (cellWord sets j v p.bits ops c).toNat)
    let own := constCauses sets p (hs.headD {}) table
    let h0 := primHeader sets (psetOf sets (BitVec.ofNat 16 p.tset)) p.bits p.code hs p.imm (engine ++ own)
    let h := { h0 with objid := p.objid, flooded := h0.flooded || flooded, scale := p.out.getD h0.scale }
    (h, if h.poison = 0 then primPay m j sets p table ops else List.replicate h.plen 0)

/-! ## A lowered graph -/

/-- The object of an operand: an ingested one, an earlier output, or an L2S key as a ciphertext of `count` slots. -/
def srcObj (m : Module) (j : Job) (sets : List CustomSet) (outs : List ObjVal) (count : Nat) : Src → ObjVal
  | .object id => match tget none j.inputs id with
    | some o => objOf o
    | none => ({}, [])
  | .prim i => outs.getD i ({}, [])
  | .key ksid => l2sObj m sets ksid count

/-- The operands of a primitive. An L2S key has as many slots as its rotations need (R151), in the primitive's slot field. -/
def primOps (m : Module) (j : Job) (sets : List CustomSet) (outs : List ObjVal) (p : LPrim) : List ObjVal :=
  p.ops.map (srcObj m j sets outs p.slot)

/-- The outputs of the first `n` primitives of a job: those it has sealed as they stand, every other one as its rules give it
from the ones before. -/
def primOuts (m : Module) (j : Job) (sets : List CustomSet) (v : Opens) (n : Nat) : List ObjVal :=
  (j.prims.take n).zipIdx.foldl (fun outs p =>
    outs ++ [match tget none j.vals p.2 with
      | some o => objOf o
      | none => primObj m j sets v p.1 (primOps m j sets outs p.1) []]) []

/-- The object that primitive `i` of a job writes, with the causes its engines reported. -/
def sealedPrim (m : Module) (j : Job) (sets : List CustomSet) (i : Nat) (p : LPrim) (engine : List Nat) : ObjVal :=
  let v := openVals j
  primObj m j sets v p (primOps m j sets (primOuts m j sets v i) p) engine

end Sys2Proof.Machine
end

