-- ==== Sys2Proof/Machine/Seal.lean ====
section
/-! DEFINITION. Header records: SEAL and SEALC (R463, R465 to R467), the place of an object's limbs on a group (R105, R383), and the
merge at the lead: the output header, and in a planned job the payload of the primitive that the record seals (R104, R135). -/
namespace Sys2Proof.Machine

/-! ## SEAL -/

/-- The lowered primitive that SEAL number `i` of a job's stream on cluster `cl` seals: the plan's, none in a hand plan. -/
def plannedSeal (m : Module) (tag cl i : Nat) : Option Nat :=
  match jobAt m tag with
  | some j => (j.clusters.find? (fun h => decide (h.cl = cl))).bind (fun h => h.seals[i]?)
  | none => none

/-- SEAL (R463). Operand headers whose merge is in flight hold it (R466). -/
def sealBody (cl k : Nat) (m : Module) (x : Context) (ws : List Word) : Res :=
  let w1 := wd ws 1
  let w2 := wd ws 2
  let w3 := wd ws 3
  let r := w1 % 16
  let n := bits w3 12 10
  let slots := [bits w2 9 0, bits w2 19 10, bits w2 29 20, bits w3 9 0].take n
  if lenOf ws ≠ 3 ∨ argOf ws ≠ 0 ∨ bits w1 7 4 ≠ 0 ∨ w1 / 2 ^ 26 ≠ 0 ∨ w2 / 2 ^ 30 ≠ 0 ∨ bits w3 13 13 ≠ 0
      ∨ w3 / 2 ^ 22 ≠ 0 ∨ n = 0 ∨ n > 4 then .kill .streamInvalid m
  else if (tget {} x.records r).isOpen then .kill .streamInvalid m
  else if slots.any (fun s => decide (tget 0 (clAt m cl).hdrReady s ≠ 0)) then .hold 8 0 0 0 m
  else .done 1 (onCl m cl (fun c => onCtx c k (fun x => { x with
    records := tset {} x.records r { isOpen := true, code := bits w1 15 8, outSlot := bits w1 25 16, opSlots := slots,
                                     imm := tget (0 : BitVec 64) x.params (bits w3 21 14),
                                     prim := plannedSeal m x.job cl x.sealed },
    sealed := x.sealed + 1 })))

/-! ## Groups -/

/-- A member of a sealing group: cluster, context and record number. -/
structure Member where
  cl : Nat
  ctx : Nat
  rec_ : Nat
  deriving DecidableEq, Repr

/-- The closed record on cluster `cl` of job `tag` that belongs to the group of `r0` (lead, members and output slot). -/
def memberOn (m : Module) (tag : Nat) (r0 : Record) (cl : Nat) : Option Member :=
  let c := clAt m cl
  (((ctxsAll c tag).flatMap (fun k => (ctxOf c k).records.map (fun p => (k, p.1, p.2)))).find? (fun t =>
    t.2.2.closed && decide (t.2.2.lead = r0.lead ∧ t.2.2.mask = r0.mask ∧ t.2.2.outSlot = r0.outSlot))).map
    (fun t => { cl := cl, ctx := t.1, rec_ := t.2.1 })

/-- The record of a member. -/
def recOf (m : Module) (x : Member) : Record := tget {} (ctxOf (clAt m x.cl) x.ctx).records x.rec_

/-- The clusters of a group on die `d`, by its membership mask, in the order of their local positions. -/
def groupClusters (d : Nat) (mask : BitVec 64) : List Nat :=
  ((List.range 64).filter (fun i => mask.getLsbD i)).map (d * 64 + ·)

/-! ## Where an object's words lie (R105, R383) -/

/-- Words of the rows a record lists, in order. -/
def rowsWords (c : Cluster) (rows : List (Nat × Nat)) : List Word :=
  rows.flatMap (fun p => scrRun c [] (64 * p.1) (64 * p.2))

/-- How an object's payload divides: words of a limb, limbs of a component, components. A scalar ciphertext or an accumulator
lies whole on one cluster. -/
def limbShape (sets : List CustomSet) (h : Hdr) : Nat × Nat × Nat :=
  if h.kind = 1 ∨ h.kind = 3 then (setN (cOf sets h), slotLimbs h, h.comps) else (h.plen, 1, 1)

/-- Basis indices that local position `u` of a group of `g` holds, of `e` in all. -/
def partIndices (e g u : Nat) : List Nat := (List.range e).filter (fun i => decide (i % g = u))

/-- The words that local position `u` holds of a payload: component by component, its limbs in order. -/
def partOf (sh : Nat × Nat × Nat) (pay : List Word) (g u : Nat) : List Word :=
  (List.range sh.2.2).flatMap (fun c => (partIndices sh.2.1 g u).flatMap (fun i =>
    (pay.drop ((c * sh.2.1 + i) * sh.1)).take sh.1))

/-- The word of component `c`, index `i`, position `j` in the limb-major part that starts at `pb`, on local position `i mod g` of the
group (R383): `e` indices in all, limbs of `n` words. -/
def limbMajor (pb e g n c i j : Nat) : Nat := pb + (c * (partIndices e g (i % g)).length + i / g) * n + j

/-- The word of component `c`, index `i`, position `j` in coefficient-major form, on local position `j ÷ (n ÷ g)` of the group (R384):
`x` is the size of the extended basis, and each position takes a whole number of rows. -/
def coeffMajor (cb x g n c i j : Nat) : Nat := cb + (c * (n / g) + j % (n / g)) * (64 * ceilDiv x 64) + i

/-- The payload from the parts of its group; none when a part is short. -/
def joinParts (sh : Nat × Nat × Nat) (ms : List (List Word)) : Option (List Word) :=
  let g := ms.length
  let ws := (List.range sh.2.2).flatMap (fun c => (List.range sh.2.1).flatMap (fun i =>
    ((ms.getD (i % g) []).drop ((c * (partIndices sh.2.1 g (i % g)).length + i / g) * sh.1)).take sh.1))
  if ws.length = sh.1 * sh.2.1 * sh.2.2 then some ws else none

/-- The words of the rows that a record lists, in order, with the payload they get. -/
def rowWrites : List (Nat × Nat) → List Word → List (Nat × Word)
  | [], _ => []
  | (r, n) :: rest, ws => ((ws.take (64 * n)).zipIdx.map (fun w => (64 * r + w.2, w.1))) ++ rowWrites rest (ws.drop (64 * n))

/-! ## The merge (R465) -/

/-- What a merge writes: the header with its PCRC, and the payload words that the rows get, none where the rows stay as the
engines left them. -/
structure Merged where
  h : Hdr
  pcrc : Nat
  pay : Option (List Word) := none

/-- The merge of a planned job's record: header and payload of its primitive, from the job's own objects (DESIGN CHOICE, log entry
121: the plan's streams compute what their primitives state, and the words are in place when the record closes). -/
def mergePlanned (m : Module) (j : Job) (sets : List CustomSet) (i : Nat) (p : LPrim) (causes : List Nat) : Merged :=
  let (h, pay) := sealedPrim m j sets i p causes
  { h := h, pcrc := if h.poison ≠ 0 then zeroPcrc h.plen else crc32c (bytesOf pay), pay := if h.poison ≠ 0 then none else some pay }

/-- A flood that a hand plan seals (R131 to R133): the payload of the parts with its error added. -/
def floodParts (j : Job) (sets : List CustomSet) (h : Hdr) (code imm : Nat) (pay : List Word) : List Word :=
  let seed := j.seeds.getD j.floodsDone 0
  let c := cOf sets h
  if code = 0x13 then joinPay (slotPay c 0x13 imm { seed := seed, objid := h.objid } h (splitPay (setN c) (slotLimbs h) pay h.comps) [])
  else lweWords (scalarPay c 0x49 imm h.count { seed := seed, objid := h.objid } (lweOf c.n pay) ([], []))

/-- The merge of a record by the operand headers in the lead's slots, over payload words that the engines wrote. `nf` numbers the
free values: the message bits of N_EXTRACT (log entry 25), the OBJID of an object that no graph numbers (log entry 23), and
the PCRC of rows that are not all listed (log entry 24). -/
def mergeSlots (m : Module) (j : Option Job) (sets : List CustomSet) (lead : Nat) (lr : Record) (causes : List Nat)
    (parts : List (List Word)) (nf : Nat) : Merged :=
  let ops := lr.opSlots.map (fun s => hdrParse (hdrSlot (clAt m lead) s))
  let tset0 := (m.quay.dir.find? (fun k => decide (k.ksid = lr.imm))).bind (fun k => psetOf sets k.pset)
  let mb := 1 + Config.freeNat nf % (match tset0 with
    | some c => max 1 c.mbits
    | none => 65535)
  let h := { primHeader sets tset0 mb lr.code ops lr.imm.toNat causes with objid := Config.freeNat (nf + 1) % 2 ^ 64 }
  if h.poison ≠ 0 then { h := h, pcrc := zeroPcrc h.plen }
  else match joinParts (limbShape sets h) parts, j with
    | none, _ => { h := h, pcrc := (Config.freeWord (nf + 2)).toNat }
    | some ws, some j =>
      if j.desc.hand && decide (lr.code = 0x13 ∨ lr.code = 0x49) then
        let out := floodParts j sets h lr.code lr.imm.toNat ws
        { h := h, pcrc := crc32c (bytesOf out), pay := some out }
      else { h := h, pcrc := crc32c (bytesOf ws) }
    | some ws, none => { h := h, pcrc := crc32c (bytesOf ws) }

/-- The job after a merge: the object of the primitive sealed, and the seed that a hand plan's flood took. -/
def noteMerge (m : Module) (tag : Nat) (lr : Record) (g : Merged) : Module :=
  onJob m tag (fun j => match recPrim j lr with
    | some (i, _) => { j with vals := tset none j.vals i (some (keepObj (g.h, g.pay.getD (List.replicate g.h.plen 0)))) }
    | none => if lr.code = 0x13 ∨ lr.code = 0x49 then { j with floodsDone := j.floodsDone + 1 } else j)

/-- The payload words that a merge writes to the rows of a member. -/
def payWrites (sh : Nat × Nat × Nat) (g : Merged) (n u : Nat) (r : Record) : List (Nat × Word) :=
  match g.pay with
  | some pay => rowWrites r.rows (partOf sh pay n u)
  | none => []

/-- One member after the merge: the header in its slot, its rows with their part of the payload or marked as poisoned. `u` is its
place in the group of `n`. -/
def putMember (tag : Nat) (lr : Record) (sh : Nat × Nat × Nat) (g : Merged) (n u : Nat) (r : Record) (rec_ ctx : Nat) (c : Cluster) :
    Cluster :=
  let c1 := scrWrites c (payWrites sh g n u r)
  onCtx { c1 with
    headers := tset [] c1.headers r.outSlot (hdrBytes g.h g.pcrc), hdrJob := tset 0 c1.hdrJob r.outSlot (tag + 1),
    hdrReady := tset 0 c1.hdrReady r.outSlot 0, hdrRows := tset [] c1.hdrRows r.outSlot r.rows,
    hdrPrim := tset 0 c1.hdrPrim r.outSlot (match lr.prim with
      | some i => i + 1
      | none => 0),
    poisoned := if g.h.poison = 0 then c1.poisoned else markRows r.rows c1.poisoned }
    ctx (fun y => { y with records := tset {} y.records rec_ {} })

/-- The merge at the lead (R465): the union of the causes, the output header, and its place in every member's slot. -/
def mergeGroup (m : Module) (tag : Nat) (lead : Nat) (ms : List Member) : Module :=
  match ms.find? (fun x => decide (x.cl = lead)) with
  | none => m
  | some l =>
    let lr := recOf m l
    let sets := jobSetsOf m tag
    let causes := ms.flatMap (fun x => (recOf m x).causes)
    let parts := ms.map (fun x => rowsWords (clAt m x.cl) (recOf m x).rows)
    let g := match (jobAt m tag).bind (fun j => (recPrim j lr).map (fun p => (j, p))) with
      | some (j, i, p) => mergePlanned m j sets i p causes
      | none => mergeSlots m (jobAt m tag) sets lead lr causes parts m.free
    let sh := limbShape sets g.h
    let m1 := ms.zipIdx.foldl (fun m1 x =>
      let hits := fencedCount (clAt m1 x.1.cl) ((payWrites sh g ms.length x.2 (recOf m1 x.1)).map (·.1))
      onJob (onCl m1 x.1.cl (putMember tag lr sh g ms.length x.2 (recOf m1 x.1) x.1.rec_ x.1.ctx)) tag
        (fun j => { j with fence := j.fence + hits })) m
    auditMerged { noteMerge m1 tag lr g with free := m.free + 3 } tag lr.code lr.outSlot (ms.map (·.cl))

/-- A record that its SEALC has closed joins its group; the merge follows when it is the group's last. -/
def joinGroup (m : Module) (tag d : Nat) (r : Record) : Module :=
  let found := (groupClusters d r.mask).map (memberOn m tag r)
  if found.all (fun o => o.isSome) then mergeGroup m tag (d * 64 + r.lead) (found.filterMap id) else m

/-! ## SEALC -/

/-- Whether a header slot has been written and no merge into it is in flight (R465, R466). -/
def slotWritten (c : Cluster) (s : Nat) : Bool := decide (tget 0 c.hdrJob s ≠ 0 ∧ tget 0 c.hdrReady s = 0)

/-- SEALC (R465, R467). It waits, with cause HEADER, for the operations bound to the record and until every operand header has been
written; rows outside the slice are refused (R22). The closed record makes its number free and joins its group under a number of its
own. A planned record may also seal an encoding or a key switch of the bootstrap, whose codes the graph has only as operations of
its own (log entry 121). -/
def sealcBody (cl k : Nat) (m : Module) (x : Context) (ws : List Word) : Res :=
  let w1 := wd ws 1
  let rec_ := argOf ws % 16
  let g := bits w1 12 6
  let r := tget {} x.records rec_
  let rows := (ws.drop 4).take (lenOf ws - 3) |>.map (fun w => (bits w.toNat 14 0, bits w.toNat 29 15))
  let badRows := ((ws.drop 4).take (lenOf ws - 3)).any (fun w => decide (w.toNat / 2 ^ 30 ≠ 0))
  if lenOf ws < 3 ∨ argOf ws / 16 ≠ 0 ∨ w1 / 2 ^ 13 ≠ 0 ∨ g = 0 ∨ g > 64 ∨ badRows then .kill .streamInvalid m
  else if !r.isOpen || !(primCode r.code || (r.prim.isSome && decide (r.code = 0x8C ∨ r.code = 0xC3))) then .kill .streamInvalid m
  else if rows.any (fun p => decide (p.1 + p.2 > Config.sliceRows)) then .kill .addrInvalid m
  else if r.bound ≠ 0 ∨ r.opSlots.any (fun s => !slotWritten (clAt m cl) s) then .hold 8 0 0 0 m
  else
    let r1 := { r with isOpen := false, closed := true, lead := w1 % 64, size := g,
                       mask := BitVec.ofNat 64 (wd ws 2 + wd ws 3 * 2 ^ 32), rows := rows }
    let m1 := onCl m cl (fun c => onCtx { c with
        hdrReady := tset 0 c.hdrReady r.outSlot 1, hdrJob := tset 0 c.hdrJob r.outSlot (x.job + 1) } k
      (fun x => { x with records := tset {} (tset {} x.records rec_ {}) (16 + x.issued) r1 }))
    .done 1 (joinGroup m1 x.job (dieOf cl) r1)

end Sys2Proof.Machine
end

