-- ==== Sys2Proof/Machine/Issue.lean ====
section
/-! DEFINITION. The issue of instructions: the one issue slot of a sequencer and the order in which its contexts take it
(R440), the attempt of an instruction, and the fifteen commands that attempt one. -/
namespace Sys2Proof.Machine

/-! ## The fetch -/

/-- Whether the fetch buffer of a context holds `n` words from stream offset `o` (R434). -/
def bufHas (x : Context) (o n : Nat) : Bool := decide (x.fbuf.1 ≤ o ∧ o + n ≤ x.fbuf.1 + x.fbuf.2.length)

/-- `n` words of the stream from offset `o`: from the fetch buffer, else as the stack stores them. -/
def streamWords (m : Module) (x : Context) (o n : Nat) : List Word :=
  if bufHas x o n then (x.fbuf.2.drop (o - x.fbuf.1)).take n
  else wordsOf (mbytes (stkAt m (stkOf x.base)).mem (stkOff x.base + 4 * o) (4 * n))

/-- Words of the instruction at the pc of `x`, by its header word (R441). -/
def lenAt (m : Module) (x : Context) : Nat :=
  if x.pc < x.len then 1 + bits ((streamWords m x x.pc 1).headD 0).toNat 15 8 else 1

/-- The words of the instruction at the pc of `x`, those before the end of the stream. -/
def wordsAt (m : Module) (x : Context) : List Word := streamWords m x x.pc (min (lenAt m x) (x.len - x.pc))

/-- The units with wrong symbols that a fetch of the `len` words at the pc of `x` meets, with their counts (R434, R528): none for
words that the buffer holds. -/
def fetchHits (m : Module) (x : Context) (len : Nat) : Tab Nat :=
  if bufHas x x.pc len then [] else unitsHit (stkAt m (stkOf x.base)) (stkOff x.base + 4 * x.pc) (4 * len)

/-- The module after a fetch of the `len` words at the pc of `x` (R434, R527, R528): corrected units are counted, and an
uncorrectable one starts a replay. -/
def fetchRead (m : Module) (x : Context) (len : Nat) : Module :=
  if fetchHits m x len = [] then m else stkAccess m (x.base + 4 * x.pc) (4 * len) x.job .memory

/-- Whether the fetch of the `len` words at the pc of `x` starts a replay: a unit of them is uncorrectable, and the job has a budget
(R528, R679). -/
def fetchFails (m : Module) (x : Context) (len : Nat) : Bool :=
  jobReplays m x.job && (fetchHits m x len).any (fun p => decide (p.2 > 3))

/-- The `len` words at the pc of `x` as a fetch delivers them: zeros in place of the words of an uncorrectable unit (R528). -/
def delivered (m : Module) (x : Context) (len : Nat) : List Word :=
  if bufHas x x.pc len then streamWords m x x.pc len
  else wordsOf (stkRead (stkAt m (stkOf x.base)) (stkOff x.base + 4 * x.pc) (4 * len))

/-- A fetch buffer with `ws` at offset `o` (R434): words that follow what it holds join it, others replace it, and the oldest go
beyond 16 KiB (DESIGN CHOICE, log entry 52: the manual does not say what stays). -/
def bufPut (b : Nat × List Word) (o : Nat) (ws : List Word) : Nat × List Word :=
  let r := if o = b.1 + b.2.length then (b.1, b.2 ++ ws) else (o, ws)
  (r.1 + (r.2.length - 4096), r.2.drop (r.2.length - 4096))

/-- The module after the `len` words of the instruction at the pc of context `k` of cluster `cl` are in its fetch buffer. -/
def fetched (m : Module) (cl k len : Nat) : Module :=
  let x := ctxOf (clAt m cl) k
  if bufHas x x.pc len then m
  else onCl (fetchRead m x len) cl (fun c => onCtx c k (fun y => { y with fbuf := bufPut y.fbuf x.pc (delivered m x len) }))

/-! ## The issue slot -/

/-- What the instruction with code `op` does when it issues on context `k` of cluster `cl`: none for a code that takes no issue
a-cycle (*Sequencer instructions*) or is not listed. -/
def slotBody (cl k op : Nat) : Option (Module → Context → List Word → Res) :=
  match op with
  | 0x01 => some (loadBody cl k)
  | 0x02 => some (fun m x ws => match startBody cl k m x ws with
    | .idle => steStartBody cl k m x ws
    | r => r)
  | 0x03 => some (waitBody cl)
  | 0x04 => some (signalBody cl)
  | 0x05 => some (popBody cl k)
  | 0x06 => some (pushBody cl k)
  | 0x07 => some (swapBody cl)
  | 0x08 => some (patchBody cl k)
  | 0x09 => some (loopBody cl k)
  | 0x0B => some (sealBody cl k)
  | 0x0C => some (sealcBody cl k)
  | 0x0E => some (endBody cl k)
  | _ => none

/-- Whether a result issues. -/
def Res.issues : Res → Bool
  | .done _ _ => true
  | _ => false

/-- Whether context `j` of cluster `cl` is ready to take the issue slot: its next instruction has reached its planned a-cycle and
nothing but the slot keeps it from issuing. -/
def slotReady (m : Module) (cl j : Nat) : Bool :=
  let x := ctxOf (clAt m cl) j
  let ws := wordsAt m x
  (decide (x.state = 1) || decide (x.state = 3)) && !replayWaits m x.job && clockReached m.now x && !x.brkHit
    && !hostLate m cl j && decide (x.pc + lenAt m x ≤ x.len) && !fetchFails m x (lenAt m x)
    && (match slotBody cl j ((ws.headD 0).toNat % 256) with
      | some body => (body m x ws).issues
      | none => false)

/-- Whether context `y` takes the issue slot before context `x` when both are ready: one whose job replays ranks last, then the lower
ORIGIN + planned issue a-cycle is first, then the lower job tag (R440, R422). -/
def ranksBefore (m : Module) (y x : Context) : Bool :=
  let r (z : Context) : Nat := b2n (replaying m z.job)
  decide (r y < r x ∨ (r y = r x ∧ (y.origin + y.planned < x.origin + x.planned
    ∨ (y.origin + y.planned = x.origin + x.planned ∧ y.job < x.job))))

/-- Whether another context of cluster `cl` takes the issue slot before context `k` (R440). -/
def outranked (m : Module) (cl k : Nat) : Bool :=
  (List.range 8).any (fun j => decide (j ≠ k) && ranksBefore m (ctxOf (clAt m cl) j) (ctxOf (clAt m cl) k) && slotReady m cl j)

/-- Whether the last instruction of context `k` itself still has the issue slot of cluster `cl`: no other context has taken it, and
the wait is no hold (R437, *Slip causes*). -/
def slotOwn (m : Module) (cl k : Nat) : Bool := decide (m.now < (clAt m cl).issueFree ∧ (clAt m cl).issueOwner = k)

/-- Whether the issue slot is taken by another context (R440). -/
def slotTaken (m : Module) (cl k : Nat) : Bool := decide (m.now < (clAt m cl).issueFree) || outranked m cl k

/-- Whether a PUSH of a lower cluster of the same die to the queue that word `w` names comes first in this a-cycle (R478, R492). -/
def pushBehind (m : Module) (cl : Nat) (w : Nat) : Bool :=
  m.clusters.any (fun p => decide (p.1 < cl ∧ dieOf p.1 = dieOf cl ∧ p.2.issueFree ≤ m.now) && (List.range 8).any (fun j =>
    let ws := wordsAt m (ctxOf p.2 j)
    decide ((ws.headD 0).toNat % 256 = 0x06 ∧ wd ws 1 = w) && slotReady m p.1 j && !outranked m p.1 j))

/-- PUSH in the order of R478 and R492 among the clusters of a die. -/
def pushInTurn (cl k : Nat) (m : Module) (x : Context) (ws : List Word) : Res :=
  if pushBehind m cl (wd ws 1) then .idle else pushBody cl k m x ws

/-- Whether another job's START of the same stream engine of the die has reached its planned a-cycle while job of `x` replays: it goes
first (R422). -/
def startBehind (m : Module) (cl : Nat) (x : Context) : Bool :=
  replaying m x.job && m.clusters.any (fun p => decide (dieOf p.1 = dieOf cl) && (List.range 8).any (fun j =>
    let y := ctxOf p.2 j
    let ws := wordsAt m y
    decide (y.job ≠ x.job ∧ y.state = 1 ∧ y.curSte = x.curSte ∧ (ws.headD 0).toNat % 256 = 0x02 ∧ argOf ws % 16 = 4)
      && clockReached m.now y && !replayWaits m y.job))

/-- A stream start in the order of R422; the wait is a hold on the engine. -/
def steStartInTurn (cl k : Nat) (m : Module) (x : Context) (ws : List Word) : Res :=
  if decide (argOf ws % 16 = 4) && startBehind m cl x then .hold 4 0 0 0 m else steStartBody cl k m x ws

/-! ## Attempting an instruction -/

/-- The context and the slot after an instruction with code `op` of `len` words has issued and takes `cycles` issue a-cycles. -/
def afterIssue (now k op len cycles : Nat) (c : Cluster) : Cluster :=
  let c1 := onCtx c k (issueCtx (tget 0 c.brk k) (decide (op = 0x0D)) len)
  if cycles = 0 then c1 else { c1 with issueFree := now + cycles, issueOwner := k }

/-- One attempt of the instruction at the pc of context `k` on cluster `cl`. `words` are its words; a stream
that ends without END, and an unlisted OP, kill the job with STREAM_INVALID (R451). An attempt before the planned
a-cycle, or of another instruction, is no step of the module. A fetch that meets an uncorrectable unit starts a replay before any
word of it issues (R528); without a budget its words are zeros (R679). A late host read of the context's own stream holds issue (R401,
R576; DEDUCED, log entry 129); an instruction that only the slot keeps from issuing holds with cause ISSUE (R437, R440). -/
def attempt (m : Module) (cl k : Nat) (words : List Word) (op : Nat) (slot : Bool)
    (body : Module → Context → List Word → Res) : Module :=
  let x := ctxOf (clAt m cl) k
  let len := lenAt m x
  if (x.state ≠ 1 ∧ x.state ≠ 3) ∨ replayWaits m x.job then m
  else if words ≠ wordsAt m x then m
  else if x.len < x.pc + len then killJob m x.job .streamInvalid none
  else if !clockReached m.now x then m
  else if (dieAt m (dieOf cl)).halted || x.brkHit then addHold m cl k 11 0 0 0
  else if hostLate m cl k then addHold m cl k 12 0 0 0
  else if slot && slotOwn m cl k then m
  else if fetchFails m x len then fetchRead m x len
  else
  let ws := delivered m x len
  let taken := slot && slotTaken m cl k
  let m := fetched m cl k len
  if !opListed ((ws.headD 0).toNat % 256) then
    (if taken then addHold m cl k 9 0 0 0 else killJob m x.job .streamInvalid none)
  else if (ws.headD 0).toNat % 256 ≠ op then m
  else match body m x ws with
    | .hold cause obj want have_ m1 => addHold m1 cl k cause obj want have_
    | .idle => m
    | .kill cause m1 => if taken then addHold m cl k 9 0 0 0 else killJob m1 x.job cause none
    | .ledger pool code m1 => if taken then addHold m cl k 9 0 0 0 else ledgerKill m1 (dieOf cl) pool x.job code
    | .done cycles m1 => if taken then addHold m cl k 9 0 0 0 else onCl m1 cl (afterIssue m.now k op len cycles)

/-! ## The watchdog -/

/-- A context with the object, the want and the figure of its running hold as they are now (R503). -/
def captureHold (m : Module) (cl k : Nat) : Module :=
  let x := ctxOf (clAt m cl) k
  let ws := wordsAt m x
  match x.holdRun, slotBody cl k ((ws.headD 0).toNat % 256) with
  | some _, some body => match body m x ws with
    | .hold cause obj want have_ _ => onCl m cl (fun c => onCtx c k (fun y =>
        if y.holdCause.toNat = cause then { y with holdObject := obj, holdWant := want, holdHave := have_ } else y))
    | _ => m
  | _, _ => m

/-- Contexts of job `tag` whose watchdog count has reached the trip, in ascending global cluster index and then context. -/
def tripped (m : Module) (tag : Nat) : List (Nat × Nat) :=
  match jobAt m tag with
  | some j => (sortedCls j.clusters).flatMap (fun cl => ((ctxsOf (clAt m cl) tag).filter (fun k =>
      decide ((ctxOf (clAt m cl) k).wdog ≥ Config.watchdogTrip))).map (fun k => (cl, k)))
  | none => []

/-- A watchdog trip (R501): the snapshot takes every hold as it is when the kill comes (R503), and of several trips of one a-cycle the
first in order is named (R502). -/
def watchdogStep (m : Module) (cl k : Nat) : Module :=
  let x := ctxOf (clAt m cl) k
  if (x.state = 1 ∨ x.state = 3) ∧ x.wdog ≥ Config.watchdogTrip then
    let held := match jobAt m x.job with
      | some j => (sortedCls j.clusters).flatMap (fun c => (ctxsOf (clAt m c) x.job).map (fun i => (c, i)))
      | none => []
    killJob (held.foldl (fun m p => captureHold m p.1 p.2) m) x.job .waitTimeout (some ((tripped m x.job).headD (cl, k)))
  else m

/-- WATCHDOG_TRIP. -/
def execWatchdogTrip (cl : Fin 512) (ctx : Fin 8) (s : State) : Host.Outcome State Fault Refusal :=
  ok s (watchdogStep s.m cl ctx)

/-! ## The commands -/

/-- LOAD: the effect on the module. -/
def loadStep (m : Module) (cl k : Nat) (words : List Word) : Module :=
  attempt m cl k words 0x01 true (loadBody cl k)

/-- LOAD. -/
def execLoad (cl : Fin 512) (ctx : Fin 8) (words : List Word) (s : State) : Host.Outcome State Fault Refusal :=
  ok s (loadStep s.m cl ctx words)

/-- WAIT: the effect on the module. -/
def waitStep (m : Module) (cl k : Nat) (words : List Word) : Module :=
  attempt m cl k words 0x03 true (waitBody cl)

/-- WAIT. -/
def execWait (cl : Fin 512) (ctx : Fin 8) (words : List Word) (s : State) : Host.Outcome State Fault Refusal :=
  ok s (waitStep s.m cl ctx words)

/-- SIGNAL: the effect on the module. -/
def signalStep (m : Module) (cl k : Nat) (words : List Word) : Module :=
  attempt m cl k words 0x04 true (signalBody cl)

/-- SIGNAL. -/
def execSignal (cl : Fin 512) (ctx : Fin 8) (words : List Word) (s : State) : Host.Outcome State Fault Refusal :=
  ok s (signalStep s.m cl ctx words)

/-- POP: the effect on the module. -/
def popStep (m : Module) (cl k : Nat) (words : List Word) : Module :=
  attempt m cl k words 0x05 true (popBody cl k)

/-- POP. -/
def execPop (cl : Fin 512) (ctx : Fin 8) (words : List Word) (s : State) : Host.Outcome State Fault Refusal :=
  ok s (popStep s.m cl ctx words)

/-- PUSH: the effect on the module. -/
def pushStep (m : Module) (cl k : Nat) (words : List Word) : Module :=
  attempt m cl k words 0x06 true (pushInTurn cl k)

/-- PUSH. -/
def execPush (cl : Fin 512) (ctx : Fin 8) (words : List Word) (s : State) : Host.Outcome State Fault Refusal :=
  ok s (pushStep s.m cl ctx words)

/-- SWAP: the effect on the module. -/
def swapStep (m : Module) (cl k : Nat) (words : List Word) : Module :=
  attempt m cl k words 0x07 true (swapBody cl)

/-- SWAP. -/
def execSwap (cl : Fin 512) (ctx : Fin 8) (words : List Word) (s : State) : Host.Outcome State Fault Refusal :=
  ok s (swapStep s.m cl ctx words)

/-- PATCH: the effect on the module. -/
def patchStep (m : Module) (cl k : Nat) (words : List Word) : Module :=
  attempt m cl k words 0x08 true (patchBody cl k)

/-- PATCH. -/
def execPatch (cl : Fin 512) (ctx : Fin 8) (words : List Word) (s : State) : Host.Outcome State Fault Refusal :=
  ok s (patchStep s.m cl ctx words)

/-- LOOP: the effect on the module. -/
def loopStep (m : Module) (cl k : Nat) (words : List Word) : Module :=
  attempt m cl k words 0x09 true (loopBody cl k)

/-- LOOP. -/
def execLoop (cl : Fin 512) (ctx : Fin 8) (words : List Word) (s : State) : Host.Outcome State Fault Refusal :=
  ok s (loopStep s.m cl ctx words)

/-- TMARK: the effect on the module. -/
def tmarkStep (m : Module) (cl k : Nat) (words : List Word) : Module :=
  attempt m cl k words 0x0A false (tmarkBody cl k)

/-- TMARK. -/
def execTmark (cl : Fin 512) (ctx : Fin 8) (words : List Word) (s : State) : Host.Outcome State Fault Refusal :=
  ok s (tmarkStep s.m cl ctx words)

/-- TAG: the effect on the module. -/
def tagStep (m : Module) (cl k : Nat) (words : List Word) : Module :=
  attempt m cl k words 0x0D false (tagBody cl k)

/-- TAG. -/
def execTag (cl : Fin 512) (ctx : Fin 8) (words : List Word) (s : State) : Host.Outcome State Fault Refusal :=
  ok s (tagStep s.m cl ctx words)

/-- END: the effect on the module. -/
def endStep (m : Module) (cl k : Nat) (words : List Word) : Module :=
  attempt m cl k words 0x0E true (endBody cl k)

/-- END. -/
def execEndStream (cl : Fin 512) (ctx : Fin 8) (words : List Word) (s : State) : Host.Outcome State Fault Refusal :=
  ok s (endStep s.m cl ctx words)

/-- START: the effect on the module. -/
def startStep (m : Module) (cl k : Nat) (words : List Word) : Module :=
  attempt m cl k words 0x02 true (startBody cl k)

/-- START. -/
def execStart (cl : Fin 512) (ctx : Fin 8) (words : List Word) (s : State) : Host.Outcome State Fault Refusal :=
  ok s (startStep s.m cl ctx words)

/-- SEAL: the effect on the module. -/
def sealStep (m : Module) (cl k : Nat) (words : List Word) : Module :=
  attempt m cl k words 0x0B true (sealBody cl k)

/-- SEAL. -/
def execSeal (cl : Fin 512) (ctx : Fin 8) (words : List Word) (s : State) : Host.Outcome State Fault Refusal :=
  ok s (sealStep s.m cl ctx words)

/-- SEALC: the effect on the module. -/
def sealcStep (m : Module) (cl k : Nat) (words : List Word) : Module :=
  attempt m cl k words 0x0C true (sealcBody cl k)

/-- SEALC. -/
def execSealc (cl : Fin 512) (ctx : Fin 8) (words : List Word) (s : State) : Host.Outcome State Fault Refusal :=
  ok s (sealcStep s.m cl ctx words)

/-- START of a stream engine: the effect on the module. -/
def steStartStep (m : Module) (cl k : Nat) (words : List Word) : Module :=
  attempt m cl k words 0x02 true (steStartInTurn cl k)

/-- STE_STREAM_START. -/
def execSteStreamStart (cl : Fin 512) (ctx : Fin 8) (words : List Word) (s : State) :
    Host.Outcome State Fault Refusal := ok s (steStartStep s.m cl ctx words)

end Sys2Proof.Machine
end

