-- ==== Sys2Proof/Machine/Ring.lean ====
section
/-! DEFINITION. The rings and doorbells (R553 to R564), the completion entries (R561, R569 to R571), and the global
controls of BAR0 (R548 to R551, R572, R580, R652). -/
namespace Sys2Proof.Machine

/-! ## BAR0 writes -/

/-- A BAR0 write (R580): while the module is muted it is dropped and counted in RING_DBIGN of ring 0. A module that has not
booted, or is shut down, answers nothing (R601, R672). -/
def bar0 (m : Module) (f : Module → Module) : Module :=
  if !alive m then m
  else if muted m then onRing m 0 (fun r => { r with dbign := satAdd r.dbign 1 }) else f m

/-- A write to RING or DB: ignored, and not counted, until READY is 1 (R585). -/
def ringWrite (m : Module) (f : Module → Module) : Module :=
  bar0 m (fun m => if m.quay.ready then f m else m)

/-- Entries of a ring with field LOGSZ; a ring holds at most 2^16. -/
def ringSize (lg : BitVec 5) : Nat := 2 ^ min lg.toNat 16

/-- A doorbell write to a disabled ring is ignored and counted (R557). -/
def doorbellIgnored (m : Module) (i : Nat) : Module := onRing m i (fun r => { r with dbign := satAdd r.dbign 1 })

/-- SQ_TAIL (R557, R558). -/
def sqTailStep (m : Module) (i : Nat) (v : BitVec 16) : Module :=
  let r := ringAt m i
  if !r.sqEn then doorbellIgnored m i
  else if v.toNat ≥ ringSize r.sqLogsz then ringError (onRing m i (fun r => { r with sqEn := false })) i 2
  else onRing m i (fun r => { r with sqTail := v })

/-- SQ_TAIL. -/
def execSqTail (ring : Fin 256) (tail : BitVec 16) (s : State) : Host.Outcome State Fault Refusal :=
  ok s (ringWrite s.m (fun m => sqTailStep m ring tail))

/-- CQ_HEAD (R557, R562). -/
def cqHeadStep (m : Module) (i : Nat) (v : BitVec 16) : Module :=
  let r := ringAt m i
  let n := ringSize r.cqLogsz
  if !r.cqEn then doorbellIgnored m i
  else if v.toNat ≥ n then ringError m i 3
  else if (v.toNat + n - r.cqHead.toNat) % n > (r.cqTail.toNat + n - r.cqHead.toNat) % n then ringError m i 4
  else onRing m i (fun r => { r with cqHead := v })

/-- CQ_HEAD. -/
def execCqHead (ring : Fin 256) (head : BitVec 16) (s : State) : Host.Outcome State Fault Refusal :=
  ok s (ringWrite s.m (fun m => cqHeadStep m ring head))

/-! ## Ring configuration -/

/-- Whether a completion ring is in use by an enabled submission ring, or by a command that will complete into it
(R556). -/
def cqInUse (m : Module) (i : Nat) : Bool :=
  let into (ring : Nat) : Bool := decide ((ringAt m ring).cqid.toNat = i)
  m.quay.rings.any (fun p => p.2.sqEn && decide (p.2.cqid.toNat = i))
    || m.quay.jobs.any (fun p => match p.2 with
      | some j => into j.desc.ring
      | none => false)
    || m.quay.waiting.any (fun d => into d.ring) || m.quay.uploads.any (fun u => into u.ring)
    || m.quay.compl.any (fun c => into c.ring)

/-- A write to SQ_CFG (R554 to R556): with EN 1 already set only a clearing of EN has an effect; an enable is refused with
NOCQ or BASE_ALIGN, else it clears RING_ERR and starts the ring at entry 0. -/
def sqCfgWrite (m : Module) (i : Nat) (v : Word) : Module :=
  let r := ringAt m i
  let n := v.toNat
  if r.sqEn then
    (if bit n 31 then m
     else onQuay (onRing m i (fun r => { r with sqEn := false })) (fun q => { q with
       fetches := q.fetches.filter (fun f => decide (f.ring ≠ i)) }))
  else
    let m1 := onRing m i (fun r => { r with sqLogsz := BitVec.ofNat 5 n, cqid := BitVec.ofNat 8 (n / 256) })
    if !bit n 31 then m1
    else if !(ringAt m1 (bits n 15 8)).cqEn then ringError m1 i 1
    else if r.sqBase.toNat % 4096 ≠ 0 then ringError m1 i 5
    else onRing m1 i (fun r => { r with sqEn := true, sqHead := 0, sqTail := 0, err := 0 })

/-- A write to CQ_CFG (R554 to R556). Vectors 510 and 511 belong to events and the mailbox (R564). -/
def cqCfgWrite (m : Module) (i : Nat) (v : Word) : Module :=
  let r := ringAt m i
  let n := v.toNat
  if r.cqEn then
    (if bit n 31 || cqInUse m i then m else onRing m i (fun r => { r with cqEn := false }))
  else
    let m1 := onRing m i (fun r => { r with cqLogsz := BitVec.ofNat 5 n, vec := BitVec.ofNat 9 (n / 2 ^ 16),
                                            ien := bit n 30 })
    if !bit n 31 then m1
    else if r.cqBase.toNat % 4096 ≠ 0 then ringError m1 i 5
    else onRing m1 i (fun r => { r with cqEn := true, cqTail := 0, cqHead := 0, phase := true, sinceSignal := 0,
                                        timer := false })

/-- SQ_ENABLE: SQ_CFG written with EN 1. -/
def execSqEnable (ring : Fin 256) (cfg : Word) (s : State) : Host.Outcome State Fault Refusal :=
  ok s (ringWrite s.m (fun m => sqCfgWrite m ring (cfg ||| 0x80000000)))

/-- SQ_CFG or CQ_CFG as it stands, with EN 0. -/
def cfgOff (lg : BitVec 5) (hi : Nat) : Word := BitVec.ofNat 32 (lg.toNat + hi)

/-- SQ_DISABLE: SQ_CFG written with EN 0. -/
def execSqDisable (ring : Fin 256) (s : State) : Host.Outcome State Fault Refusal :=
  ok s (ringWrite s.m (fun m =>
    let r := ringAt m ring
    sqCfgWrite m ring (cfgOff r.sqLogsz (256 * r.cqid.toNat))))

/-- CQ_ENABLE: CQ_CFG written with EN 1. -/
def execCqEnable (ring : Fin 256) (cfg : Word) (s : State) : Host.Outcome State Fault Refusal :=
  ok s (ringWrite s.m (fun m => cqCfgWrite m ring (cfg ||| 0x80000000)))

/-- CQ_DISABLE: CQ_CFG written with EN 0. -/
def execCqDisable (ring : Fin 256) (s : State) : Host.Outcome State Fault Refusal :=
  ok s (ringWrite s.m (fun m =>
    let r := ringAt m ring
    cqCfgWrite m ring (cfgOff r.cqLogsz (2 ^ 16 * r.vec.toNat + 2 ^ 30 * b2n r.ien))))

/-! ## Fetching -/

/-- Whether ring `i` has a pending entry that the Quay may read now: one entry at a time, and none while a job of the ring
waits for admission (R558, R560). -/
def ringPending (m : Module) (i : Nat) : Bool :=
  let r := ringAt m i
  r.sqEn && decide (r.sqTail ≠ r.sqHead) && !m.quay.fetches.any (fun f => decide (f.ring = i))
    && !m.quay.waiting.any (fun d => decide (d.ring = i))

/-- The next ring in turn, in ascending number after the last served. -/
def nextRing (m : Module) : Option Nat :=
  ((List.range 256).map (fun k => (m.quay.rr + 1 + k) % 256)).find? (ringPending m)

/-- The read of a pending entry issues (R29, R30, R498, R560, R580). -/
def fetchStep (m : Module) : Module :=
  if !m.quay.ready || decide (m.quay.qstate ≠ 0) || muted m || decide (inflight m ≥ Config.maxJobs) then m
  else match nextRing m with
    | some i => onQuay m (fun q => { q with
        rr := i, fetches := q.fetches ++ [{ ring := i, index := (ringAt m i).sqHead.toNat }] })
    | none => m

/-- SUBMISSION_FETCH. -/
def execSubmissionFetch (s : State) : Host.Outcome State Fault Refusal := ok s (fetchStep s.m)

/-- Whether the read of an entry of ring `i` is outstanding. -/
def fetchOut (m : Module) (i : Nat) : Bool := m.quay.fetches.any (fun f => decide (f.ring = i))

/-- The entry of ring `i` has been read: SQ_HEAD passes it (R560). -/
def passEntry (m : Module) (i : Nat) : Module :=
  onRing (onQuay m (fun q => { q with fetches := q.fetches.filter (fun f => decide (f.ring ≠ i)) })) i (fun r =>
    { r with sqHead := BitVec.ofNat 16 ((r.sqHead.toNat + 1) % ringSize r.sqLogsz) })

/-- A completion that waits to be written. -/
def queueCompletion (m : Module) (c : Completion) : Module := onQuay m (fun q => { q with compl := q.compl ++ [c] })

/-! ## Completion entries -/

/-- The 32 bytes of a completion entry (*Completion entry*). -/
def complBytes (c : Completion) (phase : Bool) (sqHead : BitVec 16) : List Byte :=
  leBytes 4 c.cid.toNat ++ leBytes 2 c.jobtag.toNat ++ [c.status]
    ++ leBytes 1 (c.cflags.toNat / 2 * 2 + b2n phase) ++ leBytes 4 (satN 32 c.slip) ++ leBytes 2 (satN 16 c.slipev)
    ++ leBytes 2 (satN 16 c.oob) ++ leBytes 4 c.count.toNat ++ leBytes 2 (satN 16 c.pad) ++ leBytes 2 sqHead.toNat
    ++ leBytes 1 c.ring ++ [c.detail] ++ [c.pcode] ++ leBytes 1 c.oflags.toNat ++ leBytes 1 (satN 8 c.replays) ++ zeros 3

/-- A host write of an optional block. -/
def hostWriteOpt (m : Module) : Option (BitVec 64 × List Byte) → Module
  | some (a, b) => hostWrite m a b
  | none => m

/-- The completion ring after an entry was written (R561). -/
def advanceCq (r : Ring) : Ring :=
  let t := (r.cqTail.toNat + 1) % ringSize r.cqLogsz
  { r with cqTail := BitVec.ofNat 16 t, phase := if t = 0 then !r.phase else r.phase, sinceSignal := r.sinceSignal + 1 }

/-- The coalescing of R563 after an entry: a signal at COUNT entries, else the timer runs from the first one. -/
def coalesce (m : Module) (i : Nat) : Module :=
  let r := ringAt m i
  if !r.ien then m
  else if r.sinceSignal ≥ max 1 r.coalCount.toNat then
    signalVec (onRing m i (fun r => { r with sinceSignal := 0, timer := false })) r.vec.toNat
  else if r.coalTime ≠ 0 then onRing m i (fun r => { r with timer := true })
  else m

/-- A job leaves the module when its completion entry has been sent (R494): its header slots are zeroed (R734), its custom
sets are forgotten. -/
def retireJob (m : Module) (tag : Nat) : Module :=
  match jobAt m tag with
  | none => m
  | some j =>
    let m1 := j.clusters.foldl (fun m h => onCl m h.cl (fun c => zeroHeaders c tag)) m
    onQuay m1 (fun q => { q with
      jobs := tset none q.jobs tag none, finished := q.finished + 1,
      slips := satAdd q.slips j.slip, jobSets := q.jobSets.filter (fun p => decide (p.1 ≠ tag)) })

/-- Completion `i` of the queue is written: snapshot and report, entry, then the signal (R561, R563, R571, R574). -/
def completionStep (m : Module) (i : Nat) : Module :=
  match m.quay.compl[i]? with
  | none => m
  | some c0 =>
    let c := match c0.job.bind (jobAt m) with
      | some j => lateFence j c0
      | none => c0
    let sq := ringAt m c.ring
    let k := sq.cqid.toNat
    let cq := ringAt m k
    if muted m || !cq.cqEn || decide ((cq.cqTail.toNat + 1) % ringSize cq.cqLogsz = cq.cqHead.toNat) then m
    else
      let m1 := hostWriteOpt (hostWriteOpt m c.snapshot) c.report
      let m2 := hostWrite m1 (cq.cqBase + BitVec.ofNat 64 (32 * cq.cqTail.toNat)) (complBytes c cq.phase sq.sqHead)
      let m3 := onRing (onQuay m2 (fun q => { q with compl := ldel q.compl i })) k advanceCq
      let m4 := match c.job with
        | some t => retireJob m3 t
        | none => m3
      coalesce m4 k

/-- COMPLETION_ENTRY. -/
def execCompletionEntry (index : Nat) (s : State) : Host.Outcome State Fault Refusal := ok s (completionStep s.m index)

/-- The coalescing timer of completion ring `i` expires (R563). -/
def coalTimerStep (m : Module) (i : Nat) : Module :=
  let r := ringAt m i
  if r.cqEn && r.ien && r.timer && decide (r.sinceSignal ≠ 0) then
    signalVec (onRing m i (fun r => { r with sinceSignal := 0, timer := false })) r.vec.toNat
  else m

/-- CQ_COAL_TIMER. -/
def execCqCoalTimer (ring : Fin 256) (s : State) : Host.Outcome State Fault Refusal := ok s (coalTimerStep s.m ring)

/-! ## Global controls -/

/-- A quiesce is requested (R498): by the host, or by a write of D3hot. -/
def quiesceStep (m : Module) (d3 : Bool) : Module :=
  onQuay m (fun q => { q with qstate := if q.qstate = 0 then 1 else q.qstate, quiesceD3 := q.quiesceD3 || d3 })

/-- QREQ. -/
def execQreq (s : State) : Host.Outcome State Fault Refusal := ok s (bar0 s.m (fun m => quiesceStep m false))

/-- GLB_CTRL.QREL (R550): the quiesced state ends. -/
def qrelStep (m : Module) : Module :=
  onQuay m (fun q => if q.qstate = 2 then { q with qstate := 0 } else q)

/-- QREL. -/
def execQrel (s : State) : Host.Outcome State Fault Refusal := ok s (bar0 s.m qrelStep)

/-- GLB_CTRL.IDEREQ, locked by LOCK (R580). -/
def idereqStep (m : Module) (v : Bool) : Module := onQuay m (fun q => if q.lock then q else { q with ideReq := v })

/-- IDEREQ. -/
def execIdereq (v : Bool) (s : State) : Host.Outcome State Fault Refusal := ok s (bar0 s.m (fun m => idereqStep m v))

/-- GLB_CTRL.LOCK. -/
def lockStep (m : Module) : Module := onQuay m (fun q => { q with lock := true })

/-- LOCK. -/
def execLock (s : State) : Host.Outcome State Fault Refusal := ok s (bar0 s.m lockStep)

/-- GLB_KILL (R572): the job in flight with this tag and CID, before its job-end audit. -/
def glbKillStep (m : Module) (tag : Nat) (cid : Word) : Module :=
  match jobAt m tag with
  | some j => if j.desc.cid = cid ∧ j.phase ≠ .auditing then killJob m tag .killed none else m
  | none => m

/-- GLB_KILL. -/
def execGlbKill (tag : BitVec 10) (cid : Word) (s : State) : Host.Outcome State Fault Refusal :=
  ok s (bar0 s.m (fun m => glbKillStep m tag.toNat cid))

/-- GLB_HOST (R551): out of range it is ignored, else every cached plan is discarded. -/
def glbHostStep (m : Module) (v : Word) : Module :=
  let n := v.toNat
  let rd := bits n 9 0
  let wr := bits n 19 10
  let lat := bits n 31 20
  if 1 ≤ rd ∧ rd ≤ 121 ∧ 1 ≤ wr ∧ wr ≤ 121 ∧ 1 ≤ lat then
    onQuay m (fun q => { q with rdRate := BitVec.ofNat 10 rd, wrRate := BitVec.ofNat 10 wr, rdLat := BitVec.ofNat 12 lat,
                                plans := [] })
  else m

/-- GLB_HOST. -/
def execGlbHost (v : Word) (s : State) : Host.Outcome State Fault Refusal := ok s (bar0 s.m (fun m => glbHostStep m v))

/-- GLB_PCAP (R652): out of range it is ignored. -/
def glbPcapStep (m : Module) (v : Word) : Module :=
  let n := v.toNat % 2 ^ 13
  if 1500 ≤ n ∧ n ≤ 4200 then onQuay m (fun q => { q with pcap := BitVec.ofNat 13 n }) else m

/-- GLB_PCAP. -/
def execGlbPcap (v : Word) (s : State) : Host.Outcome State Fault Refusal := ok s (bar0 s.m (fun m => glbPcapStep m v))

/-- Whether BAR0 accepts an access (R549). -/
def accessOk (off : Nat) (bytes : Nat) : Bool :=
  (decide (bytes = 4) && decide (off % 4 = 0)) || (decide (bytes = 8) && decide (off % 8 = 0))

/-- A BAR0 access of another size or alignment (R549): reported through AER. -/
def badAccessStep (m : Module) (read : Bool) (off : BitVec 25) (bytes : Nat) : Module :=
  if accessOk off.toNat bytes then m else aerReport m (.unsupportedRequest read off)

/-- BAR0_BAD_ACCESS. -/
def execBar0BadAccess (read : Bool) (off : BitVec 25) (bytes : Nat) (s : State) : Host.Outcome State Fault Refusal :=
  ok s (badAccessStep s.m read off bytes)

end Sys2Proof.Machine
end

