-- ==== Sys2Proof/Machine/Job.lean ====
section
/-! DEFINITION. A job from its start to its end: the start message with contexts, parameters, pools, credits, key windows,
Ferry lists and flood seeds (R131, R403, R430, R435, R448, R474, R485, R489, R651), the job kill as a command (R502), and the
job-end audit (R496, R497). -/
namespace Sys2Proof.Machine

/-! ## Reservations -/

/-- Whether two jobs' holds on one cluster meet (R398). -/
def clMeets (a b : ClHold) : Bool :=
  decide (a.cl = b.cl) && (rangesMeet a.row0 a.rows b.row0 b.rows || rangesMeet a.queue0 a.queues b.queue0 b.queues
    || rangesMeet a.flag0 a.flags b.flag0 b.flags || rangesMeet a.pair0 a.pairs b.pair0 b.pairs
    || decide (a.frames ≠ 0 ∧ b.frames ≠ 0 ∧ a.frames + b.frames > 1152))

/-- Whether two jobs' holds on one die meet. -/
def dieMeets (a b : DieHold) : Bool :=
  (decide (a.die = b.die) && (rangesMeet a.pool0 a.pools b.pool0 b.pools || rangesMeet a.desc0 a.descs b.desc0 b.descs))
    || rangesMeet a.region (a.regionMiB * 2 ^ 20) b.region (b.regionMiB * 2 ^ 20)

/-- Whether two jobs use one Pontoon credit entry (R398). -/
def creditsMeet (a b : List CreditPlan) : Bool := a.any (fun x => b.any (fun y => decide (x.die = y.die ∧ x.entry = y.entry)))

/-- Whether some of the holds meet. -/
def holdsMeet (cs : List ClHold) (ds : List DieHold) (cs2 : List ClHold) (ds2 : List DieHold) : Bool :=
  cs.any (fun a => cs2.any (clMeets a)) || ds.any (fun a => ds2.any (dieMeets a))

/-- Whether a job's rows or units touch the fence (R353, R540). -/
def holdsFenced (m : Module) (j : Job) : Bool :=
  j.clusters.any (fun h => (clAt m h.cl).fence.any (fun f => decide (h.row0 ≤ f.row ∧ f.row < h.row0 + h.rows)))
    || j.dies.any (fun h => (stkAt m (stkOf h.region)).fence.any (fun f =>
        rangesMeet (stkOff h.region) (h.regionMiB * 2 ^ 20) f.off f.len))

/-- Whether every reservation of the job is free (R398, R403, R430). -/
def holdsFree (m : Module) (tag : Nat) (j : Job) : Bool :=
  !(m.quay.jobs.any (fun p => decide (p.1 ≠ tag) && (match p.2 with
      | some o => o.started && (holdsMeet j.clusters j.dies o.clusters o.dies || creditsMeet j.credits o.credits)
      | none => false)))
    && !m.graves.any (fun g => holdsMeet j.clusters j.dies g.clusters g.dies || creditsMeet j.credits g.credits) && !holdsFenced m j

/-! ## Reserved slots (R398, R440) -/

/-- The code of an instruction. -/
def opOf (ins : List Word) : Nat := (ins.headD 0).toNat % 256

/-- The instructions of a stream in the order of their issue, every loop body as often as it repeats (R441, R450). -/
def unroll : Nat → List Word → List (List Word)
  | 0, _ => []
  | f + 1, ws =>
    match ws with
    | [] => []
    | hd :: _ =>
      let ins := ws.take (1 + bits hd.toNat 15 8)
      let rest := ws.drop (1 + bits hd.toNat 15 8)
      if hd.toNat % 256 = 0x09 then
        (List.replicate (wd ins 1) (unroll f (rest.take (wd ins 2)))).flatten ++ unroll f (rest.drop (wd ins 2))
      else ins :: unroll f rest

/-- Issue a-cycles of an instruction (*Sequencer instructions*). -/
def issueAc (ins : List Word) : Nat :=
  if opOf ins = 0x01 then (match loadGroups 8 (ins.drop 1) with
    | some d => ceilDiv d.length 8
    | none => 1)
  else if opOf ins = 0x0A ∨ opOf ins = 0x0D then 0 else 1

/-- The issue slots of instructions from planned a-cycle `t` on, `n` a-cycles of it taken: for each planned a-cycle, as many as its
instructions take (R436). -/
def slotsFrom : Nat → Nat → List (List Word) → List (Nat × Nat)
  | t, n, [] => [(t, n)]
  | t, n, ins :: rest =>
    if opOf ins = 0x0A then (t, n) :: slotsFrom (argOf ins * 2 ^ 32 + wd ins 1) 0 rest else slotsFrom t (n + issueAc ins) rest

/-- The a-cycles, from the job's a-cycle 0, in which a stream has the issue slot. -/
def issueSlots (h : ClHold) : List (Nat × Nat) := slotsFrom 0 0 (unroll (h.stream.length + 1) h.stream)

/-- The duration of a LAND of `rows` frames of 1,024 words, by the landing port's 32 words an a-cycle, and 128 a-cycles (R317). -/
def landAc (rows : Nat) : Nat := 32 * rows + 128

/-- The a-cycles in which a die's Ferry lands for the job. -/
def ferrySlots (h : DieHold) : List (Nat × Nat) := (List.range (h.ferry.length / 32)).filterMap (fun i => match ferryCmd h.ferry i with
  | some c => if c.op = 1 then some (c.tmark, landAc c.nrow) else none
  | none => none)

/-- Whether slots of a job with a-cycle 0 at `o` meet those of one at `p`. -/
def slotsMeet (o p : Nat) (a b : List (Nat × Nat)) : Bool := a.any (fun x => b.any (fun y => rangesMeet (o + x.1) x.2 (p + y.1) y.2))

/-- Whether the issue slots and the LANDs of a job that starts now are free of those that started jobs have reserved (R398, R403, R440);
hand plans reserve none. -/
def slotsFree (m : Module) (tag : Nat) (j : Job) : Bool :=
  j.desc.hand || m.quay.jobs.all (fun p => match p.2 with
    | some o => decide (p.1 = tag) || !o.started || o.desc.hand
        || (j.clusters.all (fun a => o.clusters.all (fun b => decide (a.cl ≠ b.cl) || !slotsMeet m.now o.origin (issueSlots a) (issueSlots b)))
          && j.dies.all (fun a => o.dies.all (fun b => decide (a.die ≠ b.die) || !slotsMeet m.now o.origin (ferrySlots a) (ferrySlots b))))
    | none => true)

/-- The a-cycles that a job still holds its resources at the most, by its plan (R403, R404): the rest of its bound, and of its own wait
before it has started. -/
def remainingAc (m : Module) (o : Job) : Nat :=
  if o.started then o.bound.toNat - (m.now - o.origin) else o.waitAc.toNat + o.bound.toNat

/-- The worst case of the wait for the resources that other planned jobs hold (R403, R415, R430), in 64 bits. -/
def waitFor (m : Module) (tag : Nat) (cls : List ClHold) (dies : List DieHold) (cs : List CreditPlan) : Nat :=
  min (2 ^ 64 - 1) (lmax (m.quay.jobs.map (fun p => match p.2 with
    | some o => if p.1 ≠ tag ∧ (holdsMeet cls dies o.clusters o.dies || creditsMeet cs o.credits) = true then remainingAc m o else 0
    | none => 0)))

/-- The lowest idle context of a cluster. -/
def freeCtx (c : Cluster) : Option Nat :=
  (List.range 8).find? (fun k => decide ((ctxOf c k).state = 0) && !(ctxOf c k).ended)

/-- Module power in Idle, in W: not stated, a free value (R651). -/
def idlePower : Nat := Config.idlePower

/-- Whether the planned power of the jobs that run and of this one stays within the cap of its admission (R651). -/
def powerOk (m : Module) (j : Job) : Bool :=
  decide (idlePower + lsum (m.quay.jobs.map (fun p => match p.2 with
    | some o => if o.started then o.power else 0
    | none => 0)) + j.power ≤ j.cap)

/-! ## The start -/

/-- The stack address at which the planner has put the stream of cluster `cl` (R20, R434). -/
def streamBase (j : Job) (cl : Nat) : Nat := match j.places.find? (fun p => decide (p.1 = cl)) with
  | some p => p.2
  | none => 0

/-- The places of streams: the cluster, the stack address, the bytes. -/
def streamPlaces (cls : List ClHold) (ps : List (Nat × Nat)) : List (Nat × Nat × Nat) :=
  ps.map (fun p => (p.1, p.2, match cls.find? (fun h => decide (h.cl = p.1)) with
    | some h => 4 * h.stream.length
    | none => 0))

/-- Whether every stream lies in the plan region of a stack of its cluster's die (R20, R434), and no two meet. -/
def placesForm (cls : List ClHold) (ps : List (Nat × Nat)) : Bool :=
  decide (ps.map (·.1) = cls.map (·.cl))
    && (streamPlaces cls ps).all (fun p => decide (stkOf p.2.1 / 2 = dieOf p.1 ∧ p.2.1 % 4 = 0 ∧ Config.planRegion ≤ stkOff p.2.1
      ∧ stkOff p.2.1 + p.2.2 ≤ Config.stackBytes))
    && (streamPlaces cls ps).zipIdx.all (fun a => ((streamPlaces cls ps).take a.2).all (fun b =>
      !rangesMeet a.1.2.1 a.1.2.2 b.2.1 b.2.2))

/-- Whether no stream meets one of another admitted job or of a cached plan, those of plan `id` itself apart (R410, R434). -/
def placesFree (m : Module) (tag : Nat) (id : Option Nat) (cls : List ClHold) (ps : List (Nat × Nat)) : Bool :=
  let clear (xs : List (Nat × Nat × Nat)) : Bool := (streamPlaces cls ps).all (fun a => xs.all (fun b => !rangesMeet a.2.1 a.2.2 b.2.1 b.2.2))
  m.quay.jobs.all (fun p => match p.2 with
      | some j => decide (p.1 = tag) || (id.isSome && decide (j.planId = id)) || clear (streamPlaces j.clusters j.places)
      | none => true)
    && m.quay.plans.all (fun p => decide (some p.id = id) || clear (streamPlaces p.choice.clusters p.choice.places))

/-- The context of a job on one cluster at ORIGIN (R433, R435, R448, R462): `base` is its stream's stack address. -/
def startCtx (tag now base : Nat) (j : Job) (h : ClHold) : Context :=
  { state := 1, job := tag, pc := 0, len := h.stream.length, base := base, origin := now,
    params := (j.params.filter (fun p => decide (p.1 = h.cl))).foldl (fun t p => tset 0 t p.2.1 p.2.2) [] }

/-- One cluster when the start message reaches it: its stream lies in the plan region of the stack (R20, R434). A cluster has a free
context: `jobStartStep` tests it. -/
def startCluster (m : Module) (tag : Nat) (j : Job) (h : ClHold) : Module :=
  match freeCtx (clAt m h.cl) with
  | none => m
  | some k =>
    let base := streamBase j h.cl
    let m1 := onCl m h.cl (fun c => onCtx { c with
      unchecked := if j.desc.unchk then c.unchecked ||| BitVec.ofNat 8 (2 ^ k) else c.unchecked } k
      (fun _ => startCtx tag m.now base j h))
    quayPut m1 base (h.stream.flatMap (fun w => leBytes 4 w.toNat))

/-- First word of the key window that a cluster entry holds: its first frames of 16 held rows, on a frame boundary
(R312). -/
def windowBase (h : ClHold) : Nat := 1024 * ceilDiv h.row0 16

/-- The key windows of a job on a die, every frame FREE (R312, R313). -/
def startWindows (tag die : Nat) (j : Job) : List KeyWindow :=
  (j.clusters.filter (fun h => decide (dieOf h.cl = die ∧ h.frames ≠ 0))).map (fun h =>
    { cl := h.cl % 64, job := tag, base := windowBase h, size := h.frames })

/-- Pool entry `p` of a die as it passes to job `tag` with the words `ws` (R474, R475): JOB is the new job, GEN rises by 1 modulo 64,
and reserved bits stay 0. -/
def grantPool (tag p : Nat) (ws : List Word) (d : Die) : Die :=
  let gen := (bits (tget (0 : Word) d.pool (8 * p)).toNat 13 8 + 1) % 64
  let w0 := setBits (setBits (ws.getD 0 0).toNat 13 8 gen) 23 14 tag
  let all := BitVec.ofNat 32 w0 :: (List.range 7).map (fun i => ws.getD (i + 1) 0)
  { d with pool := tsetRange 0 d.pool (8 * p) (all.zipIdx.map (fun w => maskW w.1 (poolMask w.2))) }

/-- One pool entry of a plan written to the table, with the free queue of its ledger entry (R474, R475, R485). -/
def writePool (m : Module) (tag : Nat) (p : PoolPlan) : Module :=
  onDie m p.die (fun d =>
    let d1 := grantPool tag p.pool p.words d
    { d1 with ledger := tmod {} d1.ledger p.pool (fun l => { l with freeq := p.freeq.getD 0, fqv := p.freeq.isSome }) })

/-- The words of pool (first + `i`) of a hand plan (*Job descriptor*, R448, R474): a pool with a host buffer is a host pool whose BASE is
the buffer's address. The image gives no other field of a pool, and the planner writes them all: they are free values (log entry 156). -/
def handPoolWords (bufs : List (Nat × Nat)) (n i : Nat) : List Word :=
  let f (j : Nat) : Word := Config.freeWord (n + 8 * i + j)
  match bufs[i]? with
  | some b => [BitVec.ofNat 32 (setBits (f 0).toNat 1 0 2), f 1, f 2, 0, BitVec.ofNat 32 b.1, BitVec.ofNat 32 (b.1 / 2 ^ 32), 0, 0]
  | none => (List.range 8).map f

/-- The pools that a hand plan holds on a die, granted to its job. -/
def handPools (tag : Nat) (bufs : List (Nat × Nat)) (h : DieHold) (m : Module) : Module :=
  { onDie m h.die (fun d => (List.range h.pools).foldl (fun d i =>
      grantPool tag (h.pool0 + i) (handPoolWords bufs m.free i) d) d)
    with free := m.free + 8 * h.pools }

/-- The free queue of a circulating pool filled with its handles, and its books at the start (R485). -/
def fillPool (m : Module) (die p : Nat) : Module :=
  let l := ledgerOf m die p
  if !l.fqv then m
  else
    let slots := bits (poolWord m die p 1) 15 0
    let gen := bits (poolWord m die p 0) 13 8
    let hs := (List.range (slots + 1)).map (fun i => ({ h := BitVec.ofNat 32 (p * 2 ^ 22 + i * 64 + gen) } : QHandle))
    let l1 : Ledger := { l with
      free := BitVec.ofNat 18 (slots + 1), queued := 0, held := 0, transit := 0, negFree := none, negQueued := none,
      negHeld := none, negTransit := none }
    let m1 := onDie m die (fun d => { d with ledger := tset {} d.ledger p l1 })
    onCl m1 (l.freeq.toNat / 64) (fun c => { c with queues := tset [] c.queues (l.freeq.toNat % 64) hs })

/-- The pools of a die entry, filled. -/
def fillPools (m : Module) (h : DieHold) : Module :=
  (List.range h.pools).foldl (fun m i => fillPool m h.die (h.pool0 + i)) m

/-- A credit entry of a plan (R489). -/
def writeCredit (m : Module) (tag : Nat) (c : CreditPlan) : Module :=
  let e : Credit := { qaddr := c.qaddr, valid := true, job := BitVec.ofNat 10 tag, grant := c.grant, avail := c.grant }
  onDie m c.die (fun d => { d with credits := tset {} d.credits c.entry e })

/-- One die when the start message reaches it (R312, R314, R494). -/
def startDie (tag now : Nat) (j : Job) (h : DieHold) (d : Die) : Die :=
  { d with
    openJobs := d.openJobs + 1, windows := d.windows ++ startWindows tag h.die j,
    lists := d.lists ++ (if h.ferry = [] then [] else [{ job := tag, bytes := h.ferry, origin := now }]) }

/-- A die with the planned descriptors written and committed (R362, R366). -/
def writeDescs (tag : Nat) (ds : List DescPlan) (i : Nat) (d : Die) : Die :=
  (ds.filter (fun p => decide (p.die = i))).foldl (fun d p =>
    { d with desc := tsetRange 0 d.desc (32 * p.entry) ((p.words.take 32).zipIdx.map (fun w => maskW w.1 (descMask w.2))),
             dstat := tset {} d.dstat p.entry { busy := true, job := BitVec.ofNat 10 tag } }) d

/-- The flood seeds of the job (R131): one DRBG output each; a start for the first time draws them, a replay keeps them
(R134). -/
def drawSeeds (m : Module) (tag n : Nat) : Module :=
  let k := m.hedge.drbgCount
  let m1 := onHedge m (fun h => { h with drbgCount := k + n, drbgGens := h.drbgGens + n })
  onJob m1 tag (fun j => { j with seeds := (List.range n).map (fun i => Config.drbg (k + i)) })

/-- The tables a start writes: pools, credits, windows, lists, contexts, and the planner's descriptors, which it commits (R368; when
it commits them is DESIGN CHOICE, log entry 123). -/
def startTables (m : Module) (tag : Nat) (j : Job) : Module :=
  let m1 := j.pools.foldl (fun m p => writePool m tag p) m
  let m2 := if j.desc.hand then j.dies.foldl (fun m h => handPools tag j.desc.bufs h m) m1 else m1
  let m3 := j.credits.foldl (fun m c => writeCredit m tag c) m2
  let m4 := j.dies.foldl (fun m h => onDie (fillPools m h) h.die (fun d => startDie tag m.now j h (writeDescs tag j.descs h.die d))) m3
  j.clusters.foldl (fun m h => startCluster m tag j h) m4

/-- The start of a planned job whose reservations are free, with the die clocks running (R655), the spokes carrying flits (R12) and
no stack of its dies wiping (R541). -/
def jobStartStep (m : Module) (tag : Nat) : Module :=
  match jobAt m tag with
  | none => m
  | some j =>
    if j.phase ≠ .planned ∨ m.hedge.power ≠ .active ∨ !holdsFree m tag j ∨ !slotsFree m tag j ∨ !powerOk m j
        ∨ j.clusters.any (fun h => (freeCtx (clAt m h.cl)).isNone || !spokeReady m (dieOf h.cl))
        ∨ j.dies.any (fun h => !stacksOpen m h.die) then m
    else
      let m1 := startTables (drawSeeds m tag j.floods) tag j
      onJob m1 tag (fun j => { j with phase := .running, origin := m.now, lastWrite := m.now })

/-- JOB_START. -/
def execJobStart (tag : Fin 1024) (s : State) : Host.Outcome State Fault Refusal := ok s (jobStartStep s.m tag)

/-- JOB_KILL (R502). -/
def execJobKill (tag : Fin 1024) (cause : KillCause) (s : State) : Host.Outcome State Fault Refusal :=
  ok s (killJob s.m tag cause none)

/-! ## The job-end audit -/

/-- Whether every context of the job has issued END and every transfer has done its last write (R497). -/
def jobQuiet (m : Module) (tag : Nat) (j : Job) : Bool :=
  j.clusters.all (fun h => (ctxsAll (clAt m h.cl) tag).all (fun k => (ctxOf (clAt m h.cl) k).ended))
    && j.dies.all (fun h => (dieAt m h.die).ste.all (fun p => match p.2.active with
      | some s => decide (s.job ≠ tag)
      | none => true))

/-- Whether a pool's books are at their start (R497). -/
def poolBalanced (m : Module) (die p : Nat) : Bool :=
  let l := ledgerOf m die p
  !l.fqv || decide (l.free.toNat = bits (poolWord m die p 1) 15 0 + 1 ∧ l.queued = 0 ∧ l.held = 0 ∧ l.transit = 0)

/-- The first check of the job-end audit that fails: its code, and the die and pool (R495, R497). -/
def auditFault (m : Module) (tag : Nat) (j : Job) : Option (Nat × Nat × Nat) :=
  let pool := (j.dies.flatMap (fun h => (List.range h.pools).map (fun i => (h.die, h.pool0 + i)))).find?
    (fun p => !poolBalanced m p.1 p.2)
  let credit := j.dies.find? (fun h => (dieAt m h.die).credits.any (fun p =>
    p.2.valid && decide (p.2.job.toNat = tag ∧ p.2.avail ≠ p.2.grant)))
  let token := j.dies.find? (fun h => (dieAt m h.die).windows.any (fun w => decide (w.job = tag)
    && (List.range w.size).any (fun k => decide ((tget {} w.frames k).st ≠ 0))))
  let flag := j.clusters.find? (fun h => (List.range h.flags).any (fun i =>
    decide (tget 0 (clAt m h.cl).flags (h.flag0 + i) ≠ 0)))
  match pool, credit, token, flag with
  | some (d, p), _, _, _ => some (6, d, p)
  | none, some h, _, _ => some (7, h.die, 0)
  | none, none, some h, _ => some (8, h.die, 0)
  | none, none, none, some h => some (9, dieOf h.cl, 0)
  | none, none, none, none => none

/-- One cluster after a job's audit has passed: its contexts are idle and its header slots zero (R734). -/
def releaseCluster (tag : Nat) (c : Cluster) : Cluster :=
  let mine := ctxsAll c tag
  zeroHeaders { c with
    ctxs := mine.foldl (fun t k => tset {} t k {}) c.ctxs,
    unchecked := mine.foldl (fun u k => u &&& ~~~(BitVec.ofNat 8 (2 ^ k))) c.unchecked } tag

/-- One die after a job's audit has passed (R494): its entries are out of use. -/
def releaseDieJob (tag : Nat) (h : DieHold) (d : Die) : Die :=
  { d with
    openJobs := d.openJobs - 1, windows := d.windows.filter (fun w => decide (w.job ≠ tag)),
    lists := d.lists.filter (fun l => decide (l.job ≠ tag)),
    credits := d.credits.filter (fun p => decide (p.2.job.toNat ≠ tag)),
    ledger := d.ledger.filter (fun p => decide (p.1 < h.pool0 ∨ h.pool0 + h.pools ≤ p.1)) }

/-- The end of a job whose books balance: its resources are free and its completion waits (R494). -/
def jobFinish (m : Module) (tag : Nat) (j : Job) : Module :=
  let m0 := onJob m tag (withSlips m tag)
  let m1 := j.clusters.foldl (fun m h => onCl m h.cl (releaseCluster tag)) m0
  let m2 := j.dies.foldl (fun m h => onDie m h.die (releaseDieJob tag h)) m1
  finishJob m2 tag 0 (BitVec.ofNat 8 j.firstCheck) none none

/-- The end of a job whose books do not balance (R496): the fault on its die, LEDGER_FAULT, everything behind the fence;
logged for a planned job. -/
def jobFault (m : Module) (tag : Nat) (j : Job) (f : Nat × Nat × Nat) : Module :=
  let (code, die, pool) := f
  let m1 := onDie (onJob m tag (withSlips m tag)) die (fun d => ldgRecord d code pool tag)
  let m2 := if j.desc.hand then m1 else logLater m1 (ledgerEvent die tag code)
  finishJob (tearDown m2 tag j 0) tag 0x36 (BitVec.ofNat 8 code) none none

/-- JOB_END_AUDIT: the first command finds the job quiet and the audit starts; one at least 512 a-cycles later makes the
checks (R497). -/
def auditStep (m : Module) (tag : Nat) : Module :=
  match jobAt m tag with
  | none => m
  | some j =>
    if !j.started || !jobQuiet m tag j then m
    else match j.auditing with
      | none => onJob m tag (fun j => { j with phase := .auditing, auditing := some m.now })
      | some t =>
        if m.now < t + 512 then m
        else match auditFault m tag j with
          | none => jobFinish m tag j
          | some f => jobFault m tag j f

/-- JOB_END_AUDIT. -/
def execJobEndAudit (tag : Fin 1024) (s : State) : Host.Outcome State Fault Refusal := ok s (auditStep s.m tag)

end Sys2Proof.Machine
end

