-- ==== Sys2Proof/Machine/P256.lean ====
section
/-! DEFINITION. The curve P-256 of FIPS 186-5 with ECDSA, its nonce of RFC 6979 and ECDH (R628 to R633). A point is the pair
(x, y); (0, 0) is the point at infinity (R625). What a schedule of R634 to R636 computes is a function of its inputs alone
(R637), so the group law is written in affine form. -/
namespace Sys2Proof.Machine

/-- The prime p. -/
def p256p : Nat := 0xffffffff00000001000000000000000000000000ffffffffffffffffffffffff
/-- The order n. -/
def p256n : Nat := 0xffffffff00000000ffffffffffffffffbce6faada7179e84f3b9cac2fc632551
/-- The coefficient b. -/
def p256b : Nat := 0x5ac635d8aa3a93e7b3ebbd55769886bc651d06b0cc53b0f63bce3c3e27d2604b
/-- The base point G. -/
def p256g : Nat × Nat :=
  (0x6b17d1f2e12c4247f8bce6e563a440f277037d812deb33a0f4a13945d898c296,
   0x4fe342e2fe1a7f9b8ee7eb4a7c0f9e162bce33576b315ececbb6406837bf51f5)

/-- Whether y² = x³ − 3x + b. -/
def onP256 (q : Nat × Nat) : Bool :=
  decide (q.2 * q.2 % p256p = (q.1 * q.1 * q.1 + 3 * (p256p - q.1) + p256b) % p256p)

/-- The sum of two points by the line through them with slope `l`. -/
def chord (l : Nat) (a b : Nat × Nat) : Nat × Nat :=
  let x := (l * l + 2 * p256p - a.1 - b.1) % p256p
  (x, (l * (a.1 + p256p - x) + p256p - a.2) % p256p)

/-- The sum of two points. -/
def addP256 (a b : Nat × Nat) : Nat × Nat :=
  if a = (0, 0) then b
  else if b = (0, 0) then a
  else if a.1 = b.1 then
    (if a.2 = b.2 ∧ a.2 ≠ 0 then
      chord (3 * (a.1 * a.1 + p256p - 1) % p256p * invMod p256p (2 * a.2 % p256p) % p256p) a b
    else (0, 0))
  else chord ((b.2 + p256p - a.2) * invMod p256p ((b.1 + p256p - a.1) % p256p) % p256p) a b

/-- The low `f` bits of the scalar times a point. -/
def mulP256F : Nat → Nat → Nat × Nat → Nat × Nat
  | 0, _, _ => (0, 0)
  | f + 1, k, q =>
    let r := mulP256F f (k / 2) (addP256 q q)
    if k % 2 = 1 then addP256 q r else r

/-- A scalar of 256 bits times a point. -/
def mulP256 (k : Nat) (q : Nat × Nat) : Nat × Nat := mulP256F 256 k q

/-- Whether a well-formed signature verifies: r, s in [1, n − 1], Q on the curve. -/
def ecdsaVerify (q : Nat × Nat) (e r s : Nat) : Bool :=
  let w := invMod p256n s
  let v := addP256 (mulP256 (e % p256n * w % p256n) p256g) (mulP256 (r * w % p256n) q)
  decide (v ≠ (0, 0)) && decide (v.1 % p256n = r)

/-- The key and value of the generator of RFC 6979, section 3.2, steps b to g, with the additional data k′ of
section 3.6. -/
def nonceStart (d e : Nat) (extra : List Byte) : List Byte × List Byte :=
  let x := beBytes 32 d
  let h := beBytes 32 (e % p256n)
  let v0 := List.replicate 32 (1 : Byte)
  let k1 := hmac256 (zeros 32) (v0 ++ [0] ++ x ++ h ++ extra)
  let v1 := hmac256 k1 v0
  let k2 := hmac256 k1 (v1 ++ [1] ++ x ++ h ++ extra)
  (k2, hmac256 k2 v1)

/-- The two nonce candidates of R631. -/
def nonceCands (d e : Nat) (extra : List Byte) : Nat × Nat :=
  let (k, v) := nonceStart d e extra
  let t1 := hmac256 k v
  let k2 := hmac256 k (t1 ++ [0])
  let t2 := hmac256 k2 (hmac256 k2 t1)
  (beNat t1, beNat t2)

/-- The nonce: the first candidate in [1, n − 1]. -/
def nonceOf (d e : Nat) (extra : List Byte) : Option Nat :=
  let (a, b) := nonceCands d e extra
  if 1 ≤ a ∧ a < p256n then some a else if 1 ≤ b ∧ b < p256n then some b else none

/-- The signature with nonce `k`. -/
def ecdsaSignWith (d e k : Nat) : Nat × Nat :=
  let r := (mulP256 k p256g).1 % p256n
  (r, invMod p256n k * ((e + r * d) % p256n) % p256n)

/-- A public key or a signature in the big-endian form of 64 bytes that tokens and images carry (R586, R592, R615). -/
def pair64 (bs : List Byte) : Nat × Nat := (beNat (bs.take 32), beNat ((bs.drop 32).take 32))

/-- Whether the signature `sig` over `msg` verifies with the public key `pub`, both in that form. -/
def sigOk (pub msg sig : List Byte) : Bool :=
  let q := pair64 pub
  let (r, s) := pair64 sig
  decide (q.1 < p256p ∧ q.2 < p256p ∧ q ≠ (0, 0) ∧ 1 ≤ r ∧ r < p256n ∧ 1 ≤ s ∧ s < p256n) && onP256 q
    && ecdsaVerify q (beNat (sha256 msg)) r s

end Sys2Proof.Machine
end

