-- ==== Sys2Proof/Machine/Image.lean ====
section
/-! DEFINITION. Fuses, flash and the Zalpin image: lifecycle state (R586, R587), directory (R590, R591), image checks (R592,
R593), margin record (R697) and persistent error log (R705). Hedge SRAM is laid out as 512 KiB of working area, then the
retained area (log entry 30). -/
namespace Sys2Proof.Machine

/-! ## Fuses -/

/-- The lifecycle state (R587). -/
def lcsOf (f : Fuses) : Nat :=
  let pair (p : Nat) : Bool := f.lcs.getLsbD (2 * p) || f.lcs.getLsbD (2 * p + 1)
  if pair 3 then 5 else if pair 2 then 4 else if pair 1 then 3 else if pair 0 then 2 else 1

/-- A pair with one fuse set completed (R587). -/
def completePairs (f : Fuses) : Fuses :=
  { f with lcs := (List.range 4).foldl (fun x p =>
      if f.lcs.getLsbD (2 * p) || f.lcs.getLsbD (2 * p + 1) then x ||| BitVec.ofNat 8 (3 * 4 ^ p) else x) f.lcs }

/-- The fused SVN: the number of bits set. -/
def fusedSvn (f : Fuses) : Nat := ((List.range 64).filter (fun i => f.svn.getLsbD i)).length

/-- SVN fuses burnt, lowest clear bits first, until `n` are set. -/
def burnSvn (n : Nat) (f : Fuses) : Fuses :=
  { f with svn := (List.range 64).foldl (fun x i =>
      if x.getLsbD i || decide (fusedSvn { f with svn := x } ≥ n) then x else x ||| BitVec.ofNat 64 (2 ^ i)) f.svn }

/-- The key hash of a public key in the form of R586. -/
def keyHash (pub : List Byte) : BitVec 256 := sha256N (pub.take 64)

/-! ## Directory -/

/-- Directory copy `i`. -/
def dirCopy (flash : Mem) (i : Nat) : List Byte := mbytes flash (0x10000 * i) 64

/-- Whether a directory copy is valid (R590). -/
def dirValid (b : List Byte) : Bool :=
  decide (field b 0 4 = 0x5249445A ∧ field b 4 1 = 1 ∧ field b 60 4 = crc32c (b.take 60))

/-- SEQ of a valid copy plus 1, 0 for an invalid one. -/
def dirRank (b : List Byte) : Nat := if dirValid b then field b 8 4 + 1 else 0

/-- The copy in force: 0, 1 or none. -/
def dirInForce (flash : Mem) : Option Nat :=
  let r0 := dirRank (dirCopy flash 0)
  let r1 := dirRank (dirCopy flash 1)
  if r0 = 0 ∧ r1 = 0 then none else if r1 > r0 then some 1 else some 0

/-- The slot that the directory names as active; slot A when neither copy is valid. -/
def activeSlot (flash : Mem) : Nat := match dirInForce flash with
  | some i => field (dirCopy flash i) 5 1 % 2
  | none => 0

/-- The flash after the directory was changed to `slot` (R591): the copy not in force is written with SEQ one higher. -/
def setDirectory (flash : Mem) (slot : Nat) : Mem :=
  let (dst, seq) := match dirInForce flash with
    | some i => (1 - i, field (dirCopy flash i) 8 4 + 1)
    | none => (0, 0)
  mput flash (0x10000 * dst) (withCrc (leBytes 4 0x5249445A ++ leBytes 1 1 ++ leBytes 1 slot ++ zeros 2 ++ leBytes 4 seq
    ++ zeros 48))

/-! ## The image -/

/-- Flash offset of an image slot. -/
def slotBase (slot : Nat) : Nat := 0x100000 + 0x400000 * slot

/-- A section entry. -/
structure Section where
  typ : Nat
  off : Nat
  len : Nat
  digest : List Byte

/-- Section entry `i` of a header. -/
def sectionOf (h : List Byte) (i : Nat) : Section :=
  let b := 96 + 48 * i
  { typ := field h b 2, off := field h (b + 4) 4, len := field h (b + 8) 4, digest := (h.drop (b + 16)).take 32 }

/-- The sections of a header. -/
def sectionsOf (h : List Byte) : List Section := (List.range (min 16 (field h 6 2))).map (sectionOf h)

/-- The section of a type. -/
def sectionTyp (h : List Byte) (t : Nat) : Option Section := (sectionsOf h).find? (fun s => decide (s.typ = t))

/-- Check 1 of *Image checks*. -/
def headerFormOk (h : List Byte) : Bool :=
  let n := field h 6 2
  decide (field h 0 4 = 0x4E504C5A ∧ field h 4 2 = 1 ∧ field h 22 2 = 0x5108 ∧ 3 ≤ n ∧ n ≤ 5
      ∧ field h 8 4 % 64 = 0 ∧ 1024 ≤ field h 8 4 ∧ field h 8 4 ≤ 2097152)
    && zeroField h 28 4 && zeroField h 864 96 && zeroField h (96 + 48 * n) (768 - 48 * n)
    && (List.range n).all (fun i => zeroField h (98 + 48 * i) 2 && zeroField h (108 + 48 * i) 4)

/-- The header checks 1 to 4: the first that fails, 0 for none. -/
def headerCheck (f : Fuses) (h : List Byte) : Nat :=
  let k := field h 20 1
  if !headerFormOk h then 1
  else if k > 5 ∨ f.revoke.getLsbD k ∨ keyHash ((h.drop 32).take 64) ≠ tget 0 f.keyhash k then 2
  else if !sigOk ((h.drop 32).take 64) (h.take 960) ((h.drop 960).take 64) then 3
  else if field h 12 4 < fusedSvn f ∨ field h 12 4 > 64 ∨ field h 16 4 > field h 12 4 then 4
  else 0

/-- Custom-set entries of a PSETS section, at most `n` of them. -/
def psetEntries : Nat → List Byte → List (Option CustomSet)
  | 0, _ => []
  | n + 1, bs =>
    if bs = [] then []
    else if customForm bs 0x100 0x1FF then some (customOf bs) :: psetEntries n (bs.drop (customLen bs)) else [none]

/-- The size limit of a section (*Section types*). -/
def sectionSizeOk (s : Section) (bytes : List Byte) : Bool :=
  match s.typ with
  | 1 => decide (s.len ≤ 512 * 1024)
  | 2 => decide (s.len ≤ 1280 * 1024)
  | 3 => decide (s.len = 256)
  | 4 => decide ((psetEntries 257 bytes).length ≤ 256)
  | 5 => decide (s.len ≤ 64 * 1024)
  | _ => false

/-- Whether no two sections meet. -/
def sectionsApart : List Section → Bool
  | [] => true
  | s :: rest => rest.all (fun t => !rangesMeet s.off s.len t.off t.len) && sectionsApart rest

/-- Check 5, over the image at flash offset `base`. -/
def sectionsOk (flash : Mem) (base : Nat) (h : List Byte) : Bool :=
  let ss := sectionsOf h
  allDiffer (ss.map (·.typ)) && [1, 2, 3].all (fun t => (ss.map (·.typ)).contains t) && sectionsApart ss
    && decide (lsum ((ss.filter (fun s => decide (s.typ ≠ 1))).map (·.len)) ≤ 1536 * 1024)
    && ss.all (fun s =>
      let bytes := mbytes flash (base + s.off) s.len
      decide (s.off % 64 = 0 ∧ 1024 ≤ s.off ∧ s.off + s.len ≤ field h 8 4) && sectionSizeOk s bytes
        && decide (sha256 bytes = s.digest))

/-- Check 6: CONFIG fields lie in range (*CONFIG section*). -/
def configOk (c : List Byte) : Bool :=
  let rate := field c 4 2
  decide (2000 ≤ rate ∧ rate ≤ 2500 ∧ rate % 25 = 0 ∧ 85 ≤ field c 6 1 ∧ field c 6 1 ≤ 100 ∧ 8 ≤ field c 7 1
      ∧ field c 7 1 ≤ 0x77 ∧ 1 ≤ field c 8 1 ∧ field c 8 1 ≤ 3) && zeroField c 9 247

/-- The bytes of the section of a type, from flash. -/
def flashSection (flash : Mem) (base : Nat) (h : List Byte) (t : Nat) : List Byte := match sectionTyp h t with
  | some s => mbytes flash (base + s.off) s.len
  | none => []

/-- The first of *Image checks* that the image of a slot fails, 0 for none (R593). -/
def imageCheck (f : Fuses) (flash : Mem) (slot : Nat) : Nat :=
  let base := slotBase slot
  let h := mbytes flash base 1024
  if headerCheck f h ≠ 0 then headerCheck f h
  else if !sectionsOk flash base h then 5
  else if !configOk (flashSection flash base h 3) then 6
  else 0

/-! ## Hedge SRAM -/

/-- First byte of the retained area: the working area of 512 KiB comes before it. -/
def retainedBase : Nat := 0x80000

/-- Sections 2 to 5 placed one after another from a byte of SRAM, in type order. -/
def placeSections (flash : Mem) (base : Nat) (h : List Byte) : Nat → List Nat → Mem → Mem
  | _, [], sram => sram
  | at_, t :: ts, sram =>
    let b := flashSection flash base h t
    placeSections flash base h (at_ + b.length) ts (mput sram at_ b)

/-- Where the retained section of type `t` begins. -/
def retainedAt (h : List Byte) (t : Nat) : Nat :=
  retainedBase + lsum ((sectionsOf h).map (fun s => if 2 ≤ s.typ ∧ s.typ < t then s.len else 0))

/-- The bytes of a retained section. -/
def retainedSection (sram : Mem) (h : List Byte) (t : Nat) : List Byte := match sectionTyp h t with
  | some s => mbytes sram (retainedAt h t) s.len
  | none => []

/-- Planner SRAM after the Hedge has wiped it and copied XOSTIRO into it, from its first byte on (R19, R595, R665; DESIGN CHOICE, log
entry 127: where it lies). -/
def loadPlanner (x : Hedge) (q : Quay) : Quay := { q with sram := mput [] 0 (retainedSection x.sram x.headerImage 2) }

/-- Whether the retained sections meet the digests of the retained header, and SIG verifies (R598). -/
def retainedOk (x : Hedge) : Bool :=
  let h := x.headerImage
  ((sectionsOf h).filter (fun s => decide (s.typ ≠ 1))).all (fun s =>
      decide (sha256 (retainedSection x.sram h s.typ) = s.digest))
    && sigOk ((h.drop 32).take 64) (h.take 960) ((h.drop 960).take 64)

/-! ## Margin record -/

/-- Margin record copy `i`. -/
def marginCopy (flash : Mem) (i : Nat) : List Byte := mbytes flash (0x20000 + 0x10000 * i) 1024

/-- Whether a copy is valid (R697). -/
def marginValid (b : List Byte) : Bool :=
  decide (field b 0 4 = 0x47524D5A ∧ field b 4 1 = 1 ∧ field b 1020 4 = crc32c (b.take 1020))

/-- SEQ of a valid copy plus 1, 0 for an invalid one. -/
def marginRank (b : List Byte) : Nat := if marginValid b then field b 8 4 + 1 else 0

/-- The copy in force. -/
def marginInForce (flash : Mem) : Option Nat :=
  let r0 := marginRank (marginCopy flash 0)
  let r1 := marginRank (marginCopy flash 1)
  if r0 = 0 ∧ r1 = 0 then none else if r1 > r0 then some 1 else some 0

/-- The fenced clusters as the 64 bytes of the fence mask (R409, R697). -/
def fenceBytes (fenced : List Nat) : List Byte :=
  (List.range 64).map (fun i => BitVec.ofNat 8 (lsum ((List.range 8).map (fun b =>
    if fenced.contains (8 * i + b) then 2 ^ b else 0))))

/-- The margin record of the Hedge's figures (*Margin record*). -/
def marginRecord (h : Hedge) : List Byte :=
  withCrc (leBytes 4 0x47524D5A ++ leBytes 1 1 ++ leBytes 1 (b2n h.warn) ++ leBytes 2 h.rate ++ leBytes 4 h.marginSeq
    ++ leBytes 4 h.reviews ++ leBytes 8 h.opsec.toNat ++ fenceBytes h.fenceMask
    ++ ((List.range 8).flatMap (fun d => (List.range 21).flatMap (fun k => leBytes 2 ((h.vtab.getD d []).getD k 0))))
    ++ leBytes 2 h.vq ++ zeros 594)

/-- The margin record written to the copy that is not in force, SEQ one higher (R697). -/
def writeMargin (h : Hedge) : Hedge :=
  let (dst, seq) := match marginInForce h.flash with
    | some i => (1 - i, field (marginCopy h.flash i) 8 4 + 1)
    | none => (0, 0)
  let h1 := { h with marginSeq := seq }
  { h1 with flash := mput h1.flash (0x20000 + 0x10000 * dst) (marginRecord h1) }

/-- The Hedge with the figures of a margin record. -/
def readMargin (b : List Byte) (h : Hedge) : Hedge :=
  { h with
    warn := decide (field b 5 1 = 1), rate := field b 6 2, marginSeq := field b 8 4, reviews := field b 12 4,
    reviewOpsec := field b 16 8,
    fenceMask := (List.range 512).filter (fun c => bit (field b (24 + c / 8) 1) (c % 8)),
    vtab := (List.range 8).map (fun d => (List.range 21).map (fun k => field b (88 + 42 * d + 2 * k) 2)),
    vq := field b 424 2 }

/-- V(F) of die `d` in mV (R646). -/
def vOf (h : Hedge) (d mhz : Nat) : Nat := (h.vtab.getD d []).getD ((mhz - 2000) / 25) 0

/-! ## Persistent error log -/

/-- Records of the log: 256 sectors of 1,024. -/
def logRecords : Nat := 262144

/-- Flash offset of record place `i`. -/
def logAt (i : Nat) : Nat := 0x1000000 + 64 * i

/-- The bytes of a log record (*Log record*). -/
def logBytes (e : LogEvent) (seq : Nat) (opsec : BitVec 64) : List Byte :=
  withCrc (leBytes 2 0x4C45 ++ [e.cls] ++ [e.sev] ++ leBytes 4 seq ++ leBytes 8 opsec.toNat ++ leBytes 4 e.unit.toNat
    ++ leBytes 2 e.job.toNat ++ leBytes 2 e.detail.toNat ++ leBytes 8 e.addr.toNat ++ ((e.data ++ zeros 28).take 28))

/-- Whether a record is valid. -/
def logValid (b : List Byte) : Bool := decide (field b 0 2 = 0x4C45 ∧ field b 60 4 = crc32c (b.take 60))

/-- The valid records of a place range. -/
def logRange (flash : Mem) (first n : Nat) : List (List Byte) :=
  ((List.range n).map (fun i => mbytes flash (logAt (first + i)) 64)).filter logValid

/-- A record stored at the next place. -/
def logPut (h : Hedge) (e : LogEvent) (opsec : BitVec 64) : Hedge :=
  { h with flash := mput h.flash (logAt h.logPos) (logBytes e h.logSeq opsec), logSeq := h.logSeq + 1,
           logPos := (h.logPos + 1) % logRecords }

/-- The event that a stored record tells. -/
def logEventOf (b : List Byte) : LogEvent :=
  { cls := b.getD 2 0, sev := b.getD 3 0, unit := BitVec.ofNat 32 (field b 16 4), job := BitVec.ofNat 16 (field b 20 2),
    detail := BitVec.ofNat 16 (field b 22 2), addr := BitVec.ofNat 64 (field b 24 8), data := (b.drop 32).take 28 }

/-- A record appended (R705): when the next place lies in a sector that still holds records, the log is full; the records
of class STK_UNC, RETIRE or FENCE of that oldest sector are kept, and the sector is erased. -/
def logAppend (h : Hedge) (e : LogEvent) : Hedge :=
  let old := if h.logPos % 1024 = 0 then logRange h.flash h.logPos 1024 else []
  let keep := old.filter (fun b => [2, 10, 9].contains (field b 2 1))
  let h1 := if old = [] then h else { h with
    flash := h.flash.filter (fun p => decide (p.1 < logAt h.logPos ∨ logAt (h.logPos + 1024) ≤ p.1)) }
  let h2 := keep.foldl (fun h b => logPut h (logEventOf b) (BitVec.ofNat 64 (field b 8 8))) h1
  logPut h2 e h2.opsec

/-- Every place of the log that holds bytes, with its record: what a cold start reads. -/
def logPlaces (flash : Mem) : List Nat :=
  ((flash.filter (fun p => decide (0x1000000 ≤ p.1 ∧ p.1 < 0x2000000 ∧ p.1 % 64 = 0))).map
    (fun p => (p.1 - 0x1000000) / 64)).filter (fun i => logValid (mbytes flash (logAt i) 64))

/-- The place of the newest valid record. -/
def logNewest (flash : Mem) : Option Nat :=
  (logPlaces flash).foldl (fun o i => match o with
    | none => some i
    | some k => if field (mbytes flash (logAt k) 64) 4 4 < field (mbytes flash (logAt i) 64) 4 4 then some i else some k)
    none

/-- The Hedge's place in the log at cold start: SEQ and OPSEC go on from the newest valid record (R706). -/
def readLog (h : Hedge) : Hedge := match logNewest h.flash with
  | none => { h with logSeq := 0, logPos := 0, opsec := 0 }
  | some i =>
    let b := mbytes h.flash (logAt i) 64
    { h with logSeq := field b 4 4 + 1, logPos := (i + 1) % logRecords, opsec := BitVec.ofNat 64 (field b 8 8) }

/-- Uncorrectable events of a 1 MiB region of a stack that the log records (R531). -/
def regionEvents (flash : Mem) (st region : Nat) : Nat :=
  ((logPlaces flash).filter (fun i =>
    let b := mbytes flash (logAt i) 64
    decide (field b 2 1 = 2 ∧ field b 24 8 / 2 ^ 37 = st ∧ field b 24 8 % 2 ^ 37 / 2 ^ 20 = region))).length

/-- Regions of a stack that the log records as retired, or that qualify, in ascending order of first mention: at most 64
retire (R531, R532). -/
def loggedRegions (flash : Mem) (st : Nat) : List Nat :=
  let rs := (logPlaces flash).filterMap (fun i =>
    let b := mbytes flash (logAt i) 64
    if [2, 10].contains (field b 2 1) ∧ field b 24 8 / 2 ^ 37 = st then
      some (field b 24 8 % 2 ^ 37 / 2 ^ 20, decide (field b 2 1 = 10)) else none)
  rs.foldl (fun acc r =>
    if acc.contains r.1 then acc
    else if r.2 || decide (regionEvents flash st r.1 ≥ 2) then acc ++ [r.1] else acc) []

/-- A RETIRE record of region `r` of stack `st`. -/
def retireEvent (st r : Nat) : LogEvent :=
  { cls := 10, sev := 0, unit := BitVec.ofNat 32 st, job := 0xFFFF, detail := 0,
    addr := BitVec.ofNat 64 (st * 2 ^ 37 + r * 2 ^ 20), data := [] }

/-- Regions of a stack that have a RETIRE record. -/
def recordedRegions (flash : Mem) (st : Nat) : List Nat :=
  (logPlaces flash).filterMap (fun i =>
    let b := mbytes flash (logAt i) 64
    if field b 2 1 = 10 ∧ field b 24 8 / 2 ^ 37 = st then some (field b 24 8 % 2 ^ 37 / 2 ^ 20) else none)

/-- The RETIRE records due of the regions that a cold start retires (R531, R706): those that have none, stored or waiting. -/
def coldRetireEvents (h : Hedge) : List LogEvent :=
  (List.range 16).flatMap (fun st =>
    ((((loggedRegions h.flash st).take 64).filter (fun r => !(recordedRegions h.flash st).contains r)).map (retireEvent st)).filter
      (fun e => !h.logQ.contains e))

end Sys2Proof.Machine
end

