-- ==== Sys2Proof/Machine/Reset.lean ====
section
/-! DEFINITION. Resets and the cold start: what each reset kind reaches (R664 to R670), the cold start with image selection,
identity and margin record (R587, R593 to R601, R603, R605), warm reset, die reset, engine reset, readiness, and shutdown
(R647, R649, R650, R662, R672). -/
namespace Sys2Proof.Machine

/-! ## Reset values -/

/-- A cluster after a reset of kind die or stronger: the counters "0 / warm" stay at a die reset, and the slice wipes in
restricted mode (R354, R670). -/
def resetCluster (warm : Bool) (c : Cluster) : Cluster :=
  let k : Cluster := if warm then {} else c
  { scratch := c.scratch, spErr := c.spErr, wiping := true, holdRbf := k.holdRbf, holdObd := k.holdObd,
    holdFull := k.holdFull, conflicts := k.conflicts, eccCorr := k.eccCorr, eccUnc := k.eccUnc, eccDrop := k.eccDrop,
    fenceHits := k.fenceHits, restrictHits := k.restrictHits }

/-- A Pontoon end at a die reset: it goes on forwarding, and fault injection is off (R483, R666, R691). -/
def keepLink (l : Link) : Link := { l with fiCtrl := 0 }

/-- A compute die after a reset of kind die or stronger, at frequency `mhz`. -/
def resetDie (warm : Bool) (mhz : Nat) (d : Die) : Die :=
  let k : Die := if warm then {} else d
  { ldgFault := k.ldgFault, oobWr := k.oobWr, padClip := k.padClip, ferPages := k.ferPages, ferCrcFails := k.ferCrcFails,
    ferBindFails := k.ferBindFails, ferLateCycles := k.ferLateCycles, xbaFiCount := k.xbaFiCount,
    links := (k.links.map (fun p => (p.1, keepLink p.2))).filter (fun p => decide (p.2 ≠ {})), mhz := mhz,
    railOn := d.railOn, mV := d.mV, temp := k.temp }

/-- A stack after a reset of kind die or stronger: it wipes (R541); the frame count is `frame`. -/
def resetStack (warm cold : Bool) (frame : Nat) (s : Stack) : Stack :=
  let k : Stack := if warm then {} else s
  { mem := s.mem, err := s.err, state := 2, crit := s.crit && !cold, eos := s.eos, temp := 0, tmax := k.tmax,
    tthrot := s.tthrot, eccCorr := k.eccCorr, eccUnc := k.eccUnc, eccDrop := k.eccDrop, thrFrames := k.thrFrames,
    slowFrames := k.slowFrames, lastUnc := k.lastUnc, frame := frame, retired := s.retired, fiCount := k.fiCount }

/-- A table of `n` entries, each given by `f`. -/
def tabOf {α : Type} [DecidableEq α] (d : α) (n : Nat) (f : Nat → α) : Tab α := tentries d 0 ((List.range n).map f)

/-- Every die, cluster and stack after a warm or stronger reset, at the committed rate. -/
def resetAllDies (m : Module) (cold : Bool) : Module :=
  let r := m.hedge.rate
  { m with
    dies := tabOf {} 8 (fun d => { resetDie true r (dieAt m d) with railOn := true, mV := vOf m.hedge d r }),
    clusters := tabOf {} 512 (fun c => resetCluster true (clAt m c)),
    stks := tabOf {} 16 (fun s => resetStack true cold 0 (stkAt m s)),
    transit := [], flagIn := [], graves := [] }

/-- The Quay at warm values: TEL_IEVENTS is 0 / cold, TEL_MARGIN.EOS and the image's sets come with a cold start. -/
def resetQuay (cold : Bool) (q : Quay) : Quay :=
  { ievents := if cold then 0 else q.ievents, eos := q.eos, imageSets := q.imageSets }

/-- The endpoint after a warm or cold reset: the link stream is kept when `keep` (R577, R670); configuration requests are
answered with Request Retry Status until READY (R583). -/
def resetEp (keep linkUp perst : Bool) (e : Endpoint) : Endpoint :=
  { linkUp := linkUp, perst := perst, ide := if keep then e.ide.filter (fun p => decide (p.1 = 0)) else [],
    readiness := e.readiness }

/-- The image slot that an unfinished update was writing reads as failing R593 (R623): its header is erased. -/
def dropUpdate (h : Hedge) : Hedge := match h.update with
  | some u => { h with
      update := none,
      flash := h.flash.filter (fun p => decide (p.1 < slotBase u.slot ∨ slotBase u.slot + 1024 ≤ p.1)) }
  | none => h

/-- The Hedge at any reset of kind warm or stronger: working area wiped, DRBG instantiated, debug closed, nonce expired,
mailbox at its reset values, FAULT# released (R616, R618, R670, R671). -/
def resetHedge (h0 : Hedge) : Hedge :=
  let h := dropUpdate h0
  { h with
    sram := h.sram.filter (fun p => decide (retainedBase ≤ p.1)), drbgGens := 0, healthAt := [],
    debug := false, scope := 0, nonce := none, kp := 0, overPolls := 0, underPolls := 0, readings := [], faultPin := h.railFault,
    wake := false, alert := false,
    hmbOpc := 0, hmbLen := 0, hmbDone := false, hmbCode := 0, hmbRlen := 0, hmbIen := false, hmbData := [], mail := none,
    sensor := none, lifecycle := none, heartbeat := 0, power := .active, events := [], marching := [], slowAtReview := [], framesAtReview := [] }

/-! ## Cold start -/

/-- The bytes of a constant string. -/
def ascii (s : String) : List Byte := s.toList.map (fun c => BitVec.ofNat 8 c.toNat)

/-- The key-derivation root of R603. -/
def prkOf (f : Fuses) : List Byte := hkdfExtract (leBytes 8 f.serial.toNat) (leBytes 32 f.uds.toNat)

/-- A derived private key (R603): 384 bits reduced modulo n − 1, plus 1. -/
def derivedKey (f : Fuses) (info : List Byte) : BitVec 256 :=
  BitVec.ofNat 256 (beNat (hkdfExpand (prkOf f) info 48) % (p256n - 1) + 1)

/-- Digests of measurements 1 to 4 for an image (R606). -/
def measOf (h : Hedge) (slot : Nat) : List (BitVec 256) :=
  let img := mbytes h.flash (slotBase slot) 1024
  [Config.romDigest, sha256N (flashSection h.flash (slotBase slot) img 1),
   sha256N (flashSection h.flash (slotBase slot) img 2), sha256N img]

/-- m of R603. -/
def akContext (h : Hedge) : List Byte :=
  sha256 (h.meas.flatMap (fun d => leBytes 32 d.toNat) ++ leBytes 1 (lcsOf h.fuses))

/-- Whether the lifecycle state has IDK and AK (R611). -/
def identityOn (f : Fuses) : Bool := decide (lcsOf f ≤ 3)

/-- Step 1 of *Cold start*: fuses completed, IDK derived, the UDS read path closed (R587, R588, R603). -/
def coldFuses (h : Hedge) : Hedge :=
  let f := completePairs h.fuses
  { h with fuses := f, idk := if identityOn f then some (derivedKey f (ascii "KLK-S8 IDK v1")) else none, ak := none,
           udsClosed := true }

/-- An IMAGE record (R600). -/
def imageEvent (slot check : Nat) : LogEvent :=
  { cls := 13, sev := 0, unit := BitVec.ofNat 32 slot, job := 0xFFFF, detail := BitVec.ofNat 16 check, addr := 0,
    data := [] }

/-- Steps 2 and 3: the slot that boots, and the failures to log (R593, R600, R601). -/
def chooseSlot (h : Hedge) : Option Nat × List LogEvent :=
  let a := activeSlot h.flash
  let ca := imageCheck h.fuses h.flash a
  if ca = 0 then (some a, [])
  else
    let cb := imageCheck h.fuses h.flash (1 - a)
    if cb = 0 then (some (1 - a), [imageEvent a ca]) else (none, [imageEvent a ca, imageEvent (1 - a) cb])

/-- The image's sections in SRAM, and its header retained (R595 step 3, R597). -/
def loadImage (h : Hedge) (slot : Nat) : Hedge :=
  let base := slotBase slot
  let hd := mbytes h.flash base 1024
  let s1 := mput [] 0 (flashSection h.flash base hd 1)
  { h with slot := slot, headerImage := hd, sram := placeSections h.flash base hd retainedBase [2, 3, 4, 5] s1,
           imgSvn := field hd 12 4, config := flashSection h.flash base hd 3, meas := measOf h slot }

/-- The committed rate, V(F), fence mask and the rest from the margin record, or RATE of CONFIG (R599). -/
def coldMargin (h : Hedge) : Hedge := match marginInForce h.flash with
  | some i => readMargin (marginCopy h.flash i) h
  | none => { h with
      rate := field h.config 4 2, reviewOpsec := 0, fenceMask := [], warn := false, reviews := 0, marginSeq := 0, vq := 750,
      vtab := (List.range 8).map (fun d => (List.range 21).map (fun k => Config.voltage d k)) }

/-- The image's custom sets that pass R58, and the log events of those that fail (R59). -/
def imageSets (h : Hedge) : List CustomSet × List LogEvent :=
  let es := (psetEntries 256 (retainedSection h.sram h.headerImage 4)).filterMap id
  (es.filter (fun c => decide (customCheck c = 0)),
   (es.filter (fun c => decide (customCheck c ≠ 0))).map (fun c =>
     { imageEvent c.setno.toNat (customCheck c) with data := [1] }))

/-- R594: REVOKE bits of the image's field but for its own slot, and SVN fuses up to MINSVN. -/
def burnImage (h : Hedge) : Hedge :=
  let k := field h.headerImage 20 1
  let rv := (List.range 6).foldl (fun (x : BitVec 8) i =>
    if bit (field h.headerImage 21 1) i && decide (i ≠ k) then x ||| BitVec.ofNat 8 (2 ^ i) else x) h.fuses.revoke
  { h with fuses := burnSvn (max (fusedSvn h.fuses) (field h.headerImage 16 4)) { h.fuses with revoke := rv } }

/-- Step 7: AK derived and the chain of R605 issued; its encoding is X.509's, a free value. -/
def coldIdentity (h : Hedge) (free : Nat) : Hedge :=
  if identityOn h.fuses then
    { h with ak := some (derivedKey h.fuses (ascii "KLK-S8 AK v1" ++ akContext h)), cert := Config.freeBytes free }
  else { h with ak := none, cert := [] }

/-- The end of service that a cold start finds (R702): fewer than 256 clusters in service, or a stack at its end; it sets the
end-of-margin warning too, with GLB_EVT bit 2. -/
def endOfService (m : Module) : Module :=
  if 512 - m.hedge.fenceMask.length < 256 ∨ (List.range 16).any (fun s => (stkAt m s).eos) = true then
    let m1 := onHedge (onQuay m (fun q => { q with eos := true })) (fun h => { h with warn := true })
    if m.hedge.warn then m1 else raiseEvt m1 2
  else onQuay m (fun q => { q with eos := false })

/-- Steps 4 to 7 for the image of a slot: CONFIG and margin applied, dies and stacks powered and wiped, the Quay released. -/
def bootImage (m : Module) (slot : Nat) : Module :=
  let h1 := coldMargin (loadImage m.hedge slot)
  let (sets, evs) := imageSets h1
  let h2 := coldIdentity (burnImage (readLog h1)) m.free
  let m1 := { m with free := m.free + 1,
                     hedge := { h2 with boot := .running, heartbeat := m.now, vqNow := h2.vq, logQ := h2.logQ ++ evs ++ coldRetireEvents h2,
                                        smbAddr := BitVec.ofNat 8 (field h2.config 7 1),
                                        sben := BitVec.ofNat 8 (field h2.config 8 1) } }
  let m2 := resetAllDies m1 true
  let t := BitVec.ofNat 7 (field h2.config 6 1)
  endOfService { m2 with
    stks := m2.stks.map (fun p => (p.1, { p.2 with
      tthrot := t, retired := (loggedRegions h2.flash p.1).take 64,
      eos := p.2.eos || decide ((loggedRegions h2.flash p.1).length > 64) })),
    quay := { loadPlanner m2.hedge m2.quay with
      imageSets := sets } }

/-- Neither slot passed: recovery, with the Quay endpoint alone powered (R601). -/
def recoverBoot (m : Module) : Module :=
  let h := readLog m.hedge
  { m with
    hedge := { h with boot := .recovery, vqNow := 750, headerImage := [], sram := [], config := [], meas := [], cert := [], ak := none },
    dies := tabOf {} 8 (fun _ => { clocks := false, railOn := false, mhz := 2000 }), clusters := [], stks := [],
    transit := [], flagIn := [], graves := [] }

/-- The cold start (R595), from the Hedge's reset state: fuses and flash are all that it keeps. -/
def coldStart (m : Module) : Module :=
  let h := coldFuses m.hedge
  let (slot, evs) := chooseSlot h
  let m1 := { m with hedge := { h with logQ := h.logQ ++ evs } }
  match slot with
  | some s => bootImage m1 s
  | none => recoverBoot m1

/-- A cold reset (R664): rails stay up, fuses and image are read again. `perst` is the level of PERST# after it. -/
def coldReset (m : Module) (perst : Bool) : Module :=
  let h := resetHedge m.hedge
  coldStart { dropJobs m with quay := resetQuay true m.quay, ep := resetEp false false perst m.ep, pke := {}, hedge := h,
                              transit := [], flagIn := [], graves := [], fenceSeq := 0 }

/-- A cold reset of a module that has been powered; a shutdown ends only with a power-on reset. -/
def coldResetStep (m : Module) (perst : Bool) : Module :=
  if alive m then coldReset m perst else onEp m (fun e => { e with perst := perst })

/-- COLD_RESET. -/
def execColdReset (s : State) : Host.Outcome State Fault Refusal := ok s (coldResetStep s.m s.m.ep.perst)

/-- PERST_ASSERT (R671): a cold reset. CLKREQ# is held from the deassertion on. -/
def execPerstAssert (s : State) : Host.Outcome State Fault Refusal :=
  ok s (onHedge (coldResetStep s.m true) (fun h => { h with clkreq := false }))

/-- PERST_DEASSERT (R584, R671): link training begins, CLKREQ# is held low. -/
def perstDeassertStep (m : Module) : Module :=
  let up := alive m
  onHedge (onEp m (fun e => { e with perst := false, linkUp := up, crs := true })) (fun h => { h with clkreq := up })

/-- PERST_DEASSERT. -/
def execPerstDeassert (s : State) : Host.Outcome State Fault Refusal := ok s (perstDeassertStep s.m)

/-! ## Power-on and power-off -/

/-- PWRGD rising (R595, R664, R671): everything but fuses and flash at its power-on value, then the cold start. -/
def powerOn (m : Module) : Module :=
  let h0 : Hedge := { fuses := m.hedge.fuses, flash := (dropUpdate m.hedge).flash, drbgCount := m.hedge.drbgCount,
                      engineResets := m.hedge.engineResets, power := .active }
  coldStart { now := m.now, free := m.free, hedge := h0, hostOut := m.hostOut, msixOut := m.msixOut }

/-- PWRGD_RISE. -/
def execPwrgdRise (s : State) : Host.Outcome State Fault Refusal := ok s (powerOn s.m)

/-- Every compute-die and Quay rail off, after the jobs were ended (R649, R672): the Hedge is off after a power loss and shut
down after a thermal trigger; stack refresh stops, so the contents
of the stacks are lost. -/
def railsDown (m : Module) (b : Boot) : Module :=
  { m with
    hedge := { dropUpdate m.hedge with boot := b, power := .off, railsOff := true, vqNow := 0 },
    quay := { m.quay with ready := false },
    dies := tabOf {} 8 (fun d => { dieAt m d with clocks := false, railOn := false, mV := 0 }),
    stks := tabOf {} 16 (fun s => { stkAt m s with mem := [], err := [], lost := [], state := 0, level := 0 }),
    clusters := [], ep := { m.ep with crs := true, linkUp := false } }

/-- PWRGD falling (R649): every job ends without a completion entry. -/
def powerFall (m : Module) : Module := if alive m then railsDown (dropJobs m) .off else m

/-- PWRGD_FALL. -/
def execPwrgdFall (s : State) : Host.Outcome State Fault Refusal := ok s (powerFall s.m)

/-- RAIL_OUT_OF_TOLERANCE (R650): the rail that leaves its tolerance is treated as PWRGD falling. -/
def railToleranceStep (m : Module) (_rail : Nat) : Module := powerFall m

/-- RAIL_OUT_OF_TOLERANCE. -/
def execRailOutOfTolerance (rail : Nat) (s : State) : Host.Outcome State Fault Refusal :=
  ok s (railToleranceStep s.m rail)

/-! ## Warm reset -/

/-- An interrupting event is counted (R703). -/
def countInterrupt (m : Module) : Module := onQuay m (fun q => { q with ievents := satAdd q.ievents 1 })

/-- A COLD record of severity 3. -/
def coldEvent : LogEvent := { cls := 7, sev := 3, unit := 0, job := 0xFFFF, detail := 0, addr := 0, data := [] }

/-- The regions that qualify retire at a warm or stronger reset (R531, R532). -/
def retireRegions (h : Hedge) (st : Nat) (s : Stack) : Stack :=
  let rs := (loggedRegions h.flash st).filter (fun r => !s.retired.contains r)
  let all := s.retired ++ rs
  { s with retired := all.take 64, eos := s.eos || decide (all.length > 64) }

/-- RETIRE records of the regions that a reset retired. -/
def retireEvents (m : Module) : List LogEvent :=
  (List.range 16).flatMap (fun st =>
    let s := stkAt m st
    ((retireRegions m.hedge st s).retired.filter (fun r => !s.retired.contains r)).map (retireEvent st))

/-- The warm reset of R665. The link stays trained but for DL_Down (R664). A retained area that fails its check turns it
into a cold reset (R598); in recovery the module boots into recovery again. -/
def warmReset (m : Module) (linkUp : Bool) : Module :=
  let m1 : Module := { dropJobs m with
    quay := resetQuay false m.quay, ep := resetEp linkUp (linkUp && m.ep.linkUp) m.ep.perst m.ep, pke := {},
    hedge := resetHedge m.hedge, transit := [], flagIn := [], graves := [], fenceSeq := 0 }
  if m.hedge.boot = .recovery then m1
  else if !retainedOk m1.hedge then countInterrupt (coldReset (logLater m1 coldEvent) m.ep.perst)
  else
    let evs := retireEvents m1
    let m2 := resetAllDies m1 false
    { m2 with
      quay := loadPlanner m2.hedge m2.quay,
      hedge := { m2.hedge with boot := .running, heartbeat := m.now, vqNow := m2.hedge.vq, logQ := m2.hedge.logQ ++ evs },
      stks := (List.range 16).foldl (fun t st => tmod {} t st (retireRegions m2.hedge st)) m2.stks }

/-- A warm reset of a module that runs. -/
def warmResetStep (m : Module) (linkUp : Bool) : Module := if alive m then warmReset m linkUp else m

/-- WARM_RESET: a condition that needs a warm reset. -/
def execWarmReset (s : State) : Host.Outcome State Fault Refusal := ok s (warmResetStep s.m true)

/-- WRESET: GLB_CTRL.WRESET written (R665); a value other than 0xA5 does nothing. -/
def wresetStep (m : Module) (v : BitVec 8) : Module := if v = 0xA5 then warmResetStep m true else m

/-- WRESET. -/
def execWreset (v : BitVec 8) (s : State) : Host.Outcome State Fault Refusal :=
  ok s (bar0 s.m (fun m => wresetStep m v))

/-- FLR (R582, R669): a warm reset. In Rest the dies and stacks come back before it, which the reset leaves as it leaves
every other warm reset. -/
def flrStep (m : Module) : Module := warmResetStep m true

/-- FLR. -/
def execFlr (s : State) : Host.Outcome State Fault Refusal := ok s (flrStep s.m)

/-- DL_DOWN: the link goes down (R664, R670). -/
def dlDownStep (m : Module) : Module := warmResetStep (onEp m (fun e => { e with linkUp := false })) false

/-- DL_DOWN. -/
def execDlDown (s : State) : Host.Outcome State Fault Refusal := ok s (dlDownStep s.m)

/-- HOT_RESET. -/
def hotResetStep (m : Module) : Module := warmResetStep m true

/-- HOT_RESET. -/
def execHotReset (s : State) : Host.Outcome State Fault Refusal := ok s (hotResetStep s.m)

/-! ## Readiness -/

/-- Whether every slice and stack has been wiped. -/
def wipesDone (m : Module) : Bool :=
  m.clusters.all (fun p => !p.2.wiping) && m.stks.all (fun p => decide (p.2.state ≠ 2))

/-- Whether jobs may run in the lifecycle state (R611). -/
def lcsJobs (f : Fuses) : Bool := decide (lcsOf f ≤ 3)

/-- The function becomes ready (R583, R584): configuration requests succeed and a readiness message goes out, 1 Function
Readiness on a trained link, 2 Device Readiness otherwise. GLB_STATUS.READY sets unless the module is in recovery (R601),
its lifecycle state runs no job (R611), or a regulator has failed (R647). -/
def readyStep (m : Module) : Module :=
  if !(decide (m.hedge.boot = .running ∨ m.hedge.boot = .recovery)) || m.ep.perst || !wipesDone m || !m.ep.crs then m
  else
    { m with
      ep := { m.ep with crs := false, linkUp := true, readiness := m.ep.readiness ++ [if m.ep.linkUp then 1 else 2] },
      quay := { m.quay with
        ready := decide (m.hedge.boot = .running) && lcsJobs m.hedge.fuses && !m.hedge.railFault } }

/-- READY. -/
def execReady (s : State) : Host.Outcome State Fault Refusal := ok s (readyStep s.m)

/-! ## Die reset and engine reset -/

/-- Jobs that hold a resource on a die. -/
def jobsOnDie (m : Module) (d : Nat) : List Nat :=
  m.quay.jobs.filterMap (fun p => match p.2 with
    | some j => if j.clusters.any (fun h => decide (dieOf h.cl = d)) || j.dies.any (fun h => decide (h.die = d
        ∧ (h.pools ≠ 0 ∨ h.descs ≠ 0 ∨ h.regionMiB ≠ 0 ∨ h.ferry ≠ [])))
        then some p.1 else none
    | none => none)

/-- Whether a key set has a stored page on stacks 2d and 2d + 1. -/
def setOnDie (d : Nat) (k : KeySet) : Bool := k.pages.any (fun a => decide (stkOf a / 2 = d))

/-- Whether a cached plan uses a die. -/
def planOnDie (d : Nat) (p : CachedPlan) : Bool :=
  p.choice.clusters.any (fun h => decide (dieOf h.cl = d)) || p.choice.dies.any (fun h => decide (h.die = d))

/-- What a die reset does after the jobs are killed (R410, R666, R670). -/
def resetOneDie (m : Module) (d : Nat) : Module :=
  let f := (stkAt m (2 * ((d + 1) % 8))).frame
  let m1 := onDie m d (resetDie false (dieAt m d).mhz)
  let m2 := (List.range 64).foldl (fun m l => onCl m (64 * d + l) (resetCluster false)) m1
  let m3 := [2 * d, 2 * d + 1].foldl (fun m s => onStk m s (resetStack false false f)) m2
  let m4 : Module := { m3 with
    flagIn := m3.flagIn.filter (fun e => decide (e.addr / 2 ^ 14 ≠ d)),
    transit := m3.transit.filter (fun x => match x with
      | .report e _ _ _ => decide (e ≠ d)
      | .credit e _ => decide (e ≠ d)
      | _ => true) }
  settleFences (onQuay m4 (fun q => { q with
    quiesceBad := q.quiesceBad.filter (· ≠ d),
    dir := q.dir.filter (fun k => !setOnDie d k),
    replicas := q.replicas.filter (fun r => decide (stkOf r.addr / 2 ≠ d)),
    plans := q.plans.filter (fun p => !planOnDie d p) }))

/-- A DIE_RESET record. -/
def dieEvent (d detail : Nat) : LogEvent :=
  { cls := 5, sev := 3, unit := BitVec.ofNat 32 d, job := 0xFFFF, detail := BitVec.ofNat 16 detail, addr := 0, data := [] }

/-- A die reset (R666): the die's jobs are killed, the die and its stacks are reset, GLB_EVT bit 6 sets, and the function
reports it (R581); it is an interrupting event (R703). -/
def dieReset (m : Module) (d detail : Nat) : Module :=
  let k := if h : d < 8 then KillCause.dieReset ⟨d, h⟩ else .killed
  let m1 := (jobsOnDie m d).foldl (fun m t => killJob m t k none) m
  let m2 := raiseEvt (resetOneDie (reseed m1) d) 6
  countInterrupt (logLater (aerReport m2 (.uncorrectableInternal false)) (dieEvent d detail))

/-- Clusters of a die in service under a fence mask. -/
def dieInService (fenced : List Nat) (d : Nat) : List Nat :=
  ((List.range 64).map (64 * d + ·)).filter (fun c => !fenced.contains c)

/-- A fence mask with more clusters; a die left with fewer than 16 in service is fenced whole (R700). -/
def growMask (fenced more : List Nat) : List Nat :=
  let f1 := fenced ++ more.filter (fun c => !fenced.contains c)
  let thin := (List.range 8).filter (fun d => decide ((dieInService f1 d).length < 16))
  f1 ++ thin.flatMap (dieInService f1)

/-- A FENCE record: detail 1 a review, 2 a march test, 3 a repeated die reset. -/
def fenceEvent (c detail : Nat) : LogEvent :=
  { cls := 9, sev := 0, unit := BitVec.ofNat 32 c, job := 0xFFFF, detail := BitVec.ofNat 16 detail, addr := 0, data := [] }

/-- Clusters fenced for good: the mask grows, the cached plans that use them are discarded (R424), and each is logged. -/
def fenceClusters (m : Module) (cs : List Nat) (detail : Nat) : Module :=
  let mask := growMask m.hedge.fenceMask cs
  let fresh := mask.filter (fun c => !m.hedge.fenceMask.contains c)
  let m1 := fresh.foldl (fun m c => logLater m (fenceEvent c detail)) m
  { m1 with
    hedge := { m1.hedge with
      fenceMask := mask, testing := m1.hedge.testing.filter (fun c => !mask.contains c),
      marching := m1.hedge.marching.filter (fun c => !mask.contains c) },
    quay := { m1.quay with
      plans := m1.quay.plans.filter (fun p => !p.choice.clusters.any (fun h => fresh.contains h.cl)) } }

/-- Number of an engine of a module, for the record of R698. -/
def engineKey (cl : Nat) (e : Engine) : Nat := 4 * cl + engNo e

/-- A second die reset within 720 hours of operation that the same engine caused fences its cluster (R698). -/
def engineBlame (m : Module) (cl : Nat) (e : Engine) : Module :=
  let h := m.hedge
  let k := engineKey cl e
  let again := h.engineResets.any (fun r => decide (r.2.1 = k ∧ h.opsec.toNat ≤ r.2.2 + 720 * 3600))
  let h1 := { h with engineResets := (dieOf cl, k, h.opsec.toNat) :: h.engineResets }
  if again && !h.fenceMask.contains cl then
    let m1 := fenceClusters { m with hedge := h1 } [cl] 3
    { m1 with hedge := writeMargin m1.hedge }
  else { m with hedge := h1 }

/-- Whether the books of a die are clear (R498). -/
def dieClear (m : Module) (d : Nat) : Bool :=
  let x := dieAt m d
  decide (x.openJobs = 0)
    && x.ledger.all (fun p => !p.2.fqv && decide (p.2.free = 0 ∧ p.2.queued = 0 ∧ p.2.held = 0 ∧ p.2.transit = 0))
    && x.credits.all (fun p => !p.2.valid) && x.windows.all (fun w => decide (w.size = 0))
    && (List.range 64).all (fun l =>
      let c := clAt m (64 * d + l)
      decide (c.scb = []) && c.ctxs.all (fun p => decide (p.2.own = 0)) && decide (c.fence = []))

/-- DIE_RESET: after a failed quiesce check, an uncorrectable internal error, an engine that does not stop, or a link that
does not retrain. -/
def dieResetStep (m : Module) (d : Nat) (cause : DieResetCause) : Module :=
  if !alive m || decide (m.hedge.boot ≠ .running) then m
  else match cause with
    | .quiesceCheck => if m.quay.qstate = 1 ∧ m.quay.quiesceBad.contains d = true then dieReset m d 1 else m
    | .internalError => dieReset m d 2
    | .engineStuck cl e => dieReset (engineBlame m cl.val e) d 3
    | .linkRetrain => dieReset m d 4

/-- DIE_RESET. -/
def execDieReset (die : Fin 8) (cause : DieResetCause) (s : State) : Host.Outcome State Fault Refusal :=
  ok s (dieResetStep s.m die cause)

/-- The fence that the destination rows of a stopped operation of job `tag` join: that of the job when it was killed (R193), else
a new one. -/
def fenceFor (m : Module) (tag : Option Nat) : Nat :=
  match m.graves.find? (fun g => decide (some g.job = tag)) with
  | some g => g.fence
  | none => m.fenceSeq + 1

/-- The destination rows of the operations that an engine reset stopped: behind the fence, so that no read meets the words
that R193 leaves unspecified before they are zero (R349, R670). -/
def stopRanges (m : Module) (cl : Nat) (tag : Option Nat) (spans : List Span) : Module :=
  let f := fenceFor m tag
  { onCl m cl (fun c => fenceList c (spanRows spans) f) with fenceSeq := max f m.fenceSeq }

/-- A reset of an engine (R193, R199, R340, R670): its operations stop, its registers and the index controls of its read port clear,
its scoreboard entries go, and the destination rows of the stopped operations pass behind the fence. -/
def engineResetStep (m : Module) (cl : Nat) (e : Engine) : Module :=
  let g := engOf (clAt m cl) e
  let spans := (match g.run with
      | some r => opWrites e r.regs r.rix
      | none => [])
    ++ (match g.pend with
      | some _ => opWrites e g.cfg (clAt m cl).rix
      | none => [])
  let tag := match g.run, g.pend with
    | some r, _ => some r.job
    | none, some p => some p.job
    | none, none => none
  let m1 := fiOff (reseed (if spans = [] then m else stopRanges m cl tag spans)) (dieOf cl)
  onCl m1 cl (fun c => { onEng c e (fun _ => {}) with
    brk := [], unchecked := 0, rix := clearRix e c.rix, scb := c.scb.filter (fun x => decide (x.eng ≠ engNo e)) })

/-- What every engine reset on a die turns off on its clusters (R462, R483): breakpoints and unchecked mode. -/
def engineOff (m : Module) (d : Nat) : Module :=
  (List.range 64).foldl (fun m l => onCl m (64 * d + l) (fun c => { c with brk := [], unchecked := 0 })) m

/-- A reset of a stream engine: its streams stop and its set and status clear, with the index controls of the crossbar send ports
of its die (R340); the destination rows of the stopped streams pass behind the fence (R349); fault injection is off (R691). -/
def streamResetStep (m : Module) (d s : Nat) : Module :=
  let e := tget {} (dieAt m d).ste s
  let ds := streamDests none e
  let tag := (e.active.or e.shadow).map (·.job)
  let m1 := if ds = [] then m else { fenceDests m (fenceFor m tag) ds with fenceSeq := max (fenceFor m tag) m.fenceSeq }
  let m2 := (List.range 64).foldl (fun m l => onCl m (64 * d + l) (fun c => { c with
    rix := c.rix.filter (fun p => decide (p.1 / 4 ≠ 2)),
    scb := c.scb.filter (fun x => decide (x.eng ≠ 4) || !([e.active, e.shadow].any (fun o => match o with
      | some t => decide (t.cl = 64 * d + l ∧ t.opid = x.opid)
      | none => false))) })) (engineOff m1 d)
  onDie (fiOff (reseed m2) d) d (fun x => { x with
    ste := tset {} x.ste s {}, sd := x.sd.filter (fun p => decide (p.1 < 8 * s ∨ 8 * s + 8 ≤ p.1)) })

/-- A reset of a Ferry: fields of its status, landings and deliveries (R313); fault injection is off (R691). -/
def ferryResetStep (m : Module) (d : Nat) : Module :=
  onDie (fiOff (reseed (engineOff m d)) d) d (fun x => { resetFerry x with
    windows := x.windows.map (fun w => { w with frames := [], landed := 0 }) })

/-- ENGINE_RESET (R664): of an engine, a stream engine or a Ferry; a reset that the Hedge makes over the Towpath needs the
cluster in restricted mode. -/
def resetUnit (m : Module) : ResetUnit → Module
  | .engine cl e => if (clAt m cl).restricted then engineResetStep m cl e else m
  | .stream d s => streamResetStep m d s
  | .ferry d => ferryResetStep m d

/-- ENGINE_RESET. -/
def execEngineReset (u : ResetUnit) (s : State) : Host.Outcome State Fault Refusal := ok s (resetUnit s.m u)

end Sys2Proof.Machine
end

