-- ==== Sys2Proof/Machine/Rme.lean ====
section
/-! DEFINITION. The residue matrix engine (R178 to R189): BCAST, EWMAC and OPEN with their chains, the trailing pass
(R211 to R217), and the words that wait for key pages (R221, R323). -/
namespace Sys2Proof.Machine

/-- ⌈log2 m⌉: LOGN of a TWIST on an RME anchor (DEDUCED, log entry 13). -/
def rmeLogn (c : RmeCfg) : Nat := if c.m ≤ 1 then 0 else Nat.log2 (c.m - 1) + 1

/-- The scratchpad word (local) of A for (g, n, k, m) in a residue mode, through the read port (R336, R338). -/
def aWordAddr (c : RmeCfg) (r : Rix) (g n k m : Nat) : Nat :=
  (if r.mode = 1 then c.aAddr + g * c.aGs + n * c.aS2 + k * c.aS1 + autoPos r.logn r.gal m
   else if r.mode = 2 then transposedAddr r (((g * c.n + n) * c.k + k) * c.m + m)
   else c.aAddr + g * c.aGs + n * c.aS2 + k * c.aS1 + m) % 2 ^ 21

/-- The key window that an operation reads, with the pages of its frames in the order of its list. -/
structure KeyIn where
  win : Option KeyWindow := none
  frames : List Nat := []
  pages : List PageInfo := []

/-- Page index of frame `f`. -/
def KeyIn.pageOf (y : KeyIn) (f : Nat) : List Nat :=
  match y.win with
  | some w => (y.pages.findIdx? (fun p => decide (p = (tget {} w.frames f).page))).toList
  | none => []

/-- Pages of a list of frames, each once. -/
def framePages (w : KeyWindow) (fs : List Nat) : List PageInfo :=
  fs.foldl (fun ps f =>
    let p := (tget {} w.frames f).page
    if ps.contains p then ps else ps ++ [p]) []

/-- The pages on which the word at scratchpad word `a` depends. -/
def KeyIn.depsAt (y : KeyIn) (a : Nat) : List Nat :=
  match y.win with
  | some w => if w.base ≤ a ∧ a < w.base + 1024 * w.size ∧ y.frames.contains ((a - w.base) / 1024)
      then y.pageOf ((a - w.base) / 1024) else []
  | none => []

/-- The scratchpad word of B for (g, n, k, m): its address, or the word of the Ferry stream (R182, R315). -/
def bWordAddr (c : RmeCfg) (y : KeyIn) (g n k m : Nat) : Nat :=
  if c.bsrc then
    let fpr := ceilDiv c.m 1024
    let f := y.frames.getD (((g * c.n + n) * c.k + k) * fpr + m / 1024) 0
    (match y.win with
      | some w => w.base
      | none => 0) + 1024 * f + m % 1024
  else (c.bAddr + g * c.bGs + n * c.bS2 + k * c.bS1 + (if c.mode = 1 then m else 0)) % 2 ^ 21

/-- An anchor word: its value, what it raised, the words read and the pages it depends on. -/
structure MacOut where
  v : Nat
  r : Raised := {}
  reads : List Nat := []
  deps : List Nat := []

/-- One product of a residue sum: A after the prologue stages, times B; `none` when a check of *Residue-mode operands* fails. The check
on A covers the word in the scratchpad, before the stages (R181; DESIGN CHOICE, log entry 104). -/
def macTerm (c : Cluster) (o : RunOp) (t : RmeCfg) (y : KeyIn) (ec : ModEntry) (g n k m : Nat) :
    Option Nat × Raised × List Nat × List Nat :=
  let ea := if t.mode = 0 then entOf o (rmeEntryA o.word t g k) else ec
  let aa := aWordAddr t (rixOf o.rix 0) g n k m
  let ba := bWordAddr t y g n k m
  let av := (scrWord c o.zeroRows aa).toNat
  let bv := (scrWord c o.zeroRows ba).toNat
  let reads := (if n = 0 ∨ t.aS2 ≠ 0 then [aa] else []) ++ (if t.mode = 1 ∨ m = 0 then [ba] else [])
  let deps := y.depsAt aa ++ (if t.bsrc then y.depsAt ba else [])
  let above (e : ModEntry) (x : Nat) : Bool := e.valid && decide (x ≥ e.q.toNat)
  let bad := above ea av || above ec bv
  if !ea.valid then (none, { modInvalid := true, domain := bad, dead := true }, reads, deps)
  else
    let (a, r, rd) := resStages c o { ent := ea, logn := rmeLogn t, g := g, n := n, m := m, j := m, cidx := g * t.k + k }
      0 t.chain.pro av
    if bad then (none, r.and { domain := true }, reads ++ rd, deps)
    else (some (a * bv), r, reads ++ rd, deps)

/-- One anchor word of a residue mode (R179 to R181, R170). -/
def macWord (c : Cluster) (o : RunOp) (t : RmeCfg) (y : KeyIn) (g n m : Nat) : MacOut :=
  let ec := entOf o (rmeEntryC o.word t g n)
  let ts := (List.range t.k).map (fun k => macTerm c o t y ec g n k m)
  let r := ts.foldl (fun r x => r.and x.2.1) { modInvalid := !ec.valid, dead := !ec.valid }
  let bad := ts.any (fun x => x.1.isNone) || r.dead
  { v := if bad then 0 else lsum (ts.map (fun x => x.1.getD 0)) % ec.q.toNat,
    r := r, reads := ts.flatMap (·.2.2.1), deps := (ts.flatMap (·.2.2.2)).eraseDups }

/-- TWIST2 over a pair of anchor words (*Stage operations*). -/
def twist2 (e : ModEntry) (logn : Nat) (s : Stage) (m u v : Nat) : Nat :=
  let q := e.q.toNat
  let a := signed 32 s.imm0
  (subMod q (twistFactor e logn a m) 1 * u + subMod q (twistFactor e logn (-a) m) 1 * v) % q

/-- The first epilogue stage, when it is TWIST2. -/
def twistOf (t : RmeCfg) : Option Stage := match t.chain.epi with
  | s :: _ => if s.op = 0x11 then some s else none
  | [] => none

/-- One output word of a residue operation: anchor, TWIST2, and the later epilogue stages. A word that depends on an
invalid entry is 0 (R170). -/
def rmeWord (c0 : Cluster) (o : RunOp) (t : RmeCfg) (y : KeyIn) (x : OpOut) (g n m : Nat) : OpOut :=
  let logn := rmeLogn t
  let tw := twistOf t
  let n0 := if tw.isSome then 2 * n else n
  let ec := entOf o (rmeEntryC o.word t g n0)
  let a := macWord c0 o t y g n0 m
  let w : MacOut := match tw with
    | none => a
    | some s =>
      let b := macWord c0 o t y g (n0 + 1) m
      let inv := !entFor ec logn
      { v := if inv then 0 else twist2 ec logn s m a.v b.v, r := (a.r.and b.r).and { modInvalid := inv, dead := inv },
        reads := a.reads ++ b.reads, deps := (a.deps ++ b.deps).eraseDups }
  let epi := if tw.isSome then t.chain.epi.drop 1 else t.chain.epi
  let (v, r, rd) := resStages x.c o { ent := ec, logn := logn, g := g, n := n, m := m, j := m, cidx := n }
    (t.chain.npro + b2n tw.isSome) epi w.v
  let r := w.r.and r
  (x.see r (w.reads ++ rd)).put ((t.cAddr + g * t.cGs + n * t.cS1 + m) % 2 ^ 21)
    (if r.dead then 0 else BitVec.ofNat 32 v) w.deps

/-- The work of a residue operation, group by group: sides see what earlier words wrote, the anchor reads what stood at its
start. -/
def macRun (c : Cluster) (o : RunOp) (y : KeyIn) : OpOut :=
  let t := rmeCfg o.regs
  (List.range t.g).foldl (fun x g => (List.range (rmeOutputs t)).foldl (fun x n =>
    (List.range t.m).foldl (fun x m => rmeWord c o t y x g n m) x) x) { c := c }

/-! ## OPEN -/

/-- Word addresses of A row m of group g. -/
def openARow (t : RmeCfg) (r : Rix) (g m : Nat) : List Nat :=
  let rw := rowWords t.afmt t.k
  if r.mode = 2 then (List.range rw).map (fun i => transposedAddr r ((g * t.m + m) * rw + i) % 2 ^ 21)
  else (List.range rw).map (fun i => (t.aAddr + g * t.aGs + m * t.aS1 + i) % 2 ^ 21)

/-- Word addresses of B column n of group g. -/
def openBCol (t : RmeCfg) (g n : Nat) : List Nat :=
  (List.range (rowWords t.bfmt t.k)).map (fun i => (t.bAddr + g * t.bGs + n * t.bS1 + i) % 2 ^ 21)

/-- One word of the product (R184, R273). -/
def openWord (c : Cluster) (o : RunOp) (t : RmeCfg) (g m n : Nat) : FRes :=
  let aw := (openARow t (rixOf o.rix 0) g m).map (scrWord c o.zeroRows)
  let bw := (openBCol t g n).map (scrWord c o.zeroRows)
  openDot ((List.range t.k).map (fun k => (rowElem t.afmt aw k, rowElem t.bfmt bw k)))

/-- A row of the product with the stages `ss` (first number `i0`) applied to each word. -/
def openRow (c0 : Cluster) (o : RunOp) (t : RmeCfg) (x : OpOut) (g m i0 : Nat) (ss : List Stage) :
    List Word × OpOut :=
  (List.range t.n).foldl (fun (p : List Word × OpOut) n =>
    let a := openWord c0 o t g m n
    let (w, r, rd) := fpStages p.2.c o { ent := {}, logn := 0, g := g, n := n, m := m, j := n, cidx := n } i0 ss a.1
    (p.1 ++ [w], p.2.see (({ fl := a.2 } : Raised).and r) (rd ++ (if m = 0 then openBCol t g n else []))))
    ([], x.see {} (openARow t (rixOf o.rix 0) g m))

/-- The words of a row written in the last stage's format. -/
def writeRow (t : RmeCfg) (x : OpOut) (g m : Nat) (ws : List Word) : OpOut :=
  let (row, f) := rowOut t.chain.epi.getLast? ws
  let n := t.chain.npro + t.chain.epi.length - 1
  (x.see { chnFl := f, stage := if f ≠ 0 then some n else none } []).putRun ((t.cAddr + g * t.cGs + m * t.cS1) % 2 ^ 21) row

/-- The rows of block `b`: group and row numbers (R211). -/
def blockRows (t : RmeCfg) (b : Nat) : List (Nat × Nat) :=
  let mt := ceilDiv t.m 16
  ((List.range 16).map (fun r => (b / mt, 16 * (b % mt) + r))).filter (fun p => decide (p.2 < t.m))

/-- Blocks of an operation. -/
def blockCount (t : RmeCfg) : Nat := t.g * ceilDiv t.m 16

/-- The stages before and after NORM, with their numbers. -/
def preNorm (t : RmeCfg) : List Stage := t.chain.epi.takeWhile (fun s => decide (s.op ≠ 0x15))
def postNorm (t : RmeCfg) : List Stage := (t.chain.epi.dropWhile (fun s => decide (s.op ≠ 0x15))).drop 1

/-- Holding-region word of row r of block b, column 0 (R212). -/
def holdAddr (t : RmeCfg) (b r : Nat) : Nat :=
  (t.chain.hold + (b % 2) * 16 * (32 * ceilDiv t.n 32) + r * (32 * ceilDiv t.n 32)) % 2 ^ 21

/-- Block `b` drains into its holding half (R212). -/
def drainBlock (c0 : Cluster) (o : RunOp) (t : RmeCfg) (x : OpOut) (b : Nat) : OpOut :=
  (blockRows t b).foldl (fun x p =>
    let (ws, y) := openRow c0 o t x p.1 p.2 t.chain.npro (preNorm t)
    y.putRun (holdAddr t b (p.2 % 16)) ws) x

/-- The words of an operation all depend on all of its pages. -/
def onPages (o : RunOp) (x : OpOut) : OpOut := { x with outs := x.outs.map (fun w => (w.1, w.2.1, List.range o.pages.length)) }

/-- The work of an OPEN operation without NORM. -/
def openRun (c : Cluster) (o : RunOp) : OpOut :=
  let t := rmeCfg o.regs
  (List.range t.g).foldl (fun x g => (List.range t.m).foldl (fun x m =>
    let (ws, y) := openRow c o t x g m t.chain.npro t.chain.epi
    writeRow t y g m ws) x) { c := c }

/-- The trailing pass of block `b` (R214, R215): NORM, the later stages and the destination. -/
def passBlock (o : RunOp) (t : RmeCfg) (s : Stage) (x : OpOut) (b : Nat) : OpOut :=
  let i0 := t.chain.npro + (preNorm t).length
  (blockRows t b).foldl (fun x p =>
    let a := holdAddr t b (p.2 % 16)
    let xs := scrRun x.c o.zeroRows a t.n
    let (ys, f) := normRow s.func (BitVec.ofNat 32 s.imm1) xs
    let x1 := x.see { chnFl := f, stage := if f ≠ 0 then some i0 else none } ((List.range t.n).map (a + ·))
    let (zs, x2) := ys.zipIdx.foldl (fun (q : List Word × OpOut) w =>
      let (v, r, rd) := fpStages q.2.c o { ent := {}, logn := 0, g := p.1, n := w.2, m := p.2, j := w.2, cidx := w.2 }
        (i0 + 1) (postNorm t) w.1
      (q.1 ++ [v], q.2.see r rd)) ([], x1)
    writeRow t x2 p.1 p.2 zs) x

/-! ## The commands -/

/-- The key inputs of an operation when it begins its work. -/
def keyInOf (m : Module) (cl : Nat) (o : RunOp) : KeyIn :=
  if o.frames = [] then {}
  else match windowOf m cl o.job with
    | some w => { win := some w, frames := o.frames, pages := framePages w o.frames }
    | none => { frames := o.frames }

/-- The running operation with its pages listed; the check of each is in flight (R321). -/
def withPages (o : RunOp) (y : KeyIn) : RunOp := { o with pages := y.pages.map (fun p => { info := p }) }

/-- A BCAST (0) or EWMAC (1) operation does its work. -/
def macStep (m : Module) (cl mode : Nat) : Module :=
  let c := clAt m cl
  match c.rme.run with
  | some o =>
    if !o.done ∧ (rmeCfg o.regs).mode = mode then
      let y := keyInOf m cl o
      opEffect m cl .rme (withPages o y) (macRun c o y) true
    else m
  | none => m

/-- BCAST. -/
def execBcast (cl : Fin 512) (s : State) : Host.Outcome State Fault Refusal := ok s (macStep s.m cl 0)

/-- EWMAC. -/
def execEwmac (cl : Fin 512) (s : State) : Host.Outcome State Fault Refusal := ok s (macStep s.m cl 1)

/-- An OPEN operation does its work; with a NORM stage its first two row blocks drain and wait for their passes (R216). -/
def openStep (m : Module) (cl : Nat) : Module :=
  let c := clAt m cl
  match c.rme.run with
  | some o =>
    let t := rmeCfg o.regs
    if !o.done ∧ t.mode = 2 ∧ o.blocks = 0 then
      let o1 := withPages o (keyInOf m cl o)
      match chainNorm t.chain with
      | none =>
        let x := openRun c o
        opEffect m cl .rme o1 (onPages o1 x) true
      | some _ =>
        let n := blockCount t
        opEffect m cl .rme { o1 with blocks := n } (onPages o1 ((List.range (min 2 n)).foldl (drainBlock c o t) { c := c })) false
    else m
  | none => m

/-- OPEN. -/
def execOpenMode (cl : Fin 512) (s : State) : Host.Outcome State Fault Refusal := ok s (openStep s.m cl)

/-- Words of the holding region, unspecified after completion (R217): free values. -/
def freeHold (t : RmeCfg) (nf : Nat) (x : OpOut) : OpOut :=
  x.putRun (t.chain.hold % 2 ^ 21) ((List.range (holdWords t.n)).map (fun i => Config.freeWord (nf + i)))

/-- The trailing pass of a row block, in order; block b + 2 then drains into the freed half (R215, R216). The pass reads the holding
region, which the drain reaches once its pages are reported (R323). -/
def trailingStep (m : Module) (cl block : Nat) : Module :=
  let c := clAt m cl
  match c.rme.run with
  | some o =>
    let t := rmeCfg o.regs
    match chainNorm t.chain with
    | some s =>
      if !o.done ∧ block = o.passed ∧ block < o.blocks ∧ pagesReported o then
        let x := passBlock o t s { c := c } block
        let x1 := onPages o (if block + 2 < o.blocks then drainBlock c o t x (block + 2) else x)
        let last := decide (block + 1 = o.blocks)
        let x2 := if last then freeHold t m.free x1 else x1
        let m1 := opEffect m cl .rme { o with passed := block + 1 } x2 last
        { m1 with free := m.free + (if last then holdWords t.n else 0) }
      else m
    | none => m
  | none => m

/-- TRAILING_PASS. -/
def execTrailingPass (cl : Fin 512) (block : Nat) (s : State) : Host.Outcome State Fault Refusal :=
  ok s (trailingStep s.m cl block)

/-- RME_DONE. -/
def execRmeDone (cl : Fin 512) (s : State) : Host.Outcome State Fault Refusal := ok s (opDone s.m cl .rme)

end Sys2Proof.Machine
end

