-- ==== Sys2Proof/Machine/Power.lean ====
section
/-! DEFINITION. Power, clocks and heat: the quiesce check (R498, R499), Idle and Rest (R543, R654 to R658), frequency steps and
the power level (R535, R645, R646, R653, R661), the module reference and AON (R662, R663), regulator faults (R647), overrunning
engines (R667), the watchdogs (R668) and thermal shutdown (R537, R672, R673). -/
namespace Sys2Proof.Machine

/-! ## Quiesce -/

/-- Dies whose books are not clear. -/
def uncleanDies (m : Module) : List Nat := (List.range 8).filter (fun d => !dieClear m d)

/-- A record of a failed quiesce check (R499). -/
def quiesceEvent (d : Nat) : LogEvent :=
  { cls := 12, sev := 3, unit := BitVec.ofNat 32 d, job := 0xFFFF, detail := 0, addr := 0, data := [] }

/-- QUIESCE_CHECK: after the last completion entry the books of the module are checked. The quiesced state is entered when
they are clear; otherwise each failure is logged, and a die at fault is noted for its die reset, before which the state is not entered
(R498, R499). -/
def quiesceCheckStep (m : Module) : Module :=
  let bad := (uncleanDies m).filter (fun d => !m.quay.quiesceBad.contains d)
  if m.quay.qstate ≠ 1 ∨ m.quay.jobs ≠ [] ∨ m.quay.uploads ≠ [] ∨ m.quay.compl ≠ [] then m
  else if bad = [] ∧ m.quay.quiesceBad = [] then raiseEvt (onQuay m (fun q => { q with qstate := 2 })) 0
  else onQuay (bad.foldl (fun m d => logLater m (quiesceEvent d)) m) (fun q => { q with quiesceBad := q.quiesceBad ++ bad })

/-- QUIESCE_CHECK. -/
def execQuiesceCheck (s : State) : Host.Outcome State Fault Refusal := ok s (quiesceCheckStep s.m)

/-! ## Idle -/

/-- Whether some row or unit is behind the fence. -/
def anyFence (m : Module) : Bool :=
  m.clusters.any (fun p => decide (p.2.fence ≠ [])) || m.stks.any (fun p => decide (p.2.fence ≠ []))

/-- Whether an admission, a KEY_LOAD or a quiesce has begun. -/
def workBegun (m : Module) : Bool :=
  decide (m.quay.jobs ≠ [] ∨ m.quay.waiting ≠ [] ∨ m.quay.uploads ≠ [] ∨ m.quay.qstate = 1)

/-- ACLK and FCLK of every die on or off. -/
def setClocks (m : Module) (on : Bool) : Module :=
  { m with dies := tabOf {} 8 (fun d => { dieAt m d with clocks := on }) }

/-- IDLE_ENTRY: 100 µs without work (R654). -/
def idleEntryStep (m : Module) : Module :=
  if m.hedge.power = .active ∧ m.hedge.boot = .running ∧ workBegun m = false ∧ anyFence m = false then
    onHedge (setClocks m false) (fun h => { h with power := .idle })
  else m

/-- IDLE_ENTRY. -/
def execIdleEntry (s : State) : Host.Outcome State Fault Refusal := ok s (idleEntryStep s.m)

/-- IDLE_EXIT (R655). -/
def idleExitStep (m : Module) : Module :=
  if m.hedge.power = .idle ∧ workBegun m then onHedge (setClocks m true) (fun h => { h with power := .active }) else m

/-- IDLE_EXIT. -/
def execIdleExit (s : State) : Host.Outcome State Fault Refusal := ok s (idleExitStep s.m)

/-! ## Rest -/

/-- D3HOT: a write of D3hot requests a quiesce, then Rest entry (R547). -/
def d3hotStep (m : Module) : Module := quiesceStep (onEp m (fun e => { e with d3hot := true })) true

/-- D3HOT. -/
def execD3hot (s : State) : Host.Outcome State Fault Refusal := ok s (d3hotStep s.m)

/-- A stack as it rests: its contents kept in self-refresh, its die's registers at reset values (R543, R670). -/
def restStack (s : Stack) : Stack := { resetStack false false 0 s with state := 4, temp := s.temp }

/-- A cluster as it rests: its slice wiped and its die off. -/
def restCluster (c : Cluster) : Cluster := { resetCluster false c with scratch := [], spErr := [], lost := [], wiping := false }

/-- REST_ENTRY (R656): stacks in self-refresh once their fences are clear, slices wiped, compute dies off, VCORE_Q at
0.650 V, the working area of Hedge SRAM wiped, the PKE off, the ROM monitor in charge. -/
def restEntryStep (m : Module) : Module :=
  if m.quay.qstate ≠ 2 ∨ !m.quay.quiesceD3 ∨ !m.ep.d3hot ∨ m.hedge.boot ≠ .running ∨ anyFence m then m
  else
    { m with
      dies := tabOf {} 8 (fun d =>
        { resetDie false m.hedge.rate (dieAt m d) with clocks := false, railOn := false, mV := 0 }),
      clusters := tabOf {} 512 (fun c => restCluster (clAt m c)), stks := tabOf {} 16 (fun s => restStack (stkAt m s)),
      transit := [], flagIn := [], pke := {},
      hedge := { m.hedge with
        sram := m.hedge.sram.filter (fun p => decide (retainedBase ≤ p.1)), boot := .restMonitor, power := .rest, kp := 0,
        vqNow := 650, overPolls := 0, underPolls := 0 } }

/-- REST_ENTRY. -/
def execRestEntry (s : State) : Host.Outcome State Fault Refusal := ok s (restEntryStep s.m)

/-- The module after Rest exit (R543, R658, R670): dies on at V(F), stacks active at frame 0, slices wiping in restricted
mode, firmware restarted, the DRBG instantiated; admission resumes. -/
def restExit (m : Module) : Module :=
  let r := m.hedge.rate
  { m with
    dies := tabOf {} 8 (fun d => { resetDie false r (dieAt m d) with railOn := true, mV := vOf m.hedge d r }),
    clusters := tabOf {} 512 (fun c => resetCluster false (clAt m c)),
    stks := tabOf {} 16 (fun s => { stkAt m s with state := 3, frame := 0, fiCtrl := 0 }), flagIn := [],
    quay := { m.quay with qstate := 0, quiesceD3 := false }, pke := {},
    hedge := { m.hedge with
      boot := .running, power := .active, wake := false, vqNow := m.hedge.vq, drbgGens := 0,
      healthAt := [], heartbeat := m.now } }

/-- D0: a write of D0 starts Rest exit; a retained area that fails its check turns it into a cold reset (R598, R658). -/
def d0Step (m : Module) : Module :=
  let m1 := onEp m (fun e => { e with d3hot := false })
  if m.hedge.boot ≠ .restMonitor then onQuay m1 (fun q => { q with quiesceD3 := false })
  else if !retainedOk m.hedge then countInterrupt (coldReset (logLater m1 coldEvent) m.ep.perst)
  else restExit m1

/-- D0. -/
def execD0 (s : State) : Host.Outcome State Fault Refusal := ok s (d0Step s.m)

/-! ## Frequency and power level -/

/-- f(K) of R535, in MHz. -/
def fOfLevel (k : Nat) : Nat := 2500 - 25 * k

/-- K_n of a die (R534). -/
def dieLevel (m : Module) (d : Nat) : Nat := max (stkAt m (2 * d)).level.toNat (stkAt m (2 * d + 1)).level.toNat

/-- F₀, the operating frequency without throttle: from the committed rate to 2.50 GHz in steps of 25 MHz (R37, R535); which one the Hedge
sets is a free value (log entry 77). Boot sets ACLK to the committed rate (R665). -/
def baseFreq (c : Nat) : Nat := c + 25 * (Config.operatingRate c % ((2500 - c) / 25 + 1))

/-- The frequency that R535 and R653 give a die. -/
def dieTarget (m : Module) (d : Nat) : Nat :=
  let c := m.hedge.rate
  let k := dieLevel m d
  let kmax := lmax ((List.range 8).map (dieLevel m))
  let f := if fOfLevel k ≥ c then min (baseFreq c) (max c (fOfLevel kmax)) else max 2000 (fOfLevel k)
  min f (max 2000 (2500 - 25 * m.hedge.kp))

/-- ACLK_STEP: one step of 25 MHz towards the frequency in force (R661). The voltage is raised before the clock and lowered
after it; a throttle leaves it (R646). A die that falls below the committed rate sets GLB_EVT bit 3 (R653). -/
def aclkStepOf (m : Module) (d : Nat) : Module :=
  let x := dieAt m d
  let t := dieTarget m d
  if !alive m || !x.railOn || decide (x.mhz = t) then m
  else
    let f := if x.mhz < t then min t (x.mhz + 25) else max t (x.mhz - 25)
    let m1 := onDie m d (fun x => { x with mhz := f, mV := max x.mV (vOf m.hedge d f) })
    if f < m.hedge.rate ∧ f < x.mhz then raiseEvt m1 3 else m1

/-- ACLK_STEP. -/
def execAclkStep (die : Fin 8) (s : State) : Host.Outcome State Fault Refusal := ok s (aclkStepOf s.m die)

/-- The power limit P_lim (R653). -/
def powerLimit (m : Module) : Nat :=
  max m.quay.pcap.toNat (lmax (m.quay.jobs.map (fun p => match p.2 with
    | some j => j.cap
    | none => 0)))

/-- AVS_POLL: each rail's reading, TEL_POWER, and the polls in a row on either side of the limit, 100 µs each (R645, R653). -/
def avsPollStep (m : Module) (rs : List RailReading) (watts : BitVec 13) : Module :=
  let lim := powerLimit m
  onQuay (onHedge m (fun h => { h with
    readings := rs.foldl (fun t r => tset 0 (tset 0 t (2 * r.rail) r.mV) (2 * r.rail + 1) r.mA) h.readings,
    overPolls := if watts.toNat > lim then h.overPolls + 1 else 0,
    underPolls := if 100 * watts.toNat < 95 * lim then h.underPolls + 1 else 0 })) (fun q => { q with power := watts })

/-- AVS_POLL. -/
def execAvsPoll (readings : List RailReading) (watts : BitVec 13) (s : State) : Host.Outcome State Fault Refusal :=
  ok s (avsPollStep s.m readings watts)

/-- POWER_LEVEL_STEP (R653): K_P rises after 1 ms above the limit and falls after 10 ms below 95 % of it. -/
def powerLevelOf (up : Bool) (h : Hedge) : Hedge :=
  if up then (if 10 ≤ h.overPolls ∧ h.kp < 20 then { h with kp := h.kp + 1, overPolls := 0 } else h)
  else (if 100 ≤ h.underPolls ∧ h.kp > 0 then { h with kp := h.kp - 1, underPolls := 0 } else h)

/-- POWER_LEVEL_STEP. -/
def execPowerLevelStep (up : Bool) (s : State) : Host.Outcome State Fault Refusal :=
  ok s (onHedge s.m (powerLevelOf up))

/-! ## Clocks and rails at fault -/

/-- FAULT# and an Uncorrectable Internal Error, Fatal: a condition that needs a warm or stronger reset (R581, R671). -/
def raiseFault (m : Module) : Module :=
  aerReport (onHedge m (fun h => { h with faultPin := true })) (.uncorrectableInternal true)

/-- REFCLK_MISSING (R662). -/
def refclkMissingStep (m : Module) : Module :=
  if alive m && m.hedge.refclk then raiseFault (onHedge (dropJobs m) (fun h => { h with refclk := false })) else m

/-- REFCLK_MISSING. -/
def execRefclkMissing (s : State) : Host.Outcome State Fault Refusal := ok s (refclkMissingStep s.m)

/-- REFCLK_STABLE: after a loss, the Hedge performs a cold reset (R662). -/
def refclkStableStep (m : Module) : Module :=
  if m.hedge.refclk then m else coldResetStep (onHedge m (fun h => { h with refclk := true })) m.ep.perst

/-- REFCLK_STABLE. -/
def execRefclkStable (s : State) : Host.Outcome State Fault Refusal := ok s (refclkStableStep s.m)

/-- A RAIL record; detail 0 a regulator, 1 the AON input. -/
def railEvent (rail detail : Nat) : LogEvent :=
  { cls := 14, sev := 0, unit := BitVec.ofNat 32 rail, job := 0xFFFF, detail := BitVec.ofNat 16 detail, addr := 0,
    data := [] }

/-- AON_LOSS: AON time is counted from HCLK from now on, and the loss is logged (R663). -/
def aonLossStep (m : Module) : Module :=
  if m.hedge.aonLost then m else logLater (onHedge m (fun h => { h with aonLost := true })) (railEvent 0 1)

/-- AON_LOSS. -/
def execAonLoss (s : State) : Host.Outcome State Fault Refusal := ok s (aonLossStep s.m)

/-- REGULATOR_FAULT (R647): every job ends without a completion entry, the rail is logged, FAULT# is asserted, and READY
stays 0 until a power-on reset. -/
def regulatorStep (m : Module) (rail : Nat) : Module :=
  if !alive m then m
  else
    let m1 := logLater (dropJobs m) (railEvent rail 0)
    { m1 with hedge := { m1.hedge with faultPin := true, railFault := true }, quay := { m1.quay with ready := false } }

/-- REGULATOR_FAULT. -/
def execRegulatorFault (rail : Nat) (s : State) : Host.Outcome State Fault Refusal := ok s (regulatorStep s.m rail)

/-! ## Engines that do not stop -/

/-- Bound of an NTE operation in a-cycles (R176, R218). -/
def nteBound (c : NteCfg) : Nat := c.count * (2 ^ c.logn * c.logn / 256) + 48

/-- T_a of R187. -/
def rmeAnchorBound (c : RmeCfg) : Nat :=
  if c.mode = 2 then c.g * ceilDiv c.m 16 * ceilDiv c.n 32 * ceilDiv c.k 16 * fmtCycles c.afmt + 48
  else c.g * c.n * ceilDiv c.m 512 * c.k + 48

/-- Bound of an RME operation with its chain (R219, R220). -/
def rmeBound (c : RmeCfg) : Nat :=
  let vs := c.chain.epi.filter (fun s => decide (s.op = 0x18))
  let u := (vs.map (fun s => s.imm1 % 64)).headD 0
  match c.chain.epi.find? (fun s => decide (s.op = 0x15)) with
  | some s =>
    let p := if s.func = 0 then 2 else 1
    let ab := ceilDiv c.n 32 * ceilDiv c.k 16 * fmtCycles c.afmt
    let tr := p * 4 * ceilDiv c.n 32 + (if (postNorm c).any (fun s => decide (s.op = 0x18)) then ceilDiv (16 * (32 * ceilDiv c.n 32)) 64 * u else 0)
    c.g * ceilDiv c.m 16 * max ab tr + tr + 48 + u
  | none =>
    let we := c.g * c.n * c.m
    let wv := if vs = [] then 0 else c.g * rmeOutputs c * c.m
    max (max (rmeAnchorBound c - 48) (ceilDiv we 128)) (ceilDiv wv 64 * u) + 48 + u

/-- Bound of a VEC operation (R248). -/
def vecBound (c : VecCfg) : Nat := c.rows * ceilDiv c.elems 64 * c.nuop + 48

/-- Bound of the running operation of an engine. -/
def opBound (e : Engine) (o : RunOp) : Nat := match e with
  | .nte => nteBound (nteCfg o.regs)
  | .rme => rmeBound (rmeCfg o.regs)
  | .vec => vecBound (vecCfg o.regs)

/-- ENGINE_OVERRUN (R667, R674): an operation still runs 2,000,000 a-cycles beyond its bound, and its die is reset. -/
def overrunStep (m : Module) (cl : Nat) (e : Engine) : Module :=
  match (engOf (clAt m cl) e).run with
  | some o =>
    if m.now ≥ o.startedAt + opBound e o + 2000000 then dieReset (engineBlame m cl e) (dieOf cl) 3 else m
  | none => m

/-- ENGINE_OVERRUN. -/
def execEngineOverrun (cl : Fin 512) (e : Engine) (s : State) : Host.Outcome State Fault Refusal :=
  ok s (overrunStep s.m cl e)

/-! ## Watchdogs -/

/-- A WARM record. -/
def warmEvent (detail : Nat) : LogEvent :=
  { cls := 6, sev := 3, unit := 0, job := 0xFFFF, detail := BitVec.ofNat 16 detail, addr := 0, data := [] }

/-- FIRMWARE_WATCHDOG (R668). -/
def firmwareWatchdogStep (m : Module) : Module :=
  if m.hedge.boot = .running then warmResetStep (countInterrupt (logLater m (warmEvent 1))) true else m

/-- FIRMWARE_WATCHDOG. -/
def execFirmwareWatchdog (s : State) : Host.Outcome State Fault Refusal := ok s (firmwareWatchdogStep s.m)

/-- PLANNER_HEARTBEAT: the a-cycle of the latest heartbeat. -/
def execPlannerHeartbeat (s : State) : Host.Outcome State Fault Refusal :=
  ok s (onHedge s.m (fun h => { h with heartbeat := s.m.now }))

/-- PLANNER_WATCHDOG: no heartbeat for 100 ms at the committed rate (R668). -/
def plannerWatchdogStep (m : Module) : Module :=
  if m.hedge.boot = .running ∧ m.now ≥ m.hedge.heartbeat + 100000 * m.hedge.rate then
    warmResetStep (countInterrupt (logLater m (warmEvent 2))) true
  else m

/-- PLANNER_WATCHDOG. -/
def execPlannerWatchdog (s : State) : Host.Outcome State Fault Refusal := ok s (plannerWatchdogStep s.m)

/-! ## Heat -/

/-- A THERMAL record of a sensor and its temperature. -/
def thermalEvent (unit temp : Nat) : LogEvent :=
  { cls := 8, sev := 3, unit := BitVec.ofNat 32 unit, job := 0xFFFF, detail := 0, addr := 0, data := leBytes 2 temp }

/-- Thermal shutdown: THERMTRIP# and the core rails off (R672). -/
def thermalShutdown (m : Module) (e : LogEvent) : Module :=
  countInterrupt (logLater (onHedge (railsDown m .shutdown) (fun h => { h with thermtrip := true })) e)

/-- The waiting completions from entry `i` on, written as far as their rings take them; `n` bounds the entries. -/
def flushCompl : Nat → Nat → Module → Module
  | 0, _, m => m
  | n + 1, i, m =>
    let m1 := completionStep m i
    flushCompl n (if m1.quay.compl.length < m.quay.compl.length then i else i + 1) m1

/-- T_CRIT (R537, R672): two samples in a row at 105 °C kill every job with THERMAL, whose completions are written, and the
thermal shutdown starts. -/
def tCritStep (m : Module) (st : Fin 16) : Module :=
  let s := stkAt m st
  if s.state = 0 ∨ s.critRun < 2 then m
  else
    let m1 := (m.quay.jobs.map (·.1)).foldl (fun m t => killJob m t (.thermal st) none) m
    let m2 := flushCompl m1.quay.compl.length 0 m1
    let m3 := dropJobs (onStk m2 st (fun s => { s with crit := true }))
    thermalShutdown m3 (thermalEvent st.val s.temp.toNat)

/-- T_CRIT. -/
def execTCrit (st : Fin 16) (s : State) : Host.Outcome State Fault Refusal := ok s (tCritStep s.m st)

/-- JUNCTION_SHUTDOWN (R672): two samples in a row of a junction sensor at 115 °C; every job ends without a completion
entry. -/
def junctionStep (m : Module) (die : Nat) : Module :=
  if alive m then thermalShutdown (dropJobs m) (thermalEvent die 460) else m

/-- JUNCTION_SHUTDOWN. -/
def execJunctionShutdown (die : Nat) (s : State) : Host.Outcome State Fault Refusal := ok s (junctionStep s.m die)

/-- THERMTRIP_COMPARATOR: the pin, without firmware, until a power-on reset (R673). -/
def thermtripStep (m : Module) (_die : Nat) : Module := onHedge m (fun h => { h with thermtrip := true })

/-- THERMTRIP_COMPARATOR. -/
def execThermtripComparator (die : Nat) (s : State) : Host.Outcome State Fault Refusal :=
  ok s (thermtripStep s.m die)

end Sys2Proof.Machine
end

