-- ==== Sys2Proof/Machine/Scratch.lean ====
section
/-! DEFINITION. The scrub engine, the scrub fence, restricted mode and landing-pair writes of a slice (R344 to R357). -/
namespace Sys2Proof.Machine

/-- The scrub engine rewrites the oldest queued word with correct check bits (R346); a word written since is left. -/
def scrubRewriteStep (m : Module) (cl : Nat) : Module :=
  match (clAt m cl).rewriteQ with
  | [] => m
  | w :: rest => onCl m cl (fun c => { c with
      rewriteQ := rest, spErr := if tget 0 c.spErr w = 1 then tset 0 c.spErr w 0 else c.spErr })

/-- SCRUB_REWRITE. -/
def execScrubRewrite (cl : Fin 512) (s : State) : Host.Outcome State Fault Refusal := ok s (scrubRewriteStep s.m cl)

/-- A slice with row `r` zeroed, check bits included (R352). -/
def zeroRow (c : Cluster) (r : Nat) : Cluster :=
  { c with scratch := mputWords c.scratch (64 * r) (List.replicate 64 0),
           spErr := c.spErr.filter (fun p => decide (rowOf p.1 ≠ r)), lost := c.lost.filter (fun w => decide (rowOf w ≠ r)) }

/-- The scrub engine zeroes the first fenced row, in the order of the fences and of the rows of one fence, and clears it
from the fence (R352). -/
def scrubRowStep (m : Module) (cl : Nat) : Module :=
  match (clAt m cl).fence with
  | [] => m
  | f :: rest => settleFences (onCl m cl (fun c => { zeroRow c f.row with fence := rest }))

/-- SCRUB_ROW. -/
def execScrubRow (cl : Fin 512) (s : State) : Host.Outcome State Fault Refusal := ok s (scrubRowStep s.m cl)

/-- A slice after its wipe (R354): every word zero with correct check bits, no row fenced or marked. -/
def wipedSlice (c : Cluster) : Cluster :=
  { c with scratch := [], spErr := [], lost := [], poisoned := [], fence := [], rewriteQ := [], wiping := false }

/-- Whether restricted mode may be entered or left (R356). -/
def mayRestrict (c : Cluster) : Bool :=
  [c.nte, c.rme, c.vec].all (fun e => e.run.isNone && e.pend.isNone) && decide (c.scb = [])

/-- The wipe of a slice that a reset or a lifecycle change began ends, in restricted mode (R354). A cluster whose engines still ran
when the wipe was asked for enters the mode once it may (R356). -/
def sliceWipeStep (m : Module) (cl : Nat) : Module :=
  let c := clAt m cl
  if c.wiping && (c.restricted || mayRestrict c) then settleFences (onCl m cl (fun c => { wipedSlice c with restricted := true })) else m

/-- SLICE_WIPE. -/
def execSliceWipe (cl : Fin 512) (s : State) : Host.Outcome State Fault Refusal := ok s (sliceWipeStep s.m cl)

/-- A write of XBA_MODE.RESTRICT (R356). -/
def restrictCl (v : Bool) (c : Cluster) : Cluster :=
  if mayRestrict c then { c with restricted := v } else { c with refused := true }

/-- RESTRICT. -/
def execRestrict (cl : Fin 512) (v : Bool) (s : State) : Host.Outcome State Fault Refusal :=
  ok s (onCl s.m cl (restrictCl v))

/-- Word `w` under the other bank mapping (R23, R357): the hash exchanges column c of a row with c XOR w[11:6], so what one
mapping stores at a word, the other reads at this word. -/
def otherBank (w : Nat) : Nat := w / 64 * 64 + (w % 64 ^^^ (w / 64) % 64)

/-- A slice whose bank mapping changed. -/
def remapSlice (c : Cluster) : Cluster :=
  { c with scratch := c.scratch.foldl (fun t p => tset 0 t (4 * otherBank (p.1 / 4) + p.1 % 4) p.2) [],
           spErr := c.spErr.foldl (fun t p => tset 0 t (otherBank p.1) p.2) [],
           rewriteQ := c.rewriteQ.map otherBank, lost := c.lost.map otherBank }

/-- A write of XBA_MODE.HASHOFF (R357): ignored outside restricted mode. -/
def hashoffCl (v : Bool) (c : Cluster) : Cluster :=
  if !c.restricted then { c with refused := true }
  else if c.hashoff = v then c else { remapSlice c with hashoff := v }

/-- HASHOFF. -/
def execHashoff (cl : Fin 512) (v : Bool) (s : State) : Host.Outcome State Fault Refusal :=
  ok s (onCl s.m cl (hashoffCl v))

/-- A single write to a landing-pair word over the Towpath: ignored when the entry it leaves is not allowed (R344). -/
def lpWriteCl (pair : Nat) (hi : Bool) (v : Word) (c : Cluster) : Cluster :=
  let t := lpStore c.lp (2 * pair + b2n hi) v
  if lpOk (tget (0 : Word) t (2 * pair)).toNat (tget (0 : Word) t (2 * pair + 1)).toNat then { c with lp := t } else c

/-- LANDING_PAIR_WRITE. -/
def execLandingPairWrite (cl : Fin 512) (pair : Fin 32) (hi : Bool) (v : Word) (s : State) :
    Host.Outcome State Fault Refusal :=
  ok s (onCl s.m cl (lpWriteCl pair hi v))

end Sys2Proof.Machine
end

