-- ==== Sys2Proof/Machine/Margin.lean ====
section
/-! DEFINITION. Margin reviews (R693 to R697, R702), fencing and the march test (R424, R698 to R700), the persistent log
(R531, R532, R705, R706), and the entropy source (R608 to R610, R616). -/
namespace Sys2Proof.Machine

/-! ## Margin review -/

/-- V_req(c, F) of a sample: F is 2,000 + 25·k MHz. -/
def vReq (ss : List SentinelSample) (c k : Nat) : Nat := match ss.find? (fun s => decide (s.cl = c)) with
  | some s => s.vreq.getD k 0
  | none => 0

/-- Step number of a frequency. -/
def stepOf (mhz : Nat) : Nat := (mhz - 2000) / 25

/-- Whether the cause of a review holds (R693). -/
def reviewDue (m : Module) (ss : List SentinelSample) : ReviewCause → Bool
  | .weekly => decide (m.hedge.opsec.toNat ≥ m.hedge.reviewOpsec + 604800)
  | .slowFrames => decide (m.hedge.opsec.toNat ≥ m.hedge.reviewOpsec + 86400) && (List.range 16).any (fun s =>
      let x := stkAt m s
      let grown := x.slowFrames.toNat - (tget (0 : Word) m.hedge.slowAtReview s).toNat
      decide (1000 * grown > x.frame - tget 0 m.hedge.framesAtReview s))
  | .voltage => (List.range 8).any (fun d => (dieInService m.hedge.fenceMask d).any (fun c =>
      let f := (dieAt m d).mhz
      decide (vReq ss c (stepOf f) + 10 ≥ vOf m.hedge d f)))

/-- Clusters of a die above 0.850 V at frequency step `k`. -/
def overAt (ss : List SentinelSample) (fenced : List Nat) (d k : Nat) : List Nat :=
  (dieInService fenced d).filter (fun c => decide (vReq ss c k > 850))

/-- Steps 2 and 3 of R694 with R695: the highest rate step, from `k` down, at which at most 2 clusters of each die exceed
0.850 V; 0 when there is none. -/
def rateStep (ss : List SentinelSample) (fenced : List Nat) : Nat → Nat
  | 0 => 0
  | k + 1 =>
    if (List.range 8).all (fun d => decide ((overAt ss fenced d (k + 1)).length ≤ 2)) then k + 1
    else rateStep ss fenced k

/-- V(F) of a die over its clusters in service; a die without any keeps its row. -/
def vRow (ss : List SentinelSample) (fenced : List Nat) (old : List Nat) (d : Nat) : List Nat :=
  let cs := dieInService fenced d
  if cs = [] then old else (List.range 21).map (fun k => lmax (cs.map (fun c => vReq ss c k)))

/-- Whether R696 applies. -/
def marginLow (rate : Nat) (vtab : List (List Nat)) : Bool :=
  decide (rate ≤ 2100) || vtab.any (fun r => decide (r.getD 0 0 > 825))

/-- A REVIEW record. -/
def reviewEvent (rate : Nat) : LogEvent :=
  { cls := 11, sev := 0, unit := 0, job := 0xFFFF, detail := 0, addr := 0, data := leBytes 2 rate }

/-- The review itself (R694 to R696). -/
def reviewOf (m : Module) (cause : ReviewCause) (ss : List SentinelSample) : Module :=
  let h := m.hedge
  let k := rateStep ss h.fenceMask (stepOf h.rate)
  let ovr := (List.range 8).flatMap (fun d => overAt ss h.fenceMask d k)
  let c1 := 2000 + 25 * k
  let c := if cause = .slowFrames then max 2000 (c1 - 25) else c1
  let m1 := fenceClusters m ovr 1
  let vt := (List.range 8).map (fun d => vRow ss m1.hedge.fenceMask (h.vtab.getD d []) d)
  let low := marginLow c vt
  let h2 := writeMargin { m1.hedge with
    rate := c, vtab := vt, warn := h.warn || low, reviews := h.reviews + 1, reviewOpsec := h.opsec.toNat,
    slowAtReview := tabOf 0 16 (fun s => (stkAt m s).slowFrames), framesAtReview := tabOf 0 16 (fun s => (stkAt m s).frame) }
  let m2 := logLater { m1 with hedge := h2 } (reviewEvent c)
  let m3 := (List.range 8).foldl (fun m d => onDie m d (fun x => { x with mV := if x.railOn then vOf h2 d x.mhz else 0 })) m2
  let m4 := raiseEvt m3 1
  if low && !h.warn then raiseEvt m4 2 else m4

/-- MARGIN_REVIEW. -/
def reviewStep (m : Module) (cause : ReviewCause) (ss : List SentinelSample) : Module :=
  if m.hedge.boot = .running ∧ reviewDue m ss cause then reviewOf m cause ss else m

/-- MARGIN_REVIEW. -/
def execMarginReview (cause : ReviewCause) (samples : List SentinelSample) (s : State) : Host.Outcome State Fault Refusal :=
  ok s (reviewStep s.m cause samples)

/-- Whether a job in flight holds a cluster. -/
def clusterHeld (m : Module) (cl : Nat) : Bool :=
  m.quay.jobs.any (fun p => match p.2 with
    | some j => j.clusters.any (fun h => decide (h.cl = cl))
    | none => false)

/-- MARCH_TEST (R699): once no job holds the cluster, the first command starts the test of its slice in restricted mode, during which the
cluster counts as fenced; the second ends it: a failing bit fences the cluster, else it returns to service. The slice wipes before any job
uses it. -/
def marchStep (m : Module) (cl : Nat) (failing : Bool) : Module :=
  if !m.hedge.testing.contains cl || clusterHeld m cl || !mayRestrict (clAt m cl) then m
  else if !m.hedge.marching.contains cl then
    onHedge (onCl m cl (fun c => { c with restricted := true, hashoff := false }))
      (fun h => { h with marching := h.marching ++ [cl] })
  else
    let m1 := onCl m cl (fun c => { c with restricted := true, hashoff := false, wiping := true })
    let m2 := onHedge m1 (fun h => { h with
      testing := h.testing.filter (fun c => decide (c ≠ cl)), marching := h.marching.filter (fun c => decide (c ≠ cl)) })
    if failing then
      let m3 := fenceClusters m2 [cl] 2
      { m3 with hedge := writeMargin m3.hedge }
    else m2

/-- MARCH_TEST. -/
def execMarchTest (cl : Fin 512) (failing : Bool) (s : State) : Host.Outcome State Fault Refusal :=
  ok s (marchStep s.m cl failing)

/-! ## The log -/

/-- An event out of the queue of those that wait. -/
def dropEvent (e : LogEvent) : List LogEvent → List LogEvent
  | [] => []
  | x :: xs => if x = e then xs else x :: dropEvent e xs

/-- LOG_WRITE (R705, R706): a waiting event gets its record; the 65th region of a stack that qualifies sets its EOS (R532).
After a power loss nothing is written (R649). -/
def logWriteStep (m : Module) (e : LogEvent) : Module :=
  if m.hedge.boot = .off ∨ !m.hedge.logQ.contains e then m
  else
    let m1 := onHedge m (fun h => logAppend { h with logQ := dropEvent e h.logQ } e)
    if e.cls = 2 then
      let st := e.addr.toNat / 2 ^ 37
      onStk m1 st (fun s => { s with eos := s.eos || decide ((loggedRegions m1.hedge.flash st).length > 64) })
    else m1

/-- LOG_WRITE. -/
def execLogWrite (e : LogEvent) (s : State) : Host.Outcome State Fault Refusal := ok s (logWriteStep s.m e)

/-- HEARTBEAT: 3,600 operating seconds have passed. -/
def heartbeatStep (m : Module) : Module :=
  if m.hedge.boot ≠ .running then m
  else onHedge m (fun h => logAppend { h with opsec := h.opsec + 3600 }
    { cls := 15, sev := 0, unit := 0, job := 0xFFFF, detail := 0, addr := 0, data := [] })

/-- HEARTBEAT. -/
def execHeartbeat (s : State) : Host.Outcome State Fault Refusal := ok s (heartbeatStep s.m)

/-- CORR_SUMMARY: the corrected errors of a unit in an hour. -/
def corrStep (m : Module) (unit count : Word) : Module :=
  if m.hedge.boot ≠ .running ∨ count = 0 then m
  else onHedge m (fun h => logAppend h
    { cls := 16, sev := 1, unit := unit, job := 0xFFFF, detail := 0, addr := 0, data := leBytes 4 count.toNat })

/-- CORR_SUMMARY. -/
def execCorrSummary (unit : BitVec 32) (count : BitVec 32) (s : State) : Host.Outcome State Fault Refusal :=
  ok s (corrStep s.m unit count)

/-! ## Entropy -/

/-- DRBG_RESEED: after 2^20 generate requests (R609). -/
def reseedHedge (h : Hedge) : Hedge := if h.drbgGens ≥ 2 ^ 20 then { h with drbgGens := 0 } else h

/-- DRBG_RESEED. -/
def execDrbgReseed (s : State) : Host.Outcome State Fault Refusal := ok s (onHedge s.m reseedHedge)

/-- HEALTH_TEST_FAIL (R610): the DRBG instantiates again; at the third failure within 10 ms the source is logged as failed,
and a condition that needs a warm reset is reported. -/
def healthStep (m : Module) : Module :=
  let recent := m.hedge.healthAt.filter (fun t => decide (m.now ≤ t + 10000 * m.hedge.rate))
  let m1 := onHedge m (fun h => { h with drbgGens := 0, healthAt := recent ++ [m.now] })
  if recent.length ≥ 2 then raiseFault (logLater m1 (warmEvent 3)) else m1

/-- HEALTH_TEST_FAIL. -/
def execHealthTestFail (s : State) : Host.Outcome State Fault Refusal := ok s (healthStep s.m)

/-- NONCE_EXPIRY: 600 s on AON (R616). -/
def execNonceExpiry (s : State) : Host.Outcome State Fault Refusal := ok s (onHedge s.m (fun h => { h with nonce := none }))

end Sys2Proof.Machine
end

