-- ==== Sys2Proof/Machine/Pke.lean ====
section
/-! DEFINITION. The public-key engine (R624 to R642): operand memory and DMA, the commands with their refusals, failure
checks and durations, multiply-accumulate mode, the random pool and the wipe. -/
namespace Sys2Proof.Machine

/-! ## Operands -/

/-- The 1,024-bit operand at a slot (R625). -/
def pkeOperand (k : Pke) (slot : Nat) : Nat := leNat (mbytes k.mem (64 * slot) 128)

/-- The point at a slot. -/
def pkePoint (k : Pke) (slot : Nat) : Nat × Nat := (pkeOperand k slot, pkeOperand k (slot + 2))

/-- Input operands of an operation as (first slot, operands): a point is two operands (*Commands*). -/
def pkeInputs (r : PkeReq) : List (Nat × Nat) :=
  match r.opc with
  | 1 | 2 | 3 | 5 => [(r.a, 1), (r.b, 1), (r.c, 1)]
  | 4 => [(r.a, 1), (r.c, 1)]
  | 0x10 => [(r.a, 1), (r.b, 1)]
  | 0x11 => [(r.a, 2), (r.b, 1), (r.c, 2)]
  | 0x12 => [(r.a, 2), (r.b, 1)]
  | 0x13 => [(r.a, 2)]
  | _ => []

/-- Operands that the result takes. -/
def pkeOuts (opc : Nat) : Nat := if opc = 0x10 then 2 else 1

/-- Whether R629 refuses a command-mode command. -/
def pkeRefused (r : PkeReq) : Bool :=
  let ins := pkeInputs r
  let dst := (r.d, pkeOuts r.opc)
  decide (ins = []) || (decide (r.opc ≤ 5) && decide (r.cls = 3))
    || (dst :: ins).any (fun p => decide (p.1 % 2 = 1) || decide (p.1 + 2 * p.2 > 256))
    || ins.any (fun p => rangesMeet p.1 (2 * p.2) dst.1 (2 * dst.2))

/-- Bits of a size class, and its Tmul (*Size classes*). -/
def pkeClass (cls : Nat) : Nat × Nat := if cls = 0 then (256, 24) else if cls = 1 then (384, 32) else (521, 40)

/-- Duration of a command in KCLK cycles (*Command durations*). -/
def pkeDuration (opc cls : Nat) : Nat :=
  let (l, t) := pkeClass cls
  match opc with
  | 1 | 2 => 48
  | 3 => 32 + 3 * t
  | 4 => 32 + (49 * l + 80) / 17 + 2 * t
  | 5 => 32 + 2 * t + 4 * l * t
  | 0x10 => 164552
  | 0x11 => 160880
  | 0x12 => 154112
  | 0x13 => 160
  | _ => 4

/-- Random bits a command takes from the pool (R636). -/
def pkeNeed (opc : Nat) : Nat := match opc with
  | 0x10 => 512
  | 5 | 0x11 | 0x12 => 256
  | _ => 0

/-! ## Failure checks and results -/

/-- What a command finds: the codes of the checks that fail, and its result operands. -/
structure PkeResult where
  fails : List Nat
  outs : List Nat

/-- `[c]` when the check of code `c` fails. -/
def failIf (b : Bool) (c : Nat) : List Nat := if b then [c] else []

/-- MADD, MSUB, MMUL, MINV and MEXP (R628, R630). -/
def pkeModular (opc l a b m : Nat) : PkeResult :=
  let bad := failIf (decide (m % 2 = 0 ∨ m < 3)) 2
  match opc with
  | 4 => { fails := bad ++ failIf (decide (a ≥ m)) 3 ++ failIf (decide (a = 0 ∨ Nat.gcd a m ≠ 1)) 7, outs := [invMod m a] }
  | 5 => { fails := bad ++ failIf (decide (a ≥ m ∨ b ≥ 2 ^ l)) 3, outs := [powMod m a b] }
  | _ =>
    { fails := bad ++ failIf (decide (a ≥ m ∨ b ≥ m)) 3,
      outs := [if opc = 1 then (a + b) % m else if opc = 2 then (a + m - b) % m else a * b % m] }

/-- RANGE, INFINITY and NOT_ON_CURVE of a point operand. -/
def pointFails (q : Nat × Nat) (range : Bool) : List Nat :=
  failIf (decide (q.1 ≥ p256p ∨ q.2 ≥ p256p) || range) 3 ++ failIf (decide (q = (0, 0))) 5
    ++ failIf (!onP256 (q.1 % p256p, q.2 % p256p)) 6

/-- ECDSA_SIGN_P256 with k′ `extra` (R631). -/
def pkeSign (d e : Nat) (extra : List Byte) : PkeResult :=
  let bad := failIf (decide (d ≥ p256n ∨ e ≥ 2 ^ 256)) 3 ++ failIf (decide (d = 0)) 4
  if bad ≠ [] then { fails := bad, outs := [0, 0] }
  else match nonceOf d e extra with
    | none => { fails := [9], outs := [0, 0] }
    | some k =>
      let (r, s) := ecdsaSignWith d e k
      { fails := failIf (decide (r = 0 ∨ s = 0)) 10, outs := [r, s] }

/-- ECDSA_VERIFY_P256 (R633). -/
def pkeVerify (q : Nat × Nat) (e r s : Nat) : PkeResult :=
  let bad := pointFails q (decide (e ≥ 2 ^ 256 ∨ r ≥ p256n ∨ s ≥ p256n)) ++ failIf (decide (r = 0 ∨ s = 0)) 4
  { fails := if bad = [] then failIf (!ecdsaVerify q e r s) 8 else bad, outs := [1] }

/-- ECDH_P256. -/
def pkeEcdh (q : Nat × Nat) (d : Nat) : PkeResult :=
  { fails := pointFails q (decide (d ≥ p256n)) ++ failIf (decide (d = 0)) 4, outs := [(mulP256 d q).1] }

/-- The result of a command that R629 does not refuse. -/
def pkeResult (k : Pke) (r : PkeReq) (extra : List Byte) : PkeResult :=
  let op := pkeOperand k
  match r.opc with
  | 0x10 => pkeSign (op r.a) (op r.b) extra
  | 0x11 => pkeVerify (pkePoint k r.a) (op r.b) (op r.c) (op (r.c + 2))
  | 0x12 => pkeEcdh (pkePoint k r.a) (op r.b)
  | 0x13 => { fails := pointFails (pkePoint k r.a) false, outs := [1] }
  | o => pkeModular o (pkeClass r.cls).1 (op r.a) (op r.b) (op r.c)

/-- FAILMASK: bit c − 2 for each failed check of code c. -/
def failMask (fs : List Nat) : BitVec 11 := fs.foldl (fun x c => x ||| BitVec.ofNat 11 (2 ^ (c - 2))) 0

/-- The writes of result operands from slot `d`. -/
def outWrites (d : Nat) (outs : List Nat) : List (Nat × List Byte) :=
  outs.zipIdx.map (fun p => (d + 2 * p.2, leBytes 128 p.1))

/-- A command-mode command as it runs. -/
def pkeRunOf (k : Pke) (r : PkeReq) (extra : List Byte) : PkeRun :=
  if pkeRefused r then { code := 1, dur := 4 }
  else
    let x := pkeResult k r extra
    let ok := decide (x.fails = [])
    { writes := outWrites r.d (if ok then x.outs else x.outs.map (fun _ => 0)),
      code := BitVec.ofNat 8 (if ok then 0 else lmin 10 x.fails), failmask := failMask x.fails,
      dur := BitVec.ofNat 32 (pkeDuration r.opc r.cls) }

/-! ## Multiply-accumulate mode -/

/-- Entry `i` of the list. -/
def macEntry (k : Pke) (base i : Nat) : Nat := leNat (mbytes k.mem (64 * base + 4 * i) 4)

/-- KCLK cycles of a step (*MAC-mode steps*). -/
def macCycles (op : Nat) : Nat := if 3 ≤ op ∧ op ≤ 5 then 16 else 2

/-- Whether R642 accepts the list. -/
def macOk (k : Pke) (r : PkeReq) : Bool :=
  decide (1 ≤ r.count ∧ r.count ≤ 1024 ∧ 64 * r.base + 4 * r.count ≤ 16384)
    && (List.range r.count).all (fun i =>
      let e := macEntry k r.base i
      decide (1 ≤ e % 256 ∧ e % 256 ≤ 9 ∧ e < 2 ^ 24))

/-- A 512-bit slot. -/
def macSlot (m : Mem) (s : Nat) : BitVec 1088 := BitVec.ofNat 1088 (leNat (mbytes m (64 * s) 64))

/-- One step: accumulator, memory, and the slots written, latest first (R641). -/
def wideStep (x : BitVec 1088 × Mem × List (Nat × List Byte)) (e : Nat) : BitVec 1088 × Mem × List (Nat × List Byte) :=
  let (acc, m, ws) := x
  let a := macSlot m (bits e 15 8)
  let b := macSlot m (bits e 23 16)
  match e % 256 with
  | 1 => (0, m, ws)
  | 2 => (a, m, ws)
  | 3 => (a * b, m, ws)
  | 4 => (acc + a * b, m, ws)
  | 5 => (acc - a * b, m, ws)
  | 6 => (acc + a, m, ws)
  | 7 => (acc - a, m, ws)
  | 8 =>
    let bs := leBytes 64 acc.toNat
    (acc, mput m (64 * bits e 15 8) bs, (bits e 15 8, bs) :: ws)
  | _ => (acc.sshiftRight 512, m, ws)

/-- A MAC-mode command as it runs: the steps are those the list held at START. -/
def macRunOf (k : Pke) (r : PkeReq) : PkeRun :=
  if !macOk k r then { code := 1, dur := 4 }
  else
    let es := (List.range r.count).map (macEntry k r.base)
    let (acc, _, ws) := es.foldl wideStep (k.acc, k.mem, [])
    { writes := ws.reverse, acc := some acc, dur := BitVec.ofNat 32 (16 + lsum (es.map (fun e => macCycles (e % 256)))) }

/-! ## Windows (R635) -/

/-- Every choice of `k` positions among `n` slots: which slots hold a real operation. -/
def slotChoices : Nat → Nat → List (List Bool)
  | 0, n => [List.replicate n false]
  | _ + 1, 0 => []
  | k + 1, n + 1 => (slotChoices k n).map (true :: ·) ++ (slotChoices (k + 1) n).map (false :: ·)

/-- Windows of a command's ladder, and slots of each: 768 of 8, three for each of 256 steps, or one of 4 for each bit of MEXP's
exponent (R632, R633). -/
def ladderShape (opc cls : Nat) : Nat × Nat :=
  if opc = 5 then ((pkeClass cls).1, 4) else if opc = 0x10 ∨ opc = 0x11 ∨ opc = 0x12 then (768, 8) else (0, 0)

/-- Real multiplications of window `w`: 2 of MEXP's, a free number of a curve command's. -/
def windowReal (opc w : Nat) : Nat := if opc = 5 then 2 else Config.curveSlots w % 9

/-- The slots of window `w` under a placement seed: true for a real operation, in schedule order, false for a dummy. Number `w` of the
stream picks among every choice of positions. -/
def windowSlots (seed : BitVec 256) (opc cls w : Nat) : List Bool :=
  let cs := slotChoices (windowReal opc w) (ladderShape opc cls).2
  cs.getD (Config.placement seed w % cs.length) []

/-- Dummy multiplications of the first `n` windows. -/
def dummyCount (seed : BitVec 256) (opc cls : Nat) : Nat → Nat
  | 0 => 0
  | n + 1 => dummyCount seed opc cls n + ((windowSlots seed opc cls n).filter (fun b => !b)).length

/-- The internal registers after dummy `i`: two values drawn from the stream behind the positions, and their product. -/
def dummyRegs (seed : BitVec 256) (opc cls i : Nat) : Nat × Nat × Nat :=
  let at_ := (ladderShape opc cls).1 + 2 * i
  let l := 2 ^ (pkeClass cls).1
  let a := Config.placement seed at_ % l
  let b := Config.placement seed (at_ + 1) % l
  (a, b, a * b)

/-- The internal registers after a command: those of the last dummy of its ladder. -/
def ladderRegs (seed : BitVec 256) (opc cls : Nat) : Nat × Nat × Nat :=
  dummyRegs seed opc cls (dummyCount seed opc cls (ladderShape opc cls).1 - 1)

/-! ## Start, end and wipe -/

/-- Whether the PKE is busy for a new START or a DMA: a command runs, or a START waits. -/
def pkeBusy (k : Pke) : Bool := k.run.isSome || k.waitRng.isSome

/-- A started command begins to run: it takes its random bits (R636), the seed of its placement stream first and then, for
ECDSA_SIGN_P256, k′: the next DRBG outputs. -/
def pkeBegin (m : Module) (r : PkeReq) : Module :=
  let n := if pkeRefused r then 0 else pkeNeed r.opc
  let extra := beBytes 32 (Config.drbg (m.hedge.drbgCount + 1)).toNat
  let run := if r.opc = 0x20 then macRunOf m.pke r else pkeRunOf m.pke r extra
  let seed := if r.opc = 0x20 ∨ n = 0 then none else some (Config.drbg m.hedge.drbgCount, r.opc, r.cls)
  let m1 := onPke m (fun k => { k with run := some { run with seed := seed }, waitRng := none, poolBits := k.poolBits - n })
  onHedge m1 (fun h => { h with drbgCount := h.drbgCount + n / 256 })

/-- The command that PKE_CMD, PKE_OPS and PKE_LIST name. -/
def pkeReq (k : Pke) : PkeReq :=
  let o := k.ops.toNat
  { opc := k.opc.toNat, cls := k.cls.toNat, a := bits o 7 0, b := bits o 15 8, c := bits o 23 16, d := bits o 31 24,
    base := k.list.toNat % 256, count := k.list.toNat / 256 }

/-- PKE_GO.START (R627, R629, R637, R638). -/
def pkeStart (m : Module) : Module :=
  let k := m.pke
  let r := pkeReq k
  if pkeBusy k || k.dmaRun.isSome then onPke m (fun k => { k with ignored := true })
  else if r.opc ≠ 0x20 ∧ !pkeRefused r ∧ k.poolBits < pkeNeed r.opc then onPke m (fun k => { k with waitRng := some r })
  else pkeBegin m r

/-- Writes of PKE_CMD, PKE_OPS and PKE_LIST: ignored with IGNORED while BUSY is 1 (R638). -/
def pkeRegs (m : Module) (f : Pke → Pke) : Module :=
  onPke m (fun k => if k.run.isSome then { k with ignored := true } else f k)

/-- A command-mode command: PKE_CMD, PKE_OPS and PKE_GO written. -/
def pkeCommand (m : Module) (opc : BitVec 8) (cls : BitVec 2) (a b c d : BitVec 8) : Module :=
  pkeStart (pkeRegs m (fun k => { k with opc := opc, cls := cls, ops := d ++ c ++ b ++ a }))

/-- MADD. -/
def execMadd (cls : BitVec 2) (a b c d : BitVec 8) (s : State) : Host.Outcome State Fault Refusal :=
  ok s (pkeCommand s.m 0x01 cls a b c d)
/-- MSUB. -/
def execMsub (cls : BitVec 2) (a b c d : BitVec 8) (s : State) : Host.Outcome State Fault Refusal :=
  ok s (pkeCommand s.m 0x02 cls a b c d)
/-- MMUL. -/
def execMmul (cls : BitVec 2) (a b c d : BitVec 8) (s : State) : Host.Outcome State Fault Refusal :=
  ok s (pkeCommand s.m 0x03 cls a b c d)
/-- MINV. -/
def execMinv (cls : BitVec 2) (a b c d : BitVec 8) (s : State) : Host.Outcome State Fault Refusal :=
  ok s (pkeCommand s.m 0x04 cls a b c d)
/-- MEXP. -/
def execMexp (cls : BitVec 2) (a b c d : BitVec 8) (s : State) : Host.Outcome State Fault Refusal :=
  ok s (pkeCommand s.m 0x05 cls a b c d)
/-- ECDSA_SIGN_P256. -/
def execEcdsaSignP256 (cls : BitVec 2) (a b c d : BitVec 8) (s : State) : Host.Outcome State Fault Refusal :=
  ok s (pkeCommand s.m 0x10 cls a b c d)
/-- ECDSA_VERIFY_P256. -/
def execEcdsaVerifyP256 (cls : BitVec 2) (a b c d : BitVec 8) (s : State) : Host.Outcome State Fault Refusal :=
  ok s (pkeCommand s.m 0x11 cls a b c d)
/-- ECDH_P256. -/
def execEcdhP256 (cls : BitVec 2) (a b c d : BitVec 8) (s : State) : Host.Outcome State Fault Refusal :=
  ok s (pkeCommand s.m 0x12 cls a b c d)
/-- POINT_VALIDATE. -/
def execPointValidate (cls : BitVec 2) (a b c d : BitVec 8) (s : State) : Host.Outcome State Fault Refusal :=
  ok s (pkeCommand s.m 0x13 cls a b c d)

/-- MAC_MODE: PKE_CMD, PKE_LIST and PKE_GO written (R641). -/
def execMacMode (base : BitVec 8) (count : BitVec 11) (s : State) : Host.Outcome State Fault Refusal :=
  ok s (pkeStart (pkeRegs s.m (fun k => { k with opc := 0x20, list := count ++ base })))

/-- The running command ends: results written, STATUS, PKE_DUR and PKE_CNT (R630, R634). -/
def pkeDoneStep (m : Module) : Module :=
  match m.pke.run with
  | none => m
  | some r => onPke m (fun k => { k with
      mem := r.writes.foldl (fun t w => mput t (64 * w.1) w.2) k.mem, acc := r.acc.getD k.acc, run := none, done := true,
      code := r.code, failmask := r.failmask, dur := r.dur, cnt := satAdd k.cnt 1,
      dummy := match r.seed with
        | some (s, opc, cls) => ladderRegs s opc cls
        | none => k.dummy })

/-- PKE_DONE. -/
def execPkeDone (s : State) : Host.Outcome State Fault Refusal := ok s (pkeDoneStep s.m)

/-- PKE_WIPE.GO (R638, R640). -/
def pkeWipeStep (m : Module) : Module :=
  onPke m (fun k =>
    if k.run.isSome then { k with ignored := true }
    else if k.dmaRun.isSome then k
    else { k with mem := [], acc := 0, poolBits := 0, wiped := true })

/-- PKE_WIPE. -/
def execPkeWipe (s : State) : Host.Outcome State Fault Refusal := ok s (pkeWipeStep s.m)

/-- The move that PKE_DMA_SRC and PKE_DMA_CTL name. -/
def pkeMove (k : Pke) : PkeMove :=
  let c := k.dmaCtl.toNat
  { addr := k.dmaSrc.toNat, slot := bits c 7 0, nslot := bits c 16 8, toSram := bit c 17 }

/-- Whether a DMA's address and slots are in range: the Hedge SRAM holds 2 MiB (R626, *Memories*). -/
def moveOk (x : PkeMove) : Bool :=
  decide (x.addr % 64 = 0 ∧ 1 ≤ x.nslot ∧ x.slot + x.nslot ≤ 256 ∧ x.addr + 64 * x.nslot ≤ 2 ^ 21)

/-- PKE_DMA_GO.START (R626, R627). -/
def pkeDmaStart (m : Module) : Module :=
  onPke m (fun k =>
    if pkeBusy k || k.dmaRun.isSome || !moveOk (pkeMove k) then { k with dmaRefused := true }
    else { k with dmaRun := some (pkeMove k) })

/-- PKE_DMA: PKE_DMA_SRC, PKE_DMA_CTL and PKE_DMA_GO written. -/
def execPkeDma (addr : BitVec 21) (slot : BitVec 8) (nslot : BitVec 9) (toSram : Bool) (s : State) :
    Host.Outcome State Fault Refusal :=
  ok s (pkeDmaStart (onPke s.m (fun k => { k with
    dmaSrc := addr, dmaCtl := BitVec.ofNat 1 (b2n toSram) ++ nslot ++ slot })))

/-- The running DMA completes. -/
def pkeDmaDoneStep (m : Module) : Module :=
  match m.pke.dmaRun with
  | none => m
  | some x =>
    let n := 64 * x.nslot
    if x.toSram then
      { m with
        hedge := { m.hedge with sram := mput m.hedge.sram x.addr (mbytes m.pke.mem (64 * x.slot) n) },
        pke := { m.pke with dmaRun := none, dmaDone := true } }
    else onPke m (fun k => { k with
      mem := mput k.mem (64 * x.slot) (mbytes m.hedge.sram x.addr n), dmaRun := none, dmaDone := true })

/-- PKE_DMA_DONE. -/
def execPkeDmaDone (s : State) : Host.Outcome State Fault Refusal := ok s (pkeDmaDoneStep s.m)

/-- The random pool refills from the DRBG; a START that waits for the bits begins (R637). -/
def poolStep (m : Module) : Module :=
  if m.pke.poolBits ≥ 1024 then m
  else
    let m1 := onHedge (onPke m (fun k => { k with poolBits := 1024 })) (fun h => { h with drbgGens := h.drbgGens + 1 })
    match m.pke.waitRng with
    | some r => pkeBegin m1 r
    | none => m1

/-- RANDOM_POOL_REFILL. -/
def execRandomPoolRefill (s : State) : Host.Outcome State Fault Refusal := ok s (poolStep s.m)

end Sys2Proof.Machine
end

