-- ==== Sys2Proof/Machine/Mailbox.lean ====
section
/-! DEFINITION. The Hedge mailbox and its commands (R619, R620), lifecycle transitions (R611 to R614), debug tokens and unlock
(R615 to R618), PLDM sensors and firmware update (R621 to R623). -/
namespace Sys2Proof.Machine

/-! ## Tokens -/

/-- *Mailbox status*. -/
def mailBadOpc : Nat := 1
def mailBadLen : Nat := 2
def mailBadState : Nat := 3
def mailSigFail : Nat := 4
def mailNonce : Nat := 5
def mailSerial : Nat := 6
def mailBusyOther : Nat := 7
def mailRevoked : Nat := 8

/-- Whether a token of 128 bytes has the layout of R615. -/
def tokenForm (t : List Byte) : Bool :=
  decide (field t 0 4 = 0x54474244 ∧ field t 4 1 = 1 ∧ (field t 5 1 = 6 ∨ field t 5 1 = 7)
    ∧ bits (field t 6 1) 6 4 = 0) && zeroField t 7 1 && zeroField t 48 16

/-- The checks of a token with its public key, 192 bytes (R617): a mailbox status, 0 when it passes. -/
def tokenCheck (h : Hedge) (t : List Byte) : Nat :=
  let k := field t 5 1
  let pub := (t.drop 128).take 64
  if !tokenForm t then mailSigFail
  else if field t 8 8 ≠ h.fuses.serial.toNat then mailSerial
  else if (match h.nonce with
      | some n => decide ((t.drop 16).take 32 ≠ leBytes 32 n.value.toNat)
      | none => true) then mailNonce
  else if h.fuses.revoke.getLsbD k then mailRevoked
  else if keyHash pub ≠ tget 0 h.fuses.keyhash k then mailSigFail
  else if !sigOk pub (t.take 64) ((t.drop 64).take 64) then mailSigFail
  else 0

/-! ## Lifecycle -/

/-- Whether R612 permits a transition. -/
def lcsPermitted (now target : Nat) : Bool :=
  if now = 1 then decide (target = 2) else decide (2 ≤ now ∧ now < target ∧ target ≤ 5)

/-- The identity certificates region of flash. -/
def identityRegion (flash : Mem) : List Byte := mbytes flash 0x40000 0x10000

/-- Whether a byte string occurs in another, at one of its first `n` offsets. -/
def occursIn (p : List Byte) : Nat → List Byte → Bool
  | 0, _ => false
  | n + 1, bs => decide (bs.take p.length = p) || occursIn p n (bs.drop 1)

/-- Whether the identity region is written with a certificate of the derived IDK: the certificate holds the public key
(R604, R612). -/
def identityMatches (h : Hedge) : Bool := match h.idk with
  | some d =>
    let q := mulP256 d.toNat p256g
    occursIn (beBytes 32 q.1 ++ beBytes 32 q.2) 0x10000 (identityRegion h.flash)
  | none => false

/-- Whether a lifecycle, debug or update operation is in progress (R620). -/
def hedgeBusy (h : Hedge) : Bool := h.lifecycle.isSome || h.update.isSome

/-- The status of an LC_SET (R612, R614). -/
def lcCheck (h : Hedge) (target : Nat) (serial : BitVec 64) (token : List Byte) : Nat :=
  if hedgeBusy h || !lcsPermitted (lcsOf h.fuses) target then mailBadState
  else if target = 2 then
    let c := tokenCheck h token
    if c ≠ 0 then c
    else if !bit (field token 6 1) 7 || !identityMatches h then mailBadState
    else 0
  else if serial ≠ h.fuses.serial then mailSerial
  else 0

/-- The quiesce of a lifecycle transition (R498, R613 step 1): every admitted job is killed and every KEY_LOAD ends with
KL_FORMAT. -/
def lcQuiesce (m : Module) : Module :=
  let m1 := (m.quay.jobs.map (·.1)).foldl (fun m t => killJob m t .killed none) m
  onQuay m1 (fun q => { q with
    qstate := 1, uploads := [], waiting := [],
    compl := q.compl ++ q.uploads.map (fun u => ({ ring := u.ring, cid := u.cid, status := 1 } : Completion)) })

/-- The wipes of R613 step 2: scratchpads, planner SRAM, stacks and PKE memory, the PKE's after DONE of the last command and
of a running DMA (R640). A cluster with an engine that still runs (R667) enters restricted mode when it may (R356). -/
def wipeMemories (m : Module) : Module :=
  let m1 := pkeWipeStep (pkeDmaDoneStep (pkeDoneStep m))
  { m1 with
    clusters := tabOf {} 512 (fun c =>
      let x := clAt m c
      { x with restricted := x.restricted || mayRestrict x, wiping := true }),
    stks := tabOf {} 16 (fun s => { stkAt m s with state := 2, fence := [], rewriteQ := [] }),
    quay := { m1.quay with sram := [], dir := [], replicas := [], plans := [] } }

/-- The fuses of a lifecycle state burnt: both of its pair, and all of UDS for DECOMMISSIONED (R613 step 3). -/
def burnLcs (target : Nat) (f : Fuses) : Fuses :=
  { f with lcs := f.lcs ||| BitVec.ofNat 8 (3 * 4 ^ (target - 2)),
           uds := if target = 5 then BitVec.ofNat 256 (2 ^ 256 - 1) else f.uds }

/-- LIFECYCLE_TRANSITION (R613): after the quiesce, the wipes, the fuses and a cold reset. -/
def lifecycleStep (m : Module) : Module :=
  match m.hedge.lifecycle with
  | some t =>
    if m.quay.qstate ≠ 2 then m
    else
      let m1 := wipeMemories m
      coldReset (onHedge m1 (fun h => { h with fuses := burnLcs t h.fuses, lifecycle := none })) m.ep.perst
  | none => m

/-- LIFECYCLE_TRANSITION. -/
def execLifecycleTransition (s : State) : Host.Outcome State Fault Refusal := ok s (lifecycleStep s.m)

/-! ## Debug -/

/-- The status of a DBG_UNLOCK (R617, R620). -/
def unlockCheck (h : Hedge) (token : List Byte) : Nat :=
  if hedgeBusy h then mailBusyOther
  else if lcsOf h.fuses ≠ 3 ∧ lcsOf h.fuses ≠ 4 then mailBadState
  else tokenCheck h token

/-- An accepted DBG_UNLOCK: every job is killed, the memories wiped, debug open with the token's scopes. -/
def unlockStep (m : Module) (token : List Byte) : Module :=
  let m1 := (m.quay.jobs.map (·.1)).foldl (fun m t => killJob m t .killed none) m
  onHedge (wipeMemories m1) (fun h => { h with debug := true, scope := BitVec.ofNat 8 (field token 6 1) })

/-! ## The mailbox -/

/-- What a mailbox command answers: status, response, what follows its completion (0 nothing, 1 a warm reset, 2 the quiesce
of a transition), and the module after its effects. -/
structure MailRun where
  code : Nat
  resp : List Byte := []
  after : Nat := 0
  m : Module

/-- Mailbox commands that run in a boot state (R601, R657). -/
def mailServed (b : Boot) (opc : Nat) : Bool := match b with
  | .running => true
  | .recovery => [1, 2, 0x30].contains opc
  | .restMonitor => decide (opc = 1)
  | _ => false

/-- Request lengths that a command takes. -/
def mailLenOk (opc len : Nat) : Bool := match opc with
  | 0x02 => decide (len = 4)
  | 0x10 => decide (len = 9 ∨ len = 201)
  | 0x21 => decide (len = 192)
  | 0x30 => true
  | _ => decide (len = 0)

/-- The bytes that LOG_READ returns from a log offset. -/
def logSlice (flash : Mem) (off : Nat) : List Byte :=
  mbytes flash (0x1000000 + off) (min 4096 (0x1000000 - off))

/-- A fresh free byte string of at most `n` bytes. -/
def takeBytes (m : Module) (n : Nat) : List Byte × Module :=
  ((Config.freeBytes m.free ++ zeros n).take n, { m with free := m.free + 1 })

/-- One command with its request (*Mailbox commands*). An LC_SET request is the target state, SERIAL, then token and
public key. -/
def mailRun (m : Module) (opc : Nat) (req : List Byte) : MailRun :=
  let h := m.hedge
  match opc with
  | 0x01 =>
    let (b, m1) := takeBytes m 64
    { code := 0, resp := b, m := m1 }
  | 0x02 => { code := 0, resp := logSlice h.flash (field req 0 4), m := m }
  | 0x10 =>
    let t := field req 0 1
    let c := lcCheck h t (BitVec.ofNat 64 (field req 1 8)) (req.drop 9)
    let m1 := if req.length > 9 then onHedge m (fun h => { h with nonce := none }) else m
    if c = 0 then { code := 0, after := 2, m := onHedge m1 (fun h => { h with lifecycle := some t }) }
    else { code := c, m := m1 }
  | 0x20 =>
    if hedgeBusy h then { code := mailBusyOther, m := m }
    else
      let n := Config.drbg h.drbgCount
      { code := 0, resp := leBytes 32 n.toNat,
        m := onHedge m (fun h => { h with
          nonce := some { value := n }, drbgCount := h.drbgCount + 1, drbgGens := h.drbgGens + 1 }) }
  | 0x21 =>
    let c := unlockCheck h req
    let m1 := onHedge m (fun h => { h with nonce := none })
    if c = 0 then { code := 0, m := unlockStep m1 req } else { code := c, m := m1 }
  | 0x22 => if hedgeBusy h then { code := mailBusyOther, m := m } else { code := 0, after := 1, m := m }
  | _ =>
    let (b, m1) := takeBytes m 4096
    { code := 0, resp := b.take (Config.freeBytes m.free).length, m := m1 }

/-- Whether a command code is listed. -/
def mailKnown (opc : Nat) : Bool := [1, 2, 0x10, 0x20, 0x21, 0x22, 0x30].contains opc

/-- HMB_GO: the command that HMB_CMD and HMB_DATA hold starts; while one runs the write is ignored (R619). -/
def mailGo (m : Module) : Module :=
  let h := m.hedge
  if h.mail.isSome || !alive m then m
  else
    let opc := h.hmbOpc.toNat
    let r : MailRun :=
      if !mailKnown opc then { code := mailBadOpc, m := m }
      else if !mailServed h.boot opc then { code := mailBadState, m := m }
      else if !mailLenOk opc h.hmbLen.toNat then { code := mailBadLen, m := m }
      else mailRun m opc (mbytes h.hmbData 0 h.hmbLen.toNat)
    onHedge r.m (fun h => { h with mail := some { code := BitVec.ofNat 8 r.code, resp := r.resp, after := r.after } })

/-- HMB_CMD and HMB_DATA written, unless a command runs. -/
def mailWrite (m : Module) (opc : BitVec 8) (req : List Byte) : Module :=
  if m.hedge.mail.isSome then m
  else onHedge m (fun h => { h with
    hmbOpc := opc, hmbLen := BitVec.ofNat 13 req.length, hmbData := mput h.hmbData 0 req })

/-- A mailbox command: HMB_CMD, HMB_DATA and HMB_GO written (R580). -/
def mailCommand (m : Module) (opc : BitVec 8) (req : List Byte) : Module :=
  bar0 m (fun m => mailGo (mailWrite m opc (req.take 4096)))

/-- INFO. -/
def execInfo (s : State) : Host.Outcome State Fault Refusal := ok s (mailCommand s.m 0x01 [])
/-- LOG_READ. -/
def execLogRead (off : Word) (s : State) : Host.Outcome State Fault Refusal :=
  ok s (mailCommand s.m 0x02 (leBytes 4 off.toNat))
/-- LC_SET. -/
def execLcSet (target : BitVec 8) (serial : BitVec 64) (token : List Byte) (s : State) :
    Host.Outcome State Fault Refusal :=
  ok s (mailCommand s.m 0x10 (leBytes 1 target.toNat ++ leBytes 8 serial.toNat ++ token))
/-- DBG_CHAL. -/
def execDbgChal (s : State) : Host.Outcome State Fault Refusal := ok s (mailCommand s.m 0x20 [])
/-- DBG_UNLOCK. -/
def execDbgUnlock (token : List Byte) (s : State) : Host.Outcome State Fault Refusal := ok s (mailCommand s.m 0x21 token)
/-- DBG_LOCK. -/
def execDbgLock (s : State) : Host.Outcome State Fault Refusal := ok s (mailCommand s.m 0x22 [])
/-- PLDM. -/
def execPldm (request : List Byte) (s : State) : Host.Outcome State Fault Refusal := ok s (mailCommand s.m 0x30 request)

/-- The response in HMB_DATA, then DONE with GLB_EVT bit 5 and vector 511 (R564, R619). -/
def mailFinish (m : Module) (x : Mail) : Module :=
  let m1 := onHedge m (fun h => { h with
    mail := none, hmbData := mput h.hmbData 0 x.resp, hmbDone := true, hmbCode := x.code,
    hmbRlen := BitVec.ofNat 13 x.resp.length })
  let m2 := raiseEvt m1 5
  if m.hedge.hmbIen then signalVec m2 511 else m2

/-- MAILBOX_DONE (R619): after a DBG_LOCK the warm reset, after an LC_SET step 1 of R613. -/
def mailDoneStep (m : Module) : Module :=
  match m.hedge.mail with
  | none => m
  | some x =>
    let m1 := mailFinish m x
    if x.after = 1 then warmResetStep m1 true else if x.after = 2 then lcQuiesce m1 else m1

/-- MAILBOX_DONE. -/
def execMailboxDone (s : State) : Host.Outcome State Fault Refusal := ok s (mailDoneStep s.m)

/-! ## PLDM over the sideband -/

/-- The value of a type 2 sensor: 0 to 7 die temperatures, 8 to 23 stack temperatures, 24 module power (R621). -/
def sensorValue (m : Module) (n : Nat) : Option Nat :=
  if n < 8 then some (dieAt m n).temp.toNat
  else if n < 24 then some (stkAt m (n - 8)).temp.toNat
  else if n = 24 then some m.quay.power.toNat
  else none

/-- PLDM_SENSOR_READ: served in every boot state (R620, R657). -/
def sensorStep (m : Module) (n : Nat) : Module :=
  if alive m then onHedge m (fun h => { h with sensor := sensorValue m n }) else m

/-- PLDM_SENSOR_READ. -/
def execPldmSensorRead (sensor : Nat) (s : State) : Host.Outcome State Fault Refusal := ok s (sensorStep s.m sensor)

/-- Whether firmware serves update requests: it runs, or the module is in recovery (R601, R657). -/
def updateServed (m : Module) : Bool := decide (m.hedge.boot = .running ∨ m.hedge.boot = .recovery)

/-- PLDM_UPDATE_DATA (R622): image bytes for the slot that the directory does not name as active; the first bytes begin the
update, unless another operation is in progress (R620). -/
def updateDataStep (m : Module) (off : Nat) (bs : List Byte) : Module :=
  let h := m.hedge
  if !updateServed m || h.lifecycle.isSome || decide (off + bs.length > 2097152) then m
  else
    let slot := match h.update with
      | some u => u.slot
      | none => 1 - activeSlot h.flash
    onHedge m (fun h => { h with
      update := some { slot := slot, verified := false }, flash := mput h.flash (slotBase slot + off) bs })

/-- PLDM_UPDATE_DATA. -/
def execPldmUpdateData (off : Nat) (bytes : List Byte) (s : State) : Host.Outcome State Fault Refusal :=
  ok s (updateDataStep s.m off bytes)

/-- VERIFY_COMPLETE: the written image is accepted when it passes every check of R593 (R622). -/
def verifyStep (m : Module) : Module :=
  match m.hedge.update with
  | some u => if updateServed m then onHedge m (fun h => { h with
      update := some { u with verified := decide (imageCheck h.fuses h.flash u.slot = 0) } }) else m
  | none => m

/-- VERIFY_COMPLETE. -/
def execVerifyComplete (s : State) : Host.Outcome State Fault Refusal := ok s (verifyStep s.m)

/-- ACTIVATE_FIRMWARE: the directory names the accepted image's slot (R591, R622). -/
def activateStep (m : Module) : Module :=
  match m.hedge.update with
  | some u =>
    if updateServed m && u.verified then
      onHedge m (fun h => { h with update := none, flash := setDirectory h.flash u.slot }) else m
  | none => m

/-- ACTIVATE_FIRMWARE. -/
def execActivateFirmware (s : State) : Host.Outcome State Fault Refusal := ok s (activateStep s.m)

/-- CANCEL_UPDATE (R623). -/
def execCancelUpdate (s : State) : Host.Outcome State Fault Refusal := ok s (onHedge s.m dropUpdate)

end Sys2Proof.Machine
end

