-- ==== Sys2Proof/Machine/Nte.lean ====
section
/-! DEFINITION. The NTT engine (R171 to R177) with its chains (R200, R201, R218), and the modulus table (R165 to R167). -/
namespace Sys2Proof.Machine

/-- The input words of a limb, or the digits of GDECOMP (R201, R120, R121): values, DOMAIN words, and whether the whole
limb has no value. -/
structure LimbIn where
  vs : List Nat
  reads : List Nat
  r : Raised := {}
  bad : Bool := false
  checked : Bool := true

/-- The digits of the pair at SRC + j and SRC + SIDE_SN + j. -/
def gdecompIn (c : Cluster) (o : RunOp) (t : NteCfg) (s : Stage) (q : Nat) : LimbIn :=
  let n := 2 ^ t.logn
  let ea := entOf o (s.imm1 % 256)
  let eb := entOf o (s.imm1 / 256 % 256)
  let ra := scrRun c o.zeroRows (t.src % 2 ^ 21) n
  let rb := scrRun c o.zeroRows (t.src % 2 ^ 21 + s.sn) n
  let rd := (List.range n).flatMap (fun j => [t.src % 2 ^ 21 + j, t.src % 2 ^ 21 + s.sn + j])
  let qa := ea.q.toNat
  let qb := eb.q.toNat
  if !ea.valid ∨ !eb.valid ∨ (crtPair qa qb 0 0).isNone then
    { vs := List.replicate n 0, reads := rd, r := { modInvalid := true }, bad := true }
  else
    let w := s.imm0 % 32
    let l := bits s.imm0 11 8
    let i := bits s.imm0 19 16
    let one (a b : Word) : Nat × Bool :=
      if a.toNat ≥ qa ∨ b.toNat ≥ qb then (0, true)
      else (intMod q (digitOf (qa * qb) w l ((crtPair qa qb a.toNat b.toNat).getD 0) i), false)
    let ds := List.zipWith one ra rb
    let dom := ds.any (·.2)
    { vs := ds.map (·.1), reads := rd, r := { chnDomain := dom, stage := if dom then some 0 else none }, checked := false }

/-- The input of limb `i`. The words are compared with q (R173) unless the first stage is CLIFT or GDECOMP: the words then
belong to another prime, and the stage settles each against that prime (R196 leaves open which words R173 compares when a
prologue stands before the transform: DESIGN CHOICE, log entry 104). -/
def limbIn (c : Cluster) (o : RunOp) (t : NteCfg) (i q : Nat) : LimbIn :=
  match nteGdecomp t with
  | some s => gdecompIn c o t s q
  | none =>
    let a := t.src % 2 ^ 21 + i * t.stride
    { vs := (scrRun c o.zeroRows a (2 ^ t.logn)).map (·.toNat), reads := (List.range (2 ^ t.logn)).map (a + ·),
      checked := !(decide ((t.chain.pro.headD noStage).op = 0x02)) }

/-- Stages over the words of a limb. -/
def limbStages (c : Cluster) (o : RunOp) (t : NteCfg) (e : ModEntry) (i i0 : Nat) (ss : List Stage) (vs : List Nat) :
    List Nat × Raised × List Nat :=
  let rs := vs.zipIdx.map (fun p =>
    resStages c o { ent := e, logn := t.logn, g := 0, n := i, m := p.2, j := p.2, cidx := i } i0 ss p.1)
  (rs.map (·.1), rs.foldl (fun r x => r.and x.2.1) {}, if ss = [] then [] else rs.flatMap (·.2.2))

/-- One limb of an NTE operation. An entry that is valid but too small for the ring (R170) still has a prime, and the words
are compared with it (R173). -/
def nteLimb (o : RunOp) (t : NteCfg) (x : OpOut) (i : Nat) : OpOut :=
  let c := x.c
  let n := 2 ^ t.logn
  let e := entOf o (t.midx + i * t.mstep)
  let q := e.q.toNat
  let dst := t.dst % 2 ^ 21 + i * t.stride
  let zero (x : OpOut) : OpOut := x.putRun dst (List.replicate n 0)
  let above (v : Nat) : Bool := e.valid && decide (v ≥ q)
  let inp := limbIn c o t i q
  let fa := t.caddr % 2 ^ 21 + i
  let f := if t.cmul then (scrWord c o.zeroRows fa).toNat else 1
  let rd := inp.reads ++ (if t.cmul then [fa] else [])
  let dom := (inp.checked && inp.vs.any above) || (t.cmul && above f)
  if !entFor e t.logn then zero (x.see { modInvalid := true, domain := dom } rd)
  else if inp.bad then zero (x.see inp.r rd)
  else
    let pro := if (nteGdecomp t).isSome then t.chain.pro.drop 1 else t.chain.pro
    let (a, r1, rd1) := limbStages c o t e i (t.chain.npro - pro.length) pro inp.vs
    -- a limb with a DOMAIN word has no transform: the anchor gives 0 to the epilogue (R173, R225)
    let b := if dom then List.replicate n 0
      else if t.op = 0 then nttFwd q (psiN e t.logn) t.logn f a else nttInv q (psiInvN e t.logn) t.logn f a
    let (z, r2, rd2) := limbStages c o t e i t.chain.npro t.chain.epi b
    let r := (inp.r.and { domain := dom }).and ((if dom then {} else r1).and r2)
    let y := x.see r (rd ++ rd1 ++ rd2)
    if r.dead then zero y else y.putRun dst (z.map (BitVec.ofNat 32))

/-- The work of an NTE operation: its limbs in ascending order. A GDECOMP in place reads for every limb what the limbs before it have
written (R175, R201; DESIGN CHOICE, log entry 143). -/
def nteRun (c : Cluster) (o : RunOp) : OpOut :=
  let t := nteCfg o.regs
  (List.range t.count).foldl (nteLimb o t) { c := c }

/-- An NTE operation of kind `op` (0 FWD, 1 INV) does its work. -/
def nteStep (m : Module) (cl op : Nat) : Module :=
  let c := clAt m cl
  match c.nte.run with
  | some o => if !o.done ∧ (nteCfg o.regs).op = op then opEffect m cl .nte o (nteRun c o) true else m
  | none => m

/-- NTE_FWD. -/
def execNteFwd (cl : Fin 512) (s : State) : Host.Outcome State Fault Refusal := ok s (nteStep s.m cl 0)

/-- NTE_INV. -/
def execNteInv (cl : Fin 512) (s : State) : Host.Outcome State Fault Refusal := ok s (nteStep s.m cl 1)

/-- NTE_DONE. -/
def execNteDone (cl : Fin 512) (s : State) : Host.Outcome State Fault Refusal := ok s (opDone s.m cl .nte)

/-- A write to word 3 of a modulus table entry over the Towpath starts its validation (R166). -/
def modValidateStep (m : Module) (cl i : Nat) (w : Word) : Module :=
  onCl m cl (fun c => { c with mods := modTabWrite c.mods (4 * i + 3) w })

/-- MODULUS_ENTRY_VALIDATE. -/
def execModulusEntryValidate (cl : Fin 512) (entry : Fin 256) (word3 : Word) (s : State) :
    Host.Outcome State Fault Refusal := ok s (modValidateStep s.m cl entry word3)

/-- The checks of R166. -/
def modOk (e : ModEntry) : Bool :=
  let q := e.q.toNat
  let ne := e.ne.toNat
  decide (q % 2 = 1 ∧ q > 2 ^ 19 ∧ 10 ≤ ne ∧ ne ≤ 17 ∧ e.psi.toNat < q ∧ e.psiinv.toNat < q)
    && decide (powMod q e.psi.toNat (2 ^ ne) = q - 1) && decide (e.psi.toNat * e.psiinv.toNat % q = 1)

/-- An entry when its validation completes: VALID takes the outcome (R166, R167). A write to word 0, 1 or 2 while the validation
runs does not cancel it, and the checks judge the values as they stand at completion: the spec says neither (DESIGN CHOICE,
log entry 105). -/
def modDone (e : ModEntry) : ModEntry := if e.busy then { e with busy := false, valid := modOk e } else e

/-- The validation of entry `i` completes. -/
def modDoneStep (m : Module) (cl i : Nat) : Module :=
  onCl m cl (fun c => { c with mods := tmod {} c.mods i modDone })

/-- MODULUS_VALIDATION_DONE. -/
def execModulusValidationDone (cl : Fin 512) (entry : Fin 256) (s : State) : Host.Outcome State Fault Refusal :=
  ok s (modDoneStep s.m cl entry)

end Sys2Proof.Machine
end

