-- ==== Sys2Proof/Machine/HandPlan.lean ====
section
/-! DEFINITION. Hand plans: the image (R428), the resources it declares, and the checks of the planner (R429). -/
namespace Sys2Proof.Machine

/-! ## Resources in range -/

/-- Whether what a cluster entry holds is in range (R22, R312, R428) on a cluster in service. -/
def clHoldOk (fenced : List Nat) (h : ClHold) : Bool :=
  decide (h.cl < 512) && !fenced.contains h.cl
    && decide (h.row0 + h.rows ≤ Config.sliceRows ∧ h.queue0 + h.queues ≤ 64 ∧ h.flag0 + h.flags ≤ 256
      ∧ h.pair0 + h.pairs ≤ 32 ∧ h.frames ≤ 1024)
    && decide (h.frames = 0 ∨ windowBase h + 1024 * h.frames ≤ 64 * (h.row0 + h.rows))

/-- Whether what a die entry holds is in range: its region lies on one of the die's own stacks, clear of the region of R20. -/
def dieHoldOk (h : DieHold) : Bool :=
  decide (h.die < 8 ∧ h.pool0 + h.pools ≤ 1024 ∧ h.desc0 + h.descs ≤ 4096)
    && decide (h.regionMiB = 0 ∨ (stkOf h.region / 2 = h.die ∧ h.region % 64 = 0
      ∧ stkOff h.region + h.regionMiB * 2 ^ 20 ≤ Config.planRegion))

/-- The clusters that take no new plan (R424, R699): fenced, or to be tested after an uncorrectable read. -/
def outOfService (m : Module) : List Nat := m.hedge.fenceMask ++ m.hedge.testing

/-- The clusters that the fence mask counts (R409, R699): those of the margin record, and those whose march test runs. -/
def fencedNow (m : Module) : List Nat := m.hedge.fenceMask ++ m.hedge.marching

/-! ## The image -/

/-- Cluster entry `i` of an image. -/
def handCluster (b : List Byte) (i : Nat) : ClHold :=
  let e := entryAt b (field b 16 8) 32 i
  { cl := field e 0 2, row0 := field e 2 2, rows := field e 4 2, queue0 := field e 6 1, queues := field e 7 1,
    flag0 := field e 8 1, flags := field e 10 2, pair0 := field e 12 1, pairs := field e 13 1, frames := field e 14 2,
    stream := wordsOf ((b.drop (field e 16 8)).take (field e 24 4)) }

/-- Die entry `d` of an image. -/
def handDie (b : List Byte) (d : Nat) : DieHold :=
  let e := entryAt b (field b 24 8) 32 d
  { die := d, pool0 := field e 0 2, pools := field e 2 2, desc0 := field e 4 2, descs := field e 6 2, region := field e 8 8,
    regionMiB := field e 16 4, ferry := (b.drop (field e 24 8)).take (field e 20 4) }

/-- The key sets that an image names. -/
def handKsids (b : List Byte) : List Nat := (List.range 4).map (fun i => field b (32 + 8 * i) 8)

/-- Format of the header and of the tables' places (R428). -/
def handForm (b : List Byte) (glen : Nat) : Bool :=
  let ncl := field b 6 2
  decide (128 ≤ b.length ∧ field b 0 4 = 0x4E4C5048 ∧ field b 4 2 = 1 ∧ 1 ≤ ncl ∧ ncl ≤ 512 ∧ field b 8 8 = glen
    ∧ b.length = glen ∧ field b 16 8 + 32 * ncl ≤ glen ∧ field b 24 8 + 256 ≤ glen) && zeroField b 72 56

/-- Format of cluster entry `i`: reserved bytes zero, and a stream of whole words inside the image. -/
def handClForm (b : List Byte) (i : Nat) : Bool :=
  let e := entryAt b (field b 16 8) 32 i
  zeroField e 9 1 && zeroField e 28 4 && decide (field e 10 2 ≤ 256 ∧ field e 14 2 ≤ 1024 ∧ field e 24 4 % 4 = 0
    ∧ field e 16 8 + field e 24 4 ≤ b.length)

/-- Format of die entry `d`: its Ferry list lies inside the image. -/
def handDieForm (b : List Byte) (d : Nat) : Bool :=
  let e := entryAt b (field b 24 8) 32 d
  decide (field e 20 4 = 0 ∨ field e 24 8 + field e 20 4 ≤ b.length)

/-- HCRC and BCRC. -/
def handCrc (b : List Byte) : Bool :=
  decide (crc32c (b.take 68) = field b 68 4) && decide (crc32c (b.drop 128) = field b 64 4)

/-! ## Blocks fixed at load -/

/-- What is known of the pending sets and read-port controls along a stream: for each engine the words that a LOAD gave as
literals, none for a word a reference gave, and the current stream engine. -/
structure Fixed where
  cfg : List (Nat × Nat × Option Word) := []
  rix : List (Nat × Option Word) := []
  ste : Option Nat := none
  deriving DecidableEq, Repr

/-- The latest value of word `w` of engine `e`: none when no LOAD has given it as a literal. -/
def Fixed.word (f : Fixed) (e w : Nat) : Option Word :=
  match f.cfg.find? (fun p => decide (p.1 = e ∧ p.2.1 = w)) with
  | some p => p.2.2
  | none => none

/-- A LOAD seen in a stream (R442, R443, R732, R733); word 0 of a loaded set names the stream engine, whose set it then is. -/
def Fixed.load (f : Fixed) (eng regw : Nat) (data : List (Word × Bool)) : Fixed :=
  let cur := if eng = 4 ∧ regw = 0 then (match data with
      | (v, false) :: _ => some (v.toNat % 16)
      | _ => none) else f.ste
  data.zipIdx.foldl (fun f p =>
    let w := regw + p.2
    if eng ≤ 2 ∧ ¬(eng = 0 ∧ w ≥ 0x100) then
      { f with cfg := (eng, w, if p.1.2 then none else some (maskW p.1.1 (cfgMask eng w))) :: f.cfg }
    else if eng = 4 then
      { f with ste := cur, cfg := (4, 8 * cur.getD 0 + w, if p.1.2 || cur.isNone then none else some (maskW p.1.1 (sdMask w))) :: f.cfg }
    else if eng = 3 ∧ 0x180 ≤ w ∧ w < 0x1C0 then
      { f with rix := (4 * ((w - 0x180) % 4) + (w - 0x180) / 4, if p.1.2 then none else some p.1.1) :: f.rix }
    else f) f

/-- The words of an engine's block that are fixed, as a set of registers. -/
def Fixed.regs (f : Fixed) (e n : Nat) : Tab Word :=
  (List.range n).foldl (fun t w => match f.word e w with
    | some v => tset 0 t w v
    | none => t) []

/-- Words of an engine's window that its block takes, its chain stages among them. -/
def blockWords (e : Nat) (regs : Tab Word) : List Nat :=
  let n := (chainOf regs).stages.length
  let chain := 0x20 :: (if n = 0 then [] else 0x21 :: (List.range (8 * n)).filterMap (fun i => if i % 8 = 7 then none else some (0x28 + i)))
  if e = 0 then List.range 6 ++ chain else if e = 1 then List.range 18 ++ chain else List.range 0x24

/-- Whether a block is fixed at load: every word of it is a literal, and so are the read-port controls in force. -/
def Fixed.block (f : Fixed) (e : Nat) : Option (Tab Word × Tab Word) :=
  let regs := f.regs e 0x68
  let rix := f.rix.reverse.foldl (fun t p => tset 0 t p.1 (p.2.getD 0)) ([] : Tab Word)
  if (blockWords e regs).all (fun w => (f.word e w).isSome) && f.rix.all (fun p => p.2.isSome) then some (regs, rix) else none

/-- The loaded set that a START of the current stream engine takes, when all of it is fixed. -/
def Fixed.set (f : Fixed) : Option (List Word) := f.ste.bind (fun s =>
  let ws := (List.range 8).map (fun i => f.word 4 (8 * s + i))
  if ws.all (·.isSome) then some (ws.map (·.getD 0)) else none)

/-- The registers of an engine's block with `v` in the place of every word that is not fixed. -/
def Fixed.filled (f : Fixed) (e : Nat) (v : Word) : Tab Word :=
  let regs := f.regs e 0x68
  (blockWords e regs).foldl (fun t w => if (f.word e w).isSome then t else tset 0 t w v) regs

/-- The port controls along a stream, 0 where a reference gave them. -/
def Fixed.ports (f : Fixed) : Tab Word := f.rix.reverse.foldl (fun t p => tset 0 t p.1 (p.2.getD 0)) []

/-- The ranges of a block that no reference touches: those that stay the same whatever word stands for the references (R429). -/
def Fixed.ranges (f : Fixed) (e : Nat) : List Declared1 :=
  let a := opRanges (engOfNo e) (f.filled e 0) f.ports
  let b := opRanges (engOfNo e) (f.filled e 64) f.ports
  let c := opRanges (engOfNo e) (f.filled e 0x1FC0) f.ports
  if a.length = b.length ∧ b.length = c.length then
    ((a.zip (b.zip c)).filter (fun p => decide (p.1 = p.2.1 ∧ p.1 = p.2.2))).map (·.1)
  else []

/-- Whether a span lies in the rows that a cluster entry holds. -/
def spanHeld (h : ClHold) (s : Span) : Bool :=
  decide (h.cl * 2 ^ 21 + 64 * h.row0 ≤ s.lo ∧ s.hi < h.cl * 2 ^ 21 + 64 * (h.row0 + h.rows))

/-- Whether rows lie among those that a cluster entry holds. -/
def rowsHeld (h : ClHold) (r n : Nat) : Bool := decide (h.row0 ≤ r ∧ r + n ≤ h.row0 + h.rows)

/-- Whether the landing pairs that a LOAD gives as literals lie in the rows held. -/
def pairsHeld (h : ClHold) (eng regw : Nat) (data : List (Word × Bool)) : Bool :=
  data.zipIdx.all (fun p =>
    let w := regw + p.2
    if eng = 3 ∧ 0x1C0 ≤ w ∧ w < 0x200 ∧ w % 2 = 0 ∧ bit p.1.1.toNat 31 = true ∧ p.1.2 = false then
      match data[p.2 + 1]? with
      | some (n, false) => rowsHeld h (bits p.1.1.toNat 14 0) (bits n.toNat 14 0) && rowsHeld h (bits p.1.1.toNat 29 15) (bits n.toNat 14 0)
      | _ => true
    else true)

/-- Whether the rows that a SEALC lists lie in the rows held. -/
def sealRowsHeld (h : ClHold) (ws : List Word) : Bool :=
  ((ws.drop 4).take (lenOf ws - 3)).all (fun w => rowsHeld h (bits w.toNat 14 0) (bits w.toNat 29 15))

/-- The check number that the stream of a cluster entry fails (5 a block its engine refuses, 6 an address outside the rows
held), 0 for none: the instructions in their order, each block tested where a START takes it. -/
def streamFault (h : ClHold) : Nat → Fixed → List Word → Nat
  | 0, _, _ => 0
  | f + 1, k, ws =>
    match ws with
    | [] => 0
    | hd :: _ =>
      let len := 1 + bits hd.toNat 15 8
      let op := hd.toNat % 256
      let arg := argOf ws
      let rest := ws.drop len
      if op = 0x01 then
        match loadGroups 8 ((ws.drop 1).take (lenOf ws)) with
        | some d => if pairsHeld h (arg % 16) (arg / 16) d then streamFault h f (k.load (arg % 16) (arg / 16) d) rest else 6
        | none => streamFault h f k rest
      else if op = 0x02 ∧ arg % 16 ≤ 2 then
        let e := engOfNo (arg % 16)
        match k.block (arg % 16) with
        | some (regs, rix) =>
          if (opRefused h.cl e regs rix).isSome then 5
          else if (opRanges e regs rix).any (fun r => !spanHeld h r.1) then 6
          else streamFault h f k rest
        | none => if (k.ranges (arg % 16)).any (fun r => !spanHeld h r.1) then 6 else streamFault h f k rest
      else if op = 0x02 ∧ arg % 16 = 4 then
        match k.set with
        | some s => if (ssetOf s).rep = 0 then 5 else streamFault h f k rest
        | none => streamFault h f k rest
      else if op = 0x0C ∧ sealRowsHeld h ws = false then 6
      else streamFault h f k rest

/-! ## Ferry lists -/

/-- Whether a Ferry command meets the parts of R730 that need no page. -/
def ferryCmdOk (die : Nat) (cls : List ClHold) (c : FerryCmd) : Bool :=
  if c.op = 2 then decide (c.res = 0 ∧ c.ndlv ≠ 0 ∧ c.nrow ≠ 0)
  else decide (c.op = 1 ∧ c.ndlv ≠ 0 ∧ c.nrow ≠ 0 ∧ c.res = 0 ∧ c.cl < 64 ∧ c.waddr % 1024 = 0 ∧ c.slot % 4096 = 0 ∧ c.slot / 2 ^ 38 = die)
    && (match cls.find? (fun h => decide (h.cl = 64 * die + c.cl ∧ h.frames ≠ 0)), landWord die c with
      | some h, some a => decide (windowBase h ≤ a ∧ a + 1024 * c.nrow ≤ windowBase h + 1024 * h.frames)
      | _, _ => false)

/-- Whether a die's Ferry list passes its three checks (R429). -/
def ferryListOk (cls : List ClHold) (d : DieHold) : Bool :=
  let n := d.ferry.length / 32
  d.ferry = [] || (decide (d.ferry.length % 32 = 0)
    && (List.range n).all (fun i => match ferryCmd d.ferry i with
      | some c => ferryCmdOk d.die cls c
      | none => false)
    && (match ferryCmd d.ferry (n - 1) with
      | some c => decide (c.op = 2)
      | none => false))

/-! ## Validation -/

/-- A hand plan that has passed: what it holds and the key sets it names. -/
structure HandPlan where
  clusters : List ClHold
  dies : List DieHold
  ksids : List (BitVec 64)
  deriving DecidableEq, Repr

/-- The checks of R429 in order: 1 format, 2 CRC, 3 key sets, 4 resources, 5 configuration blocks, 6 addresses, 7 Ferry lists.
The entry at fault is the cluster entry, NCL + the die, or the key set's place. -/
def handCheck (b : List Byte) (glen : Nat) (dir : List KeySet) (fenced : List Nat) : Except Reject HandPlan :=
  let bad (c d : Nat) : Except Reject HandPlan := .error { status := 0x1A, check := c, detail := d }
  let ncl := field b 6 2
  if !handForm b glen then bad 1 0
  else match firstIdx (fun i => !handClForm b i) (List.range ncl), firstIdx (fun d => !handDieForm b d) (List.range 8) with
    | some i, _ => bad 1 i
    | none, some d => bad 1 (ncl + d)
    | none, none =>
      let cls := (List.range ncl).map (handCluster b)
      let dies := (List.range 8).map (handDie b)
      if !handCrc b then bad 2 0
      else match firstIdx (fun k => decide (k ≠ 0) && (keySetOf dir k).isNone) (handKsids b) with
        | some i => bad 3 i
        | none =>
          match firstIdx (fun p => !clHoldOk fenced p.1 || (cls.take p.2).any (fun h => decide (h.cl = p.1.cl))) cls.zipIdx,
              firstIdx (fun h => !dieHoldOk h) dies with
          | some i, _ => bad 4 i
          | none, some d => bad 4 (ncl + d)
          | none, none =>
            let faults := cls.map (fun h => streamFault h (h.stream.length + 1) {} h.stream)
            match firstIdx (fun x => decide (x = 5)) faults, firstIdx (fun x => decide (x = 6)) faults,
                firstIdx (fun d => !ferryListOk cls d) dies with
            | some i, _, _ => bad 5 i
            | none, some i, _ => bad 6 i
            | none, none, some d => bad 7 (ncl + d)
            | none, none, none =>
              .ok { clusters := cls, dies := dies, ksids := ((handKsids b).filter (· ≠ 0)).map (BitVec.ofNat 64) }

end Sys2Proof.Machine
end

