-- ==== Sys2Proof/Machine/Timeline.lean ====
section
/-! DEFINITION. The timeline of a plan as its streams and Ferry lists give it: the planned a-cycle of every command (R400, R436), the
time bounds of the primitives (R106), the wait graph and its proof (R402), the schedule entries (R426), and what the planner keeps to
in every command (R131, R168, R277, R282, R283, R288, R312, R331, R397, R468, R508). -/
namespace Sys2Proof.Machine

/-! ## Unrolled streams -/

/-- The instructions of a stream as they stand, a loop with its body as one. -/
def topLevel : Nat → List Word → List (List Word)
  | 0, _ => []
  | f + 1, ws =>
    match ws with
    | [] => []
    | hd :: _ =>
      let ins := ws.take (1 + bits hd.toNat 15 8)
      let rest := ws.drop (1 + bits hd.toNat 15 8)
      ins :: topLevel f (if hd.toNat % 256 = 0x09 then rest.drop (wd ins 2) else rest)

/-! ## What is known along a stream -/

/-- What the plan fixes at a point of a stream: the parameter registers, the landing pairs, the blocks that LOADs gave, and the planned
a-cycle. -/
structure Known where
  params : Tab (BitVec 64) := []
  lp : Tab Word := []
  fixed : Fixed := {}
  tmark : Nat := 0

/-- The value of a reference word (R444) as far as the plan fixes it: a parameter, or a landing pair; a handle is known only at run
time. -/
def Known.ref (k : Known) (cl : Nat) (w : Word) : Option Word :=
  let idx := w.toNat % 256
  let src := bits w.toNat 9 8
  let disp := BitVec.ofInt 32 (signed 22 (w.toNat / 1024))
  if src ≤ 1 then some (BitVec.ofNat 32 ((tget (0 : BitVec 64) k.params idx).toNat / 2 ^ (32 * src)) + disp)
  else if src = 3 then
    let w0 := (tget (0 : Word) k.lp (2 * (idx % 32))).toNat
    let half1 := bit w0 30 != bit idx 5
    if bit w0 31 then some (BitVec.ofNat 32 (cl * 2 ^ 21 + 64 * (if half1 then bits w0 29 15 else bits w0 14 0)) + disp) else none
  else none

/-- A LOAD along a stream. -/
def Known.load (k : Known) (cl : Nat) (ins : List Word) : Known :=
  let eng := argOf ins % 16
  let regw := argOf ins / 16
  match loadGroups 8 (ins.drop 1) with
  | none => k
  | some d =>
    let data := d.map (fun p => if p.2 then (match k.ref cl p.1 with
      | some v => (v, false)
      | none => p) else p)
    { k with
      fixed := k.fixed.load eng regw data,
      lp := if eng = 3 ∧ 0x1C0 ≤ regw ∧ regw < 0x200 then
          data.zipIdx.foldl (fun t p => lpStore t (regw - 0x1C0 + p.2) p.1.1) k.lp
        else k.lp }

/-- What is known after an instruction. -/
def Known.step (k : Known) (cl : Nat) (ins : List Word) : Known :=
  let arg := argOf ins
  if opOf ins = 0x01 then k.load cl ins
  else if opOf ins = 0x07 then { k with lp := lpSwap k.lp (arg % 32) }
  else if opOf ins = 0x08 then { k with params := tmod 0 k.params (arg % 256) (fun v => patchVal (bits arg 9 8) v (wd ins 1)) }
  else if opOf ins = 0x0A then { k with tmark := arg * 2 ^ 32 + wd ins 1 }
  else k

/-! ## The planned commands -/

/-- A planned command: its cluster, its planned issue a-cycle (R436), its words, and what is known where it stands. -/
structure Planned where
  cl : Nat
  at_ : Nat
  ins : List Word
  known : Known

/-- The commands of a stream. -/
def walk (cl : Nat) : Known → List (List Word) → List Planned
  | _, [] => []
  | k, ins :: rest => { cl := cl, at_ := k.tmark, ins := ins, known := k } :: walk cl (k.step cl ins) rest

/-- The commands of one cluster of a plan, `params` the parameter registers that the plan assigns. -/
def clTimeline (params : List (Nat × Nat × BitVec 64)) (h : ClHold) : List Planned :=
  walk h.cl { params := (params.filter (fun p => decide (p.1 = h.cl))).foldl (fun t p => tset 0 t p.2.1 p.2.2) [] }
    (unroll (h.stream.length + 1) h.stream)

/-- Whether a command starts an engine 0 to 2, and which. -/
def Planned.starts (p : Planned) : Option Nat :=
  if opOf p.ins = 0x02 ∧ argOf p.ins % 16 ≤ 2 then some (argOf p.ins % 16) else none

/-- The RME block of a command that starts an OPEN operation: its sizes, formats and stages, which no reference gives (R445). -/
def Planned.open_ (p : Planned) : Option RmeCfg :=
  if p.starts = some 1 then
    let c := rmeCfg (p.known.fixed.regs 1 0x68)
    if c.mode = 2 then some c else none
  else none

/-- The loaded set of a command that starts a stream engine. -/
def Planned.stream (p : Planned) : Option SSet :=
  if opOf p.ins = 0x02 ∧ argOf p.ins % 16 = 4 then p.known.fixed.set.map ssetOf else none

/-! ## Time bounds of the primitives (R105, R106) -/

/-- The key switch of R113 on a group of `g` clusters: F and Bk. -/
def keySwitchAc (c : CustomSet) (l e g : Nat) : Nat × Nat :=
  let n := setN c
  let s := n * c.logn / 256
  let v := n / 64
  let m := n / 512
  let z := n / 32
  let k := c.ps.length
  let x := e + k
  let digits := (List.range (digitCount c l)).map (fun j => (digitPrimes c l j).length)
  let b := digits.length
  let el := ceilDiv e g
  let xl := ceilDiv x g
  let d1 := lsum (digits.map (fun a => a * (x - a)))
  (el * s + ceilDiv (e * z) g + ceilDiv (d1 * m) g + ceilDiv ((b * x - (l + 1)) * z) g + xl * b * s + 240,
   2 * b * xl * m + 2 * ceilDiv k g * s + ceilDiv (2 * k * z) g + ceilDiv (2 * k * e * m) g + ceilDiv (2 * e * z) g + 2 * el * s
     + 4 * el * v + 336)

/-- *Slot primitive bounds*, with immediate `imm`, on a group of `g` clusters. -/
def slotAc (c : CustomSet) (code imm : Nat) (h : Shape0) (g : Nat) : Nat :=
  let n := setN c
  let s := n * c.logn / 256
  let v := n / 64
  let z := n / 32
  let e := h.level + 1 + b2n h.chk
  let el := ceilDiv e g
  let (f, bk) := keySwitchAc c h.level e g
  let resc (k : Nat) : Nat := k * s + k * z + el * k * (s + 3 * v) + 240
  if code = 0x09 then 5 * el * v + 48
  else if code = 0x0A then f + bk + 2 * el * v + 48
  else if code = 0x0B then resc h.comps
  else if code = 0x0C then (5 * el * v + 48) + (f + bk + 2 * el * v + 48) + resc 2 - 96
  else if code = 0x0D ∨ code = 0x0F then f + bk + el * v + 48
  else if code = 0x0E then f + (bk + el * v + 48)
  else if code = 0x10 then 48
  else if code = 0x11 then h.comps * s + h.comps * z + ceilDiv (imm % 65536 + 1 + b2n h.chk) g * h.comps * (s + v) + 192
  else if code = 0x12 then el * h.comps * s + 48
  else if code = 0x13 then n / 4 + 2 * z + 2 * el * v + 144 + (if h.ntt then el * s + 48 else 0)
  else el * h.comps * v + 48

/-- *Scalar primitive bounds* for a batch of `b` objects; `d` is the source dimension of L_KS. -/
def scalarAc (c : CustomSet) (code b d : Nat) : Nat :=
  let s := setN c * c.logn / 256
  let step := 2 * (c.k + 1) * (1 + c.brl) * s
  let lks (d : Nat) : Nat := ceilDiv (8 * b * d) 64 + ceilDiv (2 * b * d * c.ksl * (c.n + 1)) 512 + 96
  let pbs := ceilDiv (6 * b * (c.n + 1)) 64 + b * c.n * step + lks (c.k * setN c) + 144
  if code = 0x46 then lks d
  else if code = 0x47 then pbs
  else if code = 0x48 then ceilDiv (4 * b * (c.n + 1)) 64 + 48 + pbs
  else if code = 0x49 then ceilDiv b 4 + ceilDiv (4 * b) 64 + 96
  else ceilDiv (2 * b * (c.n + 1)) 64 + 48

/-- The bound of a lowered primitive on `g` clusters: by its table for the codes of *Sealed Primitives*, a batch of scalars taken as one
object; 0 for an encoding, an extraction and a key switch of the bootstrap, whose bounds the manual does not state. -/
def primAc (sets : List CustomSet) (p : LPrim) (g : Nat) : Nat :=
  match psetOf sets (BitVec.ofNat 16 p.in0.pset) with
  | some c =>
    if 1 ≤ p.code ∧ p.code ≤ 0x13 then slotAc c p.code p.imm p.in0 g
    else if 0x40 ≤ p.code ∧ p.code ≤ 0x49 then scalarAc c p.code 1 c.n
    else 0
  | none => 0

/-- The clusters that seal primitive `i`. -/
def groupOf (cls : List ClHold) (i : Nat) : List Nat := (cls.filter (fun h => h.seals.contains i)).map (·.cl)

/-- The largest primitive bound of a plan (R420). -/
def largestBound (sets : List CustomSet) (cls : List ClHold) (ps : List LPrim) : Nat :=
  lmax (ps.zipIdx.map (fun p => primAc sets p.1 (max 1 (groupOf cls p.2).length)))

/-! ## Schedule entries (R426) -/

/-- Entries of one stream: every open or stream operation outside loops, and every loop. -/
def streamEntries (h : ClHold) : Nat :=
  let ps := walk h.cl {} (topLevel (h.stream.length + 1) h.stream)
  (ps.filter (fun p => decide (opOf p.ins = 0x09) || p.open_.isSome || decide (opOf p.ins = 0x02 ∧ argOf p.ins % 16 = 4))).length

/-- E: one for each primitive, and those of the streams. -/
def entriesOf (cls : List ClHold) (ps : List LPrim) : Nat := ps.length + lsum (cls.map streamEntries)

/-! ## The wait graph (R402) -/

/-- Manhattan distance of two local clusters on the mesh (R17). -/
def meshDist (a b : Nat) : Nat := ((a / 8 : Nat) - (b / 8 : Nat) : Int).natAbs + ((a % 8 : Nat) - (b % 8 : Nat) : Int).natAbs

/-- *Flag and queue crossing latencies*, and R491 between dies. -/
def crossingAc (routes : List RoutePlan) (a b : Nat) : Nat :=
  if a = b then 1
  else if dieOf a = dieOf b then 40 + 4 * meshDist (a % 64) (b % 64)
  else 200 + 64 * (pathOf routes (dieOf a) (dieOf b)).length

/-- An event or a wait of the graph: its address (of a flag or a queue), how much it adds or takes, its planned a-cycle, and the
cluster of the command. -/
structure WaitNode where
  addr : Nat
  n : Nat
  at_ : Nat
  cl : Nat

/-- The additions to flags that commands make (R471): SIGNAL, engine completions, transfers and adoptions. -/
def flagAdds (ps : List Planned) : List WaitNode :=
  ps.flatMap (fun p =>
    let w1 := wd p.ins 1
    if opOf p.ins = 0x04 then [{ addr := w1 % 2 ^ 17, n := w1 / 2 ^ 24, at_ := p.at_, cl := p.cl }]
    else if p.starts.isSome ∧ bit w1 8 = true then [{ addr := p.cl * 256 + w1 % 256, n := 1, at_ := p.at_, cl := p.cl }]
    else match p.stream with
      | some s => (if s.den then [{ addr := s.dflag, n := s.rep, at_ := p.at_, cl := p.cl }] else [])
          ++ (if s.aen then [{ addr := s.aflag, n := 1, at_ := p.at_, cl := p.cl }] else [])
      | none => [])

/-- WAITs. -/
def flagWaits (ps : List Planned) : List WaitNode :=
  (ps.filter (fun p => decide (opOf p.ins = 0x03))).map (fun p =>
    { addr := p.cl * 256 + argOf p.ins % 256, n := argOf p.ins / 256, at_ := p.at_, cl := p.cl })

/-- PUSHes, by the queue they name, and POPs, by their own. -/
def pushes (ps : List Planned) : List WaitNode :=
  (ps.filter (fun p => decide (opOf p.ins = 0x06))).map (fun p => { addr := wd p.ins 1, n := 1, at_ := p.at_, cl := p.cl })
def pops (ps : List Planned) : List WaitNode :=
  (ps.filter (fun p => decide (opOf p.ins = 0x05))).map (fun p =>
    { addr := p.cl * 64 + bits (argOf p.ins) 9 4, n := 1, at_ := p.at_, cl := p.cl })

/-- The sum of the nodes of `ns` that meet a test. -/
def nodeSum (ns : List WaitNode) (p : WaitNode → Bool) : Nat := lsum ((ns.filter p).map (·.n))

/-- Whether every wait of `ws` has what it takes from events planned earlier by their crossing latency: with `have_` there from the
start, the events in time for a wait cover all that the waits up to it take. -/
def covered (lat : WaitNode → WaitNode → Nat) (have_ : Nat → Nat) (events ws : List WaitNode) : Bool :=
  ws.all (fun w => decide (nodeSum ws (fun x => decide (x.addr = w.addr ∧ x.at_ ≤ w.at_))
    ≤ have_ w.addr + nodeSum events (fun e => decide (e.addr = w.addr ∧ e.at_ + lat e w ≤ w.at_))))

/-- Handles in queue `q` at the start: those of a circulating pool whose free queue it is (R485). -/
def firstHandles (pools : List PoolPlan) (q : Nat) : Nat :=
  lsum (pools.map (fun p => match p.freeq with
    | some f => if f.toNat = q then bits (p.words.getD 1 0).toNat 15 0 + 1 else 0
    | none => 0))

/-- The places that queue `q` keeps for another die's pushes (R489). -/
def remotePlaces (cs : List CreditPlan) (q : Nat) : Nat := match cs.find? (fun c => decide (c.qaddr.toNat = q)) with
  | some c => c.grant.toNat
  | none => 0

/-- A LAND of a Ferry list: the window frames of its cluster it lands, its planned a-cycle, its duration and its deliveries. -/
structure Landing where
  cl : Nat
  frame : Nat
  frames : Nat
  at_ : Nat
  dur : Nat
  ndlv : Nat

/-- The LANDs of a die's list, in order. -/
def landings (h : DieHold) : List Landing :=
  (List.range (h.ferry.length / 32)).filterMap (fun i => match ferryCmd h.ferry i with
    | some c => if c.op = 1 then some { cl := 64 * h.die + c.cl, frame := c.waddr % 2 ^ 21 / 1024, frames := c.nrow, at_ := c.tmark,
                                        dur := landAc c.nrow, ndlv := c.ndlv } else none
    | none => none)

/-- Frames of a window that a command reads by its A range (R460); those that its Ferry stream takes are counted by `streamNeed`. -/
def Planned.windowReads (p : Planned) (h : ClHold) : List Nat :=
  if p.starts = some 1 then
    match p.known.fixed.block 1 with
    | some (regs, rix) => (aFrames { cl := h.cl % 64, job := 0, base := windowBase h, size := h.frames } (rmeCfg regs) (rixOf rix 0)).map
        (windowBase h / 1024 + ·)
    | none => []
  else []

/-- The frames that a command's Ferry stream takes. -/
def Planned.streamReads (p : Planned) : Nat :=
  if p.starts = some 1 then streamNeed (rmeCfg (p.known.fixed.regs 1 0x68)) else 0

/-- Whether the LANDs of one frame, in order, are there for its deliveries at `rs` and are not planned before the deliveries of the LAND
before them (R313, R316, R460). -/
def landsInTime : List Landing → List Nat → Bool
  | [], rs => decide (rs = [])
  | l :: ls, rs =>
    (rs.take l.ndlv).all (fun t => decide (l.at_ + l.dur ≤ t))
      && (match ls with
        | n :: _ => (rs.take l.ndlv).all (fun t => decide (t < n.at_))
        | [] => true)
      && landsInTime ls (rs.drop l.ndlv)

/-- The key waits of a cluster: each frame's A-range deliveries, and the frames that Ferry streams take, which LANDs planned in time
must have staged. -/
def tokensOk (ls : List Landing) (h : ClHold) (ps : List Planned) : Bool :=
  let mine := ls.filter (fun l => decide (l.cl = h.cl))
  let streams := ps.filter (fun p => decide (p.streamReads ≠ 0))
  (List.range h.frames).all (fun i =>
    let f := windowBase h / 1024 + i
    let rs := (ps.filter (fun p => (p.windowReads h).contains f)).map (·.at_)
    decide (rs = []) || landsInTime (mine.filter (fun l => decide (l.frame ≤ f ∧ f < l.frame + l.frames))) rs)
    && streams.all (fun p => decide (lsum ((streams.filter (fun q => decide (q.at_ ≤ p.at_))).map (·.streamReads))
        ≤ lsum ((mine.filter (fun l => decide (l.at_ + l.dur ≤ p.at_))).map (fun l => l.frames * l.ndlv))))

/-- The proof of R402 over the waits of a plan's streams: on flags, on queues that are empty, on places in queues of the own die, on
credits, and on key tokens. A wait of the scoreboard on a landing pair is on an earlier command of the same cluster. -/
def waitsOk (c : PlanChoice) (byCl : List (ClHold × List Planned)) : Bool :=
  let ps := byCl.flatMap (·.2)
  let lat (e w : WaitNode) : Nat := crossingAc c.routes e.cl (w.addr / 64 % 512)
  let near (w : WaitNode) : Bool := decide (dieOf w.cl = w.addr / 2 ^ 12)
  covered (fun e w => crossingAc c.routes e.cl w.cl) (fun _ => 0) (flagAdds ps) (flagWaits ps)
    && covered lat (firstHandles c.pools) (pushes ps) (pops ps)
    && covered (fun _ _ => 1) (fun q => 256 - remotePlaces c.credits q - firstHandles c.pools q) (pops ps) ((pushes ps).filter near)
    && covered (fun e w => crossingAc c.routes e.cl w.cl) (remotePlaces c.credits) (pops ps) ((pushes ps).filter (fun w => !near w))
    && byCl.all (fun x => tokensOk (c.dies.flatMap landings) x.1 x.2)

/-! ## What every command keeps to -/

/-- Whether a span touches the key window of a cluster entry. -/
def inWindow (h : ClHold) (s : Span) : Bool :=
  decide (h.frames ≠ 0 ∧ h.cl * 2 ^ 21 + windowBase h ≤ s.hi ∧ s.lo < h.cl * 2 ^ 21 + windowBase h + 1024 * h.frames)

/-- Whether a command that starts an engine with a block that is known keeps to its engine's refusal rules, the rows that the job
holds, the beats without conflict (R331), and the key window, which engines read only through deliveries: by the A range of the RME
(R312). -/
def startKeeps (h : ClHold) (p : Planned) : Bool :=
  match p.starts with
  | none => true
  | some e =>
    match p.known.fixed.block e with
    | none => (p.known.fixed.ranges e).all (fun r => spanHeld h r.1)
    | some (regs, rix) =>
      let rs := opRanges (engOfNo e) regs rix
      let a := if e = 1 ∧ (rixOf rix 0).mode ≠ 2 then [(rmeASpan (rmeCfg regs), false)]
        else if e = 1 then [(transposedSpan (rixOf rix 0), false)] else []
      (opRefused h.cl (engOfNo e) regs rix).isNone && rs.all (fun r => spanHeld h r.1) && (opBeats (engOfNo e) regs rix).all beatOk
        && rs.all (fun r => !inWindow h r.1 || a.contains r)

/-- Whether an OPEN operation has the form of the block-scale pass (R283): FP32, K and M 1, A_GS 0, and one BSCALE. -/
def isPass (c : RmeCfg) : Bool :=
  decide (c.afmt = 0xA ∧ c.bfmt = 0xA ∧ c.k = 1 ∧ c.m = 1 ∧ c.aGs = 0 ∧ c.chain.npro = 0) && (match c.chain.epi with
    | [s] => decide (s.op = 0x17)
    | _ => false)

/-- The block-scale pass over `r` rows of blocks with `nn` elements along the blocked dimension (R283), in operations of at most 255
groups: `a` holds 1.0, `b` is the FP32 tensor with its strides, `o` the output in format `fmt`. -/
def passOps (fmt a b bgs bs1 o ogs nn : Nat) : Nat → Nat → List RmeCfg
  | 0, _ => []
  | f + 1, r =>
    if r = 0 then []
    else
      let g := min r 255
      let st : Stage := { noStage with op := 0x17, outfmt := fmt }
      { mode := 2, bsrc := false, aml := false, cml := false, afmt := 0xA, bfmt := 0xA, g := g, m := 1, n := nn, k := 1,
        aAddr := a, aS1 := 0, aS2 := 0, aGs := 0, bAddr := b, bS1 := bs1, bS2 := 0, bGs := bgs, cAddr := o, cS1 := ogs, cGs := ogs,
        amlAddr := 0, cmlAddr := 0, amidx := 0, amstep := 0, cmidx := 0, cmstep := 0,
        chain := { npro := 0, nepi := 1, hold := 0, stages := [st] } } :: passOps fmt a b bgs bs1 (o + g * ogs) ogs nn f (r - g)

/-- Whether the OPEN operations of a plan divide its products only along G, M and Nn (R277): every one runs over the whole K of an
O_MATMUL of its formats' row, or is the block-scale pass; and one with BSCALE is of either kind (R282). -/
def openKeeps (g : Graph) (ps : List Planned) : Bool :=
  ps.all (fun p => match p.open_ with
    | some c => isPass c || g.nodes.any (fun n => decide (n.op = 0xC0 ∧ (g.tensor ((n.ins.headD none).getD 0)).exts.headD 1 = c.k
        ∧ fmtRow (g.tensor ((n.ins.headD none).getD 0)).fmt = fmtRow c.afmt))
    | none => true)

/-- Whether every O_CONVERT of an FP32 tensor to an MX format has its pass (R282, R283): operations of its form over rows of `nn` elements
in all its rows. -/
def passesThere (g : Graph) (ps : List Planned) : Bool :=
  g.nodes.all (fun n =>
    let o := g.tensor ((n.outs.headD none).getD 0)
    !(decide (n.op = 0xC5) && isMx o.fmt)
      || decide ((o.exts.drop 1).foldl (· * ·) 1 ≤ lsum (ps.map (fun p => match p.open_ with
        | some c => if isPass c && decide (c.n = o.exts.headD 1 ∧ rmeOutFmt c = o.fmt) then c.g else 0
        | none => 0))))

/-! ## Seals, floods and sealed rows -/

/-- The codes that a cluster's SEALs name, in the order of their issue. -/
def sealCodes (ps : List Planned) : List Nat := (ps.filter (fun p => decide (opOf p.ins = 0x0B))).map (fun p => bits (wd p.ins 1) 15 8)

/-- Whether the plan lists every SEAL of its streams with its primitive, and the codes agree (R135, R288). -/
def sealsListed (prims : List LPrim) (h : ClHold) (ps : List Planned) : Bool :=
  decide (sealCodes ps = h.seals.map (fun i => (prims.getD i { code := 0 }).code % 256)) && h.seals.all (fun i => decide (i < prims.length))

/-- The flood primitives that a cluster's SEALCs close as the lead of their group (R465), with the records that are open. -/
def leadFloods (cl : Nat) : Tab Nat → List (List Word) → Nat
  | _, [] => 0
  | open_, ins :: rest =>
    if opOf ins = 0x0B then leadFloods cl (tset 0 open_ (wd ins 1 % 16) (bits (wd ins 1) 15 8)) rest
    else if opOf ins = 0x0C then
      let code := tget 0 open_ (argOf ins % 16)
      b2n (decide ((code = 0x13 ∨ code = 0x49) ∧ wd ins 1 % 64 = cl % 64)) + leadFloods cl open_ rest
    else leadFloods cl open_ rest

/-- Whether header slot `s` is read by a SEAL before a SEALC of it is written again; `open_` holds the output slots of open records. -/
def slotReadAgain (s : Nat) : Tab Nat → List (List Word) → Bool
  | _, [] => false
  | open_, ins :: rest =>
    if opOf ins = 0x0B then
      [bits (wd ins 2) 9 0, bits (wd ins 2) 19 10, bits (wd ins 2) 29 20, bits (wd ins 3) 9 0].take (bits (wd ins 3) 12 10) |>.contains s
        |> fun here => here || slotReadAgain s (tset 0 open_ (wd ins 1 % 16) (bits (wd ins 1) 25 16)) rest
    else if opOf ins = 0x0C ∧ tget 0 open_ (argOf ins % 16) = s then false
    else slotReadAgain s open_ rest

/-- The rows that a SEALC lists. -/
def sealRows (ins : List Word) : List (Nat × Nat) := (ins.drop 4).map (fun w => (bits w.toNat 14 0, bits w.toNat 29 15))

/-- Whether no SEALC lists a row of another sealed object that is still to be read (R468): `live` holds the rows by header slot, `open_`
the output slots of open records. -/
def rowsApart : Tab (List (Nat × Nat)) → Tab Nat → List (List Word) → Bool
  | _, _, [] => true
  | live, open_, ins :: rest =>
    if opOf ins = 0x0B then rowsApart live (tset 0 open_ (wd ins 1 % 16) (bits (wd ins 1) 25 16)) rest
    else if opOf ins = 0x0C then
      let s := tget 0 open_ (argOf ins % 16)
      let rs := sealRows ins
      live.all (fun p => decide (p.1 = s) || !p.2.any (fun a => rs.any (fun b => rangesMeet a.1 a.2 b.1 b.2)) || !slotReadAgain p.1 open_ rest)
        && rowsApart (tset [] live s rs) open_ rest
    else rowsApart live open_ rest

/-! ## Re-arms (R508) -/

/-- Whether every re-arm of a stream engine but the first of a stream has a WAIT before it on the AFLAG of the re-arm before, or on the
DFLAG of its transfers, behind which the stream may be at its end; `t` gives for each stream engine its STARTs so far and the flags of
the last one that no WAIT has named yet. -/
def rearmsWait : Tab (Nat × List (Nat × Bool)) → List Planned → Bool
  | _, [] => true
  | t, p :: rest =>
    match p.stream, p.known.fixed.ste with
    | some s, some e =>
      let (n, open_) := tget (0, []) t e
      let flags := (if s.aen then [(s.aflag, false)] else []) ++ (if s.den then [(s.dflag, true)] else [])
      decide (n < 2 ∨ open_ = []) && rearmsWait (tset (0, []) t e (n + 1, if flags = [] then [(2 ^ 17, false)] else flags)) rest
    | _, _ =>
      if opOf p.ins = 0x03 then
        let a := p.cl * 256 + argOf p.ins % 256
        rearmsWait (t.map (fun q => match q.2.2.find? (fun f => decide (f.1 = a)) with
          | some f => (q.1, (if f.2 then 0 else q.2.1, []))
          | none => q)) rest
      else rearmsWait t rest

/-! ## Modulus tables (R62, R168) -/

/-- Primes of a parameter set. -/
def placePrimes (c : CustomSet) : List Nat := if c.scalar then [c.qa, c.qb] else c.qs ++ c.ps ++ [setCheckPrime c]

/-- Whether the four words of a modulus entry are those of a prime that one of the sets places: Q, the module's root of R62 with
its inverse, and log2 N. -/
def entryPlanned (sets : List CustomSet) (q psi inv ne : Nat) : Bool :=
  sets.any (fun c => decide (ne % 32 = c.logn ∧ psi = psiOf q c.logn ∧ inv = invMod q psi) && (placePrimes c).contains q)

/-- The sets that a job can place: the default sets, and those given (R52). -/
def placeSets (sets : List CustomSet) : List CustomSet :=
  [0x0001, 0x0002, 0x0003, 0x0011, 0x0012].filterMap (psetOf sets) ++ sets

/-- The modulus entries that a stream completes by their word 3, and whether each is a planned one; none when a word of one is no
literal. -/
def modEntries (sets : List CustomSet) : Tab Word → List Planned → Option (List (Nat × Nat))
  | _, [] => some []
  | t, p :: rest =>
    if opOf p.ins = 0x01 ∧ argOf p.ins % 16 = 0 ∧ 0x100 ≤ argOf p.ins / 16 then
      match loadGroups 8 (p.ins.drop 1) with
      | none => none
      | some d =>
        if d.any (·.2) then none
        else
          let w0 := argOf p.ins / 16 - 0x100
          let t1 := d.zipIdx.foldl (fun t x => tset 0 t (w0 + x.2) x.1.1) t
          let done := ((List.range d.length).map (w0 + ·)).filter (fun w => decide (w % 4 = 3))
          let at_ (w : Nat) : Nat := (tget (0 : Word) t1 w).toNat
          if done.all (fun w => entryPlanned sets (at_ (w - 3)) (at_ (w - 2)) (at_ (w - 1)) (at_ w)) then
            (modEntries sets t1 rest).map (done.map (fun w => (at_ (w - 3), at_ w % 32)) ++ ·)
          else none
    else modEntries sets t rest

/-- The primes, each with log2 N, that a sealed primitive places on position `u` of its group of `g` clusters (R105). -/
def primesPlaced (sets : List CustomSet) (p : LPrim) (g u : Nat) : List (Nat × Nat) :=
  match psetOf sets (BitVec.ofNat 16 p.in0.pset) with
  | some c =>
    if c.scalar then [(c.qa, c.logn), (c.qb, c.logn)]
    else
      let basis := c.qs.take (p.in0.level + 1) ++ (if p.in0.chk then [setCheckPrime c] else [])
      (basis.zipIdx.filter (fun x => decide (x.2 % g = u))).map (fun x => (x.1, c.logn))
  | none => []

/-- Whether the stream of a cluster writes an entry for every prime that the plan places there, each as R168 says. -/
def modulesKeep (sets : List CustomSet) (cls : List ClHold) (prims : List LPrim) (h : ClHold) (ps : List Planned) : Bool :=
  match modEntries (placeSets sets) [] ps with
  | none => false
  | some es => h.seals.all (fun i =>
      let g := groupOf cls i
      (primesPlaced sets (prims.getD i { code := 0 }) (max 1 g.length) ((g.filter (fun c => decide (c < h.cl))).length)).all es.contains)

end Sys2Proof.Machine
end

