-- ==== Sys2Proof/Machine/Plan.lean ====
section
/-! DEFINITION. PLAN_JOB: the checks of the job descriptor that follow the graph's (R566), the figures that the graph fixes
(R103, R390, R407), the plan cache (R409 to R415, R424), the plan receipt (R407), and the planned job (R396 to R406, R429 to
R432). -/
namespace Sys2Proof.Machine

/-! ## Host tensors -/

/-- Bytes of one element of a tensor in host memory, without the gap of R390: its object, or 0 for an open tensor. -/
def objBytes (ty : Ty) : Nat := if ty.h.kind = 5 then 0 else 64 + 4 * ty.h.plen

/-- A host tensor: its number, itself, its type, and the host addresses it covers. -/
structure HostTensor where
  no : Nat
  t : Tensor
  ty : Ty
  lo : Nat
  len : Nat
  deriving DecidableEq, Repr

/-- The host tensors of a checked graph, in tensor order (R390). -/
def hostTensors (k : Checked) (sets : List CustomSet) (bufs : List (Nat × Nat)) : List HostTensor :=
  (k.g.tensors.zipIdx.filter (fun p => p.1.hosted)).map (fun p =>
    let ty := lenTy sets ((k.env.getD p.2 none).getD {})
    { no := p.2, t := p.1, ty := ty, lo := (bufs.getD p.1.buf (0, 0)).1 + p.1.boff,
      len := if p.1.tkind = 5 then openBytes p.1 else elemsOf p.1 * sealedStride ty.h.plen })

/-- The first host tensor that leaves its buffer, or is an output or state tensor that another host tensor covers (check 7
of *Job descriptor checks*). -/
def badRange (hs : List HostTensor) (bufs : List (Nat × Nat)) : Option Nat :=
  (hs.find? (fun h => decide (h.t.boff + h.len > (bufs.getD h.t.buf (0, 0)).2)
    || (decide (h.t.role ≠ 1) && hs.any (fun o => decide (o.no ≠ h.no) && rangesMeet h.lo h.len o.lo o.len)))).map (·.no)

/-- Bytes moved for the host tensors that meet a test of their role (R407). -/
def hostBytes (hs : List HostTensor) (p : Nat → Bool) : Nat :=
  lsum ((hs.filter (fun h => p h.t.role)).map (fun h =>
    if h.t.tkind = 5 then openBytes h.t else elemsOf h.t * objBytes h.ty))

/-- Output objects that will carry LEVEL_EXHAUSTED, and the lowest tensor among them (R103, R407). -/
def exhausted (hs : List HostTensor) : Nat × Nat :=
  let xs := hs.filter (fun h => decide ((h.t.role = 2 ∨ h.t.role = 4) ∧ h.t.tkind ≠ 5 ∧ h.ty.h.poison = pLevel))
  (lsum (xs.map (fun h => elemsOf h.t)), lmin 0xFFFFFFFF (xs.map (·.no)))

/-- Whether some tensor has CHK 1 (R406). -/
def anyChk (k : Checked) : Bool := k.env.any (fun t => match t with
  | some t => t.h.chk
  | none => false)

/-! ## Floods (R131) -/

/-- Whether a code is that of a flood primitive. -/
def isFlood (code : Nat) : Bool := decide (code = 0x13 ∨ code = 0x49)

/-- Flood primitives of a lowered graph. -/
def floodCount (ps : List LPrim) : Nat := (ps.filter (fun p => isFlood p.code)).length

/-- Seeds that a plan draws: one for every S_FLOOD, and one for every batch of L_FLOOD. -/
def seedCount (seeds : List Nat) : Nat := if seeds = [] then 0 else lmax seeds + 1

/-- The primitives with the seed numbers that the plan gives the flood primitives, in order. -/
def numberFloods : List Nat → List LPrim → List LPrim
  | _, [] => []
  | seeds, p :: ps =>
    if isFlood p.code then { p with seed := seeds.headD 0 } :: numberFloods (seeds.drop 1) ps else p :: numberFloods seeds ps

/-- Whether every flood primitive has a seed, the seeds are numbered from 0 without a gap, and no other flood shares that of an S_FLOOD:
only objects of one batch of L_FLOOD do. -/
def floodsOk (seeds : List Nat) (ps : List LPrim) : Bool :=
  let fs := numberFloods seeds (ps.filter (fun p => isFlood p.code))
  decide (seeds.length = fs.length) && (List.range (seedCount seeds)).all seeds.contains
    && fs.all (fun p => decide (p.code = 0x49) || decide ((seeds.filter (· = p.seed)).length = 1))

/-- Seeds of a hand plan: one for each flood that its streams seal, which the group's lead closes once in every pass of a loop. -/
def handFloods (cls : List ClHold) : Nat := lsum (cls.map (fun h => leadFloods h.cl [] (unroll (h.stream.length + 1) h.stream)))

/-! ## The receipt -/

/-- *Plan receipt*, without the fields that the job and the module give. -/
structure Receipt where
  status : Nat := 0
  rflags : Nat := 0
  planKey : Nat := 0
  waitAc : Nat := 0
  boundAc : Nat := 0
  boundNs : Nat := 0
  replayAc : Nat := 0
  nland : Nat := 0
  npoison : Nat := 0
  fpoison : Nat := 0xFFFFFFFF
  nclust : Nat := 0
  diemask : Nat := 0
  planUs : Nat := 0
  detail : Nat := 0
  dcheck : Nat := 0
  ingest : Nat := 0
  egress : Nat := 0
  keycopy : Nat := 0
  deriving DecidableEq, Repr

/-- The 128 bytes of a receipt (R407). -/
def receiptBytes (tag rate hints : Nat) (r : Receipt) : List Byte :=
  withCrc (leBytes 4 0x50435250 ++ leBytes 1 1 ++ leBytes 1 r.status ++ leBytes 2 r.rflags ++ leBytes 2 tag ++ leBytes 2 rate
    ++ leBytes 4 hints ++ leBytes 8 r.planKey ++ leBytes 8 r.waitAc ++ leBytes 8 r.boundAc ++ leBytes 8 r.boundNs
    ++ leBytes 8 r.replayAc ++ leBytes 4 r.nland ++ leBytes 4 r.npoison ++ leBytes 4 r.fpoison ++ leBytes 2 r.nclust
    ++ leBytes 1 r.diemask ++ zeros 1 ++ leBytes 4 r.planUs ++ leBytes 4 r.detail ++ leBytes 4 r.dcheck ++ zeros 4
    ++ leBytes 8 r.ingest ++ leBytes 8 r.egress ++ leBytes 8 r.keycopy ++ zeros 12)

/-- A receipt whose figures the manual does not state: those of a rejected job, and those of a hand plan that have no rule
(free values, log entry 31). -/
def freeReceipt (n : Nat) : Receipt :=
  let f := Config.freeNat
  { planKey := f n, waitAc := f (n + 1), boundAc := f (n + 2), boundNs := f (n + 3), replayAc := f (n + 4),
    nland := f (n + 5), npoison := f (n + 6), fpoison := f (n + 7), nclust := f (n + 8), diemask := f (n + 9),
    ingest := f (n + 10), egress := f (n + 11), keycopy := f (n + 12) }

/-- The figures that a checked graph fixes whatever its plan (R103, R390, R406, R407, R409), on a receipt. -/
def graphFigures (k : Checked) (hs : List HostTensor) (key : Nat) (r : Receipt) : Receipt :=
  { r with rflags := 32 * b2n (!anyChk k), planKey := key, npoison := (exhausted hs).1, fpoison := (exhausted hs).2,
           ingest := hostBytes hs (fun r => decide (r = 1 ∨ r = 4)), egress := hostBytes hs (fun r => decide (r = 2 ∨ r = 4)) }

/-- The receipt written to the address of the job descriptor (R31, R407, R574). -/
def writeReceipt (m : Module) (tag : Nat) (j : Job) (r : Receipt) : Module :=
  { onJob (hostWrite m j.desc.rcpt (receiptBytes tag m.hedge.rate j.desc.hints.toNat r)) tag (fun j => { j with receipt := true })
    with free := m.free + 13 }

/-- A job that the planner rejects: its receipt, whose further figures `fig` gives, and its completion with the plan status. `late` says
that it had reached planning (R571). -/
def planReject (m : Module) (tag : Nat) (j : Job) (late : Bool) (us : Nat) (fig : Receipt → Receipt) (r : Reject) : Module :=
  let base := fig (freeReceipt m.free)
  let m1 := writeReceipt m tag j { base with
    status := r.status, rflags := base.rflags + (if j.desc.hand then 16 else 0), planUs := us, detail := r.detail, dcheck := r.check }
  let m2 := onJob m1 tag (fun j => { j with planned := late })
  finishJob m2 tag (BitVec.ofNat 8 r.status) 0 none none

/-- Bits of DIEMASK. -/
def dieMask (cls : List ClHold) (dies : List DieHold) : Nat :=
  lsum ((List.range 8).map (fun d =>
    if cls.any (fun h => decide (dieOf h.cl = d)) || dies.any (fun h => decide (h.die = d)) then 2 ^ d else 0))

/-- ⌈(WAIT_AC + BOUND_AC) × 1,000 ÷ RATE⌉ (R407). -/
def boundNs (rate wait bound : Nat) : Nat := if rate = 0 then 0 else ceilDiv ((wait + bound) * 1000) rate

/-! ## The plan key and the cache -/

/-- The bytes of a graph with KSID and SCALE of every patched tensor zero (R409). -/
def unpatched (b : List Byte) (g : Graph) : List Byte :=
  g.slots.foldl (fun b s =>
    let o := g.hdr.tensOff + 64 * s.2
    b.take (o + 8) ++ zeros 8 ++ (b.drop (o + 16)).take 2 ++ zeros 2 ++ b.drop (o + 20)) b

/-- PLANKEY (R409). -/
def planKey (b : List Byte) (g : Graph) (hints : Nat) (fenced : List Nat) : Nat :=
  leNat ((sha256 (unpatched b g ++ leBytes 4 hints ++ fenceBytes fenced)).take 8)

/-- Whether an admitted job uses a cached plan. -/
def planInUse (m : Module) (id : Nat) : Bool := m.quay.jobs.any (fun p => match p.2 with
  | some j => decide (j.planId = some id)
  | none => false)

/-- PSET and CHK of the key set of every KSID that a graph names, in order (R412). -/
def ksidKinds (dir : List KeySet) (g : Graph) : List (Option (BitVec 16 × Bool)) :=
  (graphKsids g).map (fun x => (keySetOf dir x).map (fun s => (s.pset, s.chk)))

/-- The stack addresses of the pages of every key object that a graph needs, in the order of its nodes (R309, R412). -/
def needPages (dir : List KeySet) (sets : List CustomSet) (k : Checked) : List Nat :=
  ((k.g.nodes.flatMap (nodeNeeds k.g sets dir k.env)).filterMap (needFound dir)).flatMap (fun p =>
    (p.1.pages.drop p.2.firstPage).take p.2.npages)

/-- The cached plan that a submission replays: one of its key that its patches are accepted for (R411, R412), the one
submitted most recently. -/
def cacheHit (m : Module) (key : BitVec 64) (k : Checked) : Option CachedPlan :=
  (m.quay.plans.filter (fun p => decide (p.key = key ∧ p.uses = k.uses ∧ p.log = k.log ∧ p.kinds = ksidKinds m.quay.dir k.g))).foldl
    (fun best p => match best with
    | some q => if q.seq < p.seq then some p else some q
    | none => some p) none

/-- A Ferry command with another page slot (*Ferry command*). -/
def withSlot (cmd : List Byte) (a : Nat) : List Byte := cmd.take 16 ++ leBytes 8 a ++ cmd.drop 24

/-- A Ferry list whose LANDs of the pages `old` take the pages `new`, place by place (R412). -/
def retarget (old new : List Nat) (ferry : List Byte) : List Byte :=
  (List.range (ferry.length / 32)).flatMap (fun i =>
    let cmd := (ferry.drop (32 * i)).take 32
    match (old.zip new).find? (fun p => decide (p.1 = field cmd 16 8)) with
    | some p => if field cmd 0 1 = 1 then withSlot cmd p.2 else cmd
    | none => cmd)

/-- The choice of a cached plan for a submission whose key sets may be others: its Ferry lists land their pages (R411, R412). -/
def patchedChoice (p : CachedPlan) (pages : List Nat) : PlanChoice :=
  { p.choice with dies := p.choice.dies.map (fun h => { h with ferry := retarget p.pages pages h.ferry }) }

/-- Bytes that a plan's command streams and Ferry lists take in the region of R20. -/
def planBytes (p : CachedPlan) : Nat :=
  lsum (p.choice.clusters.map (fun h => 4 * h.stream.length)) + lsum (p.choice.dies.map (fun h => h.ferry.length))

/-- Whether the plans keep both limits of R410: their number, and the bytes of the region of R20 in the sixteen stacks. -/
def cacheFits (ps : List CachedPlan) : Bool :=
  decide (ps.length ≤ Config.maxPlans ∧ lsum (ps.map planBytes) ≤ 16 * 2 ^ 30)

/-- The plans once the least recently submitted of those that no admitted job uses has gone, one after the other, until `p` has
room; none when it never has (R410). -/
def cacheEvict (m : Module) (p : CachedPlan) : Nat → List CachedPlan → Option (List CachedPlan)
  | 0, _ => none
  | f + 1, ps =>
    if cacheFits (ps ++ [p]) then some ps
    else
      match (ps.filter (fun q => !planInUse m q.id)).foldl (fun best q => match best with
        | some b => if q.seq < b.seq then some q else some b
        | none => some q) none with
      | some old => cacheEvict m p f (ps.filter (fun q => decide (q.id ≠ old.id)))
      | none => none

/-- A plan put into the cache: at a limit the plan submitted least recently that no admitted job uses goes; where every plan is in
use, the new one is not kept (R410). -/
def cachePut (m : Module) (p : CachedPlan) : List CachedPlan :=
  match cacheEvict m p (m.quay.plans.length + 1) m.quay.plans with
  | some ps => ps ++ [p]
  | none => m.quay.plans

/-! ## The plan -/

/-- What PLAN_JOB plans a graph with: its sets, the primitives it lowers to (R135), and the planner's choice. -/
def loweredOf (m : Module) (k : Checked) : List LPrim := lowerGraph k.g (m.quay.imageSets ++ k.g.sets) m.quay.dir

/-! ### Groups, landing points and descriptors -/

/-- Whether a primitive acts on scalars. -/
def isScalar (p : LPrim) : Bool := decide (0x40 ≤ p.code ∧ p.code ≤ 0x49 ∨ p.code = 0x86)

/-- Whether the clusters that seal each primitive form a group that R105 allows: on one die, a power of two of them, and one for a
scalar object (R397). Every primitive is sealed (R135); an encoding may stand in the stacks ready. -/
def groupsOk (cls : List ClHold) (ps : List LPrim) : Bool :=
  ps.zipIdx.all (fun p =>
    let g := groupOf cls p.2
    (g = [] && decide (p.1.code = 0xC3)) || (decide (g ≠ [] ∧ g.length ≤ if isScalar p.1 then 1 else 64)
      && decide (2 ^ Nat.log2 g.length = g.length) && g.all (fun x => decide (dieOf x = dieOf (g.headD 0)))))

/-- The distances of R418: from a-cycle 0 over the landing points to the last result write. -/
def landDists : Nat → List Nat → List Int
  | _, [] => []
  | a, b :: rest => ((b : Int) - a) :: landDists b rest

/-- The planned distances of a plan. -/
def planDists (c : PlanChoice) : List Int := landDists 0 (c.cuts.map (·.at_) ++ [c.lastAc])

/-- Stack ranges that a landing point writes: its objects, its rows, and the roles of landing pairs. -/
def cutRanges (x : CutPlan) : List (Nat × Nat) :=
  x.copies.map (fun p => (p.at_, p.bytes)) ++ x.saves.map (fun s => (s.at_, 256 * s.rows)) ++ x.roles.map (fun r => (r.2, 256))

/-- Whether two ranges meet. -/
def pairMeets (a b : Nat × Nat) : Bool := rangesMeet a.1 a.2 b.1 b.2

/-- Whether no two of the ranges meet. -/
def rangesApart : List (Nat × Nat) → Bool
  | [] => true
  | a :: rest => rest.all (fun b => !pairMeets a b) && rangesApart rest

/-- Whether a stack range lies in a region that the plan holds (R398, R419). -/
def inRegion (dies : List DieHold) (a : Nat) : Bool :=
  dies.any (fun h => decide (h.region ≤ a ∧ a < h.region + h.regionMiB * 2 ^ 20))

/-- Whether the landing points keep R418 (20,000,000 a-cycles), end before BOUND_AC (R404), name flags, rows and regions that the plan
holds, keep the roles of every cluster's landing pairs, and never place a copy where the copies of the point before lie (R419, R420). -/
def cutsOk (c : PlanChoice) : Bool :=
  (planDists c).all (fun d => decide (0 ≤ d ∧ d ≤ 20000000)) && decide (c.lastAc ≤ c.boundAc.toNat)
    && c.cuts.all (fun x => x.flags.all (fun f => c.clusters.any (fun h => decide (h.cl = f.1 ∧ h.flag0 ≤ f.2.1 ∧ f.2.1 < h.flag0 + h.flags)))
      && x.saves.all (fun s => c.clusters.any (fun h => decide (h.cl = s.cl ∧ stkOf s.at_ / 2 = dieOf s.cl) && rowsHeld h s.row s.rows))
      && c.clusters.all (fun h => decide (h.pairs = 0 ∨ h.cl ∈ x.roles.map (·.1)))
      && (cutRanges x).all (fun p => decide (p.2 ≠ 0 ∧ p.1 % 64 = 0) && inRegion c.dies p.1 && inRegion c.dies (p.1 + p.2 - 1))
      && rangesApart (cutRanges x))
    && (List.zip c.cuts (c.cuts.drop 1)).all (fun p => (cutRanges p.1).all (fun a => (cutRanges p.2).all (fun b => !pairMeets a b)))

/-- REPLAY_AC (R420): H, the restore time of the most live bytes of a die at 5.12 TB/s in a-cycles at 2.50 GHz (R40), and the
largest distance of R418. -/
def replayAcOf (c : PlanChoice) : Nat :=
  c.hAc + lmax (c.cuts.flatMap (fun x => x.bytes.map (fun b => ceilDiv b.2 2048))) + lmax ((planDists c).map (·.toNat))

/-- The stack addresses of the pages that a die's Ferry list lands, each once. -/
def landedSlots (h : DieHold) : List Nat :=
  ((List.range (h.ferry.length / 32)).filterMap (fun i => match ferryCmd h.ferry i with
    | some c => if c.op = 1 then some c.slot else none
    | none => none)).foldl (fun acc a => if acc.contains a then acc else acc ++ [a]) []

/-- KEYCOPY (R414): every key page that the plan uses, once for each die whose Ferry lands it. -/
def keycopyOf (c : PlanChoice) : Nat := lsum (c.dies.map (fun h => (landedSlots h).length)) * Config.pageSlotBytes

/-- Whether every descriptor that the planner generates passes *Descriptor checks* (R368) over the pools of the plan. -/
def descsOk (m : Module) (tag : Nat) (c : PlanChoice) : Bool :=
  let m1 := c.pools.foldl (fun m p => writePool m tag p) m
  c.descs.all (fun p => c.dies.any (fun h => decide (h.die = p.die ∧ h.desc0 ≤ p.entry ∧ p.entry < h.desc0 + h.descs))
    && decide (descCheck m1 p.die tag (descOf (writeDescs tag c.descs p.die (dieAt m1 p.die)) p.entry) = (0, 0)))

/-- Whether a stack pool stays clear of the plan region (R20). -/
def poolClear (p : PoolPlan) : Bool :=
  let w (i : Nat) : Nat := (p.words.getD i 0).toNat
  decide (bits (w 0) 1 0 ≠ 1)
    || decide ((w 4 + w 5 * 2 ^ 32) % 2 ^ 37 + 4 * (bits (w 2) 27 0 * (bits (w 1) 15 0 + 1)) ≤ Config.planRegion)

/-- A pool entry with the address of the buffer it stands for (R411). -/
def bindPool (bufs : List (Nat × Nat)) (p : PoolPlan) : PoolPlan :=
  match p.buf with
  | some b =>
    let a := (bufs.getD b (0, 0)).1
    { p with words := lset (lset p.words 4 (BitVec.ofNat 32 a)) 5 (BitVec.ofNat 32 (a / 2 ^ 32)) }
  | none => p

/-- Whether queue `q` (its address) is one that the plan holds. -/
def queueHeld (cls : List ClHold) (q : Nat) : Bool :=
  cls.any (fun h => decide (h.cl = q / 64 ∧ h.queue0 ≤ q % 64 ∧ q % 64 < h.queue0 + h.queues))

/-- Whether the pools of a plan are entries it holds, host pools exactly where they stand for a buffer, clear of the plan region as bound
(R20, R474), and circulating ones of at most 256 slots with a free queue of the plan (R485). -/
def poolsOk (bufs : List (Nat × Nat)) (c : PlanChoice) : Bool :=
  c.pools.all (fun p =>
    c.dies.any (fun h => decide (h.die = p.die ∧ h.pool0 ≤ p.pool ∧ p.pool < h.pool0 + h.pools)) && poolClear (bindPool bufs p)
      && decide (p.buf.isSome = true → bits (p.words.getD 0 0).toNat 1 0 = 2)
      && (match p.freeq with
        | some q => queueHeld c.clusters q.toNat && decide (bits (p.words.getD 1 0).toNat 15 0 ≤ 255)
        | none => true))

/-- Whether the credit entries of a plan are such as R489 asks for: GRANT from 1 to 256, a queue of the plan on another die, and one
entry on one die for each queue. -/
def creditsOk (c : PlanChoice) : Bool :=
  c.credits.all (fun p => c.dies.any (fun h => decide (h.die = p.die)) && decide (p.entry < 512 ∧ 1 ≤ p.grant.toNat ∧ p.grant.toNat ≤ 256
      ∧ p.qaddr.toNat / 2 ^ 12 ≠ p.die) && queueHeld c.clusters p.qaddr.toNat)
    && allDiffer (c.credits.map (·.qaddr.toNat)) && allDiffer (c.credits.map (fun p => 512 * p.die + p.entry))

/-- Whether a route goes between two compute dies over at most four ring links, and no other route joins them in that order (R15,
R491). -/
def routesOk (rs : List RoutePlan) : Bool :=
  rs.all (fun r => decide (r.src < 8 ∧ r.dst < 8 ∧ r.src ≠ r.dst ∧ (pathOf rs r.src r.dst).length ≤ 4))
    && allDiffer (rs.map (fun r => 8 * r.src + r.dst))

/-- Whether a byte range lies in a stack pool of the plan. -/
def inStackPool (pools : List PoolPlan) (a : Nat) : Bool :=
  pools.any (fun p =>
    let w (i : Nat) : Nat := (p.words.getD i 0).toNat
    let base := w 4 + w 5 * 2 ^ 32
    decide (bits (w 0) 1 0 = 1 ∧ base ≤ a ∧ a < base + 4 * (bits (w 2) 27 0 * (bits (w 1) 15 0 + 1))))

/-- Whether the Ferry lists of a plan meet R730, and land only pages on stacks of their own die: stored pages, replicas, or pages that the
plan's transfers copy into its own stack space (R310). -/
def ferriesOk (m : Module) (c : PlanChoice) : Bool :=
  c.dies.all (fun h => ferryListOk c.clusters h && (landedSlots h).all (fun a =>
    m.quay.dir.any (fun k => k.pages.contains a) || m.quay.replicas.any (fun r => decide (r.addr = a)) || inStackPool c.pools a
      || inRegion c.dies a))

/-- Whether the plan's shadow parts are such as the audit asks for (R681): none without an audit or without a check limb; else each
lies on another die than its main part, both on clusters the job holds. -/
def shadowsOk (audit : Nat) (chk : Bool) (hs : List ClHold) (xs : List Shadow) : Bool :=
  if audit = 0 ∨ !chk then decide (xs = [])
  else decide (xs ≠ []) && xs.all (fun x => decide (dieOf x.cl ≠ dieOf x.shCl) && [x.cl, x.shCl].all (fun c => hs.any (fun h => decide (h.cl = c))))

/-- The value of an assigned parameter register (R411). -/
def paramValue (d : JobDesc) : ParamSrc → BitVec 64
  | .buffer b => BitVec.ofNat 64 (d.bufs.getD b (0, 0)).1
  | .patch i => d.patches.getD i 0
  | .value v => v

/-- The parameter registers that a plan assigns, with their values for a job (R411). -/
def planParams (d : JobDesc) (c : PlanChoice) : List (Nat × Nat × BitVec 64) := c.params.map (fun p => (p.cl, p.param, paramValue d p.src))

/-- The commands of a plan, by cluster. -/
def planTimeline (d : JobDesc) (c : PlanChoice) : List (ClHold × List Planned) :=
  c.clusters.map (fun h => (h, clTimeline (planParams d c) h))

/-- The a-cycles that the host model gives the bytes of a job: what it reads, after the first answer, and what it writes, each at its rate
in GB/s, at 2.50 GHz (R40, R401, R551). -/
def hostAc (q : Quay) (hs : List HostTensor) : Nat :=
  let time (bytes : Nat) (rate : BitVec 10) : Nat := ceilDiv (5 * bytes) (2 * max 1 rate.toNat)
  let rd := hostBytes hs (fun r => decide (r = 1 ∨ r = 4))
  max (if rd = 0 then 0 else 250 * q.rdLat.toNat + time rd q.rdRate) (time (hostBytes hs (fun r => decide (r = 2 ∨ r = 4))) q.wrRate)

/-- Whether the streams of a plan keep to what R62, R105, R135, R168, R277, R282, R283, R288, R312, R331, R468 and R508 ask of its commands, and
none is planned after the last result write. -/
def timelineOk (m : Module) (k : Checked) (ps : List LPrim) (c : PlanChoice) (tl : List (ClHold × List Planned)) : Bool :=
  let all := tl.flatMap (·.2)
  tl.all (fun x => sealsListed ps x.1 x.2 && x.2.all (startKeeps x.1) && rowsApart [] [] (x.2.map (·.ins)) && rearmsWait [] x.2
      && modulesKeep (m.quay.imageSets ++ k.g.sets) c.clusters ps x.1 x.2)
    && openKeeps k.g all && passesThere k.g all && all.all (fun p => decide (p.at_ ≤ c.lastAc))

/-- Whether the figures of a plan are such as its primitives and the host model give them: H is the largest primitive bound, which a batch
of scalars may raise (R420), the last write is not before it, and BOUND_AC covers the host's bytes (R401, R404). -/
def figuresOk (m : Module) (k : Checked) (ps : List LPrim) (hs : List HostTensor) (c : PlanChoice) : Bool :=
  let h := largestBound (m.quay.imageSets ++ k.g.sets) c.clusters ps
  decide (h ≤ c.hAc ∧ (c.hAc = h ∨ ps.any isScalar = true) ∧ h ≤ c.lastAc ∧ hostAc m.quay hs ≤ c.boundAc.toNat)

/-- Whether a plan made while clusters are fenced differs from the cached plan of the whole module, where there is one, in its placement,
WAIT_AC and BOUND_AC alone (R425): NLAND, REPLAY_AC and KEYCOPY are the same. -/
def degradedOk (m : Module) (whole : BitVec 64) (c : PlanChoice) : Bool :=
  m.quay.plans.all (fun p => decide (p.key ≠ whole)
    || decide (p.choice.cuts.length = c.cuts.length ∧ replayAcOf p.choice = replayAcOf c ∧ keycopyOf p.choice = keycopyOf c))

/-- Whether the stack region of a plan's die entry lies where the planner allocates: in the general region, in whole MiB, and off the
retired regions (R512, R514, R531). -/
def regionOk (m : Module) (h : DieHold) : Bool :=
  let mib := stkOff h.region / 2 ^ 20
  decide (h.regionMiB = 0 ∨ (stkOff h.region % 2 ^ 20 = 0 ∧ Config.generalRegion ≤ stkOff h.region))
    && (stkAt m (stkOf h.region)).retired.all (fun r => decide (h.regionMiB = 0 ∨ r < mib ∨ mib + h.regionMiB ≤ r))

/-- Whether the planner's choice is such as a plan may hold (R20, R105, R131, R310, R312, R331, R368, R397, R398, R402, R405, R418, R424,
R434, R485, R489, R491, R494, R514, R531, R681). -/
def choiceOk (m : Module) (tag : Nat) (j : Job) (k : Checked) (hs : List HostTensor) (c : PlanChoice) : Bool :=
  let share := bits j.desc.hints.toNat 9 2
  let ps := loweredOf m k
  c.clusters.all (clHoldOk (outOfService m)) && allDiffer (c.clusters.map (·.cl)) && c.dies.all (fun h => dieHoldOk h && regionOk m h)
    && allDiffer (c.dies.map (·.die)) && c.clusters.all (fun h => c.dies.any (fun d => decide (d.die = dieOf h.cl)))
    && poolsOk j.desc.bufs c && creditsOk c && ferriesOk m c
    && placesForm c.clusters c.places && placesFree m tag none c.clusters c.places
    && c.params.all (fun p => c.clusters.any (fun h => decide (h.cl = p.cl)) && decide (p.param < 256))
    && decide (c.power * 256 ≤ (if share = 0 then 256 else share) * j.cap)
    && groupsOk c.clusters ps && floodsOk c.floods ps && cutsOk c && descsOk m tag c && routesOk c.routes
    && shadowsOk (bits j.desc.hints.toNat 11 10) (anyChk k) c.clusters c.shadows
    && timelineOk m k ps c (planTimeline j.desc c) && figuresOk m k ps hs c
    && decide (waitFor m tag c.clusters c.dies c.credits ≤ c.waitAc.toNat)

/-- The job with a plan: what it holds, its figures, and the tables the start will write. -/
def plannedJob (ps : List LPrim) (j : Job) (c : PlanChoice) (wait : BitVec 64) (k : Checked) (id : Option Nat) : Job :=
  { j with
    phase := .planned, planned := true, bound := c.boundAc, waitAc := wait, clusters := c.clusters, dies := c.dies,
    pools := c.pools.map (bindPool j.desc.bufs), credits := c.credits,
    params := planParams j.desc c, planId := id, shadows := c.shadows, places := c.places,
    tensors := k.g.tensors, prims := numberFloods c.floods ps, nodes := k.g.nodes, consts := k.g.consts, cuts := c.cuts,
    descs := c.descs, routes := c.routes, floods := seedCount c.floods, ksids := (graphKsids k.g).map (BitVec.ofNat 64), power := c.power,
    audit := if anyChk k then BitVec.ofNat 2 (bits j.desc.hints.toNat 11 10) else 0 }

/-- The receipt of an admitted graph job: what the graph fixes, and the figures of its plan (R407). -/
def planReceipt (m : Module) (k : Checked) (hs : List HostTensor) (c : PlanChoice) (wait : BitVec 64) (us key flags : Nat) : Receipt :=
  let g := graphFigures k hs key {}
  { g with
    rflags := g.rflags + flags + 8 * b2n (decide (fencedNow m ≠ [])), waitAc := wait.toNat,
    boundAc := c.boundAc.toNat, boundNs := boundNs m.hedge.rate wait.toNat c.boundAc.toNat, replayAc := replayAcOf c,
    nland := c.cuts.length, nclust := c.clusters.length, diemask := dieMask c.clusters c.dies, planUs := us, keycopy := keycopyOf c }

/-- A job planned with choice `c`: its custom sets, its receipt, its resources. -/
def planDone (m : Module) (tag : Nat) (j : Job) (k : Checked) (hs : List HostTensor) (c : PlanChoice) (wait : BitVec 64)
    (us key flags : Nat) (id : Option Nat) : Module :=
  let m1 := onQuay m (fun q => { q with
    jobSets := q.jobSets.filter (fun p => decide (p.1 ≠ tag)) ++ k.g.sets.map (fun s => (tag, s)) })
  onJob (writeReceipt m1 tag j (planReceipt m k hs c wait us key flags)) tag (fun j => plannedJob (loweredOf m k) j c wait k id)

/-- A cached plan replayed for a job (R411 to R416): CACHED, and PATCHED when a patch value is not the one it was made with. Its WAIT_AC
covers the jobs that still hold what it needs (R415); the choice that a sender gives for it need give no more than that figure and the
planning time. -/
def planReplay (m : Module) (tag : Nat) (j : Job) (k : Checked) (hs : List HostTensor) (p : CachedPlan) (c : PlanChoice)
    (key : Nat) : Module :=
  let r := patchedChoice p (needPages m.quay.dir (m.quay.imageSets ++ k.g.sets) k)
  if c.planUs.toNat > 40 ∨ c.waitAc.toNat < waitFor m tag r.clusters r.dies r.credits then m
  else
    let m1 := onQuay m (fun q => { q with
      planSeq := q.planSeq + 1, plans := q.plans.map (fun x => if x.id = p.id then { x with seq := q.planSeq + 1 } else x) })
    planDone m1 tag j k hs r c.waitAc c.planUs.toNat key (1 + 2 * b2n (decide (p.patches ≠ j.desc.patches))) (some p.id)

/-- A graph planned afresh (R396, R413): the plan enters the cache. REPLANNED is set when a plan of the key was there whose
patches were not accepted. -/
def planFresh (m : Module) (tag : Nat) (j : Job) (k : Checked) (hs : List HostTensor) (c : PlanChoice) (key : Nat)
    (again : Bool) : Module :=
  let n := m.quay.planSeq + 1
  let p : CachedPlan := { id := n, key := BitVec.ofNat 64 key, choice := c, patches := j.desc.patches, uses := k.uses,
                          log := k.log, seq := n, kinds := ksidKinds m.quay.dir k.g,
                          pages := needPages m.quay.dir (m.quay.imageSets ++ k.g.sets) k }
  let m1 := onQuay m (fun q => { q with planSeq := n, plans := cachePut m p })
  planDone m1 tag j k hs c c.waitAc c.planUs.toNat key (4 * b2n again) (some n)

/-- The log record of a plan that fails its proof (R402). -/
def waitProofEvent (tag : Nat) : LogEvent :=
  { cls := 12, sev := 0, unit := 0, job := BitVec.ofNat 16 tag, detail := 0x19, addr := 0, data := [] }

/-- Whether the planner still has a place for job `tag` among the eight new graphs that it plans at once (R427): fewer than eight graph
jobs admitted before it wait for their plans. -/
def planTurn (m : Module) (j : Job) : Bool :=
  decide ((m.quay.jobs.filter (fun p => match p.2 with
    | some o => decide (o.phase = .admitted ∧ o.order < j.order) && !o.desc.hand
    | none => false)).length < 8)

/-- A graph planned afresh with the planner's choice, in the five steps of R396: its schedule entries, its placement and reservations, the
proof of its waits, its timing. A choice that no plan may hold, or a planning time beyond R426, is none of the planner's: nothing
happens. -/
def planNew (m : Module) (tag : Nat) (j : Job) (b : List Byte) (k : Checked) (hs : List HostTensor) (c : PlanChoice) (key : Nat)
    (again : Bool) : Module :=
  let us := c.planUs.toNat
  let e := entriesOf c.clusters (loweredOf m k)
  let fig := graphFigures k hs key
  if !planTurn m j || decide (us * 1000 > 2000000 + 100 * e) then m
  else if e > 16777216 then planReject m tag j true us fig { status := 0x18, check := 0 }
  else if !c.placed then planReject m tag j true us fig { status := 0x17, check := 0 }
  else if !choiceOk m tag j k hs c || (decide (fencedNow m ≠ []) && !degradedOk m (BitVec.ofNat 64 (planKey b k.g j.desc.hints.toNat [])) c) then m
  else if !waitsOk c (planTimeline j.desc c) then planReject (logLater m (waitProofEvent tag)) tag j true us fig { status := 0x19, check := 0 }
  else planFresh m tag j k hs c key again

/-- A validated graph job (R396 to R415, R426): the hints, then a cached plan, or a new one with the planner's choice. In throughput mode
a second placement may be planned beside one that an earlier job holds, when it starts earlier (R415). -/
def planValid (m : Module) (tag : Nat) (j : Job) (b : List Byte) (k : Checked) (hs : List HostTensor) (c : PlanChoice) : Module :=
  let hints := j.desc.hints.toNat
  let key := planKey b k.g hints (fencedNow m)
  if hints % 4 ≥ 2 ∨ hints / 4096 ≠ 0 then planReject m tag j false c.planUs.toNat (graphFigures k hs key) { status := 0x16, check := 0 }
  else match cacheHit m (BitVec.ofNat 64 key) k with
    | some p =>
      if c.fresh && decide (hints % 4 = 0) && planInUse m p.id
          && decide (waitFor m tag c.clusters c.dies c.credits < waitFor m tag p.choice.clusters p.choice.dies p.choice.credits) then
        planNew m tag j b k hs c key false
      else planReplay m tag j k hs p c key
    | none => planNew m tag j b k hs c key (m.quay.plans.any (fun p => decide (p.key.toNat = key)))

/-- A graph job whose image has arrived (R395, R566). -/
def planGraph (m : Module) (tag : Nat) (j : Job) (b : List Byte) (c : PlanChoice) : Module :=
  match graphCheck b j.desc.glen.toNat j.desc.patches m.quay.imageSets m.quay.dir with
  | .error r => planReject m tag j false c.planUs.toNat id r
  | .ok k =>
    let hs := hostTensors k (m.quay.imageSets ++ k.g.sets) j.desc.bufs
    if j.desc.npatch ≠ k.g.hdr.nslot ∨ hs.any (fun h => decide (h.t.buf ≥ j.desc.nbuf)) = true then finishJob m tag 0x20 6 none none
    else match badRange hs j.desc.bufs with
      | some t => finishJob m tag 0x21 7 (some t) none
      | none => planValid m tag j b k hs c

/-- The dies that a hand plan uses: those of which it holds something, and those of its clusters. -/
def handDies (h : HandPlan) : List DieHold :=
  h.dies.filter (fun d => decide (d.pools ≠ 0 ∨ d.descs ≠ 0 ∨ d.regionMiB ≠ 0 ∨ d.ferry ≠ [])
    || h.clusters.any (fun x => decide (dieOf x.cl = d.die)))

/-- A hand plan whose image has arrived (R405, R429 to R432). -/
def planHand (m : Module) (tag : Nat) (j : Job) (b : List Byte) (c : PlanChoice) : Module :=
  let us := c.planUs.toNat
  if j.desc.hints ≠ 0 then planReject m tag j false us id { status := 0x16, check := 0 }
  else match handCheck b j.desc.glen.toNat m.quay.dir (outOfService m) with
    | .error r => planReject m tag j false us id r
    | .ok h =>
      let dies := handDies h
      if !placesForm h.clusters c.places || !placesFree m tag none h.clusters c.places
          || decide (c.waitAc.toNat < waitFor m tag h.clusters dies []) then m
      else
      let m1 := writeReceipt m tag j { freeReceipt m.free with
        rflags := 16 + 8 * b2n (decide (fencedNow m ≠ [])), waitAc := c.waitAc.toNat, boundAc := 2 ^ 64 - 1,
        boundNs := 2 ^ 64 - 1, nland := 0, nclust := h.clusters.length, diemask := dieMask h.clusters dies, planUs := us }
      onJob m1 tag (fun j => { j with
        phase := .planned, planned := true, bound := BitVec.ofNat 64 (2 ^ 64 - 1), waitAc := c.waitAc, clusters := h.clusters,
        dies := dies, places := c.places, ksids := h.ksids, floods := handFloods h.clusters })

/-- PLAN_JOB: the image of an admitted job has arrived, whole. While R580 keeps the module from host memory, it waits. -/
def planStep (m : Module) (tag : Nat) (image : List Byte) (c : PlanChoice) : Module :=
  match jobAt m tag with
  | none => m
  | some j =>
    if j.phase ≠ .admitted ∨ image.length ≠ j.desc.glen.toNat ∨ muted m ∨ !alive m then m
    else if j.desc.hand then planHand m tag j image c
    else planGraph m tag j image c

/-- PLAN_JOB. -/
def execPlanJob (tag : Fin 1024) (image : List Byte) (choice : PlanChoice) (s : State) : Host.Outcome State Fault Refusal :=
  ok s (planStep s.m tag image choice)

end Sys2Proof.Machine
end

