-- ==== Sys2Proof/Machine/Pontoon.lean ====
section
/-! DEFINITION. Pontoon flits (R14, R15), link protection and fault injection (R686 to R692). A flit is received in the step in which it crosses
the link, so FLIT_RECEIVE is also the sending of the flit. -/
namespace Sys2Proof.Machine

/-! ## Flits -/

/-- SEQ, ACK and VC of a flit (*Pontoon flit*). -/
def flitSeq (b : List Byte) : Word := BitVec.ofNat 32 (field b 244 4)
def flitAck (b : List Byte) : Word := BitVec.ofNat 32 (field b 248 4)
def flitVc (b : List Byte) : Nat := field b 241 1

/-- Whether FCRC matches. -/
def flitOk (b : List Byte) : Bool := decide (field b 252 4 = crc32c (b.take 252))

/-- The job of a flit: that of the stream whose number VC is on the link's die. -/
def flitJob (m : Module) (e : LinkEnd) (b : List Byte) : Option Nat :=
  let se : StreamEngine := tget {} (dieAt m (linkUnit e).1).ste (flitVc b)
  match se.active with
  | some s => some s.job
  | none => none

/-- Whether `a` is at or before `b` in the sequence. -/
def seqLe (a b : Word) : Bool := decide ((b - a).toNat < 2 ^ 31)

/-- A sender that puts a flit on the link: a new one goes into the retry buffer of 512; one that it sends again is there
already, and the last of them ends the round (R687). -/
def senderSends (job : Option Nat) (seq : Word) (b : List Byte) (l : Link) : Link :=
  if l.retryAt.isSome && l.retry.any (fun f => decide (f.seq = seq)) then l
  else { l with
    retry := (l.retry ++ [({ seq := seq, bytes := b, job := job } : RetryFlit)]).take 512, nextSeq := seq + 1 }

/-- An ACK covers every flit up to it. -/
def senderAcked (ack : Word) (l : Link) : Link :=
  let left := l.retry.filter (fun f => !seqLe f.seq ack)
  { l with retry := left, retryAt := if left = [] then none else l.retryAt }

/-- The SEQ under which the sender keeps a flit: its own when FCRC matches, else the next one. -/
def sentSeq (l : Link) (b : List Byte) : Word := if flitOk b then flitSeq b else l.nextSeq

/-- A receiver takes a flit, or discards it (R687): one NAK for the first that it discards. -/
def receiverTakes (b : List Byte) (l : Link) : Link :=
  if flitOk b && decide (flitSeq b = l.expected) then { l with expected := l.expected + 1, discarding := false }
  else
    let l1 := if flitOk b then { l with seqErr := satAdd l.seqErr 1 } else { l with crcErr := satAdd l.crcErr 1 }
    if l.discarding then l1 else { l1 with nakTx := satAdd l1.nakTx 1, discarding := true }

/-- The time that a retry took does not count for NEG_COUNT (R688): `t` is the a-cycle in which it began. -/
def shiftNeg (m : Module) (t : Nat) : Module :=
  { m with dies := m.dies.map (fun p => (p.1, { p.2 with
      ledger := p.2.ledger.map (fun q =>
        let later (o : Option Nat) : Option Nat := o.map (fun a => a + (m.now - max a t))
        (q.1, { q.2 with negFree := later q.2.negFree, negQueued := later q.2.negQueued, negHeld := later q.2.negHeld,
                         negTransit := later q.2.negTransit })) })) }

/-- A retry of one end is over when the end had one and has none now. -/
def settleRetry (old : Link) (m : Module) (e : LinkEnd) : Module :=
  match old.retryAt, (linkAt m e).retryAt with
  | some t, none => shiftNeg m t
  | _, _ => m

/-- TYPE of a flit. -/
def flitType (b : List Byte) : Nat := field b 240 1

/-- The die that a flit is for: that of its cluster DEST, or the die at end `e` for the far controller. -/
def flitDie (e : LinkEnd) (b : List Byte) : Nat :=
  if field b 242 2 = 0xFFFF then (linkUnit e).1 else field b 242 2 / 64 % 8

/-- The link on which the controllers of the die at end `e` send a flit on (R15): a ring flit for another die goes on in its own
direction, a flit from the spoke in the direction of its job's plan; a flit into the Quay stays there. -/
def onward (m : Module) (e : LinkEnd) (b : List Byte) : Option LinkEnd := match e with
  | .quay _ => none
  | .pon d l =>
    if flitDie e b = d.val then none
    else if l = 1 then some (.pon d 0)
    else if l = 0 then some (.pon d 1)
    else (pathOf (match flitJob m e b with
      | some t => routesOf m t
      | none => []) d.val (flitDie e b)).head?

/-- What the die at end `e` does with a flit that it takes: data, a handle, a signal or a credit return is kept for the next link of its
path, or its payload is delivered (R14, R15). A NAK and an idle flit carry nothing on. -/
def deliver (m : Module) (e : LinkEnd) (b : List Byte) : Module :=
  if flitType b < 1 ∨ flitType b > 4 then m
  else match onward m e b with
    | some n => onLink m n (fun l => { l with fwd := l.fwd ++ [b.take 244] })
    | none => onLink m e (fun l => { l with rx := b.take 240 })

/-- A flit that a die forwards leaves its queue when it is sent on. -/
def takeForward (b : List Byte) (l : Link) : Link :=
  if l.fwd.head? = some (b.take 244) then { l with fwd := l.fwd.drop 1 } else l

/-- A flit arrives at end `e`: the sender keeps it, the receiver takes or discards it, and what it takes acknowledges the
receiver's own flits. -/
def receiveAt (m : Module) (e : LinkEnd) (b : List Byte) : Module :=
  let old := linkAt m e
  let m1 := onLink m e (receiverTakes b)
  if flitOk b && decide (flitSeq b = old.expected) then
    deliver (settleRetry old (onLink m1 e (senderAcked (flitAck b))) e) e b
  else m1

/-- FLIT_RECEIVE: a flit crosses the link to end `e`. -/
def flitReceiveStep (m : Module) (e : LinkEnd) (b : List Byte) : Module :=
  let p := peerOf e
  receiveAt (onLink m p (fun l => takeForward b (senderSends (flitJob m p b) (sentSeq l b) b l))) e b

/-- FLIT_RECEIVE. -/
def execFlitReceive (e : LinkEnd) (flit : List Byte) (s : State) : Host.Outcome State Fault Refusal :=
  ok s (flitReceiveStep s.m e flit)

/-- NAK: the sender at end `e` sends again from the named SEQ (R687). -/
def nakLink (now : Nat) (seq : Word) (l : Link) : Link :=
  if l.retry.any (fun f => decide (f.seq = seq)) then
    { l with
      retry := l.retry.map (fun f => if seqLe seq f.seq then { f with sends := f.sends + 1 } else f),
      retries := satAdd l.retries 1, retryAt := some (l.retryAt.getD now) }
  else l

/-- NAK. -/
def execNak (e : LinkEnd) (seq : Word) (s : State) : Host.Outcome State Fault Refusal :=
  ok s (onLink s.m e (nakLink s.m.now seq))

/-! ## Exhaustion and retrain -/

/-- Jobs that have a flit in the retry buffer. -/
def retryJobs (l : Link) : List Nat :=
  l.retry.foldl (fun acc f => match f.job with
    | some t => if acc.contains t then acc else acc ++ [t]
    | none => acc) []

/-- A link that does not retrain: a die reset of the die at the receiving end, or for a spoke into the Quay a condition
that needs a warm reset (R581, R689). -/
def linkDead (m : Module) (e : LinkEnd) : Module :=
  match peerOf e with
  | .pon d _ => dieReset m d 4
  | .quay _ => aerReport (onHedge m (fun h => { h with faultPin := true })) (.uncorrectableInternal true)

/-- A PON_EXH record. -/
def exhaustEvent (e : LinkEnd) : LogEvent :=
  { cls := 3, sev := 2, unit := BitVec.ofNat 32 (linkUnit e).2, job := 0xFFFF, detail := 0, addr := 0, data := [] }

/-- RETRY_EXHAUSTED (R689, R690): one SEQ has been sent 9 times; the link retrains and its jobs ask for a replay. When one of
them has spent its budget, the link counts as one that does not retrain. -/
def exhaustedStep (m : Module) (e : LinkEnd) : Module :=
  let l := linkAt m e
  if l.training || !l.retry.any (fun f => decide (f.sends ≥ 9)) then m
  else
    let jobs := retryJobs l
    let m1 := logLater (onLink m e (fun l => { l with
      exhaust := satAdd l.exhaust 1, retrain := satAdd l.retrain 1, training := true, attempts := 1 })) (exhaustEvent e)
    if jobs.any (fun t => !jobReplays m t) then
      linkDead (onLink m1 e (fun l => { l with training := false, attempts := 0, retry := [], retryAt := none })) e
    else jobs.foldl (fun m t => askReplay m t .pontoon) m1

/-- RETRY_EXHAUSTED. -/
def execRetryExhausted (e : LinkEnd) (s : State) : Host.Outcome State Fault Refusal := ok s (exhaustedStep s.m e)

/-- LINK_RETRAIN_DONE (R689): the link is trained and sends its buffer again, or makes its next attempt, up to three. -/
def retrainStep (m : Module) (e : LinkEnd) (good : Bool) : Module :=
  let l := linkAt m e
  if !l.training then m
  else if good then
    onLink m e (fun l => { l with training := false, attempts := 0, retry := l.retry.map (fun f => { f with sends := 1 }) })
  else if l.attempts < 3 then onLink m e (fun l => { l with attempts := l.attempts + 1, retrain := satAdd l.retrain 1 })
  else linkDead (onLink m e (fun l => { l with training := false, attempts := 0, retry := [], retryAt := none })) e

/-- LINK_RETRAIN_DONE. -/
def execLinkRetrainDone (e : LinkEnd) (ok_ : Bool) (s : State) : Host.Outcome State Fault Refusal :=
  ok s (retrainStep s.m e ok_)

/-! ## Fault injection -/

/-- Whether FI_CTRL accepts writes (R691). -/
def fiAllowed (h : Hedge) : Bool := decide (lcsOf h.fuses = 1) || (h.debug && h.scope.getLsbD 2)

/-- A write of FI_CTRL; bit 31 is reserved. -/
def fiWrite (m : Module) (r : FiReg) (v : Word) : Module :=
  let w := v &&& 0x7FFFFFFF
  if !fiAllowed m.hedge then m
  else match r with
    | .pon d l => onLink m (.pon d l) (fun x => { x with fiCtrl := w })
    | .xba d => onDie m d (fun x => { x with xbaFi := w })
    | .msc st => onStk m st (fun x => { x with fiCtrl := w })

/-- FI_ARM. -/
def execFiArm (r : FiReg) (v : Word) (s : State) : Host.Outcome State Fault Refusal := ok s (fiWrite s.m r v)

/-- Whether FI_CTRL is armed with a mode that is not off, and N is in range. -/
def fiLive (w : Word) : Bool := bit w.toNat 3 && decide (bits w.toNat 1 0 ≠ 0 ∧ bits w.toNat 19 4 ≠ 0)

/-- FI_CTRL after an injection: ARM clears when REPEAT is 0. -/
def fiAfter (w : Word) : Word := if bit w.toNat 2 then w else w &&& 0xFFFFFFF7

/-- A flit with bit `i` flipped. -/
def flipBit (b : List Byte) (i : Nat) : List Byte :=
  b.zipIdx.map (fun p => if p.2 = i / 8 then p.1 ^^^ BitVec.ofNat 8 (2 ^ (i % 8)) else p.1)

/-- An injection on a link: the N-th flit that end `e` sends is dropped, corrupted or swapped with the next (R692). -/
def fiLink (m : Module) (e : LinkEnd) (b next : List Byte) : Module :=
  let l := linkAt m e
  let w := l.fiCtrl.toNat
  if !fiLive l.fiCtrl then m
  else
    let sent (m : Module) (b : List Byte) : Module :=
      onLink m e (fun l => takeForward b (senderSends (flitJob m e b) (sentSeq l b) b l))
    let m1 := onLink m e (fun l => { l with fiCtrl := fiAfter l.fiCtrl, fiCount := satAdd l.fiCount 1 })
    let dst := peerOf e
    match w % 4 with
    | 1 => sent m1 b
    | 2 => receiveAt (sent m1 b) dst (flipBit b (bits w 30 20))
    | _ => receiveAt (receiveAt (sent (sent m1 b) next) dst next) dst b

/-- An injection at a crossbar write of word `w` of a cluster: one bit, two bits, or a silent flip. -/
def fiScratch (m : Module) (cl w : Nat) : Module :=
  let d := dieOf cl
  let f := (dieAt m d).xbaFi
  let n := f.toNat
  if !fiLive f || decide (bits n 30 25 ≠ cl % 64) || rowFenced (clAt m cl) (rowOf w) then m
  else
    let m1 := onDie m d (fun x => { x with xbaFi := fiAfter x.xbaFi, xbaFiCount := satAdd x.xbaFiCount 1 })
    onCl m1 cl (fun c =>
      if n % 4 = 3 then
        let v := mword c.scratch w ^^^ BitVec.ofNat 32 (2 ^ bits n 24 20)
        { c with scratch := mputWords c.scratch w [v] }
      else { c with spErr := tset 0 c.spErr w (n % 4) })

/-- An injection at the write of a stack unit: SEL[2:0] of its symbols are wrong. -/
def fiUnit (m : Module) (st off : Nat) : Module :=
  let f := (stkAt m st).fiCtrl
  let k := bits f.toNat 22 20
  if !fiLive f || decide (bits f.toNat 1 0 ≠ 1 ∨ k = 0 ∨ k > 5) || stkFenced (stkAt m st) off then m
  else onStk m st (fun s => { s with
    err := tset 0 s.err (off / 64) k, fiCtrl := fiAfter s.fiCtrl, fiCount := satAdd s.fiCount 1 })

/-- FAULT_INJECTION: the N-th event since FI_CTRL was armed is the one at `site`. -/
def fiStep (m : Module) : FiSite → Module
  | .link e b next => fiLink m e b next
  | .scratch cl w => fiScratch m cl w
  | .unit st off => fiUnit m st off

/-- FAULT_INJECTION. -/
def execFaultInjection (site : FiSite) (s : State) : Host.Outcome State Fault Refusal := ok s (fiStep s.m site)

end Sys2Proof.Machine
end

