-- ==== Sys2Proof/Machine/Submit.lean ====
section
/-! DEFINITION. Submission entries as they arrive (R565 to R568): job descriptors and their checks, admission (R30), the key
commands (R300 to R306), and host reads that end in error (R575). -/
namespace Sys2Proof.Machine

/-! ## Job descriptors -/

/-- The job descriptor of an entry, with its buffer table and patch values (R565). -/
def jobDescOf (ring : Nat) (e tab pat : List Byte) : JobDesc :=
  let nbuf := field e 2 2
  let np := field e 28 2
  { ring := ring, hand := decide (field e 0 1 = 2), unchk := bit (field e 1 1) 0, nbuf := nbuf,
    cid := BitVec.ofNat 32 (field e 4 4), gaddr := BitVec.ofNat 64 (field e 8 8), glen := BitVec.ofNat 64 (field e 16 8),
    hints := BitVec.ofNat 32 (field e 24 4), npatch := np, rcpt := BitVec.ofNat 64 (field e 32 8),
    snap := BitVec.ofNat 64 (field e 40 8), report := BitVec.ofNat 64 (field e 48 8),
    bufs := (List.range (min nbuf 256)).map (fun i => (field tab (16 * i) 8, field tab (16 * i + 8) 8)),
    patches := (List.range (min np 256)).map (fun i => BitVec.ofNat 64 (field pat (8 * i) 8)) }

/-- Whether UNCHECKED may be requested (R462): in MANUFACTURE, or with debug unlocked and SCOPE bit 3. -/
def uncheckedAllowed (h : Hedge) : Bool := decide (lcsOf h.fuses = 1) || (h.debug && h.scope.getLsbD 3)

/-- The number of the first of *Job descriptor checks* 1 to 5 that an entry fails, 0 for none. -/
def jobCheck (h : Hedge) (e tab : List Byte) : Nat :=
  let opc := field e 0 1
  let nbuf := field e 2 2
  let al (o n : Nat) : Bool := decide (field e o 8 % n = 0)
  if !(decide (opc = 1 ∨ opc = 2) && decide (field e 1 1 < 2) && zeroField e 30 2 && zeroField e 72 56) then 1
  else if !(al 8 64 && al 32 64 && al 40 64 && al 48 64 && (decide (nbuf = 0) || al 56 64) && al 64 8) then 2
  else if nbuf > 256 ∨ field e 28 2 > 256 ∨ (opc = 2 ∧ field e 28 2 ≠ 0) then 3
  else if (List.range nbuf).any (fun i =>
      decide (field tab (16 * i) 8 % 64 ≠ 0 ∨ field tab (16 * i + 8) 8 % 64 ≠ 0 ∨ field tab (16 * i + 8) 8 = 0)) then 4
  else if bit (field e 1 1) 0 && !(decide (opc = 2) && uncheckedAllowed h) then 5
  else 0

/-- A job's entry arrives on ring `i` (R560, R566): it waits for admission, or completes with DESC_FORMAT. `mine` says
whether the command is the one for the entry's OPC. -/
def jobArrives (m : Module) (i : Nat) (e tab pat : List Byte) (mine : Nat → Bool) : Module :=
  if !fetchOut m i || !mine (field e 0 1) then m
  else
    let m1 := passEntry m i
    let n := jobCheck m.hedge e tab
    if n = 0 then onQuay m1 (fun q => { q with waiting := q.waiting ++ [jobDescOf i e tab pat] })
    else queueCompletion m1 { ring := i, cid := BitVec.ofNat 32 (field e 4 4), status := 0x20,
                              detail := BitVec.ofNat 8 n }

/-- JOB: an entry whose OPC is 0x01 or is not listed. -/
def execJob (ring : Fin 256) (entry bufTab patchTab : List Byte) (s : State) : Host.Outcome State Fault Refusal :=
  ok s (jobArrives s.m ring entry bufTab patchTab (fun o => !([2, 0x10, 0x11].contains o)))

/-- HAND: an entry whose OPC is 0x02. -/
def execHand (ring : Fin 256) (entry bufTab : List Byte) (s : State) : Host.Outcome State Fault Refusal :=
  ok s (jobArrives s.m ring entry bufTab [] (fun o => decide (o = 2)))

/-- A waiting job is admitted under tag `tag` (R30, R494, R498), with the power cap now in force (R651); a tag in use, or whose
last job is still behind the fence, is not given. -/
def admitStep (m : Module) (tag : Nat) : Module :=
  match m.quay.waiting with
  | [] => m
  | d :: rest =>
    if m.quay.qstate ≠ 0 ∨ inflight m ≥ Config.maxJobs ∨ (jobAt m tag).isSome
        ∨ m.graves.any (fun g => decide (g.job = tag)) then m
    else onQuay m (fun q => { q with
      waiting := rest, admitted := q.admitted + 1,
      jobs := tset none q.jobs tag (some { desc := d, cap := q.pcap.toNat, order := q.admitted.toNat }) })

/-- ADMIT. -/
def execAdmitJob (tag : Fin 1024) (s : State) : Host.Outcome State Fault Refusal := ok s (admitStep s.m tag)

/-! ## Key commands -/

/-- The completion of a key command. -/
def keyCompletion (m : Module) (ring : Nat) (cid : Word) (status : BitVec 8) (count : Word) : Module :=
  queueCompletion m { ring := ring, cid := cid, status := status, count := count }

/-- The pages of a new set written to their slots (R301, R302), over the spokes of the dies that own the stacks (R12). -/
def storePages (m : Module) (k : KeySet) (pages : List (List Byte)) : Module :=
  (k.pages.zip pages).foldl (fun m p => quayPut m p.1 p.2) m

/-- A KEY_LOAD entry arrives (R300, R567, R568): at most four run at once, and none starts under a quiesce. Its pages wait while a
spoke that they cross carries no flits, and while a stack that takes one wipes (R541). -/
def keyLoadStep (m : Module) (i : Nat) (e man : List Byte) (pages : List (List Byte)) : Module :=
  if !fetchOut m i || decide (field e 0 1 ≠ 0x10 ∨ m.quay.uploads.length ≥ 4 ∨ m.quay.qstate ≠ 0) then m
  else
    let cid := BitVec.ofNat 32 (field e 4 4)
    let m1 := passEntry m i
    let form := zeroField e 1 3 && zeroField e 32 96 && decide (field e 8 8 % 64 = 0 ∧ field e 24 8 % 64 = 0
      ∧ man.length = field e 16 8)
    let up (u : KeyUpload) (m : Module) : Module := onQuay m (fun q => { q with uploads := q.uploads ++ [u] })
    if !form then up { ring := i, cid := cid, status := 1 } m1
    else match uploadCheck m.quay.imageSets m.quay.dir m.quay.uploads (fun st => (stkAt m st).retired) man pages with
      | .fail st p => up { ring := i, cid := cid, status := st,
                           page := if st = 7 ∨ st = 8 then BitVec.ofNat 32 p else 0 } m1
      | .good k ps =>
        if k.pages.all (fun a => spokeReady m (stkOf a / 2) && stackOpen m (stkOf a)) then
          up { ring := i, cid := cid, status := 0, set := some k } (storePages m1 k ps)
        else m

/-- KEY_LOAD. -/
def execKeyLoad (ring : Fin 256) (entry manifest : List Byte) (pages : List (List Byte)) (s : State) :
    Host.Outcome State Fault Refusal := ok s (keyLoadStep s.m ring entry manifest pages)

/-- An upload ends (R302): its set enters the directory, unless another upload of the same KSID came first. -/
def keyLoadDoneStep (m : Module) (i : Nat) : Module :=
  match m.quay.uploads[i]? with
  | none => m
  | some u =>
    let m1 := onQuay m (fun q => { q with uploads := ldel q.uploads i })
    match u.set with
    | none => keyCompletion m1 u.ring u.cid u.status u.page
    | some k =>
      if m.quay.dir.any (fun x => decide (x.ksid = k.ksid)) then keyCompletion m1 u.ring u.cid 3 0
      else keyCompletion (onQuay m1 (fun q => { q with dir := q.dir ++ [k] })) u.ring u.cid 0 0

/-- KEY_LOAD_DONE. -/
def execKeyLoadDone (index : Nat) (s : State) : Host.Outcome State Fault Refusal := ok s (keyLoadDoneStep s.m index)

/-- Whether an admitted job names a key set, or another set has it as PEER (R306). -/
def keyBusy (m : Module) (ksid : BitVec 64) : Bool :=
  m.quay.jobs.any (fun p => match p.2 with
    | some j => j.ksids.contains ksid
    | none => false)
  || m.quay.dir.any (fun k => decide (k.peer = ksid ∧ k.ksid ≠ ksid))

/-- A KEY_UNLOAD entry arrives (R306, R311, R567). -/
def keyUnloadStep (m : Module) (i : Nat) (e : List Byte) : Module :=
  if !fetchOut m i || decide (field e 0 1 ≠ 0x11) then m
  else
    let cid := BitVec.ofNat 32 (field e 4 4)
    let ksid := BitVec.ofNat 64 (field e 8 8)
    let m1 := passEntry m i
    if !(zeroField e 1 3 && zeroField e 16 112) then keyCompletion m1 i cid 1 0
    else if !m.quay.dir.any (fun k => decide (k.ksid = ksid)) then keyCompletion m1 i cid 0x0A 0
    else if keyBusy m ksid then keyCompletion m1 i cid 9 0
    else keyCompletion (onQuay m1 (fun q => { q with
      dir := q.dir.filter (fun k => decide (k.ksid ≠ ksid)),
      replicas := q.replicas.filter (fun r => decide (r.ksid ≠ ksid)) })) i cid 0 0

/-- KEY_UNLOAD. -/
def execKeyUnload (ring : Fin 256) (entry : List Byte) (s : State) : Host.Outcome State Fault Refusal :=
  ok s (keyUnloadStep s.m ring entry)

/-! ## Host reads that end in error -/

/-- A host read ends in Unsupported Request, Completer Abort, a poisoned completion or a timeout (R575). -/
def hostReadErrorStep (m : Module) (site : HostReadSite) : Module :=
  match site with
  | .entry i =>
    if fetchOut m i then
      aerReport (queueCompletion (passEntry m i) { ring := i, status := 0x39, detail := 1 }) .completionError
    else m
  | .graph tag => match jobAt m tag with
    | some j =>
      if j.phase = .admitted then aerReport (finishJob m tag 0x39 2 none none) .completionError else m
    | none => m
  | .run tag => match jobAt m tag with
    | some j => if j.phase = .running then aerReport (killJob m tag .hostRead none) .completionError else m
    | none => m
  | .keyLoad i =>
    if i < m.quay.uploads.length then
      aerReport (onQuay m (fun q => { q with
        uploads := lset q.uploads i { (q.uploads.getD i { ring := 0, cid := 0, status := 1 }) with
          status := 1, page := 0, set := none } })) .completionError
    else m

/-- HOST_READ_ERROR. -/
def execHostReadError (site : HostReadSite) (s : State) : Host.Outcome State Fault Refusal :=
  ok s (hostReadErrorStep s.m site)

end Sys2Proof.Machine
end

