-- ==== Sys2Proof/Machine/Reg.lean ====
section
/-! DEFINITION. Register writes and reads (R8 to R10, R548 to R552): every register of BAR0, of the clusters, of the compute
dies and of the PKE at its offset. A register with behaviour of its own is written through the operation that has it. -/
namespace Sys2Proof.Machine

/-! ## Halves of 64-bit registers -/

/-- Which 64-bit register a half belongs to, as one number over all targets. -/
def halfKey (t : RegTarget) (off : Nat) : Nat := match t with
  | .bar0 => off
  | .cluster cl _ => 2 ^ 26 + cl.val * 2 ^ 16 + off
  | .die d _ => 2 ^ 36 + d.val * 2 ^ 24 + off
  | .pke => 2 ^ 40 + off

/-- The low 32 bits of a register. -/
def lowWord (v : BitVec 64) : Word := BitVec.ofNat 32 v.toNat
/-- The high 32 bits of a register. -/
def highWord (v : BitVec 64) : Word := BitVec.ofNat 32 (v.toNat / 2 ^ 32)

/-- A 32-bit write to half of a 64-bit register of value `cur` (R550): the value takes effect at the upper half. -/
def writeHalf (m : Module) (key : Nat) (upper : Bool) (v : Word) (cur : BitVec 64) (f : BitVec 64 → Module → Module) :
    Module :=
  if upper then
    let lo : Word := (tget none m.quay.half key).getD (lowWord cur)
    f (v ++ lo) (onQuay m (fun q => { q with half := tset none q.half key none }))
  else onQuay m (fun q => { q with half := tset none q.half key (some v) })

/-! ## Clusters -/

/-- Whether breakpoint registers may be written (R483). -/
def brkAllowed (h : Hedge) : Bool := decide (lcsOf h.fuses = 1) || (h.debug && h.scope.getLsbD 1)

/-- SCB_CTRL.UNCHECKED: a bit is set only while R462 allows it. -/
def scbCtrlWrite (m : Module) (cl : Nat) (v : Word) : Module :=
  let u := BitVec.ofNat 8 v.toNat
  onCl m cl (fun c => { c with unchecked := if uncheckedAllowed m.hedge then u else c.unchecked &&& u })

/-- The engine whose STATUS word stands at an offset of its block. -/
def statusOff : Engine → Nat
  | .nte => 0x018
  | .rme => 0x04C
  | .vec => 0x100

/-- A write to an engine's block: the pending set, the modulus table, and the sticky bits (R165, R191, R733). -/
def engWrite (e : Engine) (off : Nat) (v : Word) (c : Cluster) : Cluster :=
  let n := engNo e
  let w := off / 4
  if off = statusOff e then onEng c e (fun x => engStatusW1c x v.toNat)
  else if off = 0x088 ∧ e ≠ .vec then onEng c e (fun x => chnStatusW1c x v.toNat)
  else if !winMapped n w then c
  else if n = 0 ∧ w ≥ 0x100 then { c with mods := modTabWrite c.mods (w - 0x100) v }
  else onEng c e (fun x => { x with cfg := tset 0 x.cfg w (maskW v (cfgMask n w)) })

/-- Index of a read-port control in the table, and its bits (*SEQ_RIX_p*). -/
def rixKeyOf (off : Nat) : Nat := 4 * ((off - 0x600) / 4 % 4) + (off - 0x600) / 16
def rixMaskOf (off : Nat) : Nat := if off < 0x610 then 0x1FFFFFF else if off < 0x620 then 0x3FFFFFFF else 0x1FFFFF
/-- Whether an offset names a read-port control. -/
def isRix (off : Nat) : Bool := decide (0x600 ≤ off ∧ off < 0x630 ∧ (off - 0x600) / 4 % 4 ≠ 3)

/-- A write to the SEQ block: breakpoints, RESUME, read-port controls, landing pairs, parameters and handle registers. -/
def seqWrite (m : Module) (cl off : Nat) (v : Word) : Module :=
  if 0x080 ≤ off ∧ off < 0x0A0 then
    (if brkAllowed m.hedge then onCl m cl (fun c => { c with brk := tset 0 c.brk ((off - 0x080) / 4) v }) else m)
  else if off = 0x0A0 then (if bit v.toNat 1 then resumeStep m (dieOf cl) else m)
  else if isRix off then onCl m cl (fun c => { c with rix := tset 0 c.rix (rixKeyOf off) (maskW v (rixMaskOf off)) })
  else if 0x700 ≤ off ∧ off < 0x800 then onCl m cl (lpWriteCl ((off - 0x700) / 8) (decide (off % 8 = 4)) v)
  else if 0x1000 ≤ off ∧ off < 0x5000 then
    let k := (off - 0x1000) / 0x800
    let p := (off - 0x1000) % 0x800 / 8
    writeHalf m (2 ^ 26 + cl * 2 ^ 16 + off / 8 * 8) (decide (off % 8 = 4)) v (tget (0 : BitVec 64) (ctxOf (clAt m cl) k).params p)
      (fun x m => onCl m cl (fun c => onCtx c k (fun y => { y with params := tset 0 y.params p x })))
  else if 0x5000 ≤ off ∧ off < 0x5200 then
    onCl m cl (fun c => onCtx c ((off - 0x5000) / 64) (fun y => { y with
      handles := tset 0xFFFFFFFF y.handles ((off - 0x5000) % 64 / 4) v }))
  else m

/-- A 32-bit write to a block of a cluster. -/
def clWrite (m : Module) (cl : Nat) (b : ClBlock) (off : Nat) (v : Word) : Module := match b with
  | .seq => seqWrite m cl off v
  | .scb => if off = 0 then scbCtrlWrite m cl v else m
  | .nte => onCl m cl (engWrite .nte off v)
  | .rme => onCl m cl (engWrite .rme off v)
  | .vec => onCl m cl (engWrite .vec off v)

/-! ## Compute dies -/

/-- FREEQ and FQV of a ledger entry. -/
def ledgerWrite (l : Ledger) (w : Nat) (v : Word) : Ledger :=
  if w = 0 then { l with freeq := BitVec.ofNat 15 v.toNat, fqv := bit v.toNat 15 } else l

/-- A write to a credit entry: writing GRANT sets AVAIL to it. -/
def creditWrite (e : Credit) (w : Nat) (v : Word) : Credit :=
  let n := v.toNat
  if w = 0 then { e with qaddr := BitVec.ofNat 15 n, valid := bit n 15, job := BitVec.ofNat 10 (n / 2 ^ 16) }
  else { e with grant := BitVec.ofNat 9 n, avail := BitVec.ofNat 9 n }

/-- A write to the STE block. -/
def steWrite (m : Module) (d off : Nat) (v : Word) : Module :=
  if off = 0x040 then dcmtStep m d (maskW v 0x3FFFFF)
  else if 0x10000 ≤ off ∧ off < 0x90000 then
    onDie m d (descWriteDie ((off - 0x10000) / 128) ((off - 0x10000) % 128 / 4) v)
  else if 0x90000 ≤ off ∧ off < 0x98000 then
    onDie m d (fun x => { x with pool := tset 0 x.pool ((off - 0x90000) / 4) (maskW v (poolMask ((off - 0x90000) % 32 / 4))) })
  else if 0xA0000 ≤ off ∧ off < 0xA8000 then
    onDie m d (fun x => { x with
      ledger := tmod {} x.ledger ((off - 0xA0000) / 32) (fun l => ledgerWrite l ((off - 0xA0000) % 32 / 4) v) })
  else if off = 0xA8000 then onDie m d (fun x => if bit v.toNat 31 then { x with ldgFault := 0 } else x)
  else if 0xB0000 ≤ off ∧ off < 0xB0200 then
    onDie m d (fun x => { x with sd := tset 0 x.sd ((off - 0xB0000) / 4) (maskW v (sdMask ((off - 0xB0000) % 32 / 4))) })
  else if 0xB0200 ≤ off ∧ off < 0xB0240 then
    onDie m d (fun x => { x with
      ste := tmod {} x.ste ((off - 0xB0200) / 4) (fun e => { e with overrun := e.overrun && !bit v.toNat 2 }) })
  else m

/-- A write to the FER block. -/
def ferWrite (m : Module) (d off : Nat) (v : Word) : Module :=
  let n := v.toNat
  if off = 0 ∨ off = 4 then
    writeHalf m (2 ^ 36 + d * 2 ^ 24) (decide (off = 4)) v (dieAt m d).ferBase (fun x m =>
      onDie m d (fun y => { y with ferBase := x &&& 0x1FFFFFFFFFF }))
  else if off = 8 then
    onDie m d (fun x => { x with ferCrc := x.ferCrc && !bit n 2, ferBind := x.ferBind && !bit n 3,
                                 ferExhaust := x.ferExhaust && !bit n 4, ferLate := x.ferLate && !bit n 5 })
  else m

/-- XBA_MODE_l: REFUSED is cleared by a 1; a field whose value changes is written, HASHOFF under the mode that was. -/
def xbaModeWrite (v : Word) (c : Cluster) : Cluster :=
  let n := v.toNat
  let c1 := { c with refused := c.refused && !bit n 2 }
  let c2 := if bit n 1 = c1.hashoff then c1 else hashoffCl (bit n 1) c1
  if bit n 0 = c2.restricted then c2 else restrictCl (bit n 0) c2

/-- A write to the MSC block of stack `st`. -/
def mscWrite (m : Module) (st off : Nat) (v : Word) : Module :=
  if off = 0x080 then (if bit v.toNat 0 then onStk m st (fun t => { t with flips := t.flips ++ [m.now] }) else m)
  else if off = 0x0F0 then fiWrite m (.msc (Fin.ofNat 16 st)) v
  else if 0x100 ≤ off ∧ off < 0x100 + 4 * 152 then
    onStk m st (fun t => { t with shadow := tset 0 t.shadow ((off - 0x100) / 4) (BitVec.ofNat 5 v.toNat) })
  else m

/-- A 32-bit write to a block of a die. -/
def dieWrite (m : Module) (d : Nat) (b : DieBlock) (off : Nat) (v : Word) : Module := match b with
  | .fer => ferWrite m d off v
  | .ste => steWrite m d off v
  | .pon =>
    if off = 0x0F0 ∨ off = 0x1F0 ∨ off = 0x2F0 then fiWrite m (.pon (Fin.ofNat 8 d) (Fin.ofNat 3 (off / 0x100))) v
    else if 0x1000 ≤ off ∧ off < 0x2000 then
      onDie m d (fun x => { x with credits := tmod {} x.credits ((off - 0x1000) / 8) (fun e => creditWrite e (off % 8 / 4) v) })
    else m
  | .xba =>
    if off < 0x100 then onCl m (64 * d + off / 4) (xbaModeWrite v)
    else if off = 0xF00 then fiWrite m (.xba (Fin.ofNat 8 d)) v
    else m
  | .msc0 => mscWrite m (2 * d) off v
  | .msc1 => mscWrite m (2 * d + 1) off v

/-! ## BAR0 -/

/-- GLB_CTRL: each bit that is 1, or the locked bits' new values (R498, R580, R669). -/
def glbCtrlWrite (m : Module) (v : Word) : Module :=
  let n := v.toNat
  let m1 := if bit n 0 then quiesceStep m false else m
  let m2 := if bit n 1 then qrelStep m1 else m1
  let m3 := if m2.quay.lock then m2 else (if bit n 3 then lockStep (idereqStep m2 (bit n 2)) else idereqStep m2 (bit n 2))
  wresetStep m3 (BitVec.ofNat 8 (n / 2 ^ 24))

/-- A write to word `off` of the MSI-X table: a vector that is unmasked while it is pending is signalled. -/
def msixWrite (m : Module) (off : Nat) (v : Word) : Module :=
  let i := (off - 0x80000) / 16
  if off % 16 ≠ 12 then onQuay m (fun q => { q with msixTable := tset 0 q.msixTable ((off - 0x80000) / 4) v })
  else
    let m1 := onQuay m (fun q => { q with msixCtl := tset 1 q.msixCtl i (maskW v 1) })
    if tget false m.quay.msixPba i && !bit v.toNat 0 then
      signalVec (onQuay m1 (fun q => { q with msixPba := tset false q.msixPba i false })) i
    else m1

/-- A 32-bit write to GLB, with the MSI-X table. -/
def glbWrite (m : Module) (off : Nat) (v : Word) : Module :=
  let n := v.toNat
  if off = 0x14 then glbCtrlWrite m v
  else if off = 0x18 ∨ off = 0x1C then
    writeHalf m 0x18 (decide (off = 0x1C)) v 0 (fun x m => glbKillStep m (x.toNat % 1024) (highWord x))
  else if off = 0x20 then glbHostStep m v
  else if off = 0x24 then glbPcapStep m v
  else if off = 0x30 then onQuay m (fun q => { q with evt := q.evt &&& ~~~(BitVec.ofNat 7 n) })
  else if off = 0x34 then onQuay m (fun q => { q with evtEn := BitVec.ofNat 7 n })
  else if 0x80000 ≤ off ∧ off < 0x82000 then msixWrite m off v
  else m

/-- A base register of a ring, ignored while its ring is enabled (R554). -/
def ringBase (m : Module) (i : Nat) (cq : Bool) (x : BitVec 64) : Module :=
  let r := ringAt m i
  if cq then (if r.cqEn then m else onRing m i (fun r => { r with cqBase := x }))
  else (if r.sqEn then m else onRing m i (fun r => { r with sqBase := x }))

/-- A 32-bit write to RING_i. -/
def ringRegWrite (m : Module) (off : Nat) (v : Word) : Module :=
  let i := (off - 0x100000) / 64
  let o := off % 64
  let r := ringAt m i
  if o < 8 then writeHalf m (off / 8 * 8) (decide (o = 4)) v r.sqBase (fun x m => ringBase m i false x)
  else if o < 16 then writeHalf m (off / 8 * 8) (decide (o = 12)) v r.cqBase (fun x m => ringBase m i true x)
  else if o = 0x10 then sqCfgWrite m i v
  else if o = 0x14 then cqCfgWrite m i v
  else if o = 0x18 then onRing m i (fun r => { r with
    coalCount := BitVec.ofNat 8 v.toNat, coalTime := BitVec.ofNat 16 (v.toNat / 256) })
  else m

/-- A 32-bit write to HMB: while a command runs, HMB_CMD, HMB_GO and HMB_DATA do not change (R619). -/
def hmbWrite (m : Module) (off : Nat) (v : Word) : Module :=
  let n := v.toNat
  let busy := m.hedge.mail.isSome
  if off = 0 then (if busy then m else onHedge m (fun h => { h with hmbOpc := BitVec.ofNat 8 n, hmbLen := BitVec.ofNat 13 (n / 256) }))
  else if off = 4 then (if bit n 0 then mailGo m else m)
  else if off = 8 then onHedge m (fun h => { h with hmbDone := h.hmbDone && !bit n 1 })
  else if off = 0xC then onHedge m (fun h => { h with hmbIen := bit n 0 })
  else if 0x1000 ≤ off ∧ off < 0x2000 ∧ !busy then
    onHedge m (fun h => { h with hmbData := mput h.hmbData (off - 0x1000) (leBytes 4 n) })
  else m

/-- A 32-bit write to BAR0, by block (R548, R585). -/
def bar0Word (m : Module) (off : Nat) (v : Word) : Module :=
  if off < 0x100000 then glbWrite m off v
  else if off < 0x104000 then (if m.quay.ready then ringRegWrite m off v else m)
  else if 0x200000 ≤ off ∧ off < 0x300000 then
    (if !m.quay.ready then m
     else if off % 4096 = 0 then sqTailStep m ((off - 0x200000) / 4096) (BitVec.ofNat 16 v.toNat)
     else if off % 4096 = 4 then cqHeadStep m ((off - 0x200000) / 4096) (BitVec.ofNat 16 v.toNat)
     else m)
  else if 0x800000 ≤ off ∧ off < 0x810000 then hmbWrite m (off - 0x800000) v
  else m

/-! ## PKE -/

/-- A 32-bit write to the PKE block. -/
def pkeWrite (m : Module) (off : Nat) (v : Word) : Module :=
  let n := v.toNat
  if off = 0 then pkeRegs m (fun k => { k with opc := BitVec.ofNat 8 n, cls := BitVec.ofNat 2 (n / 256) })
  else if off = 4 then pkeRegs m (fun k => { k with ops := v })
  else if off = 8 then pkeRegs m (fun k => { k with list := BitVec.ofNat 19 n })
  else if off = 0xC then (if bit n 0 then pkeStart m else m)
  else if off = 0x10 then onPke m (fun k => { k with
    done := k.done && !bit n 1, ignored := k.ignored && !bit n 3, wiped := k.wiped && !bit n 4 })
  else if off = 0x18 then (if bit n 0 then pkeWipeStep m else m)
  else if off = 0x20 then onPke m (fun k => { k with dmaSrc := BitVec.ofNat 21 n })
  else if off = 0x24 then onPke m (fun k => { k with dmaCtl := BitVec.ofNat 18 n })
  else if off = 0x28 then (if bit n 0 then pkeDmaStart m else m)
  else if off = 0x2C then onPke m (fun k => { k with dmaDone := k.dmaDone && !bit n 1, dmaRefused := k.dmaRefused && !bit n 2 })
  else if off = 0x30 then onPke m (fun k => { k with ien := BitVec.ofNat 2 n })
  else m

/-! ## Any register -/

/-- A 32-bit write to a register. -/
def regWord (m : Module) (t : RegTarget) (off : Nat) (v : Word) : Module := match t with
  | .bar0 => bar0Word m off v
  | .cluster cl b => clWrite m cl b off v
  | .die d b => dieWrite m d b off v
  | .pke => pkeWrite m off v

/-- A write of 32 or 64 bits at an aligned offset. A 64-bit write is its lower word and then its upper word, so that a
64-bit register takes effect whole (R550). -/
def regWrite (m : Module) (t : RegTarget) (off : Nat) (wide : Bool) (v : BitVec 64) : Module :=
  if off % (if wide then 8 else 4) ≠ 0 then m
  else if wide then regWord (regWord m t off (lowWord v)) t (off + 4) (highWord v)
  else regWord m t off (lowWord v)

/-- REGISTER_WRITE: a BAR0 write that R549 does not accept is dropped and reported through AER. -/
def registerWriteStep (m : Module) (t : RegTarget) (off : Nat) (wide : Bool) (v : BitVec 64) : Module := match t with
  | .bar0 =>
    bar0 m (fun m => if off % (if wide then 8 else 4) ≠ 0 then aerReport m (.unsupportedRequest false (BitVec.ofNat 25 off))
      else regWrite m t off wide v)
  | _ => if alive m then regWrite m t off wide v else m

/-- REGISTER_WRITE. -/
def execRegisterWrite (t : RegTarget) (off : Nat) (wide : Bool) (v : BitVec 64) (s : State) :
    Host.Outcome State Fault Refusal := ok s (registerWriteStep s.m t off wide v)

end Sys2Proof.Machine
end

