-- ==== Sys2Proof/Machine/RegRead.lean ====
section
/-! DEFINITION. What a read of each register returns (R8, R9, R548 to R552), and the test port (R588, R604, R615). A read
changes nothing. -/
namespace Sys2Proof.Machine

/-- Word `i` of a number. -/
def wordOf (x i : Nat) : Nat := bits x (32 * i + 31) (32 * i)

/-! ## Clusters -/

/-- Word `w` of SEQ_CTX_c on die `d`: STATE 2 while the die is halted (R480). -/
def ctxRead (m : Module) (d : Die) (c : Cluster) (k w : Nat) : Nat :=
  let x := ctxOf c k
  let pc := x.base + 4 * x.pc
  let pclk := if x.state = 0 then 0 else planClock m.now x
  let state := if x.state ≠ 0 ∧ d.halted = true then 2 else x.state.toNat
  match w with
  | 0 => state + 4 * (x.job % 1024) + 4096 * b2n (c.unchecked.getLsbD k)
  | 1 => wordOf pc 0
  | 2 => wordOf (pc % 2 ^ 41) 1
  | 3 => wordOf x.origin 0
  | 4 => wordOf (x.origin % 2 ^ 48) 1
  | 5 => wordOf pclk 0
  | 6 => wordOf (pclk % 2 ^ 48) 1
  | 7 => satN 32 x.slipTotal
  | 8 => satN 32 x.slipEvents
  | 9 => x.lastCause.toNat + 16 * (x.lastOffset % 2 ^ 28)
  | 10 => x.curtag.toNat
  | 11 => x.kill.toNat
  | _ => 0

/-- The SEQ block. -/
def seqRead (m : Module) (cl off : Nat) : Nat :=
  let c := clAt m cl
  let d := dieAt m (dieOf cl)
  if 0x080 ≤ off ∧ off < 0x0A0 then (tget (0 : Word) c.brk ((off - 0x080) / 4)).toNat
  else if off = 0x0A0 then b2n d.halted + 4 * d.haltSrc.toNat + 2048 * d.haltCtx.toNat
  else if 0x100 ≤ off ∧ off < 0x300 then ctxRead m d c ((off - 0x100) / 64) ((off - 0x100) % 64 / 4)
  else if isRix off then (tget (0 : Word) c.rix (rixKeyOf off)).toNat
  else if 0x700 ≤ off ∧ off < 0x800 then (tget (0 : Word) c.lp ((off - 0x700) / 4)).toNat
  else if 0x1000 ≤ off ∧ off < 0x5000 then
    wordOf (tget (0 : BitVec 64) (ctxOf c ((off - 0x1000) / 0x800)).params ((off - 0x1000) % 0x800 / 8)).toNat (off % 8 / 4)
  else if 0x5000 ≤ off ∧ off < 0x5200 then
    (tget (0xFFFFFFFF : Word) (ctxOf c ((off - 0x5000) / 64)).handles ((off - 0x5000) % 64 / 4)).toNat
  else if 0x5200 ≤ off ∧ off < 0x5220 then (ctxOf c ((off - 0x5200) / 4)).own.toNat
  else if 0x5220 ≤ off ∧ off < 0x5240 then (ctxOf c ((off - 0x5220) / 4)).wdog % 2 ^ 29
  else 0

/-- The SCB block: the entry at place `i` of the scoreboard is SCB_ENT_i. -/
def scbRead (c : Cluster) (off : Nat) : Nat :=
  if off = 0 then c.unchecked.toNat
  else if off = 0x10 then c.holdRbf.toNat
  else if off = 0x14 then c.holdObd.toNat
  else if off = 0x18 then c.holdFull.toNat
  else if off = 0x1C then c.conflicts.toNat
  else if 0x100 ≤ off ∧ off < 0x300 then
    match c.scb[(off - 0x100) / 8]? with
    | some e => if off % 8 = 0 then e.lo % 2 ^ 21 + 2 ^ 21 * b2n e.wr + 2 ^ 22 * (e.ctx % 8) + 2 ^ 25 * (e.eng % 8) + 2 ^ 31
                else e.hi % 2 ^ 21
    | none => 0
  else 0

/-- Word `w` of a modulus table entry. -/
def modRead (e : ModEntry) (w : Nat) : Nat :=
  if w = 0 then e.q.toNat else if w = 1 then e.psi.toNat else if w = 2 then e.psiinv.toNat
  else e.ne.toNat + 2 ^ 31 * b2n e.valid

/-- An engine's block: the pending set, the modulus table, STATUS and CHN_STATUS. -/
def engRead (e : Engine) (off : Nat) (c : Cluster) : Nat :=
  let n := engNo e
  let w := off / 4
  let x := engOf c e
  if off = statusOff e then engStatus x
  else if off = 0x088 ∧ e ≠ .vec then chnStatus x
  else if !winMapped n w then 0
  else if n = 0 ∧ w ≥ 0x100 then modRead (tget {} c.mods ((w - 0x100) / 4)) ((w - 0x100) % 4)
  else (tget (0 : Word) x.cfg w).toNat

/-- A block of a cluster. -/
def clRead (m : Module) (cl : Nat) (b : ClBlock) (off : Nat) : Nat := match b with
  | .seq => seqRead m cl off
  | .scb => scbRead (clAt m cl) off
  | .nte => engRead .nte off (clAt m cl)
  | .rme => engRead .rme off (clAt m cl)
  | .vec => engRead .vec off (clAt m cl)

/-! ## Compute dies -/

/-- STE_DSTAT_n. -/
def dstatRead (s : DStat) : Nat :=
  b2n s.valid + 2 * b2n s.busy + 4 * s.code.toNat + 16 * s.check.toNat + 2 ^ 16 * s.job.toNat

/-- Word `w` of a ledger entry. -/
def ledgerRead (l : Ledger) (w : Nat) : Nat :=
  if w = 0 then l.freeq.toNat + 32768 * b2n l.fqv else if w = 1 then l.free.toNat else if w = 2 then l.queued.toNat
  else if w = 3 then l.held.toNat else if w = 4 then l.transit.toNat else 0

/-- STE_SSTAT_s. -/
def sstatRead (e : StreamEngine) : Nat :=
  b2n e.active.isSome + 2 * b2n e.armed + 4 * b2n e.overrun + 8 * (match e.active with
    | some s => s.job % 1024
    | none => 0)

/-- The STE block. -/
def steRead (d : Die) (off : Nat) : Nat :=
  if off = 0x050 then d.oobWr.toNat
  else if off = 0x054 then d.padClip.toNat
  else if 0x8000 ≤ off ∧ off < 0xC000 then dstatRead (tget {} d.dstat ((off - 0x8000) / 4))
  else if 0x10000 ≤ off ∧ off < 0x90000 then (tget (0 : Word) d.desc ((off - 0x10000) / 4)).toNat
  else if 0x90000 ≤ off ∧ off < 0x98000 then (tget (0 : Word) d.pool ((off - 0x90000) / 4)).toNat
  else if 0xA0000 ≤ off ∧ off < 0xA8000 then ledgerRead (tget {} d.ledger ((off - 0xA0000) / 32)) ((off - 0xA0000) % 32 / 4)
  else if off = 0xA8000 then d.ldgFault.toNat
  else if 0xB0000 ≤ off ∧ off < 0xB0200 then (tget (0 : Word) d.sd ((off - 0xB0000) / 4)).toNat
  else if 0xB0200 ≤ off ∧ off < 0xB0240 then sstatRead (tget {} d.ste ((off - 0xB0200) / 4))
  else 0

/-- Whether a page check of a cluster is outstanding. -/
def checksOut (c : Cluster) : Bool := [c.nte, c.rme, c.vec].any (fun e => match e.run with
  | some o => o.pages.any (fun p => p.report.isNone)
  | none => false)

/-- FER_TOKENS_l: free tokens, and held tokens. -/
def tokensRead (d : Die) (l : Nat) : Nat :=
  let ws := d.windows.filter (fun w => decide (w.cl = l))
  let held := lsum (ws.map (fun w => (w.frames.filter (fun p => decide (p.2.st ≠ 0))).length))
  (lsum (ws.map (·.size)) - held) % 2048 + 2048 * (held % 2048)

/-- The FER block. -/
def ferRead (m : Module) (n off : Nat) : Nat :=
  let d := dieAt m n
  let busy := d.ferBusy || d.windows.any (fun w => w.frames.any (fun p => decide (p.2.reading ≠ 0)))
  let unconf := (List.range 64).any (fun l => checksOut (clAt m (64 * n + l)))
  if off = 0 then wordOf d.ferBase.toNat 0
  else if off = 4 then wordOf d.ferBase.toNat 1
  else if off = 8 then b2n busy + 2 * b2n unconf + 4 * b2n d.ferCrc + 8 * b2n d.ferBind + 16 * b2n d.ferExhaust
    + 32 * b2n d.ferLate + 2 ^ 16 * d.cmdIdx.toNat
  else if off = 0x10 then d.ferPages.toNat
  else if off = 0x14 then d.ferCrcFails.toNat
  else if off = 0x18 then d.ferBindFails.toNat
  else if off = 0x1C then d.ferLateCycles.toNat
  else if 0x100 ≤ off ∧ off < 0x200 then tokensRead d ((off - 0x100) / 4)
  else 0

/-- Counter `i` of *PON link counters*. -/
def linkRead (l : Link) (i : Nat) : Nat :=
  if i = 0 then l.crcErr.toNat else if i = 1 then l.seqErr.toNat else if i = 2 then l.nakTx.toNat
  else if i = 3 then l.retries.toNat else if i = 4 then l.exhaust.toNat + 2 ^ 16 * l.retrain.toNat else 0

/-- The PON block: link counters, fault injection and credit entries. -/
def ponRead (d : Die) (off : Nat) : Nat :=
  let l : Link := tget {} d.links (off / 0x100)
  if off < 0x300 then
    (if off % 0x100 = 0xF0 then l.fiCtrl.toNat else if off % 0x100 = 0xF4 then l.fiCount.toNat
     else linkRead l (off % 0x100 / 4))
  else if 0x1000 ≤ off ∧ off < 0x2000 then
    let e : Credit := tget {} d.credits ((off - 0x1000) / 8)
    if off % 8 = 0 then e.qaddr.toNat + 32768 * b2n e.valid + 2 ^ 16 * e.job.toNat
    else e.grant.toNat + 2 ^ 16 * e.avail.toNat
  else 0

/-- The XBA block of a die. -/
def xbaRead (m : Module) (n off : Nat) : Nat :=
  let d := dieAt m n
  if off < 0x100 then
    let c := clAt m (64 * n + off / 4)
    b2n c.restricted + 2 * b2n c.hashoff + 4 * b2n c.refused + 8 * b2n c.wiping
  else if off < 0x500 then
    let c := clAt m (64 * n + (off - 0x100) / 16)
    let i := off % 16 / 4
    if i = 0 then c.eccCorr.toNat else if i = 1 then c.eccUnc.toNat
    else if i = 2 then c.eccDrop.toNat + 2 ^ 16 * c.fenceHits.toNat
    else c.restrictHits.toNat + 2 ^ 16 * (c.fence.length % 2 ^ 16)
  else if off = 0xF00 then d.xbaFi.toNat
  else if off = 0xF04 then d.xbaFiCount.toNat
  else 0

/-- The MSC block of a stack. -/
def mscRead (s : Stack) (off : Nat) : Nat :=
  let lastUnc := s.lastUnc.toNat
  if off = 0 then s.state.toNat + 8 * s.level.toNat + 512 * b2n s.crit + 1024 * b2n s.eos + 2048 * b2n (decide (s.fence ≠ []))
  else if off = 4 then s.temp.toNat + 2 ^ 16 * s.tmax.toNat
  else if off = 8 then s.tthrot.toNat
  else if off = 0x10 then s.eccCorr.toNat
  else if off = 0x14 then s.eccUnc.toNat
  else if off = 0x18 then s.eccDrop.toNat
  else if off = 0x1C then s.thrFrames.toNat
  else if off = 0x20 then s.slowFrames.toNat
  else if off = 0x24 then ceilDiv (lsum (s.fence.map (·.len))) (2 ^ 20) % 2 ^ 17
  else if off = 0x28 then wordOf lastUnc 0
  else if off = 0x2C then wordOf lastUnc 1
  else if off = 0xF0 then s.fiCtrl.toNat
  else if off = 0xF4 then s.fiCount.toNat
  else if 0x100 ≤ off ∧ off < 0x100 + 4 * 152 then
    let p := (off - 0x100) / 4
    (tget (0 : BitVec 5) s.shadow p).toNat + 32 * (tget (0 : BitVec 5) s.map p).toNat
  else 0

/-- A block of a compute die. -/
def dieRead (m : Module) (d : Nat) (b : DieBlock) (off : Nat) : Nat := match b with
  | .fer => ferRead m d off
  | .ste => steRead (dieAt m d) off
  | .pon => ponRead (dieAt m d) off
  | .xba => xbaRead m d off
  | .msc0 => mscRead (stkAt m (2 * d)) off
  | .msc1 => mscRead (stkAt m (2 * d + 1)) off

/-! ## BAR0 and the PKE -/

/-- GLB_STATUS. -/
def glbStatus (m : Module) : Nat :=
  b2n m.quay.ready + 2 * lcsOf m.hedge.fuses + 16 * m.quay.qstate.toNat + 64 * b2n m.hedge.debug + 128 * b2n (muted m)
    + 256 * (m.hedge.rate % 4096)

/-- GLB, with the MSI-X table and the pending bits. -/
def glbRead (m : Module) (off : Nat) : Nat :=
  let q := m.quay
  if off = 0 then 0x01005108
  else if off = 8 then wordOf m.hedge.fuses.serial.toNat 0
  else if off = 0xC then wordOf m.hedge.fuses.serial.toNat 1
  else if off = 0x10 then glbStatus m
  else if off = 0x14 then 4 * b2n q.ideReq + 8 * b2n q.lock
  else if off = 0x20 then q.rdRate.toNat + 1024 * q.wrRate.toNat + 2 ^ 20 * q.rdLat.toNat
  else if off = 0x24 then q.pcap.toNat
  else if off = 0x30 then q.evt.toNat
  else if off = 0x34 then q.evtEn.toNat
  else if 0x80000 ≤ off ∧ off < 0x82000 then
    (if off % 16 = 12 then (tget (1 : Word) q.msixCtl ((off - 0x80000) / 16)).toNat
     else (tget (0 : Word) q.msixTable ((off - 0x80000) / 4)).toNat)
  else if 0x82000 ≤ off ∧ off < 0x82040 then
    lsum ((List.range 32).map (fun i => 2 ^ i * b2n (tget false q.msixPba (8 * (off - 0x82000) + i))))
  else 0

/-- RING_i. -/
def ringRead (r : Ring) (o : Nat) : Nat :=
  if o = 0 then wordOf r.sqBase.toNat 0 else if o = 4 then wordOf r.sqBase.toNat 1
  else if o = 8 then wordOf r.cqBase.toNat 0 else if o = 12 then wordOf r.cqBase.toNat 1
  else if o = 0x10 then r.sqLogsz.toNat + 256 * r.cqid.toNat + 2 ^ 31 * b2n r.sqEn
  else if o = 0x14 then r.cqLogsz.toNat + 2 ^ 16 * r.vec.toNat + 2 ^ 30 * b2n r.ien + 2 ^ 31 * b2n r.cqEn
  else if o = 0x18 then r.coalCount.toNat + 256 * r.coalTime.toNat
  else if o = 0x1C then r.sqHead.toNat
  else if o = 0x20 then r.cqTail.toNat + 2 ^ 16 * b2n r.phase
  else if o = 0x24 then r.err.toNat
  else if o = 0x28 then r.dbign.toNat
  else 0

/-- Both ends of every Pontoon link. -/
def allLinks (m : Module) : List Link :=
  (List.range 8).flatMap (fun d => (List.range 3).map (fun l => linkAt m (.pon (Fin.ofNat 8 d) (Fin.ofNat 3 l)))
    ++ [linkAt m (.quay (Fin.ofNat 8 d))])

/-- A 64-bit telemetry figure that starts at an offset (*TEL registers*, *TEL error registers*). -/
def telWide (m : Module) (off : Nat) : Option Nat :=
  let overCl (f : Cluster → Nat) : Nat := lsum (m.clusters.map (fun p => f p.2))
  let overStk (f : Stack → Nat) : Nat := lsum (m.stks.map (fun p => f p.2))
  if off = 0 then some m.quay.admitted.toNat
  else if off = 8 then some m.quay.finished.toNat
  else if off = 0xA0 then some m.quay.slips.toNat
  else if off = 0x1000 then some m.quay.replays.toNat
  else if off = 0x1008 then some m.quay.audits.toNat
  else if off = 0x1010 then some m.quay.auditFails.toNat
  else if off = 0x1018 then some (overCl (fun c => c.eccCorr.toNat))
  else if off = 0x1020 then some (overCl (fun c => c.eccUnc.toNat))
  else if off = 0x1028 then some (overStk (fun s => s.eccCorr.toNat))
  else if off = 0x1030 then some (overStk (fun s => s.eccUnc.toNat))
  else if off = 0x1038 then some (lsum ((allLinks m).map (fun l => l.retries.toNat)))
  else none

/-- TEL. -/
def telRead (m : Module) (off : Nat) : Nat :=
  let q := m.quay
  match telWide m (off / 8 * 8) with
  | some x => wordOf x (off % 8 / 4)
  | none =>
    if off = 0x10 then inflight m % 2048
    else if off = 0x14 then q.plans.length
    else if off = 0x18 then q.dir.length
    else if off = 0x1C then lsum (q.dir.map (fun k => k.objects.length))
    else if off = 0x20 then q.power.toNat
    else if 0x40 ≤ off ∧ off < 0x60 then (dieAt m ((off - 0x40) / 4)).temp.toNat
    else if 0x60 ≤ off ∧ off < 0xA0 then (stkAt m ((off - 0x60) / 4)).temp.toNat
    else if off = 0x1040 then lsum ((allLinks m).map (fun l => l.exhaust.toNat))
    else if off = 0x1044 then q.ievents.toNat
    else if off = 0x1048 then m.hedge.fenceMask.length
    else if off = 0x104C then m.hedge.rate % 4096 + 4096 * b2n m.hedge.warn + 8192 * b2n q.eos + 2 ^ 16 * satN 16 m.hedge.reviews
    else if 0x1100 ≤ off ∧ off < 0x1200 then linkRead (linkAt m (.quay (Fin.ofNat 8 ((off - 0x1100) / 32)))) (off % 32 / 4)
    else 0

/-- HMB. -/
def hmbRead (h : Hedge) (off : Nat) : Nat :=
  if off = 0 then h.hmbOpc.toNat + 256 * h.hmbLen.toNat
  else if off = 8 then b2n h.mail.isSome + 2 * b2n h.hmbDone + 256 * h.hmbCode.toNat + 2 ^ 16 * h.hmbRlen.toNat
  else if off = 0xC then b2n h.hmbIen
  else if 0x1000 ≤ off ∧ off < 0x2000 then leNat (mbytes h.hmbData (off - 0x1000) 4)
  else 0

/-- A 32-bit read of BAR0: an offset that no block maps returns 0 (R548); a module that has not booted answers nothing. -/
def bar0Read (m : Module) (off : Nat) : Nat :=
  if off < 0x100000 then glbRead m off
  else if off < 0x104000 then ringRead (ringAt m ((off - 0x100000) / 64)) (off % 64)
  else if 0x400000 ≤ off ∧ off < 0x410000 then telRead m (off - 0x400000)
  else if 0x800000 ≤ off ∧ off < 0x810000 then hmbRead m.hedge (off - 0x800000)
  else 0

/-- The PKE block. Operand memory is not among its registers (R624). -/
def pkeRead (k : Pke) (off : Nat) : Nat :=
  if off = 0 then k.opc.toNat + 256 * k.cls.toNat
  else if off = 4 then k.ops.toNat
  else if off = 8 then k.list.toNat
  else if off = 0x10 then b2n k.run.isSome + 2 * b2n k.done + 4 * b2n k.waitRng.isSome + 8 * b2n k.ignored + 16 * b2n k.wiped
    + 256 * k.code.toNat + 2 ^ 16 * k.failmask.toNat
  else if off = 0x14 then k.dur.toNat
  else if off = 0x40 then k.cnt.toNat
  else if off = 0x20 then k.dmaSrc.toNat
  else if off = 0x24 then k.dmaCtl.toNat
  else if off = 0x2C then b2n k.dmaRun.isSome + 2 * b2n k.dmaDone + 4 * b2n k.dmaRefused
  else if off = 0x30 then k.ien.toNat
  else 0

/-- A 32-bit read of a register. -/
def regRead (m : Module) (t : RegTarget) (off : Nat) : Nat := match t with
  | .bar0 => bar0Read m off
  | .cluster cl b => clRead m cl b off
  | .die d b => dieRead m d b off
  | .pke => pkeRead m.pke off

/-! ## Configuration space -/

/-- Fields of the configuration space (*Configuration space*, R546, R576). -/
inductive CfgField where
  | vendorId | deviceId | revisionId | classCode | subsystemVendor | subsystemId | bar (n : Fin 6) | expansionRom | serialNumber
  | timeoutRanges | timeoutValue | powerState | sriov | ats | pri | pasid | tph | tdisp | resizableBar | atomicOp | aspmL0s
  | aspmL1 | l0p | l1Substates
  deriving DecidableEq, Repr

/-- What a configuration read answers (R544, R546, R576): fields of what the function does not support read 0. BAR0 is read for its
type, a 64-bit non-prefetchable memory BAR. -/
def cfgRead (m : Module) : CfgField → Nat
  | .vendorId => m.hedge.fuses.vendor.toNat
  | .deviceId => 0x5108
  | .revisionId => 0
  | .classCode => 0x120000
  | .subsystemVendor => field m.hedge.config 0 2
  | .subsystemId => field m.hedge.config 2 2
  | .bar n => if n = 0 then 4 else 0
  | .serialNumber => m.hedge.fuses.serial.toNat
  | .timeoutRanges => 0xF
  | .timeoutValue => m.ep.cto.toNat
  | .powerState => if m.ep.d3hot then 3 else 0
  | .expansionRom | .sriov | .ats | .pri | .pasid | .tph | .tdisp | .resizableBar | .atomicOp | .aspmL0s | .aspmL1 | .l0p
  | .l1Substates => 0

/-! ## The test port -/

/-- Whether debug access over JTAG is open (R615): in MANUFACTURE, or with debug unlocked and SCOPE bit 0. -/
def jtagOpen (h : Hedge) : Bool := decide (lcsOf h.fuses = 1) || (h.debug && h.scope.getLsbD 0)

/-- The die whose test port reaches a register: a compute die, 8 the Quay, 9 the Hedge. -/
def portOf : RegTarget → Nat
  | .bar0 => 8
  | .cluster cl _ => dieOf cl
  | .die d _ => d
  | .pke => 9

/-- What a JTAG access does (R588, R604, R615). The answer stays in `jtagOut`; an access that is not open answers nothing.
A scratchpad is reached over the Towpath test access, in restricted mode only (R19, R355). UDS is never read. -/
def jtagStep (m : Module) (die : Nat) (op : JtagOp) : Module :=
  let answer (v : Option (BitVec 64)) : Module := { m with jtagOut := v }
  let open_ := alive m && jtagOpen m.hedge
  match op with
  | .readReg t off =>
    answer (if open_ && decide (portOf t = die) then some (BitVec.ofNat 64 (regRead m t (off / 4 * 4))) else none)
  | .writeReg t off wide v => if open_ && decide (portOf t = die) then { regWrite m t off wide v with jtagOut := none } else answer none
  | .readScratch cl w =>
    answer (if open_ && (clAt m cl).restricted && decide (dieOf cl = die) && decide (w < Config.sliceWords) then
      some (BitVec.ofNat 64 (scrWord (clAt m cl) [] w).toNat) else none)
  | .writeScratch cl w v =>
    if open_ && (clAt m cl).restricted && decide (dieOf cl = die) && decide (w < Config.sliceWords) then
      { onCl m cl (fun c => scrWrite c w v) with jtagOut := none } else answer none
  | .readUds => answer none
  | .writeIdentity off bs =>
    if alive m && decide (lcsOf m.hedge.fuses = 1) && decide (off + bs.length ≤ 0x10000) then
      { onHedge m (fun h => { h with flash := mput h.flash (0x40000 + off) bs }) with jtagOut := none }
    else answer none

/-- JTAG_ACCESS. -/
def execJtagAccess (die : Nat) (op : JtagOp) (s : State) : Host.Outcome State Fault Refusal := ok s (jtagStep s.m die op)

end Sys2Proof.Machine
end

