-- ==== Sys2Proof/Machine/Replay.lean ====
section
/-! DEFINITION. Landing points and replay (R417 to R421, R449, R529, R675 to R679, R683, R684). -/
namespace Sys2Proof.Machine

/-! ## Landing points -/

/-- Whether no stream engine runs a stream of job `tag`. -/
def streamsDone (d : Die) (tag : Nat) : Bool := d.ste.all (fun p => !runsFor tag p.2.active)

/-- Whether the job is at a cut (R417, R466, R508): its queues empty, nothing of it in transit, no addition to a flag still to count, no
header on its way to a slot, no landing or delivery in progress, no stream active. -/
def atCut (m : Module) (tag : Nat) (j : Job) : Bool :=
  j.clusters.all (fun h => (clAt m h.cl).queues.all (fun q => decide (q.1 < h.queue0 ∨ h.queue0 + h.queues ≤ q.1))
      && (clAt m h.cl).hdrJob.all (fun p => decide (p.2 ≠ tag + 1 ∨ tget 0 (clAt m h.cl).hdrReady p.1 = 0)))
    && !m.transit.any (msgOf m tag) && !m.flagIn.any (fun e => flagHeld j.clusters e.addr)
    && j.dies.all (fun h =>
      (dieAt m h.die).windows.all (fun w => decide (w.job ≠ tag) || w.frames.all (fun f =>
        decide (f.2.st ≠ 1 ∧ f.2.reading = 0)))
      && streamsDone (dieAt m h.die) tag)

/-- The landing point that the plan has next (R417): its planned a-cycle has come, and every event flag of the job holds the count
that the plan records for it. -/
def nextCut (m : Module) (j : Job) : Option CutPlan :=
  match j.cuts[j.landed]? with
  | some c =>
    if decide (j.origin + c.at_ ≤ m.now) && j.clusters.all (fun h => (List.range h.flags).all (fun i =>
        decide ((tget (0 : BitVec 16) (clAt m h.cl).flags (h.flag0 + i)).toNat
          = match c.flags.find? (fun f => decide (f.1 = h.cl ∧ f.2.1 = h.flag0 + i)) with
            | some f => f.2.2
            | none => 0)))
    then some c else none
  | none => none

/-- A sealed object copied to its place in a stack in the layout of R65, header first (R66, R419); a poisoned one with a payload of
zeros (R90). -/
def copyObject (m : Module) (sets : List CustomSet) (p : CopyPlan) : Module :=
  let lead := clAt m (p.cls.headD 0)
  let hb := hdrSlot lead p.slot
  let h := hdrParse hb
  match joinParts (limbShape sets h) (p.cls.map (fun cl => rowsWords (clAt m cl) (tget [] (clAt m cl).hdrRows p.slot))) with
  | some ws => stkPut m p.at_ ((hb ++ (if h.poison ≠ 0 then zeros (4 * ws.length) else bytesOf ws)).take p.bytes)
  | none => m

/-- The rows that a landing point copies of cluster `cl`, as words. -/
def inSave (s : RowSave) (cl w : Nat) : Bool := decide (s.cl = cl ∧ 64 * s.row ≤ w ∧ w < 64 * (s.row + s.rows))

/-- Words that the landing point `cut` reads of cluster `cl` and that carry an error: the reads of the copy that have an effect. -/
def badWords (c : Cluster) (cl : Nat) (cut : CutPlan) : List Nat :=
  (c.spErr.filter (fun p => cut.saves.any (fun s => inSave s cl p.1))).map (·.1)

/-- Live rows copied to their place in a stack, as a read delivers them (R419). -/
def saveRows (m : Module) (s : RowSave) : Module :=
  stkPut m s.at_ (bytesOf (scrRun (clAt m s.cl) [] (64 * s.row) (64 * s.rows)))

/-- The landing pairs of a job on cluster `cl`, its first pair and their number. -/
def pairsOf (j : Job) (cl : Nat) : Nat × Nat := match j.clusters.find? (fun h => decide (h.cl = cl)) with
  | some h => (h.pair0, h.pairs)
  | none => (0, 0)

/-- The landing pairs of a cluster copied to their place in a stack, two words a pair (R419). -/
def saveRoles (j : Job) (m : Module) (r : Nat × Nat) : Module :=
  let p := pairsOf j r.1
  stkPut m r.2 (bytesOf (tgetRange (0 : Word) (clAt m r.1).lp (2 * p.1) (2 * p.2)))

/-- What a landing point keeps of one cluster beside the copies in the stacks: the header slots of the job, flags, and its
context. -/
def landCluster (m : Module) (tag : Nat) (h : ClHold) : LandingCluster :=
  let c := clAt m h.cl
  let k := (ctxsAll c tag).headD 0
  { cl := h.cl,
    headers := c.headers.filter (fun p => decide (tget 0 c.hdrJob p.1 = tag + 1)),
    hdrRows := c.hdrRows.filter (fun p => decide (tget 0 c.hdrJob p.1 = tag + 1)),
    hdrPrim := c.hdrPrim.filter (fun p => decide (tget 0 c.hdrJob p.1 = tag + 1)),
    flags := c.flags.filter (fun p => decide (h.flag0 ≤ p.1 ∧ p.1 < h.flag0 + h.flags)), ctx := k, saved := ctxOf c k, nextOp := c.nextOp }

/-- The books of one die. -/
def landDie (m : Module) (tag : Nat) (h : DieHold) : LandingDie :=
  let d := dieAt m h.die
  { die := h.die, ledger := d.ledger.filter (fun p => decide (h.pool0 ≤ p.1 ∧ p.1 < h.pool0 + h.pools)),
    credits := d.credits.filter (fun p => decide (p.2.job.toNat = tag)),
    ferryIdx := match d.lists.find? (fun l => decide (l.job = tag)) with
      | some l => l.idx
      | none => 0 }

/-- The counts of a job's results. -/
def countsOf (j : Job) : JobCounts :=
  { ninval := j.ninval, firstCheck := j.firstCheck, oob := j.oob, pad := j.pad, poison := j.poison, fptens := j.fptens,
    oflags := j.oflags, sealedOnce := j.sealedOnce }

/-- The job with saved counts. -/
def withCounts (j : Job) (c : JobCounts) : Job :=
  { j with ninval := c.ninval, firstCheck := c.firstCheck, oob := c.oob, pad := c.pad, poison := c.poison,
           fptens := c.fptens, oflags := c.oflags, sealedOnce := c.sealedOnce }

/-- The comparisons of the live objects with CHK 1 at a landing point, with AUDIT 2 or 3 (R684). -/
def auditLive (m : Module) (tag : Nat) (j : Job) : Module :=
  if j.audit.toNat < 2 then m
  else (shadowGroups j).foldl (fun m g =>
    if g.any (fun x => (hdrParse (hdrSlot (clAt m x.cl) x.slot)).chk) then
      (match auditParts m tag g with
      | (m1, true) => failMain m1 tag g
      | (m1, false) => m1)
    else m) m

/-- A landing point of the plan completes (R417, R419, R684): its objects are in the stacks and the copy becomes the one a replay
uses, unless an error of the copy or a comparison has asked for a replay. -/
def landingStep (m : Module) (tag : Nat) : Module :=
  match jobAt m tag with
  | none => m
  | some j =>
    if j.phase ≠ .running ∨ j.desc.hand = true ∨ j.replayReq.isSome ∨ !atCut m tag j then m
    else match nextCut m j with
    | none => m
    | some cut =>
      let m1 := j.clusters.foldl (fun m h => scrAccess m h.cl tag (badWords (clAt m h.cl) h.cl cut) []) m
      let m2 := auditLive m1 tag j
      if replayWaits m2 tag then m2
      else
        let p : LandingPoint := { number := j.landed, at_ := m.now, saves := cut.saves, roles := cut.roles,
                                  clusters := j.clusters.map (landCluster m2 tag), dies := j.dies.map (landDie m2 tag) }
        let m3 := cut.roles.foldl (saveRoles j) (cut.saves.foldl saveRows (cut.copies.foldl (fun m x => copyObject m (jobSetsOf m tag) x) m2))
        onJob m3 tag (fun j => { j with landing := some { p with counts := countsOf j }, landed := j.landed + 1,
                                        attempts := 0 })

/-- LANDING_POINT. -/
def execLandingPoint (tag : Fin 1024) (s : State) : Host.Outcome State Fault Refusal := ok s (landingStep s.m tag)

/-! ## Replay -/

/-- Whether no operation of the job is started on a cluster (R421: they run to completion first). -/
def opsDone (c : Cluster) (tag : Nat) : Bool :=
  [c.nte, c.rme, c.vec].all (fun e =>
    (match e.run with
      | some r => decide (r.job ≠ tag)
      | none => true)
    && (match e.pend with
      | some p => decide (p.job ≠ tag)
      | none => true))

/-- A context as a replay resumes it: its plan clock goes on from the cut (R421, R435), and it replays until it has issued again what it
had issued (log entry 154). Its words are fetched anew. -/
def resumeCtx (now at_ : Nat) (now_ old : Context) : Context :=
  let pclk := at_ - old.origin - old.slipTotal
  let goal := max now_.replayTo now_.issued
  { old with state := if old.ended then 0 else if old.issued < goal then 3 else 1, replayTo := goal, fbuf := (0, []),
             origin := now - pclk - now_.slipTotal, slipTotal := now_.slipTotal,
             slipEvents := now_.slipEvents, lastCause := now_.lastCause, lastOffset := now_.lastOffset, holdRun := none,
             wdog := 0, brkHit := false }

/-- One cluster without what the job did since the cut: flags, queues, pairs, header slots, poison marks, errors and
scoreboard entries of its own. -/
def cutCluster (tag : Nat) (h : ClHold) (c : Cluster) : Cluster :=
  let mine := ctxsAll c tag
  zeroHeaders { c with
    flags := c.flags.filter (fun p => decide (p.1 < h.flag0 ∨ h.flag0 + h.flags ≤ p.1)),
    queues := c.queues.filter (fun p => decide (p.1 < h.queue0 ∨ h.queue0 + h.queues ≤ p.1)),
    reserved := c.reserved.filter (fun p => decide (p.1 < h.queue0 ∨ h.queue0 + h.queues ≤ p.1)),
    freed := c.freed.filter (fun p => decide (p.1 < h.queue0 ∨ h.queue0 + h.queues ≤ p.1)),
    lp := c.lp.filter (fun p => decide (p.1 < 2 * h.pair0 ∨ 2 * (h.pair0 + h.pairs) ≤ p.1)),
    poisoned := c.poisoned.filter (fun p => decide (p.1 < h.row0 ∨ h.row0 + h.rows ≤ p.1)),
    scb := c.scb.filter (fun e => !mine.contains e.ctx) } tag

/-- Scratchpad words `ws` written from word `a` on by a restore: their check bits are fresh. -/
def restoreWords (a : Nat) (ws : List Word) (c : Cluster) : Cluster :=
  let mine (w : Nat) : Bool := decide (a ≤ w ∧ w < a + ws.length)
  { c with scratch := mputWords c.scratch a ws, spErr := c.spErr.filter (fun e => !mine e.1),
           rewriteQ := c.rewriteQ.filter (fun w => !mine w), lost := c.lost.filter (fun w => !mine w) }

/-- Words of a stack as a restore reads them. -/
def copyWords (m : Module) (a n : Nat) : List Word := wordsOf (stkRead (stkAt m (stkOf a)) (stkOff a) (4 * n))

/-- The live rows and the roles of the landing pairs of one cluster, from their copies in the stacks (R421). -/
def restoreRows (m : Module) (j : Job) (p : LandingPoint) (cl : Nat) (c : Cluster) : Cluster :=
  let c1 := (p.saves.filter (fun s => decide (s.cl = cl))).foldl (fun c s =>
    restoreWords (64 * s.row) (copyWords m s.at_ (64 * s.rows)) c) c
  let q := pairsOf j cl
  (p.roles.filter (fun r => decide (r.1 = cl))).foldl (fun c r =>
    { c with lp := tsetRange 0 c.lp (2 * q.1) (copyWords m r.2 (2 * q.2)) }) c1

/-- One cluster restored from a landing point (R421), `rows` its rows and pairs from the stacks. -/
def restoreCluster (tag now at_ : Nat) (rows : Cluster → Cluster) (h : ClHold) (p : LandingCluster) (c : Cluster) : Cluster :=
  let c1 := rows (cutCluster tag h c)
  let c2 := { c1 with
    headers := p.headers.foldl (fun t q => tset [] t q.1 q.2) c1.headers,
    hdrJob := p.headers.foldl (fun t q => tset 0 t q.1 (tag + 1)) c1.hdrJob,
    hdrRows := p.hdrRows.foldl (fun t q => tset [] t q.1 q.2) c1.hdrRows,
    hdrPrim := p.hdrPrim.foldl (fun t q => tset 0 t q.1 q.2) c1.hdrPrim, flags := p.flags.foldl (fun t q => tset 0 t q.1 q.2) c1.flags }
  onCtx c2 p.ctx (fun x => resumeCtx now at_ x p.saved)

/-- One die without the job's streams, with its tokens FREE and its list at command `idx` (R421). -/
def cutDie (tag idx origin : Nat) (d : Die) : Die :=
  { d with
    ste := (d.ste.map (fun p => (p.1, killStream tag p.2))).filter (fun p => decide (p.2 ≠ {})),
    windows := d.windows.map (fun w => if w.job = tag then { w with frames := [] } else w),
    lists := d.lists.map (fun l => if l.job = tag then { l with idx := idx, origin := origin, ended := false } else l) }

/-- One die restored from a landing point: its books as they were. -/
def restoreDie (tag now at_ : Nat) (h : DieHold) (p : LandingDie) (d : Die) : Die :=
  let old := match d.lists.find? (fun l => decide (l.job = tag)) with
    | some l => l.origin
    | none => 0
  let d1 := cutDie tag p.ferryIdx (now - (at_ - old)) d
  { d1 with
    ledger := p.ledger.foldl (fun t q => tset {} t q.1 q.2)
      (d1.ledger.filter (fun q => decide (q.1 < h.pool0 ∨ h.pool0 + h.pools ≤ q.1))),
    credits := p.credits.foldl (fun t q => tset {} t q.1 q.2)
      (d1.credits.filter (fun q => decide (q.2.job.toNat ≠ tag))) }

/-- The job restarted from its a-cycle 0 (R677): books, queues and contexts as at its start. -/
def restartJob (m : Module) (tag : Nat) (j : Job) : Module :=
  let again (m : Module) (h : ClHold) : Module := onCl m h.cl (fun c =>
    let k := (ctxsAll c tag).headD 0
    onCtx (cutCluster tag h c) k (fun x =>
      resumeCtx m.now 0 x (startCtx tag 0 x.base j h)))
  let m1 := j.clusters.foldl again m
  let m2 := j.dies.foldl (fun m h => onDie m h.die (cutDie tag 0 m.now)) m1
  let m3 := j.credits.foldl (fun m c => writeCredit m tag c) m2
  j.dies.foldl fillPools m3

/-- The job restored from its latest complete landing point. -/
def restoreJob (m : Module) (tag : Nat) (j : Job) (p : LandingPoint) : Module :=
  let m1 := (j.clusters.zip p.clusters).foldl (fun m q =>
    onCl m q.1.cl (restoreCluster tag m.now p.at_ (restoreRows m j p q.1.cl) q.1 q.2)) m
  (j.dies.zip p.dies).foldl (fun m q => onDie m q.1.die (restoreDie tag m.now p.at_ q.1 q.2)) m1

/-- The units of a landing point's row copies: the stack and the unit there, and the cluster and the first of the 16 words that it
holds. -/
def copyUnits (p : LandingPoint) : List LostUnit :=
  p.saves.flatMap (fun s => (List.range (4 * s.rows)).map (fun i =>
    { stack := Fin.ofNat 16 (stkOf s.at_), unit := stkOff s.at_ / 64 + i, cl := Fin.ofNat 512 s.cl, word := 64 * s.row + 16 * i }))

/-- The units of the row copies that a restore reads as uncorrectable (R528, R529): those with more than three wrong symbols, and those
that the read itself finds so (`lost`). -/
def lostCopy (m : Module) (p : LandingPoint) (lost : List LostUnit) : List LostUnit :=
  (copyUnits p).filter (fun u => lost.contains u || unitBad (stkAt m u.stack.val) u.unit)

/-- The corrected units of the row copies, counted and queued for a rewrite (R527). -/
def seeCopy (tag : Nat) (m : Module) (p : LandingPoint) : Module :=
  ((copyUnits p).filter (fun u => !unitBad (stkAt m u.stack.val) u.unit)).foldl (fun m u =>
    stkAccess m (u.stack.val * 2 ^ 37 + 64 * u.unit) 64 tag .memory) m

/-- An uncorrectable unit of the copy is read: the controller's count and address, and the log (R528). -/
def restoreUnc (tag : Nat) (m : Module) (u : LostUnit) : Module :=
  let a := BitVec.ofNat 41 (u.stack.val * 2 ^ 37 + 64 * u.unit)
  logLater (onStk m u.stack (fun s => { s with eccUnc := satAdd s.eccUnc 1, lastUnc := a }))
    { cls := 2, sev := 2, unit := BitVec.ofNat 32 u.stack.val, job := BitVec.ofNat 16 tag, detail := 0,
      addr := a.setWidth 64, data := [] }

/-- A unit that was lost with the budget spent delivers zero words, and the primitive that reads one records MEM_UNCORR (R679). -/
def zeroLost (m : Module) (u : LostUnit) : Module :=
  onCl m u.cl (fun c => { c with scratch := mputWords c.scratch u.word (List.replicate 16 0),
                                 lost := c.lost ++ (List.range 16).map (u.word + ·) })

/-- Whether the budget allows an attempt after this one (R676). -/
def canReplayAgain (j : Job) : Bool := canReplay { j with replays := j.replays + 1, attempts := j.attempts + 1 }

/-- A replay attempt starts and is counted (R676); the function reports a corrected internal error (R581). -/
def countReplay (m : Module) (tag : Nat) : Module :=
  aerReport (onQuay (onJob m tag (fun j => { j with replays := j.replays + 1, attempts := j.attempts + 1 }))
    (fun q => { q with replays := q.replays + 1 })) .correctedInternal

/-- A replay (R421, R676 to R678): it waits until the operations and streams that the job has started are done, restores the job and
counts the attempt. A unit of the copy that is lost ends the attempt, and the job waits for the next one (R529); with the budget
spent the unit's words are zeros and the job goes on (R679). -/
def replayStep (m : Module) (tag : Nat) (cause : ReplayCause) (lost : List LostUnit) : Module :=
  match jobAt m tag with
  | none => m
  | some j =>
    if j.replayReq ≠ some cause ∨ !j.started ∨ !(j.clusters.all (fun h => opsDone (clAt m h.cl) tag))
        ∨ !(j.dies.all (fun h => streamsDone (dieAt m h.die) tag)) then m
    else
      let bad := match j.landing with
        | some p => lostCopy m p lost
        | none => []
      let seen := match j.landing with
        | some p => seeCopy tag (countReplay m tag) p
        | none => countReplay m tag
      let mr := bad.foldl (restoreUnc tag) seen
      if bad ≠ [] ∧ canReplayAgain j = true then mr else
      let m0 := dropFlagIn { mr with transit := mr.transit.filter (fun x => !msgOf mr tag x) } j.clusters
      let m1 := match j.landing with
        | some p => restoreJob m0 tag j p
        | none => restartJob m0 tag j
      let c := match j.landing with
        | some p => p.counts
        | none => {}
      onJob (bad.foldl zeroLost m1) tag (fun j => { withCounts j c with replayReq := none, phase := .running, auditing := none })

/-- REPLAY. -/
def execReplay (tag : Fin 1024) (cause : ReplayCause) (lost : List LostUnit) (s : State) :
    Host.Outcome State Fault Refusal := ok s (replayStep s.m tag cause lost)

end Sys2Proof.Machine
end

