-- ==== Sys2Proof/Machine/Spdm.lean ====
section
/-! DEFINITION. The SPDM responder (R579, R605 to R607), IDE key management (R577), the DOE mailbox (R578), and the sideband's
endpoint ID and platform events (R621, R671). Response bodies whose encoding is SPDM's and not the manual's are free
values. -/
namespace Sys2Proof.Machine

/-- *SPDM subset* response codes and error codes. PRESUMED: SPDM 1.3's numbers. -/
def spdmError : Nat := 0x7F
def errInvalid : Nat := 1
def errUnexpected : Nat := 4
def errDecrypt : Nat := 6
def errLimit : Nat := 10

/-- The responder's state changed. -/
def onSpdm (m : Module) (f : Spdm → Spdm) : Module := onEp m (fun e => { e with spdm := f e.spdm })

/-- The answer to a request. -/
def spdmReply (m : Module) (code : Nat) (body : List Byte) : Module :=
  onSpdm m (fun p => { p with response := some (BitVec.ofNat 8 code, body) })

/-- An ERROR answer. -/
def spdmFail (m : Module) (e : Nat) : Module := spdmReply m spdmError [BitVec.ofNat 8 e, 0]

/-- A request: firmware answers it while it runs. -/
def spdmServe (m : Module) (f : Module → Module) : Module := if m.hedge.boot = .running then f m else m

/-- A request that needs `c`, else UnexpectedRequest. -/
def spdmWhen (m : Module) (c : Bool) (f : Module → Module) : Module :=
  spdmServe m (fun m => if c then f m else spdmFail m errUnexpected)

/-- Whether version, capabilities and algorithms are negotiated. -/
def negotiated (m : Module) : Bool := m.ep.spdm.algs.isSome

/-- Whether an algorithm was negotiated: bit 0 ECDSA P-256, 1 SHA-256, 2 secp256r1, 3 AES-256-GCM. -/
def hasAlg (m : Module) (b : Nat) : Bool := (m.ep.spdm.algs.getD 0).getLsbD b

/-- Whether the responder can sign: AK exists and ECDSA with SHA-256 is negotiated. -/
def canSign (m : Module) : Bool := m.hedge.ak.isSome && hasAlg m 0 && hasAlg m 1

/-- The next DRBG output (R610). -/
def spdmDraw (m : Module) : List Byte × Module :=
  (leBytes 32 (Config.drbg m.hedge.drbgCount).toNat,
   onHedge m (fun h => { h with drbgCount := h.drbgCount + 1, drbgGens := h.drbgGens + 1 }))

/-- GET_VERSION: 1.3 alone; the connection begins again. -/
def spdmVersionStep (m : Module) : Module :=
  spdmServe m (fun m => spdmReply (onSpdm m (fun _ => { version := true })) 0x04 [0, 1, 0, 0x13])

/-- GET_VERSION. -/
def execGetVersion (s : State) : Host.Outcome State Fault Refusal := ok s (spdmVersionStep s.m)

/-- GET_CAPABILITIES, after GET_VERSION and before the algorithms. -/
def spdmCapsStep (m : Module) (flags : Word) : Module :=
  spdmWhen m (m.ep.spdm.version && !negotiated m) (fun m =>
    let (b, m1) := takeBytes m 4
    spdmReply (onSpdm m1 (fun p => { p with caps := some flags })) 0x61 b)

/-- GET_CAPABILITIES. -/
def execGetCapabilities (flags : Word) (s : State) : Host.Outcome State Fault Refusal := ok s (spdmCapsStep s.m flags)

/-- NEGOTIATE_ALGORITHMS: of the offered algorithms, those of R579 and no others. -/
def spdmAlgsStep (m : Module) (algs : Word) : Module :=
  spdmWhen m (m.ep.spdm.caps.isSome && !negotiated m) (fun m =>
    let sel := algs &&& 0xF
    spdmReply (onSpdm m (fun p => { p with algs := some sel })) 0x63 (leBytes 4 sel.toNat))

/-- NEGOTIATE_ALGORITHMS. -/
def execNegotiateAlgorithms (algs : Word) (s : State) : Host.Outcome State Fault Refusal := ok s (spdmAlgsStep s.m algs)

/-- The slot 0 chain, at most 4,096 bytes (R605). -/
def certChain (m : Module) : List Byte := m.hedge.cert.take 4096

/-- GET_DIGESTS: slot 0 alone, with the digest of its chain. -/
def spdmDigestsStep (m : Module) : Module :=
  spdmWhen m (negotiated m && m.hedge.ak.isSome) (fun m =>
    spdmReply m 0x01 (leBytes 1 1 ++ sha256 (certChain m)))

/-- GET_DIGESTS. -/
def execGetDigests (s : State) : Host.Outcome State Fault Refusal := ok s (spdmDigestsStep s.m)

/-- GET_CERTIFICATE: certificate slot 0 only (R579, R605): the portion, its length and the rest's. -/
def spdmCertStep (m : Module) (slot : BitVec 8) (off len : BitVec 16) : Module :=
  spdmWhen m (negotiated m && m.hedge.ak.isSome) (fun m =>
    let chain := certChain m
    if slot ≠ 0 ∨ off.toNat ≥ chain.length then spdmFail m errInvalid
    else
      let part := (chain.drop off.toNat).take len.toNat
      spdmReply m 0x02 (leBytes 2 part.length ++ leBytes 2 (chain.length - off.toNat - part.length) ++ part))

/-- GET_CERTIFICATE. -/
def execGetCertificate (slot : BitVec 8) (off len : BitVec 16) (s : State) : Host.Outcome State Fault Refusal :=
  ok s (spdmCertStep s.m slot off len)

/-- CHALLENGE: the chain's digest, a nonce from the DRBG, and AK's signature over the transcript. -/
def spdmChallengeStep (m : Module) (slot : BitVec 8) (nonce : List Byte) : Module :=
  spdmWhen m (negotiated m && canSign m) (fun m =>
    if slot ≠ 0 ∨ nonce.length ≠ 32 then spdmFail m errInvalid
    else
      let (n, m1) := spdmDraw m
      let (sig, m2) := takeBytes m1 64
      spdmReply m2 0x03 (sha256 (certChain m) ++ n ++ sig))

/-- CHALLENGE. -/
def execChallenge (slot : BitVec 8) (nonce : List Byte) (s : State) : Host.Outcome State Fault Refusal :=
  ok s (spdmChallengeStep s.m slot nonce)

/-- The content of a measurement (*Measurements*, R607). -/
def measurement (h : Hedge) (i : Nat) : List Byte :=
  if 1 ≤ i ∧ i ≤ 4 then leBytes 32 (h.meas.getD (i - 1) 0).toNat
  else if i = 5 then leBytes 1 (lcsOf h.fuses) ++ leBytes 1 (b2n h.debug) ++ leBytes 1 h.scope.toNat
  else if i = 6 then leBytes 2 h.rate ++ leBytes 4 h.reviews ++ leBytes 1 (b2n h.warn) ++ leBytes 1 0
  else leBytes 1 (fusedSvn h.fuses) ++ leBytes 1 h.fuses.revoke.toNat ++ leBytes 1 h.slot ++ leBytes 1 0

/-- A block of the DMTF format: index, specification, size, kind, value size, value. PRESUMED. -/
def measBlock (h : Hedge) (i : Nat) : List Byte :=
  let v := measurement h i
  let kind := if i = 1 then 0x00 else if i ≤ 3 then 0x01 else if i = 4 then 0x03 else 0x84
  leBytes 1 i ++ leBytes 1 1 ++ leBytes 2 (v.length + 3) ++ leBytes 1 kind ++ leBytes 2 v.length ++ v

/-- GET_MEASUREMENTS (R606): index 0 asks how many, 0xFF for all; a signed answer carries AK's signature. -/
def spdmMeasStep (m : Module) (signed : Bool) (index : BitVec 8) (nonce : List Byte) : Module :=
  spdmWhen m (negotiated m && (!signed || canSign m)) (fun m =>
    let i := index.toNat
    if (signed && decide (nonce.length ≠ 32)) || decide (7 < i ∧ i < 255) then spdmFail m errInvalid
    else
      let which := if i = 0 then [] else if i = 255 then [1, 2, 3, 4, 5, 6, 7] else [i]
      let (n, m1) := spdmDraw m
      let (sig, m2) := if signed then takeBytes m1 64 else ([], m1)
      spdmReply m2 0x60 (leBytes 1 (if i = 0 then 7 else which.length) ++ which.flatMap (measBlock m.hedge) ++ n ++ sig))

/-- GET_MEASUREMENTS. -/
def execGetMeasurements (signed : Bool) (index : BitVec 8) (nonce : List Byte) (s : State) :
    Host.Outcome State Fault Refusal :=
  ok s (spdmMeasStep s.m signed index nonce)

/-- A big-endian DHE share as a point. -/
def sharePoint (share : List Byte) : Nat × Nat := (leNat (share.take 32).reverse, leNat (share.drop 32).reverse)

/-- KEY_EXCHANGE: a valid share begins a session; an invalid one ends it with an error (*Worked example*,
18_public_key_engine). The shared x-coordinate is kept for the session's keys. -/
def spdmKexStep (m : Module) (share : List Byte) : Module :=
  spdmWhen m (negotiated m && canSign m && hasAlg m 2 && hasAlg m 3) (fun m =>
    if m.ep.spdm.session then spdmFail m errLimit
    else if share.length ≠ 64 ∨ pointFails (sharePoint share) false ≠ [] then
      spdmFail (onSpdm m (fun p => { p with keying := false, share := [] })) errInvalid
    else
      let d := (Config.drbg m.hedge.drbgCount).toNat % (p256n - 1) + 1
      let (_, m1) := spdmDraw m
      let q := mulP256 d p256g
      let (sig, m2) := takeBytes m1 64
      spdmReply (onSpdm m2 (fun p => { p with
          keying := true, keyUpdates := 0, share := beBytes 32 (mulP256 d (sharePoint share)).1 }))
        0x64 (beBytes 32 q.1 ++ beBytes 32 q.2 ++ sig))

/-- KEY_EXCHANGE. -/
def execKeyExchange (share : List Byte) (s : State) : Host.Outcome State Fault Refusal := ok s (spdmKexStep s.m share)

/-- FINISH: `good` says whether the requester's HMAC over the transcript verifies. -/
def spdmFinishStep (m : Module) (good : Bool) : Module :=
  spdmWhen m m.ep.spdm.keying (fun m =>
    if good then spdmReply (onSpdm m (fun p => { p with keying := false, session := true })) 0x65 []
    else spdmFail (onSpdm m (fun p => { p with keying := false, share := [] })) errDecrypt)

/-- FINISH. -/
def execFinish (hmacOk : Bool) (s : State) : Host.Outcome State Fault Refusal := ok s (spdmFinishStep s.m hmacOk)

/-- HEARTBEAT of a session. -/
def execHeartbeatSpdm (s : State) : Host.Outcome State Fault Refusal :=
  ok s (spdmWhen s.m s.m.ep.spdm.session (fun m => spdmReply m 0x68 []))

/-- KEY_UPDATE: the session's keys move on. -/
def execKeyUpdate (s : State) : Host.Outcome State Fault Refusal :=
  ok s (spdmWhen s.m s.m.ep.spdm.session (fun m =>
    spdmReply (onSpdm m (fun p => { p with keyUpdates := p.keyUpdates + 1 })) 0x69 []))

/-- END_SESSION. -/
def execEndSession (s : State) : Host.Outcome State Fault Refusal :=
  ok s (spdmWhen s.m s.m.ep.spdm.session (fun m =>
    spdmReply (onSpdm m (fun p => { p with session := false, share := [], keyUpdates := 0 })) 0x6C []))

/-- An IDE stream after an IDE_KM message: none when the message does not apply. -/
def ideApply (i : IdeStream) : IdeOp → Option IdeStream
  | .program key => if key.length = 32 then some { i with key := key } else none
  | .go => if i.key = [] then none else some { i with secure := true }
  | .stop => some {}

/-- IDE_KM, within a secured session (R577): AES-256-GCM keys of the link stream (0) or a selective stream. -/
def ideStep (m : Module) (stream : Nat) (op : IdeOp) : Module :=
  spdmWhen m m.ep.spdm.session (fun m =>
    match ideApply (tget {} m.ep.ide stream) op with
    | some i => spdmReply (onEp m (fun e => { e with ide := tset {} e.ide stream i })) 0x7E []
    | none => spdmFail m errInvalid)

/-- IDE_KM. -/
def execIdeKm (stream : Fin 5) (op : IdeOp) (s : State) : Host.Outcome State Fault Refusal := ok s (ideStep s.m stream op)

/-! ## DOE and sideband -/

/-- DOE Discovery (R578): index 0 DOE Discovery, 1 CMA/SPDM, 2 Secured CMA/SPDM, each with the next index. PRESUMED: the
PCI-SIG's vendor ID 0x0001 and types 0 to 2. -/
def doeStep (m : Module) (index : BitVec 8) : Module :=
  let answer := if index.toNat ≤ 2 then leBytes 2 1 ++ leBytes 1 index.toNat ++ leBytes 1 ((index.toNat + 1) % 3)
    else [0xFF, 0xFF, 0xFF, 0]
  if alive m then onEp m (fun e => { e with doe := some answer }) else m

/-- DOE_DISCOVERY. -/
def execDoeDiscovery (index : BitVec 8) (s : State) : Host.Outcome State Fault Refusal := ok s (doeStep s.m index)

/-- DOE_ABORT (R578): the exchange in progress ends. -/
def execDoeAbort (s : State) : Host.Outcome State Fault Refusal :=
  ok s (onEp s.m (fun e => { e with doe := none, spdm := { e.spdm with response := none } }))

/-- ENDPOINT_ID_ASSIGN (R621). -/
def execEndpointIdAssign (eid : BitVec 8) (s : State) : Host.Outcome State Fault Refusal :=
  ok s (if alive s.m then onHedge s.m (fun h => { h with eid := some eid }) else s.m)

/-- PLATFORM_EVENT_READ (R671): ALERT# is released when no event is left. -/
def execPlatformEventRead (s : State) : Host.Outcome State Fault Refusal :=
  ok s (onHedge s.m (fun h => { h with events := h.events.drop 1, alert := decide (h.events.drop 1 ≠ []) }))

end Sys2Proof.Machine
end

