-- ==== Sys2Proof/Machine/Transfer.lean ====
section
/-! DEFINITION. One transfer of a stream engine (R12, R369 to R379, R382, R469) with ingest (R93 to R96, R728), egress (R76, R90, R92,
R683) and padding (R371 to R374), and the transfer boundary (R505, R506). -/
namespace Sys2Proof.Machine

/-! ## Objects -/

/-- The tensor of a job whose host buffer holds an address, and the element there (R390): the tensor of that buffer with the
greatest offset not above it. -/
def tensorAt (j : Job) (addr : Nat) : Option (Nat × Tensor × Nat) :=
  let here (t : Tensor) : Option Nat := match j.desc.bufs[t.buf]? with
    | some (a, n) => if a + t.boff ≤ addr ∧ addr < a + n then some (addr - a - t.boff) else none
    | none => none
  (j.tensors.zipIdx.foldl (fun best p => match here p.1, best with
    | some o, some (_, _, bo) => if o < bo then some (p.2, p.1, o) else best
    | some o, none => some (p.2, p.1, o)
    | none, _ => best) none)

/-- What an ingest of the object at a host address validates against, and the OBJID of R51 or R728 for walk index `k`. A descriptor names no
tensor: the one whose host buffer holds the address is meant, and an address in none is checked as in a hand plan (DESIGN
CHOICE, log entry 109). -/
def declaredAt (m : Module) (tag k addr objWords : Nat) : Declared × Nat :=
  match jobAt m tag with
  | some j =>
    if j.desc.hand then (none, k % 2 ^ 44)
    else match tensorAt j addr with
      | some (t, x, off) => (some (tensorHdr (jobSetsOf m tag) x), t * 2 ^ 44 + off / (64 * ceilDiv objWords 16))
      | none => (none, k % 2 ^ 44)
  | none => (none, k % 2 ^ 44)

/-- An object on its way through a stream engine: the 64 header bytes, its payload, the number of the ingest check it
failed (0 for none), and whether its rows are marked poisoned. -/
structure Moved where
  hdr : List Byte
  pay : List Word
  failed : Nat := 0
  mark : Bool := false
  deriving DecidableEq, Repr

/-- An object read from the host (R93 to R95, R728): `k` is its index in the walk. -/
def ingestObj (m : Module) (tag k addr : Nat) (ws : List Word) : Moved :=
  let hb := bytesOf (ws.take 16)
  let pay := ws.drop 16
  let n := pay.length
  let sets := jobSetsOf m tag
  let (d, objid) := declaredAt m tag k addr ws.length
  let chk := ingestCheck sets d hb pay n
  let none_ := List.replicate n (0 : Word)
  if chk ≠ 0 then
    { hdr := hdrBytes (ingestFailHdr d hb chk n objid) (zeroPcrc n), pay := none_, failed := chk, mark := true }
  else if (hdrParse hb).poison ≠ 0 then
    { hdr := hdrBytes (ingestPoisonHdr hb n) (zeroPcrc n), pay := none_, mark := true }
  else { hdr := hb, pay := pay }

/-- An object read from a stack (R469, R90). -/
def stackObj (ws : List Word) : Moved :=
  let hb := bytesOf (ws.take 16)
  let pay := ws.drop 16
  { hdr := hb, pay := if (hdrParse hb).poison ≠ 0 then List.replicate pay.length 0 else pay }

/-- NOISE above NB(m) at egress (R76): scalar ciphertexts and GLWE accumulators. -/
def noiseOver (sets : List CustomSet) (hb : List Byte) : Bool :=
  let h := hdrParse hb
  match psetOf sets (BitVec.ofNat 16 h.pset) with
  | some c => c.scalar && decide (h.magic = 0x5EA1 ∧ (h.kind = 2 ∨ h.kind = 4) ∧ h.poison = 0)
      && decide ((h.noise : Int) > noiseBound c h.count)
  | none => false

/-! ## Audits -/

/-- The header of an object at its egress from slot `slot` of cluster `cl`, after its audit (R684: AUDIT 1 and above). -/
def auditEgress (m : Module) (tag cl slot plen : Nat) (hb : List Byte) : Module × List Byte :=
  match jobAt m tag with
  | some j =>
    if j.audit = 0 ∨ !(hdrParse hb).chk then (m, hb)
    else
      let (m1, bad) := auditParts m tag (shadowsOf j cl slot)
      (m1, if bad then egressCause hb plen 10 else hb)
  | none => (m, hb)

/-! ## What a planned job reads and writes in the host -/

/-- The host bytes and objects that a transfer of a planned job has read (R390, R421): the bytes by address, and each object of a
tensor under its R51 number as it is stored. -/
def noteIngest (tag : Nat) (v : Move) (units : List (List Word)) (walk : List (Bool × Int)) (objs : List Moved) (m : Module) : Module :=
  if v.ps.kind ≠ 2 then m
  else onJob m tag (fun j =>
    if j.desc.hand then j
    else
      let at_ (a : Int) : Nat := ((v.ps.start : Int) + 4 * a).toNat
      { j with
        hostIn := (walk.zip units).foldl (fun t u => if u.1.1 then mput t (at_ u.1.2) (bytesOf u.2) else t) j.hostIn,
        inputs := (walk.zip objs).foldl (fun t o => match tensorAt j (at_ o.1.2) with
          | some (n, _, off) => tset none t (n * 2 ^ 44 + off / (64 * ceilDiv v.src.objWords 16))
              (some { hdr := o.2.hdr, pay := o.2.pay })
          | none => t) j.inputs })

/-- Whether some node of a job writes tensor `t`. -/
def Job.writes (j : Job) (t : Nat) : Bool := j.nodes.any (fun n => n.outs.contains (some t))

/-- The words that a planned job writes to host addresses of its open outputs: those that its graph states for them, from the host
bytes read (R273 to R289; DESIGN CHOICE, log entry 121). -/
def openOut (m : Module) (tag : Nat) (p : Slot) (ws : List (Nat × Word)) : List (Nat × Word) :=
  match jobAt m tag with
  | some j =>
    if p.kind ≠ 2 ∨ j.desc.hand = true ∨ j.nodes.isEmpty = true then ws
    else
      let v := openVals j
      ws.map (fun w => match tensorAt j (p.start + 4 * w.1) with
        | some (t, x, off) => if x.tkind = 5 ∧ j.writes t = true then (w.1, (openOf v t).getD (off / 4) w.2) else w
        | none => w)
  | none => ws

/-! ## Scalar ciphertexts (R382) -/

/-- An entry whose dimension 0 is the payload of a scalar ciphertext of `plen` words, as an entry of objects: the header stands in the
16 words before the payload. -/
def Desc.asObjects (x : Desc) (plen : Nat) (base : Int) : Option (Desc × Int) :=
  let d := x.dim 0
  if x.obj = false ∧ x.fmt = 0 ∧ x.xpose = false ∧ d.ext = plen ∧ d.valid = plen ∧ d.off = 0 ∧ d.stride = 1 ∧ 16 ≤ base then
    some ({ x with obj := true, objWords := plen + 16, dims := x.dims.drop 1 }, base - 16)
  else none

/-- PLEN of the scalar ciphertexts that a WORD entry of a planned job names in a host buffer. -/
def scalarPlen (m : Module) (tag : Nat) (x : Desc) (p : Slot) (base : Int) : Option Nat :=
  match jobAt m tag with
  | some j =>
    if j.desc.hand = true ∨ p.kind ≠ 2 ∨ x.obj = true then none
    else match tensorAt j ((p.start : Int) + 4 * base - 64).toNat with
      | some (_, t, off) =>
        let n := (tensorHdr (jobSetsOf m tag) t).plen
        if t.tkind = 2 ∧ off % (64 * ceilDiv (n + 16) 16) = 0 ∧ (x.dim 0).ext = n then some n else none
      | none => none
  | none => none

/-- A transfer of scalar ciphertexts of a planned job between the host and the module, as a transfer of objects: the planner moves
their payloads by WORD entries and their headers beside them, and the ingest checks and the egress rules hold for them as for
every object (R92, R93, R382, R389; DESIGN CHOICE, log entry 126). A scratchpad side keeps its entry; its headers stand in slots. -/
def scalarView (m : Module) (tag : Nat) (v : Move) : Move :=
  let n := match scalarPlen m tag v.src v.ps v.bs with
    | some n => some n
    | none => scalarPlen m tag v.dst v.pd v.bd
  match n with
  | none => v
  | some n =>
    let side (x : Desc) (p : Slot) (b : Int) : Desc × Int := if p.kind = 0 then (x, b) else (x.asObjects n b).getD (x, b)
    let (src, bs) := side v.src v.ps v.bs
    let (dst, bd) := side v.dst v.pd v.bd
    { v with src := src, dst := dst, bs := bs, bd := bd }

/-! ## The links that a transfer crosses (R12, R14, R15) -/

/-- The compute die of a slot's memory; none for the host, which the Quay reaches. -/
def slotDie (p : Slot) : Option Nat :=
  if p.kind = 0 then some (p.cl / 64 % 8) else if p.kind = 1 then some (stkOf p.start / 2 % 8) else none

/-- The links from the source's die to the stream engine's die. -/
def pathIn (m : Module) (tag die : Nat) (p : Slot) : List LinkEnd := match slotDie p with
  | some d => pathOf (routesOf m tag) d die
  | none => [.quay (Fin.ofNat 8 die)]

/-- The links from the stream engine's die to the destination's die. -/
def pathOut (m : Module) (tag die : Nat) (p : Slot) : List LinkEnd := match slotDie p with
  | some d => pathOf (routesOf m tag) die d
  | none => [.pon (Fin.ofNat 8 die) 2]

/-- Whether the slot map of a stack holds a position for an access by stream engine `s` of die `die`: the stream engine's own on its
own die, else one of the Pontoon controller whose link carries the data (R327, R517). `path` are the links between them, in the
direction of the data, and `out` says whether the data come from the stack. A stack that wipes takes no access (R541). -/
def slotGranted (m : Module) (die s : Nat) (p : Slot) (path : List LinkEnd) (out : Bool) : Bool :=
  let owner := stkOf p.start / 2
  let link := match (if out then path.head? else path.getLast?.map peerOf) with
    | some (.pon _ l) => l.val
    | _ => 2
  decide (p.kind ≠ 1) || stackOpen m (stkOf p.start)
      && decide (positionsOf (stkAt m (stkOf p.start)) (BitVec.ofNat 5 (if owner = die then 2 + s else 18 + link)) ≠ 0)

/-- Whether both sides of a transfer have the stack positions they need. -/
def granted (m : Module) (tag die s : Nat) (v : Move) : Bool :=
  slotGranted m die s v.ps (pathIn m tag die v.ps) true && slotGranted m die s v.pd (pathOut m tag die v.pd) false

/-! ## Live stack data (R420) -/

/-- Whether a transfer writes stack data that is live at the job's latest complete landing point: what a replay from it reads, and
the copies themselves. -/
def writesLive (m : Module) (tag : Nat) (v : Move) : Bool :=
  match jobAt m tag with
  | some j =>
    if v.pd.kind ≠ 1 ∨ j.landing.isNone = true then false
    else match j.cuts[j.landed - 1]? with
      | some c =>
        let (lo, hi) := v.dst.bounds v.bd
        let a := ((v.pd.start : Int) + 4 * lo).toNat
        let n := (4 * (hi - lo + 1)).toNat
        (c.live ++ c.copies.map (fun p => (p.at_, p.bytes))).any (fun r => rangesMeet r.1 r.2 a n)
      | none => false
  | none => false

/-! ## One transfer -/

/-- The objects of the headers on the source side: from host or stack objects, or from the slots of a scratchpad pool
(R469); none when neither side gives headers. -/
def sourceObjs (m : Module) (tag : Nat) (v : Move) (units : List (List Word)) (walk : List (Bool × Int)) : List Moved :=
  if v.src.obj then
    units.zipIdx.map (fun u =>
      let a := (walk.getD u.2 (true, 0)).2
      if v.ps.kind = 2 then ingestObj m tag u.2 ((v.ps.start : Int) + 4 * a).toNat u.1 else stackObj u.1)
  else []

/-- The payload words of object `k` of a destination walk of objects of `plen` words. -/
def objPay (ws : List Word) (plen k : Nat) : List Word := (ws.drop (plen * k)).take plen

/-- The egress of one object (R76, R90, R92, R684): its header and payload, the module after its audit and the counts of a
poisoned result. -/
def egressObj (m : Module) (tag : Nat) (v : Move) (k : Nat) (inb : Bool) (addr : Nat) (o : Moved) (hslot : Nat) :
    Module × Moved :=
  let plen := o.pay.length
  let host := decide (v.pd.kind = 2) && inb
  let (m1, h1) := if host && decide (v.ps.kind = 0) then auditEgress m tag v.ps.cl ((hslot + k) % 1024) plen o.hdr
    else (m, o.hdr)
  let h2 := if host && noiseOver (jobSetsOf m tag) h1 then egressCause h1 plen 8 else h1
  let p := (hdrParse h2).poison
  let m2 := if host && decide (p ≠ 0) then onJob m1 tag (fun j =>
      let t := (tensorAt j addr).map (·.1)
      { j with poison := tmod 0 j.poison p (· + 1),
               fptens := match t, j.fptens with
                 | some a, some b => some (min a b)
                 | some a, none => some a
                 | none, b => b }) else m1
  (m2, { o with hdr := h2, pay := if p ≠ 0 then List.replicate plen 0 else o.pay })

/-- The objects of a destination of objects, one after the other. -/
def egressAll (tag : Nat) (v : Move) (hslot : Nat) : Module → Nat → List (Bool × Int) → List Moved → Module × List Moved
  | m, k, (inb, a) :: ws, o :: os =>
    let (m1, o1) := egressObj m tag v k inb ((v.pd.start : Int) + 4 * a).toNat o hslot
    let (m2, os1) := egressAll tag v hslot m1 (k + 1) ws os
    (m2, o1 :: os1)
  | m, _, _, _ => (m, [])

/-- What a destination's walk writes and counts (R372): the words by address, elements discarded with MATPAD 0, and pad
writes outside the allocated range. -/
structure Written where
  words : List (Int × Word) := []
  oob : Nat := 0
  clip : Nat := 0

/-- One destination unit: a tuple of one element, or a packed row of `n` elements whose words are `ws`. -/
def writeUnit (x : Desc) (t : Bool × Int) (ws : List Word) (n : Nat) : Written :=
  let inRange (i : Nat) : Bool := decide ((x.alo : Int) ≤ t.2 + i ∧ t.2 + i < (x.alo : Int) + x.alen)
  if t.1 then { words := ws.zipIdx.map (fun w => (t.2 + w.2, w.1)) }
  else if !x.matpad then { oob := n }
  else
    let fill := if x.packed then x.fillUnit else List.replicate ws.length x.fill
    { words := (fill.zipIdx.filter (fun w => inRange w.2)).map (fun w => (t.2 + w.2, w.1)),
      clip := ((List.range n).filter (fun k => !inRange (if x.packed then eltWord x.fmt k else k))).length }

/-- A destination walk over elements. -/
def writeElts (x : Desc) : List (Bool × Int) → List Elt → List Written
  | [], _ => []
  | t :: ts, es =>
    let n := if x.packed then (x.dim 0).ext else 1
    writeUnit x t (packElts x.fmt (es.take n)) n :: writeElts x ts (es.drop n)

/-- A destination walk over objects: their payload words. -/
def writeObjs (x : Desc) : List (Bool × Int) → List Moved → List Written
  | t :: ts, o :: os => writeUnit x (t.1, t.2 + 16) o.pay o.pay.length :: writeObjs x ts os
  | _, _ => []

/-- Rows of a scratchpad destination that hold the payload of marked objects (R94, R95, R467): object `k` has the words
`plen × k` to `plen × k + plen − 1` of the walk. -/
def markedRows (start plen : Nat) (walk : List (Bool × Int)) (objs : List Moved) : List Nat :=
  (walk.zipIdx.filter (fun t => t.1.1 && (match objs[t.2 / plen]? with
    | some o => o.mark
    | none => false))).map (fun t => rowOf (start + t.1.2.toNat))

/-- The counts of a transfer on the die and the job (R373, R96). -/
def countMove (m : Module) (die tag oob clip : Nat) (objs : List Moved) : Module :=
  let failed := (objs.map (·.failed)).filter (· ≠ 0)
  let m1 := onDie m die (fun d => { d with oobWr := satAdd d.oobWr oob, padClip := satAdd d.padClip clip })
  onJob m1 tag (fun j => { j with
    oob := j.oob + oob, pad := j.pad + clip, ninval := j.ninval + failed.length,
    firstCheck := if j.firstCheck = 0 then failed.headD 0 else j.firstCheck })

/-- A copy of a whole stored key page onto another stack is a replica of it (R310, R311). -/
def noteReplica (m : Module) (v : Move) : Module :=
  let whole (x : Desc) : Bool := decide (x.fmt = 0 ∧ x.count * x.per * 4 = Config.pageSlotBytes) && !x.obj
    && (x.dims.take 1).all (fun d => decide (d.stride = 1 ∧ d.ext * 4 = Config.pageSlotBytes))
  if v.ps.kind = 1 ∧ v.pd.kind = 1 ∧ whole v.src ∧ whole v.dst then
    let a := ((v.ps.start : Int) + 4 * v.bs).toNat
    let b := ((v.pd.start : Int) + 4 * v.bd).toNat
    match m.quay.dir.findSome? (fun k => (k.pages.zipIdx.find? (fun p => decide (p.1 = a))).map (fun p => (k.ksid, p.2))) with
    | some (ksid, pidx) => onQuay m (fun q => { q with
        replicas := q.replicas.filter (fun r => decide (r.addr ≠ b)) ++ [{ ksid := ksid, pidx := pidx, addr := b }] })
    | none => m
  else m

/-- The objects that come from the header slots of a scratchpad source (R469), with their payload from the walk. -/
def slotObjs (m : Module) (v : Move) (hslot : Nat) (ws : List Word) : List Moved :=
  let plen := v.dst.objWords - 16
  (List.range v.dst.count).map (fun k =>
    let hb := if v.ps.kind = 0 then hdrSlot (clAt m v.ps.cl) ((hslot + k) % 1024) else []
    { hdr := hb, pay := objPay ws plen k })

/-- Consecutive rows joined to runs (first row, rows). -/
def rowRuns : List Nat → List (Nat × Nat)
  | [] => []
  | r :: rest => match rowRuns rest with
    | (b, n) :: more => if b = r + 1 then (r, n + 1) :: more else (r, 1) :: (b, n) :: more
    | [] => [(r, 1)]

/-- The headers of a transfer go out, after the payload (R96, R469): to slots of a scratchpad destination, or to the first 16
words of each destination object. -/
def putHeaders (m : Module) (cl tag : Nat) (v : Move) (hslot : Nat) (objs : List Moved) (walk : List (Bool × Int)) : Module :=
  if v.dst.obj then
    let hs := (walk.zip objs).flatMap (fun p =>
      if p.1.1 then ((wordsOf p.2.hdr).zipIdx.map (fun w => ((p.1.2 + w.2).toNat, w.1))) else [])
    writeWords m cl tag v.pd hs
  else if v.src.obj ∧ v.pd.kind = 0 then
    let plen := v.src.objWords - 16
    let rows := walk.map (fun t => rowOf (v.pd.start + t.2.toNat))
    onCl m v.pd.cl (fun c => objs.zipIdx.foldl (fun c o =>
      let s := (hslot + o.2) % 1024
      { c with headers := tset [] c.headers s o.1.hdr, hdrJob := tset 0 c.hdrJob s (tag + 1),
               hdrReady := tset 0 c.hdrReady s 0, hdrPrim := tset 0 c.hdrPrim s 0,
               hdrRows := tset [] c.hdrRows s (rowRuns (dedup1 ((rows.drop (plen * o.2)).take plen))) }) c)
  else m

/-- The elements that a source delivers when neither side is an object. -/
def sourceElts (x : Desc) (units : List (List Word)) : List Elt :=
  units.flatMap (fun u =>
    if x.packed then (List.range (x.dim 0).ext).map (rowCode x.fmt u) else u.map (fun w => (w.toNat, 0)))

/-- An object that a stream engine read with a lost word takes MEM_UNCORR, and its payload reads 0 (R85, R90, R679). -/
def lostObj (bad : Bool) (o : Moved) : Moved :=
  if bad then { o with hdr := egressCause o.hdr o.pay.length 2, pay := List.replicate o.pay.length 0, mark := true } else o

/-- For each element of a source, whether its unit is lost; `n` elements in a unit of `k` words. -/
def lostElts (n : Nat) (bad : List Bool) : List Bool := bad.flatMap (fun b => List.replicate n b)

/-- The destination words that hold an element of a lost unit. -/
def lostTargets (x : Desc) : List (Bool × Int) → List Bool → List Nat
  | [], _ => []
  | t :: ts, bs =>
    let n := if x.packed then (x.dim 0).ext else 1
    (if t.1 && (bs.take n).any (fun b => b) then (List.range x.unit).map (t.2.toNat + ·) else []) ++ lostTargets x ts (bs.drop n)

/-- Header words that cross to the destination beside the payload (R14, R469): those of the objects, which a destination of objects
or a scratchpad's slots take. -/
def headerWords (v : Move) (objs : Nat) : Nat := if v.dst.obj ∨ (v.src.obj ∧ v.pd.kind = 0) then 16 * objs else 0

/-- Words that cross from the source: those of the walk, and the headers of a scratchpad source's slots. -/
def inWords (v : Move) (walk : List (Bool × Int)) : Nat :=
  (walkWords v.src walk).length + (if v.dst.obj ∧ v.src.obj = false ∧ v.ps.kind = 0 then 16 * v.dst.count else 0)

/-- The beats of a transfer's scratchpad sides (R332); a transposed port gathers without conflict (R336). -/
def moveBeats (v : Move) (rix : Rix) (reads : List Nat) (writes : List (Nat × Word)) : List (List Nat) :=
  (if v.ps.kind = 0 ∧ rix.mode ≠ 2 then beatsOf reads.length (fun i => reads.getD i 0) else [])
    ++ (if v.pd.kind = 0 then beatsOf writes.length (fun i => v.pd.start + (writes.getD i (0, 0)).1) else [])

/-- One transfer (R369 to R374, R469): reads, then writes, then headers and counts. -/
def moveStep (m : Module) (die s : Nat) (st : Stream) (v : Move) (host : List Word) : Module :=
  let tag := st.job
  let hslot := (ssetOf st.set).hslot
  let rix := rixOf st.rix 2
  let sw := v.src.walk v.bs
  let dw := v.dst.walk v.bd
  let us := unitAddrs v.src v.ps rix 0 sw
  let units := readUnits m v.src v.ps ((st.zeroRows.filter (fun r => decide (r.1 = v.ps.cl))).map (·.2)) us host
  let bad := lostUnits m tag v.ps us
  let objs0 := (sourceObjs m tag v units sw).zipIdx.map (fun o => lostObj (bad.getD o.2 false) o.1)
  let m1 := noteIngest tag v units sw objs0
    (readFx (crossPath m (pathIn m tag die v.ps) (inWords v sw)) st.cl tag v.ps us.flatten)
  let words := if v.src.obj then objs0.flatMap (·.pay) else units.flatten
  let badElts := if v.src.obj then [] else lostElts (if v.src.packed then (v.src.dim 0).ext else v.src.unit) bad
  let plen := v.dst.objWords - 16
  let dObjs := if v.src.obj then objs0
    else (slotObjs m v hslot words).zipIdx.map (fun o => lostObj (((badElts.drop (plen * o.2)).take plen).any (fun b => b)) o.1)
  let (m2, outs) := if v.dst.obj then egressAll tag v hslot m1 0 dw dObjs else (m1, objs0)
  let written := if v.dst.obj then writeObjs v.dst dw outs
    else if v.src.obj then writeElts v.dst dw (words.map (fun w => (w.toNat, 0)))
    else writeElts v.dst dw (sourceElts v.src units)
  let sent := (written.flatMap (·.words)).map (fun w => (w.1.toNat, w.2))
  let m3 := writeWords (crossPath m2 (pathOut m tag die v.pd) (sent.length + headerWords v outs.length)) st.cl tag v.pd
    (if v.dst.obj then sent else openOut m2 tag v.pd sent)
  let m4 := putHeaders (if v.dst.obj then m3 else markLost m3 v.pd (lostTargets v.dst dw badElts)) st.cl tag v hslot outs dw
  let rows := if v.pd.kind = 0 ∧ v.src.obj then markedRows v.pd.start (v.src.objWords - 16) dw objs0 else []
  let m5 := onCl m4 v.pd.cl (fun c => { c with poisoned := rows.foldl (fun t r => tset false t r true) c.poisoned })
  let m6 := countMove m5 die tag (lsum (written.map (·.oob))) (lsum (written.map (·.clip))) objs0
  let m7 := if v.pd.kind = 2 then onJob m6 tag (fun j => { j with lastWrite := m.now }) else m6
  let m8 := bankSlips (noteReplica m7 v) st.cl st.ctx (moveBeats v rix us.flatten sent)
  onSte m8 die s (fun e => { e with active := some { st with moved := true } })

/-- The scoreboard entries of an operation leave (R454). -/
def releaseOp (m : Module) (cl opid : Nat) : Module :=
  onCl m cl (fun c => { c with scb := c.scb.filter (fun e => decide (e.opid ≠ opid)) })

/-- The stacks and the links that a transfer uses. -/
def sharedBy (m : Module) (tag die : Nat) (v : Move) : List Nat × List LinkEnd :=
  (([v.ps, v.pd].filter (fun p => decide (p.kind = 1))).map (fun p => stkOf p.start),
   pathIn m tag die v.ps ++ pathOut m tag die v.pd)

/-- Whether a transfer of a replaying job lets another go first (R422): the active stream of a job that does not replay is about to use
one of its stacks or links. -/
def yieldsMove (m : Module) (tag die : Nat) (v : Move) : Bool :=
  replaying m tag && m.dies.any (fun p => p.2.ste.any (fun q => match q.2.active with
    | some o =>
      decide (o.job ≠ tag) && !o.moved && !replaying m o.job && !replayWaits m o.job
        && (match moveCheck m p.1 o with
          | .ok w =>
            let a := sharedBy m tag die v
            let b := sharedBy m o.job p.1 w
            a.1.any (fun s => b.1.contains s) || a.2.any (fun l => b.2.contains l)
          | .error _ => false)
    | none => false))

/-- The transfer of a stream engine's active stream, which a replay of its job lets run to completion (R421). It waits while an
entry validates (R365) and while its die is halted (R480); a refused transfer kills the job. It also waits while a link of its paths
retries or retrains (R688, R689), and where it would write stack data live at the latest landing point (R420; DESIGN CHOICE, log
entry 125), it needs a position of the slot map of every stack that it uses (R327, R517), and in a replaying job it lets the
transfers of other jobs go first (R422). -/
def transferStep (m : Module) (die s : Nat) (host : List Word) : Module :=
  let d := dieAt m die
  match (steAt d s).active with
  | none => m
  | some st =>
    let x := ssetOf st.set
    if st.moved || d.halted || (tget {} d.dstat x.srcd).busy || (tget {} d.dstat x.dstd).busy then m
    else match moveCheck m die st with
      | .error cause => killJob m st.job cause none
      | .ok v =>
        if !(pathIn m st.job die v.ps ++ pathOut m st.job die v.pd).all (linkReady m) || writesLive m st.job v
            || !granted m st.job die s v
            || yieldsMove m st.job die v then m
        else moveStep m die s st (scalarView m st.job v) host

/-- TRANSFER. -/
def execTransfer (die : Fin 8) (s : Fin 16) (hostWords : List Word) (st : State) :
    Host.Outcome State Fault Refusal := ok st (transferStep st.m die s hostWords)

/-- The transfer boundary (R471, R505, R506): the flag of the transfer; then the adoption of an armed shadow, the next
transfer, or idleness. -/
def boundaryStep (m : Module) (die s : Nat) : Module :=
  let e := steAt (dieAt m die) s
  match e.active with
  | none => m
  | some st =>
    if !st.moved then m
    else
      let x := ssetOf st.set
      let next := { st with r := st.r + 1, moved := false, due := hostDue m die st.job x }
      let m1 := match e.shadow with
        | some sh => releaseOp (onSte m die s (fun e => { e with
            active := some { sh with due := hostDue m die sh.job (ssetOf sh.set) }, shadow := none, armed := false }))
            st.cl st.opid
        | none =>
          if st.r + 1 < x.rep then onSte m die s (fun e => { e with active := some next })
          else releaseOp (onSte m die s (fun e => { e with active := none })) st.cl st.opid
      let m2 := if x.den then addFlag m1 x.dflag 1 st.job else m1
      match e.shadow with
      | some sh => if (ssetOf sh.set).aen then addFlag m2 (ssetOf sh.set).aflag 1 sh.job else m2
      | none => m2

/-- TRANSFER_BOUNDARY. -/
def execTransferBoundary (die : Fin 8) (s : Fin 16) (st : State) : Host.Outcome State Fault Refusal :=
  ok st (boundaryStep st.m die s)

end Sys2Proof.Machine
end

