-- ==== Sys2Proof/Machine/Vec.lean ====
section
/-! DEFINITION. The vector engine's operation (R228 to R256): rows and elements, masks, streams through the read port, the
row reductions, and the checks of its program. -/
namespace Sys2Proof.Machine

/-- Scratchpad word of element j of row r of input stream number `n` (0 the lowest enabled), through the read port
(R228, R336, R338). -/
def vecInAddr (v : VecCfg) (x : Rix) (n : Nat) (s : VStream) (r j : Nat) : Nat :=
  vecInWord v x n s r j % 2 ^ 21

/-- The mask word of element j of row r. -/
def maskAddr (v : VecCfg) (r j : Nat) : Nat := (v.maskAddr + r * v.maskRstr + j / 32) % 2 ^ 21

/-- What an element did: the words it writes, its reduction leaf, what it raised and read. -/
structure ElemOut where
  writes : List (Nat × Word)
  leaf : Option Node
  r : Raised
  reads : List Nat

/-- Enabled input streams with their place among the enabled ones. -/
def insOf (v : VecCfg) : List (Option Nat × VStream) :=
  (v.ins.foldl (fun (p : Nat × List (Option Nat × VStream)) s =>
    if s.on then (p.1 + 1, p.2 ++ [(some p.1, s)]) else (p.1, p.2 ++ [(none, s)])) (0, [])).2

/-- One element (R230 to R232). -/
def vecElem (c : Cluster) (o : RunOp) (v : VecCfg) (prog : List Word) (x : Rix) (r j : Nat) : ElemOut :=
  let z := o.zeroRows
  let ins := insOf v
  let addr (p : Option Nat × VStream) : Option Nat := p.1.map (fun n => vecInAddr v x n p.2 r j)
  let v0 := ins.map (fun p => match addr p with
    | some a => scrWord c z a
    | none => 0)
  let ma := maskAddr v r j
  let p0 := if v.masken then bit (scrWord c z ma).toNat (j % 32) else true
  let env : ElemEnv :=
    { row := entOf o (v.midx + (r >>> v.mshift) * v.mstep), mods := entOf o, cst := fun i => v.cst.getD i 0,
      lut := fun i => scrWord c z ((v.lutAddr + i) % 2 ^ 21), j := j, r := r, qa := v.qa, qb := v.qb, w := v.w, l := v.l }
  let e := elemRun env prog v0 p0
  let present := e.p.headD false
  { writes := if present then (v.outs.zipIdx.filter (fun p => p.1.on)).map (fun p =>
      ((p.1.base + r * p.1.rstr + j * p.1.estr) % 2 ^ 21, e.v.getD p.2 0)) else [],
    leaf := if present then some (e.v.getD v.redSrc 0, j) else none,
    r := { domain := e.domain, modInvalid := e.modInvalid, fl := e.fl },
    reads := ins.filterMap addr ++ (if v.masken && decide (j % 32 = 0) then [ma] else []) }

/-- One row: its elements, then its reduction (R242 to R247). -/
def vecRow (c : Cluster) (o : RunOp) (v : VecCfg) (prog : List Word) (x : Rix) (y : OpOut) (r : Nat) : OpOut :=
  let es := (List.range v.elems).map (vecElem c o v prog x r)
  let y1 := es.foldl (fun y e => e.writes.foldl (fun y w => y.put w.1 w.2 []) (y.see e.r e.reads)) y
  if v.redOp = 0 then y1
  else
    let d := redRow v.redOp (entOf o (v.midx + (r >>> v.mshift) * v.mstep)) (es.map (·.leaf))
    let a := (v.redAddr + r * v.redRstr) % 2 ^ 21
    (y1.see { domain := d.domain, modInvalid := d.modInvalid, empty := d.empty, fl := d.fl } []).putRun a
      [d.value, d.status]

/-- The work of a VEC operation: every input word is read before any output word is written. -/
def vecRun (c : Cluster) (o : RunOp) (prog : List Word) : OpOut :=
  let v := vecCfg o.regs
  let side := if v.luten then (List.range 64).map (fun i => (v.lutAddr + i) % 2 ^ 21) else []
  (List.range v.rows).foldl (vecRow c o v prog (rixOf o.rix 1)) { c := c, reads := side }

/-- An operation that the VEC refuses as it loads the program leaves the engine and the scoreboard, whatever is pending (R253). -/
def refuseVec (opid : Nat) (c : Cluster) : Cluster :=
  { c with vec := { c.vec with run := none }, scb := c.scb.filter (fun s => decide (s.opid ≠ opid)) }

/-- VEC_OPERATION: the VEC checks its program as it loads it (R253), then does its work. -/
def vecStep (m : Module) (cl : Nat) : Module :=
  let c := clAt m cl
  match c.vec.run with
  | some o =>
    if o.done then m
    else
      let v := vecCfg o.regs
      let prog := vecProg o.word v
      if prog.any (fun u => !uopOk v.luten v.w v.l u) then
        killJob (onCl m cl (refuseVec o.opid)) o.job .cfgInvalid none
      else opEffect m cl .vec o (vecRun c o prog) true
  | none => m

/-- VEC_OPERATION. -/
def execVecOperation (cl : Fin 512) (s : State) : Host.Outcome State Fault Refusal := ok s (vecStep s.m cl)

/-- VEC_DONE. -/
def execVecDone (cl : Fin 512) (s : State) : Host.Outcome State Fault Refusal := ok s (opDone s.m cl .vec)

end Sys2Proof.Machine
end

