-- ==== Sys2Proof/Machine/Dispatch.lean ====
section
/-! DEFINITION. The commands and their meanings: one arm for each row of the opcode table, in the table's order. -/
namespace Sys2Proof.Machine

def exec (i : Instr) (s : State) : Host.Outcome State Fault Refusal :=
  match i with
  | .sqTail ring tail => Sys2Proof.Machine.execSqTail ring tail s
  | .cqHead ring head => Sys2Proof.Machine.execCqHead ring head s
  | .submissionFetch => Sys2Proof.Machine.execSubmissionFetch s
  | .job ring entry bufTab patchTab => Sys2Proof.Machine.execJob ring entry bufTab patchTab s
  | .hand ring entry bufTab => Sys2Proof.Machine.execHand ring entry bufTab s
  | .keyLoad ring entry manifest pages => Sys2Proof.Machine.execKeyLoad ring entry manifest pages s
  | .keyUnload ring entry => Sys2Proof.Machine.execKeyUnload ring entry s
  | .keyLoadDone index => Sys2Proof.Machine.execKeyLoadDone index s
  | .admitJob tag => Sys2Proof.Machine.execAdmitJob tag s
  | .hostReadError site => Sys2Proof.Machine.execHostReadError site s
  | .planJob tag image choice => Sys2Proof.Machine.execPlanJob tag image choice s
  | .jobStart tag => Sys2Proof.Machine.execJobStart tag s
  | .completionEntry index => Sys2Proof.Machine.execCompletionEntry index s
  | .cqCoalTimer ring => Sys2Proof.Machine.execCqCoalTimer ring s
  | .sqEnable ring cfg => Sys2Proof.Machine.execSqEnable ring cfg s
  | .sqDisable ring => Sys2Proof.Machine.execSqDisable ring s
  | .cqEnable ring cfg => Sys2Proof.Machine.execCqEnable ring cfg s
  | .cqDisable ring => Sys2Proof.Machine.execCqDisable ring s
  | .qreq => Sys2Proof.Machine.execQreq s
  | .quiesceCheck => Sys2Proof.Machine.execQuiesceCheck s
  | .qrel => Sys2Proof.Machine.execQrel s
  | .idereq v => Sys2Proof.Machine.execIdereq v s
  | .lock => Sys2Proof.Machine.execLock s
  | .wreset v => Sys2Proof.Machine.execWreset v s
  | .glbKill tag cid => Sys2Proof.Machine.execGlbKill tag cid s
  | .glbHost v => Sys2Proof.Machine.execGlbHost v s
  | .glbPcap v => Sys2Proof.Machine.execGlbPcap v s
  | .registerWrite t off wide v => Sys2Proof.Machine.execRegisterWrite t off wide v s
  | .bar0BadAccess read off bytes => Sys2Proof.Machine.execBar0BadAccess read off bytes s
  | .d3hot => Sys2Proof.Machine.execD3hot s
  | .restEntry => Sys2Proof.Machine.execRestEntry s
  | .d0 => Sys2Proof.Machine.execD0 s
  | .flr => Sys2Proof.Machine.execFlr s
  | .dlDown => Sys2Proof.Machine.execDlDown s
  | .hotReset => Sys2Proof.Machine.execHotReset s
  | .perstAssert => Sys2Proof.Machine.execPerstAssert s
  | .perstDeassert => Sys2Proof.Machine.execPerstDeassert s
  | .pwrgdRise => Sys2Proof.Machine.execPwrgdRise s
  | .pwrgdFall => Sys2Proof.Machine.execPwrgdFall s
  | .railOutOfTolerance rail => Sys2Proof.Machine.execRailOutOfTolerance rail s
  | .refclkMissing => Sys2Proof.Machine.execRefclkMissing s
  | .refclkStable => Sys2Proof.Machine.execRefclkStable s
  | .aonLoss => Sys2Proof.Machine.execAonLoss s
  | .ready => Sys2Proof.Machine.execReady s
  | .coldReset => Sys2Proof.Machine.execColdReset s
  | .warmReset => Sys2Proof.Machine.execWarmReset s
  | .dieReset die cause => Sys2Proof.Machine.execDieReset die cause s
  | .jobKill tag cause => Sys2Proof.Machine.execJobKill tag cause s
  | .engineReset u => Sys2Proof.Machine.execEngineReset u s
  | .engineOverrun cl e => Sys2Proof.Machine.execEngineOverrun cl e s
  | .load cl ctx words => Sys2Proof.Machine.execLoad cl ctx words s
  | .start cl ctx words => Sys2Proof.Machine.execStart cl ctx words s
  | .wait cl ctx words => Sys2Proof.Machine.execWait cl ctx words s
  | .signal cl ctx words => Sys2Proof.Machine.execSignal cl ctx words s
  | .signalArrival index => Sys2Proof.Machine.execSignalArrival index s
  | .pop cl ctx words => Sys2Proof.Machine.execPop cl ctx words s
  | .push cl ctx words => Sys2Proof.Machine.execPush cl ctx words s
  | .handleArrival index => Sys2Proof.Machine.execHandleArrival index s
  | .swap cl ctx words => Sys2Proof.Machine.execSwap cl ctx words s
  | .patch cl ctx words => Sys2Proof.Machine.execPatch cl ctx words s
  | .loop cl ctx words => Sys2Proof.Machine.execLoop cl ctx words s
  | .tmark cl ctx words => Sys2Proof.Machine.execTmark cl ctx words s
  | .seal cl ctx words => Sys2Proof.Machine.execSeal cl ctx words s
  | .sealc cl ctx words => Sys2Proof.Machine.execSealc cl ctx words s
  | .tag cl ctx words => Sys2Proof.Machine.execTag cl ctx words s
  | .endStream cl ctx words => Sys2Proof.Machine.execEndStream cl ctx words s
  | .pendingStart cl e => Sys2Proof.Machine.execPendingStart cl e s
  | .nteFwd cl => Sys2Proof.Machine.execNteFwd cl s
  | .nteInv cl => Sys2Proof.Machine.execNteInv cl s
  | .nteDone cl => Sys2Proof.Machine.execNteDone cl s
  | .bcast cl => Sys2Proof.Machine.execBcast cl s
  | .ewmac cl => Sys2Proof.Machine.execEwmac cl s
  | .openMode cl => Sys2Proof.Machine.execOpenMode cl s
  | .rmeDone cl => Sys2Proof.Machine.execRmeDone cl s
  | .trailingPass cl block => Sys2Proof.Machine.execTrailingPass cl block s
  | .vecOperation cl => Sys2Proof.Machine.execVecOperation cl s
  | .vecDone cl => Sys2Proof.Machine.execVecDone cl s
  | .modulusEntryValidate cl entry word3 => Sys2Proof.Machine.execModulusEntryValidate cl entry word3 s
  | .modulusValidationDone cl entry => Sys2Proof.Machine.execModulusValidationDone cl entry s
  | .land die => Sys2Proof.Machine.execLand die s
  | .ferryEnd die => Sys2Proof.Machine.execFerryEnd die s
  | .frameStaged die cl frame => Sys2Proof.Machine.execFrameStaged die cl frame s
  | .bindingReport cl page => Sys2Proof.Machine.execBindingReport cl page s
  | .tokenRelease die cl frame => Sys2Proof.Machine.execTokenRelease die cl frame s
  | .scrubRewrite cl => Sys2Proof.Machine.execScrubRewrite cl s
  | .scrubRow cl => Sys2Proof.Machine.execScrubRow cl s
  | .sliceWipe cl => Sys2Proof.Machine.execSliceWipe cl s
  | .restrict cl v => Sys2Proof.Machine.execRestrict cl v s
  | .hashoff cl v => Sys2Proof.Machine.execHashoff cl v s
  | .landingPairWrite cl pair hi v => Sys2Proof.Machine.execLandingPairWrite cl pair hi v s
  | .steDcmt die v => Sys2Proof.Machine.execSteDcmt die v s
  | .descriptorValidationDone die entry => Sys2Proof.Machine.execDescriptorValidationDone die entry s
  | .descriptorWrite die entry word v => Sys2Proof.Machine.execDescriptorWrite die entry word v s
  | .steStreamStart cl ctx words => Sys2Proof.Machine.execSteStreamStart cl ctx words s
  | .transfer die n hostWords => Sys2Proof.Machine.execTransfer die n hostWords s
  | .transferBoundary die n => Sys2Proof.Machine.execTransferBoundary die n s
  | .ledgerReport index => Sys2Proof.Machine.execLedgerReport index s
  | .creditReturn index => Sys2Proof.Machine.execCreditReturn index s
  | .negCount die pool => Sys2Proof.Machine.execNegCount die pool s
  | .jobEndAudit tag => Sys2Proof.Machine.execJobEndAudit tag s
  | .watchdogTrip cl ctx => Sys2Proof.Machine.execWatchdogTrip cl ctx s
  | .breakpoint cl ctx => Sys2Proof.Machine.execBreakpoint cl ctx s
  | .resume die => Sys2Proof.Machine.execResume die s
  | .landingPoint tag => Sys2Proof.Machine.execLandingPoint tag s
  | .replay tag cause lost => Sys2Proof.Machine.execReplay tag cause lost s
  | .flitReceive e flit => Sys2Proof.Machine.execFlitReceive e flit s
  | .nak e seq => Sys2Proof.Machine.execNak e seq s
  | .retryExhausted e => Sys2Proof.Machine.execRetryExhausted e s
  | .linkRetrainDone e ok => Sys2Proof.Machine.execLinkRetrainDone e ok s
  | .fiArm r v => Sys2Proof.Machine.execFiArm r v s
  | .faultInjection site => Sys2Proof.Machine.execFaultInjection site s
  | .frameBoundary st => Sys2Proof.Machine.execFrameBoundary st s
  | .mscMapFlip st => Sys2Proof.Machine.execMscMapFlip st s
  | .stackRewrite st => Sys2Proof.Machine.execStackRewrite st s
  | .stackPatrol st => Sys2Proof.Machine.execStackPatrol st s
  | .stackFenceZero st => Sys2Proof.Machine.execStackFenceZero st s
  | .stackWipe => Sys2Proof.Machine.execStackWipe s
  | .stackTempSample st t => Sys2Proof.Machine.execStackTempSample st t s
  | .throttleStep st up => Sys2Proof.Machine.execThrottleStep st up s
  | .tCrit st => Sys2Proof.Machine.execTCrit st s
  | .aclkStep die => Sys2Proof.Machine.execAclkStep die s
  | .avsPoll readings watts => Sys2Proof.Machine.execAvsPoll readings watts s
  | .regulatorFault rail => Sys2Proof.Machine.execRegulatorFault rail s
  | .powerLevelStep up => Sys2Proof.Machine.execPowerLevelStep up s
  | .idleEntry => Sys2Proof.Machine.execIdleEntry s
  | .idleExit => Sys2Proof.Machine.execIdleExit s
  | .junctionShutdown die => Sys2Proof.Machine.execJunctionShutdown die s
  | .thermtripComparator die => Sys2Proof.Machine.execThermtripComparator die s
  | .firmwareWatchdog => Sys2Proof.Machine.execFirmwareWatchdog s
  | .plannerHeartbeat => Sys2Proof.Machine.execPlannerHeartbeat s
  | .plannerWatchdog => Sys2Proof.Machine.execPlannerWatchdog s
  | .marginReview cause samples => Sys2Proof.Machine.execMarginReview cause samples s
  | .marchTest cl failing => Sys2Proof.Machine.execMarchTest cl failing s
  | .logWrite e => Sys2Proof.Machine.execLogWrite e s
  | .heartbeat => Sys2Proof.Machine.execHeartbeat s
  | .corrSummary unit count => Sys2Proof.Machine.execCorrSummary unit count s
  | .drbgReseed => Sys2Proof.Machine.execDrbgReseed s
  | .healthTestFail => Sys2Proof.Machine.execHealthTestFail s
  | .nonceExpiry => Sys2Proof.Machine.execNonceExpiry s
  | .info => Sys2Proof.Machine.execInfo s
  | .logRead off => Sys2Proof.Machine.execLogRead off s
  | .lcSet target serial token => Sys2Proof.Machine.execLcSet target serial token s
  | .lifecycleTransition => Sys2Proof.Machine.execLifecycleTransition s
  | .dbgChal => Sys2Proof.Machine.execDbgChal s
  | .dbgUnlock token => Sys2Proof.Machine.execDbgUnlock token s
  | .dbgLock => Sys2Proof.Machine.execDbgLock s
  | .pldm request => Sys2Proof.Machine.execPldm request s
  | .mailboxDone => Sys2Proof.Machine.execMailboxDone s
  | .pldmSensorRead sensor => Sys2Proof.Machine.execPldmSensorRead sensor s
  | .pldmUpdateData off bytes => Sys2Proof.Machine.execPldmUpdateData off bytes s
  | .verifyComplete => Sys2Proof.Machine.execVerifyComplete s
  | .activateFirmware => Sys2Proof.Machine.execActivateFirmware s
  | .getVersion => Sys2Proof.Machine.execGetVersion s
  | .getCapabilities flags => Sys2Proof.Machine.execGetCapabilities flags s
  | .negotiateAlgorithms algs => Sys2Proof.Machine.execNegotiateAlgorithms algs s
  | .getDigests => Sys2Proof.Machine.execGetDigests s
  | .getCertificate slot off len => Sys2Proof.Machine.execGetCertificate slot off len s
  | .challenge slot nonce => Sys2Proof.Machine.execChallenge slot nonce s
  | .getMeasurements signed index nonce => Sys2Proof.Machine.execGetMeasurements signed index nonce s
  | .keyExchange share => Sys2Proof.Machine.execKeyExchange share s
  | .finish hmacOk => Sys2Proof.Machine.execFinish hmacOk s
  | .heartbeatSpdm => Sys2Proof.Machine.execHeartbeatSpdm s
  | .keyUpdate => Sys2Proof.Machine.execKeyUpdate s
  | .endSession => Sys2Proof.Machine.execEndSession s
  | .ideKm stream op => Sys2Proof.Machine.execIdeKm stream op s
  | .madd cls a b c d => Sys2Proof.Machine.execMadd cls a b c d s
  | .msub cls a b c d => Sys2Proof.Machine.execMsub cls a b c d s
  | .mmul cls a b c d => Sys2Proof.Machine.execMmul cls a b c d s
  | .minv cls a b c d => Sys2Proof.Machine.execMinv cls a b c d s
  | .mexp cls a b c d => Sys2Proof.Machine.execMexp cls a b c d s
  | .ecdsaSignP256 cls a b c d => Sys2Proof.Machine.execEcdsaSignP256 cls a b c d s
  | .ecdsaVerifyP256 cls a b c d => Sys2Proof.Machine.execEcdsaVerifyP256 cls a b c d s
  | .ecdhP256 cls a b c d => Sys2Proof.Machine.execEcdhP256 cls a b c d s
  | .pointValidate cls a b c d => Sys2Proof.Machine.execPointValidate cls a b c d s
  | .macMode base count => Sys2Proof.Machine.execMacMode base count s
  | .pkeDone => Sys2Proof.Machine.execPkeDone s
  | .pkeWipe => Sys2Proof.Machine.execPkeWipe s
  | .pkeDma addr slot nslot toSram => Sys2Proof.Machine.execPkeDma addr slot nslot toSram s
  | .pkeDmaDone => Sys2Proof.Machine.execPkeDmaDone s
  | .randomPoolRefill => Sys2Proof.Machine.execRandomPoolRefill s
  | .jtagAccess die op => Sys2Proof.Machine.execJtagAccess die op s
  | .doeDiscovery index => Sys2Proof.Machine.execDoeDiscovery index s
  | .doeAbort => Sys2Proof.Machine.execDoeAbort s
  | .endpointIdAssign eid => Sys2Proof.Machine.execEndpointIdAssign eid s
  | .platformEventRead => Sys2Proof.Machine.execPlatformEventRead s
  | .cancelUpdate => Sys2Proof.Machine.execCancelUpdate s

end Sys2Proof.Machine
end

