-- ==== Sys2Proof/Safety.lean ====
section
/-! DEFINITION. What a safe run is, in the terms that claims use. Every command of the table has an effect, so no step of a
safe run faults or is refused. -/
namespace Sys2Proof.Machine

/-- Whether an outcome is a next state. -/
def isNext (o : Host.Outcome State Fault Refusal) : Bool := match o with
  | .next _ => true
  | .fault _ => false
  | .refused _ => false

/-- The state of an outcome that is a next state. -/
def nextOf (o : Host.Outcome State Fault Refusal) : Option State := match o with
  | .next s => some s
  | .fault _ => none
  | .refused _ => none

/-- `n` steps, and the state after them when each is a next state. -/
def runFor : Nat → State → Option State
  | 0, s => some s
  | n + 1, s => (nextOf (step s)).bind (runFor n)

/-- A state is safe for `n` steps when none of them faults or is refused. -/
def safeFor (n : Nat) (s : State) : Bool := (runFor n s).isSome

end Sys2Proof.Machine
end

