-- ==== Sys2Proof/Certificates/Slice0/Obligations.lean ====
section
/-! DEFINITION. The statements for the provers. Every completion statement says that the command answers a next state
`{ s with m := n }` (the waiting commands unchanged) and what module `n` is; the frames below say what else is unchanged. -/
namespace Sys2Proof.Certificates
open Sys2Proof Sys2Proof.Machine

/-- Modules `m` and `n` differ at most in ring `i`. -/
def OnlyRing (m n : Module) (i : Nat) : Prop :=
  n = { m with quay := { m.quay with rings := n.quay.rings } } ∧ ∀ j, j ≠ i → ringAt n j = ringAt m j

/-- Modules `m` and `n` differ at most in the Quay. -/
def OnlyQuay (m n : Module) : Prop := n = { m with quay := n.quay }

/-- Modules `m` and `n` differ at most in the endpoint. -/
def OnlyEp (m n : Module) : Prop := n = { m with ep := n.ep }

/-- Modules `m` and `n` differ at most in the Hedge. -/
def OnlyHedge (m n : Module) : Prop := n = { m with hedge := n.hedge }

/-- Modules `m` and `n` differ at most in the PKE. -/
def OnlyPke (m n : Module) : Prop := n = { m with pke := n.pke }

/-- Modules `m` and `n` differ at most in cluster `c`. -/
def OnlyCl (m n : Module) (c : Nat) : Prop := n = { m with clusters := n.clusters } ∧ ∀ j, j ≠ c → clAt n j = clAt m j

/-- Modules `m` and `n` differ at most in compute die `d`. -/
def OnlyDie (m n : Module) (d : Nat) : Prop := n = { m with dies := n.dies } ∧ ∀ j, j ≠ d → dieAt n j = dieAt m j

/-- Modules `m` and `n` differ at most in stack `t`. -/
def OnlyStk (m n : Module) (t : Nat) : Prop := n = { m with stks := n.stks } ∧ ∀ j, j ≠ t → stkAt n j = stkAt m j

/-- Modules `m` and `n` differ at most in their links, in the messages on their way and in cluster `c`. -/
def OnlySent (m n : Module) (c : Nat) : Prop :=
  n = { m with transit := n.transit, clusters := n.clusters, dies := n.dies, quay := { m.quay with links := n.quay.links } }
    ∧ (∀ j, j ≠ c → clAt n j = clAt m j) ∧ ∀ d, dieAt n d = { dieAt m d with links := (dieAt n d).links }

/-- `k` flits have crossed each link of a path: its sending end counts them, its receiving end expects the next (R14, R15). -/
def Crossed (m n : Module) (path : List LinkEnd) (k : Nat) : Prop :=
  ∀ e ∈ path, (linkAt n e).nextSeq = (linkAt m e).nextSeq + BitVec.ofNat 32 k
    ∧ (linkAt n (peerOf e)).expected = (linkAt m (peerOf e)).expected + BitVec.ofNat 32 k

/-- BAR0 is served: the module runs, and R580 does not keep the host out. -/
def Bar0Open (m : Module) : Prop := alive m = true ∧ muted m = false

/-- The rings are served: BAR0 is, and READY is 1 (R585). -/
def RingsOpen (m : Module) : Prop := Bar0Open m ∧ m.quay.ready = true

end Sys2Proof.Certificates

open Sys2Proof Sys2Proof.Machine Sys2Proof.Certificates

/-- A step with a command at the front of the queue is that command's effect with the queue's rest
(95_what_each_step_holds). -/
def Obligations.StepRunsFront : Prop :=
∀ (s : State) (c : Instr) (q : List Instr), s.pending = c :: q → step s = exec c { s with pending := q }

/-- SQ_ENABLE and CQ_ENABLE: the enabled ring, and the refusals NOCQ and BASE_ALIGN (R555). -/
def Obligations.RingEnables : Prop :=
∀ (s : State) (i : Fin 256) (cfg : Word), RingsOpen s.m →
    ((ringAt s.m i).sqEn = false → (ringAt s.m (cfg.extractLsb' 8 8).toNat).cqEn = true →
      (ringAt s.m i).sqBase.toNat % 4096 = 0 →
      ∃ n, exec (.sqEnable i cfg) s = .next { s with m := n } ∧ OnlyRing s.m n i
        ∧ ringAt n i = { ringAt s.m i with sqLogsz := cfg.extractLsb' 0 5, cqid := cfg.extractLsb' 8 8, sqEn := true,
                                           sqHead := 0, sqTail := 0, err := 0 })
    ∧ ((ringAt s.m i).sqEn = false → (ringAt s.m (cfg.extractLsb' 8 8).toNat).cqEn = false →
      ∃ n, exec (.sqEnable i cfg) s = .next { s with m := n } ∧ (ringAt n i).sqEn = false ∧ (ringAt n i).err = 1)
    ∧ ((ringAt s.m i).sqEn = false → (ringAt s.m (cfg.extractLsb' 8 8).toNat).cqEn = true →
      (ringAt s.m i).sqBase.toNat % 4096 ≠ 0 →
      ∃ n, exec (.sqEnable i cfg) s = .next { s with m := n } ∧ (ringAt n i).sqEn = false ∧ (ringAt n i).err = 5)
    ∧ ((ringAt s.m i).cqEn = false → (ringAt s.m i).cqBase.toNat % 4096 = 0 →
      ∃ n, exec (.cqEnable i cfg) s = .next { s with m := n } ∧ OnlyRing s.m n i
        ∧ ringAt n i = { ringAt s.m i with cqLogsz := cfg.extractLsb' 0 5, vec := cfg.extractLsb' 16 9,
                                           ien := cfg.getLsbD 30, cqEn := true, cqTail := 0, cqHead := 0, phase := true,
                                           sinceSignal := 0, timer := false })
    ∧ ((ringAt s.m i).cqEn = false → (ringAt s.m i).cqBase.toNat % 4096 ≠ 0 →
      ∃ n, exec (.cqEnable i cfg) s = .next { s with m := n } ∧ (ringAt n i).cqEn = false ∧ (ringAt n i).err = 5)

/-- SQ_DISABLE, CQ_DISABLE, SQ_TAIL and CQ_COAL_TIMER: what each does to its ring, and that it does nothing else
(16_host_interface). -/
def Obligations.RingQueues : Prop :=
(∀ (s : State) (i : Fin 256), RingsOpen s.m →
      ((ringAt s.m i).sqEn = true →
        ∃ n, exec (.sqDisable i) s = .next { s with m := n } ∧ ringAt n i = { ringAt s.m i with sqEn := false }
          ∧ (∀ j, j ≠ i.val → ringAt n j = ringAt s.m j) ∧ ringPending n i = false
          ∧ n.quay.jobs = s.m.quay.jobs ∧ n.quay.compl = s.m.quay.compl
          ∧ n = { s.m with quay := { s.m.quay with rings := n.quay.rings, fetches := n.quay.fetches } })
      ∧ ((ringAt s.m i).cqEn = true → cqInUse s.m i = true → exec (.cqDisable i) s = .next s)
      ∧ ((ringAt s.m i).cqEn = true → cqInUse s.m i = false →
        ∃ n, exec (.cqDisable i) s = .next { s with m := n } ∧ OnlyRing s.m n i
          ∧ ringAt n i = { ringAt s.m i with cqEn := false }))
  ∧ (∀ (s : State) (i : Fin 256) (v : BitVec 16), RingsOpen s.m →
      ((ringAt s.m i).sqEn = true → v.toNat < 2 ^ min (ringAt s.m i).sqLogsz.toNat 16 →
        ∃ n, exec (.sqTail i v) s = .next { s with m := n } ∧ OnlyRing s.m n i
          ∧ ringAt n i = { ringAt s.m i with sqTail := v })
      ∧ ((ringAt s.m i).sqEn = true → 2 ^ min (ringAt s.m i).sqLogsz.toNat 16 ≤ v.toNat →
        ∃ n, exec (.sqTail i v) s = .next { s with m := n } ∧ ringAt n i = { ringAt s.m i with sqEn := false, err := 2 }
          ∧ ∀ j, j ≠ i.val → ringAt n j = ringAt s.m j)
      ∧ ((ringAt s.m i).sqEn = false →
        ∃ n, exec (.sqTail i v) s = .next { s with m := n } ∧ OnlyRing s.m n i
          ∧ ringAt n i = { ringAt s.m i with dbign := satAdd (ringAt s.m i).dbign 1 }))
  ∧ (∀ (s : State) (i : Fin 256), (ringAt s.m i).cqEn = true → (ringAt s.m i).ien = true → (ringAt s.m i).timer = true →
      (ringAt s.m i).sinceSignal ≠ 0 →
      ∃ n, exec (.cqCoalTimer i) s = .next { s with m := n }
        ∧ ringAt n i = { ringAt s.m i with sinceSignal := 0, timer := false }
        ∧ (∀ j, j ≠ i.val → ringAt n j = ringAt s.m j)
        ∧ (if vecMasked s.m (ringAt s.m i).vec.toNat || muted s.m
           then n.msixOut = s.m.msixOut ∧ tget false n.quay.msixPba (ringAt s.m i).vec.toNat = true
           else n.msixOut = s.m.msixOut ++ [(ringAt s.m i).vec.toNat] ∧ n.quay.msixPba = s.m.quay.msixPba))

/-- CQ_HEAD: the new head, and the ignored writes HEAD_RANGE and HEAD_PAST (R562). -/
def Obligations.HeadDoorbell : Prop :=
∀ (s : State) (i : Fin 256) (v : BitVec 16), RingsOpen s.m → (ringAt s.m i).cqEn = true →
    let size := 2 ^ min (ringAt s.m i).cqLogsz.toNat 16
    let head := (ringAt s.m i).cqHead
    let past := (v.toNat + size - head.toNat) % size > ((ringAt s.m i).cqTail.toNat + size - head.toNat) % size
    (size ≤ v.toNat →
      ∃ n, exec (.cqHead i v) s = .next { s with m := n } ∧ ringAt n i = { ringAt s.m i with err := 3 }
        ∧ ∀ j, j ≠ i.val → ringAt n j = ringAt s.m j)
    ∧ (v.toNat < size → past →
      ∃ n, exec (.cqHead i v) s = .next { s with m := n } ∧ ringAt n i = { ringAt s.m i with err := 4 }
        ∧ ∀ j, j ≠ i.val → ringAt n j = ringAt s.m j)
    ∧ (v.toNat < size → ¬ past →
      ∃ n, exec (.cqHead i v) s = .next { s with m := n } ∧ OnlyRing s.m n i
        ∧ ringAt n i = { ringAt s.m i with cqHead := v })

/-- SUBMISSION_FETCH reads one entry of the next pending ring in ascending turn (16_host_interface, 01_module_at_work). -/
def Obligations.FetchRoundRobin : Prop :=
∀ (s : State) (k : Nat), k < 256 → s.m.quay.ready = true → s.m.quay.qstate = 0 → muted s.m = false →
    s.m.quay.jobs.length < 1024 → ringPending s.m ((s.m.quay.rr + 1 + k) % 256) = true →
    (∀ j, j < k → ringPending s.m ((s.m.quay.rr + 1 + j) % 256) = false) →
    let i := (s.m.quay.rr + 1 + k) % 256
    exec .submissionFetch s = .next { s with m := { s.m with quay := { s.m.quay with
      rr := i, fetches := s.m.quay.fetches ++ [{ ring := i, index := (ringAt s.m i).sqHead.toNat }] } } }

/-- COMPLETION_ENTRY: entry k at CQ_BASE + 32 k with the current PHASE; a full ring writes nothing (R561). -/
def Obligations.CompletionEntries : Prop :=
∀ (s : State) (i : Nat) (c : Completion), s.m.quay.compl[i]? = some c → muted s.m = false →
    let k := (ringAt s.m c.ring).cqid.toNat
    let cq := ringAt s.m k
    let size := 2 ^ min cq.cqLogsz.toNat 16
    let tail := (cq.cqTail.toNat + 1) % size
    cq.cqEn = true →
    (tail = cq.cqHead.toNat → exec (.completionEntry i) s = .next s)
    ∧ (tail ≠ cq.cqHead.toNat →
      ∃ n bytes front, exec (.completionEntry i) s = .next { s with m := n }
        ∧ n.hostOut = s.m.hostOut ++ front ++ [{ addr := cq.cqBase + BitVec.ofNat 64 (32 * cq.cqTail.toNat), bytes := bytes }]
        ∧ bytes = complBytes (match c.job.bind (jobAt s.m) with
            | some j => lateFence j c
            | none => c) cq.phase (ringAt s.m c.ring).sqHead ∧ bit (bytes.getD 7 0).toNat 0 = cq.phase
        ∧ (ringAt n k).cqTail = BitVec.ofNat 16 tail ∧ (ringAt n k).phase = (if tail = 0 then !cq.phase else cq.phase)
        ∧ n.quay.compl = ldel s.m.quay.compl i)

/-- The host interface's *Job descriptor checks* 1 to 5: entry `e` with buffer table `tab` fails check `k`. -/
def Sys2Proof.Certificates.descFails (h : Hedge) (e tab : List Byte) : Nat → Prop
  | 1 => ¬ (field e 0 1 = 1 ∨ field e 0 1 = 2) ∨ 2 ≤ field e 1 1 ∨ zeroField e 30 2 = false ∨ zeroField e 72 56 = false
  | 2 => field e 8 8 % 64 ≠ 0 ∨ field e 32 8 % 64 ≠ 0 ∨ field e 40 8 % 64 ≠ 0 ∨ field e 48 8 % 64 ≠ 0
      ∨ (field e 2 2 ≠ 0 ∧ field e 56 8 % 64 ≠ 0) ∨ field e 64 8 % 8 ≠ 0
  | 3 => 256 < field e 2 2 ∨ 256 < field e 28 2 ∨ (field e 0 1 = 2 ∧ field e 28 2 ≠ 0)
  | 4 => ∃ i, i < field e 2 2 ∧ (field tab (16 * i) 8 % 64 ≠ 0 ∨ field tab (16 * i + 8) 8 % 64 ≠ 0
      ∨ field tab (16 * i + 8) 8 = 0)
  | 5 => bit (field e 1 1) 0 = true ∧ ¬ (field e 0 1 = 2 ∧ (lcsOf h.fuses = 1 ∨ (h.debug = true ∧ h.scope.getLsbD 3 = true)))
  | _ => False

/-- JOB and HAND: a descriptor that passes checks 1 to 5 waits for admission; the first check that fails is the DETAIL of
DESC_FORMAT (16_host_interface). -/
def Obligations.DescriptorChecks : Prop :=
  ∀ (s : State) (i : Fin 256) (e tab pat : List Byte) (c : Instr),
    (c = .job i e tab pat ∧ field e 0 1 ≠ 2 ∧ field e 0 1 ≠ 0x10 ∧ field e 0 1 ≠ 0x11
      ∨ c = .hand i e tab ∧ pat = [] ∧ field e 0 1 = 2) →
    fetchOut s.m i = true →
    let passed (n : Module) : Prop :=
      ringAt n i = { ringAt s.m i with
        sqHead := BitVec.ofNat 16 (((ringAt s.m i).sqHead.toNat + 1) % 2 ^ min (ringAt s.m i).sqLogsz.toNat 16) }
      ∧ (∀ j, j ≠ i.val → ringAt n j = ringAt s.m j) ∧ fetchOut n i = false ∧ OnlyQuay s.m n
      ∧ n.quay.jobs = s.m.quay.jobs
    ((∀ k, ¬ descFails s.m.hedge e tab k) →
      ∃ n d, exec c s = .next { s with m := n } ∧ passed n ∧ n.quay.waiting = s.m.quay.waiting ++ [d]
        ∧ n.quay.compl = s.m.quay.compl ∧ d.ring = i.val ∧ d.cid = BitVec.ofNat 32 (field e 4 4)
        ∧ d.hand = decide (field e 0 1 = 2) ∧ d.gaddr = BitVec.ofNat 64 (field e 8 8)
        ∧ d.glen = BitVec.ofNat 64 (field e 16 8) ∧ d.nbuf = field e 2 2)
    ∧ ∀ k, descFails s.m.hedge e tab k → (∀ j, j < k → ¬ descFails s.m.hedge e tab j) →
      ∃ n, exec c s = .next { s with m := n } ∧ passed n ∧ n.quay.waiting = s.m.quay.waiting
        ∧ n.quay.compl = s.m.quay.compl ++ [{ ring := i, cid := BitVec.ofNat 32 (field e 4 4), jobtag := 0xFFFF,
                                              status := 0x20, detail := BitVec.ofNat 8 k }]

/-- ADMIT: the first waiting job is admitted under a free tag and counted in ADMITTED; none under a quiesce or with 1,024
jobs in flight (01_module_at_work, 14_ledger, 16_host_interface). -/
def Obligations.Admission : Prop :=
∀ (s : State) (tag : Fin 1024) (d : JobDesc) (rest : List JobDesc), s.m.quay.waiting = d :: rest →
    (s.m.quay.qstate = 0 → s.m.quay.jobs.length < 1024 → jobAt s.m tag = none → (∀ g ∈ s.m.graves, g.job ≠ tag.val) →
      exec (.admitJob tag) s = .next { s with m := { s.m with quay := { s.m.quay with
        waiting := rest, admitted := s.m.quay.admitted + 1,
        jobs := tset none s.m.quay.jobs tag (some { desc := d, cap := s.m.quay.pcap.toNat,
                                                            order := s.m.quay.admitted.toNat }) } } })
    ∧ ((s.m.quay.qstate ≠ 0 ∨ 1024 ≤ s.m.quay.jobs.length) → exec (.admitJob tag) s = .next s)

/-- KEY_LOAD and KEY_LOAD_DONE: an upload runs with the directory unchanged, and only a good one enters it (09_key_ferry,
16_host_interface). -/
def Obligations.KeyLoads : Prop :=
(∀ (s : State) (i : Fin 256) (e man : List Byte) (pages : List (List Byte)),
    fetchOut s.m i = true → field e 0 1 = 0x10 → s.m.quay.uploads.length < 4 → s.m.quay.qstate = 0 →
    let form := zeroField e 1 3 = true ∧ zeroField e 32 96 = true ∧ field e 8 8 % 64 = 0 ∧ field e 24 8 % 64 = 0
      ∧ man.length = field e 16 8
    let check := uploadCheck s.m.quay.imageSets s.m.quay.dir s.m.quay.uploads (fun st => (stkAt s.m st).retired) man pages
    let ready := ∀ k ps, form → check = .good k ps → ∀ a ∈ k.pages, spokeReady s.m (stkOf a / 2) = true ∧ (stkAt s.m (stkOf a)).state = 3
    (¬ ready → exec (.keyLoad i e man pages) s = .next s) ∧ (ready →
    ∃ n u, exec (.keyLoad i e man pages) s = .next { s with m := n } ∧ n.quay.uploads = s.m.quay.uploads ++ [u]
      ∧ u.ring = i.val ∧ u.cid = BitVec.ofNat 32 (field e 4 4) ∧ n.quay.dir = s.m.quay.dir ∧ n.quay.jobs = s.m.quay.jobs
      ∧ fetchOut n i = false
      ∧ (¬ form → u.status = 1 ∧ u.set = none)
      ∧ (∀ st p, form → check = .fail st p → u.status = st ∧ u.set = none ∧ n.stks = s.m.stks)
      ∧ (∀ k ps, form → check = .good k ps → u.status = 0 ∧ u.set = some k)))
  ∧ ∀ (s : State) (i : Nat) (u : KeyUpload), s.m.quay.uploads[i]? = some u →
    (∀ k, u.set = some k → (∀ x ∈ s.m.quay.dir, x.ksid ≠ k.ksid) →
      ∃ n, exec (.keyLoadDone i) s = .next { s with m := n } ∧ OnlyQuay s.m n ∧ n.quay.dir = s.m.quay.dir ++ [k]
        ∧ n.quay.uploads = ldel s.m.quay.uploads i
        ∧ n.quay.compl = s.m.quay.compl ++ [{ ring := u.ring, cid := u.cid, status := 0, count := 0 }])
    ∧ (u.set = none →
      ∃ n, exec (.keyLoadDone i) s = .next { s with m := n } ∧ OnlyQuay s.m n ∧ n.quay.dir = s.m.quay.dir
        ∧ n.quay.uploads = ldel s.m.quay.uploads i
        ∧ n.quay.compl = s.m.quay.compl ++ [{ ring := u.ring, cid := u.cid, status := u.status, count := u.page }])

/-- KEY_UNLOAD removes a key set and its replicas, and is refused with KL_BUSY while a job or a peer names the set (R306). -/
def Obligations.KeyUnloads : Prop :=
∀ (s : State) (i : Fin 256) (e : List Byte),
    let ksid := BitVec.ofNat 64 (field e 8 8)
    fetchOut s.m i = true → field e 0 1 = 0x11 → zeroField e 1 3 = true → zeroField e 16 112 = true →
    (∃ k ∈ s.m.quay.dir, k.ksid = ksid) →
    (((∃ t j, (t, some j) ∈ s.m.quay.jobs ∧ ksid ∈ j.ksids) ∨ (∃ k ∈ s.m.quay.dir, k.ksid ≠ ksid ∧ k.peer = ksid)) →
      ∃ n, exec (.keyUnload i e) s = .next { s with m := n } ∧ n.quay.dir = s.m.quay.dir
        ∧ n.quay.replicas = s.m.quay.replicas
        ∧ n.quay.compl = s.m.quay.compl ++ [{ ring := i, cid := BitVec.ofNat 32 (field e 4 4), status := 9 }])
    ∧ ((∀ t j, (t, some j) ∈ s.m.quay.jobs → ksid ∉ j.ksids) → (∀ k ∈ s.m.quay.dir, k.peer = ksid → k.ksid = ksid) →
      ∃ n, exec (.keyUnload i e) s = .next { s with m := n } ∧ OnlyQuay s.m n
        ∧ (∀ k, k ∈ n.quay.dir ↔ k ∈ s.m.quay.dir ∧ k.ksid ≠ ksid)
        ∧ (∀ r, r ∈ n.quay.replicas ↔ r ∈ s.m.quay.replicas ∧ r.ksid ≠ ksid) ∧ n.quay.jobs = s.m.quay.jobs
        ∧ n.quay.compl = s.m.quay.compl ++ [{ ring := i, cid := BitVec.ofNat 32 (field e 4 4), status := 0 }])

/-- HOST_READ_ERROR: HOST_READ with detail 1, 2 or 3 by the stage of the job, KL_FORMAT for an upload, and the AER report
(R575). -/
def Obligations.HostReadErrors : Prop :=
(∀ (s : State) (i : Fin 256), fetchOut s.m i = true →
    ∃ n, exec (.hostReadError (.entry i)) s = .next { s with m := n } ∧ fetchOut n i = false
      ∧ n.quay.compl = s.m.quay.compl ++ [{ ring := i, status := 0x39, detail := 1 }]
      ∧ n.aer = s.m.aer ++ [.completionError])
  ∧ (∀ (s : State) (tag : Fin 1024) (j : Job), jobAt s.m tag = some j → j.phase = .admitted →
    ∃ n c, exec (.hostReadError (.graph tag)) s = .next { s with m := n } ∧ n.quay.compl = s.m.quay.compl ++ [c]
      ∧ c.status = 0x39 ∧ c.detail = 2 ∧ c.ring = j.desc.ring ∧ c.cid = j.desc.cid
      ∧ n.aer = s.m.aer ++ [.completionError])
  ∧ (∀ (s : State) (tag : Fin 1024) (j : Job), jobAt s.m tag = some j → j.phase = .running → j.killed = none →
    ∃ n c j', exec (.hostReadError (.run tag)) s = .next { s with m := n } ∧ n.quay.compl = s.m.quay.compl ++ [c]
      ∧ c.status = 0x39 ∧ c.detail = 3 ∧ c.cid = j.desc.cid ∧ jobAt n tag = some j' ∧ j'.killed = some .hostRead
      ∧ j'.replayReq = j.replayReq ∧ n.aer = s.m.aer ++ [.completionError])
  ∧ ∀ (s : State) (i : Nat) (u : KeyUpload), s.m.quay.uploads[i]? = some u →
    ∃ n, exec (.hostReadError (.keyLoad i)) s = .next { s with m := n }
      ∧ n.quay.uploads[i]? = some { u with status := 1, page := 0, set := none } ∧ n.quay.dir = s.m.quay.dir
      ∧ n.aer = s.m.aer ++ [.completionError]

/-- PLAN_JOB: a rejected image completes with its plan status after a 128-byte receipt; a valid graph is planned afresh,
with its receipt and a cached plan (12_planner, 16_host_interface). -/
def Obligations.PlanOutcomes : Prop :=
∀ (s : State) (tag : Fin 1024) (b : List Byte) (c : PlanChoice) (j : Job), jobAt s.m tag = some j → j.phase = .admitted →
    b.length = j.desc.glen.toNat → muted s.m = false → alive s.m = true →
    let check := graphCheck b j.desc.glen.toNat j.desc.patches s.m.quay.imageSets s.m.quay.dir
    let receipted (n : Module) : Prop :=
      ∃ r : List Byte, r.length = 128 ∧ n.hostOut = s.m.hostOut ++ [{ addr := j.desc.rcpt, bytes := r }]
    (∀ r, j.desc.hand = false → check = .error r →
      ∃ n x, exec (.planJob tag b c) s = .next { s with m := n } ∧ receipted n ∧ n.quay.compl = s.m.quay.compl ++ [x]
        ∧ x.status = BitVec.ofNat 8 r.status ∧ x.cid = j.desc.cid ∧ n.quay.plans = s.m.quay.plans)
    ∧ (∀ k, j.desc.hand = false → check = .ok k →
      let hs := hostTensors k (s.m.quay.imageSets ++ k.g.sets) j.desc.bufs
      let key := planKey b k.g j.desc.hints.toNat (fencedNow s.m)
      j.desc.npatch = k.g.hdr.nslot → (∀ h ∈ hs, h.t.buf < j.desc.nbuf) → badRange hs j.desc.bufs = none →
      j.desc.hints.toNat % 4 < 2 → j.desc.hints.toNat < 4096 → cacheHit s.m (BitVec.ofNat 64 key) k = none →
      planTurn s.m j = true → c.planUs.toNat * 1000 ≤ 2000000 + 100 * entriesOf c.clusters (loweredOf s.m k) →
      entriesOf c.clusters (loweredOf s.m k) ≤ 16777216 → c.placed = true → choiceOk s.m tag j k hs c = true →
      (fencedNow s.m = [] ∨ degradedOk s.m (BitVec.ofNat 64 (planKey b k.g j.desc.hints.toNat [])) c = true) →
      waitsOk c (planTimeline j.desc c) = true →
      ∃ n j', exec (.planJob tag b c) s = .next { s with m := n } ∧ receipted n ∧ jobAt n tag = some j'
        ∧ j'.phase = .planned ∧ j'.clusters = c.clusters ∧ j'.dies = c.dies ∧ j'.places = c.places ∧ j'.bound = c.boundAc ∧ j'.waitAc = c.waitAc ∧ j'.desc = j.desc
        ∧ j'.prims.map (fun p => { p with seed := 0 }) = (loweredOf s.m k).map (fun p => { p with seed := 0 })
        ∧ n.quay.compl = s.m.quay.compl
        ∧ let p : CachedPlan := { id := s.m.quay.planSeq + 1, key := BitVec.ofNat 64 key, choice := c, patches := j.desc.patches,
                                  uses := k.uses, log := k.log, seq := s.m.quay.planSeq + 1,
                                  kinds := ksidKinds s.m.quay.dir k.g,
                                  pages := needPages s.m.quay.dir (s.m.quay.imageSets ++ k.g.sets) k }
          cacheFits (s.m.quay.plans ++ [p]) = true → n.quay.plans = s.m.quay.plans ++ [p])
    ∧ (∀ h, j.desc.hand = true → j.desc.hints = 0 →
      handCheck b j.desc.glen.toNat s.m.quay.dir (outOfService s.m) = .ok h →
      placesForm h.clusters c.places = true → placesFree s.m tag none h.clusters c.places = true →
      waitFor s.m tag h.clusters (handDies h) [] ≤ c.waitAc.toNat →
      ∃ n j', exec (.planJob tag b c) s = .next { s with m := n } ∧ receipted n ∧ jobAt n tag = some j'
        ∧ j'.phase = .planned ∧ j'.clusters = h.clusters ∧ j'.bound = BitVec.ofNat 64 (2 ^ 64 - 1) ∧ j'.waitAc = c.waitAc ∧ j'.places = c.places
        ∧ j'.floods = handFloods h.clusters
        ∧ n.quay.plans = s.m.quay.plans)

/-- JOB_START: each cluster of the plan gets a context at a-cycle 0, each die counts the job open, and the job runs
(13_command_streams, 14_ledger, 12_planner). -/
def Obligations.JobStarts : Prop :=
∀ (s : State) (tag : Fin 1024) (j : Job), jobAt s.m tag = some j → j.phase = .planned → s.m.hedge.power = .active →
    holdsFree s.m tag j = true → slotsFree s.m tag j = true → powerOk s.m j = true →
    (∀ h ∈ j.clusters, (freeCtx (clAt s.m h.cl)).isSome = true ∧ spokeReady s.m (h.cl / 64) = true) →
    (∀ h ∈ j.dies, (stkAt s.m (2 * h.die)).state = 3 ∧ (stkAt s.m (2 * h.die + 1)).state = 3) →
    (j.clusters.map (·.cl)).Nodup → (j.dies.map (·.die)).Nodup →
    ∃ n j', exec (.jobStart tag) s = .next { s with m := n } ∧ jobAt n tag = some j' ∧ j'.phase = .running
      ∧ j'.origin = s.m.now ∧ j'.seeds.length = j.floods
      ∧ (∀ h ∈ j.clusters, ∃ k, k < 8 ∧ (ctxOf (clAt n h.cl) k).state = 1 ∧ (ctxOf (clAt n h.cl) k).job = tag.val
          ∧ (ctxOf (clAt n h.cl) k).pc = 0 ∧ (ctxOf (clAt n h.cl) k).len = h.stream.length
          ∧ (ctxOf (clAt n h.cl) k).base = streamBase j h.cl
          ∧ (ctxOf (clAt n h.cl) k).origin = s.m.now)
      ∧ (∀ h ∈ j.dies, (dieAt n h.die).openJobs = (dieAt s.m h.die).openJobs + 1)

/-- JOB_END_AUDIT: it starts when the job is quiet, waits 512 a-cycles, and then passes or faults by the first check that
fails (14_ledger). -/
def Obligations.JobEndAudit : Prop :=
∀ (s : State) (tag : Fin 1024) (j : Job), jobAt s.m tag = some j → j.started = true → jobQuiet s.m tag j = true →
    let pools := ∀ h ∈ j.dies, ∀ i, i < h.pools → (ledgerOf s.m h.die (h.pool0 + i)).fqv = true →
      (ledgerOf s.m h.die (h.pool0 + i)).free.toNat = bits (poolWord s.m h.die (h.pool0 + i) 1) 15 0 + 1
        ∧ (ledgerOf s.m h.die (h.pool0 + i)).queued = 0 ∧ (ledgerOf s.m h.die (h.pool0 + i)).held = 0
        ∧ (ledgerOf s.m h.die (h.pool0 + i)).transit = 0
    let credits := ∀ h ∈ j.dies, ∀ p ∈ (dieAt s.m h.die).credits, p.2.valid = true → p.2.job.toNat = tag.val →
      p.2.avail = p.2.grant
    let windows := ∀ h ∈ j.dies, ∀ w ∈ (dieAt s.m h.die).windows, w.job = tag.val →
      ∀ k, k < w.size → (tget {} w.frames k).st = 0
    let flags := ∀ h ∈ j.clusters, ∀ i, i < h.flags → tget 0 (clAt s.m h.cl).flags (h.flag0 + i) = 0
    (j.auditing = none →
      exec (.jobEndAudit tag) s =
        .next { s with m := onJob s.m tag (fun j => { j with phase := .auditing, auditing := some s.m.now }) })
    ∧ (∀ t, j.auditing = some t → s.m.now < t + 512 → exec (.jobEndAudit tag) s = .next s)
    ∧ (∀ t, j.auditing = some t → t + 512 ≤ s.m.now →
      ∃ n c, exec (.jobEndAudit tag) s = .next { s with m := n } ∧ n.quay.compl = s.m.quay.compl ++ [c]
        ∧ c.cid = j.desc.cid ∧ c.job = some tag.val
        ∧ (pools → credits → windows → flags → c.status = 0)
        ∧ (¬ pools → c.status = 0x36 ∧ c.detail = 6)
        ∧ (pools → ¬ credits → c.status = 0x36 ∧ c.detail = 7)
        ∧ (pools → credits → ¬ windows → c.status = 0x36 ∧ c.detail = 8)
        ∧ (pools → credits → windows → ¬ flags → c.status = 0x36 ∧ c.detail = 9))

/-- QREQ, QREL, IDEREQ, LOCK, GLB_HOST and GLB_PCAP: what each changes, and the writes that are ignored
(16_host_interface, 19_power_clocks_reset). -/
def Obligations.GlobalControls : Prop :=
∀ (s : State), Bar0Open s.m →
    (s.m.quay.qstate = 0 →
      exec .qreq s = .next { s with m := { s.m with quay := { s.m.quay with qstate := 1 } } })
    ∧ (s.m.quay.qstate ≠ 0 → exec .qreq s = .next s)
    ∧ (s.m.quay.qstate = 2 →
      exec .qrel s = .next { s with m := { s.m with quay := { s.m.quay with qstate := 0 } } })
    ∧ (s.m.quay.qstate ≠ 2 → exec .qrel s = .next s)
    ∧ (∀ v, s.m.quay.lock = false →
      exec (.idereq v) s = .next { s with m := { s.m with quay := { s.m.quay with ideReq := v } } })
    ∧ (∀ v, s.m.quay.lock = true → exec (.idereq v) s = .next s)
    ∧ exec .lock s = .next { s with m := { s.m with quay := { s.m.quay with lock := true } } }
    ∧ (∀ v : Word,
      let rd := v.extractLsb' 0 10
      let wr := v.extractLsb' 10 10
      let lat := v.extractLsb' 20 12
      let good := 1 ≤ rd.toNat ∧ rd.toNat ≤ 121 ∧ 1 ≤ wr.toNat ∧ wr.toNat ≤ 121 ∧ 1 ≤ lat.toNat
      (good → exec (.glbHost v) s = .next { s with m := { s.m with quay := { s.m.quay with
          rdRate := rd, wrRate := wr, rdLat := lat, plans := [] } } })
      ∧ (¬ good → exec (.glbHost v) s = .next s))
    ∧ (∀ v : Word,
      let cap := v.extractLsb' 0 13
      (1500 ≤ cap.toNat → cap.toNat ≤ 4200 →
        exec (.glbPcap v) s = .next { s with m := { s.m with quay := { s.m.quay with pcap := cap } } })
      ∧ ((cap.toNat < 1500 ∨ 4200 < cap.toNat) → exec (.glbPcap v) s = .next s))

/-- GLB_KILL kills the job in flight with its tag and CID before its job-end audit, with status KILLED, and otherwise has
no effect (16_host_interface). -/
def Obligations.HostKill : Prop :=
∀ (s : State) (tag : BitVec 10) (cid : Word), Bar0Open s.m →
    (∀ j, jobAt s.m tag.toNat = some j → j.desc.cid = cid → j.phase ≠ .auditing → j.phase ≠ .finishing → j.killed = none →
      ∃ n c j', exec (.glbKill tag cid) s = .next { s with m := n } ∧ n.quay.compl = s.m.quay.compl ++ [c]
        ∧ c.ring = j.desc.ring ∧ c.cid = cid ∧ c.status = 0x30 ∧ c.detail = 0
        ∧ jobAt n tag.toNat = some j' ∧ j'.killed = some .killed)
    ∧ ((jobAt s.m tag.toNat = none ∨ ∃ j, jobAt s.m tag.toNat = some j ∧ (j.desc.cid ≠ cid ∨ j.phase = .auditing)) →
      exec (.glbKill tag cid) s = .next s)

/-- A BAR0 access of another size or alignment is dropped and reported through AER (R549). -/
def Obligations.BadAccesses : Prop :=
(∀ (s : State) (read : Bool) (off : BitVec 25) (bytes : Nat),
    ((bytes = 4 ∧ off.toNat % 4 = 0 ∨ bytes = 8 ∧ off.toNat % 8 = 0) → exec (.bar0BadAccess read off bytes) s = .next s)
    ∧ (¬ (bytes = 4 ∧ off.toNat % 4 = 0 ∨ bytes = 8 ∧ off.toNat % 8 = 0) →
      exec (.bar0BadAccess read off bytes) s =
        .next { s with m := { s.m with aer := s.m.aer ++ [.unsupportedRequest read off] } }))
  ∧ ∀ (s : State) (off : Nat) (wide : Bool) (v : BitVec 64), Bar0Open s.m → off % (if wide then 8 else 4) ≠ 0 →
    exec (.registerWrite .bar0 off wide v) s =
      .next { s with m := { s.m with aer := s.m.aer ++ [.unsupportedRequest false (BitVec.ofNat 25 off)] } }

/-- REGISTER_WRITE: SQ_BASE and SQ_CFG but for EN are ignored while SQ_CFG.EN is 1, CQ_BASE and CQ_CFG while CQ_CFG.EN is
1 (R554). -/
def Obligations.RingRegistersLocked : Prop :=
∀ (s : State) (i : Fin 256) (v : BitVec 64), RingsOpen s.m →
    let reg := 0x100000 + 64 * i.val
    let same (c : Instr) : Prop := ∃ n, exec c s = .next { s with m := n } ∧ ∀ j, ringAt n j = ringAt s.m j
    ((ringAt s.m i).sqEn = true →
      same (.registerWrite .bar0 reg true v) ∧ same (.registerWrite .bar0 reg false v)
      ∧ same (.registerWrite .bar0 (reg + 4) false v)
      ∧ (v.getLsbD 31 = true → exec (.registerWrite .bar0 (reg + 0x10) false v) s = .next s)
      ∧ (v.getLsbD 31 = false → ∃ n, exec (.registerWrite .bar0 (reg + 0x10) false v) s = .next { s with m := n }
          ∧ ringAt n i = { ringAt s.m i with sqEn := false } ∧ ∀ j, j ≠ i.val → ringAt n j = ringAt s.m j))
    ∧ ((ringAt s.m i).cqEn = true →
      same (.registerWrite .bar0 (reg + 8) true v) ∧ same (.registerWrite .bar0 (reg + 8) false v)
      ∧ same (.registerWrite .bar0 (reg + 12) false v)
      ∧ (v.getLsbD 31 = true → exec (.registerWrite .bar0 (reg + 0x14) false v) s = .next s)
      ∧ (v.getLsbD 31 = false → cqInUse s.m i = true → exec (.registerWrite .bar0 (reg + 0x14) false v) s = .next s)
      ∧ (v.getLsbD 31 = false → cqInUse s.m i = false →
          ∃ n, exec (.registerWrite .bar0 (reg + 0x14) false v) s = .next { s with m := n }
            ∧ ringAt n i = { ringAt s.m i with cqEn := false } ∧ ∀ j, j ≠ i.val → ringAt n j = ringAt s.m j))

/-- REGISTER_WRITE: SQ_BASE whole and in halves, GLB_EVT write-one-to-clear, GLB_EVTEN, a handle register, a pool word and
PKE_IEN (16_host_interface, 13_command_streams, 14_ledger, 18_public_key_engine). -/
def Obligations.RegisterWrites : Prop :=
∀ (s : State) (v w : BitVec 64),
    (∀ i : Fin 256, RingsOpen s.m → (ringAt s.m i).sqEn = false →
      (∃ n, exec (.registerWrite .bar0 (0x100000 + 64 * i.val) true v) s = .next { s with m := n }
        ∧ ringAt n i = { ringAt s.m i with sqBase := v } ∧ ∀ j, j ≠ i.val → ringAt n j = ringAt s.m j)
      ∧ (∃ n k, exec (.registerWrite .bar0 (0x100000 + 64 * i.val) false v) s = .next { s with m := n }
        ∧ (∀ j, ringAt n j = ringAt s.m j)
        ∧ exec (.registerWrite .bar0 (0x100004 + 64 * i.val) false w) { s with m := n } = .next { s with m := k }
        ∧ ringAt k i = { ringAt s.m i with sqBase := w.setWidth 32 ++ v.setWidth 32 }))
    ∧ (Bar0Open s.m →
      exec (.registerWrite .bar0 0x30 false v) s =
        .next { s with m := { s.m with quay := { s.m.quay with evt := s.m.quay.evt &&& ~~~(v.setWidth 7) } } }
      ∧ exec (.registerWrite .bar0 0x34 false v) s =
        .next { s with m := { s.m with quay := { s.m.quay with evtEn := v.setWidth 7 } } })
    ∧ (alive s.m = true →
      (∀ (cl : Fin 512) (k : Fin 8) (r : Fin 16),
        ∃ n, exec (.registerWrite (.cluster cl .seq) (0x5000 + 64 * k.val + 4 * r.val) false v) s = .next { s with m := n }
          ∧ OnlyCl s.m n cl ∧ ∃ t, clAt n cl = onCtx (clAt s.m cl) k (fun x => { x with handles := t })
          ∧ tget 0xFFFFFFFF t r = v.setWidth 32
          ∧ ∀ q, q ≠ r.val → tget 0xFFFFFFFF t q = tget 0xFFFFFFFF (ctxOf (clAt s.m cl) k).handles q)
      ∧ (∀ (d : Fin 8) (p : Fin 1024),
        ∃ n, exec (.registerWrite (.die d .ste) (0x90000 + 32 * p.val + 16) false v) s = .next { s with m := n }
          ∧ OnlyDie s.m n d ∧ ∃ t, dieAt n d = { dieAt s.m d with pool := t } ∧ tget 0 t (8 * p.val + 4) = v.setWidth 32
          ∧ ∀ q, q ≠ 8 * p.val + 4 → tget 0 t q = tget 0 (dieAt s.m d).pool q)
      ∧ exec (.registerWrite .pke 0x30 false v) s =
          .next { s with m := { s.m with pke := { s.m.pke with ien := v.setWidth 2 } } })

/-- The five commands that start a warm reset, each where it takes effect. -/
def Sys2Proof.Certificates.StartsWarm (c : Instr) (s : State) : Prop :=
  c = .wreset 0xA5 ∧ Bar0Open s.m ∨ c = .flr ∨ c = .hotReset ∨ c = .warmReset ∨ c = .dlDown

/-- What every reset of kind warm or stronger leaves of the Quay and of the PKE. -/
def Sys2Proof.Certificates.LostAtReset (n : Module) : Prop :=
  n.quay.jobs = [] ∧ n.quay.compl = [] ∧ n.quay.fetches = [] ∧ n.quay.waiting = [] ∧ n.quay.uploads = []
    ∧ n.quay.rings = [] ∧ n.quay.dir = [] ∧ n.quay.replicas = [] ∧ n.quay.plans = [] ∧ n.quay.ready = false
    ∧ n.quay.qstate = 0 ∧ n.quay.ideReq = false ∧ n.quay.lock = false ∧ n.pke = {} ∧ n.transit = [] ∧ n.graves = []

/-- WRESET, FLR, DL_DOWN, HOT_RESET and WARM_RESET lose every job, key and plan without a completion, and wipe the module
(16_host_interface, 19_power_clocks_reset). -/
def Obligations.WarmResets : Prop :=
  ∀ (s : State) (c : Instr), alive s.m = true → s.m.hedge.boot ≠ .recovery → StartsWarm c s →
    ∃ n, exec c s = .next { s with m := n } ∧ LostAtReset n ∧ n.hostOut = s.m.hostOut
      ∧ (c = .dlDown → ∀ k, tget {} n.ep.ide k = {})
      ∧ (if retainedOk (resetHedge s.m.hedge) then
          n.hedge.boot = .running ∧ n.hedge.fuses = s.m.hedge.fuses
          ∧ (∀ cl, cl < 512 → (clAt n cl).restricted = true ∧ (clAt n cl).wiping = true ∧ (clAt n cl).ctxs = []
              ∧ (clAt n cl).queues = [] ∧ (clAt n cl).flags = [] ∧ (clAt n cl).scb = [])
          ∧ (∀ t, t < 16 → (stkAt n t).state = 2)
        else n.hedge.boot = .running ∨ n.hedge.boot = .recovery)

/-- The module after a cold start from Hedge state `h`, the fuses already read. -/
def Sys2Proof.Certificates.Booted (h : Hedge) (n : Module) : Prop :=
  LostAtReset n ∧ n.hedge.udsClosed = true
    ∧ match (chooseSlot h).1 with
      | some k => n.hedge.boot = .running ∧ n.hedge.slot = k
          ∧ (∀ cl, cl < 512 → (clAt n cl).restricted = true ∧ (clAt n cl).wiping = true)
          ∧ (∀ t, t < 16 → (stkAt n t).state = 2) ∧ (n.quay.eos = true → n.hedge.warn = true)
      | none => n.hedge.boot = .recovery ∧ ∀ d, d < 8 → (dieAt n d).railOn = false ∧ (dieAt n d).clocks = false

/-- PWRGD_RISE, COLD_RESET, PERST_ASSERT and REFCLK_STABLE start the module or its recovery; PERST_DEASSERT starts the
link, and READY ends the wait (17_hedge, 19_power_clocks_reset). -/
def Obligations.ColdStarts : Prop :=
  (∀ s : State, ∃ n, exec .pwrgdRise s = .next { s with m := n }
    ∧ Booted (coldFuses { fuses := s.m.hedge.fuses, flash := (dropUpdate s.m.hedge).flash,
                          drbgCount := s.m.hedge.drbgCount, engineResets := s.m.hedge.engineResets, power := .active }) n)
  ∧ ∀ s : State, alive s.m = true →
    (∃ n, exec .coldReset s = .next { s with m := n } ∧ Booted (coldFuses (resetHedge s.m.hedge)) n
      ∧ n.hostOut = s.m.hostOut)
    ∧ (∃ n, exec .perstAssert s = .next { s with m := n } ∧ Booted (coldFuses (resetHedge s.m.hedge)) n
      ∧ n.ep.perst = true ∧ n.hedge.clkreq = false ∧ n.hostOut = s.m.hostOut)
    ∧ (s.m.hedge.refclk = false →
      ∃ n, exec .refclkStable s = .next { s with m := n } ∧ n.hedge.refclk = true
        ∧ Booted (coldFuses (resetHedge { s.m.hedge with refclk := true })) n)
  ∧ ∀ s : State,
    (∃ n, exec .perstDeassert s = .next { s with m := n } ∧ n.ep.perst = false ∧ n.ep.crs = true
      ∧ n.ep.linkUp = alive s.m ∧ n.hedge.clkreq = alive s.m ∧ n.quay = s.m.quay)
    ∧ ((s.m.hedge.boot = .running ∨ s.m.hedge.boot = .recovery) → s.m.ep.perst = false → wipesDone s.m = true →
      s.m.ep.crs = true →
      ∃ n w, exec .ready s = .next { s with m := n } ∧ n.ep.crs = false ∧ n.ep.readiness = s.m.ep.readiness ++ [w]
        ∧ n.hedge = s.m.hedge)

/-- PWRGD_FALL, RAIL_OUT_OF_TOLERANCE, REGULATOR_FAULT and REFCLK_MISSING end every job without a completion entry;
AON_LOSS ends none (19_power_clocks_reset). -/
def Obligations.PowerLosses : Prop :=
∀ (s : State) (rail : Nat), alive s.m = true →
    let ended (n : Module) : Prop := n.quay.jobs = [] ∧ n.quay.compl = [] ∧ n.hostOut = s.m.hostOut
    (∀ c, (c = .pwrgdFall ∨ c = .railOutOfTolerance rail) →
      ∃ n, exec c s = .next { s with m := n } ∧ ended n ∧ n.quay.ready = false ∧ n.hedge.boot = .off
        ∧ n.hedge.power = .off ∧ alive n = false ∧ n.hedge.fuses = s.m.hedge.fuses
        ∧ (∀ d, d < 8 → (dieAt n d).railOn = false ∧ (dieAt n d).clocks = false)
        ∧ (∀ t, t < 16 → (stkAt n t).mem = []))
    ∧ (∃ n, exec (.regulatorFault rail) s = .next { s with m := n } ∧ ended n ∧ n.quay.ready = false
        ∧ n.hedge.faultPin = true
        ∧ (∃ e, n.hedge.logQ = s.m.hedge.logQ ++ [e] ∧ e.cls = 14 ∧ e.unit = BitVec.ofNat 32 rail)
        ∧ ∃ k, exec .ready { s with m := n } = .next { s with m := k } ∧ k.quay.ready = false)
    ∧ (s.m.hedge.refclk = true →
      ∃ n, exec .refclkMissing s = .next { s with m := n } ∧ ended n ∧ n.hedge.faultPin = true ∧ n.hedge.refclk = false
        ∧ n.aer = s.m.aer ++ [.uncorrectableInternal true])
    ∧ (∃ n, exec (.aonLoss) s = .next { s with m := n } ∧ n.hedge.aonLost = true ∧ n.quay = s.m.quay
        ∧ (s.m.hedge.aonLost = false → ∃ e, n.hedge.logQ = s.m.hedge.logQ ++ [e] ∧ e.cls = 14))

/-- JUNCTION_SHUTDOWN, T_CRIT and THERMTRIP_COMPARATOR assert THERMTRIP#; the first two shut the module down
(15_memory_stacks, 19_power_clocks_reset, 20_reliability). -/
def Obligations.ThermalStops : Prop :=
∀ (s : State),
    let down (n : Module) : Prop := n.quay.jobs = [] ∧ n.quay.compl = [] ∧ n.quay.ready = false ∧ n.hedge.boot = .shutdown
      ∧ n.hedge.power = .off ∧ n.hedge.thermtrip = true ∧ n.quay.ievents = satAdd s.m.quay.ievents 1
      ∧ (∀ d, d < 8 → (dieAt n d).railOn = false) ∧ ∀ t, t < 16 → (stkAt n t).mem = []
    (∀ die, alive s.m = true →
      ∃ n, exec (.junctionShutdown die) s = .next { s with m := n } ∧ down n ∧ n.hostOut = s.m.hostOut)
    ∧ (∀ st : Fin 16, (stkAt s.m st).state ≠ 0 → 2 ≤ (stkAt s.m st).critRun →
      ∃ n, exec (.tCrit st) s = .next { s with m := n } ∧ down n ∧ (stkAt n st).crit = true)
    ∧ ∀ die, exec (.thermtripComparator die) s =
        .next { s with m := { s.m with hedge := { s.m.hedge with thermtrip := true } } }

/-- D3HOT, REST_ENTRY and D0: keys and cached plans survive Rest, the slices are wiped, admission resumes at D0
(16_host_interface, 19_power_clocks_reset, 15_memory_stacks). -/
def Obligations.RestStates : Prop :=
∀ (s : State),
    let kept (n : Module) : Prop := n.quay.dir = s.m.quay.dir ∧ n.quay.replicas = s.m.quay.replicas
      ∧ n.quay.plans = s.m.quay.plans ∧ ∀ t, t < 16 → (stkAt n t).mem = (stkAt s.m t).mem
    (∃ n, exec .d3hot s = .next { s with m := n } ∧ n.ep = { s.m.ep with d3hot := true } ∧ kept n
      ∧ n.quay = { s.m.quay with qstate := if s.m.quay.qstate = 0 then 1 else s.m.quay.qstate, quiesceD3 := true })
    ∧ (s.m.quay.qstate = 2 → s.m.quay.quiesceD3 = true → s.m.ep.d3hot = true → s.m.hedge.boot = .running →
      anyFence s.m = false →
      ∃ n, exec .restEntry s = .next { s with m := n } ∧ kept n ∧ n.hedge.boot = .restMonitor ∧ n.hedge.power = .rest
        ∧ n.hedge.vqNow = 650 ∧ n.pke = {} ∧ (∀ a, a < 0x80000 → (∀ p ∈ n.hedge.sram, p.1 ≠ a))
        ∧ (∀ t, t < 16 → (stkAt n t).state = 4)
        ∧ (∀ cl, cl < 512 → (clAt n cl).scratch = [] ∧ (clAt n cl).ctxs = [])
        ∧ (∀ d, d < 8 → (dieAt n d).railOn = false ∧ (dieAt n d).clocks = false))
    ∧ (s.m.hedge.boot = .restMonitor →
      ∃ n, exec .d0 s = .next { s with m := n } ∧ n.quay.qstate = 0 ∧ n.quay.quiesceD3 = false ∧ n.ep.d3hot = false
        ∧ if retainedOk s.m.hedge then
            kept n ∧ n.hedge.boot = .running ∧ n.hedge.power = .active
            ∧ (∀ t, t < 16 → (stkAt n t).state = 3)
            ∧ (∀ cl, cl < 512 → (clAt n cl).wiping = true ∧ (clAt n cl).restricted = true)
            ∧ (∀ d, d < 8 → (dieAt n d).railOn = true ∧ (dieAt n d).clocks = true)
          else n.hedge.boot = .running ∨ n.hedge.boot = .recovery)
    ∧ (s.m.hedge.boot ≠ .restMonitor →
      exec .d0 s = .next { s with m := { s.m with ep := { s.m.ep with d3hot := false },
                                                  quay := { s.m.quay with quiesceD3 := false } } })

/-- PERST_DEASSERT, READY and AON_LOSS (16_host_interface, 17_hedge, 19_power_clocks_reset). -/
def Obligations.Readiness : Prop :=
∀ (s : State),
    exec .perstDeassert s = .next { s with m := { s.m with
        ep := { s.m.ep with perst := false, linkUp := alive s.m, crs := true },
        hedge := { s.m.hedge with clkreq := alive s.m } } }
    ∧ ((s.m.hedge.boot = .running ∨ s.m.hedge.boot = .recovery) → s.m.ep.perst = false → s.m.ep.crs = true →
      (∀ p ∈ s.m.clusters, p.2.wiping = false) → (∀ p ∈ s.m.stks, p.2.state ≠ 2) →
      ∃ n, exec .ready s = .next { s with m := n }
        ∧ n.ep = { s.m.ep with crs := false, linkUp := true, readiness := s.m.ep.readiness ++ [if s.m.ep.linkUp then 1 else 2] }
        ∧ (n.quay.ready = true ↔ s.m.hedge.boot = .running ∧ lcsOf s.m.hedge.fuses ≤ 3 ∧ s.m.hedge.railFault = false)
        ∧ n = { s.m with ep := n.ep, quay := { s.m.quay with ready := n.quay.ready } })
    ∧ ((s.m.hedge.boot ≠ .running ∧ s.m.hedge.boot ≠ .recovery ∨ s.m.ep.perst = true ∨ s.m.ep.crs = false
        ∨ (∃ p ∈ s.m.clusters, p.2.wiping = true) ∨ ∃ p ∈ s.m.stks, p.2.state = 2) → exec .ready s = .next s)
    ∧ (s.m.hedge.aonLost = false →
      ∃ n e, exec .aonLoss s = .next { s with m := n } ∧ e.cls = 14
        ∧ n = { s.m with hedge := { s.m.hedge with aonLost := true, logQ := s.m.hedge.logQ ++ [e] } })
    ∧ (s.m.hedge.aonLost = true → exec .aonLoss s = .next s)

/-- QUIESCE_CHECK enters the quiesced state when every book is clear, and logs each die at fault otherwise (14_ledger). -/
def Obligations.QuiesceChecks : Prop :=
∀ (s : State),
    (s.m.quay.qstate = 1 → s.m.quay.jobs = [] → s.m.quay.uploads = [] → s.m.quay.compl = [] →
      ((∀ d, d < 8 → dieClear s.m d = true) → s.m.quay.quiesceBad = [] →
        ∃ n, exec .quiesceCheck s = .next { s with m := n } ∧ n.quay.qstate = 2 ∧ n.quay.evt = s.m.quay.evt ||| 1)
      ∧ (((∃ d, d < 8 ∧ dieClear s.m d = false) ∨ s.m.quay.quiesceBad ≠ []) →
        ∃ n ds, exec .quiesceCheck s = .next { s with m := n }
          ∧ ds = ((List.range 8).filter (fun d => !dieClear s.m d)).filter (fun d => !s.m.quay.quiesceBad.contains d)
          ∧ n = { s.m with quay := { s.m.quay with quiesceBad := s.m.quay.quiesceBad ++ ds }, hedge := n.hedge }
          ∧ n.hedge = { s.m.hedge with logQ := s.m.hedge.logQ ++ ds.map (fun d =>
              { cls := 12, sev := 3, unit := BitVec.ofNat 32 d, job := 0xFFFF, detail := 0, addr := 0, data := [] }) }))
    ∧ ((s.m.quay.qstate ≠ 1 ∨ s.m.quay.jobs ≠ [] ∨ s.m.quay.uploads ≠ [] ∨ s.m.quay.compl ≠ []) →
      exec .quiesceCheck s = .next s)

/-- What a reset of compute die `d` leaves. -/
def Sys2Proof.Certificates.DieWasReset (m n : Module) (d : Nat) : Prop :=
  (∀ t j, t ∈ jobsOnDie m d → jobAt m t = some j → j.killed = none → j.phase ≠ .finishing →
      ∃ c ∈ n.quay.compl, c.job = some t ∧ c.cid = j.desc.cid ∧ c.status = 0x3A ∧ c.detail = BitVec.ofNat 8 d)
    ∧ (∀ l, l < 64 → (clAt n (64 * d + l)).wiping = true ∧ (clAt n (64 * d + l)).restricted = true
        ∧ (clAt n (64 * d + l)).ctxs = [])
    ∧ (stkAt n (2 * d)).state = 2 ∧ (stkAt n (2 * d + 1)).state = 2
    ∧ (∀ k ∈ n.quay.dir, ∀ a ∈ k.pages, stkOf a / 2 ≠ d)
    ∧ n.quay.evt = m.quay.evt ||| 64 ∧ n.aer = m.aer ++ [.uncorrectableInternal false]
    ∧ n.quay.ievents = satAdd m.quay.ievents 1 ∧ n.hedge.drbgGens = 0

/-- DIE_RESET and ENGINE_OVERRUN: the die's jobs complete with DIE_RESET, its slices and stacks wipe, and GLB_EVT bit 6
sets (19_power_clocks_reset, 20_reliability, 16_host_interface). -/
def Obligations.DieResets : Prop :=
  ∀ (s : State),
    (∀ (d : Fin 8) (c : DieResetCause), alive s.m = true → s.m.hedge.boot = .running →
      (c = .quiesceCheck → s.m.quay.qstate = 1 ∧ d.val ∈ s.m.quay.quiesceBad) →
      ∃ n, exec (.dieReset d c) s = .next { s with m := n } ∧ DieWasReset s.m n d)
    ∧ ∀ (cl : Fin 512) (e : Engine) (o : RunOp), (engOf (clAt s.m cl) e).run = some o →
      o.startedAt + opBound e o + 2000000 ≤ s.m.now →
      ∃ n, exec (.engineOverrun cl e) s = .next { s with m := n } ∧ DieWasReset s.m n (cl.val / 64)

/-- ENGINE_RESET of an engine, a stream engine and a Ferry (19_power_clocks_reset). -/
def Obligations.UnitResets : Prop :=
∀ (s : State),
    let rest (n : Module) (d : Nat) : Prop :=
      n = { s.m with dies := n.dies, stks := n.stks, clusters := n.clusters, fenceSeq := n.fenceSeq,
                     hedge := { s.m.hedge with drbgGens := 0 } }
      ∧ (∀ i, i ≠ d → dieAt n i = dieAt s.m i) ∧ (∀ t, t / 2 ≠ d → stkAt n t = stkAt s.m t)
      ∧ (dieAt n d).xbaFi = 0 ∧ (∀ t, t / 2 = d → (stkAt n t).fiCtrl = 0 ∧ (stkAt n t).mem = (stkAt s.m t).mem)
    (∀ (cl : Fin 512) (e : Engine), (clAt s.m cl).restricted = true →
      ∃ n, exec (.engineReset (.engine cl e)) s = .next { s with m := n } ∧ engOf (clAt n cl) e = {}
        ∧ (∀ g, g ≠ e → engOf (clAt n cl) g = engOf (clAt s.m cl) g)
        ∧ (∀ x ∈ (clAt n cl).scb, x.eng ≠ engNo e) ∧ (clAt n cl).rix = clearRix e (clAt s.m cl).rix
        ∧ (clAt n cl).brk = [] ∧ (clAt n cl).unchecked = 0 ∧ (clAt n cl).scratch = (clAt s.m cl).scratch
        ∧ (∀ o, (engOf (clAt s.m cl) e).run = some o → ∀ r ∈ spanRows (opWrites e o.regs o.rix), rowFenced (clAt n cl) r = true)
        ∧ n.quay = s.m.quay ∧ n.hedge = { s.m.hedge with drbgGens := 0 } ∧ (∀ j, j ≠ cl.val → clAt n j = clAt s.m j))
    ∧ (∀ (d : Fin 8) (k : Fin 16),
      ∃ n, exec (.engineReset (.stream d k)) s = .next { s with m := n } ∧ rest n d
        ∧ tget {} (dieAt n d).ste k = {} ∧ (∀ i, i ≠ k.val → tget {} (dieAt n d).ste i = tget {} (dieAt s.m d).ste i)
        ∧ (∀ p ∈ (dieAt n d).sd, ¬ (8 * k.val ≤ p.1 ∧ p.1 < 8 * k.val + 8))
        ∧ (∀ x ∈ streamDests none (tget {} (dieAt s.m d).ste k), ∀ r, x.2.1 ≤ r → r ≤ x.2.2 → rowFenced (clAt n x.1) r = true)
        ∧ (∀ c, c / 64 = d.val → clAt n c = { clAt s.m c with
            brk := [], unchecked := 0, fence := (clAt n c).fence, scb := (clAt n c).scb,
            rix := (clAt s.m c).rix.filter (fun p => decide (p.1 / 4 ≠ 2)) })
        ∧ (∀ c, c / 64 ≠ d.val → clAt n c = { clAt s.m c with fence := (clAt n c).fence })
        ∧ (∀ t, ((tget {} (dieAt s.m d).ste k).active = some t ∨ (tget {} (dieAt s.m d).ste k).shadow = some t) → t.cl / 64 = d.val →
            ∀ x ∈ (clAt n t.cl).scb, x.eng = 4 → x.opid ≠ t.opid)
        ∧ ∀ c, c / 64 = d.val → ∀ x ∈ (clAt s.m c).scb, x.eng ≠ 4 → x ∈ (clAt n c).scb)
    ∧ (∀ d : Fin 8,
      ∃ n, exec (.engineReset (.ferry d)) s = .next { s with m := n } ∧ rest n d ∧ (dieAt n d).ferBusy = false
        ∧ (dieAt n d).cmdIdx = 0 ∧ (dieAt n d).ferCrc = false ∧ (dieAt n d).ferBind = false
        ∧ (dieAt n d).ferExhaust = false ∧ (dieAt n d).ferLate = false
        ∧ (∀ w ∈ (dieAt n d).windows, ∀ k, tget {} w.frames k = {})
        ∧ (∀ c, c / 64 = d.val → clAt n c = { clAt s.m c with brk := [], unchecked := 0 })
        ∧ ∀ c, c / 64 ≠ d.val → clAt n c = clAt s.m c)

/-- STATUS and DETAIL of *Completion status* for a kill cause. -/
def Sys2Proof.Certificates.causeStatus : KillCause → BitVec 8 × BitVec 8
  | .killed => (0x30, 0)
  | .streamInvalid => (0x31, 1)
  | .cfgInvalid => (0x32, 2)
  | .addrInvalid => (0x33, 3)
  | .handleInvalid => (0x34, 4)
  | .flagOverflow => (0x35, 5)
  | .ledgerFault code => (0x36, code.setWidth 8)
  | .waitTimeout => (0x37, 0)
  | .rearmOverrun => (0x38, 0)
  | .hostRead => (0x39, 3)
  | .dieReset d => (0x3A, BitVec.ofNat 8 d.val)
  | .thermal t => (0x3B, BitVec.ofNat 8 t.val)

/-- JOB_KILL: once per job, with the status and detail of its cause; the contexts stop and the rows pass behind the fence
(14_ledger, 16_host_interface, 10_scratchpad). -/
def Obligations.JobKills : Prop :=
  ∀ (s : State) (tag : Fin 1024) (cause : KillCause) (j : Job), jobAt s.m tag = some j →
    (j.killed = none → j.phase ≠ .finishing →
      ∃ n c j', exec (.jobKill tag cause) s = .next { s with m := n } ∧ n.quay.compl = s.m.quay.compl ++ [c]
        ∧ c.ring = j.desc.ring ∧ c.cid = j.desc.cid ∧ (c.status, c.detail) = causeStatus cause
        ∧ jobAt n tag = some j' ∧ j'.killed = some cause ∧ j'.phase = .finishing ∧ n.hedge.drbgGens = 0
        ∧ (j.started = true → ∀ h ∈ j.clusters,
            (∀ k, (ctxOf (clAt n h.cl) k).state ≠ 0 → (ctxOf (clAt n h.cl) k).job ≠ tag.val)
            ∧ ∀ r, h.row0 ≤ r → r < h.row0 + h.rows → rowFenced (clAt n h.cl) r = true))
    ∧ (j.killed ≠ none → exec (.jobKill tag cause) s = .next s)

/-- The fifteen commands that attempt an instruction. -/
def Sys2Proof.Certificates.seqCommands (cl : Fin 512) (k : Fin 8) (ws : List Word) : List Instr :=
  [.load cl k ws, .start cl k ws, .wait cl k ws, .signal cl k ws, .pop cl k ws, .push cl k ws, .swap cl k ws,
   .patch cl k ws, .loop cl k ws, .tmark cl k ws, .seal cl k ws, .sealc cl k ws, .tag cl k ws, .endStream cl k ws,
   .steStreamStart cl k ws]

/-- The thirteen of them that take the issue slot, each with its instruction's code and its effect. -/
def Sys2Proof.Certificates.slotCommands (cl : Fin 512) (k : Fin 8) (ws : List Word) :
    List (Instr × Nat × (Module → Context → List Word → Res)) :=
  [(.load cl k ws, 0x01, loadBody cl k), (.start cl k ws, 0x02, startBody cl k), (.wait cl k ws, 0x03, waitBody cl),
   (.signal cl k ws, 0x04, signalBody cl), (.pop cl k ws, 0x05, popBody cl k), (.push cl k ws, 0x06, pushInTurn cl k),
   (.swap cl k ws, 0x07, swapBody cl), (.patch cl k ws, 0x08, patchBody cl k), (.loop cl k ws, 0x09, loopBody cl k),
   (.seal cl k ws, 0x0B, sealBody cl k), (.sealc cl k ws, 0x0C, sealcBody cl k), (.endStream cl k ws, 0x0E, endBody cl k),
   (.steStreamStart cl k ws, 0x02, steStartInTurn cl k)]

/-- The words are the whole instruction at the program counter of context `k` of cluster `cl`, which is active or
replaying, and whose plan clock has reached its planned issue a-cycle (R435, R436, R441). -/
def Sys2Proof.Certificates.AtPc (m : Module) (cl k : Nat) (ws : List Word) : Prop :=
  let x := ctxOf (clAt m cl) k
  (x.state = 1 ∨ x.state = 3) ∧ replayWaits m x.job = false ∧ wordsAt m x = ws ∧ lenAt m x = ws.length
    ∧ x.pc + ws.length ≤ x.len ∧ x.origin + x.slipTotal + x.planned ≤ m.now

/-- Module `n` is `m` after one a-cycle of hold of context `k` of cluster `cl` with a cause that the watchdog does not count
(R437, R438, R500). -/
def Sys2Proof.Certificates.HeldBy (m n : Module) (cl k : Nat) (cause : BitVec 4) : Prop :=
  let x := ctxOf (clAt m cl) k
  let y := ctxOf (clAt n cl) k
  OnlyCl m n cl ∧ (∀ j, j ≠ k → ctxOf (clAt n cl) j = ctxOf (clAt m cl) j)
    ∧ clAt n cl = { clAt m cl with ctxs := (clAt n cl).ctxs }
    ∧ (x.holdRun = some (x.pc, m.now) → y = x)
    ∧ (x.holdRun ≠ some (x.pc, m.now) →
        y.pc = x.pc ∧ y.wdog = x.wdog ∧ y.slipTotal = min (x.slipTotal + 1) (2 ^ 32 - 1) ∧ y.holdRun = some (x.pc, m.now)
        ∧ (∀ t, x.holdRun = some (x.pc, t) → t + 1 = m.now →
            y.slipEvents = min x.slipEvents (2 ^ 32 - 1) ∧ y.lastCause = x.lastCause ∧ y.lastOffset = x.lastOffset)
        ∧ ((∀ t, x.holdRun = some (x.pc, t) → t + 1 ≠ m.now) →
            y.slipEvents = min (x.slipEvents + 1) (2 ^ 32 - 1) ∧ y.lastCause = cause ∧ y.lastOffset = x.pc))

/-- A halt, a late host read and a taken issue slot hold every sequencer instruction (HALT, HOST, ISSUE); an uncorrectable
fetch asks for a replay (13_command_streams, 14_ledger, 15_memory_stacks, 12_planner). -/
def Obligations.HaltHolds : Prop :=
  ∀ (s : State) (cl : Fin 512) (k : Fin 8) (ws : List Word), AtPc s.m cl k ws →
    let x := ctxOf (clAt s.m cl) k
    let hits := fetchHits s.m x ws.length
    let halted := (dieAt s.m (cl.val / 64)).halted = true ∨ x.brkHit = true
    let f := fetched s.m cl k ws.length
    (∀ c ∈ seqCommands cl k ws,
      (halted → ∃ n, exec c s = .next { s with m := n } ∧ HeldBy s.m n cl k 11)
      ∧ (¬ halted → hostLate s.m cl k = true → ∃ n, exec c s = .next { s with m := n } ∧ HeldBy s.m n cl k 12)
      ∧ (¬ halted → hostLate s.m cl k = false →
          (slotOwn s.m cl k = true → c ≠ .tmark cl k ws → c ≠ .tag cl k ws → exec c s = .next s)
          ∧ (slotOwn s.m cl k = false → jobReplays s.m x.job = true → (∃ p ∈ hits, 3 < p.2) →
            ∃ n, exec c s = .next { s with m := n } ∧ n.clusters = s.m.clusters
              ∧ ∀ j, jobAt s.m x.job = some j → j.replayReq = none →
                  ∃ j', jobAt n x.job = some j' ∧ j'.replayReq = some .memory)
          ∧ (jobReplays s.m x.job = false → (∃ p ∈ hits, 3 < p.2 ∧ p.1 = (stkOff x.base + 4 * x.pc) / 64) →
            (clAt s.m cl).issueFree ≤ s.m.now → outranked s.m cl k = false →
            ∀ j, jobAt s.m x.job = some j → j.killed = none → j.phase ≠ .finishing →
              ∃ n y, exec c s = .next { s with m := n } ∧ n.quay.compl = s.m.quay.compl ++ [y] ∧ y.job = some x.job
                ∧ y.status = (killStatus .streamInvalid).1)))
    ∧ ∀ p ∈ slotCommands cl k ws, ¬ halted → hostLate s.m cl k = false → slotOwn s.m cl k = false →
        slotTaken s.m cl k = true → hits = [] → delivered s.m x ws.length = ws → (ws.headD 0).toNat % 256 = p.2.1 →
        (match p.2.2 f x ws with
          | .hold _ _ _ _ _ => True
          | .idle => exec p.1 s = .next { s with m := f }
          | _ => ∃ n, exec p.1 s = .next { s with m := n } ∧ HeldBy f n cl k 9)

/-- The words may issue now: they are at the program counter, their OP is `op`, they are in the fetch buffer or their fetch meets no
wrong symbol and delivers them, and no halt,
breakpoint, late host read, busy issue slot or context that comes before holds them. -/
def Sys2Proof.Certificates.MayIssue (m : Module) (cl k : Nat) (ws : List Word) (op : Nat) (slot : Bool) : Prop :=
  AtPc m cl k ws ∧ (dieAt m (cl / 64)).halted = false ∧ (ctxOf (clAt m cl) k).brkHit = false
    ∧ hostLate m cl k = false ∧ fetchHits m (ctxOf (clAt m cl) k) ws.length = []
    ∧ delivered m (ctxOf (clAt m cl) k) ws.length = ws
    ∧ (slot = true → (clAt m cl).issueFree ≤ m.now ∧ outranked m cl k = false) ∧ (ws.headD 0).toNat % 256 = op

/-- Context `k` of cluster `cl` of module `n` is `x` after issuing an instruction of `len` words in module `m`, which its fetch buffer
then holds; the issue slot is free again at `free` and its last holder `k`, or both are as they were. -/
def Sys2Proof.Certificates.Issued (m n : Module) (cl k len : Nat) (tagged : Bool) (free : Option Nat) (x : Context) : Prop :=
  ctxOf (clAt n cl) k = issueCtx (tget 0 (clAt m cl).brk k) tagged len
      { x with fbuf := (ctxOf (clAt (fetched m cl k len) cl) k).fbuf }
    ∧ (clAt n cl).issueFree = free.getD (clAt m cl).issueFree
    ∧ (clAt n cl).issueOwner = if free.isSome then k else (clAt m cl).issueOwner

/-- Cluster `cl` of module `n` differs from that of `m` in context `k` and its issue slot only. -/
def Sys2Proof.Certificates.OnlyCtx (m n : Module) (cl k : Nat) : Prop :=
  (∀ j, j ≠ cl → clAt n j = clAt m j) ∧ (∀ j, j ≠ k → ctxOf (clAt n cl) j = ctxOf (clAt m cl) j)
    ∧ clAt n cl = { clAt m cl with ctxs := (clAt n cl).ctxs, issueFree := (clAt n cl).issueFree,
                                   issueOwner := (clAt n cl).issueOwner }

/-- What issuing does to a context; TMARK, TAG, PATCH, LOOP and END: what each does to its context, and that it does
nothing else (13_command_streams). -/
def Obligations.ContextInstructions : Prop :=
  (∀ (x : Context) (brk : Word) (tagged : Bool) (len : Nat),
      let y := issueCtx brk tagged len x
      y.issued = x.issued + 1 ∧ y.wdog = 0 ∧ y.holdRun = none
      ∧ y.state = (if x.state = 3 ∧ x.replayTo ≤ x.issued + 1 then 1 else x.state)
      ∧ (x.loops = [] → y.pc = x.pc + len ∧ y.loops = [])
      ∧ (∀ f rest, x.loops = f :: rest →
          (x.pc + len < f.last → y.pc = x.pc + len ∧ y.loops = x.loops)
          ∧ (f.last ≤ x.pc + len → 1 < f.left → y.pc = f.first ∧ y.loops = { f with left := f.left - 1 } :: rest)
          ∧ (f.last ≤ x.pc + len → f.left ≤ 1 → y.loops = (issueCtx brk tagged len { x with loops := rest }).loops
              ∧ y.pc = (issueCtx brk tagged len { x with loops := rest }).pc))
      ∧ (y.brkHit = true ↔ (brk.toNat % 4 = 1 ∧ brk.toNat / 4 = x.issued + 1)
          ∨ (brk.toNat % 4 = 2 ∧ tagged = true ∧ x.curtag.toNat = bits brk.toNat 17 2)))
  ∧ (∀ (s : State) (cl : Fin 512) (k : Fin 8) (w0 w1 w2 : Word),
      let x := ctxOf (clAt s.m cl) k
      let arg := w0.toNat / 65536
      (MayIssue s.m cl k [w0, w1] 0x0A false →
        ∃ n, exec (.tmark cl k [w0, w1]) s = .next { s with m := n } ∧ OnlyCl s.m n cl ∧ OnlyCtx s.m n cl k
          ∧ Issued s.m n cl k 2 false none { x with planned := arg * 2 ^ 32 + w1.toNat })
      ∧ (MayIssue s.m cl k [w0] 0x0D false →
        ∃ n, exec (.tag cl k [w0]) s = .next { s with m := n } ∧ OnlyCl s.m n cl ∧ OnlyCtx s.m n cl k
          ∧ Issued s.m n cl k 1 true none { x with curtag := w0.extractLsb' 16 16 })
      ∧ (MayIssue s.m cl k [w0, w1] 0x08 true → arg / 256 < 3 →
        ∃ n t, exec (.patch cl k [w0, w1]) s = .next { s with m := n } ∧ OnlyCl s.m n cl ∧ OnlyCtx s.m n cl k
          ∧ Issued s.m n cl k 2 false (some (s.m.now + 1)) { x with params := t }
          ∧ (let v := tget 0 x.params (arg % 256)
             tget 0 t (arg % 256) = if arg / 256 = 0 then v.extractLsb' 32 32 ++ w1
               else if arg / 256 = 1 then w1 ++ v.setWidth 32 else v + w1.signExtend 64)
          ∧ ∀ p, p ≠ arg % 256 → tget 0 t p = tget 0 x.params p)
      ∧ (MayIssue s.m cl k [w0, w1, w2] 0x09 true → x.loops = [] → arg < 4 → 1 ≤ w1.toNat → w1.toNat < 2 ^ 24 →
        1 ≤ w2.toNat → w2.toNat < 2 ^ 24 →
        ∃ n, exec (.loop cl k [w0, w1, w2]) s = .next { s with m := n } ∧ OnlyCl s.m n cl ∧ OnlyCtx s.m n cl k
          ∧ Issued s.m n cl k 3 false (some (s.m.now + 1)) { x with
              loops := [{ level := arg, first := x.pc + 3, last := x.pc + 3 + w2.toNat, left := w1.toNat }] })
      ∧ (MayIssue s.m cl k [w0] 0x0E true → arg = 0 →
        ∃ n, exec (.endStream cl k [w0]) s = .next { s with m := n } ∧ OnlyCl s.m n cl ∧ OnlyCtx s.m n cl k
          ∧ Issued s.m n cl k 1 false (some (s.m.now + 1)) { x with state := 0, ended := true }))

/-- Links between modules `m` and `n`: each link of the listed paths was crossed by one flit as often as it is listed, and no other
was (R14, R15). -/
def Sys2Proof.Certificates.CrossedOnce (m n : Module) (path : List LinkEnd) : Prop :=
  ∀ e, (linkAt n e).nextSeq = (linkAt m e).nextSeq + BitVec.ofNat 32 (path.count e)
    ∧ (linkAt n (peerOf e)).expected = (linkAt m (peerOf e)).expected + BitVec.ofNat 32 (path.count e)

/-- WAIT, SIGNAL and SIGNAL_ARRIVAL: a flag gives up n to a WAIT, takes every amount at the end of the a-cycle, and kills
the job above 65,535 (13_command_streams, 14_ledger). -/
def Obligations.FlagsWaitAndSignal : Prop :=
  (∀ (s : State) (cl : Fin 512) (k : Fin 8) (w0 : Word),
    let f := w0.toNat / 65536 % 256
    let want := w0.toNat / 2 ^ 24
    let v := tget (0 : BitVec 16) (clAt s.m cl).flags f
    let x := ctxOf (clAt s.m cl) k
    MayIssue s.m cl k [w0] 0x03 true → 1 ≤ want →
    (want ≤ v.toNat →
      ∃ n, exec (.wait cl k [w0]) s = .next { s with m := n }
        ∧ n = { s.m with clusters := n.clusters,
                         flagIn := s.m.flagIn ++ [{ addr := cl.val * 256 + f, taken := want, job := x.job }] }
        ∧ (∀ j, j ≠ cl.val → clAt n j = clAt s.m j)
        ∧ tget 0 (clAt n cl).flags f = BitVec.ofNat 16 (v.toNat - want)
        ∧ (∀ g, g ≠ f → tget 0 (clAt n cl).flags g = tget 0 (clAt s.m cl).flags g)
        ∧ Issued s.m n cl k 1 false (some (s.m.now + 1)) x)
    ∧ (v.toNat < want →
      ∃ n, exec (.wait cl k [w0]) s = .next { s with m := n } ∧ OnlyCl s.m n cl ∧ (clAt n cl).flags = (clAt s.m cl).flags
        ∧ (ctxOf (clAt n cl) k).pc = x.pc ∧ (x.holdRun = none → (ctxOf (clAt n cl) k).lastCause = 6)))
  ∧ (∀ (s : State) (cl : Fin 512) (k : Fin 8) (w0 w1 : Word),
    let addr := w1.toNat % 2 ^ 17
    let amt := w1.toNat / 2 ^ 24
    let x := ctxOf (clAt s.m cl) k
    MayIssue s.m cl k [w0, w1] 0x04 true → w0.toNat / 65536 = 0 → bits w1.toNat 23 17 = 0 → 1 ≤ amt →
    (addr / 256 = cl.val →
      ∃ n, exec (.signal cl k [w0, w1]) s = .next { s with m := n } ∧ OnlyCtx s.m n cl k
        ∧ n = { s.m with clusters := n.clusters, flagIn := s.m.flagIn ++ [{ addr := addr, add := amt, job := x.job }] }
        ∧ Issued s.m n cl k 2 false (some (s.m.now + 1)) x)
    ∧ (addr / 256 ≠ cl.val →
      ∃ n, exec (.signal cl k [w0, w1]) s = .next { s with m := n } ∧ OnlyCtx s.m n cl k
        ∧ n.transit = s.m.transit ++ [.signal addr amt x.job]
        ∧ OnlySent s.m n cl ∧ CrossedOnce s.m n (pathOf (routesOf s.m x.job) (cl.val / 64) (addr / 2 ^ 14))
        ∧ Issued s.m n cl k 2 false (some (s.m.now + 1)) x))
  ∧ (∀ (s : State) (i addr amt tag : Nat), s.m.transit[i]? = some (.signal addr amt tag) →
    exec (.signalArrival i) s = .next { s with m := { s.m with
      transit := ldel s.m.transit i, flagIn := s.m.flagIn ++ [{ addr := addr, add := amt, job := tag }] } })
  ∧ ∀ s : State, s.pending = [] →
    ∃ n, step s = .next { s with m := n } ∧ n.now = s.m.now + 1 ∧ n.flagIn = []
      ∧ (∀ addr, (∀ e ∈ s.m.flagIn, flagPlace e.addr = flagPlace addr → e.addr = addr) →
          let es := s.m.flagIn.filter (fun e => decide (e.addr = addr))
          let v := (tget (0 : BitVec 16) (clAt s.m (bits addr 16 8)).flags (bits addr 7 0)).toNat
          let all := v + lsum (es.map (·.add))
          tget 0 (clAt n (bits addr 16 8)).flags (bits addr 7 0) =
              BitVec.ofNat 16 (if all ≤ 65535 then all else v + lsum (es.map (·.taken)))
            ∧ (65535 < all → ∀ e rest, es.filter (fun e => decide (e.add ≠ 0)) = e :: rest →
                ∀ j, jobAt s.m e.job = some j → j.killed = none → j.phase ≠ .finishing →
                ∃ c ∈ n.quay.compl, c.job = some e.job ∧ (65535 < all → c.status = 0x35 ∧ c.detail = 5)))

/-- The report of a move of handle `h` by a context of job `tag` on die `d`, when its pool is circulating (R487), and its path. -/
def Sys2Proof.Certificates.reportOf (m : Module) (d tag : Nat) (h : Word) (a b : Place) : List Msg × List LinkEnd :=
  let e := poolDie m d (hPool h) tag
  if (ledgerOf m e (hPool h)).fqv then ([.report e (hPool h) a b], pathOf (routesOf m tag) d e) else ([], [])

/-- POP takes the oldest handle and owns it; PUSH gives it up and sends it; HANDLE_ARRIVAL puts it at the end of its queue
(13_command_streams, 14_ledger). -/
def Obligations.HandleQueues : Prop :=
  (∀ (s : State) (cl : Fin 512) (k : Fin 8) (w0 : Word),
    let x := ctxOf (clAt s.m cl) k
    let r := w0.toNat / 65536 % 16
    let q := w0.toNat / 2 ^ 20
    let d := cl.val / 64
    MayIssue s.m cl k [w0] 0x05 true → q < 64 → x.own.getLsbD r = false →
    ((queueOf (clAt s.m cl) q = [] ∨ ∃ h rest, queueOf (clAt s.m cl) q = h :: rest ∧ h.at_ = some s.m.now) →
      ∃ n, exec (.pop cl k [w0]) s = .next { s with m := n } ∧ OnlyCl s.m n cl ∧ (ctxOf (clAt n cl) k).pc = x.pc
        ∧ (clAt n cl).queues = (clAt s.m cl).queues
        ∧ (ctxOf (clAt n cl) k).handles = x.handles ∧ (x.holdRun = none → (ctxOf (clAt n cl) k).lastCause = 7))
    ∧ (∀ h rest, queueOf (clAt s.m cl) q = h :: rest → h.at_ ≠ some s.m.now → handleOk s.m d x.job h.h = true →
      let rep := reportOf s.m d x.job h.h (if isFreeQ s.m d x.job h.h (cl.val * 64 + q) then .free else .queued) .held
      ∃ n t own, exec (.pop cl k [w0]) s = .next { s with m := n } ∧ queueOf (clAt n cl) q = rest
        ∧ (∀ p, p ≠ q → queueOf (clAt n cl) p = queueOf (clAt s.m cl) p)
        ∧ Issued s.m n cl k 1 false (some (s.m.now + 1)) { x with handles := t, own := own }
        ∧ tget 0xFFFFFFFF t r = h.h ∧ (∀ p, p ≠ r → tget 0xFFFFFFFF t p = tget 0xFFFFFFFF x.handles p)
        ∧ own.getLsbD r = true ∧ (∀ p, p ≠ r → own.getLsbD p = x.own.getLsbD p)
        ∧ OnlySent s.m n cl
        ∧ (∀ e i, h.remote = some (e, i) → n.transit = s.m.transit ++ rep.1 ++ [.credit e i]
            ∧ CrossedOnce s.m n (rep.2 ++ pathOf (routesOf s.m x.job) d e))
        ∧ (h.remote = none → n.transit = s.m.transit ++ rep.1 ∧ CrossedOnce s.m n rep.2)))
  ∧ (∀ (s : State) (cl : Fin 512) (k : Fin 8) (w0 w1 : Word),
    let x := ctxOf (clAt s.m cl) k
    let r := w0.toNat / 65536
    let h := tget (0xFFFFFFFF : Word) x.handles r
    let to_ := w1.toNat / 64
    let d := cl.val / 64
    let f := fetched s.m cl k 2
    let rep := reportOf s.m d x.job h .held .transit
    MayIssue s.m cl k [w0, w1] 0x06 true →
    (pushBehind f cl w1.toNat = true → exec (.push cl k [w0, w1]) s = .next { s with m := f })
    ∧ (pushBehind f cl w1.toNat = false → r < 16 → w1.toNat / 4096 = d → x.own.getLsbD r = true →
      handleOk s.m d x.job h = true → localRoom s.m to_ (w1.toNat % 64) ≠ 0 →
      ∃ n own, exec (.push cl k [w0, w1]) s = .next { s with m := n }
        ∧ Issued s.m n cl k 2 false (some (s.m.now + 1)) { x with own := own }
        ∧ own.getLsbD r = false ∧ (∀ p, p ≠ r → own.getLsbD p = x.own.getLsbD p)
        ∧ n.transit = s.m.transit ++ .handle w1.toNat h none x.job :: rep.1 ∧ CrossedOnce s.m n rep.2
        ∧ tget 0 (clAt n to_).reserved (w1.toNat % 64) = tget 0 (clAt s.m to_).reserved (w1.toNat % 64) + 1
        ∧ ∀ c, (clAt n c).queues = (clAt s.m c).queues)
    ∧ ∀ (i : Nat) (cr : Credit), pushBehind f cl w1.toNat = false → r < 16 → w1.toNat / 2 ^ 15 = 0 → w1.toNat / 4096 ≠ d →
      x.own.getLsbD r = true → handleOk s.m d x.job h = true → creditFor s.m d x.job w1.toNat = some (i, cr) →
      (cr.avail ≠ 0 →
        ∃ n own, exec (.push cl k [w0, w1]) s = .next { s with m := n }
          ∧ Issued s.m n cl k 2 false (some (s.m.now + 1)) { x with own := own } ∧ own.getLsbD r = false
          ∧ (∀ p, p ≠ r → own.getLsbD p = x.own.getLsbD p)
          ∧ n.transit = s.m.transit ++ .handle w1.toNat h (some (d, i)) x.job :: rep.1
          ∧ (tget {} (dieAt n d).credits i).avail = (tget {} (dieAt s.m d).credits i).avail - 1
          ∧ CrossedOnce s.m n (pathOf (routesOf s.m x.job) d (w1.toNat / 4096) ++ rep.2))
      ∧ (cr.avail = 0 → ∃ n, exec (.push cl k [w0, w1]) s = .next { s with m := n } ∧ OnlyCl s.m n cl
          ∧ (ctxOf (clAt n cl) k).pc = x.pc ∧ (x.holdRun = none → (ctxOf (clAt n cl) k).lastCause = 7)))
  ∧ ∀ (s : State) (i q : Nat) (h : Word) (remote : Option (Nat × Nat)) (tag : Nat),
    s.m.transit[i]? = some (.handle q h remote tag) → handleWaits s.m.transit i q remote = false →
    hGen h = bits (poolWord s.m (poolDie s.m (q / 64 / 64) (hPool h) tag) (hPool h) 0) 13 8 →
    ∃ n, exec (.handleArrival i) s = .next { s with m := n }
      ∧ queueOf (clAt n (q / 64)) (q % 64) =
          queueOf (clAt s.m (q / 64)) (q % 64) ++ [{ h := h, remote := remote, at_ := some s.m.now }]
      ∧ (∀ p, p ≠ q % 64 → queueOf (clAt n (q / 64)) p = queueOf (clAt s.m (q / 64)) p)
      ∧ (∀ c, c ≠ q / 64 → clAt n c = clAt s.m c)
      ∧ tget 0 (clAt n (q / 64)).reserved (q % 64) =
          tget 0 (clAt s.m (q / 64)).reserved (q % 64) - (if remote.isNone then 1 else 0)

/-- The four counts of a pool's books, modulo 2^18. -/
def Sys2Proof.Certificates.booksSum (l : Ledger) : BitVec 18 := l.free + l.queued + l.held + l.transit

/-- Ledger fault `code` of job `j` (tag `tag`) recorded on die `d` for pool `p`. -/
def Sys2Proof.Certificates.LedgerFaulted (m n : Module) (d p tag : Nat) (code : Nat) : Prop :=
  (dieAt n d).ldgFault = (if (dieAt m d).ldgFault.getLsbD 31 then (dieAt m d).ldgFault
      else BitVec.ofNat 32 (code + (p % 1024) * 2 ^ 4 + (tag % 1024) * 2 ^ 14 + 2 ^ 31))
    ∧ (∃ c, n.quay.compl = m.quay.compl ++ [c] ∧ c.job = some tag ∧ c.status = 0x36 ∧ c.detail = BitVec.ofNat 8 code)
    ∧ n.hedge.logQ = m.hedge.logQ ++ if plannedAt m tag then [{ cls := 12, sev := 3, unit := BitVec.ofNat 32 d,
                                                                job := BitVec.ofNat 16 tag, detail := BitVec.ofNat 16 code,
                                                                addr := 0, data := [] }] else []

/-- LEDGER_REPORT, CREDIT_RETURN and NEG_COUNT: one unit moves between two counts, AVAIL grows by 1, and the ledger faults
(14_ledger). -/
def Obligations.LedgerMessages : Prop :=
  (∀ (s : State) (i d p : Nat) (a b : Place), s.m.transit[i]? = some (.report d p a b) →
    let l := tget {} (dieAt s.m d).ledger p
    ∃ n, exec (.ledgerReport i) s = .next { s with m := n } ∧ n.transit = ldel s.m.transit i
      ∧ (∀ e, e ≠ d → dieAt n e = dieAt s.m e)
      ∧ (∀ q, q ≠ p → tget {} (dieAt n d).ledger q = tget {} (dieAt s.m d).ledger q)
      ∧ (let l' := tget {} (dieAt n d).ledger p
         booksSum l' = booksSum l ∧ l'.freeq = l.freeq ∧ l'.fqv = l.fqv
         ∧ (a = .held → b = .transit → l'.held = l.held - 1 ∧ l'.transit = l.transit + 1 ∧ l'.free = l.free
             ∧ l'.queued = l.queued)
         ∧ (a = .free → b = .held → l'.free = l.free - 1 ∧ l'.held = l.held + 1)
         ∧ (a = .queued → b = .held → l'.queued = l.queued - 1 ∧ l'.held = l.held + 1)
         ∧ (a = .transit → b = .queued → l'.transit = l.transit - 1 ∧ l'.queued = l.queued + 1)
         ∧ (∀ c : Ledger → BitVec 18 × Option Nat,
              (c = (fun b => (b.free, b.negFree)) ∨ c = (fun b => (b.queued, b.negQueued)) ∨ c = (fun b => (b.held, b.negHeld))
                ∨ c = (fun b => (b.transit, b.negTransit))) →
              (c l').2 = if (c l').1.toInt < 0 then some ((c l).2.getD s.m.now) else none)))
  ∧ (∀ (s : State) (i d e : Nat), s.m.transit[i]? = some (.credit d e) →
    let c := tget {} (dieAt s.m d).credits e
    (c.avail.toNat < c.grant.toNat →
      ∃ n, exec (.creditReturn i) s = .next { s with m := n } ∧ n.transit = ldel s.m.transit i
        ∧ tget {} (dieAt n d).credits e = { c with avail := c.avail + 1 }
        ∧ (∀ q, q ≠ e → tget {} (dieAt n d).credits q = tget {} (dieAt s.m d).credits q)
        ∧ ∀ q, q ≠ d → dieAt n q = dieAt s.m q)
    ∧ (c.grant.toNat ≤ c.avail.toNat → ∀ j, jobAt s.m c.job.toNat = some j → j.killed = none → j.phase ≠ .finishing →
      ∃ n, exec (.creditReturn i) s = .next { s with m := n } ∧ LedgerFaulted s.m n d 0 c.job.toNat 4))
  ∧ ∀ (s : State) (d : Fin 8) (p : Fin 1024) (t : Nat),
    let l := tget {} (dieAt s.m d).ledger p
    (l.negFree = some t ∨ l.negQueued = some t ∨ l.negHeld = some t ∨ l.negTransit = some t) → t + 512 < s.m.now → anyRetry s.m = false →
    ∀ j, jobAt s.m (bits (poolWord s.m d p 0) 23 14) = some j → j.killed = none → j.phase ≠ .finishing →
      ∃ n, exec (.negCount d p) s = .next { s with m := n }
        ∧ LedgerFaulted s.m n d p (bits (poolWord s.m d p 0) 23 14) 3

/-- WATCHDOG_TRIP, BREAKPOINT and RESUME; a job kill leaves the halt to the other jobs (13_command_streams, 14_ledger). -/
def Obligations.HaltAndWatchdog : Prop :=
∀ (s : State),
    (∀ (cl : Fin 512) (k : Fin 8) (j : Job),
      let x := ctxOf (clAt s.m cl) k
      (x.state = 1 ∨ x.state = 3) → 2 ^ 28 ≤ x.wdog → jobAt s.m x.job = some j → j.killed = none → j.phase ≠ .finishing →
      ∃ n c, exec (.watchdogTrip cl k) s = .next { s with m := n } ∧ n.quay.compl = s.m.quay.compl ++ [c]
        ∧ c.job = some x.job ∧ c.status = 0x37 ∧ c.detail = 0
        ∧ (j.desc.snap ≠ 0 → ∃ b, c.snapshot = some (j.desc.snap, b)))
    ∧ (∀ (cl : Fin 512) (k : Fin 8), (ctxOf (clAt s.m cl) k).brkHit = true →
      ∃ n, exec (.breakpoint cl k) s = .next { s with m := n } ∧ (dieAt n (cl.val / 64)).halted = true
        ∧ ctxOf (clAt n cl) k = { ctxOf (clAt s.m cl) k with brkHit := false }
        ∧ ((dieAt s.m (cl.val / 64)).halted = false →
            dieAt n (cl.val / 64) = { dieAt s.m (cl.val / 64) with
              halted := true, haltSrc := BitVec.ofNat 9 cl, haltCtx := BitVec.ofNat 3 k, haltAt := s.m.now })
        ∧ ((dieAt s.m (cl.val / 64)).halted = true →
            let d := dieAt s.m (cl.val / 64)
            dieAt n (cl.val / 64) = if d.haltAt = s.m.now ∧ (cl.val < d.haltSrc.toNat ∨ cl.val = d.haltSrc.toNat ∧ k.val < d.haltCtx.toNat)
              then { d with haltSrc := BitVec.ofNat 9 cl, haltCtx := BitVec.ofNat 3 k } else d))
    ∧ (∀ d : Fin 8, ∃ n, exec (.resume d) s = .next { s with m := n } ∧ OnlyDie s.m n d
        ∧ dieAt n d = { dieAt s.m d with halted := false })
    ∧ ∀ (tag : Fin 1024) (c : KillCause), ∃ n, exec (.jobKill tag c) s = .next { s with m := n }
        ∧ ∀ d, (dieAt n d).halted = (dieAt s.m d).halted

/-- The inverse transform undoes the forward transform, for every length, prime and root the engine takes
(05_residue_engines). -/
def Obligations.NttRoundTrip : Prop :=
∀ (q psi psiInv cin cout logn : Nat) (a : List Nat), 1 < q → 2 ^ logn ∣ q - 1 → psi * psiInv % q = 1 →
    cin * cout % q = 1 → a.length = 2 ^ logn → (∀ x ∈ a, x < q) →
    nttInv q psiInv logn cout (nttFwd q psi logn cin a) = a

/-- What NTE_FWD and NTE_INV write for a limb, and what a residue sum of BCAST and EWMAC is (05_residue_engines). -/
def Obligations.TransformsAndSums : Prop :=
(∀ (s : State) (cl : Fin 512) (o : RunOp) (inv : Bool),
    let c := clAt s.m cl
    let t := nteCfg o.regs
    let e := entOf o t.midx
    let n := 2 ^ t.logn
    let src := t.src % 2 ^ 21
    let dst := t.dst % 2 ^ 21
    let a := (List.range n).map (fun j => (mword c.scratch (src + j)).toNat)
    c.nte.run = some o → o.done = false → t.op = b2n inv → t.count = 1 → t.chain.stages = [] → t.cmul = false →
    c.fence = [] → c.poisoned = [] → c.spErr = [] → o.zeroRows = [] → memWf c.scratch = true →
    ∃ m, exec (if inv then .nteInv cl else .nteFwd cl) s = .next { s with m := m }
      ∧ (entFor e t.logn = true → (∀ v ∈ a, v < e.q.toNat) → ∀ j, j < n →
          (mword (clAt m cl).scratch (dst + j)).toNat =
            (if inv then nttInv e.q.toNat (psiInvN e t.logn) t.logn 1 a
             else nttFwd e.q.toNat (psiN e t.logn) t.logn 1 a).getD j 0)
      ∧ (entFor e t.logn = false → (clAt m cl).nte.modInvalid = true ∧
          ∀ j, j < n → mword (clAt m cl).scratch (dst + j) = 0)
      ∧ (entFor e t.logn = true → (∃ v ∈ a, e.q.toNat ≤ v) → (clAt m cl).nte.domain = true ∧
          ∀ j, j < n → mword (clAt m cl).scratch (dst + j) = 0))
  ∧ (∀ (c : Cluster) (o : RunOp) (t : RmeCfg) (y : KeyIn) (g n m : Nat), t.chain.pro = [] →
    let ec := entOf o (rmeEntryC o.word t g n)
    let ea := fun k => if t.mode = 0 then entOf o (rmeEntryA o.word t g k) else ec
    let av := fun k => (scrWord c o.zeroRows (aWordAddr t (rixOf o.rix 0) g n k m)).toNat
    let bv := fun k => (scrWord c o.zeroRows (bWordAddr t y g n k m)).toNat
    ec.valid = true → (∀ k, k < t.k → (ea k).valid = true) →
    ((∀ k, k < t.k → av k < (ea k).q.toNat ∧ bv k < ec.q.toNat) →
      (macWord c o t y g n m).v = ((List.range t.k).map (fun k => av k * bv k)).sum % ec.q.toNat
      ∧ (macWord c o t y g n m).r.domain = false)
    ∧ ((∃ k, k < t.k ∧ ((ea k).q.toNat ≤ av k ∨ ec.q.toNat ≤ bv k)) →
      (macWord c o t y g n m).v = 0 ∧ (macWord c o t y g n m).r.domain = true))
  ∧ ∀ (c : Cluster) (o : RunOp) (t : RmeCfg) (y : KeyIn) (g n m : Nat), t.chain.pro = [] →
    let ec := entOf o (rmeEntryC o.word t g n)
    let ea := fun k => if t.mode = 0 then entOf o (rmeEntryA o.word t g k) else ec
    let av := fun k => (scrWord c o.zeroRows (aWordAddr t (rixOf o.rix 0) g n k m)).toNat
    let bv := fun k => (scrWord c o.zeroRows (bWordAddr t y g n k m)).toNat
    (ec.valid = false ∨ (∃ k, k < t.k ∧ (ea k).valid = false)) →
      (macWord c o t y g n m).v = 0 ∧ (macWord c o t y g n m).r.modInvalid = true
      ∧ ((∃ k, k < t.k ∧ ((ea k).valid = true ∧ (ea k).q.toNat ≤ av k ∨ ec.valid = true ∧ ec.q.toNat ≤ bv k)) →
          (macWord c o t y g n m).r.domain = true)

/-- Engine `e` of cluster `cl` did work of the operation `o` that wrote at most the words of `outs`; `fin` says whether all
its work is done. -/
def Sys2Proof.Certificates.Worked (m n : Module) (cl : Nat) (e : Engine) (o : RunOp)
    (outs : List (Nat × Word × List Nat)) (fin : Bool) : Prop :=
  (∃ r, (engOf (clAt n cl) e).run = some r ∧ r.done = fin ∧ r.job = o.job ∧ r.ctx = o.ctx ∧ r.opid = o.opid
      ∧ r.record = o.record ∧ r.dflag = o.dflag ∧ r.frames = o.frames ∧ r.regs = o.regs)
    ∧ (clAt n cl).scb = (clAt m cl).scb ∧ (clAt n cl).flags = (clAt m cl).flags
    ∧ (∀ k, k ≠ o.ctx ∨ o.record = none → ctxOf (clAt n cl) k = ctxOf (clAt m cl) k)
    ∧ (∀ q r, o.record = some q → (engOf (clAt n cl) e).run = some r →
        (r.pages = [] → ctxOf (clAt n cl) o.ctx = ctxOf (clAt m cl) o.ctx)
        ∧ (r.pages ≠ [] → ctxOf (clAt n cl) o.ctx = { ctxOf (clAt m cl) o.ctx with
            records := tmod {} (ctxOf (clAt m cl) o.ctx).records q (fun x => { x with unconf := r.pages.any (fun p => p.report.isNone) }) }))
    ∧ (∀ j, j ≠ cl → clAt n j = clAt m j) ∧ n.dies = m.dies ∧ n.stks = m.stks ∧ n.pke = m.pke
    ∧ (memWf (clAt m cl).scratch = true → ∀ w, (∀ p ∈ outs, p.1 ≠ w) →
        mword (clAt n cl).scratch w = mword (clAt m cl).scratch w)

/-- NTE_FWD, NTE_INV, BCAST, EWMAC, OPEN, TRAILING_PASS and VEC_OPERATION: the work is done once, and nothing but its
output words changes (05_residue_engines, 06_fused_chains, 07_vector_engine, 08_open_arithmetic). -/
def Obligations.EngineOperations : Prop :=
  ∀ (s : State) (cl : Fin 512) (o : RunOp),
    let c := clAt s.m cl
    let t := rmeCfg o.regs
    o.done = false →
    (c.nte.run = some o → ∀ cmd, (cmd = .nteFwd cl ∧ (nteCfg o.regs).op = 0) ∨ (cmd = .nteInv cl ∧ (nteCfg o.regs).op = 1) →
      ∃ n, exec cmd s = .next { s with m := n } ∧ Worked s.m n cl .nte o (nteRun c o).outs true)
    ∧ (c.rme.run = some o → ∀ cmd, (cmd = .bcast cl ∧ t.mode = 0) ∨ (cmd = .ewmac cl ∧ t.mode = 1) →
      ∃ n, exec cmd s = .next { s with m := n } ∧ Worked s.m n cl .rme o (macRun c o (keyInOf s.m cl o)).outs true)
    ∧ (c.rme.run = some o → t.mode = 2 → o.blocks = 0 → chainNorm t.chain = none →
      ∃ n, exec (.openMode cl) s = .next { s with m := n } ∧ Worked s.m n cl .rme o (openRun c o).outs true)
    ∧ (c.rme.run = some o → t.mode = 2 → o.blocks = 0 → chainNorm t.chain ≠ none →
      ∃ n, exec (.openMode cl) s = .next { s with m := n }
        ∧ Worked s.m n cl .rme o ((List.range (min 2 (blockCount t))).foldl (drainBlock c o t) { c := c }).outs false
        ∧ ∃ r, (clAt n cl).rme.run = some r ∧ r.blocks = blockCount t ∧ r.passed = o.passed)
    ∧ (c.rme.run = some o → pagesReported o = false → exec (.trailingPass cl o.passed) s = .next s)
    ∧ (c.rme.run = some o → pagesReported o = true → o.passed < o.blocks → ∀ st, chainNorm t.chain = some st →
      let y := passBlock o t st { c := c } o.passed
      ∃ n, exec (.trailingPass cl o.passed) s = .next { s with m := n }
        ∧ Worked s.m n cl .rme o (if o.passed + 2 < o.blocks then (drainBlock c o t y (o.passed + 2)).outs
            else if o.passed + 1 = o.blocks then (freeHold t s.m.free y).outs else y.outs) (decide (o.passed + 1 = o.blocks))
        ∧ ∃ r, (clAt n cl).rme.run = some r ∧ r.blocks = o.blocks ∧ r.passed = o.passed + 1)
    ∧ (c.vec.run = some o → (vecProg o.word (vecCfg o.regs)).any
        (fun u => !uopOk (vecCfg o.regs).luten (vecCfg o.regs).w (vecCfg o.regs).l u) = false →
      ∃ n, exec (.vecOperation cl) s = .next { s with m := n }
        ∧ Worked s.m n cl .vec o (vecRun c o (vecProg o.word (vecCfg o.regs))).outs true)

/-- NTE_DONE, RME_DONE and VEC_DONE: the scoreboard entries leave, the record gets its causes, DFLAG its 1
(05_residue_engines, 13_command_streams, 14_ledger). -/
def Obligations.OperationDone : Prop :=
∀ (s : State) (cl : Fin 512) (e : Engine) (cmd : Instr) (o : RunOp),
    (cmd = .nteDone cl ∧ e = .nte) ∨ (cmd = .rmeDone cl ∧ e = .rme) ∨ (cmd = .vecDone cl ∧ e = .vec) →
    (engOf (clAt s.m cl) e).run = some o →
    ((o.done && pagesReported o) = false → exec cmd s = .next s)
    ∧ (o.done = true → pagesReported o = true →
      ∃ n, exec cmd s = .next { s with m := n } ∧ (engOf (clAt n cl) e).run = none
        ∧ (∀ f, f ≠ e → engOf (clAt n cl) f = engOf (clAt s.m cl) f)
        ∧ (clAt n cl).scb = (clAt s.m cl).scb.filter (fun x => decide (x.opid ≠ o.opid))
        ∧ (clAt n cl).scratch = (clAt s.m cl).scratch
        ∧ (∀ r, o.record = some r → o.ctx ∈ ctxsAll (clAt s.m cl) o.job →
            let a := tget {} (ctxOf (clAt s.m cl) o.ctx).records r
            tget {} (ctxOf (clAt n cl) o.ctx).records r = { a with bound := a.bound - 1, causes := a.causes ++ runCauses o }
            ∧ ∀ q, q ≠ r → tget {} (ctxOf (clAt n cl) o.ctx).records q = tget {} (ctxOf (clAt s.m cl) o.ctx).records q)
        ∧ (∀ k, k ≠ o.ctx ∨ o.record = none → ctxOf (clAt n cl) k = ctxOf (clAt s.m cl) k)
        ∧ (clAt n cl).flags = (clAt s.m cl).flags
        ∧ n.flagIn = s.m.flagIn ++ (o.dflag.toList.map (fun f => { addr := cl.val * 256 + f, add := 1, job := o.job }))
        ∧ (∀ j, jobAt s.m o.job = some j → ∃ j', jobAt n o.job = some j'
            ∧ j' = { j with oflags := j.oflags ||| o.oflags, landing := j'.landing }
            ∧ (j.landing = none → j'.landing = none)
            ∧ ∀ p, j.landing = some p → ∃ p', j'.landing = some p' ∧ p'.counts.oflags =
                if p.clusters.any (fun c => decide (c.cl = cl.val ∧ o.opid < c.nextOp)) then p.counts.oflags ||| o.oflags
                else p.counts.oflags)
        ∧ ∀ q, q ≠ cl.val → clAt n q = clAt s.m q)

/-- MODULUS_ENTRY_VALIDATE and MODULUS_VALIDATION_DONE: VALID is 0 until the validation ends, and then says whether the
five conditions hold (05_residue_engines). -/
def Obligations.ModulusValidate : Prop :=
∀ (s : State) (cl : Fin 512) (i : Fin 256) (w : Word),
    let e := tget {} (clAt s.m cl).mods i
    (∃ n, exec (.modulusEntryValidate cl i w) s = .next { s with m := n } ∧ OnlyCl s.m n cl
      ∧ clAt n cl = { clAt s.m cl with mods := (clAt n cl).mods }
      ∧ tget {} (clAt n cl).mods i = { e with ne := w.setWidth 5, valid := false, busy := true }
      ∧ ∀ j, j ≠ i.val → tget {} (clAt n cl).mods j = tget {} (clAt s.m cl).mods j)
    ∧ (∃ n, exec (.modulusValidationDone cl i) s = .next { s with m := n } ∧ OnlyCl s.m n cl
      ∧ clAt n cl = { clAt s.m cl with mods := (clAt n cl).mods }
      ∧ (∀ j, j ≠ i.val → tget {} (clAt n cl).mods j = tget {} (clAt s.m cl).mods j)
      ∧ (e.busy = false → tget {} (clAt n cl).mods i = e)
      ∧ (e.busy = true → tget {} (clAt n cl).mods i = { e with busy := false, valid := (tget {} (clAt n cl).mods i).valid }
          ∧ ((tget {} (clAt n cl).mods i).valid = true ↔
              e.q.toNat % 2 = 1 ∧ 2 ^ 19 < e.q.toNat ∧ 10 ≤ e.ne.toNat ∧ e.ne.toNat ≤ 17 ∧ e.psi.toNat < e.q.toNat
              ∧ e.psiinv.toNat < e.q.toNat ∧ e.psi.toNat ^ (2 ^ e.ne.toNat) % e.q.toNat = e.q.toNat - 1
              ∧ e.psi.toNat * e.psiinv.toNat % e.q.toNat = 1)))
    ∧ ∀ (t : Tab ModEntry) (k : Nat), k < 3 → (tget {} (modTabWrite t (4 * i + k) w) i).valid = false

/-- START and PENDING_START: the operation enters the scoreboard and begins with latched registers, or waits behind the
running one (05_residue_engines, 09_key_ferry, 13_command_streams). -/
def Obligations.Starts : Prop :=
(∀ (s : State) (cl : Fin 512) (k : Fin 8) (w0 w1 : Word) (e : Engine),
    let c := clAt s.m cl
    let x := ctxOf c k
    let g := engOf c e
    let recEn := w1.toNat / 2 ^ 20 % 2 = 1
    let rec_ := w1.toNat / 2 ^ 16 % 16
    let r := tget {} x.records rec_
    let need := keyNeed s.m cl x.job e g.cfg c.rix
    let dflag := if w1.toNat / 256 % 2 = 1 then some (w1.toNat % 256) else none
    MayIssue s.m cl k [w0, w1] 0x02 true → w0.toNat / 65536 = engNo e → bits w1.toNat 15 9 = 0 → w1.toNat < 2 ^ 21 →
    (recEn → r.isOpen = true) → g.pend = none → (e ≠ .vec → vecAllows c e g.cfg = true) →
    opRefused cl e g.cfg c.rix = none → (g.run = none → vprogBad c e g.cfg = false) →
    (need.delivers = true → recEn ∧ keyKinds r.code ≠ []) → entriesReady c e g.cfg = true →
    (scbCause c (runsUnchecked s.m cl k) (opRanges e g.cfg c.rix) = none → need.ready = true →
      ∃ n, exec (.start cl k [w0, w1]) s = .next { s with m := n }
        ∧ (∀ q, q ≠ cl.val → clAt n q = clAt s.m q)
        ∧ (clAt n cl).scb = c.scb ++ scbEntries (opRanges e g.cfg c.rix) k (engNo e) c.nextOp
        ∧ (clAt n cl).nextOp = c.nextOp + 1 ∧ (clAt n cl).scratch = c.scratch ∧ (clAt n cl).flags = c.flags
        ∧ Issued s.m n cl k 2 false (some (s.m.now + 1))
            (bankSlip (if runsUnchecked s.m cl k then extraCycles (opBeats e g.cfg c.rix) else 0)
              { x with records := (ctxOf (clAt n cl) k).records })
        ∧ (∀ q, tget {} (ctxOf (clAt n cl) k).records q =
            if recEn ∧ q = rec_ then { mrrAdvance e (decide (need.frames ≠ [])) r with bound := r.bound + 1 } else tget {} x.records q)
        ∧ (g.run = none → vecAllows c e g.cfg = true → (engOf (clAt n cl) e).pend = none
            ∧ ∃ o, (engOf (clAt n cl) e).run = some o ∧ o.regs = g.cfg ∧ o.moduli = c.mods ∧ o.rix = c.rix ∧ o.ctx = k
              ∧ o.job = x.job ∧ o.opid = c.nextOp ∧ o.dflag = dflag ∧ o.record = (if recEn then some rec_ else none)
              ∧ o.frames = need.frames ∧ o.done = false ∧ o.startedAt = s.m.now
              ∧ ∀ a ∈ sideWords e g.cfg, o.word a = scrWord c [] a)
        ∧ (∀ o, g.run = some o → (engOf (clAt n cl) e).run = some o ∧ (engOf (clAt n cl) e).pend =
            some { ctx := k, job := x.job, opid := c.nextOp, dflag := dflag, record := if recEn then some rec_ else none,
                   frames := need.frames,
                   stage := if recEn then (mrrAdvance e (decide (need.frames ≠ [])) r).stage else 0 }))
    ∧ (∀ cause, scbCause c (runsUnchecked s.m cl k) (opRanges e g.cfg c.rix) = some cause →
      ∃ n, exec (.start cl k [w0, w1]) s = .next { s with m := n } ∧ OnlyCl s.m n cl ∧ (clAt n cl).scb = c.scb
        ∧ (∀ f, engOf (clAt n cl) f = engOf c f) ∧ (ctxOf (clAt n cl) k).pc = x.pc
        ∧ (x.holdRun = none → (ctxOf (clAt n cl) k).lastCause = BitVec.ofNat 4 cause)))
  ∧ ∀ (s : State) (cl : Fin 512) (e : Engine),
    let c := clAt s.m cl
    let g := engOf c e
    ((g.run ≠ none ∨ g.pend = none) → exec (.pendingStart cl e) s = .next s)
    ∧ ∀ p, g.run = none → g.pend = some p → entriesReady c e g.cfg = true → vecAllows c e g.cfg = true →
      opRefused cl e g.cfg c.rix = none → vprogBad c e g.cfg = false →
      ∃ n o, exec (.pendingStart cl e) s = .next { s with m := n } ∧ (∀ q, q ≠ cl.val → clAt n q = clAt s.m q)
        ∧ (∀ a ∈ sideWords e g.cfg, o.word a = scrWord c [] a)
        ∧ (engOf (clAt n cl) e).pend = none ∧ (engOf (clAt n cl) e).run = some o ∧ o.regs = g.cfg ∧ o.moduli = c.mods
        ∧ o.rix = c.rix ∧ o.ctx = p.ctx ∧ o.job = p.job ∧ o.opid = p.opid ∧ o.dflag = p.dflag ∧ o.record = p.record
        ∧ o.frames = p.frames ∧ o.done = false ∧ o.startedAt = s.m.now ∧ (clAt n cl).scb = c.scb
        ∧ (clAt n cl).ctxs = c.ctxs ∧ (clAt n cl).scratch = c.scratch

/-- The words may issue as a LOAD of engine `eng` at window word `regw`, with the values `vs`. -/
def Sys2Proof.Certificates.MayLoad (m : Module) (cl k : Nat) (ws : List Word) (eng regw : Nat) (vs : List Word) : Prop :=
  MayIssue m cl k ws 0x01 true ∧ (ws.headD 0).toNat / 65536 = 16 * regw + eng ∧ eng ≤ 4
    ∧ (∃ data, loadGroups 8 (ws.drop 1) = some data ∧ data ≠ []
        ∧ (∀ i, i < data.length → winMapped eng (regw + i) = true)
        ∧ resolveAll m cl (ctxOf (clAt m cl) k) data = .ok vs)

/-- LOAD writes the pending set, the modulus table, the handles, the landing pairs, the port controls and the loaded sets,
and nothing else (13_command_streams, 15_memory_stacks). -/
def Obligations.Loads : Prop :=
  ∀ (s : State) (cl : Fin 512) (k : Fin 8) (ws vs : List Word) (eng regw : Nat), MayLoad s.m cl k ws eng regw vs →
    let c := clAt s.m cl
    let x := ctxOf c k
    let free := s.m.now + ceilDiv vs.length 8
    (eng ≤ 2 → (engOf c (engOfNo eng)).pend = none →
      ∃ n, exec (.load cl k ws) s = .next { s with m := n } ∧ OnlyCl s.m n cl
        ∧ Issued s.m n cl k ws.length false (some free) x
        ∧ (∀ e, e ≠ engOfNo eng → engOf (clAt n cl) e = engOf c e)
        ∧ (engOf (clAt n cl) (engOfNo eng)).run = (engOf c (engOfNo eng)).run
        ∧ (∀ i v, vs[i]? = some v → (eng ≠ 0 ∨ regw + i < 0x100) →
            tget 0 (engOf (clAt n cl) (engOfNo eng)).cfg (regw + i) = v &&& BitVec.ofNat 32 (cfgMask eng (regw + i)))
        ∧ (∀ w, (w < regw ∨ regw + vs.length ≤ w) → tget 0 (engOf (clAt n cl) (engOfNo eng)).cfg w =
            tget 0 (engOf c (engOfNo eng)).cfg w)
        ∧ (∀ i v, vs[i]? = some v → eng = 0 → 0x100 ≤ regw + i →
            let e := tget {} (clAt n cl).mods ((regw + i - 0x100) / 4)
            e.valid = false ∧ ((regw + i) % 4 = 0 → e.q = v.setWidth 31) ∧ ((regw + i) % 4 = 1 → e.psi = v.setWidth 31)
            ∧ ((regw + i) % 4 = 2 → e.psiinv = v.setWidth 31) ∧ ((regw + i) % 4 = 3 → e.ne = v.setWidth 5 ∧ e.busy = true))
        ∧ ((eng ≠ 0 ∨ regw < 0x100) → (clAt n cl).mods = c.mods))
    ∧ (eng = 3 → 0x400 ≤ regw → (∀ i, i < vs.length → x.own.getLsbD (regw + i - 0x400) = false) →
      ∃ n t, exec (.load cl k ws) s = .next { s with m := n } ∧ OnlyCl s.m n cl
        ∧ Issued s.m n cl k ws.length false (some free) { x with handles := t }
        ∧ (∀ i v, vs[i]? = some v → tget 0xFFFFFFFF t (regw + i - 0x400) = v)
        ∧ (∀ r, (r + 0x400 < regw ∨ regw + vs.length ≤ r + 0x400) → tget 0xFFFFFFFF t r = tget 0xFFFFFFFF x.handles r)
        ∧ (clAt n cl).lp = c.lp ∧ (clAt n cl).rix = c.rix)
    ∧ (eng = 3 → 0x1C0 ≤ regw → regw < 0x400 → ∀ h, holdOf s.m cl x.job = some h →
        (∀ i, i < vs.length → h.pair0 ≤ (regw + i - 0x1C0) / 2 ∧ (regw + i - 0x1C0) / 2 < h.pair0 + h.pairs) →
        lpLoad c.lp (regw - 0x1C0) vs ≠ none →
      ∃ n, exec (.load cl k ws) s = .next { s with m := n } ∧ OnlyCl s.m n cl ∧ Issued s.m n cl k ws.length false (some free) x
        ∧ (∀ i v, vs[i]? = some v → tget 0 (clAt n cl).lp (regw + i - 0x1C0) =
            if (regw + i) % 2 = 0 then v else v &&& 0x7FFF)
        ∧ (clAt n cl).rix = c.rix)
    ∧ (eng = 3 → regw < 0x1C0 →
      ∃ n, exec (.load cl k ws) s = .next { s with m := n } ∧ OnlyCl s.m n cl ∧ Issued s.m n cl k ws.length false (some free) x
        ∧ (∀ i v, vs[i]? = some v →
            tget 0 (clAt n cl).rix (4 * ((regw + i - 0x180) % 4) + (regw + i - 0x180) / 4) =
              v &&& (if regw < 0x184 then 0x1FFFFFF else if regw < 0x188 then 0x3FFFFFFF else 0x1FFFFF))
        ∧ (clAt n cl).lp = c.lp)
    ∧ (eng = 4 →
      let cur := if regw = 0 then (vs.headD 0).toNat % 16 else x.curSte
      ∃ n, exec (.load cl k ws) s = .next { s with m := n } ∧ OnlyCtx s.m n cl k
        ∧ Issued s.m n cl k ws.length false (some free) { x with curSte := cur }
        ∧ (∀ d, d ≠ cl.val / 64 → dieAt n d = dieAt s.m d)
        ∧ dieAt n (cl.val / 64) = { dieAt s.m (cl.val / 64) with sd := (dieAt n (cl.val / 64)).sd }
        ∧ (∀ i v, vs[i]? = some v → tget 0 (dieAt n (cl.val / 64)).sd (8 * cur + regw + i) =
            v &&& BitVec.ofNat 32 (sdMask (regw + i)))
        ∧ (∀ w, (w < 8 * cur + regw ∨ 8 * cur + regw + vs.length ≤ w) →
            tget 0 (dieAt n (cl.val / 64)).sd w = tget 0 (dieAt s.m (cl.val / 64)).sd w))

/-- SEAL opens a record; SEALC closes it, waits for the other members, and the last one's SEALC writes the header
(03_sealed_primitives, 11_tensor_layout, 13_command_streams). -/
def Obligations.Seals : Prop :=
(∀ (s : State) (cl : Fin 512) (k : Fin 8) (w0 w1 w2 w3 : Word),
    let x := ctxOf (clAt s.m cl) k
    let n := bits w3.toNat 12 10
    let slots := [bits w2.toNat 9 0, bits w2.toNat 19 10, bits w2.toNat 29 20, bits w3.toNat 9 0].take n
    let r := w1.toNat % 16
    MayIssue s.m cl k [w0, w1, w2, w3] 0x0B true → w0.toNat / 65536 = 0 → bits w1.toNat 7 4 = 0 → w1.toNat < 2 ^ 26 →
    w2.toNat < 2 ^ 30 → bits w3.toNat 13 13 = 0 → w3.toNat < 2 ^ 22 → 1 ≤ n → n ≤ 4 →
    (tget {} x.records r).isOpen = false → (∀ q ∈ slots, tget 0 (clAt s.m cl).hdrReady q = 0) →
      ∃ m t, exec (.seal cl k [w0, w1, w2, w3]) s = .next { s with m := m } ∧ OnlyCl s.m m cl ∧ OnlyCtx s.m m cl k
        ∧ Issued s.m m cl k 4 false (some (s.m.now + 1)) { x with records := t, sealed := x.sealed + 1 }
        ∧ tget {} t r = { isOpen := true, code := bits w1.toNat 15 8, outSlot := bits w1.toNat 25 16, opSlots := slots,
                          imm := tget 0 x.params (bits w3.toNat 21 14), prim := plannedSeal s.m x.job cl x.sealed }
        ∧ ∀ q, q ≠ r → tget {} t q = tget {} x.records q)
  ∧ (∀ (s : State) (cl : Fin 512) (k : Fin 8) (w0 w1 w2 w3 : Word) (rows : List Word),
    let c := clAt s.m cl
    let x := ctxOf c k
    let ws := w0 :: w1 :: w2 :: w3 :: rows
    let rec_ := w0.toNat / 65536
    let r := tget {} x.records rec_
    let g := w1.toNat / 64
    let mask := w3 ++ w2
    let closed : Record := { r with
      isOpen := false, closed := true, lead := w1.toNat % 64, size := g, mask := mask,
      rows := rows.map (fun w => (w.toNat % 2 ^ 15, w.toNat / 2 ^ 15)) }
    MayIssue s.m cl k ws 0x0C true → rec_ < 16 → 1 ≤ g → g ≤ 64 → (∀ w ∈ rows, w.toNat < 2 ^ 30) →
    r.isOpen = true → primCode r.code = true →
    let inside := ∀ w ∈ rows, w.toNat % 2 ^ 15 + w.toNat / 2 ^ 15 ≤ 18432
    (¬ inside → ∀ j, jobAt s.m x.job = some j → j.killed = none → j.phase ≠ .finishing →
      ∃ m e, exec (.sealc cl k ws) s = .next { s with m := m } ∧ m.quay.compl = s.m.quay.compl ++ [e] ∧ e.job = some x.job
        ∧ e.status = 0x33)
    ∧ ((r.bound ≠ 0 ∨ ∃ q ∈ r.opSlots, slotWritten c q = false) → inside →
      ∃ m, exec (.sealc cl k ws) s = .next { s with m := m } ∧ OnlyCl s.m m cl ∧ (ctxOf (clAt m cl) k).pc = x.pc
        ∧ (ctxOf (clAt m cl) k).records = x.records ∧ (x.holdRun = none → (ctxOf (clAt m cl) k).lastCause = 8))
    ∧ (r.bound = 0 → inside → (∀ q ∈ r.opSlots, slotWritten c q = true) →
      ((∃ i, i < 64 ∧ i ≠ cl.val % 64 ∧ mask.getLsbD i = true
          ∧ memberOn s.m x.job closed (cl.val / 64 * 64 + i) = none) →
        ∃ m t, exec (.sealc cl k ws) s = .next { s with m := m } ∧ OnlyCl s.m m cl
          ∧ Issued s.m m cl k ws.length false (some (s.m.now + 1)) { x with records := t }
          ∧ tget {} t (16 + x.issued) = closed ∧ tget {} t rec_ = {}
          ∧ (∀ q, q ≠ rec_ → q ≠ 16 + x.issued → tget {} t q = tget {} x.records q)
          ∧ (clAt m cl).headers = c.headers ∧ tget 0 (clAt m cl).hdrReady r.outSlot = 1)
      ∧ (mask = BitVec.ofNat 64 (2 ^ (cl.val % 64)) → w1.toNat % 64 = cl.val % 64 →
          (∀ q, ∀ p ∈ (ctxOf c q).records, p.2.closed = false) →
        ∃ m t, exec (.sealc cl k ws) s = .next { s with m := m }
          ∧ Issued s.m m cl k ws.length false (some (s.m.now + 1)) { x with records := t }
          ∧ tget {} t rec_ = {} ∧ (∀ q, q ≠ rec_ → q ≠ 16 + x.issued → tget {} t q = tget {} x.records q)
          ∧ (tget [] (clAt m cl).headers r.outSlot).length = 64 ∧ tget 0 (clAt m cl).hdrReady r.outSlot = 0
          ∧ (r.prim = none → r.code ≠ 0x13 → r.code ≠ 0x49 → (clAt m cl).scratch = c.scratch)
          ∧ ∀ j i p, jobAt s.m x.job = some j → recPrim j r = some (i, p) → j.audit ≠ 3 →
              let sets := jobSetsOf s.m x.job
              let (h, pay) := sealedPrim s.m j sets i p r.causes
              let sh := limbShape sets h
              tget [] (clAt m cl).headers r.outSlot =
                hdrBytes h (if h.poison = 0 then crc32c (bytesOf pay) else zeroPcrc h.plen)
              ∧ ∀ r0 len t v, h.poison = 0 → closed.rows = [(r0, len)] → pay.length ≤ 64 * len →
                  pay.length = sh.1 * sh.2.1 * sh.2.2 → memWf c.scratch = true → pay[t]? = some v →
                  mword (clAt m cl).scratch (64 * r0 + t) = v)))
  ∧ ∀ (limb e comps g : Nat) (pay : List Word), 0 < g → pay.length = limb * e * comps →
    joinParts (limb, e, comps) ((List.range g).map (partOf (limb, e, comps) pay g)) = some pay
    ∧ ∀ c i j, c < comps → i < e → j < limb →
        (partOf (limb, e, comps) pay g (i % g))[limbMajor 0 e g limb c i j]? = pay[(c * e + i) * limb + j]?

/-- The windows of die `e` are those of die `d`, frame `q` of window `w` being `g w q`. -/
def Sys2Proof.Certificates.FramesBecome (d e : Die) (g : KeyWindow → Nat → Frame) : Prop :=
  e.windows.length = d.windows.length ∧ ∀ (i : Nat) (w : KeyWindow), d.windows[i]? = some w → ∃ v, e.windows[i]? = some v
    ∧ v.cl = w.cl ∧ v.job = w.job ∧ v.base = w.base ∧ v.size = w.size ∧ ∀ q, tget {} v.frames q = g w q

/-- Frame number `f` of the slice of local cluster `cl` is frame `q` of window `w`. -/
def Sys2Proof.Certificates.IsFrame (w : KeyWindow) (cl f q : Nat) : Prop :=
  w.cl = cl ∧ w.base ≤ 1024 * f ∧ 1024 * f < w.base + 1024 * w.size ∧ q = (1024 * f - w.base) / 1024

/-- LAND, FERRY_END, FRAME_STAGED, TOKEN_RELEASE and BINDING_REPORT: the key tokens and what a landing writes
(09_key_ferry). -/
def Obligations.FerryCommands : Prop :=
  (∀ (s : State) (die : Fin 8) (l : FerryList) (c : FerryCmd) (f : Nat) (p : LandPlan),
    let d := dieAt s.m die
    d.halted = false → ferryPick s.m die false = some (l, .land c f p) →
    ∃ n g, exec (.land die) s = .next { s with m := n } ∧ FramesBecome d (dieAt n die) g
      ∧ (∀ w q, w.cl = c.cl → w.job = l.job → g w q =
          if f ≤ q ∧ q < f + p.rows.length * p.perRow then
            { st := 1, page := p.page, left := c.ndlv, reading := 0, seq := w.landed + (q - f) }
          else tget {} w.frames q)
      ∧ (∀ w q, ¬(w.cl = c.cl ∧ w.job = l.job) → g w q = tget {} w.frames q)
      ∧ (dieAt n die).lists = d.lists.map (fun x => if x.job = l.job then { x with idx := x.idx + 1 } else x)
      ∧ (dieAt n die).ferPages.toNat = min (d.ferPages.toNat + 1) (2 ^ 32 - 1) ∧ (dieAt n die).ferBusy = true
      ∧ (∀ e, e ≠ die.val → dieAt n e = dieAt s.m e)
      ∧ (let cl := clAt s.m (64 * die + c.cl)
         cl.restricted = false → cl.fence = [] → memWf cl.scratch = true →
         ∀ w, landWindow d die l.job c = some (w, f) → ∀ a ∈ landWords (w.base + 1024 * f) p,
           mword (clAt n (64 * die + c.cl)).scratch a.1 = a.2))
  ∧ (∀ (s : State) (die : Fin 8) (l : FerryList) (cause : KillCause) (j : Job) (b : Bool),
    (dieAt s.m die).halted = false → ferryPick s.m die b = some (l, .kill cause) → jobAt s.m l.job = some j →
    j.killed = none → j.phase ≠ .finishing →
    ∃ n x, exec (if b then .ferryEnd die else .land die) s = .next { s with m := n }
      ∧ n.quay.compl = s.m.quay.compl ++ [x] ∧ x.job = some l.job ∧ x.status = (killStatus cause).1)
  ∧ (∀ (s : State) (die : Fin 8) (l : FerryList), (dieAt s.m die).halted = false →
    ferryPick s.m die true = some (l, .endList) →
    ∃ n, exec (.ferryEnd die) s = .next { s with m := n } ∧ OnlyDie s.m n die
      ∧ (dieAt n die).lists = (dieAt s.m die).lists.map (fun x => if x.job = l.job then { x with ended := true } else x)
      ∧ (dieAt n die).windows = (dieAt s.m die).windows)
  ∧ (∀ (s : State) (die : Fin 8) (cl : Fin 64) (f : Nat),
    ∃ n g, exec (.frameStaged die cl f) s = .next { s with m := n } ∧ OnlyDie s.m n die
      ∧ FramesBecome (dieAt s.m die) (dieAt n die) g
      ∧ ∀ w q, (IsFrame w cl f q → (tget {} w.frames q).st = 1 → g w q = { tget {} w.frames q with st := 2 })
          ∧ (¬(IsFrame w cl f q ∧ (tget {} w.frames q).st = 1) → g w q = tget {} w.frames q))
  ∧ (∀ (s : State) (die : Fin 8) (cl : Fin 64) (f : Nat),
    ∃ n g, exec (.tokenRelease die cl f) s = .next { s with m := n } ∧ OnlyDie s.m n die
      ∧ FramesBecome (dieAt s.m die) (dieAt n die) g
      ∧ ∀ w q, let x := tget {} w.frames q
          (IsFrame w cl f q → x.st = 2 → x.left = 0 → x.reading = 0 → g w q = {})
          ∧ (¬(IsFrame w cl f q ∧ x.st = 2 ∧ x.left = 0 ∧ x.reading = 0) → g w q = x))
  ∧ ∀ (s : State) (cl : Fin 512) (i rn : Nat) (o : RunOp) (pu : PageUse), (clAt s.m cl).rme.run = some o →
    o.pages[i]? = some pu → pu.report = none → o.record = some rn →
    let r := tget {} (ctxOf (clAt s.m cl) o.ctx).records rn
    let want := keyWant r (((jobAt s.m o.job).bind (fun j => recPrim j r)).map (·.2))
    let causes := bindCauses (jobSetsOf s.m o.job) want (targetHdr (clAt s.m cl) r pu.info) pu.info
    let d := dieAt s.m (cl.val / 64)
    ∃ n o', exec (.bindingReport cl i) s = .next { s with m := n } ∧ (clAt n cl).rme.run = some o'
      ∧ o'.pages[i]? = some { pu with report := some causes } ∧ (∀ j, j ≠ i → o'.pages[j]? = o.pages[j]?)
      ∧ (o'.keyfail = true ↔ o.keyfail = true ∨ (causes ≠ [] ∧ ∃ w ∈ o.held, i ∈ w.pages))
      ∧ o'.done = o.done ∧ o'.opid = o.opid ∧ (clAt n cl).scb = (clAt s.m cl).scb
      ∧ (∀ k, k ≠ o.ctx → ctxOf (clAt n cl) k = ctxOf (clAt s.m cl) k)
      ∧ ctxOf (clAt n cl) o.ctx = { ctxOf (clAt s.m cl) o.ctx with
          records := tmod {} (ctxOf (clAt s.m cl) o.ctx).records rn
            (fun x => { x with unconf := o'.pages.any (fun p => p.report.isNone) }) }
      ∧ (causes = [] → dieAt n (cl.val / 64) = d)
      ∧ (causes ≠ [] → dieAt n (cl.val / 64) = { d with ferBind := true, ferBindFails := satAdd d.ferBindFails 1 })

/-- SCRUB_REWRITE, SCRUB_ROW, SLICE_WIPE, RESTRICT, HASHOFF and LANDING_PAIR_WRITE, word by word (10_scratchpad). -/
def Obligations.ScratchpadCommands : Prop :=
∀ (s : State) (cl : Fin 512),
    let c := clAt s.m cl
    (∀ w rest, c.rewriteQ = w :: rest →
      ∃ n, exec (.scrubRewrite cl) s = .next { s with m := n } ∧ OnlyCl s.m n cl ∧ (clAt n cl).rewriteQ = rest
        ∧ (clAt n cl).scratch = c.scratch ∧ tget 0 (clAt n cl).spErr w ≠ 1
        ∧ ∀ v, v ≠ w → tget 0 (clAt n cl).spErr v = tget 0 c.spErr v)
    ∧ (c.rewriteQ = [] → exec (.scrubRewrite cl) s = .next s)
    ∧ (∀ f rest, c.fence = f :: rest →
      ∃ n, exec (.scrubRow cl) s = .next { s with m := n } ∧ (clAt n cl).fence = rest
        ∧ (clAt n cl).poisoned = c.poisoned ∧ (clAt n cl).ctxs = c.ctxs
        ∧ (memWf c.scratch = true → ∀ w, mword (clAt n cl).scratch w = if w / 64 = f.row then 0 else mword c.scratch w)
        ∧ ∀ p ∈ (clAt n cl).spErr, p ∈ c.spErr ∧ p.1 / 64 ≠ f.row)
    ∧ (c.fence = [] → exec (.scrubRow cl) s = .next s)
    ∧ (c.wiping = true → (c.restricted || mayRestrict c) = true →
      ∃ n, exec (.sliceWipe cl) s = .next { s with m := n } ∧ (clAt n cl).scratch = [] ∧ (clAt n cl).spErr = []
        ∧ (clAt n cl).poisoned = [] ∧ (clAt n cl).fence = [] ∧ (clAt n cl).rewriteQ = [] ∧ (clAt n cl).lost = [] ∧ (clAt n cl).wiping = false
        ∧ (clAt n cl).restricted = true ∧ (clAt n cl).ctxs = c.ctxs)
    ∧ ((c.wiping && (c.restricted || mayRestrict c)) = false → exec (.sliceWipe cl) s = .next s)
    ∧ (∀ v, ∃ n, exec (.restrict cl v) s = .next { s with m := n } ∧ OnlyCl s.m n cl
        ∧ clAt n cl = if c.nte.run = none ∧ c.nte.pend = none ∧ c.rme.run = none ∧ c.rme.pend = none ∧ c.vec.run = none
            ∧ c.vec.pend = none ∧ c.scb = [] then { c with restricted := v } else { c with refused := true })
    ∧ (∀ v, ∃ n, exec (.hashoff cl v) s = .next { s with m := n } ∧ OnlyCl s.m n cl
        ∧ (c.restricted = false → clAt n cl = { c with refused := true })
        ∧ (c.restricted = true → c.hashoff = v → clAt n cl = c)
        ∧ (c.restricted = true → c.hashoff ≠ v → (clAt n cl).hashoff = v ∧ (clAt n cl).restricted = true
            ∧ (clAt n cl).flags = c.flags ∧ (memWf c.scratch = true → ∀ row col, col < 64 →
              mword (clAt n cl).scratch (64 * row + (col ^^^ row % 64)) = mword c.scratch (64 * row + col))))
    ∧ ∀ (p : Fin 32) (hi : Bool) (v : Word),
      let w0 := if hi then tget 0 c.lp (2 * p) else v
      let w1 := if hi then v &&& 0x7FFF else tget 0 c.lp (2 * p + 1) &&& 0x7FFF
      ∃ n, exec (.landingPairWrite cl p hi v) s = .next { s with m := n } ∧ OnlyCl s.m n cl
        ∧ clAt n cl = { c with lp := (clAt n cl).lp }
        ∧ (lpOk w0.toNat w1.toNat = false → (clAt n cl).lp = c.lp)
        ∧ (lpOk w0.toNat w1.toNat = true → tget 0 (clAt n cl).lp (2 * p) = w0 ∧ tget 0 (clAt n cl).lp (2 * p + 1) = w1
            ∧ ∀ q, q / 2 ≠ p.val → tget 0 (clAt n cl).lp q = tget 0 c.lp q)

/-- STE_DCMT, DESCRIPTOR_VALIDATION_DONE, DESCRIPTOR_WRITE and SWAP: an entry's VALID, and a pair's half and count
(10_scratchpad, 11_tensor_layout, 13_command_streams). -/
def Obligations.DescriptorCommands : Prop :=
(∀ (s : State) (die : Fin 8),
    let d := dieAt s.m die
    (∀ v : Word, ∃ n, exec (.steDcmt die v) s = .next { s with m := n } ∧ OnlyDie s.m n die
      ∧ dieAt n die = { d with dstat := (dieAt n die).dstat }
      ∧ tget {} (dieAt n die).dstat (v.toNat % 4096) = { busy := true, job := v.extractLsb' 12 10 }
      ∧ ∀ q, q ≠ v.toNat % 4096 → tget {} (dieAt n die).dstat q = tget {} d.dstat q)
    ∧ (∀ e : Fin 4096, (tget {} d.dstat e).busy = false → exec (.descriptorValidationDone die e) s = .next s)
    ∧ (∀ e : Fin 4096, (tget {} d.dstat e).busy = true →
      let job := (tget {} d.dstat e).job
      let r := descCheck s.m die job.toNat (descOf d e)
      ∃ n, exec (.descriptorValidationDone die e) s = .next { s with m := n } ∧ OnlyDie s.m n die
        ∧ dieAt n die = { d with dstat := (dieAt n die).dstat }
        ∧ tget {} (dieAt n die).dstat e =
            { valid := decide (r = (0, 0)), code := BitVec.ofNat 2 r.1, check := BitVec.ofNat 4 r.2, job := job }
        ∧ ∀ q, q ≠ e.val → tget {} (dieAt n die).dstat q = tget {} d.dstat q)
    ∧ ∀ (e : Fin 4096) (w : Fin 32) (v : Word),
      ∃ n, exec (.descriptorWrite die e w v) s = .next { s with m := n } ∧ OnlyDie s.m n die
        ∧ dieAt n die = { d with desc := (dieAt n die).desc, dstat := (dieAt n die).dstat }
        ∧ (∀ q, tget 0 (dieAt n die).desc q =
            if q = 32 * e.val + w.val then v &&& BitVec.ofNat 32 (descMask w.val) else tget 0 d.desc q)
        ∧ ∀ q, tget {} (dieAt n die).dstat q =
            if q = e.val then { tget {} d.dstat e with valid := false, busy := false } else tget {} d.dstat q)
  ∧ ∀ (s : State) (cl : Fin 512) (k : Fin 8) (w0 : Word),
    let c := clAt s.m cl
    let p := w0.toNat / 65536
    MayIssue s.m cl k [w0] 0x07 true → p < 32 → (tget (0 : Word) c.lp (2 * p)).getLsbD 31 = true →
      ∃ n, exec (.swap cl k [w0]) s = .next { s with m := n } ∧ OnlyCl s.m n cl
        ∧ Issued s.m n cl k 1 false (some (s.m.now + 1)) (ctxOf c k)
        ∧ clAt n cl = { c with lp := (clAt n cl).lp, ctxs := (clAt n cl).ctxs, issueFree := (clAt n cl).issueFree,
                                       issueOwner := (clAt n cl).issueOwner }
        ∧ tget 0 (clAt n cl).lp (2 * p) = tget 0 c.lp (2 * p) ^^^ 0x40000000
        ∧ tget 0 (clAt n cl).lp (2 * p + 1) = tget 0 c.lp (2 * p + 1) + 0x10000
        ∧ ∀ q, q / 2 ≠ p → tget 0 (clAt n cl).lp q = tget 0 c.lp q

/-- A stream engine whose streams read 0 from more rows (R467). -/
def Sys2Proof.Certificates.readsZero (rows : List (Nat × Nat)) (e : StreamEngine) : StreamEngine :=
  let more (o : Option Stream) : Option Stream := o.map (fun t => { t with zeroRows := t.zeroRows ++ rows })
  { e with active := more e.active, shadow := more e.shadow }

/-- STE_STREAM_START makes a stream active, arms a shadow, or overruns; TRANSFER_BOUNDARY moves on (13_command_streams,
14_ledger). -/
def Obligations.StreamStarts : Prop :=
  (∀ (s : State) (cl : Fin 512) (k : Fin 8) (w0 : Word),
    let c := clAt s.m cl
    let x := ctxOf c k
    let d := dieAt s.m (cl.val / 64)
    let set := tgetRange 0 d.sd (8 * x.curSte) 8
    let e := steAt d x.curSte
    let src := descOf d (ssetOf set).srcd
    let port := sendPort s.m (cl.val / 64) x.job (ssetOf set)
    let ranges := steRanges s.m cl x.job (ssetOf set)
    let rows := (clearedRows c ranges).map (fun r => (cl.val, r))
    let st : Stream := { set := set, job := x.job, cl := cl, ctx := k, opid := c.nextOp,
                         due := hostDue s.m (cl.val / 64) x.job (ssetOf set), rix := port, zeroRows := rows,
                         dest := destRows (steTarget s.m (cl.val / 64) x.job (ssetOf set)) }
    let far := ∃ p, steSource s.m (cl.val / 64) x.job (ssetOf set) = some p ∧ (rixOf port 2).mode = 2 ∧ spanIn p.1 p.2 = false
    let f := fetched s.m cl k 2
    MayIssue s.m cl k [w0, 0] 0x02 true → w0.toNat / 65536 = 4 →
    (startBehind f cl x = true →
      ∃ n, exec (.steStreamStart cl k [w0, 0]) s = .next { s with m := n } ∧ OnlyCl s.m n cl ∧ (ctxOf (clAt n cl) k).pc = x.pc
        ∧ (clAt n cl).scb = c.scb ∧ (x.holdRun = none → (ctxOf (clAt n cl) k).lastCause = 4))
    ∧ (startBehind f cl x = false → (ssetOf set).rep ≠ 0 → (∀ a, e.active = some a → a.job = x.job) →
    ((e.active = none ∨ e.armed = false) → steHeaderBusy s.m (cl.val / 64) x.job (ssetOf set) = false →
      rixBad (rixOf port 2) false (src.count * src.unit) = false → ¬ far →
      (∀ r ∈ ranges, spanIn cl r.1 = true) → scbCause c (runsUnchecked s.m cl k) ranges = none →
      ∃ n, exec (.steStreamStart cl k [w0, 0]) s = .next { s with m := n }
        ∧ (∀ q, q ≠ k.val → ctxOf (clAt n cl) q = ctxOf c q) ∧ (clAt n cl).scratch = c.scratch
        ∧ (∀ q, q ≠ cl.val → clAt n q = clAt s.m q)
        ∧ (∀ q, dieAt n q = { dieAt s.m q with ste := (dieAt n q).ste }
            ∧ (q ≠ cl.val / 64 → ∀ i, steAt (dieAt n q) i = readsZero rows (steAt (dieAt s.m q) i)))
        ∧ (∀ r, tget false (clAt n cl).poisoned r = true ↔ tget false c.poisoned r = true ∧ (cl.val, r) ∉ rows)
        ∧ Issued s.m n cl k 2 false (some (s.m.now + 1)) x
        ∧ (clAt n cl).scb = c.scb ++ scbEntries ranges k 4 c.nextOp ∧ (clAt n cl).nextOp = c.nextOp + 1
        ∧ (∀ q, q ≠ x.curSte → steAt (dieAt n (cl.val / 64)) q = readsZero rows (steAt d q))
        ∧ (e.active = none → steAt (dieAt n (cl.val / 64)) x.curSte = { readsZero rows e with active := some st })
        ∧ (e.active ≠ none →
            steAt (dieAt n (cl.val / 64)) x.curSte = { readsZero rows e with shadow := some st, armed := true }))
    ∧ ((e.active = none ∨ e.armed = false) → steHeaderBusy s.m (cl.val / 64) x.job (ssetOf set) = false →
      (rixBad (rixOf port 2) false (src.count * src.unit) = true ∨ far ∨ ∃ r ∈ ranges, spanIn cl r.1 = false) → ∀ j, jobAt s.m x.job = some j → j.killed = none → j.phase ≠ .finishing →
      ∃ n y, exec (.steStreamStart cl k [w0, 0]) s = .next { s with m := n } ∧ n.quay.compl = s.m.quay.compl ++ [y]
        ∧ y.job = some x.job ∧ y.status = (if rixBad (rixOf port 2) false (src.count * src.unit) then 0x32 else 0x33))
    ∧ (e.active ≠ none → e.armed = true → ∀ j, jobAt s.m x.job = some j → j.killed = none → j.phase ≠ .finishing →
      ∃ n y, exec (.steStreamStart cl k [w0, 0]) s = .next { s with m := n }
        ∧ (steAt (dieAt n (cl.val / 64)) x.curSte).overrun = true
        ∧ n.quay.compl = s.m.quay.compl ++ [y] ∧ y.job = some x.job ∧ y.status = 0x38 ∧ y.detail = 0)))
  ∧ ∀ (s : State) (die : Fin 8) (e : Fin 16) (st : Stream),
    let x := steAt (dieAt s.m die) e
    let set := ssetOf st.set
    x.active = some st →
    (st.moved = false → exec (.transferBoundary die e) s = .next s)
    ∧ (st.moved = true →
      ∃ n, exec (.transferBoundary die e) s = .next { s with m := n } ∧ (∀ q, q ≠ die.val → dieAt n q = dieAt s.m q)
        ∧ (∀ q, q ≠ e.val → steAt (dieAt n die) q = steAt (dieAt s.m die) q)
        ∧ (∀ sh, x.shadow = some sh →
            steAt (dieAt n die) e = { x with
              shadow := none, armed := false, active := some { sh with due := hostDue s.m die sh.job (ssetOf sh.set) } })
        ∧ (x.shadow = none → st.r + 1 < set.rep →
            steAt (dieAt n die) e = { x with active := some { st with
              r := st.r + 1, moved := false, due := hostDue s.m die st.job set } })
        ∧ (x.shadow = none → set.rep ≤ st.r + 1 → steAt (dieAt n die) e = { x with active := none })
        ∧ (x.shadow = none → st.r + 1 < set.rep → ∀ c, (clAt n c).scb = (clAt s.m c).scb)
        ∧ (x.shadow ≠ none ∨ set.rep ≤ st.r + 1 →
            (clAt n st.cl).scb = (clAt s.m st.cl).scb.filter (fun q => decide (q.opid ≠ st.opid)))
        ∧ (∀ c, (clAt n c).flags = (clAt s.m c).flags)
        ∧ ∀ a, a < 2 ^ 17 → flagCount n a = flagCount s.m a + (if set.den = true ∧ set.dflag = a then 1 else 0)
            + (match x.shadow with
              | some sh => if (ssetOf sh.set).aen = true ∧ (ssetOf sh.set).aflag = a then 1 else 0
              | none => 0))

/-- TRANSFER waits, kills or moves: element k of the source walk lands at place k of the destination walk
(11_tensor_layout, 13_command_streams). -/
def Obligations.Transfers : Prop :=
∀ (s : State) (die : Fin 8) (e : Fin 16) (host : List Word) (st : Stream),
    let d := dieAt s.m die
    let x := ssetOf st.set
    (steAt d e).active = some st →
    ((st.moved = true ∨ d.halted = true ∨ (tget {} d.dstat x.srcd).busy = true ∨ (tget {} d.dstat x.dstd).busy = true) →
      exec (.transfer die e host) s = .next s)
    ∧ (st.moved = false → d.halted = false → (tget {} d.dstat x.srcd).busy = false →
        (tget {} d.dstat x.dstd).busy = false →
      (∀ cause j, moveCheck s.m die st = .error cause → jobAt s.m st.job = some j → j.killed = none →
          j.phase ≠ .finishing →
        ∃ n y, exec (.transfer die e host) s = .next { s with m := n } ∧ n.quay.compl = s.m.quay.compl ++ [y]
          ∧ y.job = some st.job ∧ y.status = (killStatus cause).1)
      ∧ ∀ v, moveCheck s.m die st = .ok v →
        let path := pathIn s.m st.job die v.ps ++ pathOut s.m st.job die v.pd
        let zero := (st.zeroRows.filter (fun r => decide (r.1 = v.ps.cl))).map (·.2)
        let rix := rixOf st.rix 2
        ((writesLive s.m st.job v = true ∨ granted s.m st.job die e v = false ∨ yieldsMove s.m st.job die v = true
            ∨ ∃ l ∈ path, linkReady s.m l = false) → exec (.transfer die e host) s = .next s)
        ∧ (writesLive s.m st.job v = false → granted s.m st.job die e v = true → yieldsMove s.m st.job die v = false → (∀ l ∈ path, linkReady s.m l = true) →
        ∃ n, exec (.transfer die e host) s = .next { s with m := n }
          ∧ steAt (dieAt n die) e = { steAt d e with active := some { st with moved := true } }
          ∧ (∀ q, q ≠ e.val → steAt (dieAt n die) q = steAt d q)
          ∧ (∀ c, (clAt n c).flags = (clAt s.m c).flags ∧ (clAt n c).scb = (clAt s.m c).scb)
          ∧ (∀ c k, (c ≠ st.cl ∨ k ≠ st.ctx) → ctxOf (clAt n c) k = ctxOf (clAt s.m c) k)
          ∧ (∃ b, ctxOf (clAt n st.cl) st.ctx = bankSlip b (ctxOf (clAt s.m st.cl) st.ctx)
              ∧ (runsUnchecked s.m st.cl st.ctx = false → b = 0))
          ∧ (slotDie v.ps = some die.val → slotDie v.pd = some die.val → ∀ l, linkAt n l = linkAt s.m l)
          ∧ (slotDie v.ps ≠ none → slotDie v.pd = some die.val →
              Crossed s.m n (pathIn s.m st.job die v.ps) (flitsFor (inWords v (v.src.walk v.bs))))
          ∧ (v.ps.kind = 0 → v.pd.kind = 0 → v.src.fmt = 0 → v.src.obj = false → v.dst.obj = false →
              (clAt s.m v.ps.cl).restricted = false → (clAt s.m v.ps.cl).fence = [] →
              (clAt s.m v.pd.cl).restricted = false → (clAt s.m v.pd.cl).fence = [] →
              memWf (clAt s.m v.pd.cl).scratch = true →
              (∀ t ∈ v.src.walk v.bs, t.1 = true) → (∀ t ∈ v.dst.walk v.bd, t.1 = true) →
              ((v.dst.walk v.bd).map (fun t => t.2.toNat)).Nodup →
              ∀ (k : Nat) (a b : Int), (v.src.walk v.bs)[k]? = some (true, a) → (v.dst.walk v.bd)[k]? = some (true, b) →
                mword (clAt n v.pd.cl).scratch (v.pd.start + b.toNat)
                  = scrWord (clAt s.m v.ps.cl) zero
                      (if rix.mode = 2 then transposedAddr rix k % 2 ^ 21 else v.ps.start + a.toNat))))

/-- LANDING_POINT copies a job at its cut; REPLAY brings the copy back and resumes the plan clock where the cut was
(12_planner, 20_reliability). -/
def Obligations.LandingAndReplay : Prop :=
∀ (s : State) (tag : Fin 1024) (j : Job), jobAt s.m tag = some j →
    ((atCut s.m tag j = false ∨ nextCut s.m j = none ∨ j.phase ≠ .running ∨ j.desc.hand = true ∨ j.replayReq ≠ none) →
      exec (.landingPoint tag) s = .next s)
    ∧ (∀ cut, j.phase = .running → j.desc.hand = false → j.replayReq = none → atCut s.m tag j = true →
        nextCut s.m j = some cut → j.audit.toNat < 2 → (∀ h ∈ j.clusters, badWords (clAt s.m h.cl) h.cl cut = []) →
      ∃ n j' p, exec (.landingPoint tag) s = .next { s with m := n } ∧ jobAt n tag = some j' ∧ j'.landing = some p
        ∧ j' = { j with landing := some p, landed := j.landed + 1, attempts := 0 }
        ∧ p.number = j.landed ∧ p.at_ = s.m.now ∧ p.counts = countsOf j ∧ p.saves = cut.saves ∧ p.roles = cut.roles ∧ p.clusters = j.clusters.map (landCluster s.m tag)
        ∧ p.dies = j.dies.map (landDie s.m tag) ∧ (∀ c, clAt n c = clAt s.m c) ∧ n.dies = s.m.dies
        ∧ (cut.copies = [] → cut.saves = [] → cut.roles = [] → n.stks = s.m.stks)
        ∧ (∀ v, cut.copies = [] → cut.saves = [v] → cut.roles = [] → (stkAt s.m (stkOf v.at_)).fence = [] →
            memWf (stkAt s.m (stkOf v.at_)).mem = true →
            mbytes (stkAt n (stkOf v.at_)).mem (stkOff v.at_) (256 * v.rows) =
              bytesOf (scrRun (clAt s.m v.cl) [] (64 * v.row) (64 * v.rows)))
        ∧ ∀ c cl ws, cut.copies = [c] → cut.saves = [] → cut.roles = [] → c.cls = [cl] →
            let hb := hdrSlot (clAt s.m cl) c.slot
            let img := (hb ++ if (hdrParse hb).poison ≠ 0 then zeros (4 * ws.length) else bytesOf ws).take c.bytes
            joinParts (limbShape (jobSetsOf s.m tag) (hdrParse hb))
              [rowsWords (clAt s.m cl) (tget [] (clAt s.m cl).hdrRows c.slot)] = some ws →
            (stkAt s.m (stkOf c.at_)).fence = [] → memWf (stkAt s.m (stkOf c.at_)).mem = true →
            mbytes (stkAt n (stkOf c.at_)).mem (stkOff c.at_) img.length = img)
    ∧ ∀ cause : ReplayCause,
      (∀ lost, j.replayReq ≠ some cause → exec (.replay tag cause lost) s = .next s)
      ∧ (j.replayReq = some cause → j.started = true → (∀ h ∈ j.clusters, opsDone (clAt s.m h.cl) tag = true) →
        (∀ h ∈ j.dies, streamsDone (dieAt s.m h.die) tag = true) →
        (∀ p, j.landing = some p → ∀ u ∈ copyUnits p, tget 0 (stkAt s.m u.stack.val).err u.unit = 0) →
        ∃ n j', exec (.replay tag cause []) s = .next { s with m := n } ∧ jobAt n tag = some j' ∧ j'.replayReq = none
          ∧ j'.replays = j.replays + 1 ∧ j'.attempts = j.attempts + 1 ∧ j'.phase = .running ∧ j'.desc = j.desc
          ∧ n.quay.replays = s.m.quay.replays + 1 ∧ n.aer = s.m.aer ++ [.correctedInternal] ∧ (∀ t, stkAt n t = stkAt s.m t)
          ∧ ∀ h p q, j.clusters = [h] → j.landing = some p → p.clusters = [q] → memWf (clAt s.m h.cl).scratch = true →
              (∀ b ∈ q.flags, h.flag0 ≤ b.1 ∧ b.1 < h.flag0 + h.flags) → twf 0 q.flags = true →
              twf 0 (clAt s.m h.cl).flags = true →
              (∀ w, (∀ v ∈ p.saves, inSave v h.cl w = false) → mword (clAt n h.cl).scratch w = mword (clAt s.m h.cl).scratch w)
              ∧ (∀ v, p.saves = [v] → v.cl = h.cl → ∀ i x, (copyWords s.m v.at_ (64 * v.rows))[i]? = some x →
                  mword (clAt n h.cl).scratch (64 * v.row + i) = x)
              ∧ (∀ f, tget 0 (clAt n h.cl).flags f = if h.flag0 ≤ f ∧ f < h.flag0 + h.flags then tget 0 q.flags f
                else tget 0 (clAt s.m h.cl).flags f)
              ∧ (ctxOf (clAt n h.cl) q.ctx).pc = q.saved.pc 
              ∧ (let now_ := ctxOf (clAt s.m h.cl) q.ctx
                 (ctxOf (clAt n h.cl) q.ctx).state = if q.saved.ended then 0
                   else if q.saved.issued < max now_.replayTo now_.issued then 3 else 1)
              ∧ (ctxOf (clAt n h.cl) q.ctx).records = q.saved.records
              ∧ (let x := ctxOf (clAt n h.cl) q.ctx
                 let pclk := p.at_ - q.saved.origin - q.saved.slipTotal
                 pclk + x.slipTotal ≤ s.m.now → s.m.now - x.origin - x.slipTotal = pclk))
      ∧ (j.replayReq = some cause → j.started = true → (∀ h ∈ j.clusters, opsDone (clAt s.m h.cl) tag = true) →
        (∀ h ∈ j.dies, streamsDone (dieAt s.m h.die) tag = true) → j.desc.hand = false → j.attempts + 1 < 4 → j.replays + 1 < 16 →
        ∀ (p : LandingPoint) (u : LostUnit), j.landing = some p → lostCopy s.m p [u] = [u] →
        (∀ v ∈ copyUnits p, tget 0 (stkAt s.m v.stack.val).err v.unit = 0) →
        ∃ n, exec (.replay tag cause [u]) s = .next { s with m := n }
          ∧ jobAt n tag = some { j with replays := j.replays + 1, attempts := j.attempts + 1 }
          ∧ n.quay.replays = s.m.quay.replays + 1 ∧ n.clusters = s.m.clusters ∧ n.dies = s.m.dies
          ∧ (∀ t, t ≠ u.stack.val → stkAt n t = stkAt s.m t)
          ∧ stkAt n u.stack = { stkAt s.m u.stack with
              eccUnc := satAdd (stkAt s.m u.stack).eccUnc 1,
              lastUnc := BitVec.ofNat 41 (u.stack.val * 2 ^ 37 + 64 * u.unit) })

/-- FLIT_RECEIVE, NAK, RETRY_EXHAUSTED, LINK_RETRAIN_DONE, FI_ARM and FAULT_INJECTION: sequence, retry, retrain and
injected faults (20_reliability, 21_package, 01_module_at_work). -/
def Obligations.PontoonLinks : Prop :=
∀ (s : State) (e : LinkEnd),
    let r := linkAt s.m e
    let t := linkAt s.m (peerOf e)
    (∀ b : List Byte,
      ∃ n, exec (.flitReceive e b) s = .next { s with m := n }
        ∧ (t.retryAt = none → (linkAt n (peerOf e)).nextSeq = sentSeq t b + 1
            ∧ (t.retry.length < 512 → ∃ job, (linkAt n (peerOf e)).retry = t.retry ++ [{ seq := sentSeq t b, bytes := b, job := job }]))
        ∧ (flitOk b = true → flitSeq b = r.expected →
            (linkAt n e).expected = r.expected + 1 ∧ (linkAt n e).discarding = false ∧ (linkAt n e).nakTx = r.nakTx
            ∧ (linkAt n e).crcErr = r.crcErr ∧ (linkAt n e).seqErr = r.seqErr
            ∧ (linkAt n e).retry = r.retry.filter (fun f => !seqLe f.seq (flitAck b))
            ∧ (1 ≤ flitType b → flitType b ≤ 4 →
                ((∃ d, e = .quay d) ∨ flitDie e b = (linkUnit e).1 → (linkAt n e).rx = b.take 240)
                ∧ (∀ d, e = .pon d 1 → flitDie e b ≠ d.val →
                    (linkAt n (.pon d 0)).fwd = (linkAt s.m (.pon d 0)).fwd ++ [b.take 244] ∧ (linkAt n e).rx = r.rx)
                ∧ (∀ d, e = .pon d 0 → flitDie e b ≠ d.val →
                    (linkAt n (.pon d 1)).fwd = (linkAt s.m (.pon d 1)).fwd ++ [b.take 244] ∧ (linkAt n e).rx = r.rx)))
        ∧ (flitOk b = true → flitSeq b ≠ r.expected →
            (linkAt n e).expected = r.expected ∧ (linkAt n e).seqErr = satAdd r.seqErr 1 ∧ (linkAt n e).crcErr = r.crcErr
            ∧ (linkAt n e).discarding = true ∧ (linkAt n e).retry = r.retry
            ∧ (linkAt n e).nakTx = if r.discarding then r.nakTx else satAdd r.nakTx 1)
        ∧ (flitOk b = false →
            (linkAt n e).expected = r.expected ∧ (linkAt n e).crcErr = satAdd r.crcErr 1 ∧ (linkAt n e).seqErr = r.seqErr
            ∧ (linkAt n e).discarding = true ∧ (linkAt n e).retry = r.retry
            ∧ (linkAt n e).nakTx = if r.discarding then r.nakTx else satAdd r.nakTx 1))
    ∧ (∀ q : Word,
      ((∃ f ∈ r.retry, f.seq = q) → ∃ n, exec (.nak e q) s = .next { s with m := n }
        ∧ linkAt n e = { r with
            retry := r.retry.map (fun f => if seqLe q f.seq then { f with sends := f.sends + 1 } else f),
            retries := satAdd r.retries 1, retryAt := some (r.retryAt.getD s.m.now) })
      ∧ ((∀ f ∈ r.retry, f.seq ≠ q) → ∃ n, exec (.nak e q) s = .next { s with m := n } ∧ linkAt n e = r))
    ∧ ((r.training = true ∨ ∀ f ∈ r.retry, f.sends < 9) → exec (.retryExhausted e) s = .next s)
    ∧ (r.training = false → (∃ f ∈ r.retry, 9 ≤ f.sends) → (∀ j ∈ retryJobs r, jobReplays s.m j = true) →
      ∃ n, exec (.retryExhausted e) s = .next { s with m := n }
        ∧ linkAt n e = { r with exhaust := satAdd r.exhaust 1, retrain := satAdd r.retrain 1, training := true, attempts := 1 }
        ∧ ∀ j ∈ retryJobs r, replayWaits n j = true)
    ∧ (∀ good, r.training = false → exec (.linkRetrainDone e good) s = .next s)
    ∧ (r.training = true → ∃ n, exec (.linkRetrainDone e true) s = .next { s with m := n }
        ∧ linkAt n e = { r with training := false, attempts := 0, retry := r.retry.map (fun f => { f with sends := 1 }) })
    ∧ (r.training = true → r.attempts < 3 → ∃ n, exec (.linkRetrainDone e false) s = .next { s with m := n }
        ∧ linkAt n e = { r with attempts := r.attempts + 1, retrain := satAdd r.retrain 1 })
    ∧ (∀ d, r.training = true → 3 ≤ r.attempts → peerOf e = .quay d →
      ∃ n, exec (.linkRetrainDone e false) s = .next { s with m := n } ∧ n.hedge.faultPin = true
        ∧ linkAt n e = { r with training := false, attempts := 0, retry := [], retryAt := none })
    ∧ (∀ (g : FiReg) (v : Word),
      (fiAllowed s.m.hedge = false → exec (.fiArm g v) s = .next s)
      ∧ (fiAllowed s.m.hedge = true → ∃ n, exec (.fiArm g v) s = .next { s with m := n }
        ∧ (match g with
          | .pon d l => (linkAt n (.pon d l)).fiCtrl
          | .xba d => (dieAt n d).xbaFi
          | .msc t => (stkAt n t).fiCtrl) = v &&& 0x7FFFFFFF ∧ n.clusters = s.m.clusters ∧ n.hedge = s.m.hedge))
    ∧ (∀ b next : List Byte, fiLive r.fiCtrl = true → r.fiCtrl.toNat % 4 = 1 →
      ∃ n, exec (.faultInjection (.link e b next)) s = .next { s with m := n } ∧ linkAt n (peerOf e) = t
        ∧ (linkAt n e).fiCount = satAdd r.fiCount 1)
    ∧ (∀ (cl : Fin 512) (w : Nat),
      let c := clAt s.m cl
      let f := (dieAt s.m (cl.val / 64)).xbaFi
      fiLive f = true → bits f.toNat 30 25 = cl.val % 64 → rowFenced c (w / 64) = false →
      ∃ n, exec (.faultInjection (.scratch cl w)) s = .next { s with m := n } ∧ (∀ q, q ≠ cl.val → clAt n q = clAt s.m q)
        ∧ (dieAt n (cl.val / 64)).xbaFiCount = satAdd (dieAt s.m (cl.val / 64)).xbaFiCount 1
        ∧ (f.toNat % 4 ≠ 3 → tget 0 (clAt n cl).spErr w = f.toNat % 4 ∧ (clAt n cl).scratch = c.scratch)
        ∧ (f.toNat % 4 = 3 → (clAt n cl).spErr = c.spErr ∧ (memWf c.scratch = true → ∀ v, mword (clAt n cl).scratch v =
            if v = w then mword c.scratch w ^^^ BitVec.ofNat 32 (2 ^ bits f.toNat 24 20) else mword c.scratch v)))
    ∧ ∀ (t : Fin 16) (off : Nat),
      let k := bits (stkAt s.m t).fiCtrl.toNat 22 20
      fiLive (stkAt s.m t).fiCtrl = true → bits (stkAt s.m t).fiCtrl.toNat 1 0 = 1 → 1 ≤ k → k ≤ 5 →
      stkFenced (stkAt s.m t) off = false →
      ∃ n, exec (.faultInjection (.unit t off)) s = .next { s with m := n } ∧ OnlyStk s.m n t
        ∧ tget 0 (stkAt n t).err (off / 64) = k ∧ (stkAt n t).mem = (stkAt s.m t).mem
        ∧ (stkAt n t).fiCount = satAdd (stkAt s.m t).fiCount 1

/-- The stack commands: frames and map, scrub and patrol, fence and wipe, temperature and throttle level
(15_memory_stacks). -/
def Obligations.StackCommands : Prop :=
∀ (s : State) (t : Fin 16),
    let k := stkAt s.m t
    let mhz := (dieAt s.m (t.val / 2)).mhz
    let runs := k.state = 3 ∧ positionsOf k 0 ≠ 0
    (k.state ≠ 2 → k.state ≠ 3 → exec (.frameBoundary t) s = .next s)
    ∧ ((k.state = 2 ∨ k.state = 3) → ∃ n, exec (.frameBoundary t) s = .next { s with m := n } ∧ OnlyStk s.m n t
        ∧ (stkAt n t).frame = k.frame + 1 ∧ (stkAt n t).mem = k.mem ∧ (stkAt n t).state = k.state
        ∧ (stkAt n t).refreshed = (List.range 8).map (fun i => (8 * (k.frame + 1) + i) % 64)
        ∧ (stkAt n t).thrFrames = (if k.level = 0 then k.thrFrames else satAdd k.thrFrames 1)
        ∧ (stkAt n t).slowFrames = (if mhz < s.m.hedge.rate then satAdd k.slowFrames 1 else k.slowFrames)
        ∧ ((∀ f ∈ k.flips, s.m.now < f + ceilDiv (16 * mhz) 1250) → (stkAt n t).map = k.map ∧ (stkAt n t).flips = k.flips)
        ∧ ((∃ f ∈ k.flips, f + ceilDiv (16 * mhz) 1250 ≤ s.m.now) → (stkAt n t).map = k.shadow
            ∧ ∀ f, f ∈ (stkAt n t).flips ↔ f ∈ k.flips ∧ s.m.now < f + ceilDiv (16 * mhz) 1250))
    ∧ (∃ n, exec (.mscMapFlip t) s = .next { s with m := n } ∧ OnlyStk s.m n t
        ∧ stkAt n t = { k with flips := k.flips ++ [s.m.now] })
    ∧ (∀ u rest, runs → k.rewriteQ = u :: rest →
      ∃ n, exec (.stackRewrite t) s = .next { s with m := n } ∧ OnlyStk s.m n t ∧ (stkAt n t).rewriteQ = rest
        ∧ (stkAt n t).mem = k.mem
        ∧ (stkAt n t).err = if 3 < tget 0 k.err u then k.err else k.err.filter (fun p => decide (p.1 ≠ u)))
    ∧ (runs → k.fence = [] → (∀ p ∈ k.err, p.1 ≠ k.patrol) →
      ∃ n, exec (.stackPatrol t) s = .next { s with m := n } ∧ OnlyStk s.m n t
        ∧ stkAt n t = { k with patrol := (k.patrol + 1) % stackUnits })
    ∧ (∀ w, runs → k.fence = [] → k.err.filter (fun p => decide (p.1 = k.patrol)) = [(k.patrol, w)] → 3 < w →
      ∃ n e, exec (.stackPatrol t) s = .next { s with m := n } ∧ (stkAt n t).eccUnc = satAdd k.eccUnc 1
        ∧ (stkAt n t).mem = k.mem ∧ (stkAt n t).patrol = (k.patrol + 1) % stackUnits
        ∧ n.hedge.logQ = s.m.hedge.logQ ++ [e] ∧ e.cls = 2 ∧ e.addr = BitVec.ofNat 64 (t.val * 2 ^ 37 + 64 * k.patrol))
    ∧ (∀ f rest, runs → k.fence = f :: rest →
      ∃ n, exec (.stackFenceZero t) s = .next { s with m := n } ∧ (stkAt n t).fence = rest
        ∧ (memWf k.mem = true → ∀ a, mget (stkAt n t).mem a = if f.off ≤ a ∧ a < f.off + f.len then 0 else mget k.mem a)
        ∧ ∀ q, q ≠ t.val → stkAt n q = stkAt s.m q)
    ∧ (∃ n, exec .stackWipe s = .next { s with m := n }
        ∧ (k.state = 2 → (stkAt n t).mem = [] ∧ (stkAt n t).err = [] ∧ (stkAt n t).fence = [] ∧ (stkAt n t).rewriteQ = []
            ∧ (stkAt n t).state = 3)
        ∧ (k.state ≠ 2 → stkAt n t = k))
    ∧ (∀ v : BitVec 10, ∃ n, exec (.stackTempSample t v) s = .next { s with m := n } ∧ OnlyStk s.m n t
        ∧ (k.state = 0 → stkAt n t = k)
        ∧ (k.state ≠ 0 → (stkAt n t).temp = v ∧ (stkAt n t).tmax.toNat = max k.tmax.toNat v.toNat
            ∧ (stkAt n t).critRun = (if 420 ≤ v.toNat then k.critRun + 1 else 0)
            ∧ (stkAt n t).hotRun = (if 4 * k.tthrot.toNat ≤ v.toNat then k.hotRun + 1 else 0)
            ∧ (stkAt n t).coolRun = (if v.toNat + 8 ≤ 4 * k.tthrot.toNat then k.coolRun + 1 else 0)
            ∧ (stkAt n t).mem = k.mem ∧ (stkAt n t).level = k.level))
    ∧ (∃ n, exec (.throttleStep t true) s = .next { s with m := n } ∧ OnlyStk s.m n t
        ∧ stkAt n t = if 10 ≤ k.hotRun ∧ k.level.toNat < 32 then { k with level := k.level + 1, hotRun := 0 } else k)
    ∧ (∃ n, exec (.throttleStep t false) s = .next { s with m := n } ∧ OnlyStk s.m n t
        ∧ stkAt n t = if 100 ≤ k.coolRun ∧ 0 < k.level.toNat then { k with level := k.level - 1, coolRun := 0 } else k)
    ∧ (∀ off, off < 2 ^ 37 → (placeOf off).offset = off ∧ (placeOf off).pseudo < 64 ∧ (placeOf off).column < 16
        ∧ (placeOf off).bank < 64 ∧ (placeOf off).row < 2 ^ 15 ∧ (placeOf off).byte < 64)
    ∧ ∀ p : StackPlace, p.pseudo < 64 → p.column < 16 → p.bank < 64 → p.row < 2 ^ 15 → p.byte < 64 →
        placeOf p.offset = p ∧ p.offset < 2 ^ 37 ∧ p.channel < 32
        ∧ p.bank = 16 * p.stackId + 4 * p.group + p.bankIn

/-- ACLK_STEP, AVS_POLL, POWER_LEVEL_STEP, Idle and the watchdogs (19_power_clocks_reset, 15_memory_stacks). -/
def Obligations.PowerAndClocks : Prop :=
∀ (s : State),
    (∀ d : Fin 8,
      let x := dieAt s.m d
      let t := dieTarget s.m d
      let f := if x.mhz < t then min t (x.mhz + 25) else max t (x.mhz - 25)
      (x.mhz = t → exec (.aclkStep d) s = .next s)
      ∧ (alive s.m = true → x.railOn = true → x.mhz ≠ t →
        ∃ n, exec (.aclkStep d) s = .next { s with m := n }
          ∧ dieAt n d = { x with mhz := f, mV := max x.mV (vOf s.m.hedge d f) }
          ∧ (∀ e, e ≠ d.val → dieAt n e = dieAt s.m e) ∧ n.clusters = s.m.clusters ∧ n.stks = s.m.stks
          ∧ n.quay.evt = (if f < s.m.hedge.rate ∧ f < x.mhz then s.m.quay.evt ||| 8 else s.m.quay.evt)))
    ∧ (∀ (rs : List RailReading) (w : BitVec 13), (rs.map (·.rail)).Nodup →
      ∃ n, exec (.avsPoll rs w) s = .next { s with m := n } ∧ n = { s.m with hedge := n.hedge, quay := n.quay }
        ∧ n.quay = { s.m.quay with power := w }
        ∧ n.hedge.overPolls = (if powerLimit s.m < w.toNat then s.m.hedge.overPolls + 1 else 0)
        ∧ n.hedge.underPolls = (if 100 * w.toNat < 95 * powerLimit s.m then s.m.hedge.underPolls + 1 else 0)
        ∧ (∀ r ∈ rs, tget 0 n.hedge.readings (2 * r.rail) = r.mV ∧ tget 0 n.hedge.readings (2 * r.rail + 1) = r.mA))
    ∧ (∃ n, exec (.powerLevelStep true) s = .next { s with m := n } ∧ OnlyHedge s.m n
        ∧ n.hedge = if 10 ≤ s.m.hedge.overPolls ∧ s.m.hedge.kp < 20
            then { s.m.hedge with kp := s.m.hedge.kp + 1, overPolls := 0 } else s.m.hedge)
    ∧ (∃ n, exec (.powerLevelStep false) s = .next { s with m := n } ∧ OnlyHedge s.m n
        ∧ n.hedge = if 100 ≤ s.m.hedge.underPolls ∧ 0 < s.m.hedge.kp
            then { s.m.hedge with kp := s.m.hedge.kp - 1, underPolls := 0 } else s.m.hedge)
    ∧ (s.m.hedge.power = .active → s.m.hedge.boot = .running → workBegun s.m = false → anyFence s.m = false →
      ∃ n, exec .idleEntry s = .next { s with m := n } ∧ n.hedge = { s.m.hedge with power := .idle }
        ∧ (∀ d, d < 8 → dieAt n d = { dieAt s.m d with clocks := false }) ∧ n.quay = s.m.quay ∧ n.stks = s.m.stks)
    ∧ ((workBegun s.m = true ∨ anyFence s.m = true) → exec .idleEntry s = .next s)
    ∧ (s.m.hedge.power = .idle → workBegun s.m = true →
      ∃ n, exec .idleExit s = .next { s with m := n } ∧ n.hedge = { s.m.hedge with power := .active }
        ∧ (∀ d, d < 8 → dieAt n d = { dieAt s.m d with clocks := true }) ∧ n.quay = s.m.quay ∧ n.stks = s.m.stks)
    ∧ (workBegun s.m = false → exec .idleExit s = .next s)
    ∧ (s.m.hedge.boot = .running →
      ∃ n, exec .firmwareWatchdog s = .next { s with m := n } ∧ LostAtReset n ∧ n.hostOut = s.m.hostOut)
    ∧ (exec .plannerHeartbeat s = .next { s with m := { s.m with hedge := { s.m.hedge with heartbeat := s.m.now } } })
    ∧ (s.m.hedge.boot = .running → s.m.hedge.heartbeat + 100000 * s.m.hedge.rate ≤ s.m.now →
      ∃ n, exec .plannerWatchdog s = .next { s with m := n } ∧ LostAtReset n ∧ n.hostOut = s.m.hostOut)
    ∧ (s.m.now < s.m.hedge.heartbeat + 100000 * s.m.hedge.rate → exec .plannerWatchdog s = .next s)

/-- MARGIN_REVIEW, MARCH_TEST, the persistent log and the entropy source (17_hedge, 20_reliability). -/
def Obligations.MarginLogAndEntropy : Prop :=
∀ (s : State),
    let h := s.m.hedge
    (∀ (cause : ReviewCause) (ss : List SentinelSample),
      (reviewDue s.m ss cause = false → exec (.marginReview cause ss) s = .next s)
      ∧ (h.boot = .running → reviewDue s.m ss cause = true → ∃ n k,
          exec (.marginReview cause ss) s = .next { s with m := n } ∧ n.hedge.reviews = h.reviews + 1
          ∧ n.quay.evt.getLsbD 1 = true ∧ n.hedge.reviewOpsec = h.opsec.toNat ∧ k ≤ (h.rate - 2000) / 25
          ∧ (cause ≠ .slowFrames → n.hedge.rate = 2000 + 25 * k)
          ∧ (cause = .slowFrames → n.hedge.rate = max 2000 (2000 + 25 * k - 25))
          ∧ (0 < k → ∀ d, d < 8 → (overAt ss h.fenceMask d k).length ≤ 2)
          ∧ (∀ i, k < i → i ≤ (h.rate - 2000) / 25 → ∃ d, d < 8 ∧ 2 < (overAt ss h.fenceMask d i).length)
          ∧ (∀ d, d < 8 → ∀ c ∈ overAt ss h.fenceMask d k, c ∈ n.hedge.fenceMask)
          ∧ (∀ c ∈ h.fenceMask, c ∈ n.hedge.fenceMask)))
    ∧ (∀ (cl : Fin 512) (failing : Bool), cl.val ∈ h.testing → clusterHeld s.m cl = false →
        mayRestrict (clAt s.m cl) = true → cl.val ∉ h.marching →
      ∃ n, exec (.marchTest cl failing) s = .next { s with m := n } ∧ OnlyCl s.m { n with hedge := h } cl
        ∧ clAt n cl = { clAt s.m cl with restricted := true, hashoff := false }
        ∧ n.hedge = { h with marching := h.marching ++ [cl.val] })
    ∧ (∀ (cl : Fin 512) (failing : Bool), cl.val ∈ h.testing → clusterHeld s.m cl = false →
        mayRestrict (clAt s.m cl) = true → cl.val ∈ h.marching →
      ∃ n, exec (.marchTest cl failing) s = .next { s with m := n } ∧ cl.val ∉ n.hedge.testing
        ∧ clAt n cl = { clAt s.m cl with restricted := true, hashoff := false, wiping := true }
        ∧ (failing = true → cl.val ∈ n.hedge.fenceMask) ∧ (failing = false → n.hedge.fenceMask = h.fenceMask))
    ∧ (∀ e : LogEvent, (h.boot = .off ∨ e ∉ h.logQ) → exec (.logWrite e) s = .next s)
    ∧ (∀ e : LogEvent, h.boot ≠ .off → e ∈ h.logQ → h.logPos % 1024 ≠ 0 → memWf h.flash = true →
      ∃ n, exec (.logWrite e) s = .next { s with m := n } ∧ n.hedge.logSeq = h.logSeq + 1
        ∧ n.hedge.logPos = (h.logPos + 1) % 262144 ∧ n.hedge.logQ = h.logQ.erase e
        ∧ mbytes n.hedge.flash (0x1000000 + 64 * h.logPos) 64 = logBytes e h.logSeq h.opsec
        ∧ ∀ a, (a < 0x1000000 + 64 * h.logPos ∨ 0x1000000 + 64 * h.logPos + 64 ≤ a) →
            mget n.hedge.flash a = mget h.flash a)
    ∧ (h.boot = .running → h.logPos % 1024 ≠ 0 → memWf h.flash = true →
      ∃ n e, exec .heartbeat s = .next { s with m := n } ∧ OnlyHedge s.m n ∧ n.hedge.opsec = h.opsec + 3600
        ∧ n.hedge.logSeq = h.logSeq + 1 ∧ e.cls = 15 ∧ n.hedge.fuses = h.fuses
        ∧ mbytes n.hedge.flash (0x1000000 + 64 * h.logPos) 64 = logBytes e h.logSeq (h.opsec + 3600))
    ∧ (∀ unit count : Word, h.boot = .running → count ≠ 0 → h.logPos % 1024 ≠ 0 → memWf h.flash = true →
      ∃ n e, exec (.corrSummary unit count) s = .next { s with m := n } ∧ OnlyHedge s.m n ∧ n.hedge.opsec = h.opsec
        ∧ n.hedge.logSeq = h.logSeq + 1 ∧ e.cls = 16 ∧ e.sev = 1 ∧ e.unit = unit ∧ e.data = leBytes 4 count.toNat
        ∧ mbytes n.hedge.flash (0x1000000 + 64 * h.logPos) 64 = logBytes e h.logSeq h.opsec)
    ∧ (∃ n, exec .drbgReseed s = .next { s with m := n }
        ∧ n = { s.m with hedge := { h with drbgGens := if 2 ^ 20 ≤ h.drbgGens then 0 else h.drbgGens } })
    ∧ (let recent := h.healthAt.filter (fun t => decide (s.m.now ≤ t + 10000 * h.rate))
       ∃ n, exec .healthTestFail s = .next { s with m := n } ∧ n.hedge.drbgGens = 0
         ∧ n.hedge.healthAt = recent ++ [s.m.now]
         ∧ (recent.length < 2 → n.hedge.faultPin = h.faultPin ∧ n.aer = s.m.aer ∧ n.hedge.logQ = h.logQ)
         ∧ (2 ≤ recent.length → n.hedge.faultPin = true ∧ n.aer = s.m.aer ++ [.uncorrectableInternal true]))
    ∧ exec .nonceExpiry s = .next { s with m := { s.m with hedge := { h with nonce := none } } }

/-- The mailbox of `n` runs a command that answers `code` with `resp`. -/
def Sys2Proof.Certificates.Answers (n : Module) (code : BitVec 8) (resp : List Byte) (after : Nat) : Prop :=
  n.hedge.mail = some { code := code, resp := resp, after := after }

/-- INFO, LOG_READ, LC_SET, LIFECYCLE_TRANSITION, the debug commands, PLDM, MAILBOX_DONE and JTAG_ACCESS (17_hedge). -/
def Obligations.MailboxCommands : Prop :=
  ∀ (s : State) (off : Word) (target : BitVec 8) (serial : BitVec 64) (token req : List Byte),
    let h := s.m.hedge
    (∀ c ∈ [Instr.info, .logRead off, .lcSet target serial token, .dbgChal, .dbgUnlock token, .dbgLock, .pldm req],
      Bar0Open s.m → h.mail ≠ none → exec c s = .next s)
    ∧ (Bar0Open s.m → h.mail = none → h.boot = .running →
      (∃ n r, exec .info s = .next { s with m := n } ∧ Answers n 0 r 0 ∧ r.length = 64)
      ∧ (∃ n r, exec (.pldm req) s = .next { s with m := n } ∧ Answers n 0 r 0 ∧ n.hedge.fuses = h.fuses)
      ∧ (∃ n, exec (.logRead off) s = .next { s with m := n } ∧ (memWf h.hmbData = true →
          Answers n 0 (mbytes h.flash (0x1000000 + off.toNat) (min 4096 (0x1000000 - off.toNat))) 0))
      ∧ (∃ n, exec .dbgChal s = .next { s with m := n }
          ∧ (hedgeBusy h = true → Answers n 7 [] 0 ∧ n.hedge.nonce = h.nonce)
          ∧ (hedgeBusy h = false → Answers n 0 (leBytes 32 (Config.drbg h.drbgCount).toNat) 0
              ∧ n.hedge.nonce = some { value := Config.drbg h.drbgCount } ∧ n.hedge.drbgCount = h.drbgCount + 1))
      ∧ (∃ n, exec .dbgLock s = .next { s with m := n }
          ∧ Answers n (if hedgeBusy h then 7 else 0) [] (if hedgeBusy h then 0 else 1))
      ∧ (token.length ≠ 192 → ∃ n, exec (.dbgUnlock token) s = .next { s with m := n } ∧ Answers n 2 [] 0
          ∧ n.hedge.debug = h.debug)
      ∧ (token.length = 192 → memWf h.hmbData = true →
        ∃ n, exec (.dbgUnlock token) s = .next { s with m := n }
          ∧ Answers n (BitVec.ofNat 8 (unlockCheck h token)) [] 0 ∧ n.hedge.nonce = none
          ∧ (hedgeBusy h = false → lcsOf h.fuses ≠ 3 → lcsOf h.fuses ≠ 4 → unlockCheck h token = 3)
          ∧ (unlockCheck h token ≠ 0 → n.hedge.debug = h.debug ∧ n.clusters = s.m.clusters ∧ n.stks = s.m.stks)
          ∧ (unlockCheck h token = 0 → n.hedge.debug = true ∧ n.hedge.scope = token.getD 6 0
              ∧ (∀ c, c < 512 → (clAt n c).wiping = true ∧ (mayRestrict (clAt n c) = true → (clAt n c).restricted = true))
              ∧ (∀ t, t < 16 → (stkAt n t).state = 2) ∧ n.quay.dir = [] ∧ n.quay.plans = [] ∧ n.quay.sram = []
              ∧ (s.m.pke.run = none → s.m.pke.dmaRun = none → n.pke.mem = [] ∧ n.pke.acc = 0)))
      ∧ ((token.length = 0 ∨ token.length = 192) → memWf h.hmbData = true →
        ∃ n, exec (.lcSet target serial token) s = .next { s with m := n }
          ∧ Answers n (BitVec.ofNat 8 (lcCheck h target.toNat serial token)) []
              (if lcCheck h target.toNat serial token = 0 then 2 else 0)
          ∧ n.hedge.lifecycle = (if lcCheck h target.toNat serial token = 0 then some target.toNat else h.lifecycle)
          ∧ n.hedge.fuses = h.fuses
          ∧ ((hedgeBusy h = true ∨ lcsPermitted (lcsOf h.fuses) target.toNat = false) →
              lcCheck h target.toNat serial token = 3)
          ∧ (hedgeBusy h = false → 2 ≤ lcsOf h.fuses → lcsOf h.fuses < target.toNat → target.toNat ≤ 5 →
              lcCheck h target.toNat serial token = if serial = h.fuses.serial then 0 else 6)))
    ∧ (h.mail = none → exec .mailboxDone s = .next s)
    ∧ (∀ x, h.mail = some x → x.after = 0 ∨ x.after = 2 →
      ∃ n, exec .mailboxDone s = .next { s with m := n } ∧ n.hedge.mail = none ∧ n.hedge.hmbDone = true
        ∧ n.hedge.hmbCode = x.code ∧ n.hedge.hmbRlen = BitVec.ofNat 13 x.resp.length ∧ n.quay.evt = s.m.quay.evt ||| 32
        ∧ (memWf h.hmbData = true → mbytes n.hedge.hmbData 0 x.resp.length = x.resp)
        ∧ (x.after = 0 → n.quay.qstate = s.m.quay.qstate ∧ n.quay.jobs = s.m.quay.jobs)
        ∧ (x.after = 2 → n.quay.qstate = 1 ∧ n.quay.uploads = []))
    ∧ (∀ x, h.mail = some x → x.after = 1 → alive s.m = true → h.boot ≠ .recovery →
      ∃ n, exec .mailboxDone s = .next { s with m := n } ∧ LostAtReset n)
    ∧ (∀ t, h.lifecycle = some t → s.m.quay.qstate = 2 → 2 ≤ t → t ≤ 5 →
      ∃ n, exec .lifecycleTransition s = .next { s with m := n } ∧ LostAtReset n
        ∧ n.hedge.fuses.lcs.getLsbD (2 * (t - 2)) = true ∧ n.hedge.fuses.lcs.getLsbD (2 * (t - 2) + 1) = true
        ∧ t ≤ lcsOf n.hedge.fuses ∧ (t = 5 → n.hedge.fuses.uds = BitVec.allOnes 256)
        ∧ n.hedge.fuses.serial = h.fuses.serial)
    ∧ ((h.lifecycle = none ∨ s.m.quay.qstate ≠ 2) → exec .lifecycleTransition s = .next s)
    ∧ ∀ (die : Nat) (op : JtagOp),
      (op = .readUds → exec (.jtagAccess die op) s = .next { s with m := { s.m with jtagOut := none } })
      ∧ (jtagOpen h = false → (∀ o b, op ≠ .writeIdentity o b) →
          exec (.jtagAccess die op) s = .next { s with m := { s.m with jtagOut := none } })
      ∧ (∀ (cl : Fin 512) (w : Nat) (v : Word), op = .writeScratch cl w v → alive s.m = true → jtagOpen h = true →
          die = cl.val / 64 → w < Config.sliceWords → (clAt s.m cl).restricted = true → (clAt s.m cl).fence = [] →
          memWf (clAt s.m cl).scratch = true →
          ∃ n, exec (.jtagAccess die op) s = .next { s with m := n } ∧ mword (clAt n cl).scratch w = v
            ∧ ∀ a, a ≠ w → mword (clAt n cl).scratch a = mword (clAt s.m cl).scratch a)
      ∧ (∀ (cl : Fin 512) (w : Nat), op = .readScratch cl w → alive s.m = true → jtagOpen h = true → die = cl.val / 64 →
          w < Config.sliceWords →
          let v := if (clAt s.m cl).restricted then some (BitVec.ofNat 64 (scrWord (clAt s.m cl) [] w).toNat) else none
          exec (.jtagAccess die op) s = .next { s with m := { s.m with jtagOut := v } })
      ∧ (∀ (cl : Fin 512) (w : Nat) (v : Word), op = .writeScratch cl w v → (clAt s.m cl).restricted = false →
          exec (.jtagAccess die op) s = .next { s with m := { s.m with jtagOut := none } })

/-- The sideband: sensors, firmware update, endpoint ID and platform events (17_hedge, 19_power_clocks_reset). -/
def Obligations.SidebandCommands : Prop :=
∀ (s : State),
    let h := s.m.hedge
    (∀ k, alive s.m = true → ∃ n, exec (.pldmSensorRead k) s = .next { s with m := n } ∧ OnlyHedge s.m n
      ∧ n.hedge = { h with sensor := if k < 8 then some (dieAt s.m k).temp.toNat
          else if k < 24 then some (stkAt s.m (k - 8)).temp.toNat
          else if k = 24 then some s.m.quay.power.toNat else none })
    ∧ (∀ (off : Nat) (bs : List Byte), (h.boot = .running ∨ h.boot = .recovery) → h.lifecycle = none →
        off + bs.length ≤ 2 ^ 21 →
      let slot := match h.update with
        | some u => u.slot
        | none => 1 - activeSlot h.flash
      ∃ n, exec (.pldmUpdateData off bs) s = .next { s with m := n } ∧ OnlyHedge s.m n
        ∧ n.hedge = { h with flash := n.hedge.flash, update := some { slot := slot, verified := false } }
        ∧ (memWf h.flash = true → ∀ a, mget n.hedge.flash a =
            if 0x100000 + 0x400000 * slot + off ≤ a ∧ a < 0x100000 + 0x400000 * slot + off + bs.length
            then bs.getD (a - (0x100000 + 0x400000 * slot + off)) 0 else mget h.flash a))
    ∧ (∀ (off : Nat) (bs : List Byte), 2 ^ 21 < off + bs.length → exec (.pldmUpdateData off bs) s = .next s)
    ∧ (∀ u, h.update = some u → (h.boot = .running ∨ h.boot = .recovery) →
      (∃ n, exec .verifyComplete s = .next { s with m := n } ∧ OnlyHedge s.m n
        ∧ n.hedge = { h with update := some { u with verified := decide (imageCheck h.fuses h.flash u.slot = 0) } })
      ∧ (u.verified = false → exec .activateFirmware s = .next s)
      ∧ (u.verified = true → u.slot < 2 → memWf h.flash = true →
        ∃ n, exec .activateFirmware s = .next { s with m := n } ∧ OnlyHedge s.m n ∧ n.hedge.update = none
          ∧ n.hedge = { h with update := none, flash := n.hedge.flash }
          ∧ ∀ a, 0x20000 ≤ a → mget n.hedge.flash a = mget h.flash a))
    ∧ (h.update = none → exec .verifyComplete s = .next s ∧ exec .activateFirmware s = .next s
        ∧ exec .cancelUpdate s = .next s)
    ∧ (∃ n, exec .cancelUpdate s = .next { s with m := n } ∧ OnlyHedge s.m n ∧ n.hedge.update = none
        ∧ n.hedge = { h with update := none, flash := n.hedge.flash })
    ∧ (∀ e : BitVec 8, alive s.m = true → exec (.endpointIdAssign e) s =
        .next { s with m := { s.m with hedge := { h with eid := some e } } })
    ∧ exec .platformEventRead s = .next { s with m := { s.m with hedge := { h with
        events := h.events.drop 1, alert := decide (2 ≤ h.events.length) } } }

/-- The request answers `code`, and of the module only the response, the free values and the DRBG count change. -/
def Sys2Proof.Certificates.Replies (c : Instr) (s : State) (code : BitVec 8) (p : Spdm) : Prop :=
  ∃ n body, exec c s = .next { s with m := n } ∧ n.ep.spdm = { p with response := some (code, body) }
    ∧ n.ep = { s.m.ep with spdm := n.ep.spdm } ∧ n.quay = s.m.quay ∧ n.clusters = s.m.clusters
    ∧ n.hedge = { s.m.hedge with drbgCount := n.hedge.drbgCount, drbgGens := n.hedge.drbgGens }

/-- The SPDM requests, IDE_KM and DOE: the order of the connection, the session, and the keys of the IDE streams
(16_host_interface, 17_hedge). -/
def Obligations.SpdmCommands : Prop :=
  ∀ (s : State), s.m.hedge.boot = .running →
    let p := s.m.ep.spdm
    let neg := p.algs.isSome
    let ak := s.m.hedge.ak.isSome
    Replies .getVersion s 0x04 { version := true }
    ∧ (∀ f : Word, (p.version = true → p.algs = none → Replies (.getCapabilities f) s 0x61 { p with caps := some f })
      ∧ ((p.version = false ∨ p.algs ≠ none) → Replies (.getCapabilities f) s 0x7F p))
    ∧ (∀ a : Word, (p.caps ≠ none → p.algs = none → Replies (.negotiateAlgorithms a) s 0x63 { p with algs := some (a &&& 0xF) })
      ∧ ((p.caps = none ∨ p.algs ≠ none) → Replies (.negotiateAlgorithms a) s 0x7F p))
    ∧ ((neg && ak) = true → Replies .getDigests s 0x01 p
      ∧ (∀ off len : BitVec 16, off.toNat < (certChain s.m).length → Replies (.getCertificate 0 off len) s 0x02 p))
    ∧ ((neg && ak) = false → Replies .getDigests s 0x7F p ∧ ∀ sl off len, Replies (.getCertificate sl off len) s 0x7F p)
    ∧ (∀ sl off len, sl ≠ 0 → Replies (.getCertificate sl off len) s 0x7F p)
    ∧ (∀ nonce : List Byte, nonce.length = 32 →
      ((neg && canSign s.m) = true → Replies (.challenge 0 nonce) s 0x03 p)
      ∧ ((neg && canSign s.m) = false → Replies (.challenge 0 nonce) s 0x7F p)
      ∧ (∀ (signed : Bool) (i : BitVec 8), (i.toNat ≤ 7 ∨ i = 255) → neg = true → (signed = true → canSign s.m = true) →
          Replies (.getMeasurements signed i nonce) s 0x60 p))
    ∧ (∀ share : List Byte,
      let ready := neg && canSign s.m && hasAlg s.m 2 && hasAlg s.m 3
      (ready = false → Replies (.keyExchange share) s 0x7F p)
      ∧ (ready = true → p.session = true → Replies (.keyExchange share) s 0x7F p)
      ∧ (ready = true → p.session = false → (share.length ≠ 64 ∨ pointFails (sharePoint share) false ≠ []) →
          Replies (.keyExchange share) s 0x7F { p with keying := false, share := [] })
      ∧ (ready = true → p.session = false → share.length = 64 → pointFails (sharePoint share) false = [] →
          ∃ d, 1 ≤ d ∧ d < p256n ∧ Replies (.keyExchange share) s 0x64
            { p with keying := true, keyUpdates := 0, share := beBytes 32 (mulP256 d (sharePoint share)).1 }))
    ∧ (p.keying = false → ∀ g, Replies (.finish g) s 0x7F p)
    ∧ (p.keying = true → Replies (.finish true) s 0x65 { p with keying := false, session := true }
      ∧ Replies (.finish false) s 0x7F { p with keying := false, share := [] })
    ∧ (p.session = false → Replies .heartbeatSpdm s 0x7F p ∧ Replies .keyUpdate s 0x7F p ∧ Replies .endSession s 0x7F p
      ∧ ∀ i op, Replies (.ideKm i op) s 0x7F p)
    ∧ (p.session = true → Replies .heartbeatSpdm s 0x68 p
      ∧ Replies .keyUpdate s 0x69 { p with keyUpdates := p.keyUpdates + 1 }
      ∧ Replies .endSession s 0x6C { p with session := false, share := [], keyUpdates := 0 }
      ∧ ∀ i : Fin 5, let x := tget {} s.m.ep.ide i
        (∀ key : List Byte, key.length ≠ 32 → Replies (.ideKm i (.program key)) s 0x7F p)
        ∧ (x.key = [] → Replies (.ideKm i .go) s 0x7F p)
        ∧ ∀ op y, ((∃ key, op = .program key ∧ key.length = 32 ∧ y = { x with key := key })
            ∨ (op = .go ∧ x.key ≠ [] ∧ y = { x with secure := true }) ∨ (op = .stop ∧ y = {})) →
          ∃ n, exec (.ideKm i op) s = .next { s with m := n } ∧ tget {} n.ep.ide i = y
            ∧ (∀ q, q ≠ i.val → tget {} n.ep.ide q = tget {} s.m.ep.ide q)
            ∧ n.ep = { s.m.ep with ide := n.ep.ide, spdm := { p with response := some (0x7E, []) } })
    ∧ (∃ n, exec .doeAbort s = .next { s with m := n } ∧ OnlyEp s.m n
        ∧ n.ep = { s.m.ep with doe := none, spdm := { p with response := none } })
    ∧ ∀ i : BitVec 8, ∃ n r, exec (.doeDiscovery i) s = .next { s with m := n } ∧ OnlyEp s.m n
        ∧ n.ep = { s.m.ep with doe := some r } ∧ r.length = 4 ∧ (i.toNat ≤ 2 → r.getD 2 0 = i)

/-- The command-mode commands and their codes. -/
def Sys2Proof.Certificates.pkeCmd (i : Nat) (cls : BitVec 2) (a b c d : BitVec 8) : Instr :=
  match i with
  | 0x01 => .madd cls a b c d
  | 0x02 => .msub cls a b c d
  | 0x03 => .mmul cls a b c d
  | 0x04 => .minv cls a b c d
  | 0x05 => .mexp cls a b c d
  | 0x10 => .ecdsaSignP256 cls a b c d
  | 0x11 => .ecdsaVerifyP256 cls a b c d
  | 0x12 => .ecdhP256 cls a b c d
  | _ => .pointValidate cls a b c d

/-- The codes of the command-mode commands. -/
def Sys2Proof.Certificates.pkeCodes : List Nat := [0x01, 0x02, 0x03, 0x04, 0x05, 0x10, 0x11, 0x12, 0x13]

/-- The PKE: what each command computes, its refusals and failures, DONE, the wipe, DMA and the random pool
(18_public_key_engine). -/
def Obligations.PkeCommands : Prop :=
  ∀ (s : State) (cls : BitVec 2) (a b c d : BitVec 8),
    let k := s.m.pke
    let idle := k.run = none ∧ k.waitRng = none ∧ k.dmaRun = none
    let op := pkeOperand k
    let req (i : Nat) : PkeReq :=
      { opc := i, cls := cls.toNat, a := a.toNat, b := b.toNat, c := c.toNat, d := d.toNat,
        base := k.list.toNat % 256, count := k.list.toNat / 256 }
    (∀ i ∈ pkeCodes, idle → (pkeRefused (req i) = true ∨ pkeNeed i ≤ k.poolBits) →
      ∃ n r, exec (pkeCmd i cls a b c d) s = .next { s with m := n } ∧ n.pke.run = some r ∧ n.pke.mem = k.mem
        ∧ n.clusters = s.m.clusters ∧ n.quay = s.m.quay
        ∧ (pkeRefused (req i) = true → r.code = 1 ∧ r.writes = [] ∧ r.dur = 4 ∧ r.seed = none ∧ n.pke.poolBits = k.poolBits)
        ∧ (pkeRefused (req i) = false → n.pke.poolBits = k.poolBits - pkeNeed i
          ∧ n.hedge.drbgCount = s.m.hedge.drbgCount + pkeNeed i / 256
          ∧ r.seed = (if pkeNeed i = 0 then none else some (Config.drbg s.m.hedge.drbgCount, i, cls.toNat))
          ∧ (let m := op c.toNat
             let x := op a.toNat
             let y := op b.toNat
             (i ≤ 5 → (m % 2 = 0 ∨ m < 3) → r.code = 2 ∧ r.writes = [(d.toNat, leBytes 128 0)])
             ∧ (i ≤ 3 → m % 2 = 1 → 3 ≤ m → x < m → y < m → r.code = 0 ∧ r.writes = [(d.toNat, leBytes 128
                  (if i = 1 then (x + y) % m else if i = 2 then (x + m - y) % m else x * y % m))])
             ∧ (i = 5 → m % 2 = 1 → 3 ≤ m → x < m → y < 2 ^ (pkeClass cls.toNat).1 →
                  r.code = 0 ∧ r.writes = [(d.toNat, leBytes 128 (x ^ y % m))])
             ∧ (i = 4 → m % 2 = 1 → 3 ≤ m → x < m → 0 < x → Nat.gcd x m = 1 →
                  ∃ z, r.code = 0 ∧ r.writes = [(d.toNat, leBytes 128 z)] ∧ z < m ∧ z * x % m = 1)
             ∧ (i = 4 → m % 2 = 1 → 3 ≤ m → x < m → Nat.gcd x m ≠ 1 → r.code = 7 ∧ r.writes = [(d.toNat, leBytes 128 0)])
             ∧ (i = 0x13 → (r.code = 0 ↔ x < p256p ∧ op (a.toNat + 2) < p256p ∧ ¬(x = 0 ∧ op (a.toNat + 2) = 0)
                  ∧ onP256 (x, op (a.toNat + 2)) = true))
             ∧ (i = 0x12 → pointFails (x, op (a.toNat + 2)) false = [] → 0 < y → y < p256n →
                  r.code = 0 ∧ r.writes = [(d.toNat, leBytes 128 (mulP256 y (x, op (a.toNat + 2))).1)])
             ∧ (i = 0x11 → pointFails (x, op (a.toNat + 2)) false = [] → y < 2 ^ 256 → 0 < m → m < p256n →
                  0 < op (c.toNat + 2) → op (c.toNat + 2) < p256n →
                  r.code = if ecdsaVerify (x, op (a.toNat + 2)) y m (op (c.toNat + 2)) then 0 else 8)
             ∧ (i = 0x10 → 0 < x → x < p256n → y < 2 ^ 256 → ∀ e,
                  nonceOf x y (beBytes 32 (Config.drbg (s.m.hedge.drbgCount + 1)).toNat) = some e →
                  0 < (ecdsaSignWith x y e).1 → 0 < (ecdsaSignWith x y e).2 → r.code = 0 ∧ r.writes =
                    [(d.toNat, leBytes 128 (ecdsaSignWith x y e).1), (d.toNat + 2, leBytes 128 (ecdsaSignWith x y e).2)])
             ∧ (i = 0x10 → (x = 0 ∨ p256n ≤ x) → r.code ≠ 0 ∧ ∀ w ∈ r.writes, w.2 = leBytes 128 0))))
    ∧ (∀ i ∈ pkeCodes, idle → pkeRefused (req i) = false → k.poolBits < pkeNeed i →
      ∃ n, exec (pkeCmd i cls a b c d) s = .next { s with m := n } ∧ n.pke.run = none ∧ n.pke.waitRng = some (req i)
        ∧ n.pke.mem = k.mem)
    ∧ (∀ i ∈ pkeCodes, k.run ≠ none →
      ∃ n, exec (pkeCmd i cls a b c d) s = .next { s with m := n } ∧ n = { s.m with pke := { k with ignored := true } })
    ∧ (∀ (base : BitVec 8) (count : BitVec 11), idle →
      let r : PkeReq := { opc := 0x20, cls := k.cls.toNat, a := k.ops.toNat % 256, b := bits k.ops.toNat 15 8,
                          c := bits k.ops.toNat 23 16, d := bits k.ops.toNat 31 24, base := base.toNat, count := count.toNat }
      ∃ n x, exec (.macMode base count) s = .next { s with m := n } ∧ n.pke.run = some x ∧ n.pke.mem = k.mem
        ∧ n.pke.acc = k.acc
        ∧ (macOk k r = false → x.code = 1 ∧ x.writes = [] ∧ x.acc = none)
        ∧ (macOk k r = true → x.code = 0 ∧ x.acc = some
            (((List.range count.toNat).map (macEntry k base.toNat)).foldl wideStep (k.acc, k.mem, [])).1))
    ∧ (k.run = none → exec .pkeDone s = .next s)
    ∧ (∀ r, k.run = some r → ∃ n, exec .pkeDone s = .next { s with m := n } ∧ OnlyPke s.m n ∧ n.pke.run = none
        ∧ n.pke.done = true ∧ n.pke.code = r.code ∧ n.pke.failmask = r.failmask ∧ n.pke.dur = r.dur
        ∧ n.pke.cnt.toNat = min (k.cnt.toNat + 1) (2 ^ 32 - 1) ∧ n.pke.acc = r.acc.getD k.acc
        ∧ (∀ sd opc cl, r.seed = some (sd, opc, cl) → n.pke.dummy = ladderRegs sd opc cl)
        ∧ (r.seed = none → n.pke.dummy = k.dummy)
        ∧ (r.writes = [] → n.pke.mem = k.mem)
        ∧ (∀ slot v, r.writes = [(slot, leBytes 128 v)] → memWf k.mem = true → ∀ x, mget n.pke.mem x =
            if 64 * slot ≤ x ∧ x < 64 * slot + 128 then (leBytes 128 v).getD (x - 64 * slot) 0 else mget k.mem x))
    ∧ (k.run = none → k.dmaRun = none → ∃ n, exec .pkeWipe s = .next { s with m := n } ∧ OnlyPke s.m n
        ∧ n.pke = { k with mem := [], acc := 0, poolBits := 0, wiped := true })
    ∧ (∀ seed opc cl w, opc = 5 → w < (ladderShape opc cl).1 → (windowSlots seed opc cl w).length = 4
        ∧ ((windowSlots seed opc cl w).filter (fun b => b)).length = 2)
    ∧ (∀ seed opc cl w, opc = 0x10 ∨ opc = 0x11 ∨ opc = 0x12 → (windowSlots seed opc cl w).length = 8)
    ∧ (k.run ≠ none → ∃ n, exec .pkeWipe s = .next { s with m := n } ∧ OnlyPke s.m n ∧ n.pke = { k with ignored := true })
    ∧ (∀ (addr : BitVec 21) (slot : BitVec 8) (num : BitVec 9) (up : Bool),
      ∃ n, exec (.pkeDma addr slot num up) s = .next { s with m := n } ∧ OnlyPke s.m n ∧ n.pke.mem = k.mem
        ∧ (idle → addr.toNat % 64 = 0 → 1 ≤ num.toNat → slot.toNat + num.toNat ≤ 256 →
            addr.toNat + 64 * num.toNat ≤ 2 ^ 21 → n.pke.dmaRun =
              some { addr := addr.toNat, slot := slot.toNat, nslot := num.toNat, toSram := up })
        ∧ ((¬idle ∨ addr.toNat % 64 ≠ 0 ∨ num.toNat = 0 ∨ 256 < slot.toNat + num.toNat
            ∨ 2 ^ 21 < addr.toNat + 64 * num.toNat) → n.pke.dmaRefused = true ∧ n.pke.dmaRun = k.dmaRun))
    ∧ (∀ x, k.dmaRun = some x → ∃ n, exec .pkeDmaDone s = .next { s with m := n } ∧ n.pke.dmaRun = none
        ∧ n.pke.dmaDone = true
        ∧ (x.toSram = true → memWf s.m.hedge.sram = true → memWf k.mem = true → n.pke.mem = k.mem ∧ ∀ q,
            mget n.hedge.sram q = if x.addr ≤ q ∧ q < x.addr + 64 * x.nslot then mget k.mem (64 * x.slot + (q - x.addr))
              else mget s.m.hedge.sram q)
        ∧ (x.toSram = false → memWf s.m.hedge.sram = true → memWf k.mem = true → n.hedge = s.m.hedge ∧ ∀ q,
            mget n.pke.mem q = if 64 * x.slot ≤ q ∧ q < 64 * x.slot + 64 * x.nslot
              then mget s.m.hedge.sram (x.addr + (q - 64 * x.slot)) else mget k.mem q))
    ∧ (1024 ≤ k.poolBits → exec .randomPoolRefill s = .next s)
    ∧ (k.poolBits < 1024 → k.waitRng = none → ∃ n, exec .randomPoolRefill s = .next { s with m := n }
        ∧ n.pke = { k with poolBits := 1024 })
    ∧ (∀ r, k.poolBits < 1024 → k.waitRng = some r → ∃ n x, exec .randomPoolRefill s = .next { s with m := n }
        ∧ n.pke.run = some x ∧ n.pke.waitRng = none ∧ n.pke.mem = k.mem)

/-- Every memory of the module is in canonical form. -/
def Sys2Proof.Certificates.Canonical (m : Module) : Prop :=
  (∀ p ∈ m.clusters, memWf p.2.scratch = true) ∧ (∀ p ∈ m.stks, memWf p.2.mem = true) ∧ memWf m.hedge.flash = true
    ∧ memWf m.hedge.sram = true ∧ memWf m.hedge.hmbData = true ∧ memWf m.pke.mem = true ∧ memWf m.quay.sram = true

/-- Every step keeps every memory of the module in its canonical form (10_scratchpad, 15_memory_stacks, 17_hedge,
18_public_key_engine). -/
def Obligations.MemoriesCanonical : Prop :=
  ∀ s t : State, Canonical s.m → step s = .next t → Canonical t.m

/-- Every fuse set in `f` is set in `g`. -/
def Sys2Proof.Certificates.FusesWithin (f g : Fuses) : Prop :=
  f.serial &&& g.serial = f.serial ∧ f.vendor &&& g.vendor = f.vendor ∧ f.uds &&& g.uds = f.uds
    ∧ (∀ k, tget 0 f.keyhash k &&& tget 0 g.keyhash k = tget 0 f.keyhash k) ∧ f.revoke &&& g.revoke = f.revoke
    ∧ f.svn &&& g.svn = f.svn ∧ f.lcs &&& g.lcs = f.lcs

/-- No step clears a fuse (R586). -/
def Obligations.FusesOnlySet : Prop :=
  ∀ s t : State, step s = .next t → FusesWithin s.m.hedge.fuses t.m.hedge.fuses

/-- The state after reset: memories canonical, nothing in flight, the values the manual gives for reset (10_scratchpad,
15_memory_stacks, 16_host_interface, 18_public_key_engine, 19_power_clocks_reset). -/
def Obligations.ResetState : Prop :=
State.reset.pending = [] ∧ Canonical State.reset.m ∧ State.reset.m.quay.jobs = [] ∧ State.reset.m.quay.ready = false
    ∧ (∀ c, (clAt State.reset.m c).restricted = true ∧ (clAt State.reset.m c).ctxs = [])
    ∧ (∀ i, (ringAt State.reset.m i).coalCount = 1 ∧ (ringAt State.reset.m i).phase = true
        ∧ (ringAt State.reset.m i).sqEn = false ∧ (ringAt State.reset.m i).cqEn = false)
    ∧ (∀ v, vecMasked State.reset.m v = true) ∧ (∀ t, (stkAt State.reset.m t).tthrot = 95)
    ∧ (∀ k, tget {} State.reset.m.ep.ide k = {}) ∧ State.reset.m.pke.run = none 
    ∧ step State.reset = .next { State.reset with m := { State.reset.m with now := 1 } }
end

