-- ==== Sys2Proof/Laws/Tab.lean ====
section
/-! SUPPORT. The laws of sparse tables and memories: a read after a write, and the canonical form. -/
namespace Sys2Proof.Machine

variable {α : Type} [DecidableEq α] {d v : α} {t : Tab α} {k k' lo : Nat}

omit [DecidableEq α] in
theorem tget_dropWhile_le (t : Tab α) (h : k < k') :
    tget d (t.dropWhile (fun p => decide (p.1 ≤ k))) k' = tget d t k' := by
  induction t with
  | nil => rfl
  | cons p t ih =>
    obtain ⟨j, w⟩ := p
    by_cases hj : j ≤ k
    · have : k' ≠ j := by omega
      have h2 : ¬ k' < j := by omega
      simp [List.dropWhile, hj, tget, this, h2, ih]
    · simp [List.dropWhile, hj]

omit [DecidableEq α] in
theorem tget_dropWhile_self (t : Tab α) :
    tget d (t.dropWhile (fun p => decide (p.1 ≤ k))) k = d := by
  induction t with
  | nil => rfl
  | cons p t ih =>
    obtain ⟨j, w⟩ := p
    by_cases hj : j ≤ k
    · simp [List.dropWhile, hj, ih]
    · have h1 : k ≠ j := by omega
      have h2 : k < j := by omega
      simp [List.dropWhile, hj, tget, h1, h2]

/-- A read of the index just written gives the value written. -/
@[simp] theorem tget_tset_same (t : Tab α) : tget d (tset d t k v) k = v := by
  induction t with
  | nil => by_cases h : v = d <;> simp [tset, tget, h]
  | cons p t ih =>
    obtain ⟨j, w⟩ := p
    by_cases h1 : k < j
    · by_cases h : v = d
      · have : k ≠ j := by omega
        simp [tset, tget, h1, h, this]
      · simp [tset, tget, h1, h]
    · by_cases h2 : k = j
      · subst h2
        by_cases h : v = d
        · simp [tset, h, tget_dropWhile_self]
        · simp [tset, tget, h]
      · simp [tset, tget, h1, h2, ih]

/-- A write leaves every other index alone. -/
theorem tget_tset_ne (t : Tab α) (h : k' ≠ k) : tget d (tset d t k v) k' = tget d t k' := by
  induction t with
  | nil =>
    by_cases hv : v = d
    · simp [tset, tget, hv]
    · simp [tset, tget, hv, h]
  | cons p t ih =>
    obtain ⟨j, w⟩ := p
    by_cases h1 : k < j
    · by_cases hv : v = d
      · simp [tset, h1, hv]
      · by_cases h3 : k' < k
        · have h4 : k' ≠ j := by omega
          have h5 : k' < j := by omega
          simp [tset, tget, h1, hv, h, h3, h4, h5]
        · simp [tset, tget, h1, hv, h, h3]
    · by_cases h2 : k = j
      · subst h2
        by_cases hv : v = d
        · by_cases h3 : k' < k
          · have : tget d (t.dropWhile (fun p => decide (p.1 ≤ k))) k' = d := by
              clear ih
              induction t with
              | nil => rfl
              | cons p t ih =>
                obtain ⟨j, w⟩ := p
                by_cases hj : j ≤ k
                · simpa [List.dropWhile, hj] using ih
                · have h4 : k' ≠ j := by omega
                  have h5 : k' < j := by omega
                  simp [List.dropWhile, hj, tget, h4, h5]
            simp [tset, hv, tget, h, h3, this]
          · have h4 : k < k' := by omega
            simp [tset, hv, tget, h, h3, tget_dropWhile_le t h4]
        · simp [tset, tget, hv, h]
      · by_cases h3 : k' = j
        · subst h3; simp [tset, tget, h1, h2]
        · simp [tset, tget, h1, h2, h3, ih]

theorem tget_tset (t : Tab α) :
    tget d (tset d t k v) k' = if k' = k then v else tget d t k' := by
  by_cases h : k' = k
  · subst h; simp
  · simp [h, tget_tset_ne t h]

theorem twfFrom_mono {lo lo' : Nat} (h : lo' ≤ lo) (ht : twfFrom d lo t = true) :
    twfFrom d lo' t = true := by
  cases t with
  | nil => rfl
  | cons p t =>
    simp only [twfFrom, Bool.and_eq_true, decide_eq_true_eq] at *
    exact ⟨⟨by omega, ht.1.2⟩, ht.2⟩

theorem twfFrom_dropWhile {q : Nat → Bool} (t : Tab α) (h : twfFrom d lo t = true) :
    twfFrom d lo (t.dropWhile (fun p => q p.1)) = true := by
  induction t generalizing lo with
  | nil => rfl
  | cons p t ih =>
    simp only [List.dropWhile]
    split
    · simp only [twfFrom, Bool.and_eq_true, decide_eq_true_eq] at h
      exact twfFrom_mono (by omega) (ih h.2)
    · exact h

theorem twfFrom_tset (t : Tab α) (hk : lo ≤ k) (h : twfFrom d lo t = true) :
    twfFrom d lo (tset d t k v) = true := by
  induction t generalizing lo with
  | nil => by_cases hv : v = d <;> simp [tset, twfFrom, hv, hk]
  | cons p t ih =>
    obtain ⟨j, w⟩ := p
    have h' := h
    simp only [twfFrom, Bool.and_eq_true, decide_eq_true_eq] at h'
    by_cases h1 : k < j
    · by_cases hv : v = d
      · simp [tset, h1, hv, h]
      · simp only [tset, h1, if_true, hv, if_false, twfFrom, Bool.and_eq_true, decide_eq_true_eq]
        exact ⟨⟨hk, hv⟩, ⟨by omega, h'.1.2⟩, h'.2⟩
    · by_cases h2 : k = j
      · subst h2
        by_cases hv : v = d
        · simp only [tset, h1, if_false, if_true, hv]
          exact twfFrom_mono (by omega) (twfFrom_dropWhile (q := fun n => decide (n ≤ k)) t h'.2)
        · simp only [tset, h1, if_false, if_true, hv, twfFrom, Bool.and_eq_true, decide_eq_true_eq]
          exact ⟨⟨hk, hv⟩, h'.2⟩
      · simp only [tset, h1, h2, if_false, twfFrom, Bool.and_eq_true, decide_eq_true_eq]
        exact ⟨⟨h'.1.1, h'.1.2⟩, ih (by omega) h'.2⟩

/-- A write keeps the canonical form. -/
theorem twf_tset (t : Tab α) (h : twf d t = true) : twf d (tset d t k v) = true :=
  twfFrom_tset t (Nat.zero_le _) h

theorem tget_of_lt (h : twfFrom d lo t = true) (hk : k < lo) : tget d t k = d := by
  cases t with
  | nil => rfl
  | cons p t =>
    simp only [twfFrom, Bool.and_eq_true, decide_eq_true_eq] at h
    have h1 : k ≠ p.1 := by omega
    have h2 : k < p.1 := by omega
    simp [tget, h1, h2]

theorem twfFrom_tentries (vs : List α) (h : lo ≤ k) : twfFrom d lo (tentries d k vs) = true := by
  induction vs generalizing k lo with
  | nil => rfl
  | cons v vs ih =>
    by_cases hv : v = d
    · simp only [tentries, hv, if_true]; exact ih (by omega)
    · simp only [tentries, hv, if_false, twfFrom, Bool.and_eq_true, decide_eq_true_eq]
      exact ⟨⟨h, hv⟩, ih le_rfl⟩

theorem tentries_lt (vs : List α) : ∀ p ∈ tentries d k vs, p.1 < k + vs.length := by
  induction vs generalizing k with
  | nil => simp [tentries]
  | cons v vs ih =>
    intro p hp
    by_cases hv : v = d
    · simp only [tentries, hv, if_true] at hp
      have := ih p hp; simp at this ⊢; omega
    · simp only [tentries, hv, if_false, List.mem_cons] at hp
      rcases hp with rfl | hp
      · simp
      · have := ih p hp; simp at this ⊢; omega

theorem twfFrom_append {t u : Tab α} {m : Nat} (ht : twfFrom d lo t = true) (hm : ∀ p ∈ t, p.1 < m)
    (hlo : lo ≤ m) (hu : twfFrom d m u = true) : twfFrom d lo (t ++ u) = true := by
  induction t generalizing lo with
  | nil => exact twfFrom_mono hlo hu
  | cons p t ih =>
    simp only [List.cons_append, twfFrom, Bool.and_eq_true, decide_eq_true_eq] at ht ⊢
    refine ⟨ht.1, ih ht.2 (fun q hq => hm q (List.mem_cons_of_mem _ hq)) ?_⟩
    have := hm p List.mem_cons_self; omega

theorem twfFrom_takeWhile {q : Nat → Bool} (t : Tab α) (h : twfFrom d lo t = true) :
    twfFrom d lo (t.takeWhile (fun p => q p.1)) = true := by
  induction t generalizing lo with
  | nil => rfl
  | cons p t ih =>
    simp only [List.takeWhile]
    split
    · simp only [twfFrom, Bool.and_eq_true, decide_eq_true_eq] at h ⊢
      exact ⟨h.1, ih h.2⟩
    · rfl

theorem twfFrom_dropWhile_lt (t : Tab α) (m : Nat) (h : twfFrom d lo t = true) :
    twfFrom d m (t.dropWhile (fun p => decide (p.1 < m))) = true := by
  induction t generalizing lo with
  | nil => rfl
  | cons p t ih =>
    simp only [twfFrom, Bool.and_eq_true, decide_eq_true_eq] at h
    by_cases hp : p.1 < m
    · simp only [List.dropWhile, hp, decide_true]
      exact ih h.2
    · simp only [List.dropWhile, hp, decide_false, twfFrom, Bool.and_eq_true, decide_eq_true_eq]
      exact ⟨⟨by omega, h.1.2⟩, h.2⟩

/-- A write of a run keeps the canonical form. -/
theorem twf_tsetRange (t : Tab α) (vs : List α) (h : twf d t = true) :
    twf d (tsetRange d t k vs) = true := by
  unfold twf tsetRange
  rw [List.append_assoc]
  refine twfFrom_append (m := k) (twfFrom_takeWhile (q := fun n => decide (n < k)) t h) ?_ (Nat.zero_le _) ?_
  · intro p hp
    simpa using List.mem_takeWhile_imp hp
  · exact twfFrom_append (m := k + vs.length) (twfFrom_tentries vs le_rfl) (tentries_lt vs)
      (Nat.le_add_right _ _) (twfFrom_dropWhile_lt t _ h)

/-- A write of bytes keeps a memory canonical. -/
theorem memWf_mput {m : Mem} (a : Nat) (bs : List Byte) (h : memWf m = true) :
    memWf (mput m a bs) = true := twf_tsetRange m bs h

theorem tget_append_lt {t u : Tab α} {m : Nat} (hu : twfFrom d m u = true)
    (ht : ∀ p ∈ t, p.1 < m) (hwf : twfFrom d lo t = true) :
    tget d (t ++ u) k = if k < m then tget d t k else tget d u k := by
  induction t generalizing lo with
  | nil =>
    by_cases h : k < m
    · simp [h, tget, tget_of_lt hu h]
    · simp [h]
  | cons p t ih =>
    obtain ⟨j, w⟩ := p
    simp only [twfFrom, Bool.and_eq_true, decide_eq_true_eq] at hwf
    have hj : j < m := ht (j, w) List.mem_cons_self
    have ih' := ih (fun q hq => ht q (List.mem_cons_of_mem _ hq)) hwf.2
    simp only [List.cons_append, tget]
    by_cases h1 : k = j
    · subst h1; simp [hj]
    · by_cases h2 : k < j
      · have : k < m := by omega
        simp [h1, h2, this]
      · simp only [h1, h2, if_false]; exact ih'

theorem tget_takeWhile (t : Tab α) (h : twfFrom d lo t = true) (hk : k < k') :
    tget d (t.takeWhile (fun p => decide (p.1 < k'))) k = tget d t k := by
  induction t generalizing lo with
  | nil => rfl
  | cons p t ih =>
    obtain ⟨j, w⟩ := p
    simp only [twfFrom, Bool.and_eq_true, decide_eq_true_eq] at h
    by_cases hp : j < k'
    · simp [List.takeWhile, hp, tget, ih h.2]
    · have h1 : k ≠ j := by omega
      have h2 : k < j := by omega
      simp [List.takeWhile, hp, tget, h1, h2]

omit [DecidableEq α] in
theorem tget_dropWhile_lt (t : Tab α) (hk : k' ≤ k) :
    tget d (t.dropWhile (fun p => decide (p.1 < k'))) k = tget d t k := by
  induction t with
  | nil => rfl
  | cons p t ih =>
    obtain ⟨j, w⟩ := p
    by_cases hp : j < k'
    · have h1 : k ≠ j := by omega
      have h2 : ¬ k < j := by omega
      simp [List.dropWhile, hp, tget, h1, h2, ih]
    · simp [List.dropWhile, hp]

theorem tget_tentries (vs : List α) :
    tget d (tentries d k vs) k' = if k ≤ k' then vs.getD (k' - k) d else d := by
  induction vs generalizing k with
  | nil => simp [tentries, tget]
  | cons v vs ih =>
    by_cases hv : v = d
    · simp only [tentries, hv, if_true, ih]
      by_cases h : k + 1 ≤ k'
      · have h2 : k ≤ k' := by omega
        obtain ⟨n, hn⟩ : ∃ n, k' - k = n + 1 := ⟨k' - k - 1, by omega⟩
        have : k' - (k + 1) = n := by omega
        simp [h, h2, hn, this]
      · by_cases h2 : k ≤ k'
        · have : k' - k = 0 := by omega
          simp [h, h2, this]
        · simp [h, h2]
    · simp only [tentries, hv, if_false, tget]
      by_cases h1 : k' = k
      · subst h1; simp
      · by_cases h2 : k' < k
        · have : ¬ k ≤ k' := by omega
          simp [h1, h2, this]
        · have h3 : k + 1 ≤ k' := by omega
          have h4 : k ≤ k' := by omega
          obtain ⟨n, hn⟩ : ∃ n, k' - k = n + 1 := ⟨k' - k - 1, by omega⟩
          have : k' - (k + 1) = n := by omega
          simp [h1, h2, ih, h3, h4, hn, this]

/-- A read after a write of a run: inside the run the value written, outside it what was there. -/
theorem tget_tsetRange (t : Tab α) (vs : List α) (h : twf d t = true) :
    tget d (tsetRange d t k vs) k' =
      if k ≤ k' ∧ k' < k + vs.length then vs.getD (k' - k) d else tget d t k' := by
  unfold tsetRange
  rw [List.append_assoc]
  have hA := twfFrom_takeWhile (q := fun n => decide (n < k)) t h
  have hAlt : ∀ p ∈ t.takeWhile (fun p => decide (p.1 < k)), p.1 < k := by
    intro p hp; simpa using List.mem_takeWhile_imp hp
  have hC := twfFrom_dropWhile_lt t (k + vs.length) h
  have hBC := twfFrom_append (m := k + vs.length) (twfFrom_tentries (d := d) vs (le_refl k))
    (tentries_lt vs) (Nat.le_add_right _ _) hC
  rw [tget_append_lt hBC hAlt hA, tget_append_lt hC (tentries_lt vs) (twfFrom_tentries vs (le_refl k))]
  by_cases h1 : k' < k
  · have h2 : ¬ (k ≤ k' ∧ k' < k + vs.length) := by omega
    simp only [h1, if_true, h2, if_false]
    exact tget_takeWhile t h h1
  · by_cases h2 : k' < k + vs.length
    · have h3 : k ≤ k' := by omega
      simp [h1, h2, h3, tget_tentries]
    · simp only [h1, h2, if_false, and_false]
      exact tget_dropWhile_lt t (by omega)

/-- One byte after a write of bytes. -/
theorem mget_mput {m : Mem} (a b : Nat) (bs : List Byte) (h : memWf m = true) :
    mget (mput m a bs) b = if a ≤ b ∧ b < a + bs.length then bs.getD (b - a) 0 else mget m b :=
  tget_tsetRange m bs h

theorem leBytes_length (n x : Nat) : (leBytes n x).length = n := by
  induction n generalizing x with
  | zero => rfl
  | succ n ih => simp [leBytes, ih]

theorem bytesOf_length (ws : List Word) : (bytesOf ws).length = 4 * ws.length := by
  induction ws with
  | nil => rfl
  | cons w ws ih => simp only [bytesOf, List.length_append, leBytes_length, ih, List.length_cons]; omega

end Sys2Proof.Machine
end

