-- ==== Sys2Proof/Laws/State.lean ====
section
/-! SUPPORT. What each update of the state leaves: one lemma for each field and each update, and what each indexed part
reads as after an update of itself or of another. -/
namespace Sys2Proof.Machine
variable (m : Module) (i j : Nat)

@[simp] theorem onCl_now (f : Cluster → Cluster) : (onCl m i f).now = m.now := rfl
@[simp] theorem onCl_free (f : Cluster → Cluster) : (onCl m i f).free = m.free := rfl
@[simp] theorem onCl_quay (f : Cluster → Cluster) : (onCl m i f).quay = m.quay := rfl
@[simp] theorem onCl_ep (f : Cluster → Cluster) : (onCl m i f).ep = m.ep := rfl
@[simp] theorem onCl_dies (f : Cluster → Cluster) : (onCl m i f).dies = m.dies := rfl
@[simp] theorem onCl_stks (f : Cluster → Cluster) : (onCl m i f).stks = m.stks := rfl
@[simp] theorem onCl_hedge (f : Cluster → Cluster) : (onCl m i f).hedge = m.hedge := rfl
@[simp] theorem onCl_pke (f : Cluster → Cluster) : (onCl m i f).pke = m.pke := rfl
@[simp] theorem onCl_transit (f : Cluster → Cluster) : (onCl m i f).transit = m.transit := rfl
@[simp] theorem onCl_graves (f : Cluster → Cluster) : (onCl m i f).graves = m.graves := rfl
@[simp] theorem onCl_flagIn (f : Cluster → Cluster) : (onCl m i f).flagIn = m.flagIn := rfl
@[simp] theorem onCl_fenceSeq (f : Cluster → Cluster) : (onCl m i f).fenceSeq = m.fenceSeq := rfl
@[simp] theorem onCl_hostOut (f : Cluster → Cluster) : (onCl m i f).hostOut = m.hostOut := rfl
@[simp] theorem onCl_msixOut (f : Cluster → Cluster) : (onCl m i f).msixOut = m.msixOut := rfl
@[simp] theorem onCl_aer (f : Cluster → Cluster) : (onCl m i f).aer = m.aer := rfl
@[simp] theorem onCl_jtagOut (f : Cluster → Cluster) : (onCl m i f).jtagOut = m.jtagOut := rfl
@[simp] theorem onDie_now (f : Die → Die) : (onDie m i f).now = m.now := rfl
@[simp] theorem onDie_free (f : Die → Die) : (onDie m i f).free = m.free := rfl
@[simp] theorem onDie_quay (f : Die → Die) : (onDie m i f).quay = m.quay := rfl
@[simp] theorem onDie_ep (f : Die → Die) : (onDie m i f).ep = m.ep := rfl
@[simp] theorem onDie_clusters (f : Die → Die) : (onDie m i f).clusters = m.clusters := rfl
@[simp] theorem onDie_stks (f : Die → Die) : (onDie m i f).stks = m.stks := rfl
@[simp] theorem onDie_hedge (f : Die → Die) : (onDie m i f).hedge = m.hedge := rfl
@[simp] theorem onDie_pke (f : Die → Die) : (onDie m i f).pke = m.pke := rfl
@[simp] theorem onDie_transit (f : Die → Die) : (onDie m i f).transit = m.transit := rfl
@[simp] theorem onDie_graves (f : Die → Die) : (onDie m i f).graves = m.graves := rfl
@[simp] theorem onDie_flagIn (f : Die → Die) : (onDie m i f).flagIn = m.flagIn := rfl
@[simp] theorem onDie_fenceSeq (f : Die → Die) : (onDie m i f).fenceSeq = m.fenceSeq := rfl
@[simp] theorem onDie_hostOut (f : Die → Die) : (onDie m i f).hostOut = m.hostOut := rfl
@[simp] theorem onDie_msixOut (f : Die → Die) : (onDie m i f).msixOut = m.msixOut := rfl
@[simp] theorem onDie_aer (f : Die → Die) : (onDie m i f).aer = m.aer := rfl
@[simp] theorem onDie_jtagOut (f : Die → Die) : (onDie m i f).jtagOut = m.jtagOut := rfl
@[simp] theorem onStk_now (f : Stack → Stack) : (onStk m i f).now = m.now := rfl
@[simp] theorem onStk_free (f : Stack → Stack) : (onStk m i f).free = m.free := rfl
@[simp] theorem onStk_quay (f : Stack → Stack) : (onStk m i f).quay = m.quay := rfl
@[simp] theorem onStk_ep (f : Stack → Stack) : (onStk m i f).ep = m.ep := rfl
@[simp] theorem onStk_dies (f : Stack → Stack) : (onStk m i f).dies = m.dies := rfl
@[simp] theorem onStk_clusters (f : Stack → Stack) : (onStk m i f).clusters = m.clusters := rfl
@[simp] theorem onStk_hedge (f : Stack → Stack) : (onStk m i f).hedge = m.hedge := rfl
@[simp] theorem onStk_pke (f : Stack → Stack) : (onStk m i f).pke = m.pke := rfl
@[simp] theorem onStk_transit (f : Stack → Stack) : (onStk m i f).transit = m.transit := rfl
@[simp] theorem onStk_graves (f : Stack → Stack) : (onStk m i f).graves = m.graves := rfl
@[simp] theorem onStk_flagIn (f : Stack → Stack) : (onStk m i f).flagIn = m.flagIn := rfl
@[simp] theorem onStk_fenceSeq (f : Stack → Stack) : (onStk m i f).fenceSeq = m.fenceSeq := rfl
@[simp] theorem onStk_hostOut (f : Stack → Stack) : (onStk m i f).hostOut = m.hostOut := rfl
@[simp] theorem onStk_msixOut (f : Stack → Stack) : (onStk m i f).msixOut = m.msixOut := rfl
@[simp] theorem onStk_aer (f : Stack → Stack) : (onStk m i f).aer = m.aer := rfl
@[simp] theorem onStk_jtagOut (f : Stack → Stack) : (onStk m i f).jtagOut = m.jtagOut := rfl
@[simp] theorem onQuay_now (f : Quay → Quay) : (onQuay m f).now = m.now := rfl
@[simp] theorem onQuay_free (f : Quay → Quay) : (onQuay m f).free = m.free := rfl
@[simp] theorem onQuay_ep (f : Quay → Quay) : (onQuay m f).ep = m.ep := rfl
@[simp] theorem onQuay_dies (f : Quay → Quay) : (onQuay m f).dies = m.dies := rfl
@[simp] theorem onQuay_clusters (f : Quay → Quay) : (onQuay m f).clusters = m.clusters := rfl
@[simp] theorem onQuay_stks (f : Quay → Quay) : (onQuay m f).stks = m.stks := rfl
@[simp] theorem onQuay_hedge (f : Quay → Quay) : (onQuay m f).hedge = m.hedge := rfl
@[simp] theorem onQuay_pke (f : Quay → Quay) : (onQuay m f).pke = m.pke := rfl
@[simp] theorem onQuay_transit (f : Quay → Quay) : (onQuay m f).transit = m.transit := rfl
@[simp] theorem onQuay_graves (f : Quay → Quay) : (onQuay m f).graves = m.graves := rfl
@[simp] theorem onQuay_flagIn (f : Quay → Quay) : (onQuay m f).flagIn = m.flagIn := rfl
@[simp] theorem onQuay_fenceSeq (f : Quay → Quay) : (onQuay m f).fenceSeq = m.fenceSeq := rfl
@[simp] theorem onQuay_hostOut (f : Quay → Quay) : (onQuay m f).hostOut = m.hostOut := rfl
@[simp] theorem onQuay_msixOut (f : Quay → Quay) : (onQuay m f).msixOut = m.msixOut := rfl
@[simp] theorem onQuay_aer (f : Quay → Quay) : (onQuay m f).aer = m.aer := rfl
@[simp] theorem onQuay_jtagOut (f : Quay → Quay) : (onQuay m f).jtagOut = m.jtagOut := rfl
@[simp] theorem onHedge_now (f : Hedge → Hedge) : (onHedge m f).now = m.now := rfl
@[simp] theorem onHedge_free (f : Hedge → Hedge) : (onHedge m f).free = m.free := rfl
@[simp] theorem onHedge_quay (f : Hedge → Hedge) : (onHedge m f).quay = m.quay := rfl
@[simp] theorem onHedge_ep (f : Hedge → Hedge) : (onHedge m f).ep = m.ep := rfl
@[simp] theorem onHedge_dies (f : Hedge → Hedge) : (onHedge m f).dies = m.dies := rfl
@[simp] theorem onHedge_clusters (f : Hedge → Hedge) : (onHedge m f).clusters = m.clusters := rfl
@[simp] theorem onHedge_stks (f : Hedge → Hedge) : (onHedge m f).stks = m.stks := rfl
@[simp] theorem onHedge_pke (f : Hedge → Hedge) : (onHedge m f).pke = m.pke := rfl
@[simp] theorem onHedge_transit (f : Hedge → Hedge) : (onHedge m f).transit = m.transit := rfl
@[simp] theorem onHedge_graves (f : Hedge → Hedge) : (onHedge m f).graves = m.graves := rfl
@[simp] theorem onHedge_flagIn (f : Hedge → Hedge) : (onHedge m f).flagIn = m.flagIn := rfl
@[simp] theorem onHedge_fenceSeq (f : Hedge → Hedge) : (onHedge m f).fenceSeq = m.fenceSeq := rfl
@[simp] theorem onHedge_hostOut (f : Hedge → Hedge) : (onHedge m f).hostOut = m.hostOut := rfl
@[simp] theorem onHedge_msixOut (f : Hedge → Hedge) : (onHedge m f).msixOut = m.msixOut := rfl
@[simp] theorem onHedge_aer (f : Hedge → Hedge) : (onHedge m f).aer = m.aer := rfl
@[simp] theorem onHedge_jtagOut (f : Hedge → Hedge) : (onHedge m f).jtagOut = m.jtagOut := rfl
@[simp] theorem onPke_now (f : Pke → Pke) : (onPke m f).now = m.now := rfl
@[simp] theorem onPke_free (f : Pke → Pke) : (onPke m f).free = m.free := rfl
@[simp] theorem onPke_quay (f : Pke → Pke) : (onPke m f).quay = m.quay := rfl
@[simp] theorem onPke_ep (f : Pke → Pke) : (onPke m f).ep = m.ep := rfl
@[simp] theorem onPke_dies (f : Pke → Pke) : (onPke m f).dies = m.dies := rfl
@[simp] theorem onPke_clusters (f : Pke → Pke) : (onPke m f).clusters = m.clusters := rfl
@[simp] theorem onPke_stks (f : Pke → Pke) : (onPke m f).stks = m.stks := rfl
@[simp] theorem onPke_hedge (f : Pke → Pke) : (onPke m f).hedge = m.hedge := rfl
@[simp] theorem onPke_transit (f : Pke → Pke) : (onPke m f).transit = m.transit := rfl
@[simp] theorem onPke_graves (f : Pke → Pke) : (onPke m f).graves = m.graves := rfl
@[simp] theorem onPke_flagIn (f : Pke → Pke) : (onPke m f).flagIn = m.flagIn := rfl
@[simp] theorem onPke_fenceSeq (f : Pke → Pke) : (onPke m f).fenceSeq = m.fenceSeq := rfl
@[simp] theorem onPke_hostOut (f : Pke → Pke) : (onPke m f).hostOut = m.hostOut := rfl
@[simp] theorem onPke_msixOut (f : Pke → Pke) : (onPke m f).msixOut = m.msixOut := rfl
@[simp] theorem onPke_aer (f : Pke → Pke) : (onPke m f).aer = m.aer := rfl
@[simp] theorem onPke_jtagOut (f : Pke → Pke) : (onPke m f).jtagOut = m.jtagOut := rfl
@[simp] theorem onEp_now (f : Endpoint → Endpoint) : (onEp m f).now = m.now := rfl
@[simp] theorem onEp_free (f : Endpoint → Endpoint) : (onEp m f).free = m.free := rfl
@[simp] theorem onEp_quay (f : Endpoint → Endpoint) : (onEp m f).quay = m.quay := rfl
@[simp] theorem onEp_dies (f : Endpoint → Endpoint) : (onEp m f).dies = m.dies := rfl
@[simp] theorem onEp_clusters (f : Endpoint → Endpoint) : (onEp m f).clusters = m.clusters := rfl
@[simp] theorem onEp_stks (f : Endpoint → Endpoint) : (onEp m f).stks = m.stks := rfl
@[simp] theorem onEp_hedge (f : Endpoint → Endpoint) : (onEp m f).hedge = m.hedge := rfl
@[simp] theorem onEp_pke (f : Endpoint → Endpoint) : (onEp m f).pke = m.pke := rfl
@[simp] theorem onEp_transit (f : Endpoint → Endpoint) : (onEp m f).transit = m.transit := rfl
@[simp] theorem onEp_graves (f : Endpoint → Endpoint) : (onEp m f).graves = m.graves := rfl
@[simp] theorem onEp_flagIn (f : Endpoint → Endpoint) : (onEp m f).flagIn = m.flagIn := rfl
@[simp] theorem onEp_fenceSeq (f : Endpoint → Endpoint) : (onEp m f).fenceSeq = m.fenceSeq := rfl
@[simp] theorem onEp_hostOut (f : Endpoint → Endpoint) : (onEp m f).hostOut = m.hostOut := rfl
@[simp] theorem onEp_msixOut (f : Endpoint → Endpoint) : (onEp m f).msixOut = m.msixOut := rfl
@[simp] theorem onEp_aer (f : Endpoint → Endpoint) : (onEp m f).aer = m.aer := rfl
@[simp] theorem onEp_jtagOut (f : Endpoint → Endpoint) : (onEp m f).jtagOut = m.jtagOut := rfl
@[simp] theorem onJob_now (f : Job → Job) : (onJob m i f).now = m.now := rfl
@[simp] theorem onJob_free (f : Job → Job) : (onJob m i f).free = m.free := rfl
@[simp] theorem onJob_ep (f : Job → Job) : (onJob m i f).ep = m.ep := rfl
@[simp] theorem onJob_dies (f : Job → Job) : (onJob m i f).dies = m.dies := rfl
@[simp] theorem onJob_clusters (f : Job → Job) : (onJob m i f).clusters = m.clusters := rfl
@[simp] theorem onJob_stks (f : Job → Job) : (onJob m i f).stks = m.stks := rfl
@[simp] theorem onJob_hedge (f : Job → Job) : (onJob m i f).hedge = m.hedge := rfl
@[simp] theorem onJob_pke (f : Job → Job) : (onJob m i f).pke = m.pke := rfl
@[simp] theorem onJob_transit (f : Job → Job) : (onJob m i f).transit = m.transit := rfl
@[simp] theorem onJob_graves (f : Job → Job) : (onJob m i f).graves = m.graves := rfl
@[simp] theorem onJob_flagIn (f : Job → Job) : (onJob m i f).flagIn = m.flagIn := rfl
@[simp] theorem onJob_fenceSeq (f : Job → Job) : (onJob m i f).fenceSeq = m.fenceSeq := rfl
@[simp] theorem onJob_hostOut (f : Job → Job) : (onJob m i f).hostOut = m.hostOut := rfl
@[simp] theorem onJob_msixOut (f : Job → Job) : (onJob m i f).msixOut = m.msixOut := rfl
@[simp] theorem onJob_aer (f : Job → Job) : (onJob m i f).aer = m.aer := rfl
@[simp] theorem onJob_jtagOut (f : Job → Job) : (onJob m i f).jtagOut = m.jtagOut := rfl
@[simp] theorem onRing_now (f : Ring → Ring) : (onRing m i f).now = m.now := rfl
@[simp] theorem onRing_free (f : Ring → Ring) : (onRing m i f).free = m.free := rfl
@[simp] theorem onRing_ep (f : Ring → Ring) : (onRing m i f).ep = m.ep := rfl
@[simp] theorem onRing_dies (f : Ring → Ring) : (onRing m i f).dies = m.dies := rfl
@[simp] theorem onRing_clusters (f : Ring → Ring) : (onRing m i f).clusters = m.clusters := rfl
@[simp] theorem onRing_stks (f : Ring → Ring) : (onRing m i f).stks = m.stks := rfl
@[simp] theorem onRing_hedge (f : Ring → Ring) : (onRing m i f).hedge = m.hedge := rfl
@[simp] theorem onRing_pke (f : Ring → Ring) : (onRing m i f).pke = m.pke := rfl
@[simp] theorem onRing_transit (f : Ring → Ring) : (onRing m i f).transit = m.transit := rfl
@[simp] theorem onRing_graves (f : Ring → Ring) : (onRing m i f).graves = m.graves := rfl
@[simp] theorem onRing_flagIn (f : Ring → Ring) : (onRing m i f).flagIn = m.flagIn := rfl
@[simp] theorem onRing_fenceSeq (f : Ring → Ring) : (onRing m i f).fenceSeq = m.fenceSeq := rfl
@[simp] theorem onRing_hostOut (f : Ring → Ring) : (onRing m i f).hostOut = m.hostOut := rfl
@[simp] theorem onRing_msixOut (f : Ring → Ring) : (onRing m i f).msixOut = m.msixOut := rfl
@[simp] theorem onRing_aer (f : Ring → Ring) : (onRing m i f).aer = m.aer := rfl
@[simp] theorem onRing_jtagOut (f : Ring → Ring) : (onRing m i f).jtagOut = m.jtagOut := rfl
@[simp] theorem hostWrite_now (a : BitVec 64) (b : List Byte) : (hostWrite m a b).now = m.now := rfl
@[simp] theorem hostWrite_free (a : BitVec 64) (b : List Byte) : (hostWrite m a b).free = m.free := rfl
@[simp] theorem hostWrite_quay (a : BitVec 64) (b : List Byte) : (hostWrite m a b).quay = m.quay := rfl
@[simp] theorem hostWrite_ep (a : BitVec 64) (b : List Byte) : (hostWrite m a b).ep = m.ep := rfl
@[simp] theorem hostWrite_dies (a : BitVec 64) (b : List Byte) : (hostWrite m a b).dies = m.dies := rfl
@[simp] theorem hostWrite_clusters (a : BitVec 64) (b : List Byte) : (hostWrite m a b).clusters = m.clusters := rfl
@[simp] theorem hostWrite_stks (a : BitVec 64) (b : List Byte) : (hostWrite m a b).stks = m.stks := rfl
@[simp] theorem hostWrite_hedge (a : BitVec 64) (b : List Byte) : (hostWrite m a b).hedge = m.hedge := rfl
@[simp] theorem hostWrite_pke (a : BitVec 64) (b : List Byte) : (hostWrite m a b).pke = m.pke := rfl
@[simp] theorem hostWrite_transit (a : BitVec 64) (b : List Byte) : (hostWrite m a b).transit = m.transit := rfl
@[simp] theorem hostWrite_graves (a : BitVec 64) (b : List Byte) : (hostWrite m a b).graves = m.graves := rfl
@[simp] theorem hostWrite_flagIn (a : BitVec 64) (b : List Byte) : (hostWrite m a b).flagIn = m.flagIn := rfl
@[simp] theorem hostWrite_fenceSeq (a : BitVec 64) (b : List Byte) : (hostWrite m a b).fenceSeq = m.fenceSeq := rfl
@[simp] theorem hostWrite_msixOut (a : BitVec 64) (b : List Byte) : (hostWrite m a b).msixOut = m.msixOut := rfl
@[simp] theorem hostWrite_aer (a : BitVec 64) (b : List Byte) : (hostWrite m a b).aer = m.aer := rfl
@[simp] theorem hostWrite_jtagOut (a : BitVec 64) (b : List Byte) : (hostWrite m a b).jtagOut = m.jtagOut := rfl
@[simp] theorem aerReport_now (a : Aer) : (aerReport m a).now = m.now := rfl
@[simp] theorem aerReport_free (a : Aer) : (aerReport m a).free = m.free := rfl
@[simp] theorem aerReport_quay (a : Aer) : (aerReport m a).quay = m.quay := rfl
@[simp] theorem aerReport_ep (a : Aer) : (aerReport m a).ep = m.ep := rfl
@[simp] theorem aerReport_dies (a : Aer) : (aerReport m a).dies = m.dies := rfl
@[simp] theorem aerReport_clusters (a : Aer) : (aerReport m a).clusters = m.clusters := rfl
@[simp] theorem aerReport_stks (a : Aer) : (aerReport m a).stks = m.stks := rfl
@[simp] theorem aerReport_hedge (a : Aer) : (aerReport m a).hedge = m.hedge := rfl
@[simp] theorem aerReport_pke (a : Aer) : (aerReport m a).pke = m.pke := rfl
@[simp] theorem aerReport_transit (a : Aer) : (aerReport m a).transit = m.transit := rfl
@[simp] theorem aerReport_graves (a : Aer) : (aerReport m a).graves = m.graves := rfl
@[simp] theorem aerReport_flagIn (a : Aer) : (aerReport m a).flagIn = m.flagIn := rfl
@[simp] theorem aerReport_fenceSeq (a : Aer) : (aerReport m a).fenceSeq = m.fenceSeq := rfl
@[simp] theorem aerReport_hostOut (a : Aer) : (aerReport m a).hostOut = m.hostOut := rfl
@[simp] theorem aerReport_msixOut (a : Aer) : (aerReport m a).msixOut = m.msixOut := rfl
@[simp] theorem aerReport_jtagOut (a : Aer) : (aerReport m a).jtagOut = m.jtagOut := rfl
@[simp] theorem logLater_now (e : LogEvent) : (logLater m e).now = m.now := rfl
@[simp] theorem logLater_free (e : LogEvent) : (logLater m e).free = m.free := rfl
@[simp] theorem logLater_quay (e : LogEvent) : (logLater m e).quay = m.quay := rfl
@[simp] theorem logLater_ep (e : LogEvent) : (logLater m e).ep = m.ep := rfl
@[simp] theorem logLater_dies (e : LogEvent) : (logLater m e).dies = m.dies := rfl
@[simp] theorem logLater_clusters (e : LogEvent) : (logLater m e).clusters = m.clusters := rfl
@[simp] theorem logLater_stks (e : LogEvent) : (logLater m e).stks = m.stks := rfl
@[simp] theorem logLater_pke (e : LogEvent) : (logLater m e).pke = m.pke := rfl
@[simp] theorem logLater_transit (e : LogEvent) : (logLater m e).transit = m.transit := rfl
@[simp] theorem logLater_graves (e : LogEvent) : (logLater m e).graves = m.graves := rfl
@[simp] theorem logLater_flagIn (e : LogEvent) : (logLater m e).flagIn = m.flagIn := rfl
@[simp] theorem logLater_fenceSeq (e : LogEvent) : (logLater m e).fenceSeq = m.fenceSeq := rfl
@[simp] theorem logLater_hostOut (e : LogEvent) : (logLater m e).hostOut = m.hostOut := rfl
@[simp] theorem logLater_msixOut (e : LogEvent) : (logLater m e).msixOut = m.msixOut := rfl
@[simp] theorem logLater_aer (e : LogEvent) : (logLater m e).aer = m.aer := rfl
@[simp] theorem logLater_jtagOut (e : LogEvent) : (logLater m e).jtagOut = m.jtagOut := rfl
@[simp] theorem onQuay_self (f : Quay → Quay) : (onQuay m f).quay = f m.quay := rfl
@[simp] theorem onHedge_self (f : Hedge → Hedge) : (onHedge m f).hedge = f m.hedge := rfl
@[simp] theorem onPke_self (f : Pke → Pke) : (onPke m f).pke = f m.pke := rfl
@[simp] theorem onEp_self (f : Endpoint → Endpoint) : (onEp m f).ep = f m.ep := rfl
@[simp] theorem onRing_quay_sram (f : Ring → Ring) : (onRing m i f).quay.sram = m.quay.sram := rfl
@[simp] theorem onJob_quay_sram (f : Job → Job) : (onJob m i f).quay.sram = m.quay.sram := rfl
@[simp] theorem onRing_quay_ready (f : Ring → Ring) : (onRing m i f).quay.ready = m.quay.ready := rfl
@[simp] theorem onJob_quay_ready (f : Job → Job) : (onJob m i f).quay.ready = m.quay.ready := rfl
@[simp] theorem onRing_quay_qstate (f : Ring → Ring) : (onRing m i f).quay.qstate = m.quay.qstate := rfl
@[simp] theorem onJob_quay_qstate (f : Job → Job) : (onJob m i f).quay.qstate = m.quay.qstate := rfl
@[simp] theorem onRing_quay_quiesceD3 (f : Ring → Ring) : (onRing m i f).quay.quiesceD3 = m.quay.quiesceD3 := rfl
@[simp] theorem onRing_quay_quiesceBad (f : Ring → Ring) : (onRing m i f).quay.quiesceBad = m.quay.quiesceBad := rfl
@[simp] theorem onJob_quay_quiesceD3 (f : Job → Job) : (onJob m i f).quay.quiesceD3 = m.quay.quiesceD3 := rfl
@[simp] theorem onJob_quay_quiesceBad (f : Job → Job) : (onJob m i f).quay.quiesceBad = m.quay.quiesceBad := rfl
@[simp] theorem onRing_quay_ideReq (f : Ring → Ring) : (onRing m i f).quay.ideReq = m.quay.ideReq := rfl
@[simp] theorem onJob_quay_ideReq (f : Job → Job) : (onJob m i f).quay.ideReq = m.quay.ideReq := rfl
@[simp] theorem onRing_quay_lock (f : Ring → Ring) : (onRing m i f).quay.lock = m.quay.lock := rfl
@[simp] theorem onJob_quay_lock (f : Job → Job) : (onJob m i f).quay.lock = m.quay.lock := rfl
@[simp] theorem onRing_quay_rdRate (f : Ring → Ring) : (onRing m i f).quay.rdRate = m.quay.rdRate := rfl
@[simp] theorem onJob_quay_rdRate (f : Job → Job) : (onJob m i f).quay.rdRate = m.quay.rdRate := rfl
@[simp] theorem onRing_quay_wrRate (f : Ring → Ring) : (onRing m i f).quay.wrRate = m.quay.wrRate := rfl
@[simp] theorem onJob_quay_wrRate (f : Job → Job) : (onJob m i f).quay.wrRate = m.quay.wrRate := rfl
@[simp] theorem onRing_quay_rdLat (f : Ring → Ring) : (onRing m i f).quay.rdLat = m.quay.rdLat := rfl
@[simp] theorem onJob_quay_rdLat (f : Job → Job) : (onJob m i f).quay.rdLat = m.quay.rdLat := rfl
@[simp] theorem onRing_quay_pcap (f : Ring → Ring) : (onRing m i f).quay.pcap = m.quay.pcap := rfl
@[simp] theorem onJob_quay_pcap (f : Job → Job) : (onJob m i f).quay.pcap = m.quay.pcap := rfl
@[simp] theorem onRing_quay_evt (f : Ring → Ring) : (onRing m i f).quay.evt = m.quay.evt := rfl
@[simp] theorem onJob_quay_evt (f : Job → Job) : (onJob m i f).quay.evt = m.quay.evt := rfl
@[simp] theorem onRing_quay_evtEn (f : Ring → Ring) : (onRing m i f).quay.evtEn = m.quay.evtEn := rfl
@[simp] theorem onJob_quay_evtEn (f : Job → Job) : (onJob m i f).quay.evtEn = m.quay.evtEn := rfl
@[simp] theorem onRing_quay_killTag (f : Ring → Ring) : (onRing m i f).quay.killTag = m.quay.killTag := rfl
@[simp] theorem onJob_quay_killTag (f : Job → Job) : (onJob m i f).quay.killTag = m.quay.killTag := rfl
@[simp] theorem onRing_quay_half (f : Ring → Ring) : (onRing m i f).quay.half = m.quay.half := rfl
@[simp] theorem onJob_quay_half (f : Job → Job) : (onJob m i f).quay.half = m.quay.half := rfl
@[simp] theorem onJob_quay_rings (f : Job → Job) : (onJob m i f).quay.rings = m.quay.rings := rfl
@[simp] theorem onRing_quay_msixTable (f : Ring → Ring) : (onRing m i f).quay.msixTable = m.quay.msixTable := rfl
@[simp] theorem onJob_quay_msixTable (f : Job → Job) : (onJob m i f).quay.msixTable = m.quay.msixTable := rfl
@[simp] theorem onRing_quay_msixCtl (f : Ring → Ring) : (onRing m i f).quay.msixCtl = m.quay.msixCtl := rfl
@[simp] theorem onJob_quay_msixCtl (f : Job → Job) : (onJob m i f).quay.msixCtl = m.quay.msixCtl := rfl
@[simp] theorem onRing_quay_msixPba (f : Ring → Ring) : (onRing m i f).quay.msixPba = m.quay.msixPba := rfl
@[simp] theorem onJob_quay_msixPba (f : Job → Job) : (onJob m i f).quay.msixPba = m.quay.msixPba := rfl
@[simp] theorem onRing_quay_admitted (f : Ring → Ring) : (onRing m i f).quay.admitted = m.quay.admitted := rfl
@[simp] theorem onJob_quay_admitted (f : Job → Job) : (onJob m i f).quay.admitted = m.quay.admitted := rfl
@[simp] theorem onRing_quay_finished (f : Ring → Ring) : (onRing m i f).quay.finished = m.quay.finished := rfl
@[simp] theorem onJob_quay_finished (f : Job → Job) : (onJob m i f).quay.finished = m.quay.finished := rfl
@[simp] theorem onRing_quay_slips (f : Ring → Ring) : (onRing m i f).quay.slips = m.quay.slips := rfl
@[simp] theorem onJob_quay_slips (f : Job → Job) : (onJob m i f).quay.slips = m.quay.slips := rfl
@[simp] theorem onRing_quay_replays (f : Ring → Ring) : (onRing m i f).quay.replays = m.quay.replays := rfl
@[simp] theorem onJob_quay_replays (f : Job → Job) : (onJob m i f).quay.replays = m.quay.replays := rfl
@[simp] theorem onRing_quay_audits (f : Ring → Ring) : (onRing m i f).quay.audits = m.quay.audits := rfl
@[simp] theorem onJob_quay_audits (f : Job → Job) : (onJob m i f).quay.audits = m.quay.audits := rfl
@[simp] theorem onRing_quay_auditFails (f : Ring → Ring) : (onRing m i f).quay.auditFails = m.quay.auditFails := rfl
@[simp] theorem onJob_quay_auditFails (f : Job → Job) : (onJob m i f).quay.auditFails = m.quay.auditFails := rfl
@[simp] theorem onRing_quay_ievents (f : Ring → Ring) : (onRing m i f).quay.ievents = m.quay.ievents := rfl
@[simp] theorem onJob_quay_ievents (f : Job → Job) : (onJob m i f).quay.ievents = m.quay.ievents := rfl
@[simp] theorem onRing_quay_eos (f : Ring → Ring) : (onRing m i f).quay.eos = m.quay.eos := rfl
@[simp] theorem onJob_quay_eos (f : Job → Job) : (onJob m i f).quay.eos = m.quay.eos := rfl
@[simp] theorem onRing_quay_power (f : Ring → Ring) : (onRing m i f).quay.power = m.quay.power := rfl
@[simp] theorem onJob_quay_power (f : Job → Job) : (onJob m i f).quay.power = m.quay.power := rfl
@[simp] theorem onRing_quay_rr (f : Ring → Ring) : (onRing m i f).quay.rr = m.quay.rr := rfl
@[simp] theorem onJob_quay_rr (f : Job → Job) : (onJob m i f).quay.rr = m.quay.rr := rfl
@[simp] theorem onRing_quay_fetches (f : Ring → Ring) : (onRing m i f).quay.fetches = m.quay.fetches := rfl
@[simp] theorem onJob_quay_fetches (f : Job → Job) : (onJob m i f).quay.fetches = m.quay.fetches := rfl
@[simp] theorem onRing_quay_waiting (f : Ring → Ring) : (onRing m i f).quay.waiting = m.quay.waiting := rfl
@[simp] theorem onJob_quay_waiting (f : Job → Job) : (onJob m i f).quay.waiting = m.quay.waiting := rfl
@[simp] theorem onRing_quay_uploads (f : Ring → Ring) : (onRing m i f).quay.uploads = m.quay.uploads := rfl
@[simp] theorem onJob_quay_uploads (f : Job → Job) : (onJob m i f).quay.uploads = m.quay.uploads := rfl
@[simp] theorem onRing_quay_compl (f : Ring → Ring) : (onRing m i f).quay.compl = m.quay.compl := rfl
@[simp] theorem onJob_quay_compl (f : Job → Job) : (onJob m i f).quay.compl = m.quay.compl := rfl
@[simp] theorem onRing_quay_jobs (f : Ring → Ring) : (onRing m i f).quay.jobs = m.quay.jobs := rfl
@[simp] theorem onRing_quay_dir (f : Ring → Ring) : (onRing m i f).quay.dir = m.quay.dir := rfl
@[simp] theorem onJob_quay_dir (f : Job → Job) : (onJob m i f).quay.dir = m.quay.dir := rfl
@[simp] theorem onRing_quay_replicas (f : Ring → Ring) : (onRing m i f).quay.replicas = m.quay.replicas := rfl
@[simp] theorem onJob_quay_replicas (f : Job → Job) : (onJob m i f).quay.replicas = m.quay.replicas := rfl
@[simp] theorem onRing_quay_plans (f : Ring → Ring) : (onRing m i f).quay.plans = m.quay.plans := rfl
@[simp] theorem onJob_quay_plans (f : Job → Job) : (onJob m i f).quay.plans = m.quay.plans := rfl
@[simp] theorem onRing_quay_planSeq (f : Ring → Ring) : (onRing m i f).quay.planSeq = m.quay.planSeq := rfl
@[simp] theorem onJob_quay_planSeq (f : Job → Job) : (onJob m i f).quay.planSeq = m.quay.planSeq := rfl
@[simp] theorem onRing_quay_imageSets (f : Ring → Ring) : (onRing m i f).quay.imageSets = m.quay.imageSets := rfl
@[simp] theorem onJob_quay_imageSets (f : Job → Job) : (onJob m i f).quay.imageSets = m.quay.imageSets := rfl
@[simp] theorem onRing_quay_jobSets (f : Ring → Ring) : (onRing m i f).quay.jobSets = m.quay.jobSets := rfl
@[simp] theorem onJob_quay_jobSets (f : Job → Job) : (onJob m i f).quay.jobSets = m.quay.jobSets := rfl
@[simp] theorem onRing_quay_links (f : Ring → Ring) : (onRing m i f).quay.links = m.quay.links := rfl
@[simp] theorem onJob_quay_links (f : Job → Job) : (onJob m i f).quay.links = m.quay.links := rfl

@[simp] theorem clAt_onCl_same (f : Cluster → Cluster) : clAt (onCl m i f) i = f (clAt m i) := by
  simp [clAt, onCl, tmod]
theorem clAt_onCl_ne (f : Cluster → Cluster) (h : j ≠ i) : clAt (onCl m i f) j = clAt m j := by
  simp [clAt, onCl, tmod, tget_tset_ne _ h]
@[simp] theorem clAt_onDie (f : Die → Die) : clAt (onDie m j f) i = clAt m i := rfl
@[simp] theorem clAt_onStk (f : Stack → Stack) : clAt (onStk m j f) i = clAt m i := rfl
@[simp] theorem clAt_onRing (f : Ring → Ring) : clAt (onRing m j f) i = clAt m i := rfl
@[simp] theorem clAt_onJob (f : Job → Job) : clAt (onJob m j f) i = clAt m i := rfl
@[simp] theorem clAt_onQuay (f : Quay → Quay) : clAt (onQuay m f) i = clAt m i := rfl
@[simp] theorem clAt_onHedge (f : Hedge → Hedge) : clAt (onHedge m f) i = clAt m i := rfl
@[simp] theorem clAt_onPke (f : Pke → Pke) : clAt (onPke m f) i = clAt m i := rfl
@[simp] theorem clAt_onEp (f : Endpoint → Endpoint) : clAt (onEp m f) i = clAt m i := rfl
@[simp] theorem clAt_hostWrite (a : BitVec 64) (b : List Byte) : clAt (hostWrite m a b) i = clAt m i := rfl
@[simp] theorem clAt_aerReport (a : Aer) : clAt (aerReport m a) i = clAt m i := rfl
@[simp] theorem clAt_logLater (e : LogEvent) : clAt (logLater m e) i = clAt m i := rfl

@[simp] theorem dieAt_onDie_same (f : Die → Die) : dieAt (onDie m i f) i = f (dieAt m i) := by
  simp [dieAt, onDie, tmod]
theorem dieAt_onDie_ne (f : Die → Die) (h : j ≠ i) : dieAt (onDie m i f) j = dieAt m j := by
  simp [dieAt, onDie, tmod, tget_tset_ne _ h]
@[simp] theorem dieAt_onCl (f : Cluster → Cluster) : dieAt (onCl m j f) i = dieAt m i := rfl
@[simp] theorem dieAt_onStk (f : Stack → Stack) : dieAt (onStk m j f) i = dieAt m i := rfl
@[simp] theorem dieAt_onRing (f : Ring → Ring) : dieAt (onRing m j f) i = dieAt m i := rfl
@[simp] theorem dieAt_onJob (f : Job → Job) : dieAt (onJob m j f) i = dieAt m i := rfl
@[simp] theorem dieAt_onQuay (f : Quay → Quay) : dieAt (onQuay m f) i = dieAt m i := rfl
@[simp] theorem dieAt_onHedge (f : Hedge → Hedge) : dieAt (onHedge m f) i = dieAt m i := rfl
@[simp] theorem dieAt_onPke (f : Pke → Pke) : dieAt (onPke m f) i = dieAt m i := rfl
@[simp] theorem dieAt_onEp (f : Endpoint → Endpoint) : dieAt (onEp m f) i = dieAt m i := rfl
@[simp] theorem dieAt_hostWrite (a : BitVec 64) (b : List Byte) : dieAt (hostWrite m a b) i = dieAt m i := rfl
@[simp] theorem dieAt_aerReport (a : Aer) : dieAt (aerReport m a) i = dieAt m i := rfl
@[simp] theorem dieAt_logLater (e : LogEvent) : dieAt (logLater m e) i = dieAt m i := rfl

@[simp] theorem stkAt_onStk_same (f : Stack → Stack) : stkAt (onStk m i f) i = f (stkAt m i) := by
  simp [stkAt, onStk, tmod]
theorem stkAt_onStk_ne (f : Stack → Stack) (h : j ≠ i) : stkAt (onStk m i f) j = stkAt m j := by
  simp [stkAt, onStk, tmod, tget_tset_ne _ h]
@[simp] theorem stkAt_onCl (f : Cluster → Cluster) : stkAt (onCl m j f) i = stkAt m i := rfl
@[simp] theorem stkAt_onDie (f : Die → Die) : stkAt (onDie m j f) i = stkAt m i := rfl
@[simp] theorem stkAt_onRing (f : Ring → Ring) : stkAt (onRing m j f) i = stkAt m i := rfl
@[simp] theorem stkAt_onJob (f : Job → Job) : stkAt (onJob m j f) i = stkAt m i := rfl
@[simp] theorem stkAt_onQuay (f : Quay → Quay) : stkAt (onQuay m f) i = stkAt m i := rfl
@[simp] theorem stkAt_onHedge (f : Hedge → Hedge) : stkAt (onHedge m f) i = stkAt m i := rfl
@[simp] theorem stkAt_onPke (f : Pke → Pke) : stkAt (onPke m f) i = stkAt m i := rfl
@[simp] theorem stkAt_onEp (f : Endpoint → Endpoint) : stkAt (onEp m f) i = stkAt m i := rfl
@[simp] theorem stkAt_hostWrite (a : BitVec 64) (b : List Byte) : stkAt (hostWrite m a b) i = stkAt m i := rfl
@[simp] theorem stkAt_aerReport (a : Aer) : stkAt (aerReport m a) i = stkAt m i := rfl
@[simp] theorem stkAt_logLater (e : LogEvent) : stkAt (logLater m e) i = stkAt m i := rfl

@[simp] theorem ringAt_onRing_same (f : Ring → Ring) : ringAt (onRing m i f) i = f (ringAt m i) := by
  simp [ringAt, onRing, tmod, onQuay]
theorem ringAt_onRing_ne (f : Ring → Ring) (h : j ≠ i) : ringAt (onRing m i f) j = ringAt m j := by
  simp [ringAt, onRing, tmod, onQuay, tget_tset_ne _ h]
@[simp] theorem ringAt_onCl (f : Cluster → Cluster) : ringAt (onCl m j f) i = ringAt m i := rfl
@[simp] theorem ringAt_onDie (f : Die → Die) : ringAt (onDie m j f) i = ringAt m i := rfl
@[simp] theorem ringAt_onStk (f : Stack → Stack) : ringAt (onStk m j f) i = ringAt m i := rfl
@[simp] theorem ringAt_onJob (f : Job → Job) : ringAt (onJob m j f) i = ringAt m i := rfl
@[simp] theorem ringAt_onHedge (f : Hedge → Hedge) : ringAt (onHedge m f) i = ringAt m i := rfl
@[simp] theorem ringAt_onPke (f : Pke → Pke) : ringAt (onPke m f) i = ringAt m i := rfl
@[simp] theorem ringAt_onEp (f : Endpoint → Endpoint) : ringAt (onEp m f) i = ringAt m i := rfl
@[simp] theorem ringAt_hostWrite (a : BitVec 64) (b : List Byte) : ringAt (hostWrite m a b) i = ringAt m i := rfl
@[simp] theorem ringAt_aerReport (a : Aer) : ringAt (aerReport m a) i = ringAt m i := rfl
@[simp] theorem ringAt_logLater (e : LogEvent) : ringAt (logLater m e) i = ringAt m i := rfl

@[simp] theorem ctxOf_onCtx_same (c : Cluster) (f : Context → Context) : ctxOf (onCtx c i f) i = f (ctxOf c i) := by
  simp [ctxOf, onCtx, tmod]
theorem ctxOf_onCtx_ne (c : Cluster) (f : Context → Context) (h : j ≠ i) : ctxOf (onCtx c i f) j = ctxOf c j := by
  simp [ctxOf, onCtx, tmod, tget_tset_ne _ h]
@[simp] theorem engOf_onEng_same (c : Cluster) (e : Engine) (f : EngineState → EngineState) :
    engOf (onEng c e f) e = f (engOf c e) := by
  cases e <;> rfl
theorem engOf_onEng_ne (c : Cluster) {e g : Engine} (f : EngineState → EngineState) (h : g ≠ e) :
    engOf (onEng c e f) g = engOf c g := by
  cases e <;> cases g <;> first | rfl | exact absurd rfl h
@[simp] theorem jobAt_onJob_same (f : Job → Job) : jobAt (onJob m i f) i = (jobAt m i).map f := by
  simp [jobAt, onJob, onQuay, Quay.onJob, tmod]
theorem jobAt_onJob_ne (f : Job → Job) (h : j ≠ i) : jobAt (onJob m i f) j = jobAt m j := by
  simp [jobAt, onJob, onQuay, Quay.onJob, tmod, tget_tset_ne _ h]
@[simp] theorem onCl_comp (f g : Cluster → Cluster) (j : Nat) : clAt (onCl (onCl m i f) i g) i = g (f (clAt m i)) := by
  simp
@[simp] theorem ok_eq (s : State) (n : Module) : ok s n = .next { s with m := n } := rfl

/-! ## Signals, events and ring errors: what they can do -/

@[simp] theorem signalVec_now : (signalVec m i).now = m.now := by unfold signalVec; split <;> rfl
@[simp] theorem signalVec_free : (signalVec m i).free = m.free := by unfold signalVec; split <;> rfl
@[simp] theorem signalVec_ep : (signalVec m i).ep = m.ep := by unfold signalVec; split <;> rfl
@[simp] theorem signalVec_dies : (signalVec m i).dies = m.dies := by unfold signalVec; split <;> rfl
@[simp] theorem signalVec_clusters : (signalVec m i).clusters = m.clusters := by unfold signalVec; split <;> rfl
@[simp] theorem signalVec_stks : (signalVec m i).stks = m.stks := by unfold signalVec; split <;> rfl
@[simp] theorem signalVec_hedge : (signalVec m i).hedge = m.hedge := by unfold signalVec; split <;> rfl
@[simp] theorem signalVec_pke : (signalVec m i).pke = m.pke := by unfold signalVec; split <;> rfl
@[simp] theorem signalVec_transit : (signalVec m i).transit = m.transit := by unfold signalVec; split <;> rfl
@[simp] theorem signalVec_graves : (signalVec m i).graves = m.graves := by unfold signalVec; split <;> rfl
@[simp] theorem signalVec_flagIn : (signalVec m i).flagIn = m.flagIn := by unfold signalVec; split <;> rfl
@[simp] theorem signalVec_fenceSeq : (signalVec m i).fenceSeq = m.fenceSeq := by unfold signalVec; split <;> rfl
@[simp] theorem signalVec_hostOut : (signalVec m i).hostOut = m.hostOut := by unfold signalVec; split <;> rfl
@[simp] theorem signalVec_aer : (signalVec m i).aer = m.aer := by unfold signalVec; split <;> rfl
@[simp] theorem signalVec_jtagOut : (signalVec m i).jtagOut = m.jtagOut := by unfold signalVec; split <;> rfl
@[simp] theorem raiseEvt_now : (raiseEvt m i).now = m.now := by unfold raiseEvt; split <;> simp only [] <;> (try split) <;> simp
@[simp] theorem raiseEvt_free : (raiseEvt m i).free = m.free := by unfold raiseEvt; split <;> simp only [] <;> (try split) <;> simp
@[simp] theorem raiseEvt_ep : (raiseEvt m i).ep = m.ep := by unfold raiseEvt; split <;> simp only [] <;> (try split) <;> simp
@[simp] theorem raiseEvt_dies : (raiseEvt m i).dies = m.dies := by unfold raiseEvt; split <;> simp only [] <;> (try split) <;> simp
@[simp] theorem raiseEvt_clusters : (raiseEvt m i).clusters = m.clusters := by unfold raiseEvt; split <;> simp only [] <;> (try split) <;> simp
@[simp] theorem raiseEvt_stks : (raiseEvt m i).stks = m.stks := by unfold raiseEvt; split <;> simp only [] <;> (try split) <;> simp
@[simp] theorem raiseEvt_pke : (raiseEvt m i).pke = m.pke := by unfold raiseEvt; split <;> simp only [] <;> (try split) <;> simp
@[simp] theorem raiseEvt_transit : (raiseEvt m i).transit = m.transit := by unfold raiseEvt; split <;> simp only [] <;> (try split) <;> simp
@[simp] theorem raiseEvt_graves : (raiseEvt m i).graves = m.graves := by unfold raiseEvt; split <;> simp only [] <;> (try split) <;> simp
@[simp] theorem raiseEvt_flagIn : (raiseEvt m i).flagIn = m.flagIn := by unfold raiseEvt; split <;> simp only [] <;> (try split) <;> simp
@[simp] theorem raiseEvt_fenceSeq : (raiseEvt m i).fenceSeq = m.fenceSeq := by unfold raiseEvt; split <;> simp only [] <;> (try split) <;> simp
@[simp] theorem raiseEvt_hostOut : (raiseEvt m i).hostOut = m.hostOut := by unfold raiseEvt; split <;> simp only [] <;> (try split) <;> simp
@[simp] theorem raiseEvt_aer : (raiseEvt m i).aer = m.aer := by unfold raiseEvt; split <;> simp only [] <;> (try split) <;> simp
@[simp] theorem raiseEvt_jtagOut : (raiseEvt m i).jtagOut = m.jtagOut := by unfold raiseEvt; split <;> simp only [] <;> (try split) <;> simp
@[simp] theorem ringError_now (c : BitVec 3) : (ringError m i c).now = m.now := by simp [ringError]
@[simp] theorem ringError_free (c : BitVec 3) : (ringError m i c).free = m.free := by simp [ringError]
@[simp] theorem ringError_ep (c : BitVec 3) : (ringError m i c).ep = m.ep := by simp [ringError]
@[simp] theorem ringError_dies (c : BitVec 3) : (ringError m i c).dies = m.dies := by simp [ringError]
@[simp] theorem ringError_clusters (c : BitVec 3) : (ringError m i c).clusters = m.clusters := by simp [ringError]
@[simp] theorem ringError_stks (c : BitVec 3) : (ringError m i c).stks = m.stks := by simp [ringError]
@[simp] theorem ringError_hedge (c : BitVec 3) : (ringError m i c).hedge = m.hedge := by simp [ringError]
@[simp] theorem ringError_pke (c : BitVec 3) : (ringError m i c).pke = m.pke := by simp [ringError]
@[simp] theorem ringError_transit (c : BitVec 3) : (ringError m i c).transit = m.transit := by simp [ringError]
@[simp] theorem ringError_graves (c : BitVec 3) : (ringError m i c).graves = m.graves := by simp [ringError]
@[simp] theorem ringError_flagIn (c : BitVec 3) : (ringError m i c).flagIn = m.flagIn := by simp [ringError]
@[simp] theorem ringError_fenceSeq (c : BitVec 3) : (ringError m i c).fenceSeq = m.fenceSeq := by simp [ringError]
@[simp] theorem ringError_hostOut (c : BitVec 3) : (ringError m i c).hostOut = m.hostOut := by simp [ringError]
@[simp] theorem ringError_aer (c : BitVec 3) : (ringError m i c).aer = m.aer := by simp [ringError]
@[simp] theorem ringError_jtagOut (c : BitVec 3) : (ringError m i c).jtagOut = m.jtagOut := by simp [ringError]

/-- A signal keeps everything of the Quay but the pending bits. -/
theorem signalVec_quay_eq : (signalVec m i).quay = { m.quay with msixPba := (signalVec m i).quay.msixPba } := by
  unfold signalVec; split <;> rfl
@[simp] theorem ringAt_signalVec : ringAt (signalVec m j) i = ringAt m i := by unfold signalVec; split <;> rfl
@[simp] theorem jobAt_signalVec : jobAt (signalVec m j) i = jobAt m i := by unfold signalVec; split <;> rfl

@[simp] theorem signalVec_quay_sram : (signalVec m i).quay.sram = m.quay.sram := by rw [signalVec_quay_eq]
@[simp] theorem signalVec_quay_ready : (signalVec m i).quay.ready = m.quay.ready := by rw [signalVec_quay_eq]
@[simp] theorem signalVec_quay_qstate : (signalVec m i).quay.qstate = m.quay.qstate := by rw [signalVec_quay_eq]
@[simp] theorem signalVec_quay_quiesceD3 : (signalVec m i).quay.quiesceD3 = m.quay.quiesceD3 := by rw [signalVec_quay_eq]
@[simp] theorem signalVec_quay_quiesceBad : (signalVec m i).quay.quiesceBad = m.quay.quiesceBad := by rw [signalVec_quay_eq]
@[simp] theorem signalVec_quay_ideReq : (signalVec m i).quay.ideReq = m.quay.ideReq := by rw [signalVec_quay_eq]
@[simp] theorem signalVec_quay_lock : (signalVec m i).quay.lock = m.quay.lock := by rw [signalVec_quay_eq]
@[simp] theorem signalVec_quay_rdRate : (signalVec m i).quay.rdRate = m.quay.rdRate := by rw [signalVec_quay_eq]
@[simp] theorem signalVec_quay_wrRate : (signalVec m i).quay.wrRate = m.quay.wrRate := by rw [signalVec_quay_eq]
@[simp] theorem signalVec_quay_rdLat : (signalVec m i).quay.rdLat = m.quay.rdLat := by rw [signalVec_quay_eq]
@[simp] theorem signalVec_quay_pcap : (signalVec m i).quay.pcap = m.quay.pcap := by rw [signalVec_quay_eq]
@[simp] theorem signalVec_quay_evt : (signalVec m i).quay.evt = m.quay.evt := by rw [signalVec_quay_eq]
@[simp] theorem signalVec_quay_evtEn : (signalVec m i).quay.evtEn = m.quay.evtEn := by rw [signalVec_quay_eq]
@[simp] theorem signalVec_quay_killTag : (signalVec m i).quay.killTag = m.quay.killTag := by rw [signalVec_quay_eq]
@[simp] theorem signalVec_quay_half : (signalVec m i).quay.half = m.quay.half := by rw [signalVec_quay_eq]
@[simp] theorem signalVec_quay_rings : (signalVec m i).quay.rings = m.quay.rings := by rw [signalVec_quay_eq]
@[simp] theorem signalVec_quay_msixTable : (signalVec m i).quay.msixTable = m.quay.msixTable := by rw [signalVec_quay_eq]
@[simp] theorem signalVec_quay_msixCtl : (signalVec m i).quay.msixCtl = m.quay.msixCtl := by rw [signalVec_quay_eq]
@[simp] theorem signalVec_quay_admitted : (signalVec m i).quay.admitted = m.quay.admitted := by rw [signalVec_quay_eq]
@[simp] theorem signalVec_quay_finished : (signalVec m i).quay.finished = m.quay.finished := by rw [signalVec_quay_eq]
@[simp] theorem signalVec_quay_slips : (signalVec m i).quay.slips = m.quay.slips := by rw [signalVec_quay_eq]
@[simp] theorem signalVec_quay_replays : (signalVec m i).quay.replays = m.quay.replays := by rw [signalVec_quay_eq]
@[simp] theorem signalVec_quay_audits : (signalVec m i).quay.audits = m.quay.audits := by rw [signalVec_quay_eq]
@[simp] theorem signalVec_quay_auditFails : (signalVec m i).quay.auditFails = m.quay.auditFails := by rw [signalVec_quay_eq]
@[simp] theorem signalVec_quay_ievents : (signalVec m i).quay.ievents = m.quay.ievents := by rw [signalVec_quay_eq]
@[simp] theorem signalVec_quay_eos : (signalVec m i).quay.eos = m.quay.eos := by rw [signalVec_quay_eq]
@[simp] theorem signalVec_quay_power : (signalVec m i).quay.power = m.quay.power := by rw [signalVec_quay_eq]
@[simp] theorem signalVec_quay_rr : (signalVec m i).quay.rr = m.quay.rr := by rw [signalVec_quay_eq]
@[simp] theorem signalVec_quay_fetches : (signalVec m i).quay.fetches = m.quay.fetches := by rw [signalVec_quay_eq]
@[simp] theorem signalVec_quay_waiting : (signalVec m i).quay.waiting = m.quay.waiting := by rw [signalVec_quay_eq]
@[simp] theorem signalVec_quay_uploads : (signalVec m i).quay.uploads = m.quay.uploads := by rw [signalVec_quay_eq]
@[simp] theorem signalVec_quay_compl : (signalVec m i).quay.compl = m.quay.compl := by rw [signalVec_quay_eq]
@[simp] theorem signalVec_quay_jobs : (signalVec m i).quay.jobs = m.quay.jobs := by rw [signalVec_quay_eq]
@[simp] theorem signalVec_quay_dir : (signalVec m i).quay.dir = m.quay.dir := by rw [signalVec_quay_eq]
@[simp] theorem signalVec_quay_replicas : (signalVec m i).quay.replicas = m.quay.replicas := by rw [signalVec_quay_eq]
@[simp] theorem signalVec_quay_plans : (signalVec m i).quay.plans = m.quay.plans := by rw [signalVec_quay_eq]
@[simp] theorem signalVec_quay_planSeq : (signalVec m i).quay.planSeq = m.quay.planSeq := by rw [signalVec_quay_eq]
@[simp] theorem signalVec_quay_imageSets : (signalVec m i).quay.imageSets = m.quay.imageSets := by rw [signalVec_quay_eq]
@[simp] theorem signalVec_quay_jobSets : (signalVec m i).quay.jobSets = m.quay.jobSets := by rw [signalVec_quay_eq]
@[simp] theorem signalVec_quay_links : (signalVec m i).quay.links = m.quay.links := by rw [signalVec_quay_eq]

@[simp] theorem ringAt_ringError_same (c : BitVec 3) : ringAt (ringError m i c) i = { ringAt m i with err := c } := by
  simp [ringError, ringAt_signalVec]
  simp [ringAt, onRing, onQuay, tmod]
theorem ringAt_ringError_ne (c : BitVec 3) (h : j ≠ i) : ringAt (ringError m i c) j = ringAt m j := by
  simp [ringError, ringAt_signalVec]
  simp [ringAt, onRing, onQuay, tmod, tget_tset_ne _ h]

end Sys2Proof.Machine
end

