-- ==== Sys2Proof/Laws/Ops.lean ====
section
/-! SUPPORT. What each shared operation can do, once for each operation: replay requests, scratchpad and stack accesses,
flags, the job kill, the settling of fences, and an attempt of a sequencer instruction. -/
namespace Sys2Proof.Machine
variable (m : Module) (tag cl k : Nat)

/-! ## Folds -/

/-- A property that every step of a fold keeps holds at its end. -/
theorem foldl_keeps {α β : Type} (P : β → Prop) (f : β → α → β) (hf : ∀ b a, P b → P (f b a)) :
    ∀ (l : List α) (b : β), P b → P (l.foldl f b)
  | [], _, h => h
  | a :: l, b, h => foldl_keeps P f hf l (f b a) (hf b a h)

/-! ## Replay requests and the log -/

/-- A replay request changes the jobs alone. -/
theorem askReplay_eq (c : ReplayCause) :
    askReplay m tag c = { m with quay := { m.quay with jobs := (askReplay m tag c).quay.jobs } } := rfl

/-- The job that a replay request names waits for the first cause, while its budget lasts. -/
theorem jobAt_askReplay (c : ReplayCause) : jobAt (askReplay m tag c) tag =
    (jobAt m tag).map (fun j => if canReplay j && j.replayReq.isNone then { j with replayReq := some c } else j) := by
  simp [askReplay]

/-- Another job does not see it. -/
theorem jobAt_askReplay_ne (c : ReplayCause) {t : Nat} (h : t ≠ tag) : jobAt (askReplay m tag c) t = jobAt m t := by
  simp [askReplay, jobAt_onJob_ne _ _ _ _ h]

/-- An uncorrectable word changes the jobs and the Hedge's waiting log and tests. -/
theorem scrUnc_eq (w : Nat) : scrUnc m cl tag w = { m with
    quay := { m.quay with jobs := (scrUnc m cl tag w).quay.jobs },
    hedge := { m.hedge with logQ := (scrUnc m cl tag w).hedge.logQ, testing := (scrUnc m cl tag w).hedge.testing } } := by
  unfold scrUnc
  dsimp only [onHedge, logLater]
  split <;> rfl

/-! ## Scratchpad -/

/-- A read changes the counters and the rewrite queue of the cluster. -/
theorem scrReadFx_eq (c : Cluster) (ws : List Nat) : scrReadFx c ws = { c with
    fenceHits := (scrReadFx c ws).fenceHits, eccCorr := (scrReadFx c ws).eccCorr, eccUnc := (scrReadFx c ws).eccUnc,
    eccDrop := (scrReadFx c ws).eccDrop, rewriteQ := (scrReadFx c ws).rewriteQ } := rfl

/-- A write changes the words, their check state and the counter of the fence. -/
theorem scrWrite_eq (c : Cluster) (w : Nat) (v : Word) : scrWrite c w v = { c with
    fenceHits := (scrWrite c w v).fenceHits, scratch := (scrWrite c w v).scratch, spErr := (scrWrite c w v).spErr,
    lost := (scrWrite c w v).lost } := by
  unfold scrWrite; split <;> rfl

/-- So do the writes of a list. -/
theorem scrWrites_eq (ws : List (Nat × Word)) : ∀ c : Cluster, scrWrites c ws = { c with
    fenceHits := (scrWrites c ws).fenceHits, scratch := (scrWrites c ws).scratch, spErr := (scrWrites c ws).spErr,
    lost := (scrWrites c ws).lost } := by
  induction ws with
  | nil => intro c; rfl
  | cons p ws ih =>
    intro c
    have h := ih (scrWrite c p.1 p.2)
    rw [scrWrite_eq c p.1 p.2] at h
    rw [show scrWrites c (p :: ws) = scrWrites (scrWrite c p.1 p.2) ws from rfl, scrWrite_eq c p.1 p.2]
    exact h

/-- A write keeps the canonical form of the slice. -/
theorem memWf_scrWrite (c : Cluster) (w : Nat) (v : Word) (h : memWf c.scratch = true) :
    memWf (scrWrite c w v).scratch = true := by
  unfold scrWrite
  split
  · exact h
  · exact memWf_mput _ _ h

/-- So do the writes of a list. -/
theorem memWf_scrWrites (ws : List (Nat × Word)) (c : Cluster) (h : memWf c.scratch = true) :
    memWf (scrWrites c ws).scratch = true :=
  foldl_keeps (fun c : Cluster => memWf c.scratch = true) _ (fun b a hb => memWf_scrWrite b a.1 a.2 hb) ws c h

/-- The cluster after an access, and every other one. -/
theorem clAt_scrAccess (reads : List Nat) (writes : List (Nat × Word)) (q : Nat) :
    clAt (scrAccess m cl tag reads writes) q =
      if q = cl then scrWrites (scrReadFx (clAt m cl) reads) writes else clAt m q := by
  unfold scrAccess
  dsimp only
  split
  · rw [show ∀ n w, clAt (scrUnc n cl tag w) q = clAt n q from fun n w => by rw [scrUnc_eq]; rfl]
    split
    · next h => subst h; simp
    · next h => simp [clAt_onCl_ne _ _ _ _ h]
  · split
    · next h => subst h; simp
    · next h => simp [clAt_onCl_ne _ _ _ _ h]

/-- An access changes clusters, jobs, and what an uncorrectable word leaves with the Hedge. -/
theorem scrAccess_eq (reads : List Nat) (writes : List (Nat × Word)) :
    scrAccess m cl tag reads writes = { m with
      clusters := (scrAccess m cl tag reads writes).clusters,
      quay := { m.quay with jobs := (scrAccess m cl tag reads writes).quay.jobs },
      hedge := { m.hedge with logQ := (scrAccess m cl tag reads writes).hedge.logQ,
                              testing := (scrAccess m cl tag reads writes).hedge.testing } } := by
  unfold scrAccess
  dsimp only
  split
  · rw [scrUnc_eq]; rfl
  · rfl

/-! ## Stacks -/

/-- A write keeps the canonical form of a stack's bytes. -/
theorem memWf_stkWrite (s : Stack) (off : Nat) (bs : List Byte) (h : memWf s.mem = true) :
    memWf (stkWrite s off bs).mem = true := memWf_mput _ _ h

/-- A write outside the fence: the bytes written read back, every other byte is as it was. -/
theorem mget_stkWrite (s : Stack) (off : Nat) (bs : List Byte) (h : memWf s.mem = true) (hf : s.fence = []) (a : Nat) :
    mget (stkWrite s off bs).mem a = if off ≤ a ∧ a < off + bs.length then bs.getD (a - off) 0 else mget s.mem a := by
  have hk : (bs.zipIdx.map (fun p => if stkFenced s (off + p.2) then (mbytes s.mem off bs.length).getD p.2 0 else p.1)) = bs := by
    have : ∀ b, stkFenced s b = false := by intro b; simp [stkFenced, hf]
    simp [this]
  show mget (mput s.mem off _) a = _
  rw [hk, mget_mput _ _ _ h]

/-- A read leaves the bytes and the errors of the stack. -/
theorem stkSee_eq (st : Nat) (s : Stack) (off n : Nat) : stkSee st s off n = { s with
    eccCorr := (stkSee st s off n).eccCorr, eccUnc := (stkSee st s off n).eccUnc, eccDrop := (stkSee st s off n).eccDrop,
    rewriteQ := (stkSee st s off n).rewriteQ, lastUnc := (stkSee st s off n).lastUnc } := rfl

/-! ## Flags and the end of a job -/

/-- An addition changes what this a-cycle brings the flags, alone. -/
theorem addFlag_eq (addr amount : Nat) : addFlag m addr amount tag = { m with
    flagIn := (addFlag m addr amount tag).flagIn } := rfl

/-- The flag's count of the a-cycle grows by it. -/
theorem lsum_append : ∀ a b : List Nat, lsum (a ++ b) = lsum a + lsum b
  | [], b => by simp [lsum]
  | x :: a, b => by simp [lsum, lsum_append a b]; omega

theorem flagCount_addFlag (addr amount : Nat) : flagCount (addFlag m addr amount tag) addr = flagCount m addr + amount := by
  simp [flagCount, addFlag, flagPlace, clAt, lsum_append, lsum]
  omega

/-- The count of another flag does not see it. -/
theorem flagCount_addFlag_ne {a b : Nat} (amount : Nat) (h : a ≠ b) : flagCount (addFlag m a amount tag) b = flagCount m b := by
  simp [flagCount, addFlag, flagPlace, clAt, lsum_append, lsum, h]

/-- Additions that keep a flag at or below 65,535 give it its new count. -/
theorem settleFlag_fits (addr : Nat)
    (h : (tget (0 : BitVec 16) (clAt m (bits addr 16 8)).flags (bits addr 7 0)).toNat
      + lsum ((m.flagIn.filter (fun e => decide (e.addr = addr))).map (·.add)) ≤ 65535) :
    let n := (tget (0 : BitVec 16) (clAt m (bits addr 16 8)).flags (bits addr 7 0)).toNat
      + lsum ((m.flagIn.filter (fun e => decide (e.addr = addr))).map (·.add))
    settleFlag m addr = onCl m (bits addr 16 8) (fun c =>
      { c with flags := tset 0 c.flags (bits addr 7 0) (BitVec.ofNat 16 n) }) := by
  unfold settleFlag flagPlace
  exact if_pos h

/-- An a-cycle that brings the flags nothing only counts. -/
theorem tick_quiet (h : m.flagIn = []) : tick m = { m with now := m.now + 1 } := by
  unfold tick
  rw [h]
  show { m with flagIn := [], now := m.now + 1 } = _
  rw [← h]

/-- The end of a job changes the jobs and the completions. -/
theorem finishJob_eq (status detail : BitVec 8) (count : Option Nat) (snap : Option (BitVec 64 × List Byte)) :
    finishJob m tag status detail count snap = { m with quay := { m.quay with
      jobs := (finishJob m tag status detail count snap).quay.jobs,
      compl := (finishJob m tag status detail count snap).quay.compl } } := by
  unfold finishJob; split <;> rfl

/-- The completion that the end of a job queues. -/
theorem finishJob_compl (status detail : BitVec 8) (count : Option Nat) (snap : Option (BitVec 64 × List Byte)) {j : Job}
    (h : jobAt m tag = some j) : (finishJob m tag status detail count snap).quay.compl =
      m.quay.compl ++ [completionOf tag j status detail count (jobMhz m j) (tDone m) snap] := by
  unfold finishJob; rw [h]; rfl

/-- What is not a job's: a clock, the endpoint, the Hedge but for its DRBG's count, the PKE, what the module sent, and the Quay's other registers. -/
def SameRest (a b : Module) : Prop :=
  b = { a with clusters := b.clusters, dies := b.dies, stks := b.stks, transit := b.transit, graves := b.graves,
               flagIn := b.flagIn,
               fenceSeq := b.fenceSeq, quay := { a.quay with jobs := b.quay.jobs, compl := b.quay.compl },
               hedge := { a.hedge with drbgGens := b.hedge.drbgGens } }

theorem SameRest.refl (a : Module) : SameRest a a := rfl

theorem SameRest.trans {a b c : Module} (h : SameRest a b) (g : SameRest b c) : SameRest a c := by
  unfold SameRest at *; rw [g, h]

theorem SameRest.onCl (a : Module) (i : Nat) (f : Cluster → Cluster) : SameRest a (onCl a i f) := rfl
theorem SameRest.onDie (a : Module) (i : Nat) (f : Die → Die) : SameRest a (onDie a i f) := rfl
theorem SameRest.onStk (a : Module) (i : Nat) (f : Stack → Stack) : SameRest a (onStk a i f) := rfl
theorem SameRest.onJob (a : Module) (i : Nat) (f : Job → Job) : SameRest a (onJob a i f) := rfl

/-- The rows of destinations behind the fence. -/
theorem fenceDests_rest (f : Nat) (ds : List (Nat × Nat × Nat)) :
    SameRest m (fenceDests m f ds) ∧ (fenceDests m f ds).quay = m.quay :=
  foldl_keeps (fun b : Module => SameRest m b ∧ b.quay = m.quay) _ (fun b _ hb => ⟨hb.1.trans (.onCl b _ _), hb.2⟩) ds m ⟨rfl, rfl⟩

/-- The fenced units of a die entry. -/
theorem fenceUnits_rest (f : Nat) (h : DieHold) : SameRest m (fenceUnits m f h) ∧ (fenceUnits m f h).quay = m.quay := by
  unfold fenceUnits; split <;> exact ⟨rfl, rfl⟩

/-- The tear-down of a job's resources leaves the rest of the module, and the Quay. -/
theorem tearDown_rest (j : Job) (code : BitVec 4) :
    SameRest m (tearDown m tag j code) ∧ (tearDown m tag j code).quay = m.quay := by
  let P (b : Module) : Prop := SameRest m b ∧ b.quay = m.quay
  have h1 : P (j.clusters.foldl (fun a h => onCl a h.cl (killCluster tag code (m.fenceSeq + 1) h)) m) :=
    foldl_keeps P _ (fun b x hb => ⟨hb.1.trans (.onCl b _ _), hb.2⟩) _ _ ⟨rfl, rfl⟩
  have hF := fenceDests_rest (j.clusters.foldl (fun a h => onCl a h.cl (killCluster tag code (m.fenceSeq + 1) h)) m) (m.fenceSeq + 1)
    (j.dies.flatMap (fun h => (dieAt m h.die).ste.flatMap (fun p => streamDests (some tag) p.2)))
  have h2 := foldl_keeps P
    (fun a h => fenceUnits (fiOff (onDie a h.die (killDie tag j.started)) h.die) (m.fenceSeq + 1) h)
    (fun b x hb => by
      have hd : SameRest b (fiOff (onDie b x.die (killDie tag j.started)) x.die) := rfl
      exact ⟨(hb.1.trans hd).trans (fenceUnits_rest _ _ _).1, (fenceUnits_rest _ _ _).2.trans hb.2⟩) j.dies _
    ⟨h1.1.trans hF.1, hF.2.trans h1.2⟩
  exact ⟨h2.1.trans rfl, h2.2⟩

/-- The kill of a job does nothing to the rest of the module. -/
theorem killJob_rest (cause : KillCause) (trip : Option (Nat × Nat)) : SameRest m (killJob m tag cause trip) := by
  unfold killJob
  split
  · exact .refl m
  · split
    · exact .refl m
    · dsimp only
      rw [finishJob_eq]
      split
      · exact ((SameRest.onJob m tag _).trans (tearDown_rest _ _ _ _).1).trans rfl
      · exact rfl

/-- A job that has ended, or was killed before, is not killed again. -/
theorem killJob_skip (cause : KillCause) (trip : Option (Nat × Nat))
    (h : ∀ j, jobAt m tag = some j → j.killed ≠ none ∨ j.phase = .finishing) : killJob m tag cause trip = m := by
  unfold killJob
  split
  · rfl
  · next j hj =>
    rw [if_pos]
    rcases h j hj with hk | hp
    · cases hkk : j.killed with
      | none => exact absurd hkk hk
      | some c => simp
    · simp [hp]

/-- The kill of a job in flight queues one completion, with the cause's status and detail. -/
theorem killJob_compl (cause : KillCause) (trip : Option (Nat × Nat)) {j : Job} (h : jobAt m tag = some j)
    (hk : j.killed = none) (hp : j.phase ≠ .finishing) : ∃ x : Completion,
      (killJob m tag cause trip).quay.compl = m.quay.compl ++ [x] ∧ x.job = some tag
        ∧ x.status = (killStatus cause).1 ∧ x.detail = (killStatus cause).2 ∧ x.cid = j.desc.cid ∧ x.ring = j.desc.ring := by
  have slips : ∀ (l : List ClHold) (a : Job), (l.foldl (fun j h => addSlips j (clAt m h.cl) tag) a).desc = a.desc := by
    intro l a
    refine foldl_keeps (fun b : Job => b.desc = a.desc) _ (fun b h hb => ?_) l a rfl
    unfold addSlips
    apply foldl_keeps (fun c : Job => c.desc = a.desc)
    · exact fun _ _ hc => hc
    · exact hb
  unfold killJob
  rw [h]
  dsimp only
  rw [if_neg (by simp [hk, hp])]
  generalize hj' : withSlips m tag j = j'
  have hd : j'.desc = j.desc := hj' ▸ slips _ _
  have h1 : jobAt (onJob m tag (fun _ => { j' with killed := some cause })) tag = some { j' with killed := some cause } := by
    simp [h]
  split
  · have ht := (tearDown_rest (onJob m tag (fun _ => { j' with killed := some cause })) tag j' (killCode cause)).2
    have h2 : jobAt (tearDown (onJob m tag (fun _ => { j' with killed := some cause })) tag j' (killCode cause)) tag =
        some { j' with killed := some cause } := by unfold jobAt at *; rw [ht]; exact h1
    have h3 : jobAt (reseed (tearDown (onJob m tag (fun _ => { j' with killed := some cause })) tag j' (killCode cause))) tag =
        some { j' with killed := some cause } := h2
    rw [finishJob_compl _ _ _ _ _ _ h3,
      show (reseed (tearDown (onJob m tag (fun _ => { j' with killed := some cause })) tag j' (killCode cause))).quay =
        (tearDown (onJob m tag (fun _ => { j' with killed := some cause })) tag j' (killCode cause)).quay from rfl, ht]
    exact ⟨_, rfl, rfl, rfl, rfl, congrArg JobDesc.cid hd, congrArg JobDesc.ring hd⟩
  · have h3 : jobAt (reseed (onJob m tag (fun _ => { j' with killed := some cause }))) tag =
        some { j' with killed := some cause } := h1
    rw [finishJob_compl _ _ _ _ _ _ h3]
    exact ⟨_, rfl, rfl, rfl, rfl, congrArg JobDesc.cid hd, congrArg JobDesc.ring hd⟩

/-! ## Entries of tables -/

/-- What holds of every entry of a table and of the value written holds of every entry afterwards. -/
theorem tset_all {α : Type} [DecidableEq α] (P : α → Prop) {d v : α} {i : Nat} (hv : P v) :
    ∀ t : Tab α, (∀ p ∈ t, P p.2) → ∀ p ∈ tset d t i v, P p.2
  | [], _, p, hp => by
    unfold tset at hp
    split at hp
    · cases hp
    · rw [List.mem_singleton] at hp; subst hp; exact hv
  | (j, w) :: t, ht, p, hp => by
    have h1 : P w := ht (j, w) List.mem_cons_self
    have h2 : ∀ q ∈ t, P q.2 := fun q hq => ht q (List.mem_cons_of_mem _ hq)
    unfold tset at hp
    split at hp
    · split at hp
      · exact ht p hp
      · rcases List.mem_cons.1 hp with rfl | hp
        · exact hv
        · exact ht p hp
    · split at hp
      · split at hp
        · exact h2 p ((List.dropWhile_sublist _).subset hp)
        · rcases List.mem_cons.1 hp with rfl | hp
          · exact hv
          · exact h2 p hp
      · rcases List.mem_cons.1 hp with rfl | hp
        · exact h1
        · exact tset_all P hv t h2 p hp

/-- What holds of every entry and of the unlisted value holds of what a read gives. -/
theorem tget_all {α : Type} (P : α → Prop) {d : α} {i : Nat} (hd : P d) :
    ∀ t : Tab α, (∀ p ∈ t, P p.2) → P (tget d t i)
  | [], _ => hd
  | (j, w) :: t, ht => by
    unfold tget
    split
    · exact ht (j, w) List.mem_cons_self
    · split
      · exact hd
      · exact tget_all P hd t (fun q hq => ht q (List.mem_cons_of_mem _ hq))

/-- A property of every cluster stays when the change of one cluster keeps it. -/
theorem onCl_all (P : Cluster → Prop) (f : Cluster → Cluster) (hd : P {}) (hf : ∀ c, P c → P (f c))
    (h : ∀ p ∈ m.clusters, P p.2) : ∀ p ∈ (onCl m cl f).clusters, P p.2 :=
  tset_all P (hf _ (tget_all P hd _ h)) _ h

/-- A property of every stack stays when the change of one stack keeps it. -/
theorem onStk_all (P : Stack → Prop) (f : Stack → Stack) (hd : P {}) (hf : ∀ c, P c → P (f c))
    (h : ∀ p ∈ m.stks, P p.2) : ∀ p ∈ (onStk m k f).stks, P p.2 :=
  tset_all P (hf _ (tget_all P hd _ h)) _ h

/-- A property that the kill of a job keeps on every cluster holds on every cluster after the tear-down. -/
theorem tearDown_clusters (P : Cluster → Prop) (hd : P {}) (j : Job) (code : BitVec 4)
    (hf : ∀ (f : Nat) (h : ClHold) (c : Cluster), P c → P (killCluster tag code f h c))
    (hF : ∀ (rows : List Nat) (f : Nat) (c : Cluster), P c → P (fenceList c rows f))
    (h : ∀ p ∈ m.clusters, P p.2) : ∀ p ∈ (tearDown m tag j code).clusters, P p.2 := by
  have h1 := foldl_keeps (fun b : Module => ∀ p ∈ b.clusters, P p.2)
    (fun a x => onCl a x.cl (killCluster tag code (m.fenceSeq + 1) x))
    (fun b x hb => onCl_all b x.cl P _ hd (hf _ _) hb) j.clusters m h
  have h3 := foldl_keeps (fun b : Module => ∀ p ∈ b.clusters, P p.2)
    (fun a d => onCl a d.1 (fun c => fenceList c
      (((List.range (d.2.2 + 1 - d.2.1)).map (d.2.1 + ·)).filter
        (fun r => !c.fence.any (fun f => decide (f.row = r ∧ f.fence = m.fenceSeq + 1)))) (m.fenceSeq + 1)))
    (fun b x hb => onCl_all b _ P _ hd (fun c => hF _ _ c) hb)
    (j.dies.flatMap (fun h => (dieAt m h.die).ste.flatMap (fun p => streamDests (some tag) p.2))) _ h1
  have h2 := foldl_keeps (fun b : Module => ∀ p ∈ b.clusters, P p.2)
    (fun a x => fenceUnits (fiOff (onDie a x.die (killDie tag j.started)) x.die) (m.fenceSeq + 1) x)
    (fun b x hb => by
      show ∀ p ∈ (fenceUnits (fiOff (onDie b x.die (killDie tag j.started)) x.die) _ x).clusters, P p.2
      unfold fenceUnits; split <;> exact hb) j.dies _ h3
  exact h2

/-- The same for the kill itself. -/
theorem killJob_clusters (P : Cluster → Prop) (hd : P {}) (cause : KillCause) (trip : Option (Nat × Nat))
    (hf : ∀ (f : Nat) (h : ClHold) (c : Cluster), P c → P (killCluster tag (killCode cause) f h c))
    (hF : ∀ (rows : List Nat) (f : Nat) (c : Cluster), P c → P (fenceList c rows f))
    (h : ∀ p ∈ m.clusters, P p.2) : ∀ p ∈ (killJob m tag cause trip).clusters, P p.2 := by
  unfold killJob
  split
  · exact h
  · split
    · exact h
    · dsimp only
      rw [finishJob_eq]
      split
      · exact tearDown_clusters (m := onJob m tag _) tag P hd _ _ hf hF h
      · exact h

/-- Rows put behind the fence keep their words. -/
theorem fenceList_scratch (rows : List Nat) (f : Nat) (c : Cluster) : (fenceList c rows f).scratch = c.scratch := rfl

/-- The kill of a job leaves the words of every slice: its rows go behind the fence. -/
theorem killCluster_scratch (code : BitVec 4) (f : Nat) (h : ClHold) (c : Cluster) :
    (killCluster tag code f h c).scratch = c.scratch := rfl

/-! ## Fences -/

/-- A cluster without flags, queues and reservations of a cleared grave keeps all else. -/
theorem clAt_clearGrave (g : Grave) (q : Nat) : ∃ fl qs rs fr, clAt (clearGrave m g) q =
    { clAt m q with flags := fl, queues := qs, reserved := rs, freed := fr } := by
  let P (b : Module) : Prop := ∃ fl qs rs fr, clAt b q = { clAt m q with flags := fl, queues := qs, reserved := rs, freed := fr }
  have h1 : P (g.clusters.foldl (fun m h => onCl m h.cl (fun c => { c with
      flags := c.flags.filter (fun p => decide (p.1 < h.flag0 ∨ h.flag0 + h.flags ≤ p.1)),
      queues := c.queues.filter (fun p => decide (p.1 < h.queue0 ∨ h.queue0 + h.queues ≤ p.1)),
      reserved := c.reserved.filter (fun p => decide (p.1 < h.queue0 ∨ h.queue0 + h.queues ≤ p.1)),
      freed := c.freed.filter (fun p => decide (p.1 < h.queue0 ∨ h.queue0 + h.queues ≤ p.1)) })) (dropFlagIn m g.clusters)) := by
    refine foldl_keeps P _ (fun b x hb => ?_) _ _ ⟨_, _, _, _, rfl⟩
    obtain ⟨fl, qs, rs, fr, hb⟩ := hb
    by_cases hq : q = x.cl
    · subst hq
      exact ⟨_, _, _, _, by rw [clAt_onCl_same, hb]⟩
    · exact ⟨fl, qs, rs, fr, by rw [clAt_onCl_ne _ _ _ _ hq, hb]⟩
  unfold clearGrave
  apply foldl_keeps P
  · exact fun b x hb => hb
  · exact h1

/-- Settling the fences changes clusters, dies, what this a-cycle brings the flags, and graves. -/
theorem settleFences_eq : settleFences m = { m with
    clusters := (settleFences m).clusters, dies := (settleFences m).dies, flagIn := (settleFences m).flagIn, graves := (settleFences m).graves } := by
  let P (b : Module) : Prop := b = { m with clusters := b.clusters, dies := b.dies, flagIn := b.flagIn }
  have hg : ∀ b g, P b → P (clearGrave b g) := by
    intro b g hb
    have hd : P (dropFlagIn b g.clusters) := by
      show _ = _
      rw [show b = _ from hb]; rfl
    refine foldl_keeps P _ (fun c x hc => ?_) _ _ (foldl_keeps P _ (fun c x hc => ?_) _ _ hd) <;>
      (show _ = _; rw [show c = _ from hc]; rfl)
  have h := foldl_keeps P clearGrave hg (m.graves.filter (fun g => !fenceLive m g.fence)) m rfl
  unfold settleFences
  dsimp only
  rw [show List.foldl clearGrave m _ = _ from h]

/-- What settling leaves of a cluster. -/
theorem clAt_settleFences (q : Nat) : ∃ fl qs rs fr, clAt (settleFences m) q =
    { clAt m q with flags := fl, queues := qs, reserved := rs, freed := fr } := by
  refine foldl_keeps (fun b : Module => ∃ fl qs rs fr, clAt b q = { clAt m q with flags := fl, queues := qs, reserved := rs, freed := fr })
    clearGrave (fun b g hb => ?_) (m.graves.filter (fun g => !fenceLive m g.fence)) m ⟨_, _, _, _, rfl⟩
  obtain ⟨fl, qs, rs, fr, hb⟩ := hb
  obtain ⟨fl', qs', rs', fr', h⟩ := clAt_clearGrave b g q
  exact ⟨fl', qs', rs', fr', by rw [h, hb]⟩

/-! ## An attempt of an instruction -/

/-- A hold changes one context of one cluster. -/
theorem clAt_addHold (cause obj want have_ q : Nat) : clAt (addHold m cl k cause obj want have_) q =
    if q = cl then { clAt m q with ctxs := (clAt (addHold m cl k cause obj want have_) q).ctxs } else clAt m q := by
  by_cases h : q = cl
  · subst h
    rw [if_pos rfl]
    unfold addHold
    rw [clAt_onCl_same]
    rfl
  · rw [if_neg h]
    exact clAt_onCl_ne _ _ _ _ h

/-- The other contexts do not see it. -/
theorem ctxOf_addHold_ne (cause obj want have_ : Nat) {q : Nat} (h : q ≠ k) :
    ctxOf (clAt (addHold m cl k cause obj want have_) cl) q = ctxOf (clAt m cl) q := by
  unfold addHold
  dsimp only
  rw [clAt_onCl_same, ctxOf_onCtx_ne _ _ _ _ h]

/-- A hold keeps the program counter, the loops, the records and the handles of its context. -/
theorem holdCtx_keeps (now cause obj want have_ : Nat) (x : Context) :
    let y := holdCtx now cause obj want have_ x
    y.pc = x.pc ∧ y.loops = x.loops ∧ y.records = x.records ∧ y.handles = x.handles ∧ y.params = x.params
      ∧ y.state = x.state ∧ y.job = x.job ∧ y.issued = x.issued ∧ y.origin = x.origin := by
  unfold holdCtx
  split
  · split <;> exact ⟨rfl, rfl, rfl, rfl, rfl, rfl, rfl, rfl, rfl⟩
  · exact ⟨rfl, rfl, rfl, rfl, rfl, rfl, rfl, rfl, rfl⟩

/-- The context that holds. -/
theorem ctxOf_addHold (cause obj want have_ : Nat) : ctxOf (clAt (addHold m cl k cause obj want have_) cl) k =
    let x := ctxOf (clAt m cl) k
    let y := holdCtx m.now cause obj want have_ x
    if anyHalt m || replaying m x.job then { y with wdog := x.wdog } else y := by
  unfold addHold
  rw [clAt_onCl_same, ctxOf_onCtx_same]

end Sys2Proof.Machine
end

