-- ==== Sys2Proof/Laws/Issue.lean ====
section
/-! SUPPORT. What an attempt of a sequencer instruction can do: the fetch, the holds, the kill of a stream that is not well
formed, and what the instruction's own body does. -/
namespace Sys2Proof.Machine
variable (m : Module) (tag cl k : Nat)

/-- Words that the fetch buffer holds are fetched from nowhere. -/
theorem fetched_has {len : Nat} (h : bufHas (ctxOf (clAt m cl) k) (ctxOf (clAt m cl) k).pc len = true) : fetched m cl k len = m := by
  unfold fetched; exact if_pos h

/-- They are delivered as the buffer holds them. -/
theorem delivered_has {x : Context} {len : Nat} (h : bufHas x x.pc len = true) : delivered m x len = streamWords m x x.pc len := by
  unfold delivered; exact if_pos h

/-- A fetch without wrong symbols counts nothing. -/
theorem fetchRead_none {x : Context} {len : Nat} (h : fetchHits m x len = []) : fetchRead m x len = m := by
  unfold fetchRead; exact if_pos h

/-- A fetch changes one stack, the jobs and what waits to be logged. -/
theorem fetchRead_eq (x : Context) (len : Nat) : fetchRead m x len = { m with
    stks := (fetchRead m x len).stks, quay := { m.quay with jobs := (fetchRead m x len).quay.jobs },
    hedge := { m.hedge with logQ := (fetchRead m x len).hedge.logQ } } := by
  unfold fetchRead stkAccess
  split
  · rfl
  · dsimp only
    split <;> rfl

/-- A clean fetch changes the fetch buffer of its context alone. -/
theorem fetched_clean {len : Nat} (h : fetchHits m (ctxOf (clAt m cl) k) len = []) :
    fetched m cl k len = m ∨ fetched m cl k len = onCl m cl (fun c => onCtx c k (fun y => { y with
      fbuf := bufPut y.fbuf (ctxOf (clAt m cl) k).pc (delivered m (ctxOf (clAt m cl) k) len) })) := by
  unfold fetched
  dsimp only
  split
  · exact .inl rfl
  · rw [fetchRead_none m h]; exact .inr rfl

/-- Every fetch leaves all but one stack, the jobs, the waiting log, and its context's buffer. -/
theorem fetched_eq (len : Nat) : fetched m cl k len = { m with
    clusters := (fetched m cl k len).clusters, stks := (fetched m cl k len).stks,
    quay := { m.quay with jobs := (fetched m cl k len).quay.jobs },
    hedge := { m.hedge with logQ := (fetched m cl k len).hedge.logQ } } := by
  unfold fetched
  dsimp only
  split
  · rfl
  · rw [fetchRead_eq]; rfl

/-- The context keeps all but its fetch buffer. -/
theorem ctxOf_fetched (len : Nat) : ctxOf (clAt (fetched m cl k len) cl) k =
    { ctxOf (clAt m cl) k with fbuf := (ctxOf (clAt (fetched m cl k len) cl) k).fbuf } := by
  unfold fetched
  dsimp only
  split
  · rfl
  · rw [fetchRead_eq, clAt_onCl_same, ctxOf_onCtx_same]; rfl

/-- What an attempt makes of the result of the instruction's own body. -/
def resEffect (op len : Nat) : Res → Module
  | .kill cause m1 => killJob m1 (ctxOf (clAt m cl) k).job cause none
  | .ledger pool code m1 => ledgerKill m1 (dieOf cl) pool (ctxOf (clAt m cl) k).job code
  | .hold cause obj want have_ m1 => addHold m1 cl k cause obj want have_
  | .idle => m
  | .done cycles m1 => onCl m1 cl (afterIssue m.now k op len cycles)

/-- Everything an attempt can do: nothing, the kill of a stream that is not well formed, a hold for a halt or a late host read, a
fetch that meets an uncorrectable unit; and after the fetch `f`, a hold for the issue slot, a kill, nothing, or what the
instruction's own body does. -/
theorem attempt_cases (words : List Word) (op : Nat) (slot : Bool) (body : Module → Context → List Word → Res) :
    let x := ctxOf (clAt m cl) k
    let len := lenAt m x
    let f := fetched m cl k len
    let n := attempt m cl k words op slot body
    n = m ∨ n = killJob m x.job .streamInvalid none ∨ n = addHold m cl k 11 0 0 0 ∨ n = addHold m cl k 12 0 0 0
      ∨ n = fetchRead m x len ∨ n = addHold f cl k 9 0 0 0 ∨ n = killJob f x.job .streamInvalid none ∨ n = f
      ∨ n = resEffect f cl k op len (body f x (delivered m x len)) := by
  intro x len f n
  have hn : n = attempt m cl k words op slot body := rfl
  have hx : (ctxOf (clAt f cl) k).job = x.job := by
    show (ctxOf (clAt (fetched m cl k len) cl) k).job = _
    rw [ctxOf_fetched]
  have hnow : f.now = m.now := by
    show (fetched m cl k len).now = _
    rw [fetched_eq]
  have hf : fetched m cl k len = f := rfl
  clear_value f
  unfold attempt at hn
  dsimp only at hn
  rw [hf] at hn
  clear hf
  by_cases c1 : (x.state ≠ 1 ∧ x.state ≠ 3) ∨ replayWaits m x.job
  · exact .inl (hn.trans (if_pos c1))
  rw [if_neg c1] at hn
  by_cases c2 : words ≠ wordsAt m x
  · exact .inl (hn.trans (if_pos c2))
  rw [if_neg c2] at hn
  by_cases c3 : x.len < x.pc + len
  · exact .inr (.inl (hn.trans (if_pos c3)))
  rw [if_neg c3] at hn
  by_cases c4 : (!clockReached m.now x) = true
  · exact .inl (hn.trans (if_pos c4))
  rw [if_neg c4] at hn
  by_cases c5 : ((dieAt m (dieOf cl)).halted || x.brkHit) = true
  · exact .inr (.inr (.inl (hn.trans (if_pos c5))))
  rw [if_neg c5] at hn
  by_cases c6 : hostLate m cl k = true
  · exact .inr (.inr (.inr (.inl (hn.trans (if_pos c6)))))
  rw [if_neg c6] at hn
  by_cases c7 : (slot && slotOwn m cl k) = true
  · exact .inl (hn.trans (if_pos c7))
  rw [if_neg c7] at hn
  by_cases c8 : fetchFails m x len = true
  · exact .inr (.inr (.inr (.inr (.inl (hn.trans (if_pos c8))))))
  rw [if_neg c8] at hn
  refine .inr (.inr (.inr (.inr (.inr ?_))))
  revert hn
  split
  · split
    · exact .inl
    · exact fun h => .inr (.inl h)
  split
  · exact fun h => .inr (.inr (.inl h))
  · cases body f x (delivered m x len) <;> simp only [resEffect, hx, hnow]
    all_goals first
      | exact fun h => .inr (.inr (.inr h))
      | (split
         · exact .inl
         · exact fun h => .inr (.inr (.inr h)))

/-- An instruction whose words stand at the program counter and are fetched as they stand, whose planned a-cycle has come and which
nothing holds does what its body says. -/
theorem attempt_issues (words : List Word) (op : Nat) (slot : Bool) (body : Module → Context → List Word → Res)
    (hs : (ctxOf (clAt m cl) k).state = 1 ∨ (ctxOf (clAt m cl) k).state = 3)
    (hr : replayWaits m (ctxOf (clAt m cl) k).job = false)
    (hw : wordsAt m (ctxOf (clAt m cl) k) = words) (hl : lenAt m (ctxOf (clAt m cl) k) = words.length)
    (hp : (ctxOf (clAt m cl) k).pc + words.length ≤ (ctxOf (clAt m cl) k).len)
    (hc : clockReached m.now (ctxOf (clAt m cl) k) = true) (hh : (dieAt m (dieOf cl)).halted = false)
    (hb : (ctxOf (clAt m cl) k).brkHit = false) (hL : hostLate m cl k = false)
    (hF : fetchHits m (ctxOf (clAt m cl) k) words.length = [])
    (hd : delivered m (ctxOf (clAt m cl) k) words.length = words)
    (hf : slot = true → slotOwn m cl k = false ∧ slotTaken m cl k = false)
    (ho : (words.headD 0).toNat % 256 = op) (hop : opListed op = true) :
    let f := fetched m cl k words.length
    attempt m cl k words op slot body = resEffect f cl k op words.length (body f (ctxOf (clAt m cl) k) words) := by
  intro f
  have hx : (ctxOf (clAt f cl) k).job = (ctxOf (clAt m cl) k).job := by
    show (ctxOf (clAt (fetched m cl k words.length) cl) k).job = _
    rw [ctxOf_fetched]
  have hnow : f.now = m.now := by
    show (fetched m cl k words.length).now = _
    rw [fetched_eq]
  have ht : (slot && slotTaken m cl k) = false := by cases slot <;> simp; exact (hf rfl).2
  unfold attempt
  dsimp only
  rw [hl, hw, hd, ht]
  rw [if_neg (by rintro (⟨h1, h2⟩ | h); exacts [hs.elim h1 h2, by simp [hr] at h])]
  rw [if_neg (by simp)]
  rw [if_neg (by omega)]
  rw [if_neg (by simp [hc])]
  rw [if_neg (by simp [hh, hb])]
  rw [if_neg (by simp [hL])]
  rw [if_neg (by cases slot <;> simp; exact (hf rfl).1)]
  rw [if_neg (by unfold fetchFails; rw [hF]; simp)]
  rw [if_neg (by rw [ho]; simp [hop])]
  rw [if_neg (fun h => h ho)]
  show _ = resEffect f cl k op words.length (body f (ctxOf (clAt m cl) k) words)
  cases h : body f (ctxOf (clAt m cl) k) words <;> simp [resEffect, hx, hnow, f]

end Sys2Proof.Machine
end

