-- ==== Sys2Proof/Laws/Link.lean ====
section
/-! SUPPORT. What data that crosses Pontoon links can do: it changes links and nothing else. -/
namespace Sys2Proof.Machine
variable (m : Module)

/-- Two modules differ at most in the links of the dies and of the Quay. -/
def OnlyLinks (a b : Module) : Prop :=
  b = { a with dies := b.dies, quay := { a.quay with links := b.quay.links } }
    ∧ ∀ d, dieAt b d = { dieAt a d with links := (dieAt b d).links }

theorem OnlyLinks.refl (a : Module) : OnlyLinks a a := ⟨rfl, fun _ => rfl⟩

theorem OnlyLinks.trans {a b c : Module} (h : OnlyLinks a b) (g : OnlyLinks b c) : OnlyLinks a c :=
  ⟨by rw [g.1, h.1], fun d => by rw [g.2 d, h.2 d]⟩

/-- A change of one end of a link. -/
theorem onLink_only (e : LinkEnd) (f : Link → Link) : OnlyLinks m (onLink m e f) := by
  cases e with
  | pon d l =>
    refine ⟨rfl, fun q => ?_⟩
    unfold onLink
    by_cases h : q = d.val
    · subst h; rw [dieAt_onDie_same]
    · rw [dieAt_onDie_ne _ _ _ _ h]
  | quay d => exact ⟨rfl, fun _ => rfl⟩

/-- Flits that cross one link, and those that cross every link of a path. -/
theorem crossLink_only (n : Nat) (e : LinkEnd) : OnlyLinks m (crossLink n m e) :=
  (onLink_only m e _).trans (onLink_only _ _ _)

theorem crossPath_only (path : List LinkEnd) (words : Nat) : OnlyLinks m (crossPath m path words) :=
  foldl_keeps (OnlyLinks m) _ (fun b e hb => hb.trans (crossLink_only b _ e)) path m (.refl m)

/-- A message sent to another die. -/
theorem sendFlit_only (tag a b : Nat) : OnlyLinks m (sendFlit m tag a b) := crossPath_only m _ _

/-- A die sends itself nothing. -/
theorem sendFlit_self (tag a : Nat) : sendFlit m tag a a = m := by
  simp [sendFlit, pathOf, ringHops, crossPath]

@[simp] theorem sendFlit_now (tag a b : Nat) : (sendFlit m tag a b).now = m.now := by rw [(sendFlit_only m tag a b).1]
@[simp] theorem sendFlit_transit (tag a b : Nat) : (sendFlit m tag a b).transit = m.transit := by
  rw [(sendFlit_only m tag a b).1]
@[simp] theorem sendFlit_clusters (tag a b : Nat) : (sendFlit m tag a b).clusters = m.clusters := by
  rw [(sendFlit_only m tag a b).1]
@[simp] theorem sendFlit_stks (tag a b : Nat) : (sendFlit m tag a b).stks = m.stks := by rw [(sendFlit_only m tag a b).1]
@[simp] theorem sendFlit_hedge (tag a b : Nat) : (sendFlit m tag a b).hedge = m.hedge := by
  rw [(sendFlit_only m tag a b).1]
@[simp] theorem clAt_sendFlit (tag a b c : Nat) : clAt (sendFlit m tag a b) c = clAt m c := by
  unfold clAt; rw [sendFlit_clusters]
@[simp] theorem jobAt_sendFlit (tag a b t : Nat) : jobAt (sendFlit m tag a b) t = jobAt m t := by
  unfold jobAt; rw [(sendFlit_only m tag a b).1]

/-- The path from a die to itself is empty; from a die to another it has at most seven links. -/
theorem ringHops_length (fw : Bool) : ∀ (f a b : Nat), (ringHops fw f a b).length ≤ f
  | 0, _, _ => Nat.le_refl 0
  | f + 1, a, b => by
    unfold ringHops
    split
    · exact Nat.zero_le _
    · split <;> exact Nat.succ_le_succ (ringHops_length fw f _ _)

end Sys2Proof.Machine
end

