-- ==== Sys2Proof/Laws/Mem.lean ====
section
/-! SUPPORT. Every operation over the byte memories keeps their canonical form: slices, stacks, flash and SRAM. -/
namespace Sys2Proof.Machine

/-- A part of a canonical table is canonical. -/
theorem twfFrom_filter {α : Type} [DecidableEq α] {d : α} (q : Nat × α → Bool) :
    ∀ (t : Tab α) {lo : Nat}, twfFrom d lo t = true → twfFrom d lo (t.filter q) = true
  | [], _, _ => rfl
  | (j, v) :: t, lo, h => by
    have h' := h
    simp only [twfFrom, Bool.and_eq_true, decide_eq_true_eq] at h'
    obtain ⟨⟨h1, h2⟩, h3⟩ := h'
    rw [List.filter_cons]
    split
    · simp only [twfFrom, Bool.and_eq_true, decide_eq_true_eq]
      exact ⟨⟨h1, h2⟩, twfFrom_filter q t h3⟩
    · exact twfFrom_mono (by omega) (twfFrom_filter q t h3)

/-- A part of a canonical memory is canonical. -/
theorem memWf_filter (q : Nat × Byte → Bool) {m : Mem} (h : memWf m = true) : memWf (m.filter q) = true :=
  twfFrom_filter q m h

/-- Words written keep the form. -/
theorem memWf_mputWords {m : Mem} (w : Nat) (ws : List Word) (h : memWf m = true) : memWf (mputWords m w ws) = true :=
  memWf_mput _ _ h

/-- Bytes written one by one keep the form. -/
theorem memWf_fold_tset {β : Type} (f : β → Nat × Byte) (l : List β) {m : Mem} (h : memWf m = true) :
    memWf (l.foldl (fun t b => tset 0 t (f b).1 (f b).2) m) = true :=
  foldl_keeps (fun t : Mem => memWf t = true) _ (fun b _ hb => twf_tset b hb) l m h

/-- A zeroed row. -/
theorem memWf_zeroRow {c : Cluster} (r : Nat) (h : memWf c.scratch = true) : memWf (zeroRow c r).scratch = true :=
  memWf_mputWords _ _ h

/-- A wiped slice. -/
theorem memWf_wipedSlice (c : Cluster) : memWf (wipedSlice c).scratch = true := rfl

/-- A slice under the other bank mapping. -/
theorem memWf_remapSlice (c : Cluster) : memWf (remapSlice c).scratch = true :=
  memWf_fold_tset (fun p : Nat × Byte => (4 * otherBank (p.1 / 4) + p.1 % 4, p.2)) c.scratch rfl

/-- Rows restored from their copies. -/
theorem memWf_restoreRows {c : Cluster} (m : Module) (j : Job) (p : LandingPoint) (cl : Nat)
    (h : memWf c.scratch = true) : memWf (restoreRows m j p cl c).scratch = true := by
  unfold restoreRows
  dsimp only
  refine foldl_keeps (fun c : Cluster => memWf c.scratch = true) (fun (c : Cluster) (r : Nat × Nat) =>
    { c with lp := tsetRange 0 c.lp (2 * (pairsOf j cl).1) (copyWords m r.2 (2 * (pairsOf j cl).2)) }) (fun b a hb => hb) _ _ ?_
  exact foldl_keeps (fun c : Cluster => memWf c.scratch = true) (fun c (s : RowSave) => restoreWords (64 * s.row) (copyWords m s.at_ (64 * s.rows)) c)
    (fun b a hb => memWf_mputWords _ _ hb) _ c h

/-- A slice restored from a landing point. -/
theorem memWf_restoreCluster {c : Cluster} (tag now at_ : Nat) (rows : Cluster → Cluster) (h : ClHold) (p : LandingCluster)
    (hr : ∀ c : Cluster, memWf c.scratch = true → memWf (rows c).scratch = true)
    (hc : memWf c.scratch = true) : memWf (restoreCluster tag now at_ rows h p c).scratch = true :=
  hr (cutCluster tag h c) hc

/-- Zeroed units of a stack. -/
theorem memWf_zeroUnits {s : Stack} (off n : Nat) (h : memWf s.mem = true) : memWf (zeroUnits s off n).mem = true :=
  memWf_filter _ h

/-- A record of the log. -/
theorem memWf_logAppend {h : Hedge} (e : LogEvent) (hf : memWf h.flash = true) : memWf (logAppend h e).flash = true := by
  unfold logAppend
  generalize (if h.logPos % 1024 = 0 then logRange h.flash h.logPos 1024 else []) = old
  have put : ∀ (x : Hedge) (e : LogEvent) (o : BitVec 64), memWf x.flash = true → memWf (logPut x e o).flash = true :=
    fun x e o hx => memWf_mput _ _ hx
  refine put _ _ _ (foldl_keeps (fun x : Hedge => memWf x.flash = true) _ (fun b a hb => put b _ _ hb) _ _ ?_)
  by_cases ho : old = []
  · rw [if_pos ho]; exact hf
  · rw [if_neg ho]; exact memWf_filter _ hf

/-- A margin record. -/
theorem memWf_writeMargin {h : Hedge} (hf : memWf h.flash = true) : memWf (writeMargin h).flash = true :=
  memWf_mput _ _ hf

/-- The firmware directory. -/
theorem memWf_setDirectory {m : Mem} (slot : Nat) (h : memWf m = true) : memWf (setDirectory m slot) = true :=
  memWf_mput _ _ h

end Sys2Proof.Machine
end

