-- ==== Sys2Proof/Laws/Seal.lean ====
section
/-! SUPPORT. What a planned SEALC writes depends on: the job's own objects and the key pages, not the clusters or the links. -/
namespace Sys2Proof.Machine
variable (m : Module) (j : Job) (sets : List CustomSet) (i : Nat) (p : LPrim) (causes : List Nat)

@[simp] theorem sealedPrim_clusters (c : Tab Cluster) :
    sealedPrim { m with clusters := c } j sets i p causes = sealedPrim m j sets i p causes := rfl

@[simp] theorem sealedPrim_dies (d : Tab Die) :
    sealedPrim { m with dies := d } j sets i p causes = sealedPrim m j sets i p causes := rfl

@[simp] theorem sealedPrim_onCl (cl : Nat) (f : Cluster → Cluster) :
    sealedPrim (onCl m cl f) j sets i p causes = sealedPrim m j sets i p causes := rfl

@[simp] theorem mergePlanned_onCl (cl : Nat) (f : Cluster → Cluster) :
    mergePlanned (onCl m cl f) j sets i p causes = mergePlanned m j sets i p causes := rfl

/-- A poisoned result has the CRC of zeros and no payload words; any other the CRC of its payload. -/
theorem mergePlanned_crc : (mergePlanned m j sets i p causes).pcrc =
    if (mergePlanned m j sets i p causes).h.poison = 0 then crc32c (bytesOf (sealedPrim m j sets i p causes).2)
    else zeroPcrc (mergePlanned m j sets i p causes).h.plen := by
  unfold mergePlanned
  generalize sealedPrim m j sets i p causes = o
  obtain ⟨h, pay⟩ := o
  dsimp only
  by_cases hp : h.poison = 0 <;> simp [hp]

end Sys2Proof.Machine
end

