-- ==== Sys2Proof/WellFormed.lean ====
section
/-! DEFINITION. Well-formed commands: an operand that stands for bytes or words of a fixed length has that length, and a
register offset names a register. Every other operand is bounded by its type. An ill-formed command is no event of the
hardware; the meanings are total on it all the same. -/
namespace Sys2Proof

/-- A submission entry is 128 bytes (R565). -/
def entryOk (e : List Byte) : Bool := decide (e.length = 128)

/-- The words of an instruction: as many as LEN of the header word says (R441), or none where the stream has ended. -/
def wordsOk (ws : List Word) : Bool := match ws with
  | [] => true
  | h :: _ => decide (ws.length ≤ 1 + h.toNat / 256 % 256)

/-- A register offset: a multiple of 4, and of 8 for a 64-bit access (R550). -/
def regOk (off : Nat) (wide : Bool) : Bool := decide (off % (if wide then 8 else 4) = 0)

/-- An access through the test port. -/
def jtagOk : JtagOp → Bool
  | .readReg _ off => regOk off false
  | .writeReg _ off wide _ => regOk off wide
  | .readScratch _ w => decide (w < Config.sliceWords)
  | .writeScratch _ w _ => decide (w < Config.sliceWords)
  | .readUds => true
  | .writeIdentity _ _ => true

/-- Whether a command is well formed. -/
def Instr.wf : Instr → Bool
  | .sqTail .. | .cqHead .. | .submissionFetch .. => true
  | .job _ entry bufTab patchTab => entryOk entry && decide (bufTab.length % 16 = 0 ∧ patchTab.length % 8 = 0)
  | .hand _ entry bufTab => entryOk entry && decide (bufTab.length % 16 = 0)
  | .keyLoad _ entry _ pages => entryOk entry && pages.all (fun p => decide (p.length = Config.pageSlotBytes))
  | .keyUnload _ entry => entryOk entry
  | .keyLoadDone .. | .admitJob .. | .hostReadError .. | .planJob .. | .jobStart .. | .completionEntry ..
  | .cqCoalTimer .. | .sqEnable .. | .sqDisable .. | .cqEnable .. | .cqDisable .. | .qreq .. | .quiesceCheck ..
  | .qrel .. | .idereq .. | .lock .. | .wreset .. | .glbKill .. | .glbHost .. | .glbPcap .. => true
  | .registerWrite _ off wide _ => regOk off wide
  | .bar0BadAccess .. | .d3hot .. | .restEntry .. | .d0 .. | .flr .. | .dlDown .. | .hotReset .. | .perstAssert ..
  | .perstDeassert .. | .pwrgdRise .. | .pwrgdFall .. | .railOutOfTolerance .. | .refclkMissing .. | .refclkStable ..
  | .aonLoss .. | .ready .. | .coldReset .. | .warmReset .. | .dieReset .. | .jobKill .. | .engineReset ..
  | .engineOverrun .. => true
  | .load _ _ words => wordsOk words
  | .start _ _ words => wordsOk words
  | .wait _ _ words => wordsOk words
  | .signal _ _ words => wordsOk words
  | .signalArrival .. => true
  | .pop _ _ words => wordsOk words
  | .push _ _ words => wordsOk words
  | .handleArrival .. => true
  | .swap _ _ words => wordsOk words
  | .patch _ _ words => wordsOk words
  | .loop _ _ words => wordsOk words
  | .tmark _ _ words => wordsOk words
  | .seal _ _ words => wordsOk words
  | .sealc _ _ words => wordsOk words
  | .tag _ _ words => wordsOk words
  | .endStream _ _ words => wordsOk words
  | .pendingStart .. | .nteFwd .. | .nteInv .. | .nteDone .. | .bcast .. | .ewmac .. | .openMode .. | .rmeDone ..
  | .trailingPass .. | .vecOperation .. | .vecDone .. | .modulusEntryValidate .. | .modulusValidationDone ..
  | .land .. | .ferryEnd .. => true
  | .frameStaged _ _ frame => decide (frame < Config.sliceWords / 1024)
  | .bindingReport .. => true
  | .tokenRelease _ _ frame => decide (frame < Config.sliceWords / 1024)
  | .scrubRewrite .. | .scrubRow .. | .sliceWipe .. | .restrict .. | .hashoff .. | .landingPairWrite .. | .steDcmt ..
  | .descriptorValidationDone .. | .descriptorWrite .. => true
  | .steStreamStart _ _ words => wordsOk words
  | .transfer .. | .transferBoundary .. | .ledgerReport .. | .creditReturn .. | .negCount .. | .jobEndAudit ..
  | .watchdogTrip .. | .breakpoint .. | .resume .. | .landingPoint .. => true
  | .replay _ _ lost => lost.all (fun u =>
    decide (u.unit < Config.stackBytes / 64 ∧ u.word % 16 = 0 ∧ u.word < Config.sliceWords))
  | .flitReceive _ flit => decide (flit.length = 256)
  | .nak .. | .retryExhausted .. | .linkRetrainDone .. | .fiArm .. | .faultInjection .. | .frameBoundary ..
  | .mscMapFlip .. | .stackRewrite .. | .stackPatrol .. | .stackFenceZero .. | .stackWipe .. | .stackTempSample ..
  | .throttleStep .. | .tCrit .. | .aclkStep .. | .avsPoll .. | .regulatorFault .. | .powerLevelStep ..
  | .idleEntry .. | .idleExit .. => true
  | .junctionShutdown die => decide (die ≤ 8)
  | .thermtripComparator die => decide (die ≤ 8)
  | .firmwareWatchdog .. | .plannerHeartbeat .. | .plannerWatchdog .. | .marginReview .. | .marchTest ..
  | .logWrite .. | .heartbeat .. | .corrSummary .. | .drbgReseed .. | .healthTestFail .. | .nonceExpiry .. | .info ..
  | .logRead .. | .lcSet .. | .lifecycleTransition .. | .dbgChal .. | .dbgUnlock .. | .dbgLock .. | .pldm ..
  | .mailboxDone .. | .pldmSensorRead .. | .pldmUpdateData .. | .verifyComplete .. | .activateFirmware ..
  | .getVersion .. | .getCapabilities .. | .negotiateAlgorithms .. | .getDigests .. | .getCertificate ..
  | .challenge .. | .getMeasurements .. | .keyExchange .. | .finish .. | .heartbeatSpdm .. | .keyUpdate ..
  | .endSession .. | .ideKm .. | .madd .. | .msub .. | .mmul .. | .minv .. | .mexp .. | .ecdsaSignP256 ..
  | .ecdsaVerifyP256 .. | .ecdhP256 .. | .pointValidate .. | .macMode .. | .pkeDone .. | .pkeWipe .. => true
  | .pkeDma _ _ nslot _ => decide (1 ≤ nslot.toNat ∧ nslot.toNat ≤ 256)
  | .pkeDmaDone .. | .randomPoolRefill .. => true
  | .jtagAccess die op => decide (die ≤ 9) && jtagOk op
  | .doeDiscovery .. | .doeAbort .. | .endpointIdAssign .. | .platformEventRead .. | .cancelUpdate .. => true

end Sys2Proof
end

