-- ==== Sys2Proof/Tests/Slice0.lean ====
section
/-! SUPPORT. Tests: ill-formed commands, and for each statement concrete states and operands that meet its hypotheses, with
the outcome of the step where it is cheap to evaluate. Expected values are the manual's. -/
namespace Sys2Proof.Tests
open Sys2Proof Sys2Proof.Machine Sys2Proof.Certificates

set_option Elab.async false

/-- The state of a module, with no command waiting. -/
def st (m : Module) : State := { m := m }

/-- Whether command `c` on `m` answers a next module with `p`, with an empty queue. -/
def after (c : Instr) (m : Module) (p : Module → Bool) : Bool := match exec c (st m) with
  | .next t => decide (t.pending = []) && p t.m
  | .fault _ => false
  | .refused _ => false

/-- Whether command `c` leaves `m` as it is. -/
def same (c : Instr) (m : Module) : Bool := after c m (fun n => n == m)

/-- A module that has booted and serves its rings. -/
def up : Module := { hedge := { boot := .running, power := .active }, ep := { perst := false, crs := false, linkUp := true },
                     quay := { ready := true } }

/-- Whether a step with no command answers a next module with `p`. -/
def ticked (m : Module) (p : Module → Bool) : Bool := match step (st m) with
  | .next t => p t.m
  | .fault _ => false
  | .refused _ => false

/-- `up` with ring `i`. -/
def upRing (i : Nat) (r : Ring) : Module := onRing up i (fun _ => r)

/-! ## Rings and submissions -/

theorem wit_StepRunsFront : (st up).pending = [] ∧
    step { m := up, pending := [.qreq, .qrel] } = exec .qreq { m := up, pending := [.qrel] } := ⟨rfl, rfl⟩

theorem wit_RingEnables :
    let m1 := onRing (upRing 5 { cqEn := true, cqLogsz := 4 }) 3 (fun _ => { sqBase := 0x10000, err := 2 })
    let m2 := upRing 3 { sqBase := 0x10000 }
    let m3 := onRing (upRing 5 { cqEn := true }) 255 (fun _ => { sqBase := 0x10FFF })
    let m4 := upRing 0 { cqBase := 0xFFFFFFFFFFFFF000, cqHead := 7, phase := false }
    let m5 := upRing 0 { cqBase := 0x800 }
    RingsOpen m1 ∧ RingsOpen m2 ∧ RingsOpen m3 ∧ RingsOpen m4 ∧ RingsOpen m5
    ∧ after (.sqEnable 3 0x50A) m1 (fun n => ringAt n 3 == { sqBase := 0x10000, sqLogsz := 10, cqid := 5, sqEn := true })
    ∧ after (.sqEnable 3 0x50A) m2 (fun n => !(ringAt n 3).sqEn && (ringAt n 3).err == 1)
    ∧ after (.sqEnable 255 0x50A) m3 (fun n => !(ringAt n 255).sqEn && (ringAt n 255).err == 5)
    ∧ after (.cqEnable 0 0x41FD0010) m4 (fun n => ringAt n 0 ==
        { cqBase := 0xFFFFFFFFFFFFF000, cqLogsz := 16, vec := 509, ien := true, cqEn := true })
    ∧ after (.cqEnable 0 0x41FD0010) m5 (fun n => !(ringAt n 0).cqEn && (ringAt n 0).err == 5) := by
  unfold RingsOpen Bar0Open; decide +kernel

theorem wit_RingQueues :
    let r : Ring := { sqEn := true, sqLogsz := 4, cqid := 5 }
    let m1 := onQuay (upRing 3 r) (fun q => { q with fetches := [{ ring := 3, index := 0 }] })
    let m2 := onRing (upRing 3 r) 5 (fun _ => { cqEn := true })
    let m3 := upRing 5 { cqEn := true }
    let m4 := upRing 5 { cqEn := true, ien := true, timer := true, sinceSignal := 1, vec := 9 }
    let m5 := onQuay m4 (fun q => { q with msixCtl := [(9, 0)] })
    RingsOpen m1 ∧ RingsOpen m2 ∧ RingsOpen m3
    ∧ after (.sqDisable 3) m1 (fun n => ringAt n 3 == { r with sqEn := false } && !ringPending n 3)
    ∧ cqInUse m2 5 = true ∧ same (.cqDisable 5) m2
    ∧ cqInUse m3 5 = false ∧ after (.cqDisable 5) m3 (fun n => ringAt n 5 == {})
    ∧ after (.sqTail 3 15) m1 (fun n => ringAt n 3 == { r with sqTail := 15 })
    ∧ after (.sqTail 3 16) m1 (fun n => ringAt n 3 == { r with sqEn := false, err := 2 })
    ∧ after (.sqTail 4 0) m1 (fun n => ringAt n 4 == { dbign := 1 })
    ∧ after (.cqCoalTimer 5) m4 (fun n => tget false n.quay.msixPba 9 && n.msixOut == [])
    ∧ after (.cqCoalTimer 5) m5 (fun n => !tget false n.quay.msixPba 9 && n.msixOut == [9]
        && ringAt n 5 == { cqEn := true, ien := true, vec := 9 }) := by
  unfold RingsOpen Bar0Open; decide +kernel

theorem wit_HeadDoorbell :
    let m := upRing 5 { cqEn := true, cqLogsz := 4, cqHead := 14, cqTail := 2 }
    RingsOpen m ∧ after (.cqHead 5 16) m (fun n => (ringAt n 5).err == 3 && (ringAt n 5).cqHead == 14)
    ∧ after (.cqHead 5 3) m (fun n => (ringAt n 5).err == 4 && (ringAt n 5).cqHead == 14)
    ∧ after (.cqHead 5 2) m (fun n => (ringAt n 5).err == 0 && (ringAt n 5).cqHead == 2)
    ∧ after (.cqHead 5 14) m (fun n => (ringAt n 5).err == 0 && (ringAt n 5).cqHead == 14) := by
  unfold RingsOpen Bar0Open; decide +kernel

theorem wit_FetchRoundRobin :
    let m := upRing 0 { sqEn := true, sqLogsz := 4, sqTail := 3, sqHead := 2 }
    (m.quay.rr + 1 + 0) % 256 = 0 ∧ ringPending m 0 = true ∧ muted m = false ∧ m.quay.jobs.length < 1024
    ∧ after .submissionFetch m (fun n => n.quay.fetches == [{ ring := 0, index := 2 }] && n.quay.rr == 0) := by decide +kernel

theorem wit_CompletionEntries :
    let cq : Ring := { cqEn := true, cqLogsz := 2, cqBase := 0x1000, cqTail := 3, cqHead := 1 }
    let m (h : BitVec 16) := onQuay (onRing (upRing 5 { cq with cqHead := h }) 3 (fun _ => { cqid := 5 }))
      (fun q => { q with compl := [{ ring := 3, cid := 0xABCD, status := 0x20 }] })
    same (.completionEntry 0) (m 0)
    ∧ after (.completionEntry 0) (m 1) (fun n => n.hostOut.map (·.addr) == [0x1060] && (ringAt n 5).cqTail == 0
        && (ringAt n 5).phase == false && n.quay.compl == []) := by decide +kernel

/-- A 128-byte submission entry with the given first bytes. -/
def entry (bs : List Byte) : List Byte := bs ++ List.replicate (128 - bs.length) 0

/-- `up` with the read of an entry of ring 3 outstanding. -/
def reading : Module := onQuay (upRing 3 { sqEn := true, sqLogsz := 1, sqHead := 1, cqid := 5 })
  (fun q => { q with fetches := [{ ring := 3, index := 1 }] })

theorem wit_DescriptorChecks :
    let good := entry [1, 0, 1, 0, 0x78, 0x56, 0x34, 0x12]
    let hand := entry [2, 0, 0, 0, 9]
    let tab := leBytes 8 64 ++ leBytes 8 128
    fetchOut reading 3 = true ∧ field good 0 1 ≠ 2 ∧ field hand 0 1 = 2
    ∧ after (.job 3 good tab []) reading (fun n => n.quay.waiting.map (·.cid) == [0x12345678] && (ringAt n 3).sqHead == 0)
    ∧ after (.hand 3 hand []) reading (fun n => n.quay.waiting.map (·.hand) == [true])
    ∧ after (.job 3 (entry [3]) [] []) reading (fun n => n.quay.compl.map (·.detail) == [1])
    ∧ after (.job 3 (entry [1, 0, 0, 0, 0, 0, 0, 0, 1]) [] []) reading (fun n => n.quay.compl.map (·.detail) == [2])
    ∧ after (.job 3 (entry [1, 0, 1, 1]) [] []) reading (fun n => n.quay.compl.map (·.detail) == [3])
    ∧ after (.job 3 (entry [1, 0, 1]) (leBytes 16 64) []) reading (fun n => n.quay.compl.map (·.detail) == [4])
    ∧ after (.job 3 (entry [1, 1]) [] []) reading
        (fun n => n.quay.compl.map (fun c => (c.status, c.detail)) == [(0x20, 5)]) := by decide +kernel

/-- Those entries fail the checks they are said to fail. -/
theorem wit_descFails :
    (∀ k, ¬ descFails up.hedge (entry [1]) [] k) ∧ descFails up.hedge (entry [3]) [] 1
    ∧ descFails up.hedge (entry [1, 1]) [] 5 ∧ ∀ j, j < 5 → ¬ descFails up.hedge (entry [1, 1]) [] j := by
  have h0 : field (entry [1]) 2 2 = 0 := by decide +kernel
  have h1 : field (entry [1, 1]) 2 2 = 0 := by decide +kernel
  refine ⟨fun k => ?_, ?_, ?_, fun j hj => ?_⟩
  · match k with
    | 0 => exact id
    | 1 => simp only [descFails]; decide +kernel
    | 2 => simp only [descFails]; decide +kernel
    | 3 => simp only [descFails]; decide +kernel
    | 4 => intro ⟨i, h, _⟩; omega
    | 5 => simp only [descFails]; decide +kernel
    | k + 6 => exact id
  · simp only [descFails]; decide +kernel
  · simp only [descFails]; decide +kernel
  · match j with
    | 0 => exact id
    | 1 => simp only [descFails]; decide +kernel
    | 2 => simp only [descFails]; decide +kernel
    | 3 => simp only [descFails]; decide +kernel
    | 4 => intro ⟨i, h, _⟩; omega
    | j + 5 => omega

theorem wit_Admission :
    let m := onQuay up (fun q => { q with waiting := [{ cid := 1 }, { cid := 2 }] })
    jobAt m 1023 = none ∧ m.graves = []
    ∧ after (.admitJob 1023) m (fun n => n.quay.admitted == 1 && n.quay.waiting == [{ cid := 2 }]
        && jobAt n 1023 == some { desc := { cid := 1 }, cap := 4200 })
    ∧ same (.admitJob 1023) (onQuay m (fun q => { q with qstate := 1 })) := by decide +kernel

theorem wit_KeyLoads :
    let up1 (u : KeyUpload) := onQuay up (fun q => { q with uploads := [u] })
    let k : KeySet := { ksid := 7, pset := 1, chk := false, scalar := false, peer := 0, objects := [], pages := [] }
    let e := entry [0x10, 0, 0, 0, 5]
    fetchOut reading 3 = true
    ∧ after (.keyLoad 3 (entry [0x10, 1]) [] []) reading (fun n => n.quay.uploads.map (·.status) == [1])
    ∧ ((match uploadCheck [] [] [] (fun _ => []) [] [] with
      | .fail s p => (s, p) == (1, 0)
      | .good .. => false : Bool) = true)
    ∧ after (.keyLoad 3 e [] []) reading (fun n => n.quay.uploads.map (fun u => (u.cid, u.set)) == [(5, none)])
    ∧ after (.keyLoadDone 0) (up1 { ring := 3, cid := 5, status := 0, set := some k })
        (fun n => n.quay.dir == [k] && n.quay.compl == [{ ring := 3, cid := 5, status := 0 }])
    ∧ after (.keyLoadDone 0) (up1 { ring := 3, cid := 5, status := 6, page := 2 })
        (fun n => n.quay.dir == [] && n.quay.compl == [{ ring := 3, cid := 5, status := 6, count := 2 }]) := by decide +kernel

theorem wit_KeyUnloads :
    let k : KeySet := { ksid := 7, pset := 1, chk := false, scalar := false, peer := 0, objects := [], pages := [] }
    let m := onQuay reading (fun q => { q with dir := [k], replicas := [{ ksid := 7, pidx := 0, addr := 0 }] })
    let busy := onQuay m (fun q => { q with dir := [k, { k with ksid := 8, peer := 7 }] })
    let e := entry [0x11, 0, 0, 0, 5, 0, 0, 0, 7]
    fetchOut m 3 = true ∧ zeroField e 1 3 = true ∧ zeroField e 16 112 = true
    ∧ after (.keyUnload 3 e) busy (fun n => n.quay.compl.map (·.status) == [9] && n.quay.dir.length == 2)
    ∧ after (.keyUnload 3 e) m (fun n => n.quay.compl.map (·.status) == [0] && n.quay.dir == [] && n.quay.replicas == [])
    := by decide +kernel

/-- `up` with job 7. -/
def withJob (j : Job) : Module := onQuay up (fun q => { q with jobs := [(7, some j)] })

theorem wit_HostReadErrors :
    after (.hostReadError (.entry 3)) reading (fun n => n.quay.compl.map (fun c => (c.status, c.detail)) == [(0x39, 1)]
        && n.aer == [.completionError])
    ∧ after (.hostReadError (.graph 7)) (withJob { desc := { cid := 3 } })
        (fun n => n.quay.compl.map (fun c => (c.status, c.detail, c.cid)) == [(0x39, 2, 3)])
    ∧ after (.hostReadError (.run 7)) (withJob { phase := .running })
        (fun n => n.quay.compl.map (fun c => (c.status, c.detail)) == [(0x39, 3)])
    ∧ after (.hostReadError (.keyLoad 0)) (onQuay up (fun q => { q with uploads := [{ ring := 3, cid := 5, status := 0 }] }))
        (fun n => n.quay.uploads.map (·.status) == [1]) := by decide +kernel

/-! ## Plans and jobs -/

/-- An open tensor entry of 32 elements: role 1 input, 2 output. -/
def tensorEntry (role fmt buf : Nat) : List Byte :=
  [5, BitVec.ofNat 8 role, BitVec.ofNat 8 fmt, 1] ++ zeros 20 ++ leBytes 4 32 ++ (List.range 5).flatMap (fun _ => leBytes 4 1)
    ++ leBytes 2 buf ++ zeros 14

/-- A graph whose one node O_CONVERT casts the FP32 input, tensor 0, to a float output, tensor 1. -/
def graphImage : List Byte :=
  let body := tensorEntry 1 10 0 ++ tensorEntry 2 8 1
    ++ leBytes 2 0xC5 ++ [1, 1] ++ zeros 4 ++ leBytes 4 0 ++ leBytes 12 (2 ^ 96 - 1) ++ leBytes 4 1 ++ leBytes 4 0xFFFFFFFF
    ++ zeros 32
  let h := leBytes 4 0x4C5A5254 ++ leBytes 4 1 ++ leBytes 8 320 ++ leBytes 4 2 ++ leBytes 4 1 ++ zeros 8 ++ leBytes 8 128
    ++ leBytes 8 256 ++ leBytes 8 320 ++ leBytes 8 0 ++ leBytes 8 320 ++ leBytes 8 320 ++ leBytes 8 0 ++ leBytes 4 (crc32c body)
  h ++ leBytes 4 (crc32c h) ++ zeros 32 ++ body

/-- A hand plan that holds row 0 of cluster 3 and pools 0 and 1 of die 0; its stream is one END. -/
def handImage : List Byte :=
  let dies := leBytes 2 0 ++ leBytes 2 2 ++ zeros 28 ++ zeros 224
  let body := leBytes 2 3 ++ leBytes 2 0 ++ leBytes 2 1 ++ zeros 10 ++ leBytes 8 416 ++ leBytes 4 4 ++ zeros 4
    ++ dies ++ leBytes 4 0x0E
  let h := leBytes 4 0x4E4C5048 ++ leBytes 2 1 ++ leBytes 2 1 ++ leBytes 8 420 ++ leBytes 8 128 ++ leBytes 8 160 ++ zeros 32
    ++ leBytes 4 (crc32c body)
  h ++ leBytes 4 (crc32c h) ++ zeros 56 ++ body

/-- The planner's choice for `graphImage`: row 0 of cluster 3 and nothing of the dies. -/
def choice : PlanChoice :=
  { placed := true, fresh := false, waitAc := 0, boundAc := 5004, planUs := 5, power := 100, pools := [], credits := [], params := [],
    shadows := [], places := [(3, Config.planRegion)],
    clusters := [{ cl := 3, row0 := 0, rows := 1, queue0 := 0, queues := 0, flag0 := 0, flags := 1, pair0 := 0, pairs := 0,
                   frames := 0, stream := [0x0E] }],
    dies := [{ die := 0, pool0 := 0, pools := 2, desc0 := 0, descs := 0, region := 0, regionMiB := 0, ferry := [] }] }

set_option maxRecDepth 2000 in
theorem wit_PlanOutcomes :
    let d : JobDesc := { cid := 5, glen := 320, rcpt := 0x4000, nbuf := 2, bufs := [(0x1000, 128), (0x2000, 64)] }
    let m := withJob { desc := d, cap := 4200 }
    let bad := graphImage.take 319 ++ [1]
    let hand := withJob { desc := { cid := 5, glen := 420, rcpt := 0x4000, hand := true }, cap := 4200 }
    graphImage.length = 320 ∧ muted m = false ∧ alive m = true
    ∧ ((match graphCheck bad 320 [] [] [] with
      | .error r => r.status == 0x11
      | .ok _ => false : Bool) = true)
    ∧ ((match graphCheck graphImage 320 [] [] [] with
      | .error _ => false
      | .ok k => badRange (hostTensors k [] d.bufs) d.bufs == none && (cacheHit m 0 k).isNone
          && k.g.hdr.nslot == 0 && choiceOk m 7 { desc := d, cap := 4200 } k (hostTensors k [] d.bufs) choice
          && (loweredOf m k).isEmpty : Bool) = true)
    ∧ waitsOk choice (planTimeline d choice) = true ∧ planTurn m { desc := d, cap := 4200 } = true ∧ fencedNow m = []
    ∧ entriesOf choice.clusters [] = 0
    ∧ ((match handCheck handImage 420 [] [] with
      | .error _ => false
      | .ok h => h.clusters.map (fun c => (c.cl, c.rows, c.stream)) == [(3, 1, [0x0E])] : Bool) = true)
    ∧ after (.planJob 7 bad choice) m (fun n => n.quay.compl.map (fun c => (c.status, c.cid)) == [(0x11, 5)]
        && n.hostOut.map (fun w => (w.addr, w.bytes.length)) == [(0x4000, 128)])
    ∧ after (.planJob 7 graphImage choice) m (fun n => n.quay.compl == [] && n.quay.plans.map (·.choice) == [choice]
        && (jobAt n 7).map (fun j => (j.phase, j.bound, j.clusters)) == some (.planned, 5004, choice.clusters))
    ∧ after (.planJob 7 handImage choice) hand (fun n => n.quay.plans == []
        && (jobAt n 7).map (fun j => (j.phase, j.dies.length)) == some (.planned, 1)) := by decide +kernel

/-- The power of the jobs is within a cap that the free idle power leaves room in. -/
theorem wit_JobStarts :
    let j : Job := { phase := .planned, clusters := choice.clusters, dies := choice.dies, cap := Config.idlePower + 4200 }
    let m : Module := { withJob j with stks := [(0, { state := 3 }), (1, { state := 3 })] }
    m.hedge.power = .active ∧ holdsFree m 7 j = true ∧ slotsFree m 7 j = true ∧ powerOk m j = true
    ∧ (∀ h ∈ j.clusters, (freeCtx (clAt m h.cl)).isSome = true ∧ spokeReady m (h.cl / 64) = true)
    ∧ (∀ h ∈ j.dies, (stkAt m (2 * h.die)).state = 3 ∧ (stkAt m (2 * h.die + 1)).state = 3)
    ∧ (j.clusters.map (·.cl)).Nodup ∧ (j.dies.map (·.die)).Nodup := by
  refine ⟨rfl, by decide +kernel, by decide +kernel, ?_, by decide +kernel, by decide +kernel, by decide, by decide⟩
  simp [powerOk, idlePower, withJob, onQuay, lsum, Job.started]

/-- A job whose books are as at its start but for what the fields give. -/
def audited (t : Option Nat) (c : Cluster) (d : Die) (now : Nat) : Module :=
  let j : Job := { phase := if t.isSome then .auditing else .running, clusters := choice.clusters, dies := choice.dies,
                   auditing := t }
  { withJob j with clusters := [(3, c)], dies := [(0, d)], now := now }

theorem wit_JobEndAudit :
    let done : Cluster := { ctxs := [(0, { job := 7, ended := true })] }
    let pool : Die := { pool := [(1, 1)], ledger := [(0, { fqv := true, free := 1 })] }
    let credit : Die := { credits := [(4, { valid := true, job := 7, grant := 2, avail := 1 })] }
    let token : Die := { windows := [{ cl := 3, job := 7, base := 0, size := 1, frames := [(0, { st := 2 })] }] }
    let codes (n : Module) := n.quay.compl.map (fun c => (c.status, c.detail))
    (jobAt (audited none done {} 5) 7).any (jobQuiet (audited none done {} 5) 7)
    ∧ after (.jobEndAudit 7) (audited none done {} 5) (fun n => (jobAt n 7).map (·.auditing) == some (some 5))
    ∧ same (.jobEndAudit 7) (audited (some 5) done {} 516)
    ∧ after (.jobEndAudit 7) (audited (some 5) done {} 517) (fun n => codes n == [(0, 0)])
    ∧ after (.jobEndAudit 7) (audited (some 5) done pool 517) (fun n => codes n == [(0x36, 6)])
    ∧ after (.jobEndAudit 7) (audited (some 5) done credit 517) (fun n => codes n == [(0x36, 7)])
    ∧ after (.jobEndAudit 7) (audited (some 5) done token 517) (fun n => codes n == [(0x36, 8)])
    ∧ after (.jobEndAudit 7) (audited (some 5) { done with flags := [(0, 1)] } {} 517) (fun n => codes n == [(0x36, 9)])
    := by decide +kernel

/-! ## Global controls and BAR0 -/

theorem wit_GlobalControls :
    let q (v : BitVec 2) := onQuay up (fun q => { q with qstate := v })
    let locked := onQuay up (fun q => { q with lock := true })
    Bar0Open up ∧ Bar0Open (q 1) ∧ Bar0Open (q 2) ∧ Bar0Open locked
    ∧ after .qreq up (fun n => n.quay.qstate == 1) ∧ same .qreq (q 2)
    ∧ after .qrel (q 2) (fun n => n.quay.qstate == 0) ∧ same .qrel (q 1)
    ∧ after (.idereq true) up (fun n => n.quay.ideReq) ∧ same (.idereq true) locked
    ∧ after .lock up (fun n => n.quay.lock)
    ∧ after (.glbHost 0xFFF1E479) up (fun n => n.quay.rdRate == 121 && n.quay.wrRate == 121 && n.quay.rdLat == 4095)
    ∧ same (.glbHost 0xFFF1E47A) up
    ∧ after (.glbPcap 1500) up (fun n => n.quay.pcap == 1500) ∧ after (.glbPcap 4200) up (fun n => n.quay.pcap == 4200)
    ∧ same (.glbPcap 1499) up ∧ same (.glbPcap 4201) up := by
  unfold Bar0Open; decide +kernel

theorem wit_HostKill :
    let m := withJob { desc := { cid := 5, ring := 2 } }
    after (.glbKill 7 5) m (fun n => n.quay.compl.map (fun c => (c.status, c.detail, c.ring)) == [(0x30, 0, 2)])
    ∧ same (.glbKill 7 6) m ∧ same (.glbKill 8 5) m
    ∧ same (.glbKill 7 5) (withJob { desc := { cid := 5 }, phase := .auditing }) := by decide +kernel

theorem wit_BadAccesses :
    after (.bar0BadAccess true 0x1FFFFFC 8) up (fun n => n.aer == [.unsupportedRequest true 0x1FFFFFC])
    ∧ same (.bar0BadAccess true 0x1FFFFF8 8) up
    ∧ after (.registerWrite .bar0 4 true 0) up (fun n => n.aer == [.unsupportedRequest false 4]) := by decide +kernel

theorem wit_RingRegistersLocked :
    let m := onRing (upRing 255 { sqEn := true, sqBase := 0x1000, cqid := 3 }) 3 (fun _ => { cqEn := true, cqBase := 0x2000 })
    let off := 0x100000 + 64 * 255
    RingsOpen m ∧ cqInUse m 3 = true ∧ cqInUse (upRing 3 { cqEn := true }) 3 = false
    ∧ after (.registerWrite .bar0 off true 0x5000) m (fun n => n.quay.rings == m.quay.rings)
    ∧ same (.registerWrite .bar0 (off + 0x10) false 0x80000001) m
    ∧ after (.registerWrite .bar0 (off + 0x10) false 1) m (fun n => !(ringAt n 255).sqEn && (ringAt n 255).sqLogsz == 0)
    ∧ same (.registerWrite .bar0 0x1000D4 false 0) m
    ∧ after (.registerWrite .bar0 0x1000D4 false 0) (upRing 3 { cqEn := true }) (fun n => !(ringAt n 3).cqEn) := by
  unfold RingsOpen Bar0Open; decide +kernel

theorem wit_RegisterWrites :
    let m := onQuay up (fun q => { q with evt := 0x7F })
    let half := onQuay up (fun q => { q with half := [(0, none)] })
    alive m = true ∧ Bar0Open m ∧ RingsOpen half
    ∧ after (.registerWrite .bar0 0x100000 true 0x123456789) up (fun n => (ringAt n 0).sqBase == 0x123456789)
    ∧ after (.registerWrite .bar0 0x30 false 0x41) m (fun n => n.quay.evt == 0x3E)
    ∧ after (.registerWrite .bar0 0x34 false 0xFFFFFFFF) m (fun n => n.quay.evtEn == 0x7F)
    ∧ after (.registerWrite (.cluster 511 .seq) (0x5000 + 64 * 7 + 60) false 5) m
        (fun n => tget 0xFFFFFFFF (ctxOf (clAt n 511) 7).handles 15 == 5)
    ∧ after (.registerWrite (.die 7 .ste) (0x90000 + 32 * 1023 + 16) false 5) m
        (fun n => tget 0 (dieAt n 7).pool (8 * 1023 + 4) == 5)
    ∧ after (.registerWrite .pke 0x30 false 7) m (fun n => n.pke.ien == 3) := by
  unfold RingsOpen Bar0Open; decide +kernel

/-- The two halves of SQ_BASE, written one after the other. -/
theorem test_halfWrites :
    after (.registerWrite .bar0 0x100000 false 0x9ABCDEF0) up (fun n => n.quay.rings == []
      && after (.registerWrite .bar0 0x100004 false 0x12345678) n (fun k => (ringAt k 0).sqBase == 0x123456789ABCDEF0)) = true := by
  decide +kernel

/-! ## Resets, power and readiness -/

/-- `up` with jobs, keys and plans to lose. -/
def busy : Module := { withJob { desc := { cid := 5 } } with
  pke := { cnt := 3 }, hostOut := [{ addr := 1, bytes := [1] }],
  ep := { up.ep with ide := [(0, { secure := true }), (2, { secure := true })] } }

/-- What `LostAtReset` says, on the fields of `busy`. -/
def lost (n : Module) : Bool := n.quay.jobs == [] && n.quay.compl == [] && !n.quay.ready && n.pke.cnt == 0
  && n.quay.qstate == 0 && n.transit == [] && n.graves == []

/-- Without an image in flash, the retained copy fails its check, and a warm reset ends in recovery. -/
theorem wit_WarmResets :
    Bar0Open busy ∧ alive busy = true ∧ busy.hedge.boot ≠ .recovery ∧ StartsWarm .flr (st busy)
    ∧ retainedOk (resetHedge busy.hedge) = false
    ∧ after (.wreset 0xA5) busy (fun n => lost n && n.hostOut == busy.hostOut && n.hedge.boot == .recovery)
    ∧ same (.wreset 0xA4) busy ∧ after .flr busy lost ∧ after .hotReset busy lost ∧ after .warmReset busy lost
    ∧ after .dlDown busy (fun n => lost n && n.ep.ide == []) := by
  refine ⟨by unfold Bar0Open; decide +kernel, by decide +kernel, by decide +kernel, Or.inr (Or.inl rfl), ?_⟩
  decide +kernel

theorem wit_ColdStarts :
    alive busy = true ∧ (onHedge busy (fun h => { h with refclk := false })).hedge.refclk = false
    ∧ chooseSlot (coldFuses (resetHedge busy.hedge)) = (none, [imageEvent 0 1, imageEvent 1 1])
    ∧ after .pwrgdRise State.reset.m (fun n => n.hedge.boot == .recovery && !(dieAt n 7).railOn && n.hedge.udsClosed)
    ∧ after .coldReset busy (fun n => lost n && n.hedge.boot == .recovery)
    ∧ after .perstAssert busy (fun n => lost n && n.ep.perst && !n.hedge.clkreq)
    ∧ after .refclkStable (onHedge busy (fun h => { h with refclk := false })) (fun n => lost n && n.hedge.refclk) := by
  decide +kernel

theorem wit_PowerLosses :
    alive busy = true ∧ busy.hedge.refclk = true
    ∧ after .pwrgdFall busy (fun n => n.quay.jobs == [] && n.hedge.boot == .off && !(dieAt n 7).railOn && n.hostOut == busy.hostOut)
    ∧ after (.railOutOfTolerance 3) busy (fun n => n.quay.jobs == [] && n.hedge.boot == .off)
    ∧ after (.regulatorFault 3) busy (fun n => n.quay.jobs == [] && n.hedge.faultPin
        && n.hedge.logQ.map (fun e => (e.cls, e.unit)) == [(14, 3)])
    ∧ after .refclkMissing busy (fun n => n.quay.jobs == [] && n.hedge.faultPin && !n.hedge.refclk) := by decide +kernel

theorem wit_ThermalStops :
    let hot := onStk busy 15 (fun s => { s with state := 3, critRun := 2 })
    alive busy = true ∧ (stkAt hot 15).state ≠ 0 ∧ 2 ≤ (stkAt hot 15).critRun
    ∧ after (.junctionShutdown 7) busy (fun n => n.quay.jobs == [] && n.hedge.thermtrip && n.hedge.boot == .shutdown
        && n.hostOut == busy.hostOut)
    ∧ after (.tCrit 15) hot (fun n => n.quay.jobs == [] && n.hedge.thermtrip && (stkAt n 15).crit)
    ∧ after (.thermtripComparator 8) busy (fun n => n.hedge.thermtrip && n.hedge.boot == .running) := by decide +kernel

theorem wit_RestStates :
    let q := { onQuay up (fun q => { q with qstate := 2, quiesceD3 := true }) with
      ep := { up.ep with d3hot := true }, stks := [(4, { state := 3, mem := [(9, 1)] })] }
    let r := onHedge q (fun h => { h with boot := .restMonitor, power := .rest })
    anyFence q = false ∧ q.hedge.boot = .running
    ∧ after .d3hot up (fun n => n.quay.qstate == 1 && n.quay.quiesceD3 && n.ep.d3hot)
    ∧ after .restEntry q (fun n => n.hedge.boot == .restMonitor && n.hedge.vqNow == 650 && (stkAt n 4).state == 4
        && (stkAt n 4).mem == [(9, 1)] && !(dieAt n 3).railOn)
    ∧ retainedOk r.hedge = false ∧ after .d0 r (fun n => n.quay.qstate == 0 && !n.ep.d3hot && n.hedge.boot == .recovery)
    ∧ after .d0 q (fun n => !n.ep.d3hot && n.quay.qstate == 2) := by decide +kernel

theorem wit_Readiness :
    let m := { up with ep := { perst := false, linkUp := true }, clusters := [(511, { restricted := true })],
                       quay := {}, hedge := { up.hedge with fuses := { lcs := 0x03 } } }
    alive up = true ∧ m.ep.crs = true ∧ up.hedge.aonLost = false
    ∧ after .perstDeassert busy (fun n => n.ep.crs && n.hedge.clkreq)
    ∧ lcsOf m.hedge.fuses = 2 ∧ after .ready m (fun n => n.quay.ready && n.ep.readiness == [1] && !n.ep.crs)
    ∧ after .ready (onHedge m (fun h => { h with boot := .recovery })) (fun n => !n.quay.ready && n.ep.readiness == [1])
    ∧ same .ready { m with clusters := [(511, { wiping := true })] }
    ∧ after .aonLoss up (fun n => n.hedge.aonLost && n.hedge.logQ.map (·.cls) == [14])
    ∧ same .aonLoss (onHedge up (fun h => { h with aonLost := true })) ∧ same .ready { m with stks := [(15, { state := 2 })] }
    ∧ same .ready { m with ep := { m.ep with perst := true } } ∧ same .ready { m with ep := { m.ep with crs := false } } := by
  decide +kernel

theorem wit_QuiesceChecks :
    let q := onQuay up (fun q => { q with qstate := 1 })
    let bad := onDie q 7 (fun d => { d with ledger := [(3, { held := 1 })] })
    after .quiesceCheck q (fun n => n.quay.qstate == 2 && n.quay.evt == 1)
    ∧ dieClear bad 7 = false ∧ after .quiesceCheck bad (fun n => n.quay.qstate == 1
        && n.quay.quiesceBad == [7] && n.hedge.logQ.map (fun e => (e.cls, e.unit)) == [(12, 7)])
    ∧ same .quiesceCheck (onQuay q (fun q => { q with quiesceBad := [7] })) ∧ same .quiesceCheck up := by decide +kernel

theorem wit_DieResets :
    let m := { withJob { desc := { cid := 5 }, clusters := choice.clusters } with
      clusters := [(511, { rme := { run := some { startedAt := 0 } } })], now := 2 ^ 40 }
    let q := onDie (onQuay up (fun q => { q with qstate := 1, quiesceBad := [7] })) 7 (fun d => { d with ledger := [(3, { held := 1 })] })
    alive m = true ∧ m.hedge.boot = .running ∧ jobsOnDie m 0 = [7] ∧ dieClear q 7 = false
    ∧ after (.dieReset 0 .internalError) m (fun n => n.quay.compl.map (fun c => (c.status, c.detail, c.cid)) == [(0x3A, 0, 5)]
        && (clAt n 63).wiping && (stkAt n 1).state == 2 && n.quay.evt == 64)
    ∧ after (.dieReset 7 .quiesceCheck) q (fun n => (stkAt n 15).state == 2)
    ∧ after (.engineOverrun 511 .rme) m (fun n => (stkAt n 15).state == 2 && (clAt n 511).wiping) := by decide +kernel

theorem wit_UnitResets :
    let m := { up with clusters := [(511, { rme := { domain := true }, vec := { domain := true } })],
                       dies := [(7, { ste := [(15, { overrun := true })], sd := [(120, 1), (127, 1)], ferCrc := true,
                                      windows := [{ cl := 0, job := 7, base := 0, size := 1, frames := [(0, { st := 2 })] }] })] }
    (clAt m 511).restricted = true
    ∧ after (.engineReset (.engine 511 .rme)) m (fun n => !(clAt n 511).rme.domain && (clAt n 511).vec.domain)
    ∧ after (.engineReset (.engine 511 .nte)) (onCl m 511 (fun c => { c with rix := [(1, 5)], nte := { run := some {
        regs := [(0, 0x2A0), (1, 0x600000), (2, 0x600000), (3, 1024)], opid := 4 } } }))
        (fun n => (clAt n 511).nte.run.isNone && rowFenced (clAt n 511) 15 && (clAt n 511).rme.domain && n.hedge.drbgGens == 0)
    ∧ after (.engineReset (.stream 7 15)) m (fun n => (dieAt n 7).ste == [] && (dieAt n 7).sd == [])
    ∧ after (.engineReset (.ferry 7)) m (fun n => !(dieAt n 7).ferCrc && (dieAt n 7).windows.map (·.frames) == [[]]) := by
  decide +kernel

theorem wit_JobKills :
    let m := withJob { phase := .running, clusters := choice.clusters, desc := { cid := 5 } }
    let m1 := onCl m 3 (fun c => { c with ctxs := [(0, { state := 1, job := 7 })] })
    after (.jobKill 7 (.ledgerFault 3)) m1 (fun n => n.quay.compl.map (fun c => (c.status, c.detail, c.cid)) == [(0x36, 3, 5)]
        && (jobAt n 7).map (·.killed) == some (some (.ledgerFault 3)) && (ctxOf (clAt n 3) 0).state == 0
        && rowFenced (clAt n 3) 0)
    ∧ same (.jobKill 7 .killed) (withJob { killed := some .hostRead }) := by decide +kernel

/-! ## Sequencers -/

/-- Job 7 running on cluster 3 with the stream `ws` in its fetch buffer, its context 0 changed by `f` and its cluster by `g`. -/
def running (ws : List Word) (f : Context → Context) (g : Cluster → Cluster) : Module :=
  let h : ClHold := { cl := 3, row0 := 0, rows := 64, queue0 := 0, queues := 64, flag0 := 0, flags := 256, pair0 := 0,
                      pairs := 32, frames := 0, stream := ws }
  let d : DieHold := { die := 0, pool0 := 0, pools := 8, desc0 := 0, descs := 0, region := 0, regionMiB := 0, ferry := [] }
  { withJob { phase := .running, clusters := [h], dies := [d], desc := { cid := 5 } } with
    now := 100, clusters := [(3, g { restricted := false,
                                     ctxs := [(0, f { state := 1, job := 7, len := ws.length, fbuf := (0, ws) })] })] }

/-- The same with the fields as they start. -/
def plain (ws : List Word) : Module := running ws id id

/-- Context 0 of cluster 3 of a module. -/
def x3 (m : Module) : Context := ctxOf (clAt m 3) 0

/-- What `MayIssue` and `AtPc` ask, as a test. -/
def mayB (m : Module) (cl k : Nat) (ws : List Word) (op : Nat) (slot halted : Bool) : Bool :=
  let x := ctxOf (clAt m cl) k
  decide (x.state = 1 ∨ x.state = 3) && !replayWaits m x.job && decide (wordsAt m x = ws)
    && decide (lenAt m x = ws.length) && decide (x.pc + ws.length ≤ x.len) && decide (x.origin + x.slipTotal + x.planned ≤ m.now)
    && ((dieAt m (cl / 64)).halted == halted) && !x.brkHit && !hostLate m cl k && (fetchHits m x ws.length).isEmpty
    && decide (delivered m x ws.length = ws) && (!slot || (decide ((clAt m cl).issueFree ≤ m.now) && !outranked m cl k))
        && decide ((ws.headD 0).toNat % 256 = op)

/-- The test is sound for `MayIssue`. -/
theorem wit_MayIssue (m : Module) (cl k : Nat) (ws : List Word) (op : Nat) (slot : Bool)
    (h : mayB m cl k ws op slot false = true) : MayIssue m cl k ws op slot := by
  simp only [mayB, Bool.and_eq_true, decide_eq_true_eq, Bool.not_eq_true', beq_iff_eq, Bool.or_eq_true] at h
  obtain ⟨⟨⟨⟨⟨⟨⟨⟨⟨⟨⟨⟨h1, h2⟩, h3⟩, h4⟩, h12⟩, h5⟩, h6⟩, h7⟩, h10⟩, h11⟩, h13⟩, h8⟩, h9⟩ := h
  exact ⟨⟨h1, h2, h3, h4, h12, h5⟩, h6, h7, h10, List.isEmpty_iff.mp h11, h13, fun hs => h8.resolve_left (by simp [hs]), h9⟩

/-- It is sound for `AtPc` on a halted die. -/
theorem wit_AtPc (m : Module) (cl k : Nat) (ws : List Word) (op : Nat) (slot : Bool)
    (h : mayB m cl k ws op slot true = true) : AtPc m cl k ws ∧ (dieAt m (cl / 64)).halted = true := by
  simp only [mayB, Bool.and_eq_true, decide_eq_true_eq, Bool.not_eq_true', beq_iff_eq] at h
  obtain ⟨⟨⟨⟨⟨⟨⟨⟨⟨⟨⟨⟨h1, h2⟩, h3⟩, h4⟩, h12⟩, h5⟩, h6⟩, _⟩, _⟩, _⟩, _⟩, _⟩, _⟩ := h
  exact ⟨⟨h1, h2, h3, h4, h12, h5⟩, h6⟩

theorem wit_HaltHolds :
    let halt (f : Context → Context) := { running [0x0E] f id with dies := [(0, { halted := true })] }
    mayB (halt id) 3 0 [0x0E] 0x0E true true
    ∧ after (.wait 3 0 [0x0E]) (halt id) (fun n => (x3 n).pc == 0 && (x3 n).slipTotal == 1 && (x3 n).slipEvents == 1
        && (x3 n).lastCause == 11 && (x3 n).holdRun == some (0, 100) && (x3 n).wdog == 0)
    ∧ after (.wait 3 0 [0x0E]) (halt (fun x => { x with holdRun := some (0, 99), lastCause := 6 }))
        (fun n => (x3 n).slipTotal == 1 && (x3 n).slipEvents == 0 && (x3 n).lastCause == 6)
    ∧ same (.wait 3 0 [0x0E]) (halt (fun x => { x with holdRun := some (0, 100) })) := by decide +kernel

theorem wit_ContextInstructions :
    let tm : List Word := [0xFFFF010A, 7]
    let pt (mode : Nat) : List Word := [BitVec.ofNat 32 (0x00FF0108 + mode * 2 ^ 24), 0xFFFFFFFF]
    let lp : List Word := [0x00030209, 0xFFFFFF, 1]
    let par (x : Context) : Context := { x with params := [(255, 0x1122334455667788)] }
    let brk (ws : List Word) (b : Word) := running ws id (fun c => { c with brk := [(0, b)] })
    mayB (plain tm) 3 0 tm 0x0A false false ∧ mayB (plain lp) 3 0 lp 0x09 true false
    ∧ mayB (plain [0xFFFF000D]) 3 0 [0xFFFF000D] 0x0D false false ∧ mayB (plain [0x0E]) 3 0 [0x0E] 0x0E true false
    ∧ mayB (running (pt 2) par id) 3 0 (pt 2) 0x08 true false
    ∧ after (.tmark 3 0 tm) (plain tm) (fun n => (x3 n).planned == 0xFFFF00000007 && (x3 n).pc == 2)
    ∧ after (.tag 3 0 [0xFFFF000D]) (plain [0xFFFF000D]) (fun n => (x3 n).curtag == 0xFFFF && (x3 n).issued == 1)
    ∧ after (.tag 3 0 [0xFFFF000D]) (brk [0xFFFF000D] 0x3FFFE) (fun n => (x3 n).brkHit)
    ∧ after (.tag 3 0 [0xFFFF000D]) (brk [0xFFFF000D] 5) (fun n => (x3 n).brkHit)
    ∧ after (.patch 3 0 (pt 0)) (running (pt 0) par id) (fun n => (x3 n).params == [(255, 0x11223344FFFFFFFF)])
    ∧ after (.patch 3 0 (pt 1)) (running (pt 1) par id) (fun n => (x3 n).params == [(255, 0xFFFFFFFF55667788)])
    ∧ after (.patch 3 0 (pt 2)) (running (pt 2) par id) (fun n => (x3 n).params == [(255, 0x1122334455667787)])
    ∧ after (.loop 3 0 lp) (plain lp) (fun n => (x3 n).loops == [{ level := 3, first := 3, last := 4, left := 0xFFFFFF }]
        && (x3 n).pc == 3)
    ∧ after (.endStream 3 0 [0x0E]) (running [0x0E] (fun x => { x with slipTotal := 2 }) id)
        (fun n => (x3 n).ended && (x3 n).state == 0
          && (clAt n 3).issueFree == 101 && (jobAt n 7).map (fun j => (withSlips n 7 j).slip) == some 2) := by decide +kernel

/-- A late host read, a taken slot, a context that comes before, and a fetch that meets an uncorrectable unit, with a budget and
without one. -/
theorem wit_HoldCauses :
    let late : Stream := { set := [], job := 7, cl := 3, ctx := 0, due := some 99 }
    let host := { plain [0x0E] with dies := [(0, { ste := [(15, { active := some late })] })] }
    let slot (k : Nat) := running [0x0E] id (fun c => { c with issueFree := 101, issueOwner := k })
    let two := running [0x0E] (fun x => { x with origin := 5 }) (fun c => { c with
      ctxs := c.ctxs ++ [(1, { state := 1, job := 7, len := 1, fbuf := (0, [0x0E]) })] })
    let bad := { running [0x0E] (fun x => { x with fbuf := (0, []) }) id with
                 stks := [(0, { mem := mput [] 0 [0x0E], err := [(0, 4)] })] }
    let hand := onJob bad 7 (fun j => { j with desc := { j.desc with hand := true } })
    let cause (m : Module) (k : BitVec 4) : Bool := after (.endStream 3 0 [0x0E]) m (fun n => (x3 n).lastCause == k && (x3 n).pc == 0)
    hostLate host 3 0 = true ∧ cause host 12 ∧ cause (slot 1) 9 ∧ same (.endStream 3 0 [0x0E]) (slot 0)
        ∧ outranked two 3 0 = true ∧ outranked two 3 1 = false ∧ cause two 9
    ∧ fetchHits bad (x3 bad) 1 = [(0, 4)] ∧ jobReplays bad 7 = true ∧ jobReplays hand 7 = false
    ∧ outranked (fetched hand 3 0 1) 3 0 = false
    ∧ after (.endStream 3 0 [0x0E]) bad (fun n => n.clusters == bad.clusters && (jobAt n 7).map (·.replayReq) == some (some .memory)
        && (stkAt n 0).eccUnc == 1)
    ∧ after (.endStream 3 0 [0x0E]) hand (fun n => n.quay.compl.map (·.status) == [0x31] && (stkAt n 0).eccUnc == 1) := by decide +kernel

/-- The back edge of a loop body, its last iteration, and an outer body that ends with it (R450). -/
theorem test_loopEnds :
    let f (l : Nat) : LoopFrame := { level := 1, first := 5, last := 9, left := l }
    loopEnds [f 2] 8 = ([f 2], 8) ∧ loopEnds [f 2] 9 = ([f 1], 5) ∧ loopEnds [f 1] 9 = ([], 9)
    ∧ loopEnds [f 1, { level := 0, first := 1, last := 9, left := 3 }] 9 = ([{ level := 0, first := 1, last := 9, left := 2 }], 1) := by
  decide

theorem wit_FlagsWaitAndSignal :
    let w : List Word := [0xFFFF0003]
    let f (v : BitVec 16) (ws : List Word) := running ws id (fun c => { c with flags := [(255, v)] })
    let s : List Word := [0x00000104, 0xFF0003FF]
    let r : List Word := [0x00000104, 0x0101FFFF]
    let sent (v : BitVec 16) := { f v [] with transit := [.signal 0x3FF 255 7] }
    let due (v : BitVec 16) (es : List FlagEvent) := { f v [] with flagIn := es }
    let e : FlagEvent := { addr := 0x3FF, add := 255, job := 7 }
    mayB (f 255 w) 3 0 w 0x03 true false ∧ mayB (f 0 s) 3 0 s 0x04 true false
    ∧ after (.wait 3 0 w) (f 255 w) (fun n => tget 0 (clAt n 3).flags 255 == 0 && (x3 n).pc == 1)
    ∧ after (.wait 3 0 w) (f 254 w) (fun n => tget 0 (clAt n 3).flags 255 == 254 && (x3 n).pc == 0 && (x3 n).lastCause == 6)
    ∧ after (.signal 3 0 s) (f 65280 s) (fun n => tget 0 (clAt n 3).flags 255 == 65280 && n.flagIn == [e])
    ∧ after (.signal 3 0 r) (f 0 r) (fun n => n.transit == [.signal 0x1FFFF 1 7])
    ∧ after (.signalArrival 0) (sent 65280) (fun n => n.flagIn == [e] && n.transit == [])
    ∧ ticked (due 65280 [e]) (fun n => tget 0 (clAt n 3).flags 255 == 65535 && n.now == 101 && n.flagIn == [])
    ∧ ticked (due 65281 [e]) (fun n => n.quay.compl.map (fun c => (c.status, c.detail)) == [(0x35, 5)]
        && tget 0 (clAt n 3).flags 255 == 65281)
    ∧ ticked (due 0 [{ e with add := 0, taken := 2 }, e]) (fun n => tget 0 (clAt n 3).flags 255 == 255) := by decide +kernel

/-- Pool 2 of die 0, of job 7, with one slot and generation 9; handle 0x00800009. -/
def pooled (m : Module) : Module := { m with dies := [(0, { pool := [(16, BitVec.ofNat 32 (9 * 2 ^ 8 + 7 * 2 ^ 14))] })] }

theorem wit_HandleQueues :
    let h : Word := 0x00800009
    let pop : List Word := [0x03FF0005]
    let push : List Word := [0x000F0106, 0xC0]
    let q := pooled (running pop id (fun c => { c with queues := [(63, [{ h := h, remote := some (1, 4) }])] }))
    let p := pooled (running push (fun x => { x with handles := [(15, h)], own := 0x8000 }) id)
    let a := { p with transit := [.handle 0xC0 h none 7], clusters := [(3, { (clAt p 3) with reserved := [(0, 1)] })] }
    mayB q 3 0 pop 0x05 true false ∧ handleOk q 0 7 h = true ∧ mayB p 3 0 push 0x06 true false
    ∧ localRoom p 3 0 ≠ 0 ∧ handleWaits a.transit 0 0xC0 none = false
    ∧ after (.pop 3 0 pop) q (fun n => queueOf (clAt n 3) 63 == [] && tget 0xFFFFFFFF (x3 n).handles 15 == h
        && (x3 n).own == 0x8000 && n.transit == [.credit 1 4])
    ∧ after (.pop 3 0 pop) (plain pop) (fun n => (x3 n).pc == 0 && (x3 n).lastCause == 7)
    ∧ after (.push 3 0 push) p (fun n => (x3 n).own == 0 && n.transit == [.handle 0xC0 h none 7]
        && tget 0 (clAt n 3).reserved 0 == 1)
    ∧ after (.handleArrival 0) a (fun n => queueOf (clAt n 3) 0 == [{ h := h, at_ := some 100 }] && tget 0 (clAt n 3).reserved 0 == 0) := by
  decide +kernel

/-- A PUSH behind one of a lower cluster to the same queue, a handle that arrived in this a-cycle, and an empty queue. -/
theorem wit_Turns :
    let h : Word := 0x00800009
    let push : List Word := [0x000F0106, 0xC0]
    let pop : List Word := [0x03FF0005]
    let p := pooled (running push (fun x => { x with handles := [(15, h)], own := 0x8000 }) id)
    let two : Module := { p with clusters := (2, clAt p 3) :: p.clusters }
    let new := pooled (running pop id (fun c => { c with queues := [(63, [{ h := h, at_ := some 100 }])] }))
    mayB two 3 0 push 0x06 true false ∧ pushBehind (fetched two 3 0 2) 3 0xC0 = true ∧ pushBehind (fetched two 2 0 2) 2 0xC0 = false
    ∧ same (.push 3 0 push) two ∧ after (.push 2 0 push) two (fun n => (x3 n).own == 0x8000 && n.transit.length == 1)
    ∧ mayB new 3 0 pop 0x05 true false
    ∧ after (.pop 3 0 pop) new (fun n => (x3 n).pc == 0 && (x3 n).lastCause == 7) := by decide +kernel

/-- A PUSH to a queue of another die, with a credit and without one. -/
theorem wit_RemotePush :
    let h : Word := 0x00800009
    let push : List Word := [0x000F0106, 0x1000]
    let m (avail : BitVec 9) := let p := pooled (running push (fun x => { x with handles := [(15, h)], own := 0x8000 }) id)
      onDie p 0 (fun d => { d with credits := [(4, { qaddr := 0x1000, valid := true, job := 7, grant := 2, avail := avail })] })
    mayB (m 1) 3 0 push 0x06 true false ∧ handleOk (m 1) 0 7 h = true ∧ (creditFor (m 1) 0 7 0x1000).isSome = true
    ∧ after (.push 3 0 push) (m 1) (fun n => (x3 n).own == 0 && n.transit.take 1 == [.handle 0x1000 h (some (0, 4)) 7]
        && (tget {} (dieAt n 0).credits 4).avail == 0 && (linkAt n (.pon 0 0)).nextSeq == 1 && (linkAt n (.pon 1 1)).expected == 1)
    ∧ after (.push 3 0 push) (m 0) (fun n => (x3 n).pc == 0 && (x3 n).lastCause == 7 && n.transit == []) := by decide +kernel

theorem wit_LedgerMessages :
    let m (ms : List Msg) (d : Die) := { withJob { phase := .running } with transit := ms, dies := [(7, d)], now := 1000 }
    let c (v : BitVec 9) : Die := { credits := [(511, { valid := true, job := 7, grant := 2, avail := v })] }
    let neg (t : Nat) : Die := { ledger := [(1023, { held := -1, queued := 1, negHeld := some t })],
                                 pool := [(8 * 1023, BitVec.ofNat 32 (7 * 2 ^ 14))] }
    after (.ledgerReport 0) (m [.report 7 1023 .held .transit] {})
        (fun n => tget {} (dieAt n 7).ledger 1023 == { held := -1, transit := 1, negHeld := some 1000 } && n.transit == [])
    ∧ after (.creditReturn 0) (m [.credit 7 511] (c 1)) (fun n => (tget {} (dieAt n 7).credits 511).avail == 2)
    ∧ after (.creditReturn 0) (m [.credit 7 511] (c 2)) (fun n => (dieAt n 7).ldgFault == BitVec.ofNat 32 (4 + 7 * 2 ^ 14 + 2 ^ 31)
        && n.quay.compl.map (fun x => (x.status, x.detail)) == [(0x36, 4)])
    ∧ after (.negCount 7 1023) (m [] (neg 487)) (fun n => n.quay.compl.map (fun x => (x.status, x.detail)) == [(0x36, 3)])
    ∧ same (.negCount 7 1023) (m [] (neg 488)) ∧ anyRetry (m [] (neg 487)) = false := by decide +kernel

theorem wit_HaltAndWatchdog :
    let m := running [0x0E] (fun x => { x with wdog := 2 ^ 28, brkHit := true }) id
    let snap := onJob m 7 (fun j => { j with desc := { j.desc with snap := 0x40 } })
    after (.watchdogTrip 3 0) snap (fun n => n.quay.compl.map (fun c => (c.status, c.detail, c.snapshot.isSome)) == [(0x37, 0, true)])
    ∧ after (.breakpoint 3 0) m (fun n => (dieAt n 0).halted && (dieAt n 0).haltSrc == 3 && !(x3 n).brkHit)
    ∧ after (.resume 7) { m with dies := [(7, { halted := true })] } (fun n => !(dieAt n 7).halted) := by decide +kernel

/-! ## Engines -/

/-- Prime 786433 = 3·2^18 + 1 with the primitive 2048-th root 778936, validated. -/
def prime : ModEntry := { q := 786433, psi := 778936, psiinv := 444460, ne := 10, valid := true }

theorem wit_NttRoundTrip :
    1 < 786433 ∧ 2 ^ 2 ∣ 786433 - 1 ∧ 778936 * 444460 % 786433 = 1 ∧ 2 * 393217 % 786433 = 1
    ∧ nttInv 786433 444460 2 393217 (nttFwd 786433 778936 2 2 [0, 786432, 5, 7]) = [0, 786432, 5, 7] := by decide +kernel

/-- An operation whose registers and modulus table are given, running on engine `e` of cluster 3. -/
def engined (f : Cluster → Cluster) : Module := { up with clusters := [(3, f { restricted := false })], now := 100 }

/-- A two-word transform of words 0 and 1 to words 64 and 65: count 1, LOGN 1, and `op` 0 FWD, 1 INV. -/
def nteOp (op : Nat) (e : ModEntry) : RunOp :=
  { regs := [(0, BitVec.ofNat 32 (2 * op + 2 ^ 4 + 2 ^ 9)), (2, 64)], moduli := [(0, e)], opid := 4 }

/-- A cluster with words 0 to 3 in its scratchpad. -/
def words (a b c d : Word) (k : Cluster) : Cluster := { k with scratch := mputWords [] 0 [a, b, c, d] }

theorem wit_TransformsAndSums :
    let m (op : Nat) (e : ModEntry) (a b : Word) := engined (fun k => words a b 0 0 { k with nte := { run := some (nteOp op e) } })
    let out (n : Module) := (mword (clAt n 3).scratch 64, mword (clAt n 3).scratch 65)
    (nteCfg (nteOp 1 prime).regs).op = 1 ∧ (nteCfg (nteOp 0 prime).regs).count = 1
    ∧ memWf (clAt (m 0 prime 5 7) 3).scratch = true ∧ entFor prime 1 = true ∧ entFor prime 11 = false
    ∧ after (.nteFwd 3) (m 0 prime 5 7) (fun n => out n == (700180, 86263))
    ∧ after (.nteInv 3) (m 1 prime 786432 1) (fun n => (out n).1 == 0)
    ∧ after (.nteFwd 3) (m 0 {} 5 7) (fun n => out n == (0, 0) && (clAt n 3).nte.modInvalid)
    ∧ after (.nteFwd 3) (m 0 prime 5 786433) (fun n => out n == (0, 0) && (clAt n 3).nte.domain) := by decide +kernel

/-- One product of words 0 and 2, and words 1 and 3: MODE `mode`, G 1, M 1, N 1, K 2, sum to word 64. -/
def rmeOp (mode : Nat) : RunOp :=
  { regs := [(0, BitVec.ofNat 32 (2 * mode + 2 ^ 16)), (1, 1), (2, 1), (3, 2), (5, 1), (8, 2), (9, 1), (12, 64)],
    moduli := [(0, prime)], opid := 4 }

theorem wit_ResidueSums :
    let c (a : Word) : Cluster := words a 3 5 7 {}
    let w (a : Word) := macWord (c a) (rmeOp 1) (rmeCfg (rmeOp 1).regs) {} 0 0 0
    (rmeCfg (rmeOp 1).regs).chain.pro = [] ∧ (w 2).v = 31 ∧ (w 786432).v = 16 ∧ (w 786433).v = 0 ∧ (w 786433).r.domain = true := by
  decide +kernel

/-- A vector operation of one element: stream 0 reads word 0, PREG program at word 1, output stream 0 writes word 64. -/
def vecOp : RunOp := { regs := [(0, 0x110), (1, 0x10001), (2, 1), (3, 1), (0x10, 64)], opid := 4, side := [(1, 0x10)] }

theorem wit_EngineOperations :
    let n (o : RunOp) := engined (fun k => words 2 3 5 7 { k with rme := { run := some o } })
    let norm : RunOp := { rmeOp 2 with regs := (rmeOp 2).regs ++ [(0x20, 0x10), (0x28, 0x15)] }
    let trail : RunOp := { norm with blocks := 1, passed := 0 }
    let v := engined (fun k => words 2 0 5 7 { k with vec := { run := some vecOp } })
    (rmeCfg (rmeOp 0).regs).mode = 0 ∧ (rmeCfg (rmeOp 2).regs).mode = 2 ∧ chainNorm (rmeCfg (rmeOp 2).regs).chain = none
    ∧ (chainNorm (rmeCfg norm.regs).chain).isSome = true ∧ blockCount (rmeCfg norm.regs) = 1
    ∧ after (.bcast 3) (n (rmeOp 0)) (fun m => mword (clAt m 3).scratch 64 == 31 && (clAt m 3).rme.run.map (·.done) == some true)
    ∧ after (.ewmac 3) (n (rmeOp 1)) (fun m => mword (clAt m 3).scratch 64 == 31)
    ∧ after (.openMode 3) (n (rmeOp 2)) (fun m => (clAt m 3).rme.run.map (·.done) == some true)
    ∧ after (.openMode 3) (n norm) (fun m => (clAt m 3).rme.run.map (fun r => (r.done, r.blocks)) == some (false, 1))
    ∧ (clAt (n trail) 3).rme.run = some trail ∧ trail.passed < trail.blocks
    ∧ same (.trailingPass 3 0) (n { trail with pages := [{ info := {} }] })
    ∧ vecProg vecOp.word (vecCfg vecOp.regs) = [0x10] ∧ uopOk false 0 0 0x10 = true
    ∧ after (.vecOperation 3) v (fun m => mword (clAt m 3).scratch 64 == 4 && (clAt m 3).vec.run.map (·.done) == some true) := by decide +kernel

theorem wit_OperationDone :
    let o : RunOp := { done := true, opid := 4, dflag := some 255, record := some 15, ctx := 0, job := 7, domain := true,
                       oflags := 5 }
    let m := running [0x0E] (fun x => { x with records := [(15, { bound := 2 })] })
      (fun c => { c with nte := { run := some o }, rme := { run := some { o with done := false } },
                         scb := [⟨0, 1, true, 0, 0, 4⟩, ⟨2, 3, true, 0, 1, 5⟩], flags := [(255, 65534)] })
    pagesReported o = true ∧ 0 ∈ ctxsAll (clAt m 3) 7
    ∧ after (.nteDone 3) m (fun n => (clAt n 3).nte.run.isNone && (clAt n 3).scb.map (·.opid) == [5]
        && (tget {} (x3 n).records 15).causes == [9] && (tget {} (x3 n).records 15).bound == 1
        && tget 0 (clAt n 3).flags 255 == 65534 && n.flagIn == [{ addr := 0x3FF, add := 1, job := 7 }]
        && (jobAt n 7).map (·.oflags) == some 5)
    ∧ same (.rmeDone 3) m ∧ same (.vecDone 3) m := by decide +kernel

theorem wit_ModulusValidate :
    let m (e : ModEntry) := engined (fun k => { k with mods := [(255, e)] })
    after (.modulusEntryValidate 3 255 0xFFFFFFEA) (m prime) (fun n => tget {} (clAt n 3).mods 255 ==
        { prime with valid := false, busy := true })
    ∧ after (.modulusValidationDone 3 255) (m { prime with valid := false, busy := true })
        (fun n => tget {} (clAt n 3).mods 255 == prime)
    ∧ after (.modulusValidationDone 3 255) (m { prime with busy := true, psi := 1 })
        (fun n => tget {} (clAt n 3).mods 255 == { prime with psi := 1, valid := false })
    ∧ same (.modulusValidationDone 3 255) (m prime) := by decide +kernel

/-- A transform of 1,024 words in place on cluster 3, as a pending set. -/
def nteSet : Tab Word := [(0, 0x2A0), (1, 0x600000), (2, 0x600000), (3, 1024)]

theorem wit_Starts :
    let ws : List Word := [0x00000102, 0x1F01FF]
    let f (x : Context) : Context := { x with records := [(15, { isOpen := true, code := 1 })] }
    let m (g : EngineState) (scb : List ScbEntry) := running ws f (fun c => { c with mods := [(0, prime)], nte := g, scb := scb })
    let free := m { cfg := nteSet } []
    let held := m { cfg := nteSet } [⟨0, 0xFF, true, 0, 1, 9⟩]
    let pend : EngineState := { cfg := nteSet, pend := some { ctx := 0, job := 7, opid := 4 } }
    mayB free 3 0 ws 0x02 true false ∧ opRefused 3 .nte nteSet [] = none ∧ vprogBad (clAt free 3) .nte nteSet = false
    ∧ (keyNeed free 3 7 .nte nteSet []).delivers = false ∧ (keyNeed free 3 7 .nte nteSet []).ready = true
    ∧ entriesReady (clAt free 3) .nte nteSet = true ∧ vecAllows (clAt free 3) .nte nteSet = true
    ∧ scbCause (clAt free 3) false (opRanges .nte nteSet []) = none ∧ scbCause (clAt held 3) false (opRanges .nte nteSet []) = some 1
    ∧ after (.start 3 0 ws) free (fun n => (clAt n 3).nte.run.map (fun o => (o.regs, o.dflag, o.record, o.startedAt)) ==
        some (nteSet, some 255, some 15, 100) && (clAt n 3).scb.length == 2 && (tget {} (x3 n).records 15).bound == 1)
    ∧ after (.start 3 0 ws) (m { cfg := nteSet, run := some {} } []) (fun n => (clAt n 3).nte.run == some {}
        && (clAt n 3).nte.pend.isSome)
    ∧ after (.start 3 0 ws) held (fun n => (x3 n).lastCause == 1 && (x3 n).pc == 0 && (clAt n 3).scb.length == 1)
    ∧ after (.pendingStart 3 .nte) (m pend []) (fun n => (clAt n 3).nte.pend.isNone
        && (clAt n 3).nte.run.map (fun o => (o.regs, o.opid)) == some (nteSet, 4))
    ∧ same (.pendingStart 3 .nte) free := by decide +kernel

/-- The witness of the conditions on a LOAD's words. -/
theorem wit_MayLoad (m : Module) (cl k : Nat) (ws : List Word) (eng regw : Nat) (data : List (Word × Bool)) (vs : List Word)
    (h : mayB m cl k ws 0x01 true false = true) (ha : (ws.headD 0).toNat / 65536 = 16 * regw + eng) (he : eng ≤ 4)
    (hd : loadGroups 8 (ws.drop 1) = some data) (hn : data ≠ []) (hw : ∀ i, i < data.length → winMapped eng (regw + i) = true)
    (hr : resolveAll m cl (ctxOf (clAt m cl) k) data = .ok vs) : MayLoad m cl k ws eng regw vs :=
  ⟨wit_MayIssue m cl k ws _ _ h, ha, he, data, hd, hn, hw, hr⟩

theorem wit_Loads :
    let one (arg : Nat) (v : Word) : List Word := [BitVec.ofNat 32 (arg * 65536 + 0x201), 0, v]
    let ref : List Word := [BitVec.ofNat 32 (0x11 * 65536 + 0x201), 1, 0x00000405]
    let m (ws : List Word) := plain ws
    let x5 (x : Context) : Context := { x with params := [(5, 0x99)] }
    ((loadGroups 8 [1, 0x00000405]) = some [(0x405, true)]) ∧ winMapped 0 0x4FF = true ∧ winMapped 3 0x40F = true
    ∧ mayB (m (one 0x50 7)) 3 0 (one 0x50 7) 1 true false
    ∧ after (.load 3 0 (one 0x00 0x2A1)) (m (one 0x00 0x2A1)) (fun n => tget 0 (clAt n 3).nte.cfg 0 == 0x2A0 && (x3 n).pc == 3)
    ∧ after (.load 3 0 ref) (running ref x5 id) (fun n => tget 0 (clAt n 3).rme.cfg 1 == 0x9A)
    ∧ after (.load 3 0 (one 0x4FF0 10)) (m (one 0x4FF0 10)) (fun n => tget {} (clAt n 3).mods 255 == { ne := 10, busy := true })
    ∧ after (.load 3 0 (one 0x40F3 6)) (m (one 0x40F3 6)) (fun n => tget 0xFFFFFFFF (x3 n).handles 15 == 6)
    ∧ after (.load 3 0 (one 0x1FF3 0x1FFFF)) (m (one 0x1FF3 0x1FFFF)) (fun n => tget 0 (clAt n 3).lp 63 == 0x7FFF)
    ∧ after (.load 3 0 (one 0x18A3 0xFFFFFFFF)) (m (one 0x18A3 0xFFFFFFFF)) (fun n => tget 0 (clAt n 3).rix 10 == 0x1FFFFF)
    ∧ after (.load 3 0 (one 0x004 0xFFFFFFFF)) (m (one 0x004 0xFFFFFFFF)) (fun n => (x3 n).curSte == 15
        && tget 0 (dieAt n 0).sd 120 == 0xFFFFFFF) := by decide +kernel

theorem wit_Seals :
    let se : List Word := [0x0000030B, 0x03FF010F, 0x000003FF, 0x003FC400]
    let cl : List Word := [0x000F040C, 0x43, 8, 0, 0x00C00000]
    let r : Record := { isOpen := true, code := 1, outSlot := 1023, opSlots := [0] }
    let open_ (r : Record) (ws : List Word) := running ws (fun x => { x with records := [(15, r)] })
      (fun c => { c with hdrJob := [(0, 8)] })
    let two : List Word := [0x000F040C, 0x83, 0xC, 0, 0x00C00000]
    mayB (plain se) 3 0 se 0x0B true false ∧ mayB (open_ r cl) 3 0 cl 0x0C true false ∧ primCode 1 = true
    ∧ memberOn (open_ r two) 7 { r with isOpen := false, closed := true, lead := 3, size := 2, mask := 0xC } 2 = none
    ∧ after (.seal 3 0 se) (plain se) (fun n => tget {} (x3 n).records 15 ==
        { isOpen := true, code := 1, outSlot := 1023, opSlots := [1023] })
    ∧ after (.sealc 3 0 cl) (open_ { r with bound := 1 } cl) (fun n => (x3 n).pc == 0 && (x3 n).lastCause == 8)
    ∧ after (.sealc 3 0 two) (open_ r two) (fun n => tget {} (x3 n).records 15 == {} && ((x3 n).records.any (·.2.closed))
        && tget 0 (clAt n 3).hdrReady 1023 == 1
        && (clAt n 3).headers == [])
    ∧ after (.sealc 3 0 cl) (open_ r cl) (fun n => (x3 n).records == [] && (x3 n).pc == 5
        && (tget [] (clAt n 3).headers 1023).length == 64) := by decide +kernel

/-- A small scalar parameter set: n = 3, q_a = 97 and q_b = 193, so Q = 18,721 and Δ_4 = 585. -/
def small : CustomSet := { setno := 0x8001, scalar := true, logn := 3, n := 3, mbits := 4, qa := 97, qb := 193 }

/-- A planned L_ADDC of 1 on the input (1, 2, 3 | 10; 4, 5, 6 | 11) of COUNT 4, and rows beyond the slice. -/
theorem wit_PlannedSeal :
    let cl : List Word := [0x000F040C, 0x43, 8, 0, 0x00008000]
    let out : List Word := [0x000F040C, 0x43, 8, 0, 0x000147FF]
    let r : Record := { isOpen := true, code := 0x43, outSlot := 1023, opSlots := [0], prim := some 0 }
    let m (ws : List Word) : Module := onQuay (onJob (running ws (fun x => { x with records := [(15, r)] })
        (fun c => { c with hdrJob := [(0, 8)] })) 7 (fun j => { j with
      prims := [{ code := 0x43, ops := [.object 5], imm := 1, objid := 6 }],
      inputs := [(5, some { hdr := hdrBytes { kind := 2, pset := 0x8001, ksid := 7, count := 4, comps := 1, plen := 8 } 0,
                            pay := [1, 2, 3, 10, 4, 5, 6, 11] })] })) (fun q => { q with imageSets := [small] })
    mayB (m cl) 3 0 cl 0x0C true false
    ∧ ((jobAt (m cl) 7).map (fun j => (recPrim j r).map (·.1))) = some (some 0)
    ∧ after (.sealc 3 0 cl) (m cl) (fun n => (List.range 8).map (mword (clAt n 3).scratch) == [1, 2, 3, 13, 4, 5, 6, 17]
        && (let h := hdrParse (tget [] (clAt n 3).headers 1023)
            h.poison == 0 && h.objid == 6 && h.count == 4 && h.pcrc == crc32c (bytesOf [1, 2, 3, 13, 4, 5, 6, 17])))
    ∧ after (.sealc 3 0 out) (m out) (fun n => n.quay.compl.map (·.status) == [0x33]) := by decide +kernel

/-! ## Key ferry, scratchpad, descriptors and streams -/

/-- A window of 16 frames at word 3072 of cluster 3 of die 0, for job 7. -/
def win (fs : Tab Frame) : KeyWindow := { cl := 3, job := 7, base := 3072, size := 16, frames := fs }

/-- Die 0 with that window and the Ferry list `bs`, and a position of stack 0 that its Ferry owns. -/
def ferried (bs : List Byte) (fs : Tab Frame) : Module :=
  { withJob { phase := .running } with
    dies := [(0, { windows := [win fs], lists := [{ job := 7, bytes := bs }] })], stks := [(0, { state := 3, map := [(5, 1)] })] }

/-- The bytes of a Ferry command: OP, CL, NDLV, NROW and the frame number of WADDR; its slot is at stack address 0. -/
def ferryBytes (op cl ndlv nrow frame : Nat) : List Byte :=
  leBytes 1 op ++ leBytes 1 cl ++ leBytes 2 ndlv ++ leBytes 4 0 ++ leBytes 4 nrow ++ leBytes 4 (1024 * frame) ++ leBytes 16 0

/-- The frames of the first window of die 0. -/
def frames0 (m : Module) : Tab Frame := match (dieAt m 0).windows with
  | w :: _ => w.frames
  | [] => []

theorem wit_FerryFrames :
    let fr (st : BitVec 2) (left reading : Nat) : Frame := { st := st, left := left, reading := reading }
    (dieAt (ferried [] []) 0).halted = false
    ∧ (match ferryPick (ferried (ferryBytes 2 0 1 1 0) []) 0 true with
      | some (_, .endList) => true
      | _ => false) = true
    ∧ (match ferryPick (ferried (ferryBytes 1 3 0 1 3) []) 0 false with
      | some (_, .kill .cfgInvalid) => true
      | _ => false) = true
    ∧ (match ferryPick (ferried (ferryBytes 1 3 1 17 3) []) 0 false with
      | some (_, .kill .addrInvalid) => true
      | _ => false) = true
    ∧ (match ferryPick (ferried (ferryBytes 1 3 1 1 18) [(15, fr 2 1 0)]) 0 false with
      | some _ => false
      | none => true) = true
    ∧ after (.land 0) (ferried (ferryBytes 1 3 0 1 3) []) (fun n => n.quay.compl.map (·.status) == [0x32])
    ∧ after (.ferryEnd 0) (ferried (ferryBytes 2 0 1 1 0) []) (fun n => (dieAt n 0).lists.map (·.ended) == [true])
    ∧ after (.frameStaged 0 3 18) (ferried [] [(15, fr 1 2 0)]) (fun n => frames0 n == [(15, fr 2 2 0)])
    ∧ after (.ferryEnd 0) (ferried (ferryBytes 2 0 0 1 0) []) (fun n => n.quay.compl.map (·.status) == [0x32])
    ∧ same (.frameStaged 0 3 18) (ferried [] [(15, fr 2 2 0)])
    ∧ after (.frameStaged 0 3 19) (ferried [] [(15, fr 1 2 0)]) (fun n => frames0 n == [(15, fr 1 2 0)])
    ∧ after (.tokenRelease 0 3 18) (ferried [] [(15, fr 2 0 0)]) (fun n => frames0 n == [])
    ∧ same (.tokenRelease 0 3 18) (ferried [] [(15, fr 2 0 1)])
    ∧ same (.tokenRelease 0 3 18) (ferried [] [(15, fr 2 1 0)]) := by decide +kernel

theorem wit_FerryCommands :
    (match ferryPick (ferried (ferryBytes 1 3 0xFFFF 2 17) []) 0 false with
      | some (_, .land c f _) => decide (c.ndlv = 0xFFFF ∧ c.cl = 3 ∧ f = 14)
      | _ => false) = true := by decide +kernel

theorem wit_BindingReport :
    let r : Record := { isOpen := true, code := 0x0A, opSlots := [1023] }
    let good : PageUse := { info := { kkind := 1, spset := 1 } }
    let m (pu : PageUse) := running [0x0E] (fun x => { x with records := [(15, r)] }) (fun c => { c with
      headers := [(1023, hdrBytes { pset := 1, kind := 1 } 0)],
      rme := { run := some { record := some 15, job := 7, pages := [pu], held := [⟨64, 9, [0]⟩] } } })
    let out (n : Module) := ((clAt n 3).rme.run.map (fun o => (o.pages.map (·.report), o.held, o.keyfail)),
      mword (clAt n 3).scratch 64, (dieAt n 0).ferBind, (dieAt n 0).ferBindFails)
    after (.bindingReport 3 0) (m good) (fun n => out n == (some ([some []], [], false), 9, false, 0))
    ∧ after (.bindingReport 3 0) (m { info := { kkind := 1, spset := 2 } })
        (fun n => out n == (some ([some [4]], [], true), 0, true, 1)) := by decide +kernel

theorem wit_ScratchpadCommands :
    let m (f : Cluster → Cluster) : Module := { up with clusters := [(511, f { restricted := false })] }
    let c (n : Module) : Cluster := clAt n 511
    let w : Cluster → Cluster := fun c => { c with scratch := mputWords [] 4095 [7, 8], restricted := true, wiping := true }
    after (.scrubRewrite 511) (m (fun c => { c with rewriteQ := [9, 10], spErr := [(9, 1), (10, 1)] }))
        (fun n => (c n).rewriteQ == [10] && (c n).spErr == [(10, 1)])
    ∧ after (.scrubRewrite 511) (m (fun c => { c with rewriteQ := [9], spErr := [(9, 2)] })) (fun n => (c n).spErr == [(9, 2)])
    ∧ same (.scrubRewrite 511) (m id) ∧ same (.scrubRow 511) (m id)
    ∧ after (.scrubRow 511) (m (fun c => { c with scratch := mputWords [] 4095 [7, 8], fence := [⟨63, 1⟩], spErr := [(4095, 2)] }))
        (fun n => (c n).fence == [] && mword (c n).scratch 4095 == 0 && mword (c n).scratch 4096 == 8 && (c n).spErr == [])
    ∧ after (.sliceWipe 511) (m w) (fun n => (c n).scratch == [] && !(c n).wiping && (c n).restricted)
    ∧ same (.sliceWipe 511) (m id)
    ∧ after (.restrict 511 true) (m id) (fun n => (c n).restricted)
    ∧ after (.restrict 511 true) (m (fun c => { c with scb := [⟨0, 0, true, 0, 0, 0⟩] })) (fun n => !(c n).restricted && (c n).refused)
    ∧ after (.hashoff 511 true) (m id) (fun n => !(c n).hashoff && (c n).refused)
    ∧ after (.hashoff 511 true) (m w) (fun n => (c n).hashoff && mword (c n).scratch (4032 + 0) == 7
        && mword (c n).scratch 4096 == 8)
    ∧ same (.hashoff 511 false) (m w)
    ∧ lpOk 0x80008000 1 = true ∧ lpOk 0x80008000 2 = false ∧ lpOk 0x80008000 0 = false
    ∧ after (.landingPairWrite 511 31 false 0x80008000) (m (fun c => { c with lp := [(63, 0xFFFF0001)] }))
        (fun n => (c n).lp == [(62, 0x80008000), (63, 1)])
    ∧ same (.landingPairWrite 511 31 false 0x80008000) (m (fun c => { c with lp := [(63, 2)] })) := by decide +kernel

/-- A descriptor entry of one dimension of `n` words, whose slot the stream supplies. -/
def entryWords (i n : Nat) (wr : Bool) : Tab Word :=
  [(32 * i, BitVec.ofNat 32 (16 + 128 * b2n wr)), (32 * i + 1, 0xFFFFFFFF), (32 * i + 4, BitVec.ofNat 32 n),
   (32 * i + 8, BitVec.ofNat 32 n), (32 * i + 9, BitVec.ofNat 32 n), (32 * i + 11, 1)]
  ++ (List.range 5).flatMap (fun k => [(32 * i + 12 + 4 * k, 1), (32 * i + 13 + 4 * k, 1)])

theorem wit_DescriptorCommands :
    let m (t : Tab Word) (s : DStat) : Module := { up with dies := [(7, { desc := t, dstat := [(4095, s)] })] }
    let out (n : Module) := tget {} (dieAt n 7).dstat 4095
    let sw : List Word := [0x001F0007]
    let lp (a : Word) := running sw id (fun c => { c with lp := [(62, a), (63, 0xFFFF0001)] })
    after (.steDcmt 7 0x3FFFFF) (m [] {}) (fun n => out n == { busy := true, job := 0x3FF })
    ∧ after (.descriptorValidationDone 7 4095) (m (entryWords 4095 64 false) { busy := true, job := 9 })
        (fun n => out n == { valid := true, job := 9 })
    ∧ after (.descriptorValidationDone 7 4095) (m [] { busy := true, job := 9 }) (fun n => out n == { code := 1, check := 1, job := 9 })
    ∧ same (.descriptorValidationDone 7 4095) (m [] { valid := true })
    ∧ after (.descriptorWrite 7 4095 31 5) (m [] { busy := true, valid := true, job := 9 })
        (fun n => out n == { job := 9 } && tget 0 (dieAt n 7).desc 131071 == 5)
    ∧ after (.descriptorWrite 7 4095 0 0xFFFFFFFF) (m [] {}) (fun n => tget 0 (dieAt n 7).desc 131040 == 0x7FF)
    ∧ mayB (lp 0x80000000) 3 0 sw 0x07 true false
    ∧ after (.swap 3 0 sw) (lp 0x80000000) (fun n => (clAt n 3).lp == [(62, 0xC0000000), (63, 0x00000001)] && (x3 n).pc == 1)
    := by decide +kernel

/-- A stream of 4 words from word 64 of cluster 3 (pool 2, entry 0) to word 128 of cluster 4 (pool 3, entry 1): REP, DFLAG and
AFLAG as given. -/
def setWords (rep dflag aflag : Nat) : List Word :=
  [0x00010000, 0x00800000, 0x00C00000, BitVec.ofNat 32 rep, 0, 0, BitVec.ofNat 32 (dflag + 2 ^ 17), BitVec.ofNat 32 (aflag + 2 ^ 17)]

/-- `running` with the pools and entries of `setWords`, which stands loaded in engine 15, whose state is `e`. -/
def streaming (ws : List Word) (e : StreamEngine) : Module :=
  let m := running ws (fun x => { x with curSte := 15 }) (fun c => { c with scratch := mputWords [] 64 [5, 6, 7, 8] })
  let pool (i cl base : Nat) : Tab Word := [(8 * i, BitVec.ofNat 32 (4 * cl + 7 * 2 ^ 14)), (8 * i + 2, 64), (8 * i + 4, BitVec.ofNat 32 base)]
  { m with
    clusters := m.clusters ++ [(4, { restricted := false })],
    dies := [(0, { pool := pool 2 3 64 ++ pool 3 4 128, desc := entryWords 0 4 false ++ entryWords 1 4 true,
                   dstat := [(0, { valid := true, job := 7 }), (1, { valid := true, job := 7 })],
                   sd := (setWords 1 0x3FF 0x300).zipIdx.map (fun p => (120 + p.2, p.1)), ste := [(15, e)] })] }

theorem wit_StreamStarts :
    let go : List Word := [0x00040102, 0]
    let a : Stream := { set := setWords 2 0x3FF 0, job := 7, cl := 3, opid := 5, moved := true }
    let sh : Stream := { set := setWords 1 0 0x300, job := 7, cl := 3, opid := 6 }
    let e (n : Module) := steAt (dieAt n 0) 15
    mayB (streaming go {}) 3 0 go 0x02 true false
    ∧ steHeaderBusy (streaming go {}) 0 7 (ssetOf (setWords 1 0x3FF 0x300)) = false
    ∧ scbCause (clAt (streaming go {}) 3) false (steRanges (streaming go {}) 3 7 (ssetOf (setWords 1 0x3FF 0x300))) = none
    ∧ after (.steStreamStart 3 0 go) (streaming go {}) (fun n =>
        (e n).active.map (fun t => (t.set, t.job, t.cl, t.moved, t.zeroRows, t.dest)) ==
          some (setWords 1 0x3FF 0x300, 7, 3, false, [], some (4, 2, 2)) && (x3 n).pc == 2
        && (clAt n 3).scb.map (fun s => (s.lo, s.hi, s.wr, s.eng)) == [(64, 67, false, 4)])
    ∧ after (.steStreamStart 3 0 go) (streaming go { active := some a })
        (fun n => (e n).active == some a && (e n).armed && (e n).shadow.isSome)
    ∧ after (.steStreamStart 3 0 go) (streaming go { active := some a, shadow := some sh, armed := true })
        (fun n => (e n).overrun && n.quay.compl.map (fun c => (c.status, c.detail)) == [(0x38, 0)])
    ∧ after (.steStreamStart 3 0 go) (onDie (streaming go {}) 0 (fun d => { d with pool := tset 0 d.pool 20 1179646 }))
        (fun n => n.quay.compl.map (·.status) == [0x33])
    ∧ same (.transferBoundary 0 15) (streaming [] { active := some { a with moved := false } })
    ∧ after (.transferBoundary 0 15) (streaming [] { active := some a }) (fun n => flagCount n 0x3FF == 1
        && e n == { active := some { a with r := 1, moved := false } })
    ∧ after (.transferBoundary 0 15) (streaming [] { active := some { a with r := 1 } }) (fun n => flagCount n 0x3FF == 1 && e n == {})
    ∧ after (.transferBoundary 0 15) (streaming [] { active := some a, shadow := some sh, armed := true })
        (fun n => flagCount n 0x3FF == 1 && flagCount n 0x300 == 1 && e n == { active := some sh }) := by decide +kernel

/-- A stream start of a replaying job behind another job's for the same engine, and one whose send port cannot transpose, or would read
beyond the slice. -/
theorem wit_StreamTurns :
    let go : List Word := [0x00040102, 0]
    let m := streaming go {}
    let other : Context := { state := 1, job := 8, len := 2, curSte := 15, fbuf := (0, go) }
    let back : Module := { m with clusters := (2, { restricted := false, ctxs := [(0, other)] }) :: m.clusters.map (fun p =>
      if p.1 = 3 then (3, onCtx p.2 0 (fun x => { x with state := 3 })) else p) }
    let port (t : Tab Word) : Module := onCl m 3 (fun c => { c with rix := t })
    let bad := port [(8, 3)]
    let far := port [(8, 2), (9, 1179584), (10, 1 + 2 ^ 9)]
    mayB back 3 0 go 0x02 true false ∧ startBehind (fetched back 3 0 2) 3 (x3 back) = true
    ∧ after (.steStreamStart 3 0 go) back (fun n => (x3 n).pc == 0 && (x3 n).lastCause == 4 && (steAt (dieAt n 0) 15).active == none)
    ∧ mayB bad 3 0 go 0x02 true false ∧ after (.steStreamStart 3 0 go) bad (fun n => n.quay.compl.map (·.status) == [0x32])
    ∧ mayB far 3 0 go 0x02 true false ∧ after (.steStreamStart 3 0 go) far (fun n => n.quay.compl.map (·.status) == [0x33]) := by
  decide +kernel

theorem wit_Transfers :
    let a : Stream := { set := setWords 1 0x3FF 0x300, job := 7, cl := 3, opid := 5 }
    let m := streaming [] { active := some a }
    let bad := streaming [] { active := some { a with set := [0] } }
    (match moveCheck m 0 a with
      | .ok v => decide (v.ps.kind = 0 ∧ v.pd.kind = 0 ∧ v.src.fmt = 0 ∧ v.src.obj = false ∧ v.dst.obj = false
          ∧ (v.src.walk v.bs)[3]? = some (true, 3) ∧ (v.dst.walk v.bd)[3]? = some (true, 3) ∧ v.pd.cl = 4 ∧ v.pd.start = 128)
          && (v.src.walk v.bs).all (·.1) && (v.dst.walk v.bd).all (·.1)
      | .error _ => false) = true
    ∧ after (.transfer 0 15 []) m (fun n => mword (clAt n 4).scratch 131 == 8 && mword (clAt n 4).scratch 132 == 0
        && (steAt (dieAt n 0) 15).active == some { a with moved := true })
    ∧ after (.transfer 0 15 []) bad (fun n => n.quay.compl.map (·.status) == [0x32])
    ∧ same (.transfer 0 15 []) (streaming [] { active := some { a with moved := true } }) := by decide +kernel

/-- The same stream from a pool of die 1, in cluster 67: its one flit crosses ring-back of die 1 to ring-forward of die 0; a link that
retrains keeps it waiting. -/
theorem wit_RemoteTransfer :
    let a : Stream := { set := setWords 1 0x3FF 0x300, job := 7, cl := 3, opid := 5 }
    let m0 := streaming [] { active := some a }
    let pool : Tab Word := [(16, BitVec.ofNat 32 (4 * 3 + 7 * 2 ^ 14)), (18, 64), (20, 64)]
    let m1 := onDie { m0 with clusters := m0.clusters ++ [(67, { restricted := false, scratch := mputWords [] 64 [5, 6, 7, 8] })] } 0
      (fun d => { d with pool := d.pool.filter (fun p => decide (24 ≤ p.1)) })
    let m := onDie m1 1 (fun d => { d with pool := pool })
    let bad := onLink m (.pon 1 1) (fun l => { l with training := true })
    (match moveCheck m 0 a with
      | .ok v => decide (slotDie v.ps = some 1 ∧ slotDie v.pd = some 0 ∧ pathIn m 7 0 v.ps = [.pon 1 1] ∧ writesLive m 7 v = false)
      | .error _ => false) = true
    ∧ linkReady m (.pon 1 1) = true ∧ linkReady bad (.pon 1 1) = false ∧ same (.transfer 0 15 []) bad
    ∧ after (.transfer 0 15 []) m (fun n => mword (clAt n 4).scratch 131 == 8 && (linkAt n (.pon 1 1)).nextSeq == 1
        && (linkAt n (.pon 0 0)).expected == 1) := by decide +kernel

/-! ## Replay, links and stacks -/

theorem wit_LandingAndReplay :
    let m0 := running [0x0E] (fun x => { x with pc := 1, origin := 10, slipTotal := 4 }) (fun c => { c with
      scratch := mputWords [] 63 [7, 8], flags := [(255, 3)], lp := [(62, 5)] })
    let cuts (at_ n : Nat) : List CutPlan := [
      { at_ := at_, flags := [(3, 255, n)],
        saves := [{ cl := 3, row := 0, rows := 1, at_ := 2 ^ 38 + 64 }] }]
    let m := onJob m0 7 (fun j => { j with cuts := cuts 100 3 })
    let x : Context := { state := 1, job := 7, pc := 1, len := 1, origin := 10, slipTotal := 4 }
    let q : LandingCluster :=
      { cl := 3, headers := [], flags := [(255, 3)], ctx := 0, saved := x }
    let v : RowSave := { cl := 3, row := 0, rows := 1, at_ := 2 ^ 38 + 64 }
    let p : LandingPoint := { at_ := 90, clusters := [q], saves := [v] }
    let old (x : Context) : Context := { x with pc := 0, origin := 10, slipTotal := 6, records := [(1, {})] }
    let late := { running [0x0E] old (fun c => { c with scratch := mputWords [] 63 [1, 2], flags := [(0, 9)] }) with
      now := 200, stks := [(2, { mem := mputWords [] 79 [7] })] }
    let r := onJob late 7 (fun j => { j with landing := some p, replayReq := some .memory })
    (jobAt m 7).map (fun j => (atCut m 7 j, j.phase, j.desc.hand, j.replayReq, j.audit)) = some (true, .running, false, none, 0)
    ∧ after (.landingPoint 7) m (fun n => (jobAt n 7).map (fun j => (j.landed, j.landing.map (fun p => (p.at_, p.clusters.map (fun q =>
        (q.flags, q.saved.pc)))))) == some (1, some (100, [([(255, 3)], 1)]))
        && mbytes (stkAt n 2).mem (64 + 248) 8 == [0, 0, 0, 0, 7, 0, 0, 0])
    ∧ same (.landingPoint 7) (onJob m0 7 (fun j => { j with cuts := cuts 101 3 }))
    ∧ same (.landingPoint 7) (onJob m0 7 (fun j => { j with cuts := cuts 100 2 }))
    ∧ same (.landingPoint 7) r ∧ same (.replay 7 .memory []) m
    ∧ after (.replay 7 .memory []) r (fun n => mword (clAt n 3).scratch 63 == 7 && mword (clAt n 3).scratch 64 == 2
        && (clAt n 3).flags == [(255, 3)] && (x3 n).pc == 1 && (x3 n).state == 1 && (x3 n).records == []
        && 200 - (x3 n).origin - (x3 n).slipTotal == 90 - 10 - 4 && (jobAt n 7).map (·.replays) == some 1
        && n.quay.replays == 1 && n.aer == [.correctedInternal])
    ∧ after (.replay 7 .memory [{ stack := 2, unit := 4, cl := 3, word := 48 }]) r (fun n => n.clusters == r.clusters
        && (jobAt n 7).map (fun j => (j.attempts, j.replays, j.replayReq)) == some (1, 1, some .memory)
        && (stkAt n 2).eccUnc == 1 && (stkAt n 2).lastUnc == 0x4000000100#41) := by decide +kernel

/-- A flit with SEQ and ACK, and FCRC right or off by one. -/
def flit (seq ack : Nat) (good : Bool) : List Byte :=
  let b := leBytes 244 0 ++ leBytes 4 seq ++ leBytes 4 ack
  b ++ leBytes 4 (crc32c b + b2n (!good))

/-- A data flit for cluster 64 × `die`. -/
def dataFlit (seq die : Nat) : List Byte :=
  let b := leBytes 240 9 ++ [1, 0] ++ leBytes 2 (64 * die) ++ leBytes 4 seq ++ leBytes 4 0
  b ++ leBytes 4 (crc32c b)

/-- A flit for this die is delivered; one for another die waits on the ring link that goes on in its direction. -/
theorem wit_FlitDelivery :
    let a := dataFlit 0 0
    let b := dataFlit 0 2
    flitOk a = true ∧ flitType a = 1 ∧ flitDie (.pon 0 1) a = 0 ∧ flitDie (.pon 0 1) b = 2
    ∧ after (.flitReceive (.pon 0 1) a) up (fun n => (linkAt n (.pon 0 1)).rx == leBytes 240 9 && (linkAt n (.pon 0 0)).fwd == [])
    ∧ after (.flitReceive (.pon 0 1) b) up (fun n => (linkAt n (.pon 0 1)).rx == [] && (linkAt n (.pon 0 0)).fwd == [b.take 244])
    := by decide +kernel

/-- A poisoned object that a landing point copies to stack 2: its header, then zeros. -/
theorem wit_LandingCopy :
    let h := hdrBytes { kind := 2, pset := 0x8001, ksid := 7, count := 4, comps := 1, plen := 8, poison := 9, noise := 65535 } (zeroPcrc 8)
    let m := onQuay (onJob (running [0x0E] id (fun c => { c with headers := [(1, h)], hdrRows := [(1, [(0, 1)])] })) 7 (fun j => { j with
      cuts := [{ at_ := 0, copies := [{ cls := [3], slot := 1, at_ := 2 ^ 38 + 64, bytes := 96 }] }] })) (fun q => { q with imageSets := [small] })
    (jobAt m 7).map (fun j => (atCut m 7 j, (nextCut m j).isSome, (nextCut m j).map (badWords (clAt m 3) 3))) = some (true, true, some [])
    ∧ after (.landingPoint 7) m (fun n => mbytes (stkAt n 2).mem 64 96 == h ++ zeros 32) := by decide +kernel

/-- Links: ring-forward of die 7 is `t`, ring-back of die 0 is `r`. -/
def linked (t r : Link) : Module := { up with dies := [(0, { links := [(1, r)] }), (7, { links := [(0, t)] })] }

theorem wit_PontoonLinks :
    let f (seq sends : Nat) : RetryFlit := { seq := BitVec.ofNat 32 seq, bytes := [], sends := sends }
    let t : Link := { retry := [f 0xFFFFFFFF 9, f 0 1], nextSeq := 1 }
    let r : Link := { expected := 1, retry := [f 4 1, f 5 1] }
    let at_ (n : Module) : Link := linkAt n (.pon 0 1)
    let fi (w : Word) : Module := { linked t { r with fiCtrl := w } with
      clusters := [(3, { restricted := false, scratch := mputWords [] 9 [7] })], stks := [(15, { fiCtrl := w })] }
    let xba (w : Word) : Module := { fi 0 with
      dies := [(0, { xbaFi := w })] }
    let prod (m : Module) := onHedge m (fun h => { h with fuses := { h.fuses with lcs := 3 } })
    let dbg (m : Module) := onHedge (prod m) (fun h => { h with debug := true, scope := 4 })
    peerOf (.pon 0 1) = .pon 7 0 ∧ flitOk (flit 1 4 true) = true ∧ flitOk (flit 1 4 false) = false
    ∧ after (.flitReceive (.pon 0 1) (flit 1 4 true)) (linked t r) (fun n => (at_ n).expected == 2 && (at_ n).retry == [f 5 1]
        && (linkAt n (.pon 7 0)).nextSeq == 2 && (linkAt n (.pon 7 0)).retry.length == 3)
    ∧ after (.flitReceive (.pon 0 1) (flit 2 4 true)) (linked t r)
        (fun n => at_ n == { r with seqErr := 1, nakTx := 1, discarding := true })
    ∧ after (.flitReceive (.pon 0 1) (flit 1 4 false)) (linked t { r with discarding := true })
        (fun n => at_ n == { r with crcErr := 1, discarding := true })
    ∧ after (.nak (.pon 0 1) 5) (linked t r) (fun n => at_ n == { r with retry := [f 4 1, f 5 2], retries := 1, retryAt := some 0 })
    ∧ after (.nak (.pon 0 1) 6) (linked t r) (fun n => at_ n == r)
    ∧ after (.retryExhausted (.pon 7 0)) (linked t r) (fun n =>
        linkAt n (.pon 7 0) == { t with exhaust := 1, retrain := 1, training := true, attempts := 1 })
    ∧ same (.retryExhausted (.pon 0 1)) (linked t r) ∧ same (.linkRetrainDone (.pon 0 1) false) (linked t r)
    ∧ after (.linkRetrainDone (.pon 7 0) true) (linked { t with training := true } r)
        (fun n => linkAt n (.pon 7 0) == { t with retry := [f 0xFFFFFFFF 1, f 0 1] })
    ∧ after (.linkRetrainDone (.pon 7 0) false) (linked { t with training := true, attempts := 2 } r)
        (fun n => linkAt n (.pon 7 0) == { t with training := true, attempts := 3, retrain := 1 })
    ∧ after (.linkRetrainDone (.pon 7 2) false) { up with dies := [(7, { links := [(2, { training := true, attempts := 3 })] })] }
        (fun n => n.hedge.faultPin)
    ∧ same (.fiArm (.pon 0 1) 0xFFFFFFFF) (prod (linked t r))
    ∧ after (.fiArm (.pon 0 1) 0xFFFFFFFF) (dbg (linked t r)) (fun n => (at_ n).fiCtrl == 0x7FFFFFFF)
    ∧ fiLive 0x00000019 = true ∧ fiLive 0x00000009 = false ∧ fiLive 0x00000018 = false
    ∧ after (.faultInjection (.link (.pon 0 1) (flit 6 0 true) [])) (fi 0x19) (fun n => (at_ n).fiCount == 1
        && linkAt n (.pon 7 0) == t && (at_ n).fiCtrl == 0x11)
    ∧ after (.faultInjection (.scratch 3 9)) (xba 0x0610001A) (fun n => (clAt n 3).spErr == [(9, 2)]
        && (dieAt n 0).xbaFiCount == 1)
    ∧ after (.faultInjection (.scratch 3 9)) (xba 0x07F0001B) (fun n => mword (clAt n 3).scratch 9 == 0x80000007)
    ∧ after (.faultInjection (.unit 15 128)) (fi 0x00500019) (fun n => (stkAt n 15).err == [(2, 5)] && (stkAt n 15).fiCount == 1)
    ∧ same (.faultInjection (.unit 15 128)) (fi 0x00600019) := by decide +kernel

theorem wit_StackCommands :
    let m (k : Stack) : Module := { up with stks := [(15, k)], now := 1000, dies := [(7, { mhz := 2275 })] }
    let run : Stack := { state := 3 }
    let k (n : Module) : Stack := stkAt n 15
    same (.frameBoundary 15) (m { state := 1 })
    ∧ after (.frameBoundary 15) (m { run with level := 1, frame := 7, flips := [970], shadow := [(151, 1)] }) (fun n =>
        (k n).map == [(151, 1)] && (k n).flips == [] && (k n).frame == 8 && (k n).thrFrames == 1 && (k n).slowFrames == 1
        && (k n).refreshed == [0, 1, 2, 3, 4, 5, 6, 7])
    ∧ after (.frameBoundary 15) (m { run with flips := [970, 995], shadow := [(151, 1)] })
        (fun n => (k n).map == [(151, 1)] && (k n).flips == [995])
    ∧ after (.frameBoundary 15) (m { run with flips := [971], shadow := [(151, 1)] })
        (fun n => (k n).map == [] && (k n).flips == [971])
    ∧ after (.mscMapFlip 15) (m run) (fun n => k n == { run with flips := [1000] })
    ∧ positionsOf run 0 ≠ 0
    ∧ after (.stackRewrite 15) (m { run with rewriteQ := [9], err := [(9, 3)] }) (fun n => (k n).err == [] && (k n).rewriteQ == [])
    ∧ after (.stackRewrite 15) (m { run with rewriteQ := [9], err := [(9, 4)] }) (fun n => (k n).err == [(9, 4)])
    ∧ after (.stackPatrol 15) (m { run with patrol := stackUnits - 1 }) (fun n => k n == run)
    ∧ after (.stackPatrol 15) (m { run with patrol := 9, err := [(9, 4)] }) (fun n => (k n).eccUnc == 1 && (k n).patrol == 10
        && n.hedge.logQ.map (fun e => (e.cls, e.addr)) == [(2, BitVec.ofNat 64 (15 * 2 ^ 37 + 576))])
    ∧ after (.stackFenceZero 15) (m { run with fence := [⟨64, 64, 1⟩], mem := [(63, 1), (64, 1), (127, 1), (128, 1)] })
        (fun n => (k n).mem == [(63, 1), (128, 1)] && (k n).fence == [])
    ∧ after .stackWipe (m { run with state := 2, mem := [(0, 1)], err := [(0, 4)] }) (fun n => k n == run)
    ∧ after .stackWipe (m { run with mem := [(0, 1)] }) (fun n => k n == { run with mem := [(0, 1)] })
    ∧ after (.stackTempSample 15 420) (m { run with tmax := 400, hotRun := 3 }) (fun n =>
        k n == { run with temp := 420, tmax := 420, critRun := 1, hotRun := 4 })
    ∧ after (.stackTempSample 15 372) (m run) (fun n => k n == { run with temp := 372, tmax := 372, coolRun := 1 })
    ∧ same (.stackTempSample 15 420) (m { level := 1 })
    ∧ after (.throttleStep 15 true) (m { run with hotRun := 10, level := 31 }) (fun n => k n == { run with level := 32 })
    ∧ after (.throttleStep 15 true) (m { run with hotRun := 10, level := 32 }) (fun n => k n == { run with hotRun := 10, level := 32 })
    ∧ after (.throttleStep 15 false) (m { run with coolRun := 100, level := 1 }) (fun n => k n == run)
    ∧ after (.throttleStep 15 false) (m { run with coolRun := 99, level := 1 }) (fun n => (k n).level == 1) := by decide +kernel

/-! ## Power, Hedge and Public-Key Engine -/

theorem wit_PowerAndClocks :
    let die (f : Die → Die) : Module := { up with dies := [(7, f { mhz := 2300 })] }
    let hot := { die id with
      stks := [(15, { level := 15 })] }
    let slow := { hot with dies := [(7, { mhz := 2125 })] }
    let poll (o u k : Nat) : Module := onHedge up (fun h => { h with overPolls := o, underPolls := u, kp := k })
    same (.aclkStep 7) slow ∧ alive hot = true ∧ dieTarget hot 7 = 2125
    ∧ after (.aclkStep 7) hot (fun n => (dieAt n 7).mhz == 2275 && n.quay.evt == 8)
    ∧ after (.avsPoll [⟨3, 800, 2000⟩, ⟨4, 1100, 10⟩] 4201) up (fun n => n.quay.power == 4201 && n.hedge.overPolls == 1
        && tget 0 n.hedge.readings 6 == 800 && tget 0 n.hedge.readings 9 == 10)
    ∧ after (.avsPoll [] 3989) up (fun n => n.hedge.underPolls == 1 && n.hedge.overPolls == 0)
    ∧ after (.avsPoll [] 3990) (poll 5 7 0) (fun n => n.hedge.underPolls == 0 && n.hedge.overPolls == 0)
    ∧ after (.powerLevelStep true) (poll 10 0 19) (fun n => n.hedge.kp == 20 && n.hedge.overPolls == 0)
    ∧ same (.powerLevelStep true) (poll 10 0 20) ∧ same (.powerLevelStep true) (poll 9 0 0)
    ∧ after (.powerLevelStep false) (poll 0 100 1) (fun n => n.hedge.kp == 0 && n.hedge.underPolls == 0)
    ∧ same (.powerLevelStep false) (poll 0 99 1)
    ∧ workBegun up = false ∧ anyFence up = false ∧ up.hedge.power = .active
    ∧ after .idleEntry up (fun n => !(dieAt n 7).clocks && n.hedge.power == .idle) ∧ same .idleEntry (withJob {})
    ∧ after .idleExit (onHedge (withJob {}) (fun h => { h with power := .idle })) (fun n => (dieAt n 0).clocks && n.hedge.power == .active)
    ∧ same .idleExit up ∧ after .firmwareWatchdog (withJob {}) lost
    ∧ after .plannerHeartbeat { up with now := 9 } (fun n => n.hedge.heartbeat == 9)
    ∧ same .plannerWatchdog { up with now := 229999999 } ∧ after .plannerWatchdog { withJob {} with now := 230000000 } lost := by
  decide +kernel

/-- A waiting log event. -/
def event : LogEvent := { cls := 14, sev := 1, unit := 3, job := 0xFFFF, detail := 0, addr := 0, data := [] }

theorem wit_MarginLogAndEntropy :
    let logged := onHedge up (fun h => { h with logQ := [event], logPos := 5, logSeq := 7, opsec := 9 })
    let old := onHedge up (fun h => { h with opsec := 604800 })
    let test := onHedge up (fun h => { h with testing := [511] })
    let rec_ (n : Module) := mbytes n.hedge.flash (0x1000000 + 320) 64
    reviewDue up [] .weekly = false ∧ reviewDue old [] .weekly = true ∧ same (.marginReview .weekly []) up
    ∧ clusterHeld test 511 = false ∧ mayRestrict (clAt test 511) = true
    ∧ after (.marchTest 511 false) test (fun n => n.hedge.marching == [511] && n.hedge.testing == [511]
        && (clAt n 511).restricted && !(clAt n 511).wiping)
    ∧ after (.marchTest 511 false) (onHedge test (fun h => { h with marching := [511] })) (fun n => n.hedge.testing == []
        && (clAt n 511).wiping && n.hedge.fenceMask == [])
    ∧ same (.logWrite event) up
    ∧ after (.logWrite event) logged (fun n => n.hedge.logSeq == 8 && n.hedge.logPos == 6 && n.hedge.logQ == []
        && rec_ n == logBytes event 7 9)
    ∧ after .heartbeat logged (fun n => n.hedge.opsec == 3609 && field (rec_ n) 4 4 == 7)
    ∧ after (.corrSummary 4 0xFFFFFFFF) logged (fun n => n.hedge.logSeq == 8 && n.hedge.opsec == 9)
    ∧ after .drbgReseed (onHedge up (fun h => { h with drbgGens := 2 ^ 20 })) (fun n => n.hedge.drbgGens == 0)
    ∧ after .healthTestFail up (fun n => n.hedge.healthAt == [0] && !n.hedge.faultPin)
    ∧ after .healthTestFail { onHedge up (fun h => { h with healthAt := [0, 0, 23000000] }) with
        now := 23000001 } (fun n => n.hedge.healthAt == [23000000, 23000001] && !n.hedge.faultPin)
    ∧ after .healthTestFail (onHedge up (fun h => { h with healthAt := [0, 0] })) (fun n => n.hedge.faultPin)
    ∧ after .nonceExpiry (onHedge up (fun h => { h with nonce := some { value := 3 } })) (fun n => n.hedge.nonce == none) := by
  decide +kernel

theorem wit_MailboxCommands :
    let mailing (x : Mail) : Module := onHedge (withJob {}) (fun h => { h with mail := some x })
    let fused (v : BitVec 8) : Module := onHedge up (fun h => { h with fuses := { h.fuses with lcs := v, serial := 9 } })
    let go (t : Nat) : Module := onQuay (onHedge up (fun h => { h with lifecycle := some t })) (fun q => { q with qstate := 2 })
    same .info (mailing { code := 0, resp := [] })
    ∧ after .info up (fun n => n.hedge.mail.map (·.code) == some 0)
    ∧ after (.logRead 0xFFFFFF) up (fun n => n.hedge.mail.map (·.resp) == some [0])
    ∧ after .dbgChal (go 3) (fun n => n.hedge.mail == some { code := 7, resp := [] })
    ∧ after .dbgChal up (fun n => n.hedge.nonce.isSome && n.hedge.drbgCount == 1)
    ∧ after .dbgLock up (fun n => n.hedge.mail == some { code := 0, resp := [], after := 1 })
    ∧ after (.dbgUnlock []) up (fun n => n.hedge.mail == some { code := 2, resp := [] })
    ∧ after (.dbgUnlock (zeros 192)) up (fun n => n.hedge.mail == some { code := 3, resp := [] })
    ∧ after (.lcSet 5 9 []) (fused 3) (fun n => n.hedge.mail == some { code := 0, resp := [], after := 2 }
        && n.hedge.lifecycle == some 5)
    ∧ after (.lcSet 5 8 []) (fused 3) (fun n => n.hedge.mail == some { code := 6, resp := [] })
    ∧ after (.lcSet 2 9 []) (fused 3) (fun n => n.hedge.mail == some { code := 3, resp := [] })
    ∧ same .mailboxDone up
    ∧ after .mailboxDone (mailing { code := 4, resp := [1, 2] }) (fun n => n.hedge.hmbDone && n.hedge.hmbCode == 4
        && n.hedge.hmbRlen == 2 && mbytes n.hedge.hmbData 0 2 == [1, 2] && n.quay.evt == 32 && n.quay.qstate == 0)
    ∧ after .mailboxDone (mailing { code := 0, resp := [], after := 2 }) (fun n => n.quay.qstate == 1
        && n.quay.compl.map (·.status) == [0x30])
    ∧ after .mailboxDone (mailing { code := 0, resp := [], after := 1 }) lost
    ∧ after .lifecycleTransition (go 5) (fun n => lost n && n.hedge.fuses.lcs == 0xC0 && n.hedge.fuses.uds == BitVec.allOnes 256)
    ∧ same .lifecycleTransition up
    ∧ after (.jtagAccess 9 .readUds) { up with jtagOut := some 1 } (fun n => n.jtagOut == none)
    ∧ jtagOpen (fused 3).hedge = false ∧ jtagOpen up.hedge = true
    ∧ after (.jtagAccess 7 (.writeScratch 511 1179647 5)) { up with clusters := [(511, { restricted := true })] }
        (fun n => mword (clAt n 511).scratch 1179647 == 5)
    ∧ after (.jtagAccess 7 (.writeScratch 511 1179647 5)) { up with clusters := [(511, { restricted := false })] }
        (fun n => n.clusters == [(511, { restricted := false })] && n.jtagOut == none)
    ∧ after (.jtagAccess 7 (.readScratch 511 9)) { up with clusters := [(511, { restricted := true, scratch := mputWords [] 9 [6] })] }
        (fun n => n.jtagOut == some 6) := by decide +kernel

theorem wit_SidebandCommands :
    let u (x : Update) : Module := onHedge up (fun h => { h with update := some x, flash := [(0x20000, 1)] })
    let e : Module := onHedge { up with dies := [(7, { temp := 4 })], stks := [(15, { temp := 5 })] } (fun h =>
      { h with events := [1, 2] })
    after (.pldmSensorRead 7) e (fun n => n.hedge.sensor == some 4) ∧ after (.pldmSensorRead 23) e (fun n => n.hedge.sensor == some 5)
    ∧ after (.pldmSensorRead 24) e (fun n => n.hedge.sensor == some 0) ∧ after (.pldmSensorRead 25) e (fun n => n.hedge.sensor == none)
    ∧ after (.pldmUpdateData 2097151 [9]) up (fun n => n.hedge.update.isSome && n.hedge.flash.map (·.2) == [9])
    ∧ same (.pldmUpdateData 2097151 [9, 9]) up
    ∧ after .verifyComplete (u { slot := 1, verified := true }) (fun n => n.hedge.update == some { slot := 1 })
    ∧ same .activateFirmware (u { slot := 1 })
    ∧ after .activateFirmware (u { slot := 1, verified := true }) (fun n => n.hedge.update == none && mget n.hedge.flash 0x20000 == 1)
    ∧ after .cancelUpdate (u { slot := 1 }) (fun n => n.hedge.update == none)
    ∧ same .verifyComplete up ∧ same .activateFirmware up ∧ same .cancelUpdate up
    ∧ after (.endpointIdAssign 0xFF) up (fun n => n.hedge.eid == some 0xFF)
    ∧ after .platformEventRead e (fun n => n.hedge.events == [2] && n.hedge.alert)
    ∧ after .platformEventRead up (fun n => n.hedge.events == [] && !n.hedge.alert) := by decide +kernel

theorem wit_SpdmCommands :
    let m (p : Spdm) : Module := onHedge (onEp up (fun e => { e with spdm := p })) (fun h => { h with ak := some 7, cert := [1, 2] })
    let neg : Spdm := { version := true, caps := some 0, algs := some 15 }
    let ses : Spdm := { neg with session := true }
    let code (c : Instr) (p : Spdm) (k : BitVec 8) : Bool :=
      after c (m p) (fun n => n.ep.spdm.response.map (·.1) == some k)
    let g : List Byte := (leBytes 32 p256g.1).reverse ++ (leBytes 32 p256g.2).reverse
    let key : List Byte := zeros 32
    code .getVersion {} 0x04 ∧ code (.getCapabilities 5) { version := true } 0x61 ∧ code (.getCapabilities 5) {} 0x7F
    ∧ after (.negotiateAlgorithms 0xFF) (m { version := true, caps := some 0 }) (fun n => n.ep.spdm.algs == some 15)
    ∧ code (.negotiateAlgorithms 0xFF) neg 0x7F ∧ code .getDigests neg 0x01 ∧ code .getDigests {} 0x7F
    ∧ code (.getCertificate 0 1 9) neg 0x02 ∧ code (.getCertificate 1 0 9) neg 0x7F ∧ code (.getCertificate 0 2 9) neg 0x7F
    ∧ code (.challenge 0 key) neg 0x03 ∧ code (.challenge 0 key) {} 0x7F
    ∧ code (.getMeasurements true 255 key) neg 0x60 ∧ code (.getMeasurements false 7 []) neg 0x60
    ∧ code (.keyExchange g) {} 0x7F ∧ code (.keyExchange g) ses 0x7F ∧ code (.keyExchange (zeros 64)) neg 0x7F
    ∧ pointFails (sharePoint g) false = [] ∧ canSign (m neg) = true ∧ hasAlg (m neg) 3 = true
    ∧ code (.finish true) neg 0x7F ∧ code (.finish false) { neg with keying := true } 0x7F
    ∧ after (.finish true) (m { neg with keying := true }) (fun n => n.ep.spdm.session && !n.ep.spdm.keying)
    ∧ code .heartbeatSpdm neg 0x7F ∧ code .heartbeatSpdm ses 0x68 ∧ code .keyUpdate ses 0x69 ∧ code .endSession ses 0x6C
    ∧ code (.ideKm 4 .go) ses 0x7F ∧ code (.ideKm 4 (.program [])) ses 0x7F ∧ code (.ideKm 4 .stop) neg 0x7F
    ∧ after (.ideKm 4 (.program key)) (m ses) (fun n => tget {} n.ep.ide 4 == { key := key })
    ∧ after (.ideKm 4 .go) (onEp (m ses) (fun e => { e with ide := [(4, { key := key })] }))
        (fun n => (tget {} n.ep.ide 4).secure)
    ∧ after (.ideKm 4 .stop) (onEp (m ses) (fun e => { e with ide := [(4, { key := key })] })) (fun n => n.ep.ide == [])
    ∧ after .doeAbort (m { neg with response := some (1, []) }) (fun n => n.ep.spdm.response == none)
    ∧ after (.doeDiscovery 2) up (fun n => n.ep.doe == some [1, 0, 2, 0])
    ∧ after (.doeDiscovery 3) up (fun n => n.ep.doe == some [0xFF, 0xFF, 0xFF, 0]) := by decide +kernel

/-- A module whose PKE memory holds `ops` at slots 0, 2, 4 and on, with a full pool. -/
def keyed (ops : List Nat) (f : Pke → Pke) : Module :=
  { up with pke := f { mem := ops.zipIdx.foldl (fun t p => mput t (128 * p.2) (leBytes 128 p.1)) [], poolBits := 1024 } }

theorem wit_PkeCommands :
    let out (n : Module) := n.pke.run.map (fun r => (r.code, r.writes.map (fun w => (w.1, leNat w.2))))
    let run : PkeRun := { writes := [(254, leBytes 128 7)], code := 0 }
    let op (i : Nat) (ops : List Nat) (r : Option (BitVec 8 × List (Nat × Nat))) : Bool :=
      after (pkeCmd i 0 0 2 4 254) (keyed ops id) (fun n => out n == r)
    let g2 := addP256 p256g p256g
    op 1 [5, 6, 7] (some (0, [(254, 4)])) ∧ op 2 [5, 6, 7] (some (0, [(254, 6)])) ∧ op 3 [5, 6, 7] (some (0, [(254, 2)]))
    ∧ op 4 [5, 6, 7] (some (0, [(254, 3)])) ∧ op 4 [3, 6, 9] (some (7, [(254, 0)])) ∧ op 5 [5, 6, 7] (some (0, [(254, 1)]))
    ∧ op 1 [5, 6, 8] (some (2, [(254, 0)])) ∧ op 1 [7, 6, 7] (some (3, [(254, 0)]))
    ∧ op 0x13 [p256g.1, p256g.2] (some (0, [(254, 1)])) ∧ op 0x13 [1, 1] (some (6, [(254, 0)]))
    ∧ after (pkeCmd 0x12 0 0 4 0 254) (keyed [p256g.1, p256g.2, 2] id) (fun n => out n == some (0, [(254, g2.1)]))
    ∧ after (pkeCmd 0x10 0 0 2 0 252) (keyed [0, 1] id) (fun n => out n == some (4, [(252, 0), (254, 0)]))
    ∧ after (pkeCmd 1 3 0 2 4 254) (keyed [5, 6, 7] id) (fun n => n.pke.run == some { code := 1, dur := 4 })
    ∧ after (pkeCmd 5 0 0 2 4 254) (keyed [5, 6, 7] (fun k => { k with poolBits := 255 }))
        (fun n => n.pke.run == none && n.pke.waitRng.isSome)
    ∧ after (pkeCmd 5 0 0 2 4 254) (keyed [5, 6, 7] id) (fun n => n.hedge.drbgCount == 1
        && n.pke.run.map (fun r => r.seed.map (·.2)) == some (some (5, 0)))
    ∧ ladderShape 5 0 = (256, 4) ∧ (slotChoices 2 4).length = 6 ∧ (slotChoices 2 4).all (fun c => c.length == 4 && (c.filter id).length == 2)
    ∧ after (pkeCmd 1 0 0 2 4 254) (keyed [] (fun k => { k with run := some run })) (fun n => n.pke.ignored)
    ∧ after (.macMode 4 2) (keyed [5, 6, 0x0000000300000A] id) (fun n => out n == some (1, []))
    ∧ after (.macMode 4 2) (keyed [5, 6, 0x00020003 + 0x0A08 * 2 ^ 32] id)
        (fun n => n.pke.run.map (fun r => r.acc) == some (some 30) && out n == some (0, [(10, 30)]))
    ∧ after (.macMode 4 2) (keyed [5, 6, 0x00020003 + 0x0A08 * 2 ^ 32] (fun k => { k with acc := 9 }))
        (fun n => n.pke.acc == 9)
    ∧ after (.macMode 4 1) (keyed [5, 6, 0x00020003] id) (fun n => n.pke.run.map (fun r => (r.code, r.acc)) == some (0, some 30))
    ∧ same .pkeDone up
    ∧ after .pkeDone (keyed [] (fun k => { k with run := some run })) (fun n => n.pke.done && n.pke.cnt == 1
        && mget n.pke.mem 16256 == 7 && n.pke.run == none)
    ∧ after .pkeWipe (keyed [5] id) (fun n => n.pke.mem == [] && n.pke.wiped && n.pke.poolBits == 0)
    ∧ after .pkeWipe (keyed [5] (fun k => { k with run := some run })) (fun n => n.pke.ignored && n.pke.mem != [])
    ∧ after (.pkeDma 2097088 255 1 true) (keyed [] id) (fun n => n.pke.dmaRun == some ⟨2097088, 255, 1, true⟩)
    ∧ after (.pkeDma 2097088 255 2 true) (keyed [] id) (fun n => n.pke.dmaRefused && n.pke.dmaRun == none)
    ∧ after .pkeDmaDone (keyed [5] (fun k => { k with dmaRun := some ⟨64, 0, 1, true⟩ })) (fun n => n.hedge.sram == [(64, 5)] && n.pke.dmaDone)
    ∧ after .pkeDmaDone (onHedge (keyed [5] (fun k => { k with dmaRun := some ⟨64, 0, 1, false⟩ })) (fun h => { h with sram := [(65, 6)] }))
        (fun n => n.pke.mem == [(1, 6)])
    ∧ same .randomPoolRefill (keyed [] id) ∧ after .randomPoolRefill up (fun n => n.pke.poolBits == 1024) := by decide +kernel

theorem wit_MemoriesCanonical : Canonical up := by
  unfold Canonical; decide +kernel

theorem wit_FusesOnlySet :
    let m := onQuay (onHedge up (fun h => { h with lifecycle := some 3, fuses := { h.fuses with lcs := 0x03 } }))
      (fun q => { q with qstate := 2 })
    after .lifecycleTransition m (fun n => n.hedge.fuses.lcs == 0x0F) := by decide +kernel

/-! ## Well-formed commands: for each check of `Instr.wf`, a command at its limit and one beyond it -/

theorem test_wfEntries :
    (Instr.job 255 (zeros 128) (zeros 32) (zeros 8)).wf = true ∧ (Instr.job 255 (zeros 127) [] []).wf = false
    ∧ (Instr.job 255 (zeros 128) (zeros 24) []).wf = false ∧ (Instr.job 255 (zeros 128) [] (zeros 9)).wf = false
    ∧ (Instr.hand 0 (zeros 128) (zeros 16)).wf = true ∧ (Instr.hand 0 (zeros 129) []).wf = false
    ∧ (Instr.hand 0 (zeros 128) (zeros 17)).wf = false ∧ (Instr.keyUnload 0 (zeros 128)).wf = true
    ∧ (Instr.keyUnload 0 []).wf = false := by decide +kernel

theorem test_wfRegisters :
    (Instr.registerWrite .pke 4 false 0).wf = true ∧ (Instr.registerWrite .pke 6 false 0).wf = false
    ∧ (Instr.registerWrite .bar0 8 true 0).wf = true ∧ (Instr.registerWrite .bar0 4 true 0).wf = false
    ∧ (Instr.jtagAccess 9 (.readReg .pke 4)).wf = true ∧ (Instr.jtagAccess 10 .readUds).wf = false
    ∧ (Instr.jtagAccess 0 (.readReg .pke 2)).wf = false ∧ (Instr.jtagAccess 0 (.writeReg .pke 4 true 0)).wf = false
    ∧ (Instr.jtagAccess 0 (.readScratch 0 1179647)).wf = true ∧ (Instr.jtagAccess 0 (.readScratch 0 1179648)).wf = false
    ∧ (Instr.jtagAccess 0 (.writeScratch 0 1179648 0)).wf = false := by decide +kernel

theorem test_wfWords :
    (Instr.load 0 0 [0x0201, 0, 1]).wf = true ∧ (Instr.load 0 0 [0x0201, 0, 1, 2]).wf = false
    ∧ (Instr.start 0 0 [2, 0]).wf = false ∧ (Instr.wait 0 0 [3, 0]).wf = false ∧ (Instr.signal 0 0 [4, 0]).wf = false
    ∧ (Instr.pop 0 0 [5, 0]).wf = false ∧ (Instr.push 0 0 [6, 0]).wf = false ∧ (Instr.swap 0 0 [7, 0]).wf = false
    ∧ (Instr.patch 0 0 [8, 0]).wf = false ∧ (Instr.loop 0 0 [9, 0]).wf = false ∧ (Instr.tmark 0 0 [10, 0]).wf = false
    ∧ (Instr.seal 0 0 [11, 0]).wf = false ∧ (Instr.sealc 0 0 [12, 0]).wf = false ∧ (Instr.tag 0 0 [13, 0]).wf = false
    ∧ (Instr.endStream 0 0 [14, 0]).wf = false ∧ (Instr.steStreamStart 0 0 [2, 0]).wf = false
    ∧ (Instr.endStream 0 0 []).wf = true := by decide +kernel

theorem test_wfNumbers :
    (Instr.frameStaged 0 0 1151).wf = true ∧ (Instr.frameStaged 0 0 1152).wf = false ∧ (Instr.tokenRelease 0 0 1152).wf = false
    ∧ (Instr.flitReceive (.quay 0) (zeros 256)).wf = true ∧ (Instr.flitReceive (.quay 0) (zeros 255)).wf = false
    ∧ (Instr.junctionShutdown 8).wf = true ∧ (Instr.junctionShutdown 9).wf = false ∧ (Instr.thermtripComparator 9).wf = false
    ∧ (Instr.pkeDma 0 0 256 true).wf = true ∧ (Instr.pkeDma 0 0 257 true).wf = false ∧ (Instr.pkeDma 0 0 0 true).wf = false := by
  decide +kernel

/-- A page slot is 1,052,672 bytes: a page of one byte is refused. -/
theorem test_wfPages : (Instr.keyLoad 0 (zeros 128) [] [[0]]).wf = false ∧ Config.pageSlotBytes = 1052672 := by decide +kernel

end Sys2Proof.Tests
end

section
/-! PROOFS. Key unloads (R306): what the read of an entry and a key command's completion leave, when a key set is busy, and
the outcome of KEY_UNLOAD. -/
namespace Sys2Proof.Machine
open Sys2Proof.Certificates

/-! ## Reads of entries and key completions -/

section
variable (m : Module) (i : Nat)

theorem passEntry_onlyQuay : OnlyQuay m (passEntry m i) := rfl

@[simp] theorem passEntry_quay_dir : (passEntry m i).quay.dir = m.quay.dir := rfl
@[simp] theorem passEntry_quay_replicas : (passEntry m i).quay.replicas = m.quay.replicas := rfl
@[simp] theorem passEntry_quay_jobs : (passEntry m i).quay.jobs = m.quay.jobs := rfl
@[simp] theorem passEntry_quay_compl : (passEntry m i).quay.compl = m.quay.compl := rfl

variable (cid : Word) (status : BitVec 8) (count : Word)

theorem keyCompletion_onlyQuay : OnlyQuay m (keyCompletion m i cid status count) := rfl

@[simp] theorem keyCompletion_quay_dir : (keyCompletion m i cid status count).quay.dir = m.quay.dir := rfl
@[simp] theorem keyCompletion_quay_replicas :
    (keyCompletion m i cid status count).quay.replicas = m.quay.replicas := rfl
@[simp] theorem keyCompletion_quay_jobs : (keyCompletion m i cid status count).quay.jobs = m.quay.jobs := rfl
@[simp] theorem keyCompletion_quay_compl : (keyCompletion m i cid status count).quay.compl =
    m.quay.compl ++ [{ ring := i, cid := cid, status := status, count := count }] := rfl

end

theorem onlyQuay_trans {a b c : Module} (hab : OnlyQuay a b) (hbc : OnlyQuay b c) : OnlyQuay a c := by
  unfold OnlyQuay at *
  rw [hbc, hab]

/-! ## Removal of a key set -/

/-- The module without the key set of a KSID and its replicas, as an unload that succeeds leaves it (R306). -/
def removeKeySet (m : Module) (ksid : BitVec 64) : Module := onQuay m (fun q => { q with
  dir := q.dir.filter (fun k => decide (k.ksid ≠ ksid)),
  replicas := q.replicas.filter (fun r => decide (r.ksid ≠ ksid)) })

section
variable (m : Module) (ksid : BitVec 64)

theorem removeKeySet_onlyQuay : OnlyQuay m (removeKeySet m ksid) := rfl

@[simp] theorem removeKeySet_quay_jobs : (removeKeySet m ksid).quay.jobs = m.quay.jobs := rfl
@[simp] theorem removeKeySet_quay_compl : (removeKeySet m ksid).quay.compl = m.quay.compl := rfl

theorem mem_dir_removeKeySet (k : KeySet) :
    k ∈ (removeKeySet m ksid).quay.dir ↔ k ∈ m.quay.dir ∧ k.ksid ≠ ksid := by
  simp [removeKeySet]

theorem mem_replicas_removeKeySet (r : Replica) :
    r ∈ (removeKeySet m ksid).quay.replicas ↔ r ∈ m.quay.replicas ∧ r.ksid ≠ ksid := by
  simp [removeKeySet]

/-! ## Busy key sets -/

/-- A key set is busy while an admitted job names it or another set has it as PEER (R306). -/
theorem keyBusy_iff : keyBusy m ksid = true ↔
    (∃ t j, (t, some j) ∈ m.quay.jobs ∧ ksid ∈ j.ksids) ∨ (∃ k ∈ m.quay.dir, k.ksid ≠ ksid ∧ k.peer = ksid) := by
  unfold keyBusy
  rw [Bool.or_eq_true, List.any_eq_true, List.any_eq_true]
  refine or_congr ⟨?_, ?_⟩ ?_
  · rintro ⟨⟨t, _ | j⟩, hmem, hnames⟩
    · exact absurd hnames Bool.false_ne_true
    · exact ⟨t, j, hmem, by simpa using hnames⟩
  · rintro ⟨t, j, hmem, hnames⟩
    exact ⟨(t, some j), hmem, by simpa using hnames⟩
  · simp [and_comm]

theorem keyBusy_eq_false_iff : keyBusy m ksid = false ↔
    (∀ t j, (t, some j) ∈ m.quay.jobs → ksid ∉ j.ksids) ∧ (∀ k ∈ m.quay.dir, k.peer = ksid → k.ksid = ksid) := by
  rw [← Bool.not_eq_true, keyBusy_iff]
  push Not
  exact and_congr Iff.rfl (forall₂_congr fun k _ => not_imp_not)

end

/-! ## KEY_UNLOAD -/

/-- KEY_UNLOAD of a set in the directory, its entry read and well formed: the two outcomes of R306. -/
theorem keyUnloadStep_of_present {m : Module} {i : Nat} {e : List Byte} (hread : fetchOut m i = true)
    (hopc : field e 0 1 = 0x11) (hlow : zeroField e 1 3 = true) (hhigh : zeroField e 16 112 = true)
    (hdir : ∃ k ∈ m.quay.dir, k.ksid = BitVec.ofNat 64 (field e 8 8)) :
    keyUnloadStep m i e =
      if keyBusy m (BitVec.ofNat 64 (field e 8 8)) then
        keyCompletion (passEntry m i) i (BitVec.ofNat 32 (field e 4 4)) 9 0
      else keyCompletion (removeKeySet (passEntry m i) (BitVec.ofNat 64 (field e 8 8))) i
        (BitVec.ofNat 32 (field e 4 4)) 0 0 := by
  have hany : m.quay.dir.any (fun k => decide (k.ksid = BitVec.ofNat 64 (field e 8 8))) = true := by simpa using hdir
  simp [keyUnloadStep, removeKeySet, hread, hopc, hlow, hhigh, hany]

theorem exec_keyUnload (i : Fin 256) (e : List Byte) (s : State) :
    exec (.keyUnload i e) s = .next { s with m := keyUnloadStep s.m i e } := rfl

/-- Settles O10, from the two outcomes of `keyUnloadStep_of_present`, told apart by `keyBusy_iff`. -/
theorem keyUnloads : Obligations.KeyUnloads := by
  unfold Obligations.KeyUnloads
  intro s i e ksid hread hopc hlow hhigh hdir
  have hstep := keyUnloadStep_of_present hread hopc hlow hhigh hdir
  refine ⟨fun hnamed => ?refused, fun hjobs hpeers => ?removed⟩
  case refused =>
    have hbusy : keyBusy s.m ksid = true := (keyBusy_iff ..).2 hnamed
    rw [if_pos hbusy] at hstep
    exact ⟨_, exec_keyUnload i e s, by simp [hstep]⟩
  case removed =>
    have hfree : keyBusy s.m ksid = false := (keyBusy_eq_false_iff ..).2 ⟨hjobs, hpeers⟩
    rw [if_neg (ne_true_of_eq_false hfree)] at hstep
    have hquay : OnlyQuay s.m (keyUnloadStep s.m i e) := by
      rw [hstep]
      exact onlyQuay_trans (onlyQuay_trans (passEntry_onlyQuay ..) (removeKeySet_onlyQuay ..)) (keyCompletion_onlyQuay ..)
    exact ⟨_, exec_keyUnload i e s, hquay,
      by simp [hstep, mem_dir_removeKeySet, ksid], by simp [hstep, mem_replicas_removeKeySet, ksid], by simp [hstep]⟩

end Sys2Proof.Machine
end

section
/-! PROOFS. The rings' registers and doorbells (R549, R554 to R556, R562): what a served BAR0 or RING write does, when a
ring's enable is refused, when CQ_HEAD is ignored, and which register writes a ring that is enabled ignores. -/
namespace Sys2Proof.Machine
open Sys2Proof.Certificates

/-! ## Served writes -/

section
variable {m : Module} {i : Nat}

theorem bar0_of_open (f : Module → Module) (h : Bar0Open m) : bar0 m f = f m := by
  obtain ⟨halive, hmuted⟩ := h
  simp [bar0, halive, hmuted]

theorem ringWrite_of_open (f : Module → Module) (h : RingsOpen m) : ringWrite m f = f m := by
  obtain ⟨hbar0, hready⟩ := h
  rw [ringWrite, bar0_of_open _ hbar0, if_pos hready]

/-! ## Rings of a changed module -/

theorem ringAt_of_rings_eq {n : Module} (h : n.quay.rings = m.quay.rings) (j : Nat) : ringAt n j = ringAt m j := by
  rw [ringAt, ringAt, h]

theorem onRing_onlyRing (f : Ring → Ring) : OnlyRing m (onRing m i f) i :=
  ⟨rfl, fun _ hj => ringAt_onRing_ne _ _ _ f hj⟩

theorem onlyRing_trans {a b c : Module} (hab : OnlyRing a b i) (hbc : OnlyRing b c i) : OnlyRing a c i := by
  obtain ⟨hb, hbrings⟩ := hab
  obtain ⟨hc, hcrings⟩ := hbc
  exact ⟨by rw [hc, hb], fun j hj => (hcrings j hj).trans (hbrings j hj)⟩

/-! ## Bits of a register word -/

theorem bit_toNat {w : Nat} (v : BitVec w) (k : Nat) : bit v.toNat k = v.getLsbD k := by
  rw [bit, BitVec.getLsbD, Nat.testBit_eq_decide_div_mod_eq, Nat.shiftRight_eq_div_pow]

/-- The EN bit, or-ed in by SQ_ENABLE and CQ_ENABLE, leaves every field below it. -/
theorem extractLsb'_or_en (cfg : Word) {lo n : Nat} (h : lo + n ≤ 31) :
    (cfg ||| 0x80000000).extractLsb' lo n = cfg.extractLsb' lo n := by
  ext k hk
  have hne : 31 ≠ lo + k := by omega
  have hen : (0x80000000 : Word) = BitVec.twoPow 32 31 := rfl
  simp [hen, BitVec.getLsbD_twoPow, hne]

theorem ofNat_toNat_eq_extractLsb' (v : Word) (n : Nat) : BitVec.ofNat n v.toNat = v.extractLsb' 0 n := by
  rw [BitVec.extractLsb', Nat.shiftRight_zero]

theorem ofNat_toNat_div_eq_extractLsb' (v : Word) (lo n : Nat) :
    BitVec.ofNat n (v.toNat / 2 ^ lo) = v.extractLsb' lo n := by
  rw [BitVec.extractLsb', Nat.shiftRight_eq_div_pow]

theorem bits_toNat_15_8 (v : Word) : bits v.toNat 15 8 = (v.extractLsb' 8 8).toNat := by
  simp [bits, BitVec.extractLsb'_toNat]

end

/-! ## SQ_CFG -/

section
variable {m : Module} {i : Nat} {v : Word}

/-- Ring `i` with the fields of an SQ_CFG value but for EN. -/
def sqFields (m : Module) (i : Nat) (v : Word) : Module :=
  onRing m i (fun r => { r with sqLogsz := BitVec.ofNat 5 v.toNat, cqid := BitVec.ofNat 8 (v.toNat / 256) })

@[simp] theorem ringAt_sqFields_same : ringAt (sqFields m i v) i =
    { ringAt m i with sqLogsz := v.extractLsb' 0 5, cqid := v.extractLsb' 8 8 } := by
  rw [sqFields, ringAt_onRing_same, ofNat_toNat_eq_extractLsb', ← ofNat_toNat_div_eq_extractLsb' v 8 8]
  rfl

@[simp] theorem ringAt_sqFields_cqEn (j : Nat) : (ringAt (sqFields m i v) j).cqEn = (ringAt m j).cqEn := by
  by_cases h : j = i
  · subst h
    rw [ringAt_sqFields_same]
  · rw [sqFields, ringAt_onRing_ne _ _ _ _ h]

/-- An enable of a disabled submission ring (R555): NOCQ, BASE_ALIGN, or the ring at entry 0. -/
theorem sqCfgWrite_enable (hoff : (ringAt m i).sqEn = false) (hen : v.getLsbD 31 = true) :
    sqCfgWrite m i v =
      if (ringAt m (v.extractLsb' 8 8).toNat).cqEn = false then ringError (sqFields m i v) i 1
      else if (ringAt m i).sqBase.toNat % 4096 ≠ 0 then ringError (sqFields m i v) i 5
      else onRing (sqFields m i v) i (fun r => { r with sqEn := true, sqHead := 0, sqTail := 0, err := 0 }) := by
  simp only [sqCfgWrite, hoff, bit_toNat, hen, bits_toNat_15_8, Bool.false_eq_true, if_false, Bool.not_true,
    Bool.not_eq_true']
  rw [← ringAt_sqFields_cqEn (m := m) (i := i) (v := v)]
  rfl

/-- With EN still 1 in the value, a write to the SQ_CFG of an enabled ring changes nothing (R554). -/
theorem sqCfgWrite_locked (hon : (ringAt m i).sqEn = true) (hen : v.getLsbD 31 = true) : sqCfgWrite m i v = m := by
  simp only [sqCfgWrite, hon, bit_toNat, hen, if_true]

/-- With EN 0 it clears EN and drops the ring's outstanding read (R556). -/
theorem sqCfgWrite_clear (hon : (ringAt m i).sqEn = true) (hen : v.getLsbD 31 = false) :
    sqCfgWrite m i v = onQuay (onRing m i (fun r => { r with sqEn := false })) (fun q => { q with
      fetches := q.fetches.filter (fun f => decide (f.ring ≠ i)) }) := by
  simp only [sqCfgWrite, hon, bit_toNat, hen, if_true, Bool.false_eq_true, if_false]

/-! ## CQ_CFG -/

/-- Ring `i` with the fields of a CQ_CFG value but for EN. -/
def cqFields (m : Module) (i : Nat) (v : Word) : Module :=
  onRing m i (fun r => { r with
    cqLogsz := BitVec.ofNat 5 v.toNat, vec := BitVec.ofNat 9 (v.toNat / 2 ^ 16), ien := bit v.toNat 30 })

@[simp] theorem ringAt_cqFields_same : ringAt (cqFields m i v) i =
    { ringAt m i with cqLogsz := v.extractLsb' 0 5, vec := v.extractLsb' 16 9, ien := v.getLsbD 30 } := by
  rw [cqFields, ringAt_onRing_same, ofNat_toNat_eq_extractLsb', ofNat_toNat_div_eq_extractLsb', bit_toNat]

/-- An enable of a disabled completion ring (R555): BASE_ALIGN, or the ring at entry 0 with PHASE 1. -/
theorem cqCfgWrite_enable (hoff : (ringAt m i).cqEn = false) (hen : v.getLsbD 31 = true) :
    cqCfgWrite m i v =
      if (ringAt m i).cqBase.toNat % 4096 ≠ 0 then ringError (cqFields m i v) i 5
      else onRing (cqFields m i v) i (fun r => { r with
        cqEn := true, cqTail := 0, cqHead := 0, phase := true, sinceSignal := 0, timer := false }) := by
  simp only [cqCfgWrite, hoff, Bool.false_eq_true, if_false]
  rw [bit_toNat _ 31, hen]
  rfl

/-- An enabled completion ring keeps its CQ_CFG while EN stays 1 in the value, and while it is in use (R554, R556). -/
theorem cqCfgWrite_locked (hon : (ringAt m i).cqEn = true) (h : v.getLsbD 31 = true ∨ cqInUse m i = true) :
    cqCfgWrite m i v = m := by
  simp only [cqCfgWrite, hon, bit_toNat, Bool.or_eq_true, h, if_true]

theorem cqCfgWrite_clear (hon : (ringAt m i).cqEn = true) (hen : v.getLsbD 31 = false) (hfree : cqInUse m i = false) :
    cqCfgWrite m i v = onRing m i (fun r => { r with cqEn := false }) := by
  simp only [cqCfgWrite, hon, bit_toNat, hen, hfree, Bool.or_self, if_true, Bool.false_eq_true, if_false]

end

/-! ## SQ_ENABLE and CQ_ENABLE -/

section
variable {s : State} {i : Fin 256}

theorem exec_sqEnable (cfg : Word) (h : RingsOpen s.m) :
    exec (.sqEnable i cfg) s = .next { s with m := sqCfgWrite s.m i (cfg ||| 0x80000000) } :=
  congrArg (ok s) (ringWrite_of_open _ h)

theorem exec_cqEnable (cfg : Word) (h : RingsOpen s.m) :
    exec (.cqEnable i cfg) s = .next { s with m := cqCfgWrite s.m i (cfg ||| 0x80000000) } :=
  congrArg (ok s) (ringWrite_of_open _ h)

end

/-- Settles O2, from the outcomes of an enable in `sqCfgWrite_enable` and `cqCfgWrite_enable`. -/
theorem ringEnables : Obligations.RingEnables := by
  unfold Obligations.RingEnables
  intro s i cfg hopen
  have hen : (cfg ||| 0x80000000).getLsbD 31 = true := by simp
  have hien : (cfg ||| 0x80000000).getLsbD 30 = cfg.getLsbD 30 := by simp
  have hcqid := extractLsb'_or_en cfg (lo := 8) (n := 8) (by decide)
  have hlogsz := extractLsb'_or_en cfg (lo := 0) (n := 5) (by decide)
  have hvec := extractLsb'_or_en cfg (lo := 16) (n := 9) (by decide)
  refine ⟨fun hoff hcq hbase => ?sqOk, fun hoff hcq => ?nocq, fun hoff hcq hbase => ?sqAlign,
    fun hoff hbase => ?cqOk, fun hoff hbase => ?cqAlign⟩
  case sqOk =>
    refine ⟨_, exec_sqEnable cfg hopen, ?_⟩
    rw [sqCfgWrite_enable hoff hen, hcqid, if_neg (ne_false_of_eq_true hcq), if_neg (by simp [hbase])]
    exact ⟨onlyRing_trans (onRing_onlyRing _) (onRing_onlyRing _),
      by simp only [ringAt_onRing_same, ringAt_sqFields_same, hlogsz, hcqid]⟩
  case nocq =>
    refine ⟨_, exec_sqEnable cfg hopen, ?_⟩
    rw [sqCfgWrite_enable hoff hen, hcqid, if_pos hcq]
    simp [hoff]
  case sqAlign =>
    refine ⟨_, exec_sqEnable cfg hopen, ?_⟩
    rw [sqCfgWrite_enable hoff hen, hcqid, if_neg (ne_false_of_eq_true hcq), if_pos hbase]
    simp [hoff]
  case cqOk =>
    refine ⟨_, exec_cqEnable cfg hopen, ?_⟩
    rw [cqCfgWrite_enable hoff hen, if_neg (by simp [hbase])]
    exact ⟨onlyRing_trans (onRing_onlyRing _) (onRing_onlyRing _),
      by simp only [ringAt_onRing_same, ringAt_cqFields_same, hlogsz, hvec, hien]⟩
  case cqAlign =>
    refine ⟨_, exec_cqEnable cfg hopen, ?_⟩
    rw [cqCfgWrite_enable hoff hen, if_pos hbase]
    simp [hoff]

/-! ## CQ_HEAD -/

section
variable {m : Module} {i : Nat} {v : BitVec 16}

/-- Whether head `v` would pass entries not yet written: it lies further from CQ_HEAD, around the ring, than CQ_TAIL. -/
def headPast (r : Ring) (v : BitVec 16) : Prop :=
  let n := ringSize r.cqLogsz
  (v.toNat + n - r.cqHead.toNat) % n > (r.cqTail.toNat + n - r.cqHead.toNat) % n

theorem cqHeadStep_range (hon : (ringAt m i).cqEn = true) (hv : ringSize (ringAt m i).cqLogsz ≤ v.toNat) :
    cqHeadStep m i v = ringError m i 3 := by
  simp [cqHeadStep, hon, hv]

theorem cqHeadStep_past (hon : (ringAt m i).cqEn = true) (hv : v.toNat < ringSize (ringAt m i).cqLogsz)
    (hpast : headPast (ringAt m i) v) : cqHeadStep m i v = ringError m i 4 := by
  unfold headPast at hpast
  simp [cqHeadStep, hon, hv, hpast]

theorem cqHeadStep_moves (hon : (ringAt m i).cqEn = true) (hv : v.toNat < ringSize (ringAt m i).cqLogsz)
    (hpast : ¬ headPast (ringAt m i) v) : cqHeadStep m i v = onRing m i (fun r => { r with cqHead := v }) := by
  unfold headPast at hpast
  simp only [cqHeadStep, hon, Bool.not_true, Bool.false_eq_true, if_false]
  rw [if_neg (by omega), if_neg hpast]

theorem exec_cqHead {s : State} {i : Fin 256} (h : RingsOpen s.m) :
    exec (.cqHead i v) s = .next { s with m := cqHeadStep s.m i v } :=
  congrArg (ok s) (ringWrite_of_open _ h)

end

/-- Settles O4, by the three outcomes of `cqHeadStep`. -/
theorem headDoorbell : Obligations.HeadDoorbell := by
  unfold Obligations.HeadDoorbell
  intro s i v hopen hon size head past
  refine ⟨fun hv => ⟨_, exec_cqHead hopen, ?range⟩, fun hv hpast => ⟨_, exec_cqHead hopen, ?past⟩,
    fun hv hpast => ⟨_, exec_cqHead hopen, ?moves⟩⟩
  case range =>
    rw [cqHeadStep_range hon hv]
    exact ⟨ringAt_ringError_same .., fun j hj => ringAt_ringError_ne _ _ _ _ hj⟩
  case past =>
    rw [cqHeadStep_past hon hv hpast]
    exact ⟨ringAt_ringError_same .., fun j hj => ringAt_ringError_ne _ _ _ _ hj⟩
  case moves =>
    rw [cqHeadStep_moves hon hv hpast]
    exact ⟨onRing_onlyRing _, ringAt_onRing_same ..⟩

/-! ## Accesses of BAR0 -/

theorem accessOk_iff (off bytes : Nat) :
    accessOk off bytes = true ↔ bytes = 4 ∧ off % 4 = 0 ∨ bytes = 8 ∧ off % 8 = 0 := by
  simp [accessOk]

theorem exec_bar0BadAccess (read : Bool) (off : BitVec 25) (bytes : Nat) (s : State) :
    exec (.bar0BadAccess read off bytes) s = .next { s with m := badAccessStep s.m read off bytes } := rfl

section
variable {s : State} {off : Nat} {wide : Bool} (v : BitVec 64)

theorem exec_registerWrite (t : RegTarget) :
    exec (.registerWrite t off wide v) s = .next { s with m := registerWriteStep s.m t off wide v } := rfl

theorem exec_registerWrite_misaligned (h : Bar0Open s.m) (halign : off % (if wide then 8 else 4) ≠ 0) :
    exec (.registerWrite .bar0 off wide v) s =
      .next { s with m := aerReport s.m (.unsupportedRequest false (BitVec.ofNat 25 off)) } := by
  rw [exec_registerWrite, registerWriteStep, bar0_of_open _ h, if_pos halign]

theorem exec_registerWrite_aligned (h : Bar0Open s.m) (halign : off % (if wide then 8 else 4) = 0) :
    exec (.registerWrite .bar0 off wide v) s = .next { s with m := regWrite s.m .bar0 off wide v } := by
  rw [exec_registerWrite, registerWriteStep, bar0_of_open _ h, if_neg (not_not_intro halign)]

end

/-- Settles O17, by the size and alignment that `accessOk_iff` and a register write ask for. -/
theorem badAccesses : Obligations.BadAccesses := by
  unfold Obligations.BadAccesses
  refine ⟨fun s read off bytes => ⟨fun hok => ?accepted, fun hbad => ?dropped⟩,
    fun s off wide v hopen halign => ?misaligned⟩
  case accepted => rw [exec_bar0BadAccess, badAccessStep, if_pos ((accessOk_iff ..).2 hok)]
  case dropped =>
    rw [exec_bar0BadAccess, badAccessStep, if_neg (mt (accessOk_iff ..).1 hbad)]
    rfl
  case misaligned => exact exec_registerWrite_misaligned v hopen halign

/-! ## Writes to RING -/

theorem regWrite_narrow {m : Module} {t : RegTarget} {off : Nat} {v : BitVec 64}
    (h : off % 4 = 0) : regWrite m t off false v = regWord m t off (lowWord v) :=
  if_neg (not_not_intro h)

theorem regWrite_wide {m : Module} {t : RegTarget} {off : Nat} {v : BitVec 64} (h : off % 8 = 0) :
    regWrite m t off true v = regWord (regWord m t off (lowWord v)) t (off + 4) (highWord v) :=
  if_neg (not_not_intro h)

section
variable {m : Module} {i o : Nat}

/-- Bytes `o` of RING_i are those of a base register that R554 locks: SQ_BASE or CQ_BASE of an enabled ring. -/
def baseLocked (r : Ring) (o : Nat) : Prop := o < 8 ∧ r.sqEn = true ∨ 8 ≤ o ∧ o < 16 ∧ r.cqEn = true

/-- A half write whose value is ignored changes the latched halves alone. -/
theorem writeHalf_ignored {key : Nat} {upper : Bool} {v : Word} {cur : BitVec 64} {f : BitVec 64 → Module → Module}
    (h : ∀ x n, n.quay.rings = m.quay.rings → f x n = n) :
    ∃ t, writeHalf m key upper v cur f = onQuay m (fun q => { q with half := t }) := by
  cases upper with
  | false => exact ⟨_, rfl⟩
  | true => exact ⟨_, h _ _ rfl⟩

theorem ringBase_locked {cq : Bool} (x : BitVec 64) (h : (if cq then (ringAt m i).cqEn else (ringAt m i).sqEn) = true) :
    ringBase m i cq x = m := by
  cases cq with
  | false => exact if_pos h
  | true => exact if_pos h

theorem ringReg_offset (ho : o < 64) :
    (0x100000 + 64 * i + o - 0x100000) / 64 = i ∧ (0x100000 + 64 * i + o) % 64 = o := by
  omega

theorem ringRegWrite_baseLocked (v : Word) (h : baseLocked (ringAt m i) o) :
    ∃ t, ringRegWrite m (0x100000 + 64 * i + o) v = onQuay m (fun q => { q with half := t }) := by
  have ho : o < 64 := by
    rcases h with ⟨ho, _⟩ | ⟨_, ho, _⟩ <;> omega
  obtain ⟨hring, hbyte⟩ := ringReg_offset (i := i) ho
  unfold ringRegWrite
  rw [hring, hbyte]
  rcases h with ⟨hlt, hon⟩ | ⟨hge, hlt, hon⟩
  · rw [if_pos hlt]
    exact writeHalf_ignored fun x n hn => ringBase_locked x (by simpa [ringAt_of_rings_eq hn] using hon)
  · rw [if_neg (by omega), if_pos hlt]
    exact writeHalf_ignored fun x n hn => ringBase_locked x (by simpa [ringAt_of_rings_eq hn] using hon)

theorem ringRegWrite_sqCfg (v : Word) : ringRegWrite m (0x100000 + 64 * i + 0x10) v = sqCfgWrite m i v := by
  obtain ⟨hring, hbyte⟩ := ringReg_offset (i := i) (o := 0x10) (by decide)
  unfold ringRegWrite
  rw [hring, hbyte]
  rfl

theorem ringRegWrite_cqCfg (v : Word) : ringRegWrite m (0x100000 + 64 * i + 0x14) v = cqCfgWrite m i v := by
  obtain ⟨hring, hbyte⟩ := ringReg_offset (i := i) (o := 0x14) (by decide)
  unfold ringRegWrite
  rw [hring, hbyte]
  rfl

theorem regWord_ring (v : Word) (hi : i < 256) (ho : o < 64) (hready : m.quay.ready = true) :
    regWord m .bar0 (0x100000 + 64 * i + o) v = ringRegWrite m (0x100000 + 64 * i + o) v := by
  show bar0Word m _ v = _
  rw [bar0Word, if_neg (by omega), if_pos (by omega), if_pos hready]

end

section
variable {s : State} {i : Fin 256}

/-- A 32-bit write to word `o` of RING_i. -/
theorem exec_registerWrite_ring (h : RingsOpen s.m) {o : Nat} (ho : o < 64) (halign : o % 4 = 0) (v : BitVec 64) :
    exec (.registerWrite .bar0 (0x100000 + 64 * i.val + o) false v) s =
      .next { s with m := ringRegWrite s.m (0x100000 + 64 * i.val + o) (lowWord v) } := by
  obtain ⟨hbar0, hready⟩ := h
  have hoff : (0x100000 + 64 * i.val + o) % 4 = 0 := by omega
  rw [exec_registerWrite_aligned v hbar0 hoff, regWrite_narrow hoff, regWord_ring _ i.isLt ho hready]

/-- A 64-bit write to a register of RING_i is its two 32-bit writes (R550). -/
theorem exec_registerWrite_ring_wide (h : RingsOpen s.m) {o : Nat} (ho : o < 64) (halign : o % 8 = 0) (v : BitVec 64)
    {n : Module} (hlow : ringRegWrite s.m (0x100000 + 64 * i.val + o) (lowWord v) = n) (hready : n.quay.ready = true) :
    exec (.registerWrite .bar0 (0x100000 + 64 * i.val + o) true v) s =
      .next { s with m := ringRegWrite n (0x100000 + 64 * i.val + (o + 4)) (highWord v) } := by
  obtain ⟨hbar0, hready0⟩ := h
  have hoff : (0x100000 + 64 * i.val + o) % 8 = 0 := by omega
  rw [exec_registerWrite_aligned v hbar0 hoff, regWrite_wide hoff, regWord_ring _ i.isLt ho hready0, hlow,
    Nat.add_assoc _ o 4, regWord_ring _ i.isLt (by omega) hready]

/-- A write of either size to a base register that is locked leaves every ring as it was (R554). -/
theorem exec_registerWrite_baseLocked (h : RingsOpen s.m) {o : Nat} (wide : Bool) (v : BitVec 64)
    (halign : o % (if wide then 8 else 4) = 0) (hlocked : baseLocked (ringAt s.m i) o) :
    ∃ n, exec (.registerWrite .bar0 (0x100000 + 64 * i.val + o) wide v) s = .next { s with m := n }
      ∧ ∀ j, ringAt n j = ringAt s.m j := by
  have ho : o < 16 := by
    rcases hlocked with ⟨ho, _⟩ | ⟨_, ho, _⟩ <;> omega
  obtain ⟨t, hlow⟩ := ringRegWrite_baseLocked (lowWord v) hlocked
  cases wide with
  | false => exact ⟨_, exec_registerWrite_ring h (by omega) halign v, ringAt_of_rings_eq (by rw [hlow]; rfl)⟩
  | true =>
    have halign8 : o % 8 = 0 := halign
    have hupper : baseLocked (ringAt (onQuay s.m (fun q => { q with half := t })) i) (o + 4) := by
      rcases hlocked with ⟨ho, hon⟩ | ⟨hge, hlt, hon⟩
      · exact .inl ⟨by omega, hon⟩
      · exact .inr ⟨by omega, by omega, hon⟩
    obtain ⟨u, hhigh⟩ := ringRegWrite_baseLocked (highWord v) hupper
    exact ⟨_, exec_registerWrite_ring_wide h (by omega) halign8 v hlow h.2, ringAt_of_rings_eq (by rw [hhigh]; rfl)⟩

end

theorem getLsbD_lowWord (v : BitVec 64) {k : Nat} (hk : k < 32) : (lowWord v).getLsbD k = v.getLsbD k := by
  simp [lowWord, hk]

/-- Settles O18: the bases by `exec_registerWrite_baseLocked`, SQ_CFG and CQ_CFG by what a write to each does while its
EN is 1. -/
theorem ringRegistersLocked : Obligations.RingRegistersLocked := by
  unfold Obligations.RingRegistersLocked
  intro s i v hopen reg same
  have h31 : (lowWord v).getLsbD 31 = v.getLsbD 31 := getLsbD_lowWord v (by decide)
  have hsqCfg : exec (.registerWrite .bar0 (reg + 0x10) false v) s =
      .next { s with m := sqCfgWrite s.m i (lowWord v) } := by
    rw [exec_registerWrite_ring hopen (by decide) (by decide), ringRegWrite_sqCfg]
  have hcqCfg : exec (.registerWrite .bar0 (reg + 0x14) false v) s =
      .next { s with m := cqCfgWrite s.m i (lowWord v) } := by
    rw [exec_registerWrite_ring hopen (by decide) (by decide), ringRegWrite_cqCfg]
  refine ⟨fun hon => ?sq, fun hon => ?cq⟩
  case sq =>
    have hbase (o : Nat) (ho : o < 8) : baseLocked (ringAt s.m i) o := .inl ⟨ho, hon⟩
    refine ⟨exec_registerWrite_baseLocked hopen true v rfl (hbase 0 (by decide)),
      exec_registerWrite_baseLocked hopen false v rfl (hbase 0 (by decide)),
      exec_registerWrite_baseLocked hopen false v rfl (hbase 4 (by decide)), fun hv => ?_, fun hv => ⟨_, hsqCfg, ?_⟩⟩
    · rw [hsqCfg, sqCfgWrite_locked hon (h31.trans hv)]
    · have hrings (j : Nat) : ringAt (sqCfgWrite s.m i (lowWord v)) j =
          ringAt (onRing s.m i (fun r => { r with sqEn := false })) j :=
        ringAt_of_rings_eq (by rw [sqCfgWrite_clear hon (h31.trans hv)]; rfl) j
      exact ⟨by rw [hrings, ringAt_onRing_same], fun j hj => by rw [hrings, ringAt_onRing_ne _ _ _ _ hj]⟩
  case cq =>
    have hbase (o : Nat) (hge : 8 ≤ o) (hlt : o < 16) : baseLocked (ringAt s.m i) o := .inr ⟨hge, hlt, hon⟩
    refine ⟨exec_registerWrite_baseLocked hopen true v rfl (hbase 8 (by decide) (by decide)),
      exec_registerWrite_baseLocked hopen false v rfl (hbase 8 (by decide) (by decide)),
      exec_registerWrite_baseLocked hopen false v rfl (hbase 12 (by decide) (by decide)),
      fun hv => ?_, fun _ huse => ?_, fun hv hfree => ⟨_, hcqCfg, ?_⟩⟩
    · rw [hcqCfg, cqCfgWrite_locked hon (.inl (h31.trans hv))]
    · rw [hcqCfg, cqCfgWrite_locked hon (.inr huse)]
    · rw [cqCfgWrite_clear hon (h31.trans hv) hfree]
      exact ⟨ringAt_onRing_same .., fun j hj => ringAt_onRing_ne _ _ _ _ hj⟩

end Sys2Proof.Machine
end

section
/-! PROOFS. Completion entries (R561): what each part of COMPLETION_ENTRY leaves of the host writes, the rings and the
waiting completions, and the entry itself. -/
namespace Sys2Proof.Machine
open Sys2Proof.Certificates

/-! ## Parts of the step -/

section
variable (m : Module)

@[simp] theorem hostWriteOpt_quay (b : Option (BitVec 64 × List Byte)) : (hostWriteOpt m b).quay = m.quay := by
  cases b <;> rfl

/-- An optional block appends what it writes. -/
theorem hostWriteOpt_hostOut (b : Option (BitVec 64 × List Byte)) :
    ∃ w, (hostWriteOpt m b).hostOut = m.hostOut ++ w := by
  cases b with
  | none => exact ⟨[], (List.append_nil _).symm⟩
  | some p => exact ⟨_, rfl⟩

variable (i : Nat)

/-- A job that leaves the module does nothing to what the host was written, to a ring or to a waiting completion. -/
theorem retireJob_keeps : (retireJob m i).hostOut = m.hostOut ∧ (retireJob m i).quay.rings = m.quay.rings
    ∧ (retireJob m i).quay.compl = m.quay.compl := by
  unfold retireJob
  split
  · exact ⟨rfl, rfl, rfl⟩
  · next j _ =>
    have hclusters := foldl_keeps (fun n : Module => n.hostOut = m.hostOut ∧ n.quay = m.quay)
      (fun n (h : ClHold) => onCl n h.cl (fun c => zeroHeaders c i)) (fun _ _ hn => hn) j.clusters m ⟨rfl, rfl⟩
    obtain ⟨hout, hquay⟩ := hclusters
    exact ⟨hout, congrArg (·.rings) hquay, congrArg (·.compl) hquay⟩

/-- Coalescing keeps what the host was written, the waiting completions, and the tail and PHASE of its ring. -/
theorem coalesce_keeps : (coalesce m i).hostOut = m.hostOut ∧ (coalesce m i).quay.compl = m.quay.compl
    ∧ (ringAt (coalesce m i) i).cqTail = (ringAt m i).cqTail ∧ (ringAt (coalesce m i) i).phase = (ringAt m i).phase := by
  unfold coalesce
  dsimp only
  split
  · exact ⟨rfl, rfl, rfl, rfl⟩
  · split
    · simp
    · split
      · simp
      · exact ⟨rfl, rfl, rfl, rfl⟩

end

/-! ## The entry -/

/-- A completion with the SCRUB_FENCE hits of its job as they stand (R351). -/
def currentCompl (m : Module) (c : Completion) : Completion := match c.job.bind (jobAt m) with
  | some j => lateFence j c
  | none => c

@[simp] theorem currentCompl_ring (m : Module) (c : Completion) : (currentCompl m c).ring = c.ring := by
  unfold currentCompl
  split <;> rfl

/-- PHASE is bit 0 of byte 7 of an entry (*Completion entry*). -/
theorem complBytes_phase (c : Completion) (phase : Bool) (head : BitVec 16) :
    bit ((complBytes c phase head).getD 7 0).toNat 0 = phase := by
  have hbyte : (complBytes c phase head).getD 7 0 = BitVec.ofNat 8 (c.cflags.toNat / 2 * 2 + b2n phase) := by
    simp [complBytes, leBytes]
  rw [hbyte, bit]
  cases phase <;> simp [b2n]

/-- The writes of completion `c`, whose completion ring is `k`, with the tail and PHASE that follow and the completion
taken from place `i` of the queue. -/
def sendCompl (m : Module) (i k : Nat) (c : Completion) : Module :=
  let cq := ringAt m k
  let m1 := hostWriteOpt (hostWriteOpt m c.snapshot) c.report
  let m2 := hostWrite m1 (cq.cqBase + BitVec.ofNat 64 (32 * cq.cqTail.toNat))
    (complBytes c cq.phase (ringAt m c.ring).sqHead)
  onRing (onQuay m2 (fun q => { q with compl := ldel q.compl i })) k advanceCq

/-- The job of a completion leaves the module; a completion of no job leaves all as it is. -/
def retireOf (m : Module) : Option Nat → Module
  | some t => retireJob m t
  | none => m

section
variable (m : Module) (i k : Nat) (c : Completion)

theorem sendCompl_hostOut : ∃ front, (sendCompl m i k c).hostOut = m.hostOut ++ front ++
    [{ addr := (ringAt m k).cqBase + BitVec.ofNat 64 (32 * (ringAt m k).cqTail.toNat),
       bytes := complBytes c (ringAt m k).phase (ringAt m c.ring).sqHead }] := by
  obtain ⟨snap, hsnap⟩ := hostWriteOpt_hostOut m c.snapshot
  obtain ⟨rep, hrep⟩ := hostWriteOpt_hostOut (hostWriteOpt m c.snapshot) c.report
  refine ⟨snap ++ rep, ?_⟩
  rw [← List.append_assoc, ← hsnap, ← hrep]
  rfl

theorem sendCompl_compl : (sendCompl m i k c).quay.compl = ldel m.quay.compl i := by
  simp [sendCompl]

theorem ringAt_sendCompl : ringAt (sendCompl m i k c) k = advanceCq (ringAt m k) := by
  rw [sendCompl, ringAt_onRing_same]
  exact congrArg advanceCq (ringAt_of_rings_eq (by simp) k)

theorem retireOf_keeps (job : Option Nat) : (retireOf m job).hostOut = m.hostOut
    ∧ (retireOf m job).quay.compl = m.quay.compl ∧ ∀ j, ringAt (retireOf m job) j = ringAt m j := by
  cases job with
  | none => exact ⟨rfl, rfl, fun _ => rfl⟩
  | some t =>
    obtain ⟨hout, hrings, hcompl⟩ := retireJob_keeps m t
    exact ⟨hout, hcompl, ringAt_of_rings_eq hrings⟩

end

section
variable {m : Module} {i : Nat} {c : Completion}

/-- COMPLETION_ENTRY of waiting completion `i`: nothing while its ring cannot take it, else the entry, the end of its job
and the coalescing of its signal. -/
theorem completionStep_eq (hc : m.quay.compl[i]? = some c) :
    completionStep m i =
      let k := (ringAt m (currentCompl m c).ring).cqid.toNat
      if muted m || !(ringAt m k).cqEn
          || decide (((ringAt m k).cqTail.toNat + 1) % ringSize (ringAt m k).cqLogsz = (ringAt m k).cqHead.toNat) then m
      else coalesce (retireOf (sendCompl m i k (currentCompl m c)) (currentCompl m c).job) k := by
  unfold completionStep
  rw [hc]
  rfl

theorem exec_completionEntry (i : Nat) (s : State) :
    exec (.completionEntry i) s = .next { s with m := completionStep s.m i } := rfl

end

/-- Settles O6: the two outcomes of `completionStep_eq`, the entry by what `sendCompl` leaves and the parts after it keep. -/
theorem completionEntries : Obligations.CompletionEntries := by
  unfold Obligations.CompletionEntries
  intro s i c hc hmuted k cq size tail hen
  have hstep := completionStep_eq hc
  simp only [currentCompl_ring, hmuted, Bool.false_or] at hstep
  refine ⟨fun hfull => ?full, fun hroom => ?sent⟩
  case full =>
    rw [exec_completionEntry, hstep, if_pos (by simp only [Bool.or_eq_true, decide_eq_true_eq]; exact .inr hfull)]
  case sent =>
    rw [if_neg (by simp only [Bool.or_eq_true, decide_eq_true_eq, Bool.not_eq_true']
                   exact not_or_intro (ne_false_of_eq_true hen) hroom)] at hstep
    obtain ⟨front, hout⟩ := sendCompl_hostOut s.m i k (currentCompl s.m c)
    obtain ⟨hout', hcompl', hrings'⟩ := retireOf_keeps (sendCompl s.m i k (currentCompl s.m c)) (currentCompl s.m c).job
    obtain ⟨hout'', hcompl'', htail'', hphase''⟩ :=
      coalesce_keeps (retireOf (sendCompl s.m i k (currentCompl s.m c)) (currentCompl s.m c).job) k
    have hring := (hrings' k).trans (ringAt_sendCompl s.m i k (currentCompl s.m c))
    refine ⟨_, complBytes (currentCompl s.m c) cq.phase (ringAt s.m c.ring).sqHead, front,
      by rw [exec_completionEntry, hstep], ?entry, rfl, complBytes_phase _ _ _, ?tail, ?phase, ?queue⟩
    case entry => rw [hout'', hout', hout, currentCompl_ring]
    case tail => rw [htail'', hring]; rfl
    case phase => rw [hphase'', hring]; rfl
    case queue => rw [hcompl'', hcompl', sendCompl_compl]

end Sys2Proof.Machine
end

section
/-! PROOFS. Host reads that end in error (R575): what the end and the kill of a job leave of the job itself, and the outcome of
HOST_READ_ERROR at each site. -/
namespace Sys2Proof.Machine
open Sys2Proof.Certificates

/-! ## The end and the kill of a job -/

section
variable (m : Module) (tag : Nat)

theorem SameRest.aer_eq {a b : Module} (h : SameRest a b) : b.aer = a.aer := congrArg (·.aer) h

theorem finishJob_aer (status detail : BitVec 8) (count : Option Nat) (snap : Option (BitVec 64 × List Byte)) :
    (finishJob m tag status detail count snap).aer = m.aer :=
  congrArg (·.aer) (finishJob_eq ..)

theorem jobAt_finishJob (status detail : BitVec 8) (count : Option Nat) (snap : Option (BitVec 64 × List Byte)) :
    jobAt (finishJob m tag status detail count snap) tag = (jobAt m tag).map (fun j => { j with phase := .finishing }) := by
  unfold finishJob
  split
  · next h => rw [h]; rfl
  · exact jobAt_onJob_same m tag _

/-- Jobs `a` and `b` differ at most in their slip figures (R439). -/
def OnlySlips (a b : Job) : Prop := b = { a with slip := b.slip, slipEvents := b.slipEvents }

theorem onlySlips_addSlips {j a : Job} (c : Cluster) (ha : OnlySlips j a) : OnlySlips j (addSlips a c tag) := by
  refine foldl_keeps (OnlySlips j) _ (fun b k hb => ?_) _ a ha
  unfold OnlySlips at hb ⊢
  rw [hb]

theorem onlySlips_withSlips (j : Job) : OnlySlips j (withSlips m tag j) :=
  foldl_keeps (OnlySlips j) _ (fun _ _ ha => onlySlips_addSlips tag _ ha) _ j rfl

theorem OnlySlips.replayReq_eq {a b : Job} (h : OnlySlips a b) : b.replayReq = a.replayReq := congrArg (·.replayReq) h

theorem jobAt_of_jobs_eq {n : Module} (h : n.quay.jobs = m.quay.jobs) (t : Nat) : jobAt n t = jobAt m t := by
  rw [jobAt, jobAt, h]

/-- A killed job keeps its cause, and the replay that it may have requested before. -/
theorem jobAt_killJob (cause : KillCause) (trip : Option (Nat × Nat)) {j : Job} (h : jobAt m tag = some j)
    (hk : j.killed = none) (hp : j.phase ≠ .finishing) :
    ∃ j', jobAt (killJob m tag cause trip) tag = some j' ∧ j'.killed = some cause ∧ j'.replayReq = j.replayReq := by
  unfold killJob
  rw [h]
  dsimp only
  rw [if_neg (by simp [hk, hp]), jobAt_finishJob]
  have hreq := (onlySlips_withSlips m tag j).replayReq_eq
  generalize withSlips m tag j = w at hreq ⊢
  have hmark : jobAt (onJob m tag (fun _ => { w with killed := some cause })) tag =
      some { w with killed := some cause } := by
    rw [jobAt_onJob_same, h, Option.map_some]
  generalize onJob m tag (fun _ => { w with killed := some cause }) = m1 at hmark ⊢
  have htorn : (if w.started then tearDown m1 tag w (killCode cause) else m1).quay.jobs = m1.quay.jobs := by
    split
    · exact congrArg (·.jobs) (tearDown_rest m1 tag w _).2
    · rfl
  rw [jobAt_of_jobs_eq m1 (n := reseed _) htorn, hmark, Option.map_some]
  exact ⟨_, rfl, rfl, hreq⟩

end

/-! ## The sites of HOST_READ_ERROR -/

theorem fetchOut_passEntry (m : Module) (i : Nat) : fetchOut (passEntry m i) i = false := by
  simp [fetchOut, passEntry]

theorem getElem?_lset {α : Type} (v : α) : ∀ (l : List α) (i : Nat), i < l.length → (lset l i v)[i]? = some v
  | [], _, h => absurd h (Nat.not_lt_zero _)
  | _ :: _, 0, _ => rfl
  | _ :: l, i + 1, h => getElem?_lset v l i (Nat.lt_of_succ_lt_succ h)

theorem exec_hostReadError (site : HostReadSite) (s : State) :
    exec (.hostReadError site) s = .next { s with m := hostReadErrorStep s.m site } := rfl

section
variable {m : Module}

theorem hostReadErrorStep_entry {i : Fin 256} (h : fetchOut m i = true) : hostReadErrorStep m (.entry i) =
    aerReport (queueCompletion (passEntry m i) { ring := i, status := 0x39, detail := 1 }) .completionError :=
  if_pos h

variable {tag : Fin 1024} {j : Job}

theorem hostReadErrorStep_graph (h : jobAt m tag = some j) (hp : j.phase = .admitted) :
    hostReadErrorStep m (.graph tag) = aerReport (finishJob m tag 0x39 2 none none) .completionError := by
  simp only [hostReadErrorStep, h, hp, if_true]

theorem hostReadErrorStep_run (h : jobAt m tag = some j) (hp : j.phase = .running) :
    hostReadErrorStep m (.run tag) = aerReport (killJob m tag .hostRead none) .completionError := by
  simp only [hostReadErrorStep, h, hp, if_true]

theorem hostReadErrorStep_keyLoad {i : Nat} {u : KeyUpload} (h : m.quay.uploads[i]? = some u) :
    hostReadErrorStep m (.keyLoad i) = aerReport (onQuay m (fun q => { q with
      uploads := lset q.uploads i { u with status := 1, page := 0, set := none } })) .completionError := by
  obtain ⟨hi, _⟩ := List.getElem?_eq_some_iff.1 h
  simp only [hostReadErrorStep, hi, if_true, onQuay, List.getD_eq_getElem?_getD, h, Option.getD_some]

end

/-- Settles O11, by the outcome at each of the four sites. -/
theorem hostReadErrors : Obligations.HostReadErrors := by
  unfold Obligations.HostReadErrors
  refine ⟨fun s i hread => ?entry, fun s tag j hj hp => ?graph, fun s tag j hj hp hk => ?run, fun s i u hu => ?keyLoad⟩
  case entry =>
    refine ⟨_, exec_hostReadError _ s, ?_⟩
    rw [hostReadErrorStep_entry hread]
    exact ⟨fetchOut_passEntry s.m i, rfl, rfl⟩
  case graph =>
    refine ⟨_, completionOf tag j 0x39 2 none (jobMhz s.m j) (tDone s.m) none, exec_hostReadError _ s, ?_⟩
    rw [hostReadErrorStep_graph hj hp]
    exact ⟨finishJob_compl _ _ _ _ _ _ hj, rfl, rfl, rfl, rfl, congrArg (· ++ _) (finishJob_aer ..)⟩
  case run =>
    have hlive : j.phase ≠ .finishing := by rw [hp]; decide
    obtain ⟨c, hcompl, _, hstatus, hdetail, hcid, _⟩ := killJob_compl s.m tag .hostRead none hj hk hlive
    obtain ⟨j', hj', hkilled, hreq⟩ := jobAt_killJob s.m tag .hostRead none hj hk hlive
    refine ⟨_, c, j', exec_hostReadError _ s, ?_⟩
    rw [hostReadErrorStep_run hj hp]
    exact ⟨hcompl, hstatus, hdetail, hcid, hj', hkilled, hreq, congrArg (· ++ _) (killJob_rest ..).aer_eq⟩
  case keyLoad =>
    refine ⟨_, exec_hostReadError _ s, ?_⟩
    rw [hostReadErrorStep_keyLoad hu]
    exact ⟨getElem?_lset _ _ _ (List.getElem?_eq_some_iff.1 hu).1, rfl, rfl⟩

end Sys2Proof.Machine
end
section
/-! PROOFS. No step clears a fuse (R586). Three operations burn fuses: the cold start completes pairs (R587), the boot of an
image burns revocation and SVN fuses (R594), and a lifecycle transition burns its state's fuses (R613). Each only sets bits.
Every other operation keeps the fuses: one lemma for each, in the model's order, that `simp` carries from an operation to those
that use it. -/
namespace Sys2Proof.Machine
open Sys2Proof.Certificates

/-! ## Branches, folds and results of instruction bodies -/

@[simp] theorem ite_hedge_fuses (p : Prop) [Decidable p] (a b : Module) :
    (if p then a else b).hedge.fuses = if p then a.hedge.fuses else b.hedge.fuses := by
  split <;> rfl

@[simp] theorem ite_fuses (p : Prop) [Decidable p] (a b : Hedge) :
    (if p then a else b).fuses = if p then a.fuses else b.fuses := by
  split <;> rfl

/-- A fold whose steps keep the fuses keeps them. -/
@[simp] theorem foldl_fuses {α : Type} {f : Module → α → Module} {l : List α} {m : Module}
    (hf : ∀ b a, (f b a).hedge.fuses = b.hedge.fuses) : (l.foldl f m).hedge.fuses = m.hedge.fuses :=
  foldl_keeps (fun b : Module => b.hedge.fuses = m.hedge.fuses) f (fun b a hb => (hf b a).trans hb) l m rfl

/-- The module of an instruction body's result has the fuses of `m`. -/
def Res.KeepsFuses (m : Module) : Res → Prop
  | .kill _ n | .ledger _ _ n | .hold _ _ _ _ n | .done _ n => n.hedge.fuses = m.hedge.fuses
  | .idle => True

section
variable (m n : Module)

@[simp] theorem keepsFuses_kill (cause : KillCause) :
    (Res.kill cause n).KeepsFuses m ↔ n.hedge.fuses = m.hedge.fuses := Iff.rfl
@[simp] theorem keepsFuses_ledger (pool code : Nat) :
    (Res.ledger pool code n).KeepsFuses m ↔ n.hedge.fuses = m.hedge.fuses := Iff.rfl
@[simp] theorem keepsFuses_hold (cause obj want have_ : Nat) :
    (Res.hold cause obj want have_ n).KeepsFuses m ↔ n.hedge.fuses = m.hedge.fuses := Iff.rfl
@[simp] theorem keepsFuses_idle : Res.idle.KeepsFuses m := trivial
@[simp] theorem keepsFuses_done (cycles : Nat) :
    (Res.done cycles n).KeepsFuses m ↔ n.hedge.fuses = m.hedge.fuses := Iff.rfl

@[simp] theorem keepsFuses_ite (p : Prop) [Decidable p] (a b : Res) :
    (if p then a else b).KeepsFuses m ↔ if p then a.KeepsFuses m else b.KeepsFuses m := by
  split <;> rfl

theorem Res.KeepsFuses.ite {m : Module} {p : Prop} [Decidable p] {a b : Res} (ha : a.KeepsFuses m)
    (hb : b.KeepsFuses m) : (if p then a else b).KeepsFuses m := by
  split <;> assumption

end

/-- The tear-down and the kill of a job keep the fuses, by what `SameRest` says of the Hedge. -/
theorem SameRest.fuses_eq {a b : Module} (h : SameRest a b) : b.hedge.fuses = a.hedge.fuses :=
  congrArg (·.hedge.fuses) h

section
variable (m : Module) (tag cl k d die i st off : Nat) (v : Word) (words : List Word) (x : Context)

theorem onCl_fuses (f : Cluster → Cluster) : (onCl m i f).hedge.fuses = m.hedge.fuses := rfl
theorem onDie_fuses (f : Die → Die) : (onDie m i f).hedge.fuses = m.hedge.fuses := rfl
@[simp] theorem onHedge_fuses (f : Hedge → Hedge) : (onHedge m f).hedge.fuses = (f m.hedge).fuses := rfl
@[simp] theorem logLater_fuses (e : LogEvent) : (logLater m e).hedge.fuses = m.hedge.fuses := rfl

/-! ## Shared operations, replay requests, scratchpads, ends of jobs and fences -/

@[simp] theorem raiseEvt_fuses : (raiseEvt m i).hedge.fuses = m.hedge.fuses := by simp [raiseEvt]
@[simp] theorem askReplay_fuses (c : ReplayCause) :
    (askReplay m tag c).hedge.fuses = m.hedge.fuses := by simp [askReplay]
@[simp] theorem scrAccess_fuses (reads : List Nat) (writes : List (Nat × Word)) :
    (scrAccess m cl tag reads writes).hedge.fuses = m.hedge.fuses :=
  congrArg (·.hedge.fuses) (scrAccess_eq m tag cl reads writes)
@[simp] theorem finishJob_fuses (status detail : BitVec 8) (count : Option Nat)
    (snap : Option (BitVec 64 × List Byte)) :
    (finishJob m tag status detail count snap).hedge.fuses = m.hedge.fuses :=
  congrArg (·.hedge.fuses) (finishJob_eq ..)
@[simp] theorem fenceDests_fuses (fence : Nat) (ds : List (Nat × Nat × Nat)) :
    (fenceDests m fence ds).hedge.fuses = m.hedge.fuses := foldl_fuses fun _ _ => rfl
@[simp] theorem fiOff_fuses : (fiOff m d).hedge.fuses = m.hedge.fuses := by simp [fiOff]
@[simp] theorem tearDown_fuses (j : Job) (code : BitVec 4) :
    (tearDown m tag j code).hedge.fuses = m.hedge.fuses := (tearDown_rest m tag j code).1.fuses_eq
@[simp] theorem reseed_fuses : (reseed m).hedge.fuses = m.hedge.fuses := by simp [reseed]
@[simp] theorem killJob_fuses (cause : KillCause) (trip : Option (Nat × Nat)) :
    (killJob m tag cause trip).hedge.fuses = m.hedge.fuses := (killJob_rest m tag cause trip).fuses_eq
@[simp] theorem ledgerKill_fuses (pool : Nat) (code : Nat) :
    (ledgerKill m die pool tag code).hedge.fuses = m.hedge.fuses := by simp [ledgerKill]
@[simp] theorem addFlag_fuses (addr amount : Nat) :
    (addFlag m addr amount tag).hedge.fuses = m.hedge.fuses := by simp [addFlag]
@[simp] theorem settleFlag_fuses (addr : Nat) :
    (settleFlag m addr).hedge.fuses = m.hedge.fuses := by simp [settleFlag]
@[simp] theorem tick_fuses : (tick m).hedge.fuses = m.hedge.fuses := by simp [tick]
@[simp] theorem dropFlagIn_fuses (hs : List ClHold) :
    (dropFlagIn m hs).hedge.fuses = m.hedge.fuses := by simp [dropFlagIn]
@[simp] theorem dropJobs_fuses : (dropJobs m).hedge.fuses = m.hedge.fuses := by simp [dropJobs]
@[simp] theorem settleFences_fuses :
    (settleFences m).hedge.fuses = m.hedge.fuses := congrArg (·.hedge.fuses) (settleFences_eq m)

/-! ## Links -/

@[simp] theorem onLink_fuses (e : LinkEnd) (f : Link → Link) : (onLink m e f).hedge.fuses = m.hedge.fuses := by
  unfold onLink
  split <;> simp

@[simp] theorem crossLink_fuses (n : Nat) (e : LinkEnd) :
    (crossLink n m e).hedge.fuses = m.hedge.fuses := by simp [crossLink]
@[simp] theorem crossPath_fuses (path : List LinkEnd) (words : Nat) :
    (crossPath m path words).hedge.fuses = m.hedge.fuses := by simp [crossPath]

/-! ## Bodies of sequencer instructions, messages and breakpoints -/

@[simp] theorem addHold_fuses (cause obj want have_ : Nat) :
    (addHold m cl k cause obj want have_).hedge.fuses = m.hedge.fuses := by simp [addHold]
@[simp] theorem sendReport_fuses (h : Word) (a b : Place) :
    (sendReport m d tag h a b).hedge.fuses = m.hedge.fuses := by simp [sendReport]

@[simp] theorem loadSeq_keepsFuses (regw : Nat) (vs : List Word) : (loadSeq m cl k x regw vs).KeepsFuses m := by
  unfold loadSeq
  dsimp only
  repeat' split
  all_goals simp

@[simp] theorem loadSte_fuses (regw : Nat) (vs : List Word) :
    (loadSte m cl k x regw vs).hedge.fuses = m.hedge.fuses := by simp [loadSte]

@[simp] theorem loadBody_keepsFuses (ws : List Word) : (loadBody cl k m x ws).KeepsFuses m := by
  unfold loadBody
  dsimp only
  repeat' split
  all_goals simp

@[simp] theorem waitBody_keepsFuses (ws : List Word) : (waitBody cl m x ws).KeepsFuses m := by simp [waitBody]
@[simp] theorem signalBody_keepsFuses (ws : List Word) : (signalBody cl m x ws).KeepsFuses m := by simp [signalBody]
@[simp] theorem dropMsg_fuses : (dropMsg m i).hedge.fuses = m.hedge.fuses := by simp [dropMsg]

@[simp] theorem signalArrivalStep_fuses : (signalArrivalStep m i).hedge.fuses = m.hedge.fuses := by
  unfold signalArrivalStep
  split <;> simp

@[simp] theorem popBody_keepsFuses (ws : List Word) : (popBody cl k m x ws).KeepsFuses m := by
  unfold popBody
  dsimp only
  repeat' split
  all_goals simp

@[simp] theorem sendHandle_fuses (r : Nat) (q : Nat) (h : Word) (remote : Option (Nat × Nat)) :
    (sendHandle m cl k r x q h remote).hedge.fuses = m.hedge.fuses := by simp [sendHandle]

@[simp] theorem pushBody_keepsFuses (ws : List Word) : (pushBody cl k m x ws).KeepsFuses m := by
  unfold pushBody
  dsimp only
  repeat' split
  all_goals simp

@[simp] theorem handleArrivalStep_fuses : (handleArrivalStep m i).hedge.fuses = m.hedge.fuses := by
  unfold handleArrivalStep
  split <;> simp

@[simp] theorem ledgerReportStep_fuses : (ledgerReportStep m i).hedge.fuses = m.hedge.fuses := by
  unfold ledgerReportStep
  split <;> simp

@[simp] theorem creditReturnStep_fuses : (creditReturnStep m i).hedge.fuses = m.hedge.fuses := by
  unfold creditReturnStep
  split <;> simp

@[simp] theorem negCountStep_fuses (p : Nat) : (negCountStep m d p).hedge.fuses = m.hedge.fuses := by
  unfold negCountStep
  split <;> simp

@[simp] theorem swapBody_keepsFuses (ws : List Word) : (swapBody cl m x ws).KeepsFuses m := by simp [swapBody]
@[simp] theorem patchBody_keepsFuses (ws : List Word) : (patchBody cl k m x ws).KeepsFuses m := by simp [patchBody]
@[simp] theorem loopBody_keepsFuses (ws : List Word) : (loopBody cl k m x ws).KeepsFuses m := by simp [loopBody]
@[simp] theorem tmarkBody_keepsFuses (ws : List Word) : (tmarkBody cl k m x ws).KeepsFuses m := by simp [tmarkBody]
@[simp] theorem tagBody_keepsFuses (ws : List Word) : (tagBody cl k m x ws).KeepsFuses m := by simp [tagBody]
@[simp] theorem endBody_keepsFuses (ws : List Word) : (endBody cl k m x ws).KeepsFuses m := by simp [endBody]
@[simp] theorem breakpointStep_fuses : (breakpointStep m cl k).hedge.fuses = m.hedge.fuses := by simp [breakpointStep]
@[simp] theorem resumeStep_fuses : (resumeStep m d).hedge.fuses = m.hedge.fuses := by simp [resumeStep]

/-! ## Descriptors -/

@[simp] theorem dcmtStep_fuses : (dcmtStep m die v).hedge.fuses = m.hedge.fuses := by simp [dcmtStep]
@[simp] theorem descDoneStep_fuses (n : Nat) :
    (descDoneStep m die n).hedge.fuses = m.hedge.fuses := by simp [descDoneStep]

/-! ## Audits -/

@[simp] theorem auditParts_fuses (parts : List Shadow) : (auditParts m tag parts).1.hedge.fuses = m.hedge.fuses := by
  unfold auditParts
  dsimp only
  repeat' split
  all_goals simp

theorem fuses_of_auditParts {m n : Module} {tag : Nat} {parts : List Shadow} {bad : Bool}
    (h : auditParts m tag parts = (n, bad)) : n.hedge.fuses = m.hedge.fuses := by
  rw [← auditParts_fuses m tag parts, h]

@[simp] theorem failMain_fuses (parts : List Shadow) :
    (failMain m tag parts).hedge.fuses = m.hedge.fuses := foldl_fuses fun _ _ => rfl

@[simp] theorem auditSealed_fuses (parts : List Shadow) (main : Bool) :
    (auditSealed m tag parts main).hedge.fuses = m.hedge.fuses := by
  unfold auditSealed
  split
  · split
    · dsimp only
      split <;> next hparts => simp [fuses_of_auditParts hparts]
    · split <;> simp
  · rfl

@[simp] theorem auditMerged_fuses (code slot : Nat) (cls : List Nat) :
    (auditMerged m tag code slot cls).hedge.fuses = m.hedge.fuses := by
  unfold auditMerged
  split <;> simp

/-! ## Starts and ends of engine operations -/

@[simp] theorem zeroStreams_fuses (rows : List Nat) :
    (zeroStreams cl rows m).hedge.fuses = m.hedge.fuses := by simp [zeroStreams]
@[simp] theorem beginAt_fuses (e : Engine) (p : PendOp) :
    (beginAt m cl e p).hedge.fuses = m.hedge.fuses := by simp [beginAt]
@[simp] theorem onWindow_fuses (f : KeyWindow → KeyWindow) :
    (onWindow m cl tag f).hedge.fuses = m.hedge.fuses := by simp [onWindow]
@[simp] theorem bankSlips_fuses (bs : List (List Nat)) :
    (bankSlips m cl k bs).hedge.fuses = m.hedge.fuses := by simp [bankSlips]

@[simp] theorem startEngine_keepsFuses (e : Engine) (w1 : Nat) : (startEngine cl k m x e w1).KeepsFuses m := by
  unfold startEngine
  dsimp only
  repeat' split
  all_goals simp

@[simp] theorem startBody_keepsFuses (ws : List Word) : (startBody cl k m x ws).KeepsFuses m := by simp [startBody]

@[simp] theorem pendingStartStep_fuses (e : Engine) : (pendingStartStep m cl e).hedge.fuses = m.hedge.fuses := by
  unfold pendingStartStep
  dsimp only
  repeat' split
  all_goals simp

@[simp] theorem opDone_fuses (e : Engine) : (opDone m cl e).hedge.fuses = m.hedge.fuses := by
  unfold opDone
  dsimp only
  repeat' split
  all_goals simp

@[simp] theorem opEffect_fuses (e : Engine) (o : RunOp) (x : OpOut) (fin : Bool) :
    (opEffect m cl e o x fin).hedge.fuses = m.hedge.fuses := by simp [opEffect]

/-! ## Stacks -/

@[simp] theorem stkAccess_fuses (a n : Nat) (cause : ReplayCause) :
    (stkAccess m a n tag cause).hedge.fuses = m.hedge.fuses := by
  unfold stkAccess
  dsimp only
  split <;> simp

@[simp] theorem stkPut_fuses (a : Nat) (bs : List Byte) :
    (stkPut m a bs).hedge.fuses = m.hedge.fuses := by simp [stkPut]
@[simp] theorem quayPut_fuses (a : Nat) (bs : List Byte) :
    (quayPut m a bs).hedge.fuses = m.hedge.fuses := by simp [quayPut]
@[simp] theorem frameStep_fuses : (frameStep m st).hedge.fuses = m.hedge.fuses := by simp [frameStep]

@[simp] theorem patrolStep_fuses : (patrolStep m st).hedge.fuses = m.hedge.fuses := by
  unfold patrolStep
  dsimp only
  repeat' split
  all_goals simp

@[simp] theorem fenceZeroStep_fuses : (fenceZeroStep m st).hedge.fuses = m.hedge.fuses := by
  unfold fenceZeroStep
  dsimp only
  split <;> simp

@[simp] theorem stackWipeStep_fuses : (stackWipeStep m).hedge.fuses = m.hedge.fuses := by simp [stackWipeStep]

/-! ## Ferry and bindings -/

@[simp] theorem landWrite_fuses (ws : List (Nat × Word)) :
    (landWrite m cl tag ws).hedge.fuses = m.hedge.fuses := by simp [landWrite]

@[simp] theorem landStep_fuses (l : FerryList) (c : FerryCmd) (f : Nat) (p : LandPlan) :
    (landStep m die l c f p).hedge.fuses = m.hedge.fuses := by
  unfold landStep
  dsimp only
  split <;> simp

@[simp] theorem ferryStep_fuses (wantEnd : Bool) : (ferryStep m die wantEnd).hedge.fuses = m.hedge.fuses := by
  unfold ferryStep
  split
  · rfl
  · split <;> simp

@[simp] theorem bindingStep_fuses : (bindingStep m cl i).hedge.fuses = m.hedge.fuses := by
  unfold bindingStep
  dsimp only
  repeat' split
  all_goals simp

/-! ## Stream engines -/

@[simp] theorem onSte_fuses (s : Nat) (f : StreamEngine → StreamEngine) :
    (onSte m die s f).hedge.fuses = m.hedge.fuses := by simp [onSte]
@[simp] theorem clearDeclared_fuses (ranges : List Declared1) :
    (clearDeclared m cl ranges).hedge.fuses = m.hedge.fuses := by simp [clearDeclared]

@[simp] theorem steStartBody_keepsFuses (ws : List Word) : (steStartBody cl k m x ws).KeepsFuses m := by
  unfold steStartBody
  refine .ite trivial (.ite rfl ?_)
  dsimp only
  refine .ite rfl (.ite rfl (.ite (fenceDests_fuses ..) (.ite rfl (.ite rfl (.ite rfl ?_)))))
  split
  · rfl
  · simp

@[simp] theorem stackFenceHits_fuses (n : Nat) :
    (stackFenceHits m cl tag n).hedge.fuses = m.hedge.fuses := by simp [stackFenceHits]
@[simp] theorem readFx_fuses (p : Slot) (ws : List Nat) :
    (readFx m cl tag p ws).hedge.fuses = m.hedge.fuses := by simp [readFx]

@[simp] theorem markLost_fuses (p : Slot) (ws : List Nat) : (markLost m p ws).hedge.fuses = m.hedge.fuses := by
  unfold markLost
  split
  · rfl
  · split
    · rfl
    · split
      · exact foldl_fuses fun _ _ => rfl
      · rfl

@[simp] theorem writeWords_fuses (p : Slot) (ws : List (Nat × Word)) :
    (writeWords m cl tag p ws).hedge.fuses = m.hedge.fuses := by
  unfold writeWords
  dsimp only
  split
  · simp
  · split
    · exact (foldl_fuses fun _ _ => stkPut_fuses ..).trans (stackFenceHits_fuses ..)
    · exact foldl_fuses fun _ _ => rfl

/-! ## Seals and merges -/

@[simp] theorem sealBody_keepsFuses (ws : List Word) : (sealBody cl k m x ws).KeepsFuses m := by simp [sealBody]

@[simp] theorem mergeGroup_fuses (lead : Nat) (ms : List Member) :
    (mergeGroup m tag lead ms).hedge.fuses = m.hedge.fuses := by
  unfold mergeGroup
  split
  · rfl
  · rw [auditMerged_fuses]
    exact foldl_fuses fun _ _ => rfl

@[simp] theorem joinGroup_fuses (r : Record) :
    (joinGroup m tag d r).hedge.fuses = m.hedge.fuses := by simp [joinGroup]
@[simp] theorem sealcBody_keepsFuses (ws : List Word) : (sealcBody cl k m x ws).KeepsFuses m := by simp [sealcBody]

/-! ## Attempts of instructions -/

@[simp] theorem fetchRead_fuses (len : Nat) :
    (fetchRead m x len).hedge.fuses = m.hedge.fuses := congrArg (·.hedge.fuses) (fetchRead_eq m x len)
@[simp] theorem fetched_fuses (len : Nat) :
    (fetched m cl k len).hedge.fuses = m.hedge.fuses := congrArg (·.hedge.fuses) (fetched_eq m cl k len)
@[simp] theorem pushInTurn_keepsFuses (ws : List Word) : (pushInTurn cl k m x ws).KeepsFuses m := by simp [pushInTurn]
@[simp] theorem steStartInTurn_keepsFuses (ws : List Word) :
    (steStartInTurn cl k m x ws).KeepsFuses m := by simp [steStartInTurn]

theorem resEffect_fuses {m : Module} {cl k op len : Nat} {r : Res} (h : r.KeepsFuses m) :
    (resEffect m cl k op len r).hedge.fuses = m.hedge.fuses := by
  cases r <;> simp_all [resEffect]

@[simp] theorem attempt_fuses (op : Nat) (slot : Bool)
    (body : Module → Context → List Word → Res) (h : ∀ n y ws, (body n y ws).KeepsFuses n) :
    (attempt m cl k words op slot body).hedge.fuses = m.hedge.fuses := by
  rcases attempt_cases m cl k words op slot body with e | e | e | e | e | e | e | e | e <;> rw [e]
  case inr.inr.inr.inr.inr.inr.inr.inr => exact (resEffect_fuses (h _ _ _)).trans (fetched_fuses ..)
  all_goals simp

@[simp] theorem captureHold_fuses : (captureHold m cl k).hedge.fuses = m.hedge.fuses := by
  unfold captureHold
  dsimp only
  repeat' split
  all_goals simp

@[simp] theorem watchdogStep_fuses : (watchdogStep m cl k).hedge.fuses = m.hedge.fuses := by simp [watchdogStep]
@[simp] theorem loadStep_fuses : (loadStep m cl k words).hedge.fuses = m.hedge.fuses := by simp [loadStep]
@[simp] theorem waitStep_fuses : (waitStep m cl k words).hedge.fuses = m.hedge.fuses := by simp [waitStep]
@[simp] theorem signalStep_fuses : (signalStep m cl k words).hedge.fuses = m.hedge.fuses := by simp [signalStep]
@[simp] theorem popStep_fuses : (popStep m cl k words).hedge.fuses = m.hedge.fuses := by simp [popStep]
@[simp] theorem pushStep_fuses : (pushStep m cl k words).hedge.fuses = m.hedge.fuses := by simp [pushStep]
@[simp] theorem swapStep_fuses : (swapStep m cl k words).hedge.fuses = m.hedge.fuses := by simp [swapStep]
@[simp] theorem patchStep_fuses : (patchStep m cl k words).hedge.fuses = m.hedge.fuses := by simp [patchStep]
@[simp] theorem loopStep_fuses : (loopStep m cl k words).hedge.fuses = m.hedge.fuses := by simp [loopStep]
@[simp] theorem tmarkStep_fuses : (tmarkStep m cl k words).hedge.fuses = m.hedge.fuses := by simp [tmarkStep]
@[simp] theorem tagStep_fuses : (tagStep m cl k words).hedge.fuses = m.hedge.fuses := by simp [tagStep]
@[simp] theorem endStep_fuses : (endStep m cl k words).hedge.fuses = m.hedge.fuses := by simp [endStep]
@[simp] theorem startStep_fuses : (startStep m cl k words).hedge.fuses = m.hedge.fuses := by simp [startStep]
@[simp] theorem sealStep_fuses : (sealStep m cl k words).hedge.fuses = m.hedge.fuses := by simp [sealStep]
@[simp] theorem sealcStep_fuses : (sealcStep m cl k words).hedge.fuses = m.hedge.fuses := by simp [sealcStep]
@[simp] theorem steStartStep_fuses : (steStartStep m cl k words).hedge.fuses = m.hedge.fuses := by simp [steStartStep]

/-! ## Rings, completions and global controls -/

@[simp] theorem bar0_fuses (f : Module → Module) (h : ∀ n, (f n).hedge.fuses = n.hedge.fuses) :
    (bar0 m f).hedge.fuses = m.hedge.fuses := by simp [bar0, h]
@[simp] theorem ringWrite_fuses (f : Module → Module) (h : ∀ n, (f n).hedge.fuses = n.hedge.fuses) :
    (ringWrite m f).hedge.fuses = m.hedge.fuses := by simp [ringWrite, h]
@[simp] theorem doorbellIgnored_fuses : (doorbellIgnored m i).hedge.fuses = m.hedge.fuses := by simp [doorbellIgnored]
@[simp] theorem sqTailStep_fuses (v : BitVec 16) :
    (sqTailStep m i v).hedge.fuses = m.hedge.fuses := by simp [sqTailStep]
@[simp] theorem cqHeadStep_fuses (v : BitVec 16) :
    (cqHeadStep m i v).hedge.fuses = m.hedge.fuses := by simp [cqHeadStep]
@[simp] theorem sqCfgWrite_fuses : (sqCfgWrite m i v).hedge.fuses = m.hedge.fuses := by simp [sqCfgWrite]
@[simp] theorem cqCfgWrite_fuses : (cqCfgWrite m i v).hedge.fuses = m.hedge.fuses := by simp [cqCfgWrite]

@[simp] theorem fetchStep_fuses : (fetchStep m).hedge.fuses = m.hedge.fuses := by
  unfold fetchStep
  split
  · rfl
  · split <;> rfl

@[simp] theorem passEntry_fuses : (passEntry m i).hedge.fuses = m.hedge.fuses := by simp [passEntry]
@[simp] theorem queueCompletion_fuses (c : Completion) :
    (queueCompletion m c).hedge.fuses = m.hedge.fuses := by simp [queueCompletion]
@[simp] theorem coalesce_fuses : (coalesce m i).hedge.fuses = m.hedge.fuses := by simp [coalesce]

@[simp] theorem hostWriteOpt_fuses (b : Option (BitVec 64 × List Byte)) :
    (hostWriteOpt m b).hedge.fuses = m.hedge.fuses := by
  cases b <;> rfl

@[simp] theorem retireJob_fuses : (retireJob m tag).hedge.fuses = m.hedge.fuses := by
  unfold retireJob
  split
  · rfl
  · exact foldl_fuses (m := m) fun _ _ => rfl

@[simp] theorem sendCompl_fuses (c : Completion) :
    (sendCompl m i k c).hedge.fuses = m.hedge.fuses := by simp [sendCompl]
@[simp] theorem retireOf_fuses (job : Option Nat) : (retireOf m job).hedge.fuses = m.hedge.fuses := by
  cases job <;> simp [retireOf]

@[simp] theorem completionStep_fuses : (completionStep m i).hedge.fuses = m.hedge.fuses := by
  cases hc : m.quay.compl[i]? with
  | none => simp [completionStep, hc]
  | some c =>
    rw [completionStep_eq hc]
    simp

@[simp] theorem coalTimerStep_fuses : (coalTimerStep m i).hedge.fuses = m.hedge.fuses := by simp [coalTimerStep]
@[simp] theorem quiesceStep_fuses (d3 : Bool) :
    (quiesceStep m d3).hedge.fuses = m.hedge.fuses := by simp [quiesceStep]
@[simp] theorem qrelStep_fuses : (qrelStep m).hedge.fuses = m.hedge.fuses := by simp [qrelStep]
@[simp] theorem idereqStep_fuses (v : Bool) : (idereqStep m v).hedge.fuses = m.hedge.fuses := by simp [idereqStep]
@[simp] theorem lockStep_fuses : (lockStep m).hedge.fuses = m.hedge.fuses := by simp [lockStep]

@[simp] theorem glbKillStep_fuses (cid : Word) : (glbKillStep m tag cid).hedge.fuses = m.hedge.fuses := by
  unfold glbKillStep
  split <;> simp

@[simp] theorem glbHostStep_fuses : (glbHostStep m v).hedge.fuses = m.hedge.fuses := by simp [glbHostStep]
@[simp] theorem glbPcapStep_fuses : (glbPcapStep m v).hedge.fuses = m.hedge.fuses := by simp [glbPcapStep]
@[simp] theorem badAccessStep_fuses (read : Bool) (off : BitVec 25) (bytes : Nat) :
    (badAccessStep m read off bytes).hedge.fuses = m.hedge.fuses := by simp [badAccessStep]

/-! ## Jobs -/

@[simp] theorem startCluster_fuses (j : Job) (h : ClHold) : (startCluster m tag j h).hedge.fuses = m.hedge.fuses := by
  unfold startCluster
  split <;> simp

@[simp] theorem writePool_fuses (p : PoolPlan) :
    (writePool m tag p).hedge.fuses = m.hedge.fuses := by simp [writePool]
@[simp] theorem handPools_fuses (bufs : List (Nat × Nat)) (h : DieHold) :
    (handPools tag bufs h m).hedge.fuses = m.hedge.fuses := by simp [handPools]
@[simp] theorem fillPool_fuses (p : Nat) : (fillPool m die p).hedge.fuses = m.hedge.fuses := by simp [fillPool]
@[simp] theorem fillPools_fuses (h : DieHold) : (fillPools m h).hedge.fuses = m.hedge.fuses := by simp [fillPools]
@[simp] theorem writeCredit_fuses (c : CreditPlan) :
    (writeCredit m tag c).hedge.fuses = m.hedge.fuses := by simp [writeCredit]
@[simp] theorem drawSeeds_fuses (n : Nat) : (drawSeeds m tag n).hedge.fuses = m.hedge.fuses := by simp [drawSeeds]
@[simp] theorem startTables_fuses (j : Job) :
    (startTables m tag j).hedge.fuses = m.hedge.fuses := by simp [startTables]

@[simp] theorem jobStartStep_fuses : (jobStartStep m tag).hedge.fuses = m.hedge.fuses := by
  unfold jobStartStep
  split <;> simp

@[simp] theorem jobFinish_fuses (j : Job) : (jobFinish m tag j).hedge.fuses = m.hedge.fuses := by
  unfold jobFinish
  rw [finishJob_fuses]
  exact (foldl_fuses fun _ _ => onDie_fuses ..).trans (foldl_fuses fun _ _ => onCl_fuses ..)

@[simp] theorem jobFault_fuses (j : Job) (f : Nat × Nat × Nat) :
    (jobFault m tag j f).hedge.fuses = m.hedge.fuses := by simp [jobFault]

@[simp] theorem auditStep_fuses : (auditStep m tag).hedge.fuses = m.hedge.fuses := by
  unfold auditStep
  split
  · rfl
  · split
    · rfl
    · split
      · rfl
      · split
        · rfl
        · split <;> simp

/-! ## Flash and the log -/

@[simp] theorem writeMargin_fuses (h : Hedge) : (writeMargin h).fuses = h.fuses := by simp [writeMargin]
@[simp] theorem readMargin_fuses (b : List Byte) (h : Hedge) :
    (readMargin b h).fuses = h.fuses := by simp [readMargin]
@[simp] theorem logPut_fuses (h : Hedge) (e : LogEvent) (opsec : BitVec 64) :
    (logPut h e opsec).fuses = h.fuses := by simp [logPut]

@[simp] theorem logAppend_fuses (h : Hedge) (e : LogEvent) : (logAppend h e).fuses = h.fuses := by
  unfold logAppend
  rw [logPut_fuses]
  refine foldl_keeps (fun n : Hedge => n.fuses = h.fuses) _ (fun n b hn => (logPut_fuses n _ _).trans hn) _ _ ?_
  rw [ite_fuses]
  exact ite_self _

@[simp] theorem readLog_fuses (h : Hedge) : (readLog h).fuses = h.fuses := by
  unfold readLog
  split <;> simp

/-! ## Parts of the resets that keep the fuses -/

@[simp] theorem resetAllDies_fuses (cold : Bool) :
    (resetAllDies m cold).hedge.fuses = m.hedge.fuses := by simp [resetAllDies]

@[simp] theorem dropUpdate_fuses (h : Hedge) : (dropUpdate h).fuses = h.fuses := by
  unfold dropUpdate
  split <;> simp

@[simp] theorem resetHedge_fuses (h0 : Hedge) : (resetHedge h0).fuses = h0.fuses := by simp [resetHedge]
@[simp] theorem loadImage_fuses (h : Hedge) (slot : Nat) : (loadImage h slot).fuses = h.fuses := by simp [loadImage]

@[simp] theorem coldMargin_fuses (h : Hedge) : (coldMargin h).fuses = h.fuses := by
  unfold coldMargin
  split <;> simp

@[simp] theorem coldIdentity_fuses (h : Hedge) (free : Nat) :
    (coldIdentity h free).fuses = h.fuses := by simp [coldIdentity]
@[simp] theorem endOfService_fuses : (endOfService m).hedge.fuses = m.hedge.fuses := by simp [endOfService]
@[simp] theorem perstDeassertStep_fuses :
    (perstDeassertStep m).hedge.fuses = m.hedge.fuses := by simp [perstDeassertStep]
@[simp] theorem railsDown_fuses (b : Boot) : (railsDown m b).hedge.fuses = m.hedge.fuses := by simp [railsDown]
@[simp] theorem powerFall_fuses : (powerFall m).hedge.fuses = m.hedge.fuses := by simp [powerFall]
@[simp] theorem railToleranceStep_fuses (rail : Nat) :
    (railToleranceStep m rail).hedge.fuses = m.hedge.fuses := by simp [railToleranceStep]
@[simp] theorem countInterrupt_fuses : (countInterrupt m).hedge.fuses = m.hedge.fuses := by simp [countInterrupt]
@[simp] theorem readyStep_fuses : (readyStep m).hedge.fuses = m.hedge.fuses := by simp [readyStep]

@[simp] theorem resetOneDie_fuses : (resetOneDie m d).hedge.fuses = m.hedge.fuses := by
  unfold resetOneDie
  rw [settleFences_fuses, onQuay_hedge]
  dsimp only
  refine (foldl_fuses fun _ _ => ?_).trans ((foldl_fuses fun _ _ => ?_).trans ?_) <;> rfl

@[simp] theorem dieReset_fuses (detail : Nat) :
    (dieReset m d detail).hedge.fuses = m.hedge.fuses := by simp [dieReset]
@[simp] theorem fenceClusters_fuses (cs : List Nat) (detail : Nat) :
    (fenceClusters m cs detail).hedge.fuses = m.hedge.fuses := foldl_fuses (m := m) fun _ _ => rfl
@[simp] theorem engineBlame_fuses (e : Engine) :
    (engineBlame m cl e).hedge.fuses = m.hedge.fuses := by simp [engineBlame]

@[simp] theorem dieResetStep_fuses (cause : DieResetCause) :
    (dieResetStep m d cause).hedge.fuses = m.hedge.fuses := by
  unfold dieResetStep
  split
  · rfl
  · cases cause <;> simp

@[simp] theorem stopRanges_fuses (tag : Option Nat) (spans : List Span) :
    (stopRanges m cl tag spans).hedge.fuses = m.hedge.fuses := by simp [stopRanges]
@[simp] theorem engineResetStep_fuses (e : Engine) :
    (engineResetStep m cl e).hedge.fuses = m.hedge.fuses := by simp [engineResetStep]
@[simp] theorem engineOff_fuses : (engineOff m d).hedge.fuses = m.hedge.fuses := foldl_fuses fun _ _ => rfl

@[simp] theorem streamResetStep_fuses (s : Nat) : (streamResetStep m d s).hedge.fuses = m.hedge.fuses := by
  unfold streamResetStep
  dsimp only
  rw [onDie_hedge, fiOff_fuses, reseed_fuses]
  refine (foldl_fuses fun _ _ => onCl_fuses ..).trans ?_
  rw [engineOff_fuses]
  split
  · rfl
  · exact fenceDests_fuses ..

@[simp] theorem ferryResetStep_fuses : (ferryResetStep m d).hedge.fuses = m.hedge.fuses := by simp [ferryResetStep]

/-! ## RME, power, heat and scratchpad upkeep -/

@[simp] theorem macStep_fuses (mode : Nat) : (macStep m cl mode).hedge.fuses = m.hedge.fuses := by
  unfold macStep
  dsimp only
  split <;> simp

@[simp] theorem openStep_fuses : (openStep m cl).hedge.fuses = m.hedge.fuses := by
  unfold openStep
  dsimp only
  repeat' split
  all_goals simp

@[simp] theorem trailingStep_fuses (block : Nat) : (trailingStep m cl block).hedge.fuses = m.hedge.fuses := by
  unfold trailingStep
  dsimp only
  repeat' split
  all_goals simp

@[simp] theorem quiesceCheckStep_fuses : (quiesceCheckStep m).hedge.fuses = m.hedge.fuses := by
  unfold quiesceCheckStep
  dsimp only
  split
  · rfl
  · split
    · simp
    · exact foldl_fuses (m := m) fun _ _ => rfl

@[simp] theorem setClocks_fuses (on : Bool) : (setClocks m on).hedge.fuses = m.hedge.fuses := by simp [setClocks]
@[simp] theorem idleEntryStep_fuses : (idleEntryStep m).hedge.fuses = m.hedge.fuses := by simp [idleEntryStep]
@[simp] theorem idleExitStep_fuses : (idleExitStep m).hedge.fuses = m.hedge.fuses := by simp [idleExitStep]
@[simp] theorem d3hotStep_fuses : (d3hotStep m).hedge.fuses = m.hedge.fuses := by simp [d3hotStep]

@[simp] theorem restEntryStep_fuses : (restEntryStep m).hedge.fuses = m.hedge.fuses := by
  unfold restEntryStep
  split <;> rfl

@[simp] theorem restExit_fuses : (restExit m).hedge.fuses = m.hedge.fuses := by simp [restExit]
@[simp] theorem aclkStepOf_fuses : (aclkStepOf m d).hedge.fuses = m.hedge.fuses := by simp [aclkStepOf]
@[simp] theorem avsPollStep_fuses (rs : List RailReading) (watts : BitVec 13) :
    (avsPollStep m rs watts).hedge.fuses = m.hedge.fuses := by simp [avsPollStep]
@[simp] theorem powerLevelOf_fuses (up : Bool) (h : Hedge) :
    (powerLevelOf up h).fuses = h.fuses := by simp [powerLevelOf]
@[simp] theorem raiseFault_fuses : (raiseFault m).hedge.fuses = m.hedge.fuses := by simp [raiseFault]
@[simp] theorem refclkMissingStep_fuses :
    (refclkMissingStep m).hedge.fuses = m.hedge.fuses := by simp [refclkMissingStep]
@[simp] theorem aonLossStep_fuses : (aonLossStep m).hedge.fuses = m.hedge.fuses := by simp [aonLossStep]
@[simp] theorem regulatorStep_fuses (rail : Nat) :
    (regulatorStep m rail).hedge.fuses = m.hedge.fuses := by simp [regulatorStep]

@[simp] theorem overrunStep_fuses (e : Engine) : (overrunStep m cl e).hedge.fuses = m.hedge.fuses := by
  unfold overrunStep
  split <;> simp

@[simp] theorem thermalShutdown_fuses (e : LogEvent) :
    (thermalShutdown m e).hedge.fuses = m.hedge.fuses := by simp [thermalShutdown]

@[simp] theorem flushCompl_fuses (n : Nat) :
    ∀ (i : Nat) (m : Module), (flushCompl n i m).hedge.fuses = m.hedge.fuses := by
  induction n with
  | zero => exact fun _ _ => rfl
  | succ n ih => exact fun i m => by simp [flushCompl, ih]

@[simp] theorem tCritStep_fuses (st : Fin 16) : (tCritStep m st).hedge.fuses = m.hedge.fuses := by
  unfold tCritStep
  dsimp only
  split
  · rfl
  · rw [thermalShutdown_fuses, dropJobs_fuses, onStk_hedge, flushCompl_fuses]
    exact foldl_fuses fun _ _ => killJob_fuses ..

@[simp] theorem junctionStep_fuses : (junctionStep m die).hedge.fuses = m.hedge.fuses := by simp [junctionStep]
@[simp] theorem thermtripStep_fuses :
    (thermtripStep m die).hedge.fuses = m.hedge.fuses := by simp [thermtripStep]

@[simp] theorem scrubRewriteStep_fuses : (scrubRewriteStep m cl).hedge.fuses = m.hedge.fuses := by
  unfold scrubRewriteStep
  split <;> simp

@[simp] theorem scrubRowStep_fuses : (scrubRowStep m cl).hedge.fuses = m.hedge.fuses := by
  unfold scrubRowStep
  split <;> simp

@[simp] theorem sliceWipeStep_fuses : (sliceWipeStep m cl).hedge.fuses = m.hedge.fuses := by simp [sliceWipeStep]

/-! ## Margin reviews and the log -/

@[simp] theorem reviewOf_fuses (cause : ReviewCause) (ss : List SentinelSample) :
    (reviewOf m cause ss).hedge.fuses = m.hedge.fuses := by
  unfold reviewOf
  dsimp only
  rw [ite_hedge_fuses, raiseEvt_fuses, raiseEvt_fuses, ite_self]
  refine (foldl_fuses fun _ _ => onDie_fuses ..).trans ?_
  rw [logLater_fuses, writeMargin_fuses]
  exact fenceClusters_fuses ..

@[simp] theorem reviewStep_fuses (cause : ReviewCause) (ss : List SentinelSample) :
    (reviewStep m cause ss).hedge.fuses = m.hedge.fuses := by simp [reviewStep]
@[simp] theorem marchStep_fuses (failing : Bool) :
    (marchStep m cl failing).hedge.fuses = m.hedge.fuses := by simp [marchStep]
@[simp] theorem logWriteStep_fuses (e : LogEvent) :
    (logWriteStep m e).hedge.fuses = m.hedge.fuses := by simp [logWriteStep]
@[simp] theorem heartbeatStep_fuses : (heartbeatStep m).hedge.fuses = m.hedge.fuses := by simp [heartbeatStep]
@[simp] theorem corrStep_fuses (unit count : Word) :
    (corrStep m unit count).hedge.fuses = m.hedge.fuses := by simp [corrStep]
@[simp] theorem reseedHedge_fuses (h : Hedge) : (reseedHedge h).fuses = h.fuses := by simp [reseedHedge]
@[simp] theorem healthStep_fuses : (healthStep m).hedge.fuses = m.hedge.fuses := by simp [healthStep]

/-! ## Public-Key Engine -/

@[simp] theorem pkeBegin_fuses (r : PkeReq) : (pkeBegin m r).hedge.fuses = m.hedge.fuses := by simp [pkeBegin]
@[simp] theorem pkeStart_fuses : (pkeStart m).hedge.fuses = m.hedge.fuses := by simp [pkeStart]
@[simp] theorem pkeRegs_fuses (f : Pke → Pke) : (pkeRegs m f).hedge.fuses = m.hedge.fuses := by simp [pkeRegs]
@[simp] theorem pkeCommand_fuses (opc : BitVec 8) (cls : BitVec 2) (a b c d : BitVec 8) :
    (pkeCommand m opc cls a b c d).hedge.fuses = m.hedge.fuses := by simp [pkeCommand]

@[simp] theorem pkeDoneStep_fuses : (pkeDoneStep m).hedge.fuses = m.hedge.fuses := by
  unfold pkeDoneStep
  split <;> simp
@[simp] theorem pkeWipeStep_fuses : (pkeWipeStep m).hedge.fuses = m.hedge.fuses := congrArg Hedge.fuses (onPke_hedge ..)
@[simp] theorem pkeDmaStart_fuses : (pkeDmaStart m).hedge.fuses = m.hedge.fuses := by simp [pkeDmaStart]

@[simp] theorem pkeDmaDoneStep_fuses : (pkeDmaDoneStep m).hedge.fuses = m.hedge.fuses := by
  unfold pkeDmaDoneStep
  split <;> simp

@[simp] theorem poolStep_fuses : (poolStep m).hedge.fuses = m.hedge.fuses := by
  unfold poolStep
  dsimp only
  repeat' split
  all_goals simp

/-! ## Mailbox and updates -/

@[simp] theorem lcQuiesce_fuses : (lcQuiesce m).hedge.fuses = m.hedge.fuses := by simp [lcQuiesce]
@[simp] theorem wipeMemories_fuses : (wipeMemories m).hedge.fuses = m.hedge.fuses := by simp [wipeMemories]
@[simp] theorem unlockStep_fuses (token : List Byte) :
    (unlockStep m token).hedge.fuses = m.hedge.fuses := by simp [unlockStep]
@[simp] theorem takeBytes_fuses (n : Nat) : (takeBytes m n).2.hedge.fuses = m.hedge.fuses := by simp [takeBytes]

@[simp] theorem mailRun_fuses (opc : Nat) (req : List Byte) :
    (mailRun m opc req).m.hedge.fuses = m.hedge.fuses := by
  unfold mailRun
  dsimp only
  split
  · rfl
  · rfl
  · split <;> split <;> rfl
  · split <;> rfl
  · split <;> simp
  · split <;> rfl
  · rfl

@[simp] theorem mailGo_fuses : (mailGo m).hedge.fuses = m.hedge.fuses := by
  unfold mailGo
  dsimp only
  split
  · rfl
  · rw [onHedge_fuses]
    dsimp only
    split
    · rfl
    · split
      · rfl
      · split
        · rfl
        · exact mailRun_fuses ..

@[simp] theorem mailWrite_fuses (opc : BitVec 8) (req : List Byte) :
    (mailWrite m opc req).hedge.fuses = m.hedge.fuses := by simp [mailWrite]
@[simp] theorem mailCommand_fuses (opc : BitVec 8) (req : List Byte) :
    (mailCommand m opc req).hedge.fuses = m.hedge.fuses := by simp [mailCommand]
@[simp] theorem mailFinish_fuses (x : Mail) : (mailFinish m x).hedge.fuses = m.hedge.fuses := by simp [mailFinish]
@[simp] theorem sensorStep_fuses (n : Nat) : (sensorStep m n).hedge.fuses = m.hedge.fuses := by simp [sensorStep]
@[simp] theorem updateDataStep_fuses (bs : List Byte) :
    (updateDataStep m off bs).hedge.fuses = m.hedge.fuses := by simp [updateDataStep]

@[simp] theorem verifyStep_fuses : (verifyStep m).hedge.fuses = m.hedge.fuses := by
  unfold verifyStep
  split <;> simp

@[simp] theorem activateStep_fuses : (activateStep m).hedge.fuses = m.hedge.fuses := by
  unfold activateStep
  split <;> simp

/-! ## NTE and moduli -/

@[simp] theorem nteStep_fuses (op : Nat) : (nteStep m cl op).hedge.fuses = m.hedge.fuses := by
  unfold nteStep
  dsimp only
  split <;> simp

@[simp] theorem modValidateStep_fuses (w : Word) :
    (modValidateStep m cl i w).hedge.fuses = m.hedge.fuses := by simp [modValidateStep]
@[simp] theorem modDoneStep_fuses : (modDoneStep m cl i).hedge.fuses = m.hedge.fuses := by simp [modDoneStep]

/-! ## Plans -/

@[simp] theorem writeReceipt_fuses (j : Job) (r : Receipt) :
    (writeReceipt m tag j r).hedge.fuses = m.hedge.fuses := by simp [writeReceipt]
@[simp] theorem planReject_fuses (j : Job) (late : Bool) (us : Nat) (fig : Receipt → Receipt) (r : Reject) :
    (planReject m tag j late us fig r).hedge.fuses = m.hedge.fuses := by simp [planReject]
@[simp] theorem planDone_fuses (j : Job) (k : Checked) (hs : List HostTensor)
    (c : PlanChoice) (wait : BitVec 64) (us key flags : Nat) (id : Option Nat) :
    (planDone m tag j k hs c wait us key flags id).hedge.fuses = m.hedge.fuses := by simp [planDone]
@[simp] theorem planReplay_fuses (j : Job) (k : Checked) (hs : List HostTensor)
    (p : CachedPlan) (c : PlanChoice) (key : Nat) :
    (planReplay m tag j k hs p c key).hedge.fuses = m.hedge.fuses := by simp [planReplay]
@[simp] theorem planFresh_fuses (j : Job) (k : Checked) (hs : List HostTensor)
    (c : PlanChoice) (key : Nat) (again : Bool) :
    (planFresh m tag j k hs c key again).hedge.fuses = m.hedge.fuses := by simp [planFresh]
@[simp] theorem planNew_fuses (j : Job) (b : List Byte) (k : Checked)
    (hs : List HostTensor) (c : PlanChoice) (key : Nat) (again : Bool) :
    (planNew m tag j b k hs c key again).hedge.fuses = m.hedge.fuses := by simp [planNew]

@[simp] theorem planValid_fuses (j : Job) (b : List Byte) (k : Checked) (hs : List HostTensor) (c : PlanChoice) :
    (planValid m tag j b k hs c).hedge.fuses = m.hedge.fuses := by
  unfold planValid
  dsimp only
  repeat' split
  all_goals simp

@[simp] theorem planGraph_fuses (j : Job) (b : List Byte) (c : PlanChoice) :
    (planGraph m tag j b c).hedge.fuses = m.hedge.fuses := by
  unfold planGraph
  dsimp only
  repeat' split
  all_goals simp

@[simp] theorem planHand_fuses (j : Job) (b : List Byte) (c : PlanChoice) :
    (planHand m tag j b c).hedge.fuses = m.hedge.fuses := by
  unfold planHand
  dsimp only
  repeat' split
  all_goals simp

@[simp] theorem planStep_fuses (image : List Byte) (c : PlanChoice) :
    (planStep m tag image c).hedge.fuses = m.hedge.fuses := by
  unfold planStep
  split <;> simp

/-! ## Links at fault and fault injection -/

@[simp] theorem shiftNeg_fuses (t : Nat) : (shiftNeg m t).hedge.fuses = m.hedge.fuses := by simp [shiftNeg]

@[simp] theorem settleRetry_fuses (old : Link) (e : LinkEnd) : (settleRetry old m e).hedge.fuses = m.hedge.fuses := by
  unfold settleRetry
  split <;> simp

@[simp] theorem deliver_fuses (e : LinkEnd) (b : List Byte) : (deliver m e b).hedge.fuses = m.hedge.fuses := by
  unfold deliver
  split
  · rfl
  · split <;> simp

@[simp] theorem receiveAt_fuses (e : LinkEnd) (b : List Byte) :
    (receiveAt m e b).hedge.fuses = m.hedge.fuses := by simp [receiveAt]
@[simp] theorem flitReceiveStep_fuses (e : LinkEnd) (b : List Byte) :
    (flitReceiveStep m e b).hedge.fuses = m.hedge.fuses := by simp [flitReceiveStep]

@[simp] theorem linkDead_fuses (e : LinkEnd) : (linkDead m e).hedge.fuses = m.hedge.fuses := by
  unfold linkDead
  split <;> simp

@[simp] theorem exhaustedStep_fuses (e : LinkEnd) :
    (exhaustedStep m e).hedge.fuses = m.hedge.fuses := by simp [exhaustedStep]
@[simp] theorem retrainStep_fuses (e : LinkEnd) (good : Bool) :
    (retrainStep m e good).hedge.fuses = m.hedge.fuses := by simp [retrainStep]

@[simp] theorem fiWrite_fuses (r : FiReg) : (fiWrite m r v).hedge.fuses = m.hedge.fuses := by
  unfold fiWrite
  dsimp only
  repeat' split
  all_goals simp

@[simp] theorem fiLink_fuses (e : LinkEnd) (b next : List Byte) :
    (fiLink m e b next).hedge.fuses = m.hedge.fuses := by
  unfold fiLink
  dsimp only
  repeat' split
  all_goals simp

@[simp] theorem fiScratch_fuses (w : Nat) : (fiScratch m cl w).hedge.fuses = m.hedge.fuses := by simp [fiScratch]
@[simp] theorem fiUnit_fuses : (fiUnit m st off).hedge.fuses = m.hedge.fuses := by simp [fiUnit]

/-! ## Submission and key commands -/

@[simp] theorem jobArrives_fuses (e tab pat : List Byte) (mine : Nat → Bool) :
    (jobArrives m i e tab pat mine).hedge.fuses = m.hedge.fuses := by simp [jobArrives]

@[simp] theorem admitStep_fuses : (admitStep m tag).hedge.fuses = m.hedge.fuses := by
  unfold admitStep
  split <;> simp

@[simp] theorem keyCompletion_fuses (ring : Nat) (cid : Word) (status : BitVec 8) (count : Word) :
    (keyCompletion m ring cid status count).hedge.fuses = m.hedge.fuses := by simp [keyCompletion]
@[simp] theorem storePages_fuses (k : KeySet) (pages : List (List Byte)) :
    (storePages m k pages).hedge.fuses = m.hedge.fuses := by simp [storePages]

@[simp] theorem keyLoadStep_fuses (e man : List Byte) (pages : List (List Byte)) :
    (keyLoadStep m i e man pages).hedge.fuses = m.hedge.fuses := by
  unfold keyLoadStep
  dsimp only
  repeat' split
  all_goals simp

@[simp] theorem keyLoadDoneStep_fuses : (keyLoadDoneStep m i).hedge.fuses = m.hedge.fuses := by
  unfold keyLoadDoneStep
  dsimp only
  repeat' split
  all_goals simp

@[simp] theorem keyUnloadStep_fuses (e : List Byte) :
    (keyUnloadStep m i e).hedge.fuses = m.hedge.fuses := by simp [keyUnloadStep]

@[simp] theorem hostReadErrorStep_fuses (site : HostReadSite) :
    (hostReadErrorStep m site).hedge.fuses = m.hedge.fuses := by
  unfold hostReadErrorStep
  dsimp only
  repeat' split
  all_goals simp

/-! ## Register writes without a reset -/

@[simp] theorem writeHalf_fuses (key : Nat) (upper : Bool) (cur : BitVec 64)
    (f : BitVec 64 → Module → Module) (h : ∀ y n, (f y n).hedge.fuses = n.hedge.fuses) :
    (writeHalf m key upper v cur f).hedge.fuses = m.hedge.fuses := by simp [writeHalf, h]
@[simp] theorem scbCtrlWrite_fuses : (scbCtrlWrite m cl v).hedge.fuses = m.hedge.fuses := by simp [scbCtrlWrite]

@[simp] theorem seqWrite_fuses : (seqWrite m cl off v).hedge.fuses = m.hedge.fuses := by
  unfold seqWrite
  split
  · simp
  · split
    · simp
    · split
      · simp
      · split
        · simp
        · split
          · exact writeHalf_fuses _ _ _ _ _ _ fun _ _ => onCl_fuses ..
          · split <;> simp

@[simp] theorem clWrite_fuses (b : ClBlock) : (clWrite m cl b off v).hedge.fuses = m.hedge.fuses := by
  unfold clWrite
  split <;> simp

@[simp] theorem steWrite_fuses : (steWrite m d off v).hedge.fuses = m.hedge.fuses := by simp [steWrite]

@[simp] theorem ferWrite_fuses : (ferWrite m d off v).hedge.fuses = m.hedge.fuses := by
  unfold ferWrite
  split
  · exact writeHalf_fuses _ _ _ _ _ _ fun _ _ => rfl
  · split <;> simp

@[simp] theorem mscWrite_fuses : (mscWrite m st off v).hedge.fuses = m.hedge.fuses := by simp [mscWrite]

@[simp] theorem dieWrite_fuses (b : DieBlock) : (dieWrite m d b off v).hedge.fuses = m.hedge.fuses := by
  unfold dieWrite
  split <;> simp

@[simp] theorem msixWrite_fuses : (msixWrite m off v).hedge.fuses = m.hedge.fuses := by simp [msixWrite]
@[simp] theorem ringBase_fuses (cq : Bool) (x : BitVec 64) :
    (ringBase m i cq x).hedge.fuses = m.hedge.fuses := by simp [ringBase]
@[simp] theorem ringRegWrite_fuses : (ringRegWrite m off v).hedge.fuses = m.hedge.fuses := by simp [ringRegWrite]
@[simp] theorem hmbWrite_fuses : (hmbWrite m off v).hedge.fuses = m.hedge.fuses := by simp [hmbWrite]
@[simp] theorem pkeWrite_fuses : (pkeWrite m off v).hedge.fuses = m.hedge.fuses := by simp [pkeWrite]

/-! ## Landing points and replays -/

@[simp] theorem copyObject_fuses (sets : List CustomSet) (p : CopyPlan) :
    (copyObject m sets p).hedge.fuses = m.hedge.fuses := by
  unfold copyObject
  dsimp only
  split <;> simp

@[simp] theorem saveRows_fuses (s : RowSave) : (saveRows m s).hedge.fuses = m.hedge.fuses := by simp [saveRows]
@[simp] theorem saveRoles_fuses (j : Job) (r : Nat × Nat) :
    (saveRoles j m r).hedge.fuses = m.hedge.fuses := by simp [saveRoles]

@[simp] theorem auditLive_fuses (j : Job) : (auditLive m tag j).hedge.fuses = m.hedge.fuses := by
  unfold auditLive
  split
  · rfl
  · refine foldl_fuses fun n g => ?_
    split
    · split <;> next hparts => simp [fuses_of_auditParts hparts]
    · rfl

@[simp] theorem landingStep_fuses : (landingStep m tag).hedge.fuses = m.hedge.fuses := by
  unfold landingStep
  dsimp only
  repeat' split
  all_goals simp

@[simp] theorem restartJob_fuses (j : Job) : (restartJob m tag j).hedge.fuses = m.hedge.fuses := by
  unfold restartJob
  refine (foldl_fuses fun _ _ => fillPools_fuses ..).trans ((foldl_fuses fun _ _ => writeCredit_fuses ..).trans ?_)
  exact (foldl_fuses fun _ _ => onDie_fuses ..).trans (foldl_fuses fun _ _ => onCl_fuses ..)

@[simp] theorem restoreJob_fuses (j : Job) (p : LandingPoint) :
    (restoreJob m tag j p).hedge.fuses = m.hedge.fuses := by
  unfold restoreJob
  exact (foldl_fuses fun _ _ => onDie_fuses ..).trans (foldl_fuses fun _ _ => onCl_fuses ..)

@[simp] theorem seeCopy_fuses (p : LandingPoint) : (seeCopy tag m p).hedge.fuses = m.hedge.fuses := by simp [seeCopy]
@[simp] theorem restoreUnc_fuses (u : LostUnit) :
    (restoreUnc tag m u).hedge.fuses = m.hedge.fuses := by simp [restoreUnc]
@[simp] theorem zeroLost_fuses (u : LostUnit) : (zeroLost m u).hedge.fuses = m.hedge.fuses := by simp [zeroLost]
@[simp] theorem countReplay_fuses : (countReplay m tag).hedge.fuses = m.hedge.fuses := by simp [countReplay]

@[simp] theorem replayStep_fuses (cause : ReplayCause) (lost : List LostUnit) :
    (replayStep m tag cause lost).hedge.fuses = m.hedge.fuses := by
  unfold replayStep
  dsimp only
  repeat' split
  all_goals simp

/-! ## SPDM and DOE -/

@[simp] theorem onSpdm_fuses (f : Spdm → Spdm) : (onSpdm m f).hedge.fuses = m.hedge.fuses := by simp [onSpdm]
@[simp] theorem spdmReply_fuses (code : Nat) (body : List Byte) :
    (spdmReply m code body).hedge.fuses = m.hedge.fuses := by simp [spdmReply]
@[simp] theorem spdmFail_fuses (e : Nat) : (spdmFail m e).hedge.fuses = m.hedge.fuses := by simp [spdmFail]
@[simp] theorem spdmServe_fuses (f : Module → Module) (h : ∀ n, (f n).hedge.fuses = n.hedge.fuses) :
    (spdmServe m f).hedge.fuses = m.hedge.fuses := by simp [spdmServe, h]
@[simp] theorem spdmWhen_fuses (c : Bool) (f : Module → Module) (h : ∀ n, (f n).hedge.fuses = n.hedge.fuses) :
    (spdmWhen m c f).hedge.fuses = m.hedge.fuses := by simp [spdmWhen, h]
@[simp] theorem spdmDraw_fuses : (spdmDraw m).2.hedge.fuses = m.hedge.fuses := by simp [spdmDraw]
@[simp] theorem spdmVersionStep_fuses : (spdmVersionStep m).hedge.fuses = m.hedge.fuses := by simp [spdmVersionStep]
@[simp] theorem spdmCapsStep_fuses (flags : Word) :
    (spdmCapsStep m flags).hedge.fuses = m.hedge.fuses := by simp [spdmCapsStep]
@[simp] theorem spdmAlgsStep_fuses (algs : Word) :
    (spdmAlgsStep m algs).hedge.fuses = m.hedge.fuses := by simp [spdmAlgsStep]
@[simp] theorem spdmDigestsStep_fuses : (spdmDigestsStep m).hedge.fuses = m.hedge.fuses := by simp [spdmDigestsStep]
@[simp] theorem spdmCertStep_fuses (slot : BitVec 8) (off len : BitVec 16) :
    (spdmCertStep m slot off len).hedge.fuses = m.hedge.fuses := by simp [spdmCertStep]
@[simp] theorem spdmChallengeStep_fuses (slot : BitVec 8) (nonce : List Byte) :
    (spdmChallengeStep m slot nonce).hedge.fuses = m.hedge.fuses := by simp [spdmChallengeStep]

@[simp] theorem spdmMeasStep_fuses (signed : Bool) (index : BitVec 8) (nonce : List Byte) :
    (spdmMeasStep m signed index nonce).hedge.fuses = m.hedge.fuses := by
  unfold spdmMeasStep
  split <;> simp

@[simp] theorem spdmKexStep_fuses (share : List Byte) :
    (spdmKexStep m share).hedge.fuses = m.hedge.fuses := by simp [spdmKexStep]
@[simp] theorem spdmFinishStep_fuses (good : Bool) :
    (spdmFinishStep m good).hedge.fuses = m.hedge.fuses := by simp [spdmFinishStep]

@[simp] theorem ideStep_fuses (stream : Nat) (op : IdeOp) : (ideStep m stream op).hedge.fuses = m.hedge.fuses := by
  refine spdmWhen_fuses _ _ _ (fun n => ?_)
  split <;> simp

@[simp] theorem doeStep_fuses (index : BitVec 8) : (doeStep m index).hedge.fuses = m.hedge.fuses := by simp [doeStep]

/-! ## Transfers -/

@[simp] theorem auditEgress_fuses (slot plen : Nat) (hb : List Byte) :
    (auditEgress m tag cl slot plen hb).1.hedge.fuses = m.hedge.fuses := by
  unfold auditEgress
  dsimp only
  repeat' split
  all_goals simp

@[simp] theorem noteIngest_fuses (v : Move) (units : List (List Word))
    (walk : List (Bool × Int)) (objs : List Moved) :
    (noteIngest tag v units walk objs m).hedge.fuses = m.hedge.fuses := by simp [noteIngest]

@[simp] theorem egressObj_fuses (v : Move) (inb : Bool) (addr : Nat) (o : Moved) (hslot : Nat) :
    (egressObj m tag v k inb addr o hslot).1.hedge.fuses = m.hedge.fuses := by
  unfold egressObj
  dsimp only
  split <;> simp

@[simp] theorem countMove_fuses (oob clip : Nat) (objs : List Moved) :
    (countMove m die tag oob clip objs).hedge.fuses = m.hedge.fuses := by simp [countMove]

@[simp] theorem noteReplica_fuses (v : Move) : (noteReplica m v).hedge.fuses = m.hedge.fuses := by
  unfold noteReplica
  dsimp only
  repeat' split
  all_goals simp

@[simp] theorem putHeaders_fuses (v : Move) (hslot : Nat) (objs : List Moved) (walk : List (Bool × Int)) :
    (putHeaders m cl tag v hslot objs walk).hedge.fuses = m.hedge.fuses := by simp [putHeaders]

theorem egressAll_fuses (tag : Nat) (v : Move) (hslot : Nat) :
    ∀ (os : List Moved) (ws : List (Bool × Int)) (k : Nat) (m : Module),
      (egressAll tag v hslot m k ws os).1.hedge.fuses = m.hedge.fuses := by
  intro os
  induction os with
  | nil => intro ws k m; cases ws <;> rfl
  | cons o os ih =>
    intro ws k m
    cases ws with
    | nil => rfl
    | cons w ws =>
      obtain ⟨inb, a⟩ := w
      simp [egressAll, ih]

theorem egressed_fuses (obj : Bool) (tag : Nat) (v : Move) (hslot : Nat) (ws : List (Bool × Int))
    (os os0 : List Moved) :
    (if obj then egressAll tag v hslot m 0 ws os else (m, os0)).1.hedge.fuses = m.hedge.fuses := by
  split
  · exact egressAll_fuses ..
  · rfl

@[simp] theorem moveStep_fuses (s : Nat) (st : Stream) (v : Move) (host : List Word) :
    (moveStep m die s st v host).hedge.fuses = m.hedge.fuses := by
  unfold moveStep
  extract_lets tag hslot rix sw dw us units bad objs0 m1 words badElts plen dObjs
  have hm1 : m1.hedge.fuses = m.hedge.fuses := by simp [m1]
  have hegress := egressed_fuses m1 v.dst.obj tag v hslot dw dObjs objs0
  split
  next m2 outs hout =>
  rw [hout] at hegress
  have hm2 : m2.hedge.fuses = m.hedge.fuses := hegress.trans hm1
  extract_lets written sent m3 m4 m5 m6 m7 m8
  simp only [onSte_fuses, m8, bankSlips_fuses, noteReplica_fuses, m7, ite_hedge_fuses, onJob_hedge, ite_self, m6,
    countMove_fuses, m5, onCl_hedge, m4, putHeaders_fuses, markLost_fuses, m3, writeWords_fuses, crossPath_fuses,
    hm2]

@[simp] theorem releaseOp_fuses (opid : Nat) :
    (releaseOp m cl opid).hedge.fuses = m.hedge.fuses := by simp [releaseOp]

@[simp] theorem transferStep_fuses (s : Nat) (host : List Word) :
    (transferStep m die s host).hedge.fuses = m.hedge.fuses := by
  unfold transferStep
  dsimp only
  repeat' split
  all_goals simp

@[simp] theorem boundaryStep_fuses (s : Nat) : (boundaryStep m die s).hedge.fuses = m.hedge.fuses := by
  unfold boundaryStep
  dsimp only
  repeat' split
  all_goals simp

@[simp] theorem vecStep_fuses : (vecStep m cl).hedge.fuses = m.hedge.fuses := by
  unfold vecStep
  dsimp only
  split <;> simp

/-! ## Operations at several sites, and the a-cycle that passes -/

@[simp] theorem resetUnit_fuses (u : ResetUnit) : (resetUnit m u).hedge.fuses = m.hedge.fuses := by
  cases u <;> simp [resetUnit]

@[simp] theorem fiStep_fuses (site : FiSite) : (fiStep m site).hedge.fuses = m.hedge.fuses := by
  cases site <;> simp [fiStep]

@[simp] theorem recoverBoot_fuses : (recoverBoot m).hedge.fuses = m.hedge.fuses := by simp [recoverBoot]

end

/-! ## Bits that are only set -/

section
variable {w : Nat} {x y z : BitVec w}

/-- `x &&& y = x` says that every bit of `x` is set in `y`. -/
theorem and_eq_left_trans (hxy : x &&& y = x) (hyz : y &&& z = y) : x &&& z = x := by
  rw [← hxy, BitVec.and_assoc, hyz]

theorem and_or_eq_left (x y : BitVec w) : x &&& (x ||| y) = x := by
  ext i hi
  simp +contextual

theorem and_foldl_eq_left {α : Type} {f : BitVec w → α → BitVec w} (hf : ∀ x a, x &&& f x a = x) (l : List α)
    (x : BitVec w) : x &&& l.foldl f x = x :=
  foldl_keeps (fun y => x &&& y = x) f (fun y a hy => and_eq_left_trans hy (hf y a)) l x BitVec.and_self

end

theorem fusesWithin_refl (f : Fuses) : FusesWithin f f :=
  ⟨BitVec.and_self, BitVec.and_self, BitVec.and_self, fun _ => BitVec.and_self, BitVec.and_self, BitVec.and_self,
    BitVec.and_self⟩

theorem fusesWithin_trans {f g h : Fuses} (hfg : FusesWithin f g) (hgh : FusesWithin g h) : FusesWithin f h := by
  obtain ⟨serial, vendor, uds, keyhash, revoke, svn, lcs⟩ := hfg
  obtain ⟨serial', vendor', uds', keyhash', revoke', svn', lcs'⟩ := hgh
  exact ⟨and_eq_left_trans serial serial', and_eq_left_trans vendor vendor', and_eq_left_trans uds uds',
    fun k => and_eq_left_trans (keyhash k) (keyhash' k), and_eq_left_trans revoke revoke', and_eq_left_trans svn svn',
    and_eq_left_trans lcs lcs'⟩

theorem fusesWithin_lcs {f : Fuses} {v : BitVec 8} (h : f.lcs &&& v = f.lcs) : FusesWithin f { f with lcs := v } := by
  obtain ⟨serial, vendor, uds, keyhash, revoke, svn, _⟩ := fusesWithin_refl f
  exact ⟨serial, vendor, uds, keyhash, revoke, svn, h⟩

theorem fusesWithin_svn {f : Fuses} {v : BitVec 64} (h : f.svn &&& v = f.svn) : FusesWithin f { f with svn := v } := by
  obtain ⟨serial, vendor, uds, keyhash, revoke, _, lcs⟩ := fusesWithin_refl f
  exact ⟨serial, vendor, uds, keyhash, revoke, h, lcs⟩

theorem fusesWithin_revoke {f : Fuses} {v : BitVec 8} (h : f.revoke &&& v = f.revoke) :
    FusesWithin f { f with revoke := v } := by
  obtain ⟨serial, vendor, uds, keyhash, _, svn, lcs⟩ := fusesWithin_refl f
  exact ⟨serial, vendor, uds, keyhash, h, svn, lcs⟩

theorem fusesWithin_uds {f : Fuses} {v : BitVec 256} (h : f.uds &&& v = f.uds) : FusesWithin f { f with uds := v } := by
  obtain ⟨serial, vendor, _, keyhash, revoke, svn, lcs⟩ := fusesWithin_refl f
  exact ⟨serial, vendor, h, keyhash, revoke, svn, lcs⟩

theorem completePairs_fusesWithin (f : Fuses) : FusesWithin f (completePairs f) := by
  refine fusesWithin_lcs (and_foldl_eq_left (fun x p => ?_) _ _)
  split
  · exact and_or_eq_left ..
  · exact BitVec.and_self

theorem burnSvn_fusesWithin (n : Nat) (f : Fuses) : FusesWithin f (burnSvn n f) := by
  refine fusesWithin_svn (and_foldl_eq_left (fun x i => ?_) _ _)
  split
  · exact BitVec.and_self
  · exact and_or_eq_left ..

theorem burnImage_fusesWithin (h : Hedge) : FusesWithin h.fuses (burnImage h).fuses := by
  refine fusesWithin_trans (fusesWithin_revoke (and_foldl_eq_left (fun x i => ?_) _ _)) (burnSvn_fusesWithin _ _)
  split
  · exact and_or_eq_left ..
  · exact BitVec.and_self

theorem burnLcs_fusesWithin (target : Nat) (f : Fuses) : FusesWithin f (burnLcs target f) := by
  refine fusesWithin_trans (fusesWithin_lcs (and_or_eq_left ..)) (fusesWithin_uds ?_)
  split
  · exact BitVec.and_allOnes
  · exact BitVec.and_self

/-! ## Fuses of a module -/

/-- Every fuse that is set in module `a` is set in module `b`. -/
def FusesGrow (a b : Module) : Prop := FusesWithin a.hedge.fuses b.hedge.fuses

theorem FusesGrow.of_eq {a b : Module} (h : b.hedge.fuses = a.hedge.fuses) : FusesGrow a b := by
  unfold FusesGrow
  rw [h]
  exact fusesWithin_refl _

theorem FusesGrow.refl {a : Module} : FusesGrow a a := .of_eq rfl

theorem FusesGrow.trans {a b c : Module} (hab : FusesGrow a b) (hbc : FusesGrow b c) : FusesGrow a c :=
  fusesWithin_trans hab hbc

/-- An operation applied after one that keeps the fuses. -/
theorem FusesGrow.after_eq {a b c : Module} (hbc : FusesGrow b c) (h : b.hedge.fuses = a.hedge.fuses) : FusesGrow a c :=
  (FusesGrow.of_eq h).trans hbc

theorem FusesGrow.ite {a b c : Module} {p : Prop} [Decidable p] (hb : FusesGrow a b) (hc : FusesGrow a c) :
    FusesGrow a (if p then b else c) := by
  split <;> assumption

/-! ## Resets -/

/-- The fuses after the boot of an image are those that R594 leaves. -/
theorem bootImage_fuses (m : Module) (slot : Nat) : (bootImage m slot).hedge.fuses =
    (burnImage (readLog (coldMargin (loadImage m.hedge slot)))).fuses := by
  simp [bootImage]

theorem bootImage_fusesGrow (m : Module) (slot : Nat) : FusesGrow m (bootImage m slot) := by
  have h := burnImage_fusesWithin (readLog (coldMargin (loadImage m.hedge slot)))
  rw [readLog_fuses, coldMargin_fuses, loadImage_fuses] at h
  unfold FusesGrow
  rw [bootImage_fuses]
  exact h

theorem coldFuses_fusesWithin (h : Hedge) : FusesWithin h.fuses (coldFuses h).fuses := completePairs_fusesWithin h.fuses

theorem coldStart_fusesGrow (m : Module) : FusesGrow m (coldStart m) := by
  unfold coldStart
  extract_lets h
  split
  extract_lets m1
  have hm1 : FusesGrow m m1 := coldFuses_fusesWithin m.hedge
  split
  · exact hm1.trans (bootImage_fusesGrow ..)
  · exact hm1.trans (.of_eq (recoverBoot_fuses ..))

theorem coldReset_fusesGrow (m : Module) (perst : Bool) : FusesGrow m (coldReset m perst) := by
  unfold coldReset
  exact (coldStart_fusesGrow _).after_eq (resetHedge_fuses m.hedge)

theorem coldResetStep_fusesGrow (m : Module) (perst : Bool) : FusesGrow m (coldResetStep m perst) :=
  .ite (coldReset_fusesGrow ..) .refl

theorem powerOn_fusesGrow (m : Module) : FusesGrow m (powerOn m) := by
  unfold powerOn
  exact (coldStart_fusesGrow _).after_eq rfl

theorem warmReset_fusesGrow (m : Module) (linkUp : Bool) : FusesGrow m (warmReset m linkUp) := by
  unfold warmReset
  extract_lets m0 m1 evs m2 h2
  have hm1 : m1.hedge.fuses = m.hedge.fuses := resetHedge_fuses m.hedge
  have hm2 : m2.hedge.fuses = m1.hedge.fuses := resetAllDies_fuses m1 false
  refine .ite (.of_eq hm1) (.ite ?_ (.of_eq (hm2.trans hm1)))
  exact ((coldReset_fusesGrow ..).trans (.of_eq (countInterrupt_fuses _))).after_eq hm1

theorem warmResetStep_fusesGrow (m : Module) (linkUp : Bool) : FusesGrow m (warmResetStep m linkUp) :=
  .ite (warmReset_fusesGrow ..) .refl

theorem wresetStep_fusesGrow (m : Module) (v : BitVec 8) : FusesGrow m (wresetStep m v) :=
  .ite (warmResetStep_fusesGrow ..) .refl

theorem dlDownStep_fusesGrow (m : Module) : FusesGrow m (dlDownStep m) := by
  unfold dlDownStep
  exact (warmResetStep_fusesGrow ..).after_eq rfl

theorem d0Step_fusesGrow (m : Module) : FusesGrow m (d0Step m) := by
  unfold d0Step
  refine .ite .refl (.ite ?_ (.of_eq (restExit_fuses _)))
  exact ((coldReset_fusesGrow ..).trans (.of_eq (countInterrupt_fuses _))).after_eq rfl

theorem refclkStableStep_fusesGrow (m : Module) : FusesGrow m (refclkStableStep m) := by
  unfold refclkStableStep
  exact .ite .refl ((coldResetStep_fusesGrow ..).after_eq rfl)

theorem firmwareWatchdogStep_fusesGrow (m : Module) : FusesGrow m (firmwareWatchdogStep m) := by
  unfold firmwareWatchdogStep
  exact .ite ((warmResetStep_fusesGrow ..).after_eq rfl) .refl

theorem plannerWatchdogStep_fusesGrow (m : Module) : FusesGrow m (plannerWatchdogStep m) := by
  unfold plannerWatchdogStep
  exact .ite ((warmResetStep_fusesGrow ..).after_eq rfl) .refl

theorem lifecycleStep_fusesGrow (m : Module) : FusesGrow m (lifecycleStep m) := by
  unfold lifecycleStep
  split
  next t _ =>
    refine .ite .refl (FusesGrow.trans ?_ (coldReset_fusesGrow ..))
    have hburn := burnLcs_fusesWithin t (wipeMemories m).hedge.fuses
    rw [wipeMemories_fuses] at hburn
    unfold FusesGrow
    rw [onHedge_fuses, wipeMemories_fuses]
    exact hburn
  next => exact .refl

theorem mailDoneStep_fusesGrow (m : Module) : FusesGrow m (mailDoneStep m) := by
  unfold mailDoneStep
  split
  · exact .refl
  next x _ =>
    have hfin := mailFinish_fuses m x
    exact .ite ((warmResetStep_fusesGrow ..).after_eq hfin) (.ite (.of_eq ((lcQuiesce_fuses _).trans hfin)) (.of_eq hfin))

/-! ## Register writes -/

theorem bar0_fusesGrow (m : Module) {f : Module → Module} (h : ∀ n, FusesGrow n (f n)) : FusesGrow m (bar0 m f) := by
  unfold bar0
  exact .ite .refl (.ite (.of_eq rfl) (h m))

theorem glbCtrlWrite_fusesGrow (m : Module) (v : Word) : FusesGrow m (glbCtrlWrite m v) := by
  unfold glbCtrlWrite
  extract_lets n m1 m2 m3
  have h3 : m3.hedge.fuses = m.hedge.fuses := by simp [m3, m2, m1]
  exact (FusesGrow.of_eq h3).trans (wresetStep_fusesGrow ..)

theorem glbWrite_fusesGrow (m : Module) (off : Nat) (v : Word) : FusesGrow m (glbWrite m off v) :=
  .ite (glbCtrlWrite_fusesGrow ..) (.of_eq (by simp))

theorem bar0Word_fusesGrow (m : Module) (off : Nat) (v : Word) : FusesGrow m (bar0Word m off v) :=
  .ite (glbWrite_fusesGrow ..) (.of_eq (by simp))

theorem regWord_fusesGrow (m : Module) (t : RegTarget) (off : Nat) (v : Word) : FusesGrow m (regWord m t off v) := by
  cases t with
  | bar0 => exact bar0Word_fusesGrow ..
  | cluster cl b => exact .of_eq (clWrite_fuses ..)
  | die d b => exact .of_eq (dieWrite_fuses ..)
  | pke => exact .of_eq (pkeWrite_fuses ..)

theorem regWrite_fusesGrow (m : Module) (t : RegTarget) (off : Nat) (wide : Bool) (v : BitVec 64) :
    FusesGrow m (regWrite m t off wide v) :=
  .ite .refl (.ite ((regWord_fusesGrow ..).trans (regWord_fusesGrow ..)) (regWord_fusesGrow ..))

theorem registerWriteStep_fusesGrow (m : Module) (t : RegTarget) (off : Nat) (wide : Bool) (v : BitVec 64) :
    FusesGrow m (registerWriteStep m t off wide v) := by
  cases t with
  | bar0 => exact bar0_fusesGrow m fun n => .ite (.of_eq rfl) (regWrite_fusesGrow ..)
  | cluster cl b => exact .ite (regWrite_fusesGrow ..) .refl
  | die d b => exact .ite (regWrite_fusesGrow ..) .refl
  | pke => exact .ite (regWrite_fusesGrow ..) .refl

theorem jtagStep_fusesGrow (m : Module) (die : Nat) (op : JtagOp) : FusesGrow m (jtagStep m die op) := by
  cases op with
  | writeReg t off wide v => exact .ite (regWrite_fusesGrow m ..) .refl
  | readReg t off => exact .refl
  | readScratch cl w => exact .refl
  | writeScratch cl w v => exact .ite .refl .refl
  | readUds => exact .refl
  | writeIdentity off bs => exact .ite .refl .refl

/-! ## Commands -/

/-- Every command answers a next state, with the commands that wait unchanged, and clears no fuse. -/
theorem exec_fusesGrow (c : Instr) (s : State) : ∃ n, exec c s = .next { s with m := n } ∧ FusesGrow s.m n := by
  cases c
  case coldReset => exact ⟨_, rfl, coldResetStep_fusesGrow ..⟩
  case perstAssert => exact ⟨_, rfl, (coldResetStep_fusesGrow ..).trans (.of_eq (onHedge_fuses ..))⟩
  case pwrgdRise => exact ⟨_, rfl, powerOn_fusesGrow ..⟩
  case warmReset => exact ⟨_, rfl, warmResetStep_fusesGrow ..⟩
  case wreset v => exact ⟨_, rfl, bar0_fusesGrow _ fun n => wresetStep_fusesGrow n v⟩
  case flr => exact ⟨_, rfl, warmResetStep_fusesGrow ..⟩
  case dlDown => exact ⟨_, rfl, dlDownStep_fusesGrow ..⟩
  case hotReset => exact ⟨_, rfl, warmResetStep_fusesGrow ..⟩
  case d0 => exact ⟨_, rfl, d0Step_fusesGrow ..⟩
  case refclkStable => exact ⟨_, rfl, refclkStableStep_fusesGrow ..⟩
  case firmwareWatchdog => exact ⟨_, rfl, firmwareWatchdogStep_fusesGrow ..⟩
  case plannerWatchdog => exact ⟨_, rfl, plannerWatchdogStep_fusesGrow ..⟩
  case lifecycleTransition => exact ⟨_, rfl, lifecycleStep_fusesGrow ..⟩
  case mailboxDone => exact ⟨_, rfl, mailDoneStep_fusesGrow ..⟩
  case registerWrite => exact ⟨_, rfl, registerWriteStep_fusesGrow ..⟩
  case jtagAccess => exact ⟨_, rfl, jtagStep_fusesGrow ..⟩
  -- every other command keeps the fuses, by the lemma of its step
  all_goals exact ⟨_, rfl, .of_eq (by simp)⟩

/-- Settles O59: a step is an a-cycle that passes, which keeps the fuses, or a command, by `exec_fusesGrow`. -/
theorem fusesOnlySet : Obligations.FusesOnlySet := by
  unfold Obligations.FusesOnlySet
  intro s t hstep
  unfold step at hstep
  split at hstep
  · cases hstep
    exact FusesGrow.of_eq (tick_fuses s.m)
  next c rest _ =>
    obtain ⟨n, hexec, hgrow⟩ := exec_fusesGrow c { s with pending := rest }
    rw [hexec] at hstep
    cases hstep
    exact hgrow

end Sys2Proof.Machine
end

section
/-! PROOFS. The transforms of R171 undo one another (*NTT*): a power modulo q by squaring is the power, each butterfly and its inverse
double the words they meet, and the factor of INV is the inverse of the doublings. -/
namespace Sys2Proof.Machine
open Sys2Proof

/-! ## Powers modulo q -/

/-- Squaring with enough fuel gives the power. -/
theorem powModF_eq (q : Nat) : ∀ f b e, e < 2 ^ f → powModF q f b e = b ^ e % q
  | 0, b, e, h => by
    obtain rfl : e = 0 := by omega
    rfl
  | f + 1, b, e, h => by
    have half : powModF q f (b * b % q) (e / 2) = (b * b) ^ (e / 2) % q := by
      rw [powModF_eq q f _ _ (by omega), ← Nat.pow_mod]
    have square : (b * b) ^ (e / 2) = b ^ (2 * (e / 2)) := by rw [pow_mul, sq]
    unfold powModF
    dsimp only
    rw [half, square]
    split
    · next odd =>
      rw [Nat.mod_mul_mod, ← pow_succ, show 2 * (e / 2) + 1 = e by omega]
    · next even => rw [show 2 * (e / 2) = e by omega]

theorem powMod_eq (q b e : Nat) : powMod q b e = b ^ e % q := by
  rw [powMod, powModF_eq q _ _ _ Nat.lt_log2_self, ← Nat.pow_mod]

/-- Powers of inverses are inverses. -/
theorem powMod_inverse {q a b : Nat} (h : a * b % q = 1) (hq : 1 < q) (e : Nat) :
    powMod q a e * powMod q b e % q = 1 := by
  rw [powMod_eq, powMod_eq, ← Nat.mul_mod, ← mul_pow, Nat.pow_mod, h, one_pow, Nat.mod_eq_of_lt hq]

/-! ## One butterfly and its inverse -/

section
variable {q l h : Nat} (c : Nat)

/-- The sum of a butterfly's two outputs is twice its lower input. -/
theorem butterfly_sum (hh : h < q) :
    (c * ((l + h) % q) % q + c * ((l + q - h) % q) % q) % q = 2 * c * l % q := by
  rw [← ZMod.natCast_eq_natCast_iff']
  push_cast [ZMod.natCast_mod, Nat.cast_sub (show h ≤ l + q by omega), ZMod.natCast_self]
  ring

/-- Their difference, times the inverse of the twiddle factor, is twice its upper input. -/
theorem butterfly_diff {w v x : Nat} (hq : 1 < q) (hw : w * v % q = 1) :
    (c * ((l + x * w % q) % q) % q + q - c * ((l + q - x * w % q) % q) % q) % q * v % q = 2 * c * x % q := by
  have hh : x * w % q < q := Nat.mod_lt _ (by omega)
  have hc : c * ((l + q - x * w % q) % q) % q < q := Nat.mod_lt _ (by omega)
  have one : (w : ZMod q) * v = 1 := by
    have := congrArg (Nat.cast : Nat → ZMod q) hw
    rwa [ZMod.natCast_mod, Nat.cast_mul, Nat.cast_one] at this
  rw [← ZMod.natCast_eq_natCast_iff']
  push_cast [ZMod.natCast_mod, Nat.cast_sub (show x * w % q ≤ l + q by omega), ZMod.natCast_self,
    Nat.cast_sub (show c * ((l + q - x * w % q) % q) % q ≤ c * ((l + x * w % q) % q) % q + q by omega)]
  linear_combination (2 * (c : ZMod q) * x) * one

end

/-! ## Blocks -/

theorem fwdBlock_length (q psi logn : Nat) : ∀ k i (a : List Nat), a.length = 2 ^ k →
    (fwdBlock q psi logn k i a).length = 2 ^ k
  | 0, _, a, h => h
  | k + 1, i, a, h => by
    have hk : a.length = 2 ^ k + 2 ^ k := by rw [h, pow_succ]; omega
    unfold fwdBlock
    dsimp only
    rw [List.length_append, fwdBlock_length q psi logn k, fwdBlock_length q psi logn k, pow_succ]
    · omega
    all_goals simp [hk]

/-- A block that is transformed and transformed back holds 2^k times its words. -/
theorem invBlock_fwdBlock {q psi psiInv logn : Nat} (hq : 1 < q) (hpsi : psi * psiInv % q = 1) :
    ∀ k i (a : List Nat), a.length = 2 ^ k → (∀ x ∈ a, x < q) →
      invBlock q psiInv logn k i (fwdBlock q psi logn k i a) = a.map (fun x => 2 ^ k * x % q)
  | 0, i, a, _, ha => by
    show a = a.map _
    conv_lhs => rw [← List.map_id a]
    exact List.map_congr_left fun x hx => by simp [Nat.mod_eq_of_lt (ha x hx)]
  | k + 1, i, a, h, ha => by
    have below : ∀ n, n % q < q := fun n => Nat.mod_lt _ (by omega)
    have hk : a.length = 2 ^ k + 2 ^ k := by rw [h, pow_succ]; omega
    let w := powMod q psi (brv logn i)
    let lo := a.take (2 ^ k)
    let hi := (a.drop (2 ^ k)).map (fun x => x * w % q)
    let sums := List.zipWith (fun u v => (u + v) % q) lo hi
    let diffs := List.zipWith (fun u v => (u + q - v) % q) lo hi
    have hlo : lo.length = 2 ^ k := by simp [lo, hk]
    have hhi : hi.length = 2 ^ k := by simp [hi, hk]
    have hs : sums.length = 2 ^ k := by simp [sums, hlo, hhi]
    have hd : diffs.length = 2 ^ k := by simp [diffs, hlo, hhi]
    have ihs := invBlock_fwdBlock (psi := psi) (logn := logn) hq hpsi k (2 * i) sums hs (by
      intro x hx
      obtain ⟨n, hn, rfl⟩ := List.getElem_of_mem hx
      simp only [sums, List.getElem_zipWith]
      exact below _)
    have ihd := invBlock_fwdBlock (psi := psi) (logn := logn) hq hpsi k (2 * i + 1) diffs hd (by
      intro x hx
      obtain ⟨n, hn, rfl⟩ := List.getElem_of_mem hx
      simp only [diffs, List.getElem_zipWith]
      exact below _)
    have hfs := fwdBlock_length q psi logn k (2 * i) sums hs
    have hf : fwdBlock q psi logn (k + 1) i a = fwdBlock q psi logn k (2 * i) sums ++ fwdBlock q psi logn k (2 * i + 1) diffs := rfl
    have hw : w * powMod q psiInv (brv logn i) % q = 1 := powMod_inverse hpsi hq _
    rw [hf]
    unfold invBlock
    dsimp only
    rw [List.take_left' hfs, List.drop_left' hfs, ihs, ihd]
    apply List.ext_getElem
    · simp [hs, hd, hk]
    intro n h1 h2
    have hn : n < 2 ^ k + 2 ^ k := by simpa [hk] using h2
    by_cases hlt : n < 2 ^ k
    · rw [List.getElem_append_left (by simpa [hs, hd] using hlt)]
      simp only [List.getElem_zipWith, List.getElem_map, sums, diffs, lo, hi, List.getElem_take, List.getElem_drop]
      rw [butterfly_sum _ (below _), show 2 * 2 ^ k = 2 ^ (k + 1) from (pow_succ' 2 k).symm]
    · rw [List.getElem_append_right (by simpa [hs, hd] using hlt)]
      simp only [List.getElem_zipWith, List.getElem_map, sums, diffs, lo, hi, List.getElem_take, List.getElem_drop,
        List.length_zipWith, List.length_map, List.length_take, List.length_drop]
      rw [butterfly_diff _ hq hw, show 2 * 2 ^ k = 2 ^ (k + 1) from (pow_succ' 2 k).symm]
      congr 3
      omega

/-- The factor that INV applies is the inverse of the block's length. -/
theorem ninv_inverse {q N : Nat} (hq : 1 < q) (hN : N ∣ q - 1) : N * (q - (q - 1) / N) % q = 1 := by
  obtain ⟨r, hr⟩ := hN
  have pos : 0 < N := by
    rcases Nat.eq_zero_or_pos N with rfl | h
    · omega
    · exact h
  have rq : r ≤ q := by
    have : r ≤ N * r := Nat.le_mul_of_pos_left _ pos
    omega
  have split : N * (q - r) = 1 + (N - 1) * q := by
    zify [rq, show 1 ≤ N from pos]
    have cast : (q : Int) = 1 + N * r := by exact_mod_cast (by omega : q = 1 + N * r)
    linear_combination cast
  rw [hr, Nat.mul_div_cancel_left _ pos, split, Nat.add_mul_mod_self_right, Nat.mod_eq_of_lt hq]

/-- Settles O36: the butterflies cancel block by block (`invBlock_fwdBlock`), and the factors cancel word by word. -/
theorem nttRoundTrip : Obligations.NttRoundTrip := by
  intro q psi psiInv cin cout logn a hq hN hpsi hc hlen ha
  have below : ∀ x ∈ a.map (fun x => x * cin % q), x < q := by
    intro x hx
    obtain ⟨y, -, rfl⟩ := List.mem_map.1 hx
    exact Nat.mod_lt _ (by omega)
  unfold nttInv nttFwd
  dsimp only
  rw [invBlock_fwdBlock hq hpsi logn 1 _ (by simpa using hlen) below, List.map_map, List.map_map]
  conv_rhs => rw [← List.map_id a]
  refine List.map_congr_left fun x hx => ?_
  have back : 2 ^ logn * (x * cin % q) % q * (q - (q - 1) / 2 ^ logn) % q * cout % q = x % q := by
    have hn := congrArg (Nat.cast : Nat → ZMod q) (ninv_inverse hq hN)
    have hcc := congrArg (Nat.cast : Nat → ZMod q) hc
    rw [ZMod.natCast_mod] at hn hcc
    rw [← ZMod.natCast_eq_natCast_iff']
    simp only [ZMod.natCast_mod, Nat.cast_mul, Nat.cast_one] at hn hcc ⊢
    linear_combination (x * cin * cout : ZMod q) * hn + (x : ZMod q) * hcc
  rw [Nat.mod_eq_of_lt (ha x hx)] at back
  exact back

end Sys2Proof.Machine
end

section
/-! PROOFS. Every step keeps the memories canonical (R19 of the byte memories; 10_scratchpad, 15_memory_stacks, 17_hedge,
18_public_key_engine): each part of the module has the form of its own memory, an operation on a part keeps the form of the others, and
each operation of the model keeps the form, one lemma each, in the model's order. -/
namespace Sys2Proof.Machine
open Sys2Proof.Certificates

/-! ## Parts of the module in canonical form -/

/-- The slice of a cluster is in canonical form. -/
def Cluster.Canonical (c : Cluster) : Prop := memWf c.scratch = true

/-- The bytes of a stack are in canonical form. -/
def Stack.Canonical (s : Stack) : Prop := memWf s.mem = true

/-- Flash, SRAM and mailbox buffer of the Hedge are in canonical form. -/
def Hedge.Canonical (h : Hedge) : Prop := memWf h.flash = true ∧ memWf h.sram = true ∧ memWf h.hmbData = true

/-- The operand memory of the PKE is in canonical form. -/
def Pke.Canonical (k : Pke) : Prop := memWf k.mem = true

/-- The planner SRAM is in canonical form. -/
def Quay.Canonical (q : Quay) : Prop := memWf q.sram = true

/-- The module of an instruction body's result is in canonical form. -/
def Res.Canonical : Res → Prop
  | .kill _ n | .ledger _ _ n | .hold _ _ _ _ n | .done _ n => Certificates.Canonical n
  | .idle => True

theorem of_ite {α : Type} {P : α → Prop} {c : Prop} [Decidable c] {a b : α} (ha : P a) (hb : P b) :
    P (if c then a else b) := by
  split <;> assumption

theorem of_foldl {α β : Type} {P : β → Prop} {f : β → α → β} {l : List α} {b : β} (hf : ∀ b a, P b → P (f b a)) (hb : P b) :
    P (l.foldl f b) := foldl_keeps P f hf l b hb

theorem Cluster.Canonical.ite {p : Prop} [Decidable p] {a b : Cluster} (ha : a.Canonical) (hb : b.Canonical) :
    (if p then a else b).Canonical := of_ite ha hb
theorem Stack.Canonical.ite {p : Prop} [Decidable p] {a b : Stack} (ha : a.Canonical) (hb : b.Canonical) :
    (if p then a else b).Canonical := of_ite ha hb
theorem Hedge.Canonical.ite {p : Prop} [Decidable p] {a b : Hedge} (ha : a.Canonical) (hb : b.Canonical) :
    (if p then a else b).Canonical := of_ite ha hb
theorem Pke.Canonical.ite {p : Prop} [Decidable p] {a b : Pke} (ha : a.Canonical) (hb : b.Canonical) :
    (if p then a else b).Canonical := of_ite ha hb
theorem Res.Canonical.ite {p : Prop} [Decidable p] {a b : Res} (ha : a.Canonical) (hb : b.Canonical) :
    (if p then a else b).Canonical := of_ite ha hb
theorem canonical_ite {p : Prop} [Decidable p] {a b : Module} (ha : Canonical a) (hb : Canonical b) :
    Canonical (if p then a else b) := of_ite ha hb
theorem canonical_foldl {α : Type} {f : Module → α → Module} {l : List α} {m : Module}
    (hf : ∀ b a, Canonical b → Canonical (f b a)) (hm : Canonical m) : Canonical (l.foldl f m) := of_foldl hf hm
theorem Quay.Canonical.ite {p : Prop} [Decidable p] {a b : Quay} (ha : a.Canonical) (hb : b.Canonical) :
    (if p then a else b).Canonical := of_ite ha hb
theorem Cluster.Canonical.foldl {α : Type} {f : Cluster → α → Cluster} {l : List α} {c : Cluster}
    (hf : ∀ (b : Cluster) a, b.Canonical → (f b a).Canonical) (hc : c.Canonical) : (l.foldl f c).Canonical := of_foldl hf hc
theorem Hedge.Canonical.foldl {α : Type} {f : Hedge → α → Hedge} {l : List α} {h : Hedge}
    (hf : ∀ (b : Hedge) a, b.Canonical → (f b a).Canonical) (hc : h.Canonical) : (l.foldl f h).Canonical := of_foldl hf hc

section
variable {m : Module}

theorem canonical_iff : Canonical m ↔ (∀ p ∈ m.clusters, p.2.Canonical) ∧ (∀ p ∈ m.stks, p.2.Canonical) ∧ m.hedge.Canonical
    ∧ m.pke.Canonical ∧ m.quay.Canonical := by
  unfold Certificates.Canonical Hedge.Canonical
  simp only [and_assoc]
  rfl

theorem hedge_canonical (h : Canonical m) : m.hedge.Canonical := (canonical_iff.1 h).2.2.1
theorem pke_canonical (h : Canonical m) : m.pke.Canonical := (canonical_iff.1 h).2.2.2.1
theorem quay_canonical (h : Canonical m) : m.quay.Canonical := (canonical_iff.1 h).2.2.2.2

theorem clAt_canonical (h : Canonical m) {i : Nat} : (clAt m i).Canonical :=
  tget_all (d := {}) Cluster.Canonical rfl _ (canonical_iff.1 h).1

theorem stkAt_canonical (h : Canonical m) {i : Nat} : (stkAt m i).Canonical :=
  tget_all (d := {}) Stack.Canonical rfl _ (canonical_iff.1 h).2.1

theorem onCl_canonical {i : Nat} {f : Cluster → Cluster} (hf : ∀ c : Cluster, c.Canonical → (f c).Canonical) (h : Canonical m) :
    Canonical (onCl m i f) :=
  canonical_iff.2 ⟨onCl_all m i Cluster.Canonical f rfl hf (canonical_iff.1 h).1, (canonical_iff.1 h).2⟩

theorem onStk_canonical {i : Nat} {f : Stack → Stack} (hf : ∀ s : Stack, s.Canonical → (f s).Canonical) (h : Canonical m) :
    Canonical (onStk m i f) :=
  canonical_iff.2 ⟨(canonical_iff.1 h).1, onStk_all m i Stack.Canonical f rfl hf (canonical_iff.1 h).2.1, (canonical_iff.1 h).2.2⟩

theorem onDie_canonical {d : Nat} {f : Die → Die} (h : Canonical m) : Canonical (onDie m d f) := h
theorem onJob_canonical {t : Nat} {f : Job → Job} (h : Canonical m) : Canonical (onJob m t f) := h
theorem onRing_canonical {i : Nat} {f : Ring → Ring} (h : Canonical m) : Canonical (onRing m i f) := h
theorem onEp_canonical {f : Endpoint → Endpoint} (h : Canonical m) : Canonical (onEp m f) := h
theorem logLater_canonical {e : LogEvent} (h : Canonical m) : Canonical (logLater m e) := h
theorem hostWrite_canonical {a : BitVec 64} {b : List Byte} (h : Canonical m) : Canonical (hostWrite m a b) := h
theorem aerReport_canonical {a : Aer} (h : Canonical m) : Canonical (aerReport m a) := h

theorem withHedge_canonical {h : Hedge} (hh : h.Canonical) (hm : Canonical m) : Canonical { m with hedge := h } := by
  obtain ⟨hc, hs, _, hk, hq⟩ := canonical_iff.1 hm
  exact canonical_iff.2 ⟨hc, hs, hh, hk, hq⟩

theorem withQuay_canonical {q : Quay} (hq : q.Canonical) (hm : Canonical m) : Canonical { m with quay := q } := by
  obtain ⟨hc, hs, hh, hk, _⟩ := canonical_iff.1 hm
  exact canonical_iff.2 ⟨hc, hs, hh, hk, hq⟩

theorem withPke_canonical {k : Pke} (hk : k.Canonical) (hm : Canonical m) : Canonical { m with pke := k } := by
  obtain ⟨hc, hs, hh, _, hq⟩ := canonical_iff.1 hm
  exact canonical_iff.2 ⟨hc, hs, hh, hk, hq⟩

theorem onHedge_canonical {f : Hedge → Hedge} (hf : ∀ h : Hedge, h.Canonical → (f h).Canonical) (h : Canonical m) :
    Canonical (onHedge m f) := withHedge_canonical (hf _ (hedge_canonical h)) h

theorem onQuay_canonical {f : Quay → Quay} (hf : ∀ q : Quay, q.Canonical → (f q).Canonical) (h : Canonical m) :
    Canonical (onQuay m f) := withQuay_canonical (hf _ (quay_canonical h)) h

theorem onPke_canonical {f : Pke → Pke} (hf : ∀ k : Pke, k.Canonical → (f k).Canonical) (h : Canonical m) :
    Canonical (onPke m f) := withPke_canonical (hf _ (pke_canonical h)) h

/-! ### A module made anew -/

/-- Every cluster of a table is in canonical form. -/
def ClustersCanonical (t : Tab Cluster) : Prop := ∀ p ∈ t, p.2.Canonical

/-- Every stack of a table is in canonical form. -/
def StacksCanonical (t : Tab Stack) : Prop := ∀ p ∈ t, p.2.Canonical

theorem canonical_mk (hc : ClustersCanonical m.clusters) (hs : StacksCanonical m.stks) (hh : m.hedge.Canonical)
    (hk : m.pke.Canonical) (hq : m.quay.Canonical) : Canonical m := canonical_iff.2 ⟨hc, hs, hh, hk, hq⟩

theorem clusters_canonical (h : Canonical m) : ClustersCanonical m.clusters := (canonical_iff.1 h).1
theorem stks_canonical (h : Canonical m) : StacksCanonical m.stks := (canonical_iff.1 h).2.1

end

theorem mem_tentries {α : Type} [DecidableEq α] {d : α} {vs : List α} {p : Nat × α} :
    ∀ {k}, p ∈ tentries d k vs → p.2 ∈ vs := by
  induction vs with
  | nil => simp [tentries]
  | cons v vs ih =>
    intro k hp
    unfold tentries at hp
    split at hp
    · exact List.mem_cons_of_mem _ (ih hp)
    · rcases List.mem_cons.1 hp with rfl | hp
      · exact List.mem_cons_self
      · exact List.mem_cons_of_mem _ (ih hp)

theorem mem_tabOf {α : Type} [DecidableEq α] {d : α} {n : Nat} {f : Nat → α} {p : Nat × α} (hp : p ∈ tabOf d n f) :
    ∃ i, i < n ∧ p.2 = f i := by
  obtain ⟨i, hi, e⟩ := List.mem_map.1 (mem_tentries hp)
  exact ⟨i, List.mem_range.1 hi, e.symm⟩

theorem clusters_tabOf {n : Nat} {f : Nat → Cluster} (hf : ∀ i, (f i).Canonical) : ClustersCanonical (tabOf {} n f) := by
  intro p hp
  obtain ⟨i, -, e⟩ := mem_tabOf hp
  exact e ▸ hf i

theorem stks_tabOf {n : Nat} {f : Nat → Stack} (hf : ∀ i, (f i).Canonical) : StacksCanonical (tabOf {} n f) := by
  intro p hp
  obtain ⟨i, -, e⟩ := mem_tabOf hp
  exact e ▸ hf i

theorem stks_map {t : Tab Stack} {g : Nat × Stack → Stack} (hg : ∀ p : Nat × Stack, p.2.Canonical → (g p).Canonical)
    (ht : StacksCanonical t) : StacksCanonical (t.map (fun p => (p.1, g p))) := by
  intro p hp
  obtain ⟨x, hx, rfl⟩ := List.mem_map.1 hp
  exact hg x (ht x hx)

theorem stks_tmod {t : Tab Stack} {i : Nat} {f : Stack → Stack} (hf : ∀ s : Stack, s.Canonical → (f s).Canonical)
    (ht : StacksCanonical t) : StacksCanonical (tmod {} t i f) :=
  tset_all Stack.Canonical (hf _ (tget_all (d := {}) Stack.Canonical rfl t ht)) t ht

theorem clusters_nil : ClustersCanonical [] := fun _ h => nomatch h
theorem stks_nil : StacksCanonical [] := fun _ h => nomatch h

section
variable {h : Hedge}

theorem flash_canonical (hc : h.Canonical) : memWf h.flash = true := hc.1
theorem sram_canonical (hc : h.Canonical) : memWf h.sram = true := hc.2.1
theorem hmbData_canonical (hc : h.Canonical) : memWf h.hmbData = true := hc.2.2

end

theorem onEng_canonical {c : Cluster} {e : Engine} {f : EngineState → EngineState} (hc : c.Canonical) : (onEng c e f).Canonical := by
  cases e <;> exact hc

section
variable {m : Module} {tag cl k d die i st off : Nat} {v : Word} {words : List Word} {x : Context}

/-! ## Shared operations, replay requests, scratchpads, ends of jobs and fences -/

theorem raiseEvt_canonical (hm : Canonical m) : Canonical (raiseEvt m i) :=
  canonical_ite (canonical_ite (onHedge_canonical (fun _ h1 => h1) (canonical_ite hm hm)) (canonical_ite hm hm)) hm

theorem askReplay_canonical {c : ReplayCause} (hm : Canonical m) : Canonical (askReplay m tag c) := hm

theorem scrAccess_canonical {reads : List Nat} {writes : List (Nat × Word)} (hm : Canonical m) : Canonical (scrAccess m cl
    tag reads writes) := by
  unfold scrAccess
  dsimp only
  split
  · exact onHedge_canonical (fun _ h1 => Hedge.Canonical.ite h1 h1) (logLater_canonical (askReplay_canonical
      (onJob_canonical (onCl_canonical (fun _ h2 => memWf_scrWrites _ _ h2) hm))))
  · exact onJob_canonical (onCl_canonical (fun _ h3 => memWf_scrWrites _ _ h3) hm)

theorem finishJob_canonical {status detail : BitVec 8} {count : Option Nat} {snap : Option (BitVec 64 × List Byte)} (hm :
    Canonical m) : Canonical (finishJob m tag status detail count snap) := by
  unfold finishJob
  split
  · exact hm
  · exact hm

theorem fenceDests_canonical {fence : Nat} {ds : List (Nat × Nat × Nat)} (hm : Canonical m) : Canonical (fenceDests m fence
    ds) :=
  canonical_foldl (fun _ _ h1 => onCl_canonical (fun _ h2 => h2) h1) hm

theorem fiOff_canonical (hm : Canonical m) : Canonical (fiOff m d) :=
  onStk_canonical (fun _ h1 => h1) (onStk_canonical (fun _ h2 => h2) hm)

theorem fenceUnits_canonical {fence : Nat} {h : DieHold} (hm : Canonical m) : Canonical (fenceUnits m fence h) :=
  canonical_ite hm (onStk_canonical (fun _ h1 => h1) hm)

theorem tearDown_canonical {j : Job} {code : BitVec 4} (hm : Canonical m) : Canonical (tearDown m tag j code) :=
  canonical_foldl (fun _ _ h1 => fenceUnits_canonical (fiOff_canonical h1)) (fenceDests_canonical (canonical_foldl (fun _ _
      h2 => onCl_canonical (fun _ h3 => h3) h2) hm))

theorem reseed_canonical (hm : Canonical m) : Canonical (reseed m) := hm

theorem killJob_canonical {cause : KillCause} {trip : Option (Nat × Nat)} (hm : Canonical m) : Canonical (killJob m tag
    cause trip) := by
  unfold killJob
  split
  · exact hm
  · exact canonical_ite hm (finishJob_canonical (reseed_canonical (canonical_ite (tearDown_canonical hm) hm)))

theorem ledgerKill_canonical {pool : Nat} {code : Nat} (hm : Canonical m) : Canonical (ledgerKill m die pool tag code) := by
  unfold ledgerKill
  exact killJob_canonical (canonical_ite hm hm)

theorem addFlag_canonical {addr amount : Nat} (hm : Canonical m) : Canonical (addFlag m addr amount tag) := hm

theorem settleFlag_canonical {addr : Nat} (hm : Canonical m) : Canonical (settleFlag m addr) := by
  unfold settleFlag
  split
  · exact canonical_ite (onCl_canonical (fun _ h1 => h1) hm) (killJob_canonical (onCl_canonical (fun _ h2 => h2) hm))

theorem tick_canonical (hm : Canonical m) : Canonical (tick m) :=
  canonical_foldl (fun _ _ h1 => settleFlag_canonical h1) hm

theorem dropFlagIn_canonical {hs : List ClHold} (hm : Canonical m) : Canonical (dropFlagIn m hs) := hm

theorem dropJobs_canonical (hm : Canonical m) : Canonical (dropJobs m) :=
  onQuay_canonical (fun _ h1 => h1) (canonical_foldl (fun _ _ h2 => canonical_ite (tearDown_canonical h2) h2) hm)

theorem settleFences_canonical (hm : Canonical m) : Canonical (settleFences m) :=
  canonical_foldl (fun _ _ h1 => canonical_foldl (fun _ _ h2 => h2) (canonical_foldl (fun _ _ h3 => onCl_canonical (fun _
      h4 => h4) h3) h1)) hm

/-! ## Links -/

theorem onLink_canonical {e : LinkEnd} {f : Link → Link} (hm : Canonical m) : Canonical (onLink m e f) := by
  unfold onLink
  split
  · exact hm
  · exact hm

theorem crossLink_canonical {n : Nat} {e : LinkEnd} (hm : Canonical m) : Canonical (crossLink n m e) :=
  onLink_canonical (onLink_canonical hm)

theorem crossPath_canonical {path : List LinkEnd} {words : Nat} (hm : Canonical m) : Canonical (crossPath m path words) :=
  canonical_foldl (fun _ _ h1 => crossLink_canonical h1) hm

/-! ## Bodies of sequencer instructions, messages and breakpoints -/

theorem addHold_canonical {cause obj want have_ : Nat} (hm : Canonical m) : Canonical (addHold m cl k cause obj want have_)
    :=
  onCl_canonical (fun _ h1 => h1) hm

theorem sendReport_canonical {h : Word} {a b : Place} (hm : Canonical m) : Canonical (sendReport m d tag h a b) :=
  canonical_ite (crossPath_canonical hm) hm

theorem loadSeq_canonical {regw : Nat} {vs : List Word} (hm : Canonical m) : (loadSeq m cl k x regw vs).Canonical := by
  unfold loadSeq
  refine Res.Canonical.ite hm ?_
  split
  · exact hm
  · split
    · exact hm
    · exact onCl_canonical (fun _ h1 => h1) hm

theorem loadSte_canonical {regw : Nat} {vs : List Word} (hm : Canonical m) : Canonical (loadSte m cl k x regw vs) :=
  onCl_canonical (fun _ h1 => h1) hm

theorem loadBody_canonical {ws : List Word} (hm : Canonical m) : (loadBody cl k m x ws).Canonical := by
  unfold loadBody
  refine Res.Canonical.ite hm ?_
  split
  · exact hm
  · exact hm
  · refine Res.Canonical.ite hm (Res.Canonical.ite hm ?_)
    split
    · exact hm
    · exact Res.Canonical.ite (onCl_canonical (fun _ h1 => Cluster.Canonical.foldl (fun _ _ h2 => Cluster.Canonical.ite h2
        (Cluster.Canonical.ite h2 (Cluster.Canonical.ite h2 h2))) h1) hm) (Res.Canonical.ite (loadSeq_canonical hm)
            (loadSte_canonical hm))

theorem waitBody_canonical {ws : List Word} (hm : Canonical m) : (waitBody cl m x ws).Canonical := by
  unfold waitBody
  extract_lets f n v
  have h : Canonical (onCl m cl (fun c => { c with flags := tset 0 c.flags f (BitVec.ofNat 16 (v - n)) })) :=
    onCl_canonical (fun _ h => h) hm
  exact Res.Canonical.ite hm (Res.Canonical.ite hm h)

theorem signalBody_canonical {ws : List Word} (hm : Canonical m) : (signalBody cl m x ws).Canonical :=
  Res.Canonical.ite hm (Res.Canonical.ite hm (crossPath_canonical hm))

theorem signalArrivalStep_canonical (hm : Canonical m) : Canonical (signalArrivalStep m i) := by
  unfold signalArrivalStep
  split
  · exact hm
  · exact hm

theorem popBody_canonical {ws : List Word} (hm : Canonical m) : (popBody cl k m x ws).Canonical := by
  unfold popBody
  refine Res.Canonical.ite hm (Res.Canonical.ite hm ?_)
  split
  · exact hm
  · refine Res.Canonical.ite hm (Res.Canonical.ite hm ?_)
    dsimp only
    split
    · exact crossPath_canonical (sendReport_canonical (onCl_canonical (fun _ h1 => h1) hm))
    · exact sendReport_canonical (onCl_canonical (fun _ h2 => h2) hm)

theorem sendHandle_canonical {r : Nat} {q : Nat} {h : Word} {remote : Option (Nat × Nat)} (hm : Canonical m) :
    Canonical (sendHandle m cl k r x q h remote) := by
  unfold sendHandle
  extract_lets m1 m2
  have h1 : Canonical m1 := onCl_canonical (fun _ h => h) hm
  have h2 : Canonical m2 := crossPath_canonical (m := { m1 with transit := _ }) h1
  exact sendReport_canonical h2

theorem pushBody_canonical {ws : List Word} (hm : Canonical m) : (pushBody cl k m x ws).Canonical := by
  unfold pushBody
  refine Res.Canonical.ite hm (Res.Canonical.ite hm (Res.Canonical.ite hm (Res.Canonical.ite (Res.Canonical.ite hm
      (onCl_canonical (fun _ h1 => h1) (sendHandle_canonical hm))) ?_)))
  split
  · exact hm
  · exact Res.Canonical.ite hm (onDie_canonical (sendHandle_canonical hm))

theorem handleArrivalStep_canonical (hm : Canonical m) : Canonical (handleArrivalStep m i) := by
  unfold handleArrivalStep
  split
  · exact canonical_ite hm (canonical_ite (ledgerKill_canonical hm) (sendReport_canonical (onCl_canonical (fun _ h1 => h1)
      hm)))
  · exact hm

theorem ledgerReportStep_canonical (hm : Canonical m) : Canonical (ledgerReportStep m i) := by
  unfold ledgerReportStep
  split
  · exact hm
  · exact hm

theorem creditReturnStep_canonical (hm : Canonical m) : Canonical (creditReturnStep m i) := by
  unfold creditReturnStep
  split
  · exact canonical_ite (ledgerKill_canonical hm) hm
  · exact hm

theorem negCountStep_canonical {p : Nat} (hm : Canonical m) : Canonical (negCountStep m d p) := by
  unfold negCountStep
  split
  · exact canonical_ite (ledgerKill_canonical hm) hm
  · exact hm

theorem swapBody_canonical {ws : List Word} (hm : Canonical m) : (swapBody cl m x ws).Canonical :=
  Res.Canonical.ite hm (Res.Canonical.ite hm (onCl_canonical (fun _ h1 => h1) hm))

theorem patchBody_canonical {ws : List Word} (hm : Canonical m) : (patchBody cl k m x ws).Canonical :=
  Res.Canonical.ite hm (onCl_canonical (fun _ h1 => h1) hm)

theorem loopBody_canonical {ws : List Word} (hm : Canonical m) : (loopBody cl k m x ws).Canonical :=
  Res.Canonical.ite hm (Res.Canonical.ite hm (onCl_canonical (fun _ h1 => h1) hm))

theorem tmarkBody_canonical {ws : List Word} (hm : Canonical m) : (tmarkBody cl k m x ws).Canonical :=
  Res.Canonical.ite hm (onCl_canonical (fun _ h1 => h1) hm)

theorem tagBody_canonical {ws : List Word} (hm : Canonical m) : (tagBody cl k m x ws).Canonical :=
  Res.Canonical.ite hm (onCl_canonical (fun _ h1 => h1) hm)

theorem endBody_canonical {ws : List Word} (hm : Canonical m) : (endBody cl k m x ws).Canonical :=
  Res.Canonical.ite hm (onCl_canonical (fun _ h1 => h1) hm)

theorem breakpointStep_canonical (hm : Canonical m) : Canonical (breakpointStep m cl k) :=
  canonical_ite hm (onDie_canonical (onCl_canonical (fun _ h1 => h1) hm))

/-! ## Descriptors -/

theorem descDoneStep_canonical {n : Nat} (hm : Canonical m) : Canonical (descDoneStep m die n) := by
  unfold descDoneStep
  refine canonical_ite hm ?_
  split
  · exact hm

/-! ## Audits -/

theorem canonical_of_fst {β : Type} {r : Module × β} {n : Module} {b : β} (e : r = (n, b)) (h : Canonical r.1) : Canonical n := by
  rw [e] at h
  exact h

theorem canonical_of_snd {β : Type} {r : β × Module} {n : Module} {b : β} (e : r = (b, n)) (h : Canonical r.2) : Canonical n := by
  rw [e] at h
  exact h

theorem auditParts_canonical {parts : List Shadow} (hm : Canonical m) : Canonical (auditParts m tag parts).1 := by
  unfold auditParts
  dsimp only
  split
  · exact hm
  · split
    · exact hm
    · split <;> exact hm

theorem failMain_canonical {parts : List Shadow} (hm : Canonical m) : Canonical (failMain m tag parts) :=
  canonical_foldl (fun _ _ h1 => onCl_canonical (fun _ h2 => h2) h1) hm

theorem auditSealed_canonical {parts : List Shadow} {main : Bool} (hm : Canonical m) : Canonical (auditSealed m tag parts
    main) := by
  unfold auditSealed
  split
  · split
    · dsimp only
      split
      · next e => exact failMain_canonical (canonical_of_fst e (auditParts_canonical hm))
      · next e => exact canonical_of_fst e (auditParts_canonical hm)
    · exact canonical_ite hm hm
  · exact hm

theorem auditMerged_canonical {code slot : Nat} {cls : List Nat} (hm : Canonical m) : Canonical (auditMerged m tag code
    slot cls) := by
  unfold auditMerged
  split
  · exact canonical_ite hm (auditSealed_canonical (auditSealed_canonical hm))
  · exact hm

/-! ## Starts and ends of engine operations -/

theorem zeroStreams_canonical {rows : List Nat} (hm : Canonical m) : Canonical (zeroStreams cl rows m) :=
  canonical_ite hm hm

theorem beginAt_canonical {e : Engine} {p : PendOp} (hm : Canonical m) : Canonical (beginAt m cl e p) :=
  onCl_canonical (fun _ h1 => onEng_canonical h1) (scrAccess_canonical (zeroStreams_canonical hm))

theorem onWindow_canonical {f : KeyWindow → KeyWindow} (hm : Canonical m) : Canonical (onWindow m cl tag f) := hm

theorem bankSlips_canonical {bs : List (List Nat)} (hm : Canonical m) : Canonical (bankSlips m cl k bs) :=
  canonical_ite (onCl_canonical (fun _ h1 => h1) hm) hm

theorem startOp_canonical {e : Engine} {p : PendOp} {ranges : List Declared1} {conflict : Bool} {c : Cluster} (hc :
    c.Canonical) : (startOp e p ranges conflict c).Canonical := by
  unfold startOp
  dsimp only
  split
  · exact onEng_canonical hc
  · exact onEng_canonical hc

theorem startEngine_canonical {e : Engine} {w1 : Nat} (hm : Canonical m) : (startEngine cl k m x e w1).Canonical := by
  unfold startEngine
  refine Res.Canonical.ite hm (Res.Canonical.ite hm ?_)
  split
  · exact hm
  · exact hm
  · refine Res.Canonical.ite hm (Res.Canonical.ite trivial ?_)
    split
    · exact onCl_canonical (fun _ h1 => Cluster.Canonical.ite h1 (Cluster.Canonical.ite h1 (Cluster.Canonical.ite h1 h1)))
        hm
    · refine Res.Canonical.ite hm (Res.Canonical.ite hm ?_)
      split
      · exact bankSlips_canonical (canonical_ite (beginAt_canonical (onCl_canonical (fun _ h2 => startOp_canonical h2)
          (canonical_ite hm hm))) (onCl_canonical (fun _ h3 => startOp_canonical h3) (canonical_ite hm hm)))

theorem startBody_canonical {ws : List Word} (hm : Canonical m) : (startBody cl k m x ws).Canonical :=
  Res.Canonical.ite trivial (Res.Canonical.ite hm (startEngine_canonical hm))

theorem pendingStartStep_canonical {e : Engine} (hm : Canonical m) : Canonical (pendingStartStep m cl e) := by
  unfold pendingStartStep
  dsimp only
  split
  · refine canonical_ite ?_ hm
    split
    · exact killJob_canonical hm
    · exact killJob_canonical hm
    · exact canonical_ite (killJob_canonical hm) (beginAt_canonical hm)
  · exact hm

theorem opDone_canonical {e : Engine} (hm : Canonical m) : Canonical (opDone m cl e) := by
  unfold opDone
  dsimp only
  split
  · exact hm
  · refine canonical_ite hm ?_
    split
    · refine addFlag_canonical (onJob_canonical (canonical_ite (onCl_canonical (fun _ h1 => ?_) hm) (onWindow_canonical
        (onCl_canonical (fun _ h2 => ?_) hm))))
      · split
        · exact Cluster.Canonical.ite (onEng_canonical h1) (onEng_canonical h1)
        · exact onEng_canonical h1
      · split
        · exact Cluster.Canonical.ite (onEng_canonical h2) (onEng_canonical h2)
        · exact onEng_canonical h2
    · refine onJob_canonical (canonical_ite (onCl_canonical (fun _ h3 => ?_) hm) (onWindow_canonical (onCl_canonical (fun _
        h1 => ?_) hm)))
      · split
        · exact Cluster.Canonical.ite (onEng_canonical h3) (onEng_canonical h3)
        · exact onEng_canonical h3
      · split
        · exact Cluster.Canonical.ite (onEng_canonical h1) (onEng_canonical h1)
        · exact onEng_canonical h1

theorem markUnconf_canonical {o : RunOp} {c : Cluster} (hc : c.Canonical) : (markUnconf o c).Canonical := by
  unfold markUnconf
  split <;> exact hc

theorem opEffect_canonical {e : Engine} {o : RunOp} {x : OpOut} {fin : Bool} (hm : Canonical m) : Canonical (opEffect m cl
    e o x fin) :=
  onCl_canonical (fun _ h1 => onEng_canonical (markUnconf_canonical h1)) (scrAccess_canonical hm)

/-! ## Stacks -/

theorem stkAccess_canonical {a n : Nat} {cause : ReplayCause} (hm : Canonical m) : Canonical (stkAccess m a n tag cause) :=
    by
  unfold stkAccess
  dsimp only
  split
  · exact onStk_canonical (fun _ h1 => h1) hm
  · exact logLater_canonical (askReplay_canonical (onStk_canonical (fun _ h2 => h2) hm))

theorem stkPut_canonical {a : Nat} {bs : List Byte} (hm : Canonical m) : Canonical (stkPut m a bs) :=
  onStk_canonical (fun _ h1 => memWf_stkWrite _ _ _ h1) hm

theorem quayPut_canonical {a : Nat} {bs : List Byte} (hm : Canonical m) : Canonical (quayPut m a bs) :=
  stkPut_canonical hm

theorem frameStep_canonical (hm : Canonical m) : Canonical (frameStep m st) :=
  canonical_ite hm (onStk_canonical (fun _ _ => Stack.Canonical.ite (stkAt_canonical hm) (stkAt_canonical hm)) hm)

theorem patrolStep_canonical (hm : Canonical m) : Canonical (patrolStep m st) := by
  unfold patrolStep
  refine canonical_ite hm ?_
  dsimp only
  split
  · exact onStk_canonical (fun _ h1 => h1) hm
  · exact logLater_canonical (onStk_canonical (fun _ h2 => h2) hm)

theorem fenceZeroStep_canonical (hm : Canonical m) : Canonical (fenceZeroStep m st) := by
  unfold fenceZeroStep
  dsimp only
  split
  · exact hm
  · exact canonical_ite hm (settleFences_canonical (onStk_canonical (fun _ h1 => memWf_zeroUnits _ _ h1) hm))

theorem stackWipeStep_canonical (hm : Canonical m) : Canonical (stackWipeStep m) :=
  settleFences_canonical (canonical_foldl (fun _ _ h1 => canonical_ite (onStk_canonical (fun _ _ => rfl) h1) h1) hm)

/-! ## Ferry and bindings -/

theorem landWrite_canonical {ws : List (Nat × Word)} (hm : Canonical m) : Canonical (landWrite m cl tag ws) :=
  canonical_ite (onCl_canonical (fun _ h1 => h1) hm) (scrAccess_canonical hm)

theorem landStep_canonical {l : FerryList} {c : FerryCmd} {f : Nat} {p : LandPlan} (hm : Canonical m) : Canonical (landStep
    m die l c f p) := by
  unfold landStep
  refine onDie_canonical ?_
  split
  · exact landWrite_canonical (canonical_ite (askReplay_canonical (stkAccess_canonical hm)) (stkAccess_canonical hm))
  · exact canonical_ite (askReplay_canonical (stkAccess_canonical hm)) (stkAccess_canonical hm)

theorem ferryStep_canonical {wantEnd : Bool} (hm : Canonical m) : Canonical (ferryStep m die wantEnd) := by
  unfold ferryStep
  refine canonical_ite hm ?_
  split
  · exact landStep_canonical hm
  · exact killJob_canonical hm
  · exact hm
  · exact hm

theorem bindingStep_canonical (hm : Canonical m) : Canonical (bindingStep m cl i) := by
  unfold bindingStep
  extract_lets c
  split
  · exact hm
  split
  · refine canonical_ite hm ?_
    extract_lets r want causes y
    split
    extract_lets m1 m2
    have h2 : Canonical m2 := onCl_canonical (fun _ h => markUnconf_canonical h) (scrAccess_canonical hm)
    exact canonical_ite h2 (onDie_canonical h2)
  · exact hm

/-! ## Stream engines -/

theorem onSte_canonical {s : Nat} {f : StreamEngine → StreamEngine} (hm : Canonical m) : Canonical (onSte m die s f) :=
  hm

theorem clearDeclared_canonical {ranges : List Declared1} (hm : Canonical m) : Canonical (clearDeclared m cl ranges) :=
  onCl_canonical (fun _ h1 => h1) (zeroStreams_canonical hm)

theorem steStartBody_canonical {ws : List Word} (hm : Canonical m) : (steStartBody cl k m x ws).Canonical := by
  unfold steStartBody
  refine Res.Canonical.ite trivial (Res.Canonical.ite hm (Res.Canonical.ite hm (Res.Canonical.ite hm (Res.Canonical.ite
      (fenceDests_canonical hm) (Res.Canonical.ite hm (Res.Canonical.ite hm (Res.Canonical.ite hm ?_)))))))
  split
  · exact onCl_canonical (fun _ h1 => Cluster.Canonical.ite h1 (Cluster.Canonical.ite h1 (Cluster.Canonical.ite h1 h1))) hm
  · split
    · exact onSte_canonical (onCl_canonical (fun _ h2 => h2) (clearDeclared_canonical hm))

theorem stackFenceHits_canonical {n : Nat} (hm : Canonical m) : Canonical (stackFenceHits m cl tag n) :=
  canonical_ite hm (onJob_canonical (onCl_canonical (fun _ h1 => h1) hm))

theorem readFx_canonical {p : Slot} {ws : List Nat} (hm : Canonical m) : Canonical (readFx m cl tag p ws) :=
  canonical_ite (canonical_ite (onCl_canonical (fun _ h1 => h1) hm) (scrAccess_canonical hm)) (canonical_ite
      (canonical_foldl (fun _ _ h2 => stkAccess_canonical h2) (stackFenceHits_canonical hm)) hm)

theorem markLost_canonical {p : Slot} {ws : List Nat} (hm : Canonical m) : Canonical (markLost m p ws) :=
  canonical_ite hm (canonical_ite (onCl_canonical (fun _ h1 => Cluster.Canonical.ite h1 h1) hm) (canonical_ite
      (canonical_foldl (fun _ _ h2 => onStk_canonical (fun _ h3 => Stack.Canonical.ite h3 h3) h2) hm) hm))

theorem writeWords_canonical {p : Slot} {ws : List (Nat × Word)} (hm : Canonical m) : Canonical (writeWords m cl tag p ws)
    :=
  canonical_ite (canonical_ite (onCl_canonical (fun _ h1 => h1) hm) (scrAccess_canonical hm)) (canonical_ite
      (canonical_foldl (fun _ _ h2 => stkPut_canonical h2) (stackFenceHits_canonical hm)) (canonical_foldl (fun _ _ h2 =>
          h2) hm))

/-! ## Seals and merges -/

theorem sealBody_canonical {ws : List Word} (hm : Canonical m) : (sealBody cl k m x ws).Canonical :=
  Res.Canonical.ite hm (Res.Canonical.ite hm (Res.Canonical.ite hm (onCl_canonical (fun _ h1 => h1) hm)))

theorem mergeGroup_canonical {lead : Nat} {ms : List Member} (hm : Canonical m) : Canonical (mergeGroup m tag lead ms) := by
  unfold mergeGroup
  split
  · exact hm
  extract_lets lr sets causes parts g sh m1
  have h1 : Canonical m1 :=
    canonical_foldl (fun _ _ h => onJob_canonical (onCl_canonical (fun _ h => memWf_scrWrites _ _ h) h)) hm
  exact auditMerged_canonical (m := { noteMerge m1 tag lr g with free := _ }) h1

theorem joinGroup_canonical {r : Record} (hm : Canonical m) : Canonical (joinGroup m tag d r) :=
  canonical_ite (mergeGroup_canonical hm) hm

theorem sealcBody_canonical {ws : List Word} (hm : Canonical m) : (sealcBody cl k m x ws).Canonical :=
  Res.Canonical.ite hm (Res.Canonical.ite hm (Res.Canonical.ite hm (Res.Canonical.ite hm (joinGroup_canonical
      (onCl_canonical (fun _ h1 => h1) hm)))))

/-! ## Attempts of instructions -/

theorem fetchRead_canonical {len : Nat} (hm : Canonical m) : Canonical (fetchRead m x len) :=
  canonical_ite hm (stkAccess_canonical hm)

theorem fetched_canonical {len : Nat} (hm : Canonical m) : Canonical (fetched m cl k len) :=
  canonical_ite hm (onCl_canonical (fun _ h1 => h1) (fetchRead_canonical hm))

theorem pushInTurn_canonical {ws : List Word} (hm : Canonical m) : (pushInTurn cl k m x ws).Canonical :=
  Res.Canonical.ite trivial (pushBody_canonical hm)

theorem steStartInTurn_canonical {ws : List Word} (hm : Canonical m) : (steStartInTurn cl k m x ws).Canonical :=
  Res.Canonical.ite hm (steStartBody_canonical hm)

theorem resEffect_canonical {op len : Nat} {r : Res} (hr : r.Canonical) (hm : Canonical m) :
    Canonical (resEffect m cl k op len r) := by
  cases r with
  | kill cause n => exact killJob_canonical hr
  | ledger pool code n => exact ledgerKill_canonical hr
  | hold cause obj want have_ n => exact addHold_canonical hr
  | idle => exact hm
  | done cycles n => exact onCl_canonical (fun _ hc => Cluster.Canonical.ite hc hc) hr

theorem attempt_canonical {op : Nat} {slot : Bool} {body : Module → Context → List Word → Res} (hf : ∀ n y ws, Canonical n
    → (body n y ws).Canonical) (hm : Canonical m) : Canonical (attempt m cl k words op slot body) := by
  rcases attempt_cases m cl k words op slot body with e | e | e | e | e | e | e | e | e <;> rw [e]
  case inl => exact hm
  case inr.inl => exact killJob_canonical hm
  case inr.inr.inl => exact addHold_canonical hm
  case inr.inr.inr.inl => exact addHold_canonical hm
  case inr.inr.inr.inr.inl => exact fetchRead_canonical hm
  case inr.inr.inr.inr.inr.inl => exact addHold_canonical (fetched_canonical hm)
  case inr.inr.inr.inr.inr.inr.inl => exact killJob_canonical (fetched_canonical hm)
  case inr.inr.inr.inr.inr.inr.inr.inl => exact fetched_canonical hm
  case inr.inr.inr.inr.inr.inr.inr.inr => exact resEffect_canonical (hf _ _ _ (fetched_canonical hm)) (fetched_canonical hm)

theorem captureHold_canonical (hm : Canonical m) : Canonical (captureHold m cl k) := by
  unfold captureHold
  dsimp only
  split
  · split
    · exact onCl_canonical (fun _ h1 => h1) hm
    · exact hm
  · exact hm

theorem watchdogStep_canonical (hm : Canonical m) : Canonical (watchdogStep m cl k) :=
  canonical_ite (killJob_canonical (canonical_foldl (fun _ _ h1 => captureHold_canonical h1) hm)) hm

theorem loadStep_canonical (hm : Canonical m) : Canonical (loadStep m cl k words) :=
  attempt_canonical (fun _ _ _ h1 => loadBody_canonical h1) hm

theorem waitStep_canonical (hm : Canonical m) : Canonical (waitStep m cl k words) :=
  attempt_canonical (fun _ _ _ h1 => waitBody_canonical h1) hm

theorem signalStep_canonical (hm : Canonical m) : Canonical (signalStep m cl k words) :=
  attempt_canonical (fun _ _ _ h1 => signalBody_canonical h1) hm

theorem popStep_canonical (hm : Canonical m) : Canonical (popStep m cl k words) :=
  attempt_canonical (fun _ _ _ h1 => popBody_canonical h1) hm

theorem pushStep_canonical (hm : Canonical m) : Canonical (pushStep m cl k words) :=
  attempt_canonical (fun _ _ _ h1 => pushInTurn_canonical h1) hm

theorem swapStep_canonical (hm : Canonical m) : Canonical (swapStep m cl k words) :=
  attempt_canonical (fun _ _ _ h1 => swapBody_canonical h1) hm

theorem patchStep_canonical (hm : Canonical m) : Canonical (patchStep m cl k words) :=
  attempt_canonical (fun _ _ _ h1 => patchBody_canonical h1) hm

theorem loopStep_canonical (hm : Canonical m) : Canonical (loopStep m cl k words) :=
  attempt_canonical (fun _ _ _ h1 => loopBody_canonical h1) hm

theorem tmarkStep_canonical (hm : Canonical m) : Canonical (tmarkStep m cl k words) :=
  attempt_canonical (fun _ _ _ h1 => tmarkBody_canonical h1) hm

theorem tagStep_canonical (hm : Canonical m) : Canonical (tagStep m cl k words) :=
  attempt_canonical (fun _ _ _ h1 => tagBody_canonical h1) hm

theorem endStep_canonical (hm : Canonical m) : Canonical (endStep m cl k words) :=
  attempt_canonical (fun _ _ _ h1 => endBody_canonical h1) hm

theorem startStep_canonical (hm : Canonical m) : Canonical (startStep m cl k words) :=
  attempt_canonical (fun _ _ _ h1 => startBody_canonical h1) hm

theorem sealStep_canonical (hm : Canonical m) : Canonical (sealStep m cl k words) :=
  attempt_canonical (fun _ _ _ h1 => sealBody_canonical h1) hm

theorem sealcStep_canonical (hm : Canonical m) : Canonical (sealcStep m cl k words) :=
  attempt_canonical (fun _ _ _ h1 => sealcBody_canonical h1) hm

theorem steStartStep_canonical (hm : Canonical m) : Canonical (steStartStep m cl k words) :=
  attempt_canonical (fun _ _ _ h1 => steStartInTurn_canonical h1) hm

/-! ## Rings, completions and global controls -/

theorem bar0_canonical {f : Module → Module} (hf : ∀ n, Canonical n → Canonical (f n)) (hm : Canonical m) : Canonical (bar0
    m f) :=
  canonical_ite hm (canonical_ite hm (hf _ hm))

theorem ringWrite_canonical {f : Module → Module} (hf : ∀ n, Canonical n → Canonical (f n)) (hm : Canonical m) : Canonical
    (ringWrite m f) :=
  bar0_canonical (fun _ h1 => canonical_ite (hf _ h1) h1) hm

theorem sqTailStep_canonical {v : BitVec 16} (hm : Canonical m) : Canonical (sqTailStep m i v) :=
  canonical_ite hm (canonical_ite (canonical_ite (onQuay_canonical (fun _ h1 => h1) hm) hm) hm)

theorem cqHeadStep_canonical {v : BitVec 16} (hm : Canonical m) : Canonical (cqHeadStep m i v) :=
  canonical_ite hm (canonical_ite (canonical_ite hm hm) (canonical_ite (canonical_ite hm hm) hm))

theorem sqCfgWrite_canonical (hm : Canonical m) : Canonical (sqCfgWrite m i v) :=
  canonical_ite (canonical_ite hm hm) (canonical_ite hm (canonical_ite (canonical_ite (onQuay_canonical (fun _ h1 => h1)
      hm) hm) (canonical_ite (canonical_ite (onQuay_canonical (fun _ h2 => h2) hm) hm) hm)))

theorem cqCfgWrite_canonical (hm : Canonical m) : Canonical (cqCfgWrite m i v) :=
  canonical_ite (canonical_ite hm hm) (canonical_ite hm (canonical_ite (canonical_ite (onQuay_canonical (fun _ h1 => h1)
      hm) hm) hm))

theorem fetchStep_canonical (hm : Canonical m) : Canonical (fetchStep m) := by
  unfold fetchStep
  refine canonical_ite hm ?_
  split
  · exact hm
  · exact hm

theorem coalesce_canonical (hm : Canonical m) : Canonical (coalesce m i) :=
  canonical_ite hm (canonical_ite (canonical_ite hm hm) (canonical_ite hm hm))

theorem hostWriteOpt_canonical {b : Option (BitVec 64 × List Byte)} (hm : Canonical m) : Canonical (hostWriteOpt m b) := by
  unfold hostWriteOpt
  split
  · exact hm
  · exact hm

theorem retireJob_canonical (hm : Canonical m) : Canonical (retireJob m tag) := by
  unfold retireJob
  split
  · exact hm
  · exact onQuay_canonical (fun _ h1 => h1) (canonical_foldl (fun _ _ h2 => onCl_canonical (fun _ h3 => h3) h2) hm)

theorem sendCompl_canonical {c : Completion} (hm : Canonical m) : Canonical (sendCompl m i k c) :=
  onRing_canonical (onQuay_canonical (fun _ h1 => h1) (hostWrite_canonical (hostWriteOpt_canonical (hostWriteOpt_canonical
      hm))))

theorem retireOf_canonical {job : Option Nat} (hm : Canonical m) : Canonical (retireOf m job) := by
  unfold retireOf
  split
  · exact retireJob_canonical hm
  · exact hm

theorem completionStep_canonical (hm : Canonical m) : Canonical (completionStep m i) := by
  unfold completionStep
  split
  · exact hm
  · refine canonical_ite hm (coalesce_canonical ?_)
    split
    · exact retireJob_canonical (onRing_canonical (onQuay_canonical (fun _ h1 => h1) (hostWrite_canonical
        (hostWriteOpt_canonical (hostWriteOpt_canonical hm)))))
    · exact onRing_canonical (onQuay_canonical (fun _ h2 => h2) (hostWrite_canonical (hostWriteOpt_canonical
        (hostWriteOpt_canonical hm))))

theorem coalTimerStep_canonical (hm : Canonical m) : Canonical (coalTimerStep m i) :=
  canonical_ite (canonical_ite hm hm) hm

theorem qrelStep_canonical (hm : Canonical m) : Canonical (qrelStep m) :=
  onQuay_canonical (fun _ h1 => Quay.Canonical.ite h1 h1) hm

theorem idereqStep_canonical {v : Bool} (hm : Canonical m) : Canonical (idereqStep m v) :=
  onQuay_canonical (fun _ h1 => Quay.Canonical.ite h1 h1) hm

theorem lockStep_canonical (hm : Canonical m) : Canonical (lockStep m) := hm

theorem glbKillStep_canonical {cid : Word} (hm : Canonical m) : Canonical (glbKillStep m tag cid) := by
  unfold glbKillStep
  split
  · exact canonical_ite (killJob_canonical hm) hm
  · exact hm

theorem glbHostStep_canonical (hm : Canonical m) : Canonical (glbHostStep m v) := canonical_ite hm hm

theorem glbPcapStep_canonical (hm : Canonical m) : Canonical (glbPcapStep m v) := canonical_ite hm hm

theorem badAccessStep_canonical {read : Bool} {off : BitVec 25} {bytes : Nat} (hm : Canonical m) : Canonical (badAccessStep
    m read off bytes) :=
  canonical_ite hm hm

/-! ## Jobs -/

theorem startCluster_canonical {j : Job} {h : ClHold} (hm : Canonical m) : Canonical (startCluster m tag j h) := by
  unfold startCluster
  split
  · exact hm
  · exact quayPut_canonical (onCl_canonical (fun _ h1 => h1) hm)

theorem fillPool_canonical {p : Nat} (hm : Canonical m) : Canonical (fillPool m die p) :=
  canonical_ite hm (onCl_canonical (fun _ h1 => h1) hm)

theorem fillPools_canonical {h : DieHold} (hm : Canonical m) : Canonical (fillPools m h) :=
  canonical_foldl (fun _ _ h1 => fillPool_canonical h1) hm

theorem startTables_canonical {j : Job} (hm : Canonical m) : Canonical (startTables m tag j) :=
  canonical_foldl (fun _ _ h1 => startCluster_canonical h1) (canonical_foldl (fun _ _ h2 => onDie_canonical
      (fillPools_canonical h2)) (canonical_foldl (fun _ _ h3 => h3) (canonical_ite (canonical_foldl (fun _ _ h4 => h4)
          (canonical_foldl (fun _ _ h5 => h5) hm)) (canonical_foldl (fun _ _ h4 => h4) hm))))

theorem jobStartStep_canonical (hm : Canonical m) : Canonical (jobStartStep m tag) := by
  unfold jobStartStep
  split
  · exact hm
  · exact canonical_ite hm (onJob_canonical (startTables_canonical hm))

theorem jobFinish_canonical {j : Job} (hm : Canonical m) : Canonical (jobFinish m tag j) :=
  finishJob_canonical (canonical_foldl (fun _ _ h1 => h1) (canonical_foldl (fun _ _ h2 => onCl_canonical (fun _ h3 => h3)
      h2) hm))

theorem jobFault_canonical {j : Job} {f : Nat × Nat × Nat} (hm : Canonical m) : Canonical (jobFault m tag j f) := by
  unfold jobFault
  split
  · exact finishJob_canonical (tearDown_canonical (canonical_ite hm hm))

theorem auditStep_canonical (hm : Canonical m) : Canonical (auditStep m tag) := by
  unfold auditStep
  split
  · exact hm
  · refine canonical_ite hm ?_
    split
    · exact hm
    · refine canonical_ite hm ?_
      split
      · exact jobFinish_canonical hm
      · exact jobFault_canonical hm

/-! ## Flash and the log -/

theorem writeMargin_canonical {h : Hedge} (hc : h.Canonical) : (writeMargin h).Canonical := by
  unfold writeMargin
  split
  · exact ⟨memWf_mput _ _ (flash_canonical hc :), (sram_canonical hc :), (hmbData_canonical hc :)⟩

theorem logPut_canonical {h : Hedge} {e : LogEvent} {opsec : BitVec 64} (hc : h.Canonical) : (logPut h e opsec).Canonical :=
  ⟨memWf_mput _ _ (flash_canonical hc :), (sram_canonical hc :), (hmbData_canonical hc :)⟩

theorem logAppend_canonical {h : Hedge} {e : LogEvent} (hc : h.Canonical) : (logAppend h e).Canonical :=
  logPut_canonical (Hedge.Canonical.foldl (fun _ _ h1 => logPut_canonical h1) (Hedge.Canonical.ite hc ⟨memWf_filter _
      (flash_canonical hc :), (sram_canonical hc :), (hmbData_canonical hc :)⟩))

theorem readLog_canonical {h : Hedge} (hc : h.Canonical) : (readLog h).Canonical := by
  unfold readLog
  split
  · exact hc
  · exact hc

/-! ## Parts of the resets -/

theorem resetAllDies_canonical {cold : Bool} (hm : Canonical m) : Canonical (resetAllDies m cold) := by
  unfold resetAllDies
  have hh := hedge_canonical hm
  have hk := pke_canonical hm
  have hq := quay_canonical hm
  refine canonical_mk ?_ ?_ hh hk hq <;> dsimp only
  · exact clusters_tabOf fun _ => clAt_canonical hm
  · exact stks_tabOf fun _ => stkAt_canonical hm

theorem dropUpdate_canonical {h : Hedge} (hc : h.Canonical) : (dropUpdate h).Canonical := by
  unfold dropUpdate
  split
  · exact ⟨memWf_filter _ (flash_canonical hc :), (sram_canonical hc :), (hmbData_canonical hc :)⟩
  · exact hc

theorem resetHedge_canonical {h0 : Hedge} (hc : h0.Canonical) : (resetHedge h0).Canonical :=
  ⟨(flash_canonical (dropUpdate_canonical hc) :), memWf_filter _ (sram_canonical (dropUpdate_canonical hc) :), rfl⟩

theorem memWf_placeSections {flash : Mem} {base : Nat} {l : List Byte} :
    ∀ {ts : List Nat} {a : Nat} {sram : Mem}, memWf sram = true → memWf (placeSections flash base l a ts sram) = true
  | [], _, _, h => h
  | _ :: _, _, _, h => memWf_placeSections (sram := mput ..) (memWf_mput _ _ h)

theorem loadImage_canonical {h : Hedge} {slot : Nat} (hc : h.Canonical) : (loadImage h slot).Canonical := by
  have hf := flash_canonical hc
  have hb := hmbData_canonical hc
  unfold loadImage
  extract_lets base hd s1
  have h1 : memWf s1 = true := memWf_mput _ _ rfl
  have h2 : memWf (placeSections h.flash base hd retainedBase [2, 3, 4, 5] s1) = true := memWf_placeSections h1
  exact ⟨hf, h2, hb⟩

theorem coldMargin_canonical {h : Hedge} (hc : h.Canonical) : (coldMargin h).Canonical := by
  unfold coldMargin
  split
  · exact hc
  · exact hc

theorem coldIdentity_canonical {h : Hedge} {free : Nat} (hc : h.Canonical) : (coldIdentity h free).Canonical :=
  Hedge.Canonical.ite hc hc

theorem endOfService_canonical (hm : Canonical m) : Canonical (endOfService m) :=
  canonical_ite (canonical_ite hm (raiseEvt_canonical hm)) hm

theorem railsDown_canonical {b : Boot} (hm : Canonical m) : Canonical (railsDown m b) :=
  canonical_mk clusters_nil (stks_tabOf (fun _ => rfl)) (dropUpdate_canonical (hedge_canonical hm :)) (pke_canonical hm :)
      (quay_canonical hm :)

theorem powerFall_canonical (hm : Canonical m) : Canonical (powerFall m) :=
  canonical_ite (railsDown_canonical (dropJobs_canonical hm)) hm

theorem railToleranceStep_canonical {rail : Nat} (hm : Canonical m) : Canonical (railToleranceStep m rail) :=
  powerFall_canonical hm

theorem countInterrupt_canonical (hm : Canonical m) : Canonical (countInterrupt m) := hm

theorem readyStep_canonical (hm : Canonical m) : Canonical (readyStep m) := canonical_ite hm hm

theorem resetOneDie_canonical (hm : Canonical m) : Canonical (resetOneDie m d) := by
  unfold resetOneDie
  extract_lets f m1 m2 m3 m4
  have h2 : Canonical m2 := canonical_foldl (fun _ _ h => onCl_canonical (fun _ h => h) h) (onDie_canonical hm)
  have h3 : Canonical m3 := canonical_foldl (fun _ _ h => onStk_canonical (fun _ h => h) h) h2
  have h4 : Canonical m4 := by
    clear_value m3
    exact h3
  exact settleFences_canonical (onQuay_canonical (fun _ h => h) h4)

theorem dieReset_canonical {detail : Nat} (hm : Canonical m) : Canonical (dieReset m d detail) :=
  countInterrupt_canonical (logLater_canonical (aerReport_canonical (raiseEvt_canonical (resetOneDie_canonical
      (reseed_canonical (canonical_foldl (fun _ _ h1 => killJob_canonical h1) hm))))))

theorem fenceClusters_canonical {cs : List Nat} {detail : Nat} (hm : Canonical m) : Canonical (fenceClusters m cs detail) :=
  canonical_foldl (fun _ _ h1 => h1) hm

/-- The margin record of the module's Hedge, written to the flash. -/
theorem marginWritten_canonical (hm : Canonical m) : Canonical { m with hedge := writeMargin m.hedge } :=
  withHedge_canonical (writeMargin_canonical (hedge_canonical hm)) hm

theorem engineBlame_canonical {e : Engine} (hm : Canonical m) : Canonical (engineBlame m cl e) := by
  unfold engineBlame
  extract_lets h k again h1 m1
  have hh : Canonical { m with hedge := h1 } := withHedge_canonical (hedge_canonical hm) hm
  have hm1 : Canonical m1 := fenceClusters_canonical hh
  exact canonical_ite (marginWritten_canonical hm1) hh

theorem dieResetStep_canonical {cause : DieResetCause} (hm : Canonical m) : Canonical (dieResetStep m d cause) := by
  unfold dieResetStep
  refine canonical_ite hm ?_
  split
  · exact canonical_ite (dieReset_canonical hm) hm
  · exact dieReset_canonical hm
  · exact dieReset_canonical (engineBlame_canonical hm)
  · exact dieReset_canonical hm

theorem stopRanges_canonical {tag : Option Nat} {spans : List Span} (hm : Canonical m) :
    Canonical (stopRanges m cl tag spans) := by
  unfold stopRanges
  extract_lets f
  have h : Canonical (onCl m cl (fun c => fenceList c (spanRows spans) f)) := onCl_canonical (fun _ h => h) hm
  exact h

theorem engineResetStep_canonical {e : Engine} (hm : Canonical m) : Canonical (engineResetStep m cl e) :=
  onCl_canonical (fun _ h1 => onEng_canonical h1) (fiOff_canonical (reseed_canonical (canonical_ite hm
      (stopRanges_canonical hm))))

theorem engineOff_canonical (hm : Canonical m) : Canonical (engineOff m d) :=
  canonical_foldl (fun _ _ h1 => onCl_canonical (fun _ h2 => h2) h1) hm

theorem streamResetStep_canonical {s : Nat} (hm : Canonical m) : Canonical (streamResetStep m d s) := by
  unfold streamResetStep
  refine onDie_canonical (fiOff_canonical (reseed_canonical (canonical_foldl (fun _ _ hb => onCl_canonical (fun _ hc => hc) hb)
    (engineOff_canonical ?_))))
  split
  · exact hm
  · exact fenceDests_canonical (m := m) hm

theorem ferryResetStep_canonical (hm : Canonical m) : Canonical (ferryResetStep m d) :=
  onDie_canonical (fiOff_canonical (reseed_canonical (engineOff_canonical hm)))

/-! ## RME, power, heat and scratchpad upkeep -/

theorem macStep_canonical {mode : Nat} (hm : Canonical m) : Canonical (macStep m cl mode) := by
  unfold macStep
  dsimp only
  split
  · exact canonical_ite (opEffect_canonical hm) hm
  · exact hm

theorem openStep_canonical (hm : Canonical m) : Canonical (openStep m cl) := by
  unfold openStep
  dsimp only
  split
  · refine canonical_ite ?_ hm
    split
    · exact opEffect_canonical hm
    · exact opEffect_canonical hm
  · exact hm

theorem trailingStep_canonical {block : Nat} (hm : Canonical m) : Canonical (trailingStep m cl block) := by
  unfold trailingStep
  dsimp only
  split
  · split
    · exact canonical_ite (opEffect_canonical hm) hm
    · exact hm
  · exact hm

theorem quiesceCheckStep_canonical (hm : Canonical m) : Canonical (quiesceCheckStep m) :=
  canonical_ite hm (canonical_ite (raiseEvt_canonical hm) (onQuay_canonical (fun _ h1 => h1) (canonical_foldl (fun _ _ h2
      => h2) hm)))

theorem idleEntryStep_canonical (hm : Canonical m) : Canonical (idleEntryStep m) := canonical_ite hm hm

theorem idleExitStep_canonical (hm : Canonical m) : Canonical (idleExitStep m) := canonical_ite hm hm

theorem restEntryStep_canonical (hm : Canonical m) : Canonical (restEntryStep m) := by
  unfold restEntryStep
  have hh := hedge_canonical hm
  have hq := quay_canonical hm
  refine canonical_ite hm (canonical_mk ?_ ?_ ?_ rfl hq) <;> dsimp only
  · exact clusters_tabOf fun _ => rfl
  · exact stks_tabOf fun _ => stkAt_canonical hm
  · exact ⟨hh.1, memWf_filter _ (sram_canonical hh), hh.2.2⟩

theorem restExit_canonical (hm : Canonical m) : Canonical (restExit m) := by
  unfold restExit
  have hh := hedge_canonical hm
  have hq := quay_canonical hm
  refine canonical_mk ?_ ?_ hh rfl hq <;> dsimp only
  · exact clusters_tabOf fun _ => clAt_canonical hm
  · exact stks_tabOf fun _ => stkAt_canonical hm

theorem aclkStepOf_canonical (hm : Canonical m) : Canonical (aclkStepOf m d) :=
  canonical_ite hm (canonical_ite (raiseEvt_canonical hm) hm)

theorem powerLevelOf_canonical {up : Bool} {h : Hedge} (hc : h.Canonical) : (powerLevelOf up h).Canonical :=
  Hedge.Canonical.ite (Hedge.Canonical.ite hc hc) (Hedge.Canonical.ite hc hc)

theorem raiseFault_canonical (hm : Canonical m) : Canonical (raiseFault m) := hm

theorem refclkMissingStep_canonical (hm : Canonical m) : Canonical (refclkMissingStep m) :=
  canonical_ite (raiseFault_canonical (onHedge_canonical (fun _ h1 => h1) (dropJobs_canonical hm))) hm

theorem aonLossStep_canonical (hm : Canonical m) : Canonical (aonLossStep m) := canonical_ite hm hm

theorem regulatorStep_canonical {rail : Nat} (hm : Canonical m) : Canonical (regulatorStep m rail) := by
  unfold regulatorStep
  extract_lets m1
  have h1 : Canonical m1 := logLater_canonical (dropJobs_canonical hm)
  exact canonical_ite hm h1

theorem overrunStep_canonical {e : Engine} (hm : Canonical m) : Canonical (overrunStep m cl e) := by
  unfold overrunStep
  split
  · exact canonical_ite (dieReset_canonical (engineBlame_canonical hm)) hm
  · exact hm

theorem thermalShutdown_canonical {e : LogEvent} (hm : Canonical m) : Canonical (thermalShutdown m e) :=
  countInterrupt_canonical (logLater_canonical (onHedge_canonical (fun _ h1 => h1) (railsDown_canonical hm)))

theorem flushCompl_canonical : ∀ {n i : Nat} {m : Module}, Canonical m → Canonical (flushCompl n i m)
  | 0, _, _, hm => hm
  | _ + 1, _, _, hm => flushCompl_canonical (m := completionStep ..) (completionStep_canonical hm)

theorem tCritStep_canonical {st : Fin 16} (hm : Canonical m) : Canonical (tCritStep m st) :=
  canonical_ite hm (thermalShutdown_canonical (dropJobs_canonical (onStk_canonical (fun _ h1 => h1) (flushCompl_canonical
      (canonical_foldl (fun _ _ h2 => killJob_canonical h2) hm)))))

theorem junctionStep_canonical (hm : Canonical m) : Canonical (junctionStep m die) :=
  canonical_ite (thermalShutdown_canonical (dropJobs_canonical hm)) hm

theorem scrubRewriteStep_canonical (hm : Canonical m) : Canonical (scrubRewriteStep m cl) := by
  unfold scrubRewriteStep
  split
  · exact hm
  · exact onCl_canonical (fun _ h1 => h1) hm

theorem scrubRowStep_canonical (hm : Canonical m) : Canonical (scrubRowStep m cl) := by
  unfold scrubRowStep
  split
  · exact hm
  · exact settleFences_canonical (onCl_canonical (fun _ h1 => memWf_zeroRow _ h1) hm)

theorem sliceWipeStep_canonical (hm : Canonical m) : Canonical (sliceWipeStep m cl) :=
  canonical_ite (settleFences_canonical (onCl_canonical (fun _ _ => rfl) hm)) hm

/-! ## Margin reviews and the log -/

theorem reviewOf_canonical {cause : ReviewCause} {ss : List SentinelSample} (hm : Canonical m) :
    Canonical (reviewOf m cause ss) := by
  unfold reviewOf
  extract_lets h k ovr c1 c m1 vt low h1 h2 m2 m3 m4
  have hm1 : Canonical m1 := fenceClusters_canonical hm
  have hh1 : h1.Canonical := hedge_canonical hm1
  have hh : h2.Canonical := by
    refine writeMargin_canonical ?_
    exact hh1
  have hm2 : Canonical m2 := logLater_canonical (withHedge_canonical hh hm1)
  have hm3 : Canonical m3 := canonical_foldl (fun _ _ h => onDie_canonical h) hm2
  have hm4 : Canonical m4 := raiseEvt_canonical hm3
  exact canonical_ite (raiseEvt_canonical hm4) hm4

theorem reviewStep_canonical {cause : ReviewCause} {ss : List SentinelSample} (hm : Canonical m) : Canonical (reviewStep m
    cause ss) :=
  canonical_ite (reviewOf_canonical hm) hm

theorem marchStep_canonical {failing : Bool} (hm : Canonical m) : Canonical (marchStep m cl failing) := by
  unfold marchStep
  extract_lets m1 m2 m3
  have h2 : Canonical m2 := onHedge_canonical (fun _ h => h) (onCl_canonical (fun _ h => h) hm)
  have h3 : Canonical m3 := fenceClusters_canonical h2
  exact canonical_ite hm (canonical_ite (onHedge_canonical (fun _ h => h) (onCl_canonical (fun _ h => h) hm))
    (canonical_ite (marginWritten_canonical h3) h2))

theorem logWriteStep_canonical {e : LogEvent} (hm : Canonical m) : Canonical (logWriteStep m e) :=
  canonical_ite hm (canonical_ite (onStk_canonical (fun _ h1 => h1) (onHedge_canonical (fun _ h2 => logAppend_canonical h2)
      hm)) (onHedge_canonical (fun _ h1 => logAppend_canonical h1) hm))

theorem heartbeatStep_canonical (hm : Canonical m) : Canonical (heartbeatStep m) :=
  canonical_ite hm (onHedge_canonical (fun _ h1 => logAppend_canonical ⟨(flash_canonical h1 :), (sram_canonical h1 :),
      (hmbData_canonical h1 :)⟩) hm)

theorem corrStep_canonical {unit count : Word} (hm : Canonical m) : Canonical (corrStep m unit count) :=
  canonical_ite hm (onHedge_canonical (fun _ h1 => logAppend_canonical h1) hm)

theorem reseedHedge_canonical {h : Hedge} (hc : h.Canonical) : (reseedHedge h).Canonical := Hedge.Canonical.ite hc hc

theorem healthStep_canonical (hm : Canonical m) : Canonical (healthStep m) :=
  canonical_ite (raiseFault_canonical hm) hm

/-! ## Public-Key Engine -/

theorem pkeStart_canonical (hm : Canonical m) : Canonical (pkeStart m) := canonical_ite hm (canonical_ite hm hm)

theorem pkeRegs_canonical {f : Pke → Pke} (hf : ∀ k : Pke, k.Canonical → (f k).Canonical) (hm : Canonical m) :
    Canonical (pkeRegs m f) :=
  onPke_canonical (fun k hk => Pke.Canonical.ite hk (hf k hk)) hm

theorem pkeCommand_canonical {opc : BitVec 8} {cls : BitVec 2} {a b c d : BitVec 8} (hm : Canonical m) : Canonical
    (pkeCommand m opc cls a b c d) :=
  pkeStart_canonical (pkeRegs_canonical (fun _ h1 => h1) hm)

theorem pkeDoneStep_canonical (hm : Canonical m) : Canonical (pkeDoneStep m) := by
  unfold pkeDoneStep
  split
  · exact hm
  · exact onPke_canonical (fun _ hk => of_foldl (P := fun t => memWf t = true) (fun _ _ ht => memWf_mput _ _ ht) hk) hm

theorem pkeWipeStep_canonical (hm : Canonical m) : Canonical (pkeWipeStep m) :=
  onPke_canonical (fun _ h1 => Pke.Canonical.ite h1 (Pke.Canonical.ite h1 rfl)) hm

theorem pkeDmaStart_canonical (hm : Canonical m) : Canonical (pkeDmaStart m) :=
  onPke_canonical (fun _ h1 => Pke.Canonical.ite h1 h1) hm

theorem pkeDmaDoneStep_canonical (hm : Canonical m) : Canonical (pkeDmaDoneStep m) := by
  unfold pkeDmaDoneStep
  split
  · exact hm
  · exact canonical_ite (canonical_mk (clusters_canonical hm :) (stks_canonical hm :) ⟨(flash_canonical (hedge_canonical hm
      :) :), memWf_mput _ _ (sram_canonical (hedge_canonical hm :) :), (hmbData_canonical (hedge_canonical hm :) :)⟩
          (pke_canonical hm :) (quay_canonical hm :)) (onPke_canonical (fun _ h1 => memWf_mput _ _ h1) hm)

theorem poolStep_canonical (hm : Canonical m) : Canonical (poolStep m) := by
  unfold poolStep
  refine canonical_ite hm ?_
  dsimp only
  split
  · exact hm
  · exact hm

/-! ## Mailbox and updates -/

theorem lcQuiesce_canonical (hm : Canonical m) : Canonical (lcQuiesce m) :=
  onQuay_canonical (fun _ h1 => h1) (canonical_foldl (fun _ _ h2 => killJob_canonical h2) hm)

theorem wipeMemories_canonical (hm : Canonical m) : Canonical (wipeMemories m) := by
  unfold wipeMemories
  extract_lets m1
  have h1 : Canonical m1 := pkeWipeStep_canonical (pkeDmaDoneStep_canonical (pkeDoneStep_canonical hm))
  clear_value m1
  have hh := hedge_canonical h1
  have hk := pke_canonical h1
  refine canonical_mk ?_ ?_ hh hk rfl <;> dsimp only
  · exact clusters_tabOf fun _ => clAt_canonical hm
  · exact stks_tabOf fun _ => stkAt_canonical hm

theorem unlockStep_canonical {token : List Byte} (hm : Canonical m) : Canonical (unlockStep m token) :=
  onHedge_canonical (fun _ h1 => h1) (wipeMemories_canonical (canonical_foldl (fun _ _ h2 => killJob_canonical h2) hm))

theorem mailRun_canonical {opc : Nat} {req : List Byte} (hm : Canonical m) : Canonical (mailRun m opc req).m := by
  unfold mailRun
  dsimp only
  split
  · exact hm
  · exact hm
  · refine of_ite (P := fun r : MailRun => Canonical r.m) ?_ ?_
    · exact onHedge_canonical (fun _ hc => hc) (canonical_ite hm hm)
    · exact canonical_ite hm hm
  · exact of_ite (P := fun r : MailRun => Canonical r.m) hm hm
  · exact of_ite (P := fun r : MailRun => Canonical r.m) (unlockStep_canonical hm) hm
  · exact of_ite (P := fun r : MailRun => Canonical r.m) hm hm
  · exact hm

theorem mailGo_canonical (hm : Canonical m) : Canonical (mailGo m) := by
  unfold mailGo
  refine canonical_ite hm (onHedge_canonical (fun _ hc => hc) ?_)
  exact of_ite (P := fun r : MailRun => Canonical r.m) hm (of_ite (P := fun r : MailRun => Canonical r.m) hm
    (of_ite (P := fun r : MailRun => Canonical r.m) hm (mailRun_canonical hm)))

theorem mailWrite_canonical {opc : BitVec 8} {req : List Byte} (hm : Canonical m) : Canonical (mailWrite m opc req) :=
  canonical_ite hm (onHedge_canonical (fun _ h1 => ⟨(flash_canonical h1 :), (sram_canonical h1 :), memWf_mput _ _
      (hmbData_canonical h1 :)⟩) hm)

theorem mailCommand_canonical {opc : BitVec 8} {req : List Byte} (hm : Canonical m) : Canonical (mailCommand m opc req) :=
  bar0_canonical (fun _ h1 => mailGo_canonical (mailWrite_canonical h1)) hm

theorem mailFinish_canonical {x : Mail} (hm : Canonical m) : Canonical (mailFinish m x) :=
  canonical_ite (canonical_ite (onQuay_canonical (fun _ h1 => h1) (raiseEvt_canonical (onHedge_canonical (fun _ h2 =>
      ⟨(flash_canonical h2 :), (sram_canonical h2 :), memWf_mput _ _ (hmbData_canonical h2 :)⟩) hm))) (raiseEvt_canonical
          (onHedge_canonical (fun _ h3 => ⟨(flash_canonical h3 :), (sram_canonical h3 :), memWf_mput _ _ (hmbData_canonical
              h3 :)⟩) hm))) (raiseEvt_canonical (onHedge_canonical (fun _ h1 => ⟨(flash_canonical h1 :), (sram_canonical h1
                  :), memWf_mput _ _ (hmbData_canonical h1 :)⟩) hm))

theorem sensorStep_canonical {n : Nat} (hm : Canonical m) : Canonical (sensorStep m n) := canonical_ite hm hm

theorem updateDataStep_canonical {bs : List Byte} (hm : Canonical m) : Canonical (updateDataStep m off bs) :=
  canonical_ite hm (onHedge_canonical (fun _ h1 => ⟨memWf_mput _ _ (flash_canonical h1 :), (sram_canonical h1 :),
      (hmbData_canonical h1 :)⟩) hm)

theorem verifyStep_canonical (hm : Canonical m) : Canonical (verifyStep m) := by
  unfold verifyStep
  split
  · exact canonical_ite hm hm
  · exact hm

theorem activateStep_canonical (hm : Canonical m) : Canonical (activateStep m) := by
  unfold activateStep
  split
  · exact canonical_ite (onHedge_canonical (fun _ h1 => ⟨memWf_setDirectory _ (flash_canonical h1 :), (sram_canonical h1
      :), (hmbData_canonical h1 :)⟩) hm) hm
  · exact hm

/-! ## NTE and moduli -/

theorem nteStep_canonical {op : Nat} (hm : Canonical m) : Canonical (nteStep m cl op) := by
  unfold nteStep
  dsimp only
  split
  · exact canonical_ite (opEffect_canonical hm) hm
  · exact hm

theorem modValidateStep_canonical {w : Word} (hm : Canonical m) : Canonical (modValidateStep m cl i w) :=
  onCl_canonical (fun _ h1 => h1) hm

theorem modDoneStep_canonical (hm : Canonical m) : Canonical (modDoneStep m cl i) :=
  onCl_canonical (fun _ h1 => h1) hm

/-! ## Plans -/

theorem planReject_canonical {j : Job} {late : Bool} {us : Nat} {fig : Receipt → Receipt} {r : Reject} (hm : Canonical m) :
    Canonical (planReject m tag j late us fig r) :=
  finishJob_canonical hm

theorem planDone_canonical {j : Job} {k : Checked} {hs : List HostTensor} {c : PlanChoice} {wait : BitVec 64} {us key flags
    : Nat} {id : Option Nat} (hm : Canonical m) : Canonical (planDone m tag j k hs c wait us key flags id) :=
  hm

theorem planReplay_canonical {j : Job} {k : Checked} {hs : List HostTensor} {p : CachedPlan} {c : PlanChoice} {key : Nat}
    (hm : Canonical m) : Canonical (planReplay m tag j k hs p c key) :=
  canonical_ite hm (planDone_canonical hm)

theorem planFresh_canonical {j : Job} {k : Checked} {hs : List HostTensor} {c : PlanChoice} {key : Nat} {again : Bool} (hm
    : Canonical m) : Canonical (planFresh m tag j k hs c key again) :=
  planDone_canonical hm

theorem planNew_canonical {j : Job} {b : List Byte} {k : Checked} {hs : List HostTensor} {c : PlanChoice} {key : Nat}
    {again : Bool} (hm : Canonical m) : Canonical (planNew m tag j b k hs c key again) :=
  canonical_ite hm (canonical_ite (planReject_canonical hm) (canonical_ite (planReject_canonical hm) (canonical_ite hm
      (canonical_ite (planReject_canonical hm) (planFresh_canonical hm)))))

theorem planValid_canonical {j : Job} {b : List Byte} {k : Checked} {hs : List HostTensor} {c : PlanChoice} (hm : Canonical
    m) : Canonical (planValid m tag j b k hs c) := by
  unfold planValid
  refine canonical_ite (planReject_canonical hm) ?_
  split
  · exact canonical_ite (planNew_canonical hm) (planReplay_canonical hm)
  · exact planNew_canonical hm

theorem planGraph_canonical {j : Job} {b : List Byte} {c : PlanChoice} (hm : Canonical m) : Canonical (planGraph m tag j b
    c) := by
  unfold planGraph
  split
  · exact planReject_canonical hm
  · refine canonical_ite (finishJob_canonical hm) ?_
    split
    · exact finishJob_canonical hm
    · exact planValid_canonical hm

theorem planHand_canonical {j : Job} {b : List Byte} {c : PlanChoice} (hm : Canonical m) : Canonical (planHand m tag j b c)
    := by
  unfold planHand
  refine canonical_ite (planReject_canonical hm) ?_
  split
  · exact planReject_canonical hm
  · exact canonical_ite hm hm

theorem planStep_canonical {image : List Byte} {c : PlanChoice} (hm : Canonical m) : Canonical (planStep m tag image c) :=
    by
  unfold planStep
  split
  · exact hm
  · exact canonical_ite hm (canonical_ite (planHand_canonical hm) (planGraph_canonical hm))

/-! ## Links at fault and fault injection -/

theorem settleRetry_canonical {old : Link} {e : LinkEnd} (hm : Canonical m) : Canonical (settleRetry old m e) := by
  unfold settleRetry
  split
  · exact hm
  · exact hm

theorem deliver_canonical {e : LinkEnd} {b : List Byte} (hm : Canonical m) : Canonical (deliver m e b) := by
  unfold deliver
  refine canonical_ite hm ?_
  split
  · exact onLink_canonical hm
  · exact onLink_canonical hm

theorem receiveAt_canonical {e : LinkEnd} {b : List Byte} (hm : Canonical m) : Canonical (receiveAt m e b) :=
  canonical_ite (deliver_canonical (settleRetry_canonical (onLink_canonical (onLink_canonical hm)))) (onLink_canonical hm)

theorem flitReceiveStep_canonical {e : LinkEnd} {b : List Byte} (hm : Canonical m) : Canonical (flitReceiveStep m e b) :=
  receiveAt_canonical (onLink_canonical hm)

theorem linkDead_canonical {e : LinkEnd} (hm : Canonical m) : Canonical (linkDead m e) := by
  unfold linkDead
  split
  · exact dieReset_canonical hm
  · exact hm

theorem exhaustedStep_canonical {e : LinkEnd} (hm : Canonical m) : Canonical (exhaustedStep m e) :=
  canonical_ite hm (canonical_ite (linkDead_canonical (onLink_canonical (logLater_canonical (onLink_canonical hm))))
      (canonical_foldl (fun _ _ h1 => h1) (logLater_canonical (onLink_canonical hm))))

theorem retrainStep_canonical {e : LinkEnd} {good : Bool} (hm : Canonical m) : Canonical (retrainStep m e good) :=
  canonical_ite hm (canonical_ite (onLink_canonical hm) (canonical_ite (onLink_canonical hm) (linkDead_canonical
      (onLink_canonical hm))))

theorem fiWrite_canonical {r : FiReg} (hm : Canonical m) : Canonical (fiWrite m r v) := by
  unfold fiWrite
  refine canonical_ite hm ?_
  split
  · exact hm
  · exact hm
  · exact onStk_canonical (fun _ h1 => h1) hm

theorem fiLink_canonical {e : LinkEnd} {b next : List Byte} (hm : Canonical m) : Canonical (fiLink m e b next) := by
  unfold fiLink
  refine canonical_ite hm ?_
  dsimp only
  split
  · exact onLink_canonical (onLink_canonical hm)
  · exact receiveAt_canonical (onLink_canonical (onLink_canonical hm))
  · exact receiveAt_canonical (receiveAt_canonical (onLink_canonical (onLink_canonical (onLink_canonical hm))))

theorem fiScratch_canonical {w : Nat} (hm : Canonical m) : Canonical (fiScratch m cl w) :=
  canonical_ite hm (onCl_canonical (fun _ h1 => Cluster.Canonical.ite (memWf_mputWords _ _ h1) h1) hm)

theorem fiUnit_canonical (hm : Canonical m) : Canonical (fiUnit m st off) :=
  canonical_ite hm (onStk_canonical (fun _ h1 => h1) hm)

/-! ## Submission and key commands -/

theorem jobArrives_canonical {e tab pat : List Byte} {mine : Nat → Bool} (hm : Canonical m) : Canonical (jobArrives m i e
    tab pat mine) :=
  canonical_ite hm (canonical_ite hm hm)

theorem admitStep_canonical (hm : Canonical m) : Canonical (admitStep m tag) := by
  unfold admitStep
  split
  · exact hm
  · exact canonical_ite hm hm

theorem keyCompletion_canonical {ring : Nat} {cid : Word} {status : BitVec 8} {count : Word} (hm : Canonical m) : Canonical
    (keyCompletion m ring cid status count) :=
  hm

theorem storePages_canonical {k : KeySet} {pages : List (List Byte)} (hm : Canonical m) : Canonical (storePages m k pages)
    :=
  canonical_foldl (fun _ _ h1 => quayPut_canonical h1) hm

theorem keyLoadStep_canonical {e man : List Byte} {pages : List (List Byte)} (hm : Canonical m) : Canonical (keyLoadStep m
    i e man pages) := by
  unfold keyLoadStep
  refine canonical_ite hm (canonical_ite hm ?_)
  split
  · exact hm
  · exact canonical_ite (onQuay_canonical (fun _ h1 => h1) (storePages_canonical hm)) hm

theorem keyLoadDoneStep_canonical (hm : Canonical m) : Canonical (keyLoadDoneStep m i) := by
  unfold keyLoadDoneStep
  split
  · exact hm
  · dsimp only
    split
    · exact hm
    · exact canonical_ite hm (keyCompletion_canonical hm)

theorem keyUnloadStep_canonical {e : List Byte} (hm : Canonical m) : Canonical (keyUnloadStep m i e) :=
  canonical_ite hm (canonical_ite hm (canonical_ite hm (canonical_ite hm (keyCompletion_canonical hm))))

theorem hostReadErrorStep_canonical {site : HostReadSite} (hm : Canonical m) : Canonical (hostReadErrorStep m site) := by
  unfold hostReadErrorStep
  split
  · exact canonical_ite hm hm
  · split
    · exact canonical_ite (aerReport_canonical (finishJob_canonical hm)) hm
    · exact hm
  · split
    · exact canonical_ite (aerReport_canonical (killJob_canonical hm)) hm
    · exact hm
  · exact canonical_ite hm hm

/-! ## Register writes without a reset -/

theorem writeHalf_canonical {key : Nat} {upper : Bool} {cur : BitVec 64} {f : BitVec 64 → Module → Module} (hf : ∀ y n,
    Canonical n → Canonical (f y n)) (hm : Canonical m) : Canonical (writeHalf m key upper v cur f) :=
  canonical_ite (hf _ _ hm) hm

theorem scbCtrlWrite_canonical (hm : Canonical m) : Canonical (scbCtrlWrite m cl v) :=
  onCl_canonical (fun _ h1 => h1) hm

theorem seqWrite_canonical (hm : Canonical m) : Canonical (seqWrite m cl off v) :=
  canonical_ite (canonical_ite (onCl_canonical (fun _ h1 => h1) hm) hm) (canonical_ite (canonical_ite hm hm) (canonical_ite
      (onCl_canonical (fun _ h2 => h2) hm) (canonical_ite (onCl_canonical (fun _ h3 => Cluster.Canonical.ite h3 h3) hm)
          (canonical_ite (writeHalf_canonical (fun _ _ h4 => onCl_canonical (fun _ h5 => h5) h4) hm) (canonical_ite
              (onCl_canonical (fun _ h4 => h4) hm) hm)))))

theorem clWrite_canonical {b : ClBlock} (hm : Canonical m) : Canonical (clWrite m cl b off v) := by
  unfold clWrite
  split
  · exact seqWrite_canonical hm
  · exact canonical_ite (scbCtrlWrite_canonical hm) hm
  · exact onCl_canonical (fun _ h1 => Cluster.Canonical.ite h1 (Cluster.Canonical.ite h1 (Cluster.Canonical.ite h1
      (Cluster.Canonical.ite h1 h1)))) hm
  · exact onCl_canonical (fun _ h1 => Cluster.Canonical.ite h1 (Cluster.Canonical.ite h1 (Cluster.Canonical.ite h1
      (Cluster.Canonical.ite h1 h1)))) hm
  · exact onCl_canonical (fun _ h1 => Cluster.Canonical.ite h1 (Cluster.Canonical.ite h1 (Cluster.Canonical.ite h1
      (Cluster.Canonical.ite h1 h1)))) hm

theorem steWrite_canonical (hm : Canonical m) : Canonical (steWrite m d off v) :=
  canonical_ite hm (canonical_ite hm (canonical_ite hm (canonical_ite hm (canonical_ite hm (canonical_ite hm (canonical_ite
      hm hm))))))

theorem ferWrite_canonical (hm : Canonical m) : Canonical (ferWrite m d off v) :=
  canonical_ite (writeHalf_canonical (fun _ _ h1 => h1) hm) (canonical_ite hm hm)

theorem mscWrite_canonical (hm : Canonical m) : Canonical (mscWrite m st off v) :=
  canonical_ite (canonical_ite (onStk_canonical (fun _ h1 => h1) hm) hm) (canonical_ite (fiWrite_canonical hm)
      (canonical_ite (onStk_canonical (fun _ h2 => h2) hm) hm))

theorem dieWrite_canonical {b : DieBlock} (hm : Canonical m) : Canonical (dieWrite m d b off v) := by
  unfold dieWrite
  split
  · exact ferWrite_canonical hm
  · exact steWrite_canonical hm
  · exact canonical_ite (fiWrite_canonical hm) (canonical_ite hm hm)
  · exact canonical_ite (onCl_canonical (fun _ h1 => Cluster.Canonical.ite (Cluster.Canonical.ite h1 (Cluster.Canonical.ite
      h1 (Cluster.Canonical.ite h1 (memWf_remapSlice _)))) (Cluster.Canonical.ite (Cluster.Canonical.ite h1
          (Cluster.Canonical.ite h1 (Cluster.Canonical.ite h1 (memWf_remapSlice _)))) (Cluster.Canonical.ite h1
              (Cluster.Canonical.ite h1 (Cluster.Canonical.ite h1 (memWf_remapSlice _)))))) hm) (canonical_ite
                  (fiWrite_canonical hm) hm)
  · exact mscWrite_canonical hm
  · exact mscWrite_canonical hm

theorem msixWrite_canonical (hm : Canonical m) : Canonical (msixWrite m off v) :=
  canonical_ite hm (canonical_ite (canonical_ite hm hm) hm)

theorem ringBase_canonical {cq : Bool} {x : BitVec 64} (hm : Canonical m) : Canonical (ringBase m i cq x) :=
  canonical_ite (canonical_ite hm hm) (canonical_ite hm hm)

theorem ringRegWrite_canonical (hm : Canonical m) : Canonical (ringRegWrite m off v) :=
  canonical_ite (writeHalf_canonical (fun _ _ h1 => ringBase_canonical h1) hm) (canonical_ite (writeHalf_canonical (fun _ _
      h2 => ringBase_canonical h2) hm) (canonical_ite (sqCfgWrite_canonical hm) (canonical_ite (cqCfgWrite_canonical hm)
          (canonical_ite hm hm))))

theorem hmbWrite_canonical (hm : Canonical m) : Canonical (hmbWrite m off v) :=
  canonical_ite (canonical_ite hm hm) (canonical_ite (canonical_ite (mailGo_canonical hm) hm) (canonical_ite hm
      (canonical_ite hm (canonical_ite (onHedge_canonical (fun _ h1 => ⟨(flash_canonical h1 :), (sram_canonical h1 :),
          memWf_mput _ _ (hmbData_canonical h1 :)⟩) hm) hm))))

theorem pkeWrite_canonical (hm : Canonical m) : Canonical (pkeWrite m off v) :=
  canonical_ite (pkeRegs_canonical (fun _ h1 => h1) hm) (canonical_ite (pkeRegs_canonical (fun _ h2 => h2) hm)
      (canonical_ite (pkeRegs_canonical (fun _ h3 => h3) hm) (canonical_ite (canonical_ite (pkeStart_canonical hm) hm)
          (canonical_ite hm (canonical_ite (canonical_ite (pkeWipeStep_canonical hm) hm) (canonical_ite hm (canonical_ite
              hm (canonical_ite (canonical_ite (pkeDmaStart_canonical hm) hm) (canonical_ite hm (canonical_ite hm
                  hm))))))))))

/-! ## Landing points and replays -/

theorem copyObject_canonical {sets : List CustomSet} {p : CopyPlan} (hm : Canonical m) : Canonical (copyObject m sets p) :=
    by
  unfold copyObject
  dsimp only
  split
  · exact stkPut_canonical hm
  · exact hm

theorem saveRows_canonical {s : RowSave} (hm : Canonical m) : Canonical (saveRows m s) := stkPut_canonical hm

theorem saveRoles_canonical {j : Job} {r : Nat × Nat} (hm : Canonical m) : Canonical (saveRoles j m r) :=
  stkPut_canonical hm

theorem auditLive_canonical {j : Job} (hm : Canonical m) : Canonical (auditLive m tag j) := by
  unfold auditLive
  refine canonical_ite hm (of_foldl (fun _ _ hb => canonical_ite ?_ hb) hm)
  split
  · next e => exact failMain_canonical (canonical_of_fst e (auditParts_canonical hb))
  · next e => exact canonical_of_fst e (auditParts_canonical hb)

theorem landingStep_canonical (hm : Canonical m) : Canonical (landingStep m tag) := by
  unfold landingStep
  split
  · exact hm
  · refine canonical_ite hm ?_
    split
    · exact hm
    · exact canonical_ite (auditLive_canonical (canonical_foldl (fun _ _ h1 => scrAccess_canonical h1) hm))
        (onJob_canonical (canonical_foldl (fun _ _ h1 => saveRoles_canonical h1) (canonical_foldl (fun _ _ h2 =>
            saveRows_canonical h2) (canonical_foldl (fun _ _ h3 => copyObject_canonical h3) (auditLive_canonical
                (canonical_foldl (fun _ _ h4 => scrAccess_canonical h4) hm))))))

theorem restartJob_canonical {j : Job} (hm : Canonical m) : Canonical (restartJob m tag j) :=
  canonical_foldl (fun _ _ h1 => fillPools_canonical h1) (canonical_foldl (fun _ _ h2 => h2) (canonical_foldl (fun _ _ h3
      => h3) (canonical_foldl (fun _ _ h4 => onCl_canonical (fun _ h5 => h5) h4) hm)))

theorem restoreJob_canonical {j : Job} {p : LandingPoint} (hm : Canonical m) : Canonical (restoreJob m tag j p) :=
  canonical_foldl (fun _ _ h1 => h1) (canonical_foldl (fun _ _ h2 => onCl_canonical (fun _ h3 => memWf_restoreCluster _ _ _
      _ _ _ (fun _ h4 => memWf_restoreRows _ _ _ _ h4) h3) h2) hm)

theorem seeCopy_canonical {p : LandingPoint} (hm : Canonical m) : Canonical (seeCopy tag m p) :=
  canonical_foldl (fun _ _ h1 => stkAccess_canonical h1) hm

theorem restoreUnc_canonical {u : LostUnit} (hm : Canonical m) : Canonical (restoreUnc tag m u) :=
  logLater_canonical (onStk_canonical (fun _ h1 => h1) hm)

theorem zeroLost_canonical {u : LostUnit} (hm : Canonical m) : Canonical (zeroLost m u) :=
  onCl_canonical (fun _ h1 => memWf_mputWords _ _ h1) hm

theorem replayStep_canonical {cause : ReplayCause} {lost : List LostUnit} (hm : Canonical m) : Canonical (replayStep m tag
    cause lost) := by
  unfold replayStep
  split
  · exact hm
  · refine canonical_ite hm (canonical_ite (canonical_foldl (fun _ _ h1 => restoreUnc_canonical h1) ?_) (onJob_canonical
      (canonical_foldl (fun _ _ h2 => zeroLost_canonical h2) ?_)))
    · split
      · exact seeCopy_canonical hm
      · exact hm
    · split
      · refine restoreJob_canonical (dropFlagIn_canonical (canonical_foldl (fun _ _ h3 => restoreUnc_canonical h3) ?_))
        split
        · exact seeCopy_canonical hm
        · exact hm
      · exact restartJob_canonical hm

/-! ## SPDM and DOE -/

theorem spdmServe_canonical {f : Module → Module} (hf : ∀ n, Canonical n → Canonical (f n)) (hm : Canonical m) : Canonical
    (spdmServe m f) :=
  canonical_ite (hf _ hm) hm

theorem spdmWhen_canonical {c : Bool} {f : Module → Module} (hf : ∀ n, Canonical n → Canonical (f n)) (hm : Canonical m) :
    Canonical (spdmWhen m c f) :=
  spdmServe_canonical (fun _ h1 => canonical_ite (hf _ h1) h1) hm

theorem spdmVersionStep_canonical (hm : Canonical m) : Canonical (spdmVersionStep m) :=
  spdmServe_canonical (fun _ h1 => h1) hm

theorem spdmCapsStep_canonical {flags : Word} (hm : Canonical m) : Canonical (spdmCapsStep m flags) :=
  spdmWhen_canonical (fun _ hn => hn) hm

theorem spdmAlgsStep_canonical {algs : Word} (hm : Canonical m) : Canonical (spdmAlgsStep m algs) :=
  spdmWhen_canonical (fun _ h1 => h1) hm

theorem spdmDigestsStep_canonical (hm : Canonical m) : Canonical (spdmDigestsStep m) :=
  spdmWhen_canonical (fun _ h1 => h1) hm

theorem spdmCertStep_canonical {slot : BitVec 8} {off len : BitVec 16} (hm : Canonical m) : Canonical (spdmCertStep m slot
    off len) :=
  spdmWhen_canonical (fun _ h1 => canonical_ite h1 h1) hm

theorem spdmChallengeStep_canonical {slot : BitVec 8} {nonce : List Byte} (hm : Canonical m) : Canonical (spdmChallengeStep
    m slot nonce) :=
  spdmWhen_canonical (fun _ hn => canonical_ite hn hn) hm

theorem spdmMeasStep_canonical {signed : Bool} {index : BitVec 8} {nonce : List Byte} (hm : Canonical m) : Canonical
    (spdmMeasStep m signed index nonce) := by
  unfold spdmMeasStep
  refine spdmWhen_canonical (fun n hn => canonical_ite hn ?_) hm
  exact of_ite (P := fun r : List Byte × Module => Canonical r.2) hn hn

theorem spdmKexStep_canonical {share : List Byte} (hm : Canonical m) : Canonical (spdmKexStep m share) :=
  spdmWhen_canonical (fun _ hn => canonical_ite hn (canonical_ite hn hn)) hm

theorem spdmFinishStep_canonical {good : Bool} (hm : Canonical m) : Canonical (spdmFinishStep m good) :=
  spdmWhen_canonical (fun _ h1 => canonical_ite h1 h1) hm

theorem ideStep_canonical {stream : Nat} {op : IdeOp} (hm : Canonical m) : Canonical (ideStep m stream op) := by
  unfold ideStep
  refine spdmWhen_canonical (fun _ h1 => ?_) hm
  split
  · exact h1
  · exact h1

theorem doeStep_canonical {index : BitVec 8} (hm : Canonical m) : Canonical (doeStep m index) := canonical_ite hm hm

/-! ## Transfers -/

theorem auditEgress_canonical {slot plen : Nat} {hb : List Byte} (hm : Canonical m) : Canonical (auditEgress m tag cl slot
    plen hb).1 := by
  unfold auditEgress
  split
  · refine of_ite (P := fun r : Module × List Byte => Canonical r.1) hm ?_
    exact auditParts_canonical hm
  · exact hm

theorem noteIngest_canonical {v : Move} {units : List (List Word)} {walk : List (Bool × Int)} {objs : List Moved} (hm :
    Canonical m) : Canonical (noteIngest tag v units walk objs m) :=
  canonical_ite hm hm

theorem egressObj_canonical {v : Move} {inb : Bool} {addr : Nat} {o : Moved} {hslot : Nat} (hm : Canonical m) : Canonical
    (egressObj m tag v k inb addr o hslot).1 := by
  unfold egressObj
  extract_lets plen host
  generalize hr : (if (host && decide (v.ps.kind = 0)) = true then auditEgress m tag v.ps.cl ((hslot + k) % 1024) plen o.hdr
    else (m, o.hdr)) = r
  have h : Canonical r.1 := hr ▸ of_ite (P := fun r : Module × List Byte => Canonical r.1) (auditEgress_canonical hm) hm
  exact canonical_ite h h

theorem countMove_canonical {oob clip : Nat} {objs : List Moved} (hm : Canonical m) : Canonical (countMove m die tag oob
    clip objs) :=
  hm

theorem noteReplica_canonical {v : Move} (hm : Canonical m) : Canonical (noteReplica m v) := by
  unfold noteReplica
  refine canonical_ite ?_ hm
  dsimp only
  split
  · exact hm
  · exact hm

theorem putHeaders_canonical {v : Move} {hslot : Nat} {objs : List Moved} {walk : List (Bool × Int)} (hm : Canonical m) :
    Canonical (putHeaders m cl tag v hslot objs walk) :=
  canonical_ite (writeWords_canonical hm) (canonical_ite (onCl_canonical (fun _ h1 => Cluster.Canonical.foldl (fun _ _ h2
      => h2) h1) hm) hm)

theorem egressAll_canonical {v : Move} {hslot : Nat} : ∀ {os : List Moved} {ws : List (Bool × Int)} {k : Nat} {m : Module},
    Canonical m → Canonical (egressAll tag v hslot m k ws os).1
  | [], [], _, _, hm | [], _ :: _, _, _, hm | _ :: _, [], _, _, hm => hm
  | _ :: _, _ :: _, _, _, hm => egressAll_canonical (m := (egressObj ..).1) (egressObj_canonical hm)

theorem egressed_canonical {obj : Bool} {v : Move} {hslot : Nat} {ws : List (Bool × Int)} {os os0 : List Moved} (hm :
    Canonical m) : Canonical (if obj then egressAll tag v hslot m 0 ws os else (m, os0)).1 := by
  split
  · exact egressAll_canonical hm
  · exact hm

theorem moveStep_canonical {s : Nat} {st : Stream} {v : Move} {host : List Word} (hm : Canonical m) : Canonical (moveStep m
    die s st v host) := by
  unfold moveStep
  extract_lets tag hslot rix sw dw us units bad objs0 m1 words badElts plen dObjs
  have h1 : Canonical m1 := noteIngest_canonical (readFx_canonical (crossPath_canonical hm))
  have hegress := egressed_canonical (obj := v.dst.obj) (tag := tag) (v := v) (hslot := hslot) (ws := dw) (os := dObjs)
    (os0 := objs0) h1
  split
  next m2 outs hout =>
  have h2 : Canonical m2 := canonical_of_fst hout hegress
  extract_lets written sent m3 m4 m5 m6 m7 m8
  have h3 : Canonical m3 := writeWords_canonical (crossPath_canonical h2)
  have h4 : Canonical m4 := putHeaders_canonical (canonical_ite h3 (markLost_canonical h3))
  have h5 : Canonical m5 := onCl_canonical (fun _ hc => hc) h4
  have h6 : Canonical m6 := countMove_canonical h5
  have h7 : Canonical m7 := canonical_ite h6 h6
  exact onSte_canonical (bankSlips_canonical (noteReplica_canonical h7))

theorem releaseOp_canonical {opid : Nat} (hm : Canonical m) : Canonical (releaseOp m cl opid) :=
  onCl_canonical (fun _ h1 => h1) hm

theorem transferStep_canonical {s : Nat} {host : List Word} (hm : Canonical m) : Canonical (transferStep m die s host) := by
  unfold transferStep
  dsimp only
  split
  · exact hm
  · refine canonical_ite hm ?_
    split
    · exact killJob_canonical hm
    · exact canonical_ite hm (moveStep_canonical hm)

theorem boundaryStep_canonical {s : Nat} (hm : Canonical m) : Canonical (boundaryStep m die s) := by
  unfold boundaryStep
  dsimp only
  split
  · exact hm
  · refine canonical_ite hm ?_
    split
    · refine canonical_ite (addFlag_canonical (canonical_ite (addFlag_canonical ?_) ?_)) (canonical_ite (addFlag_canonical
        ?_) ?_)
      · split
        · exact releaseOp_canonical hm
        · exact canonical_ite hm (releaseOp_canonical hm)
      · split
        · exact releaseOp_canonical hm
        · exact canonical_ite hm (releaseOp_canonical hm)
      · split
        · exact releaseOp_canonical hm
        · exact canonical_ite hm (releaseOp_canonical hm)
      · split
        · exact releaseOp_canonical hm
        · exact canonical_ite hm (releaseOp_canonical hm)
    · refine canonical_ite (addFlag_canonical ?_) ?_
      · split
        · exact releaseOp_canonical hm
        · exact canonical_ite hm (releaseOp_canonical hm)
      · split
        · exact releaseOp_canonical hm
        · exact canonical_ite hm (releaseOp_canonical hm)

theorem vecStep_canonical (hm : Canonical m) : Canonical (vecStep m cl) := by
  unfold vecStep
  dsimp only
  split
  · exact canonical_ite hm (canonical_ite (killJob_canonical (onCl_canonical (fun _ h1 => h1) hm)) (opEffect_canonical hm))
  · exact hm

/-! ## Operations at several sites, and the a-cycle that passes -/

theorem resetUnit_canonical {u : ResetUnit} (hm : Canonical m) : Canonical (resetUnit m u) := by
  unfold resetUnit
  split
  · exact canonical_ite (engineResetStep_canonical hm) hm
  · exact streamResetStep_canonical hm
  · exact ferryResetStep_canonical hm

theorem fiStep_canonical {site : FiSite} (hm : Canonical m) : Canonical (fiStep m site) := by
  unfold fiStep
  split
  · exact fiLink_canonical hm
  · exact fiScratch_canonical hm
  · exact fiUnit_canonical hm

theorem recoverBoot_canonical (hm : Canonical m) : Canonical (recoverBoot m) :=
  canonical_mk clusters_nil stks_nil ⟨(flash_canonical (readLog_canonical (hedge_canonical hm :)) :), rfl,
      (hmbData_canonical (readLog_canonical (hedge_canonical hm :)) :)⟩ (pke_canonical hm :) (quay_canonical hm :)

/-! ## Resets -/

theorem burnImage_canonical {h : Hedge} (hc : h.Canonical) : (burnImage h).Canonical := hc

theorem loadPlanner_canonical {x : Hedge} {q : Quay} : (loadPlanner x q).Canonical := memWf_mput _ _ rfl

theorem bootImage_canonical {slot : Nat} (hm : Canonical m) : Canonical (bootImage m slot) := by
  unfold bootImage
  extract_lets h1 h2 t
  split
  extract_lets m1 m2 q
  have hh : h2.Canonical := coldIdentity_canonical (burnImage_canonical (readLog_canonical (coldMargin_canonical
    (loadImage_canonical (hedge_canonical hm)))))
  have hm1 : Canonical m1 := withHedge_canonical (m := { m with free := m.free + 1 }) (h := m1.hedge) hh hm
  have hm2 : Canonical m2 := resetAllDies_canonical hm1
  have hq : q.Canonical := loadPlanner_canonical
  clear_value m2 q
  obtain ⟨hc, hs, hh', hk, -⟩ := canonical_iff.1 hm2
  exact endOfService_canonical (canonical_mk hc (stks_map (fun _ hs => hs) hs) hh' hk hq)

theorem coldStart_canonical (hm : Canonical m) : Canonical (coldStart m) := by
  unfold coldStart
  extract_lets h
  split
  extract_lets m1
  have h1 : Canonical m1 := withHedge_canonical (hedge_canonical hm) hm
  split
  · exact bootImage_canonical h1
  · exact recoverBoot_canonical h1

theorem coldReset_canonical {perst : Bool} (hm : Canonical m) : Canonical (coldReset m perst) :=
  coldStart_canonical (canonical_mk (clusters_canonical (dropJobs_canonical hm) :) (stks_canonical (dropJobs_canonical hm)
      :) (resetHedge_canonical (hedge_canonical hm :)) rfl rfl)

theorem coldResetStep_canonical {perst : Bool} (hm : Canonical m) : Canonical (coldResetStep m perst) :=
  canonical_ite (coldReset_canonical hm) hm

theorem powerOn_canonical (hm : Canonical m) : Canonical (powerOn m) :=
  coldStart_canonical (canonical_mk clusters_nil stks_nil ⟨(flash_canonical (dropUpdate_canonical (hedge_canonical hm :))
      :), rfl, rfl⟩ rfl rfl)

theorem retireRegions_canonical {h : Hedge} {s : Stack} (hs : s.Canonical) : (retireRegions h st s).Canonical := hs

theorem stks_retire {h : Hedge} {l : List Nat} {t : Tab Stack} (ht : StacksCanonical t) :
    StacksCanonical (l.foldl (fun t st => tmod {} t st (retireRegions h st)) t) :=
  of_foldl (P := StacksCanonical) (fun _ _ ht => stks_tmod (fun _ hs => retireRegions_canonical hs) ht) ht

theorem stackRewriteOne_canonical {s : Stack} (hs : s.Canonical) : (stackRewriteOne s).Canonical := by
  unfold stackRewriteOne
  split
  · exact hs
  · exact Stack.Canonical.ite hs hs

theorem warmReset_canonical {linkUp : Bool} (hm : Canonical m) : Canonical (warmReset m linkUp) := by
  have h0 := dropJobs_canonical hm
  have hh := resetHedge_canonical (hedge_canonical hm)
  unfold warmReset
  generalize dropJobs m = m0 at h0
  generalize resetHedge m.hedge = h0' at hh
  extract_lets s0 m1 evs m2 h2
  have hm1 : Canonical m1 := canonical_mk (clusters_canonical (m := m0) h0) (stks_canonical (m := m0) h0) hh rfl rfl
  have hm2 : Canonical m2 := resetAllDies_canonical hm1
  clear_value m1 m2
  split
  · exact hm1
  split
  · exact countInterrupt_canonical (coldReset_canonical hm1)
  obtain ⟨hc, hs, hh', hk, -⟩ := canonical_iff.1 hm2
  refine canonical_mk hc ?_ hh' hk loadPlanner_canonical
  dsimp only
  exact stks_retire hs

theorem warmResetStep_canonical {linkUp : Bool} (hm : Canonical m) : Canonical (warmResetStep m linkUp) :=
  canonical_ite (warmReset_canonical hm) hm

theorem wresetStep_canonical {v : BitVec 8} (hm : Canonical m) : Canonical (wresetStep m v) :=
  canonical_ite (warmResetStep_canonical hm) hm

theorem dlDownStep_canonical (hm : Canonical m) : Canonical (dlDownStep m) := warmResetStep_canonical hm

theorem d0Step_canonical (hm : Canonical m) : Canonical (d0Step m) :=
  canonical_ite hm (canonical_ite (countInterrupt_canonical (coldReset_canonical hm)) (restExit_canonical hm))

theorem refclkStableStep_canonical (hm : Canonical m) : Canonical (refclkStableStep m) :=
  canonical_ite hm (coldResetStep_canonical hm)

theorem firmwareWatchdogStep_canonical (hm : Canonical m) : Canonical (firmwareWatchdogStep m) :=
  canonical_ite (warmResetStep_canonical hm) hm

theorem plannerWatchdogStep_canonical (hm : Canonical m) : Canonical (plannerWatchdogStep m) :=
  canonical_ite (warmResetStep_canonical hm) hm

theorem lifecycleStep_canonical (hm : Canonical m) : Canonical (lifecycleStep m) := by
  unfold lifecycleStep
  split
  · exact canonical_ite hm (coldReset_canonical (onHedge_canonical (fun _ h1 => h1) (wipeMemories_canonical hm)))
  · exact hm

theorem mailDoneStep_canonical (hm : Canonical m) : Canonical (mailDoneStep m) := by
  unfold mailDoneStep
  split
  · exact hm
  · exact canonical_ite (warmResetStep_canonical (mailFinish_canonical hm)) (canonical_ite (lcQuiesce_canonical
      (mailFinish_canonical hm)) (mailFinish_canonical hm))

/-! ## Register writes -/

theorem glbCtrlWrite_canonical (hm : Canonical m) : Canonical (glbCtrlWrite m v) :=
  wresetStep_canonical (canonical_ite (canonical_ite (qrelStep_canonical (canonical_ite hm hm)) (canonical_ite hm hm))
      (canonical_ite (lockStep_canonical (idereqStep_canonical (canonical_ite (qrelStep_canonical (canonical_ite hm hm))
          (canonical_ite hm hm)))) (idereqStep_canonical (canonical_ite (qrelStep_canonical (canonical_ite hm hm))
              (canonical_ite hm hm)))))

theorem glbWrite_canonical (hm : Canonical m) : Canonical (glbWrite m off v) :=
  canonical_ite (glbCtrlWrite_canonical hm) (canonical_ite (writeHalf_canonical (fun _ _ h1 => glbKillStep_canonical h1)
      hm) (canonical_ite (glbHostStep_canonical hm) (canonical_ite (glbPcapStep_canonical hm) (canonical_ite hm
          (canonical_ite hm (canonical_ite (msixWrite_canonical hm) hm))))))

theorem bar0Word_canonical (hm : Canonical m) : Canonical (bar0Word m off v) :=
  canonical_ite (glbWrite_canonical hm) (canonical_ite (canonical_ite (ringRegWrite_canonical hm) hm) (canonical_ite
      (canonical_ite hm (canonical_ite (sqTailStep_canonical hm) (canonical_ite (cqHeadStep_canonical hm) hm)))
          (canonical_ite (hmbWrite_canonical hm) hm)))

theorem regWord_canonical {t : RegTarget} (hm : Canonical m) : Canonical (regWord m t off v) := by
  unfold regWord
  split
  · exact bar0Word_canonical hm
  · exact clWrite_canonical hm
  · exact dieWrite_canonical hm
  · exact pkeWrite_canonical hm

theorem regWrite_canonical {t : RegTarget} {wide : Bool} {v : BitVec 64} (hm : Canonical m) : Canonical (regWrite m t off
    wide v) :=
  canonical_ite hm (canonical_ite (regWord_canonical (regWord_canonical hm)) (regWord_canonical hm))

theorem registerWriteStep_canonical {t : RegTarget} {wide : Bool} {v : BitVec 64} (hm : Canonical m) : Canonical
    (registerWriteStep m t off wide v) := by
  unfold registerWriteStep
  split
  · exact bar0_canonical (fun _ h1 => canonical_ite h1 (regWrite_canonical h1)) hm
  · exact canonical_ite (regWrite_canonical hm) hm

theorem jtagStep_canonical {op : JtagOp} (hm : Canonical m) : Canonical (jtagStep m die op) := by
  unfold jtagStep
  extract_lets answer opened
  have ha : ∀ v, Canonical (answer v) := fun _ => hm
  split
  · exact ha _
  case h_2 t a wide v =>
    have h : Canonical (regWrite m t a wide v) := regWrite_canonical hm
    exact canonical_ite h (ha _)
  · exact ha _
  case h_4 c w v =>
    have h : Canonical (onCl m c (fun x => scrWrite x w v)) := onCl_canonical (fun _ h => memWf_scrWrite _ _ _ h) hm
    exact canonical_ite h (ha _)
  · exact ha _
  case h_6 a bs =>
    have h : Canonical (onHedge m (fun h => { h with flash := mput h.flash (0x40000 + a) bs })) :=
      onHedge_canonical (fun _ h => ⟨memWf_mput _ _ (flash_canonical h), h.2⟩) hm
    exact canonical_ite h (ha _)

/-! ## Commands -/

end

/-! ## Commands -/

/-- Every command answers a next state, with the commands that wait unchanged, and keeps the memories canonical. -/
theorem exec_canonical (c : Instr) (s : State) (hm : Canonical s.m) :
    ∃ n, exec c s = .next { s with m := n } ∧ Canonical n := by
  refine ?command
  cases c
  case sqTail => exact ⟨_, rfl, ringWrite_canonical (fun _ h1 => sqTailStep_canonical h1) hm⟩
  case cqHead => exact ⟨_, rfl, ringWrite_canonical (fun _ h1 => cqHeadStep_canonical h1) hm⟩
  case submissionFetch => exact ⟨_, rfl, fetchStep_canonical hm⟩
  case job => exact ⟨_, rfl, jobArrives_canonical hm⟩
  case hand => exact ⟨_, rfl, jobArrives_canonical hm⟩
  case keyLoad => exact ⟨_, rfl, keyLoadStep_canonical hm⟩
  case keyUnload => exact ⟨_, rfl, keyUnloadStep_canonical hm⟩
  case keyLoadDone => exact ⟨_, rfl, keyLoadDoneStep_canonical hm⟩
  case admitJob => exact ⟨_, rfl, admitStep_canonical hm⟩
  case hostReadError => exact ⟨_, rfl, hostReadErrorStep_canonical hm⟩
  case planJob => exact ⟨_, rfl, planStep_canonical hm⟩
  case jobStart => exact ⟨_, rfl, jobStartStep_canonical hm⟩
  case completionEntry => exact ⟨_, rfl, completionStep_canonical hm⟩
  case cqCoalTimer => exact ⟨_, rfl, coalTimerStep_canonical hm⟩
  case sqEnable => exact ⟨_, rfl, ringWrite_canonical (fun _ h1 => sqCfgWrite_canonical h1) hm⟩
  case sqDisable => exact ⟨_, rfl, ringWrite_canonical (fun _ h1 => sqCfgWrite_canonical h1) hm⟩
  case cqEnable => exact ⟨_, rfl, ringWrite_canonical (fun _ h1 => cqCfgWrite_canonical h1) hm⟩
  case cqDisable => exact ⟨_, rfl, ringWrite_canonical (fun _ h1 => cqCfgWrite_canonical h1) hm⟩
  case qreq => exact ⟨_, rfl, bar0_canonical (fun _ h1 => h1) hm⟩
  case quiesceCheck => exact ⟨_, rfl, quiesceCheckStep_canonical hm⟩
  case qrel => exact ⟨_, rfl, bar0_canonical (fun _ h1 => qrelStep_canonical h1) hm⟩
  case idereq => exact ⟨_, rfl, bar0_canonical (fun _ h1 => idereqStep_canonical h1) hm⟩
  case lock => exact ⟨_, rfl, bar0_canonical (fun _ h1 => h1) hm⟩
  case wreset => exact ⟨_, rfl, bar0_canonical (fun _ h1 => wresetStep_canonical h1) hm⟩
  case glbKill => exact ⟨_, rfl, bar0_canonical (fun _ h1 => glbKillStep_canonical h1) hm⟩
  case glbHost => exact ⟨_, rfl, bar0_canonical (fun _ h1 => glbHostStep_canonical h1) hm⟩
  case glbPcap => exact ⟨_, rfl, bar0_canonical (fun _ h1 => glbPcapStep_canonical h1) hm⟩
  case registerWrite => exact ⟨_, rfl, registerWriteStep_canonical hm⟩
  case bar0BadAccess => exact ⟨_, rfl, badAccessStep_canonical hm⟩
  case restEntry => exact ⟨_, rfl, restEntryStep_canonical hm⟩
  case d0 => exact ⟨_, rfl, d0Step_canonical hm⟩
  case flr => exact ⟨_, rfl, warmResetStep_canonical hm⟩
  case dlDown => exact ⟨_, rfl, dlDownStep_canonical hm⟩
  case hotReset => exact ⟨_, rfl, warmResetStep_canonical hm⟩
  case perstAssert => exact ⟨_, rfl, onHedge_canonical (fun _ h1 => h1) (coldResetStep_canonical hm)⟩
  case pwrgdRise => exact ⟨_, rfl, powerOn_canonical hm⟩
  case pwrgdFall => exact ⟨_, rfl, powerFall_canonical hm⟩
  case railOutOfTolerance => exact ⟨_, rfl, railToleranceStep_canonical hm⟩
  case refclkMissing => exact ⟨_, rfl, refclkMissingStep_canonical hm⟩
  case refclkStable => exact ⟨_, rfl, refclkStableStep_canonical hm⟩
  case aonLoss => exact ⟨_, rfl, aonLossStep_canonical hm⟩
  case ready => exact ⟨_, rfl, readyStep_canonical hm⟩
  case coldReset => exact ⟨_, rfl, coldResetStep_canonical hm⟩
  case warmReset => exact ⟨_, rfl, warmResetStep_canonical hm⟩
  case dieReset => exact ⟨_, rfl, dieResetStep_canonical hm⟩
  case jobKill => exact ⟨_, rfl, killJob_canonical hm⟩
  case engineReset => exact ⟨_, rfl, resetUnit_canonical hm⟩
  case engineOverrun => exact ⟨_, rfl, overrunStep_canonical hm⟩
  case load => exact ⟨_, rfl, loadStep_canonical hm⟩
  case start => exact ⟨_, rfl, startStep_canonical hm⟩
  case wait => exact ⟨_, rfl, waitStep_canonical hm⟩
  case signal => exact ⟨_, rfl, signalStep_canonical hm⟩
  case signalArrival => exact ⟨_, rfl, signalArrivalStep_canonical hm⟩
  case pop => exact ⟨_, rfl, popStep_canonical hm⟩
  case push => exact ⟨_, rfl, pushStep_canonical hm⟩
  case handleArrival => exact ⟨_, rfl, handleArrivalStep_canonical hm⟩
  case swap => exact ⟨_, rfl, swapStep_canonical hm⟩
  case patch => exact ⟨_, rfl, patchStep_canonical hm⟩
  case loop => exact ⟨_, rfl, loopStep_canonical hm⟩
  case tmark => exact ⟨_, rfl, tmarkStep_canonical hm⟩
  case command.seal => exact ⟨_, rfl, sealStep_canonical hm⟩
  case sealc => exact ⟨_, rfl, sealcStep_canonical hm⟩
  case tag => exact ⟨_, rfl, tagStep_canonical hm⟩
  case endStream => exact ⟨_, rfl, endStep_canonical hm⟩
  case pendingStart => exact ⟨_, rfl, pendingStartStep_canonical hm⟩
  case nteFwd => exact ⟨_, rfl, nteStep_canonical hm⟩
  case nteInv => exact ⟨_, rfl, nteStep_canonical hm⟩
  case nteDone => exact ⟨_, rfl, opDone_canonical hm⟩
  case bcast => exact ⟨_, rfl, macStep_canonical hm⟩
  case ewmac => exact ⟨_, rfl, macStep_canonical hm⟩
  case openMode => exact ⟨_, rfl, openStep_canonical hm⟩
  case rmeDone => exact ⟨_, rfl, opDone_canonical hm⟩
  case trailingPass => exact ⟨_, rfl, trailingStep_canonical hm⟩
  case vecOperation => exact ⟨_, rfl, vecStep_canonical hm⟩
  case vecDone => exact ⟨_, rfl, opDone_canonical hm⟩
  case modulusEntryValidate => exact ⟨_, rfl, modValidateStep_canonical hm⟩
  case modulusValidationDone => exact ⟨_, rfl, modDoneStep_canonical hm⟩
  case land => exact ⟨_, rfl, ferryStep_canonical hm⟩
  case ferryEnd => exact ⟨_, rfl, ferryStep_canonical hm⟩
  case bindingReport => exact ⟨_, rfl, bindingStep_canonical hm⟩
  case scrubRewrite => exact ⟨_, rfl, scrubRewriteStep_canonical hm⟩
  case scrubRow => exact ⟨_, rfl, scrubRowStep_canonical hm⟩
  case sliceWipe => exact ⟨_, rfl, sliceWipeStep_canonical hm⟩
  case restrict => exact ⟨_, rfl, onCl_canonical (fun _ h1 => Cluster.Canonical.ite h1 h1) hm⟩
  case hashoff => exact ⟨_, rfl, onCl_canonical (fun _ h1 => Cluster.Canonical.ite h1 (Cluster.Canonical.ite h1
      (memWf_remapSlice _))) hm⟩
  case landingPairWrite => exact ⟨_, rfl, onCl_canonical (fun _ h1 => Cluster.Canonical.ite h1 h1) hm⟩
  case descriptorValidationDone => exact ⟨_, rfl, descDoneStep_canonical hm⟩
  case steStreamStart => exact ⟨_, rfl, steStartStep_canonical hm⟩
  case transfer => exact ⟨_, rfl, transferStep_canonical hm⟩
  case transferBoundary => exact ⟨_, rfl, boundaryStep_canonical hm⟩
  case ledgerReport => exact ⟨_, rfl, ledgerReportStep_canonical hm⟩
  case creditReturn => exact ⟨_, rfl, creditReturnStep_canonical hm⟩
  case negCount => exact ⟨_, rfl, negCountStep_canonical hm⟩
  case jobEndAudit => exact ⟨_, rfl, auditStep_canonical hm⟩
  case watchdogTrip => exact ⟨_, rfl, watchdogStep_canonical hm⟩
  case breakpoint => exact ⟨_, rfl, breakpointStep_canonical hm⟩
  case landingPoint => exact ⟨_, rfl, landingStep_canonical hm⟩
  case replay => exact ⟨_, rfl, replayStep_canonical hm⟩
  case flitReceive => exact ⟨_, rfl, flitReceiveStep_canonical hm⟩
  case nak => exact ⟨_, rfl, onLink_canonical hm⟩
  case retryExhausted => exact ⟨_, rfl, exhaustedStep_canonical hm⟩
  case linkRetrainDone => exact ⟨_, rfl, retrainStep_canonical hm⟩
  case fiArm => exact ⟨_, rfl, fiWrite_canonical hm⟩
  case faultInjection => exact ⟨_, rfl, fiStep_canonical hm⟩
  case frameBoundary => exact ⟨_, rfl, frameStep_canonical hm⟩
  case mscMapFlip => exact ⟨_, rfl, onStk_canonical (fun _ h1 => h1) hm⟩
  case stackRewrite => exact ⟨_, rfl, onStk_canonical (fun _ h1 => stackRewriteOne_canonical h1) hm⟩
  case stackPatrol => exact ⟨_, rfl, patrolStep_canonical hm⟩
  case stackFenceZero => exact ⟨_, rfl, fenceZeroStep_canonical hm⟩
  case stackWipe => exact ⟨_, rfl, stackWipeStep_canonical hm⟩
  case stackTempSample => exact ⟨_, rfl, onStk_canonical (fun _ h1 => Stack.Canonical.ite h1 h1) hm⟩
  case throttleStep => exact ⟨_, rfl, onStk_canonical (fun _ h1 => Stack.Canonical.ite (Stack.Canonical.ite h1 h1)
      (Stack.Canonical.ite h1 h1)) hm⟩
  case tCrit => exact ⟨_, rfl, tCritStep_canonical hm⟩
  case aclkStep => exact ⟨_, rfl, aclkStepOf_canonical hm⟩
  case regulatorFault => exact ⟨_, rfl, regulatorStep_canonical hm⟩
  case powerLevelStep => exact ⟨_, rfl, onHedge_canonical (fun _ h1 => powerLevelOf_canonical h1) hm⟩
  case idleEntry => exact ⟨_, rfl, idleEntryStep_canonical hm⟩
  case idleExit => exact ⟨_, rfl, idleExitStep_canonical hm⟩
  case junctionShutdown => exact ⟨_, rfl, junctionStep_canonical hm⟩
  case firmwareWatchdog => exact ⟨_, rfl, firmwareWatchdogStep_canonical hm⟩
  case plannerWatchdog => exact ⟨_, rfl, plannerWatchdogStep_canonical hm⟩
  case marginReview => exact ⟨_, rfl, reviewStep_canonical hm⟩
  case marchTest => exact ⟨_, rfl, marchStep_canonical hm⟩
  case logWrite => exact ⟨_, rfl, logWriteStep_canonical hm⟩
  case heartbeat => exact ⟨_, rfl, heartbeatStep_canonical hm⟩
  case corrSummary => exact ⟨_, rfl, corrStep_canonical hm⟩
  case drbgReseed => exact ⟨_, rfl, onHedge_canonical (fun _ h1 => reseedHedge_canonical h1) hm⟩
  case healthTestFail => exact ⟨_, rfl, healthStep_canonical hm⟩
  case info => exact ⟨_, rfl, mailCommand_canonical hm⟩
  case logRead => exact ⟨_, rfl, mailCommand_canonical hm⟩
  case lcSet => exact ⟨_, rfl, mailCommand_canonical hm⟩
  case lifecycleTransition => exact ⟨_, rfl, lifecycleStep_canonical hm⟩
  case dbgChal => exact ⟨_, rfl, mailCommand_canonical hm⟩
  case dbgUnlock => exact ⟨_, rfl, mailCommand_canonical hm⟩
  case dbgLock => exact ⟨_, rfl, mailCommand_canonical hm⟩
  case pldm => exact ⟨_, rfl, mailCommand_canonical hm⟩
  case mailboxDone => exact ⟨_, rfl, mailDoneStep_canonical hm⟩
  case pldmSensorRead => exact ⟨_, rfl, sensorStep_canonical hm⟩
  case pldmUpdateData => exact ⟨_, rfl, updateDataStep_canonical hm⟩
  case verifyComplete => exact ⟨_, rfl, verifyStep_canonical hm⟩
  case activateFirmware => exact ⟨_, rfl, activateStep_canonical hm⟩
  case getVersion => exact ⟨_, rfl, spdmVersionStep_canonical hm⟩
  case getCapabilities => exact ⟨_, rfl, spdmCapsStep_canonical hm⟩
  case negotiateAlgorithms => exact ⟨_, rfl, spdmAlgsStep_canonical hm⟩
  case getDigests => exact ⟨_, rfl, spdmDigestsStep_canonical hm⟩
  case getCertificate => exact ⟨_, rfl, spdmCertStep_canonical hm⟩
  case challenge => exact ⟨_, rfl, spdmChallengeStep_canonical hm⟩
  case getMeasurements => exact ⟨_, rfl, spdmMeasStep_canonical hm⟩
  case keyExchange => exact ⟨_, rfl, spdmKexStep_canonical hm⟩
  case finish => exact ⟨_, rfl, spdmFinishStep_canonical hm⟩
  case heartbeatSpdm => exact ⟨_, rfl, spdmWhen_canonical (fun _ h1 => h1) hm⟩
  case keyUpdate => exact ⟨_, rfl, spdmWhen_canonical (fun _ h1 => h1) hm⟩
  case endSession => exact ⟨_, rfl, spdmWhen_canonical (fun _ h1 => h1) hm⟩
  case ideKm => exact ⟨_, rfl, ideStep_canonical hm⟩
  case madd => exact ⟨_, rfl, pkeCommand_canonical hm⟩
  case msub => exact ⟨_, rfl, pkeCommand_canonical hm⟩
  case mmul => exact ⟨_, rfl, pkeCommand_canonical hm⟩
  case minv => exact ⟨_, rfl, pkeCommand_canonical hm⟩
  case mexp => exact ⟨_, rfl, pkeCommand_canonical hm⟩
  case ecdsaSignP256 => exact ⟨_, rfl, pkeCommand_canonical hm⟩
  case ecdsaVerifyP256 => exact ⟨_, rfl, pkeCommand_canonical hm⟩
  case ecdhP256 => exact ⟨_, rfl, pkeCommand_canonical hm⟩
  case pointValidate => exact ⟨_, rfl, pkeCommand_canonical hm⟩
  case macMode => exact ⟨_, rfl, pkeStart_canonical (pkeRegs_canonical (fun _ h1 => h1) hm)⟩
  case pkeDone => exact ⟨_, rfl, pkeDoneStep_canonical hm⟩
  case pkeWipe => exact ⟨_, rfl, pkeWipeStep_canonical hm⟩
  case pkeDma => exact ⟨_, rfl, pkeDmaStart_canonical hm⟩
  case pkeDmaDone => exact ⟨_, rfl, pkeDmaDoneStep_canonical hm⟩
  case randomPoolRefill => exact ⟨_, rfl, poolStep_canonical hm⟩
  case jtagAccess => exact ⟨_, rfl, jtagStep_canonical hm⟩
  case doeDiscovery => exact ⟨_, rfl, doeStep_canonical hm⟩
  case endpointIdAssign => exact ⟨_, rfl, canonical_ite hm hm⟩
  case cancelUpdate => exact ⟨_, rfl, onHedge_canonical (fun _ h1 => dropUpdate_canonical h1) hm⟩
  -- the other commands touch no memory
  all_goals exact ⟨_, rfl, hm⟩

/-- Settles O58: a step is an a-cycle that passes, which leaves every memory, or a command, by `exec_canonical`. -/
theorem memoriesCanonical : Obligations.MemoriesCanonical := by
  intro s t hm hstep
  unfold step at hstep
  split at hstep
  · cases hstep
    exact tick_canonical hm
  next c rest _ =>
    obtain ⟨n, hexec, hn⟩ := exec_canonical c { s with pending := rest } hm
    rw [hexec] at hstep
    cases hstep
    exact hn

end Sys2Proof.Machine
end

section
/-! PROOFS. The queue of commands, the state after reset, and the host's control registers: how commands are run (95_what_each_step_holds),
what GLB_CTRL, GLB_HOST, GLB_PCAP and GLB_KILL do (R551, R572), admission (R494) and the turn of the rings (R560). -/
namespace Sys2Proof.Machine
open Sys2Proof.Certificates

/-! ## Steps -/

theorem step_of_pending {s : State} {c : Instr} {q : List Instr} (h : s.pending = c :: q) :
    step s = exec c { s with pending := q } := by
  unfold step
  split
  · next e => rw [e] at h; cases h
  · next e =>
    rw [e] at h
    cases h
    rfl

theorem step_of_idle {s : State} (h : s.pending = []) : step s = .next { s with m := tick s.m } := by
  unfold step
  split
  · rfl
  · next e => rw [e] at h; cases h

/-- Settles O1: the branch of `step` with a command. -/
theorem stepRunsFront : Obligations.StepRunsFront := fun _ _ _ h => step_of_pending h

/-- Settles O60: the values of the reset state, read off the empty tables; its step is an a-cycle that brings no flag anything. -/
theorem resetState : Obligations.ResetState := by
  have hclusters : State.reset.m.clusters = [] := rfl
  have hstks : State.reset.m.stks = [] := rfl
  have hempty : Canonical State.reset.m :=
    ⟨fun _ h => absurd (hclusters ▸ h) List.not_mem_nil, fun _ h => absurd (hstks ▸ h) List.not_mem_nil, rfl, rfl, rfl, rfl, rfl⟩
  have hstep : step State.reset = .next { State.reset with m := { State.reset.m with now := 1 } } := by
    rw [step_of_idle rfl, tick_quiet _ rfl]
    rfl
  exact ⟨rfl, hempty, rfl, rfl, fun _ => ⟨rfl, rfl⟩, fun _ => ⟨rfl, rfl, rfl, rfl⟩, fun _ => rfl, fun _ => rfl, fun _ => rfl,
    rfl, hstep⟩

/-! ## Admission -/

section
variable {m : Module} {tag : Nat}

theorem admitStep_admits {d : JobDesc} {rest : List JobDesc} (hw : m.quay.waiting = d :: rest) (hq : m.quay.qstate = 0)
    (hn : m.quay.jobs.length < 1024) (hj : jobAt m tag = none) (hg : ∀ g ∈ m.graves, g.job ≠ tag) :
    admitStep m tag = onQuay m (fun q => { q with
      waiting := rest, admitted := q.admitted + 1,
      jobs := tset none q.jobs tag (some { desc := d, cap := q.pcap.toNat, order := q.admitted.toNat }) }) := by
  have hfree : ¬ (m.quay.qstate ≠ 0 ∨ inflight m ≥ Config.maxJobs ∨ (jobAt m tag).isSome
      ∨ m.graves.any (fun g => decide (g.job = tag))) := by
    have hlt : ¬ inflight m ≥ Config.maxJobs := Nat.not_le.2 hn
    simpa [hq, hlt, hj] using hg
  unfold admitStep
  rw [hw]
  exact if_neg hfree

theorem admitStep_waits (h : m.quay.qstate ≠ 0 ∨ 1024 ≤ m.quay.jobs.length) : admitStep m tag = m := by
  unfold admitStep
  split
  · rfl
  · exact if_pos (h.imp_right .inl)

end

/-- Settles O8, by the two outcomes of `admitStep`. -/
theorem admission : Obligations.Admission := by
  intro s tag d rest hw
  refine ⟨fun hq hn hj hg => ?_, fun h => ?_⟩
  · exact congrArg (fun m => Host.Outcome.next { s with m := m }) (admitStep_admits hw hq hn hj hg)
  · exact congrArg (fun m => Host.Outcome.next { s with m := m }) (admitStep_waits h)

/-! ## The turn of the rings -/

theorem find?_map_range {p : Nat → Bool} {f : Nat → Nat} {n k : Nat} (hk : k < n) (hp : p (f k) = true)
    (hbefore : ∀ j, j < k → p (f j) = false) : ((List.range n).map f).find? p = some (f k) := by
  have hfind : (List.range n).find? (p ∘ f) = some k :=
    List.find?_range_eq_some.2 ⟨hp, List.mem_range.2 hk, fun j hj => by simp [hbefore j hj]⟩
  rw [List.find?_map, hfind]
  rfl

/-- Settles O5: the first pending ring after the one served last is the one that `nextRing` finds. -/
theorem fetchRoundRobin : Obligations.FetchRoundRobin := by
  intro s k hk hready hq hmuted hjobs hpend hbefore
  have hnext : nextRing s.m = some ((s.m.quay.rr + 1 + k) % 256) := find?_map_range hk hpend hbefore
  have hopen : ¬ (!s.m.quay.ready || decide (s.m.quay.qstate ≠ 0) || muted s.m || decide (inflight s.m ≥ Config.maxJobs)) = true := by
    have hlt : ¬ inflight s.m ≥ Config.maxJobs := Nat.not_le.2 hjobs
    simp [hready, hq, hmuted, hlt]
  have hstep : fetchStep s.m = onQuay s.m (fun q => { q with
      rr := (s.m.quay.rr + 1 + k) % 256,
      fetches := q.fetches ++ [{ ring := (s.m.quay.rr + 1 + k) % 256,
                                 index := (ringAt s.m ((s.m.quay.rr + 1 + k) % 256)).sqHead.toNat }] }) := by
    unfold fetchStep
    rw [if_neg hopen, hnext]
  exact congrArg (fun m => Host.Outcome.next { s with m := m }) hstep

/-! ## Control registers -/

section
variable {m : Module}

theorem onQuay_congr {f g : Quay → Quay} (h : f m.quay = g m.quay) : onQuay m f = onQuay m g := by
  unfold onQuay
  rw [h]

theorem onQuay_id {f : Quay → Quay} (h : f m.quay = m.quay) : onQuay m f = m := by
  unfold onQuay
  rw [h]

theorem quiesceStep_running (h : m.quay.qstate = 0) : quiesceStep m false = onQuay m (fun q => { q with qstate := 1 }) := by
  refine onQuay_congr ?_
  rw [if_pos h, Bool.or_false]

theorem quiesceStep_stays (h : m.quay.qstate ≠ 0) : quiesceStep m false = m := by
  refine onQuay_id ?_
  rw [if_neg h, Bool.or_false]

theorem qrelStep_quiesced (h : m.quay.qstate = 2) : qrelStep m = onQuay m (fun q => { q with qstate := 0 }) :=
  onQuay_congr (if_pos h)

theorem qrelStep_stays (h : m.quay.qstate ≠ 2) : qrelStep m = m :=
  onQuay_id (if_neg h)

theorem idereqStep_unlocked {v : Bool} (h : m.quay.lock = false) :
    idereqStep m v = onQuay m (fun q => { q with ideReq := v }) :=
  onQuay_congr (if_neg (ne_true_of_eq_false h))

theorem idereqStep_locked {v : Bool} (h : m.quay.lock = true) : idereqStep m v = m :=
  onQuay_id (if_pos h)

/-- A field of a register word, as `bits` reads it and as an extract does. -/
theorem bits_eq_extractLsb' (v : Word) {lo hi n : Nat} (h : hi + 1 - lo = n) : bits v.toNat hi lo = (v.extractLsb' lo n).toNat := by
  unfold bits
  rw [BitVec.extractLsb'_toNat, h]

/-- GLB_HOST in terms of the three fields of its word. -/
theorem glbHostStep_eq (v : Word) : glbHostStep m v =
    if 1 ≤ (v.extractLsb' 0 10).toNat ∧ (v.extractLsb' 0 10).toNat ≤ 121 ∧ 1 ≤ (v.extractLsb' 10 10).toNat
        ∧ (v.extractLsb' 10 10).toNat ≤ 121 ∧ 1 ≤ (v.extractLsb' 20 12).toNat then
      onQuay m (fun q => { q with
        rdRate := v.extractLsb' 0 10, wrRate := v.extractLsb' 10 10, rdLat := v.extractLsb' 20 12, plans := [] })
    else m := by
  unfold glbHostStep
  dsimp only
  rw [bits_eq_extractLsb' v (show 9 + 1 - 0 = 10 from rfl), bits_eq_extractLsb' v (show 19 + 1 - 10 = 10 from rfl),
    bits_eq_extractLsb' v (show 31 + 1 - 20 = 12 from rfl)]
  simp only [BitVec.ofNat_toNat, BitVec.setWidth_eq]

/-- GLB_PCAP in terms of the field of its word. -/
theorem glbPcapStep_eq (v : Word) : glbPcapStep m v =
    if 1500 ≤ (v.extractLsb' 0 13).toNat ∧ (v.extractLsb' 0 13).toNat ≤ 4200 then
      onQuay m (fun q => { q with pcap := v.extractLsb' 0 13 })
    else m := by
  have h : v.toNat % 2 ^ 13 = (v.extractLsb' 0 13).toNat := by simp [BitVec.extractLsb'_toNat]
  unfold glbPcapStep
  rw [h]
  simp only [BitVec.ofNat_toNat, BitVec.setWidth_eq]

end

theorem next_bar0 {s : State} {f : Module → Module} {n : Module} (hopen : Bar0Open s.m) (h : f s.m = n) :
    ok s (bar0 s.m f) = .next { s with m := n } := by
  rw [bar0_of_open f hopen, h]
  rfl

/-- Settles O15, by what each control register does in BAR0 when it is served. -/
theorem globalControls : Obligations.GlobalControls := by
  intro s hopen
  refine ⟨fun h => next_bar0 hopen (quiesceStep_running h), fun h => next_bar0 hopen (quiesceStep_stays h),
    fun h => next_bar0 hopen (qrelStep_quiesced h), fun h => next_bar0 hopen (qrelStep_stays h),
    fun v h => next_bar0 hopen (idereqStep_unlocked h), fun v h => next_bar0 hopen (idereqStep_locked h),
    next_bar0 hopen rfl, fun v => ⟨fun h => next_bar0 hopen ?host, fun h => next_bar0 hopen ?hostBad⟩,
    fun v => ⟨fun h1 h2 => next_bar0 hopen ?cap, fun h => next_bar0 hopen ?capBad⟩⟩
  case host => rw [glbHostStep_eq, if_pos h]; rfl
  case hostBad => rw [glbHostStep_eq, if_neg h]
  case cap => rw [glbPcapStep_eq, if_pos ⟨h1, h2⟩]; rfl
  case capBad => rw [glbPcapStep_eq, if_neg (by omega)]

/-- Settles O16: GLB_KILL of the job with its CID is the kill of that job, and else nothing. -/
theorem hostKill : Obligations.HostKill := by
  intro s tag cid hopen
  refine ⟨fun j hj hcid haudit hfin hk => ?_, fun h => next_bar0 hopen ?_⟩
  · have hstep : glbKillStep s.m tag.toNat cid = killJob s.m tag.toNat .killed none := by
      unfold glbKillStep
      rw [hj]
      exact if_pos ⟨hcid, haudit⟩
    obtain ⟨c, hcompl, -, hstatus, hdetail, hc, hring⟩ := killJob_compl s.m tag.toNat .killed none hj hk hfin
    obtain ⟨j', hj', hkilled, -⟩ := jobAt_killJob s.m tag.toNat .killed none hj hk hfin
    exact ⟨_, c, j', next_bar0 hopen hstep, hcompl, hring, hc.trans hcid, hstatus, hdetail, hj', hkilled⟩
  · unfold glbKillStep
    rcases h with h | ⟨j, hj, h⟩
    · rw [h]
    · rw [hj]
      exact if_neg fun hgood => h.elim (fun hcid => hcid hgood.1) hgood.2

end Sys2Proof.Machine
end

section
/-! PROOFS. Readiness, losses of power and of the reference, and heat (R585, R647, R649, R650, R662, R663, R672, R673): what the
end of every job leaves, and what the rails that go down take with them. -/
namespace Sys2Proof.Machine
open Sys2Proof.Certificates

/-! ## Tables made anew -/

theorem tget_tabOf {α : Type} [DecidableEq α] (d : α) {n i : Nat} (f : Nat → α) (h : i < n) : tget d (tabOf d n f) i = f i := by
  unfold tabOf
  rw [tget_tentries, if_pos (Nat.zero_le i)]
  simp [h]

/-! ## Readiness -/

section
variable {m : Module}

theorem wipesDone_iff : wipesDone m = true ↔ (∀ p ∈ m.clusters, p.2.wiping = false) ∧ ∀ p ∈ m.stks, p.2.state ≠ 2 := by
  unfold wipesDone
  simp only [Bool.and_eq_true, List.all_eq_true, Bool.not_eq_true', decide_eq_true_eq]

/-- Whether READY waits: no firmware and no recovery, PERST# asserted, a wipe that runs, or no request that is retried. -/
def readyWaits (m : Module) : Bool :=
  !(decide (m.hedge.boot = .running ∨ m.hedge.boot = .recovery)) || m.ep.perst || !wipesDone m || !m.ep.crs

theorem readyStep_waits (h : readyWaits m = true) : readyStep m = m := if_pos h

theorem readyStep_ready (h : readyWaits m = false) : readyStep m =
    { m with
      ep := { m.ep with crs := false, linkUp := true, readiness := m.ep.readiness ++ [if m.ep.linkUp then 1 else 2] },
      quay := { m.quay with
        ready := decide (m.hedge.boot = .running) && lcsJobs m.hedge.fuses && !m.hedge.railFault } } :=
  if_neg (ne_true_of_eq_false h)

theorem readyWaits_iff : readyWaits m = true ↔ m.hedge.boot ≠ .running ∧ m.hedge.boot ≠ .recovery ∨ m.ep.perst = true
    ∨ m.ep.crs = false ∨ (∃ p ∈ m.clusters, p.2.wiping = true) ∨ ∃ p ∈ m.stks, p.2.state = 2 := by
  have hwipes : wipesDone m = false ↔ (∃ p ∈ m.clusters, p.2.wiping = true) ∨ ∃ p ∈ m.stks, p.2.state = 2 := by
    rw [← Bool.not_eq_true, wipesDone_iff, Classical.not_and_iff_not_or_not]
    simp only [not_forall, exists_prop, Bool.not_eq_false, not_not, ne_eq]
  unfold readyWaits
  simp only [Bool.or_eq_true, Bool.not_eq_true', decide_eq_false_iff_not, not_or, hwipes, ne_eq]
  rw [or_assoc, or_assoc, or_comm (b := m.ep.crs = false)]

theorem readyStep_failedRail (h : m.hedge.railFault = true) (hr : m.quay.ready = false) : (readyStep m).quay.ready = false := by
  cases hw : readyWaits m with
  | true => rw [readyStep_waits hw, hr]
  | false => simp [readyStep_ready hw, h]

theorem aonLossStep_first (h : m.hedge.aonLost = false) :
    aonLossStep m = logLater (onHedge m (fun h => { h with aonLost := true })) (railEvent 0 1) :=
  if_neg (ne_true_of_eq_false h)

theorem aonLossStep_again (h : m.hedge.aonLost = true) : aonLossStep m = m := if_pos h

end

theorem exec_ready (s : State) : exec .ready s = .next { s with m := readyStep s.m } := rfl
theorem exec_aonLoss (s : State) : exec .aonLoss s = .next { s with m := aonLossStep s.m } := rfl

/-- Settles O25, by the two outcomes of READY and of AON_LOSS. -/
theorem readiness : Obligations.Readiness := by
  intro s
  refine ⟨rfl, fun hboot hperst hcrs hcl hst => ?ready, fun h => ?waits, fun h => ?lost, fun h => ?again⟩
  case ready =>
    have hw : readyWaits s.m = false := by
      rw [← Bool.not_eq_true, readyWaits_iff]
      rintro (⟨h1, h2⟩ | h | h | ⟨p, hp, h⟩ | ⟨p, hp, h⟩)
      · exact hboot.elim h1 h2
      · exact Bool.false_ne_true (hperst.symm.trans h)
      · exact Bool.false_ne_true (h.symm.trans hcrs)
      · exact Bool.false_ne_true ((hcl p hp).symm.trans h)
      · exact hst p hp h
    refine ⟨_, (exec_ready s).trans (by rw [readyStep_ready hw]), rfl, ?_, rfl⟩
    simp [lcsJobs, and_assoc]
  case waits => rw [exec_ready, readyStep_waits (readyWaits_iff.2 h)]
  case lost => exact ⟨_, railEvent 0 1, (exec_aonLoss s).trans (by rw [aonLossStep_first h]; rfl), rfl, rfl⟩
  case again => rw [exec_aonLoss, aonLossStep_again h]

/-! ## The end of every job -/

/-- The Quay after every job has ended: no job, completion, read, waiting job and upload (R649). -/
def quayDropped (q : Quay) : Quay := { q with jobs := [], compl := [], fetches := [], waiting := [], uploads := [] }

section
variable (m : Module)

theorem dropJobs_fold (l : List (Nat × Job)) :
    SameRest m (l.foldl (fun m p => if p.2.started then tearDown m p.1 p.2 0 else m) m)
      ∧ (l.foldl (fun m p => if p.2.started then tearDown m p.1 p.2 0 else m) m).quay = m.quay := by
  refine foldl_keeps (fun b : Module => SameRest m b ∧ b.quay = m.quay) _ (fun b p hb => ?_) l m ⟨.refl m, rfl⟩
  split
  · obtain ⟨hrest, hquay⟩ := tearDown_rest b p.1 p.2 0
    exact ⟨hb.1.trans hrest, hquay.trans hb.2⟩
  · exact hb

@[simp] theorem dropJobs_quay : (dropJobs m).quay = quayDropped m.quay := congrArg quayDropped (dropJobs_fold m _).2

/-- The end of every job changes the Quay as `quayDropped` says and keeps what is not a job's. -/
theorem dropJobs_eq : dropJobs m = { m with
    clusters := (dropJobs m).clusters, dies := (dropJobs m).dies, stks := (dropJobs m).stks, transit := (dropJobs m).transit,
    graves := (dropJobs m).graves, flagIn := (dropJobs m).flagIn, fenceSeq := (dropJobs m).fenceSeq,
    quay := quayDropped m.quay, hedge := { m.hedge with drbgGens := (dropJobs m).hedge.drbgGens } } := by
  obtain ⟨hrest, hquay⟩ := dropJobs_fold m (m.quay.jobs.filterMap (fun p => p.2.map (fun j => (p.1, j))))
  have hdrop : dropJobs m = onQuay ((m.quay.jobs.filterMap (fun p => p.2.map (fun j => (p.1, j)))).foldl
    (fun m p => if p.2.started then tearDown m p.1 p.2 0 else m) m) quayDropped := rfl
  rw [hdrop]
  generalize (m.quay.jobs.filterMap (fun p => p.2.map (fun j => (p.1, j)))).foldl
    (fun m p => if p.2.started then tearDown m p.1 p.2 0 else m) m = b at hrest hquay
  unfold onQuay
  rw [hquay]
  conv_lhs => rw [show b = _ from hrest]

@[simp] theorem dropJobs_now : (dropJobs m).now = m.now := by rw [dropJobs_eq]
@[simp] theorem dropJobs_ep : (dropJobs m).ep = m.ep := by rw [dropJobs_eq]
@[simp] theorem dropJobs_pke : (dropJobs m).pke = m.pke := by rw [dropJobs_eq]
@[simp] theorem dropJobs_hostOut : (dropJobs m).hostOut = m.hostOut := by rw [dropJobs_eq]
@[simp] theorem dropJobs_aer : (dropJobs m).aer = m.aer := by rw [dropJobs_eq]
@[simp] theorem dropJobs_logQ : (dropJobs m).hedge.logQ = m.hedge.logQ := by rw [dropJobs_eq]
theorem dropJobs_hedge : (dropJobs m).hedge = { m.hedge with drbgGens := (dropJobs m).hedge.drbgGens } :=
  congrArg (·.hedge) (dropJobs_eq m)

end

/-! ## Rails that go down -/

section
variable (m : Module) (b : Boot)

theorem dieAt_railsDown {d : Nat} (h : d < 8) :
    dieAt (railsDown m b) d = { dieAt m d with clocks := false, railOn := false, mV := 0 } := tget_tabOf _ _ h

theorem stkAt_railsDown {t : Nat} (h : t < 16) :
    stkAt (railsDown m b) t = { stkAt m t with mem := [], err := [], lost := [], state := 0, level := 0 } := tget_tabOf _ _ h

@[simp] theorem railsDown_quay : (railsDown m b).quay = { m.quay with ready := false } := rfl
@[simp] theorem railsDown_hostOut : (railsDown m b).hostOut = m.hostOut := rfl
@[simp] theorem railsDown_boot : (railsDown m b).hedge.boot = b := rfl

end

theorem powerFall_alive {m : Module} (h : alive m = true) : powerFall m = railsDown (dropJobs m) .off := if_pos h

theorem regulatorStep_alive {m : Module} (rail : Nat) (h : alive m = true) : regulatorStep m rail =
    onQuay (onHedge (logLater (dropJobs m) (railEvent rail 0)) (fun h => { h with faultPin := true, railFault := true }))
      (fun q => { q with ready := false }) := by
  unfold regulatorStep
  rw [if_neg (by simp [h])]
  rfl

theorem refclkMissingStep_alive {m : Module} (h : alive m = true) (hr : m.hedge.refclk = true) :
    refclkMissingStep m = raiseFault (onHedge (dropJobs m) (fun h => { h with refclk := false })) :=
  if_pos (by simp [h, hr])

theorem exec_regulatorFault (rail : Nat) (s : State) :
    exec (.regulatorFault rail) s = .next { s with m := regulatorStep s.m rail } := rfl
theorem exec_refclkMissing (s : State) : exec .refclkMissing s = .next { s with m := refclkMissingStep s.m } := rfl

/-- Settles O22: each loss ends every job (`dropJobs_eq`); the loss of power takes the rails down after it. -/
theorem powerLosses : Obligations.PowerLosses := by
  intro s rail halive ended
  have hended : ended (dropJobs s.m) := ⟨by simp [quayDropped], by simp [quayDropped], dropJobs_hostOut s.m⟩
  refine ⟨fun c hc => ?power, ?regulator, fun href => ?refclk, ?aon⟩
  case power =>
    have hexec : exec c s = .next { s with m := powerFall s.m } := by rcases hc with rfl | rfl <;> rfl
    refine ⟨_, hexec, ?_⟩
    rw [powerFall_alive halive]
    exact ⟨hended, rfl, rfl, rfl, rfl, by simp [railsDown], fun d hd => by simp [dieAt_railsDown _ _ hd],
      fun t ht => by simp [stkAt_railsDown _ _ ht]⟩
  case regulator =>
    refine ⟨_, exec_regulatorFault rail s, ?_⟩
    rw [regulatorStep_alive rail halive]
    refine ⟨hended, rfl, rfl, ⟨railEvent rail 0, congrArg (· ++ _) (dropJobs_logQ s.m), rfl, rfl⟩, _, exec_ready _, ?_⟩
    exact readyStep_failedRail rfl rfl
  case refclk =>
    refine ⟨_, exec_refclkMissing s, ?_⟩
    rw [refclkMissingStep_alive halive href]
    exact ⟨hended, rfl, rfl, by simp [raiseFault, aerReport]⟩
  case aon =>
    refine ⟨_, exec_aonLoss s, ?_⟩
    cases h : s.m.hedge.aonLost with
    | false => rw [aonLossStep_first h]; exact ⟨rfl, rfl, fun _ => ⟨railEvent 0 1, rfl, rfl⟩⟩
    | true => rw [aonLossStep_again h]; exact ⟨h, rfl, fun hf => nomatch hf⟩

/-! ## Heat -/

section
variable (m : Module)

@[simp] theorem signalVec_ievents (v : Nat) : (signalVec m v).quay.ievents = m.quay.ievents := by simp

theorem coalesce_ievents (i : Nat) : (coalesce m i).quay.ievents = m.quay.ievents := by
  unfold coalesce
  dsimp only
  split
  · rfl
  split
  · simp [onRing]
  split <;> rfl

theorem retireJob_ievents (tag : Nat) : (retireJob m tag).quay.ievents = m.quay.ievents := by
  unfold retireJob
  split
  · rfl
  · next j _ =>
    exact foldl_keeps (fun b : Module => b.quay.ievents = m.quay.ievents)
      (fun n (h : ClHold) => onCl n h.cl (fun c => zeroHeaders c tag)) (fun _ _ hb => hb) j.clusters m rfl

theorem sendCompl_ievents (i k : Nat) (c : Completion) : (sendCompl m i k c).quay.ievents = m.quay.ievents := by
  have h : (hostWriteOpt (hostWriteOpt m c.snapshot) c.report).quay = m.quay := by
    rw [hostWriteOpt_quay, hostWriteOpt_quay]
  exact congrArg (·.ievents) h

theorem retireOf_ievents (t : Option Nat) : (retireOf m t).quay.ievents = m.quay.ievents := by
  cases t with
  | none => rfl
  | some t => exact retireJob_ievents m t

/-- The entry of a completion counts no interrupting event. -/
theorem completionStep_ievents (i : Nat) : (completionStep m i).quay.ievents = m.quay.ievents := by
  cases hc : m.quay.compl[i]? with
  | none => simp [completionStep, hc]
  | some c =>
    rw [completionStep_eq hc]
    dsimp only
    split
    · rfl
    · rw [coalesce_ievents, retireOf_ievents, sendCompl_ievents]

theorem flushCompl_ievents : ∀ (n i : Nat) (m : Module), (flushCompl n i m).quay.ievents = m.quay.ievents
  | 0, _, _ => rfl
  | n + 1, i, m => (flushCompl_ievents n _ (completionStep m i)).trans (completionStep_ievents m i)

theorem killJob_ievents (tag : Nat) (cause : KillCause) (trip : Option (Nat × Nat)) :
    (killJob m tag cause trip).quay.ievents = m.quay.ievents := congrArg (·.quay.ievents) (killJob_rest m tag cause trip)

/-- What a thermal shutdown leaves of the module that ended its jobs. -/
theorem thermalShutdown_down (e : LogEvent) (hj : m.quay.jobs = []) (hc : m.quay.compl = []) :
    let n := thermalShutdown m e
    n.quay.jobs = [] ∧ n.quay.compl = [] ∧ n.quay.ready = false ∧ n.hedge.boot = .shutdown ∧ n.hedge.power = .off
      ∧ n.hedge.thermtrip = true ∧ n.quay.ievents = satAdd m.quay.ievents 1
      ∧ (∀ d, d < 8 → (dieAt n d).railOn = false) ∧ (∀ t, t < 16 → (stkAt n t).mem = []) ∧ n.hostOut = m.hostOut
      ∧ ∀ t, t < 16 → (stkAt n t).crit = (stkAt m t).crit := by
  have hdie (d : Nat) : dieAt (thermalShutdown m e) d = dieAt (railsDown m .shutdown) d := rfl
  have hstk (t : Nat) : stkAt (thermalShutdown m e) t = stkAt (railsDown m .shutdown) t := rfl
  exact ⟨hj, hc, rfl, rfl, rfl, rfl, rfl, fun d hd => by rw [hdie, dieAt_railsDown _ _ hd],
    fun t ht => by rw [hstk, stkAt_railsDown _ _ ht], rfl, fun t ht => by rw [hstk, stkAt_railsDown _ _ ht]⟩

/-- The module after T_CRIT has killed every job, whose completions are written as far as their rings take them. -/
def critKilled (m : Module) (st : Fin 16) : Module :=
  let m1 := (m.quay.jobs.map (·.1)).foldl (fun m t => killJob m t (.thermal st) none) m
  flushCompl m1.quay.compl.length 0 m1

theorem critKilled_ievents (st : Fin 16) : (critKilled m st).quay.ievents = m.quay.ievents := by
  refine (flushCompl_ievents _ _ _).trans ?_
  exact foldl_keeps (fun b : Module => b.quay.ievents = m.quay.ievents) _
    (fun b t hb => (killJob_ievents b t _ _).trans hb) _ m rfl

theorem tCritStep_hot {m : Module} {st : Fin 16} (h0 : (stkAt m st).state ≠ 0) (h2 : 2 ≤ (stkAt m st).critRun) :
    tCritStep m st = thermalShutdown (dropJobs (onStk (critKilled m st) st (fun s => { s with crit := true })))
      (thermalEvent st.val (stkAt m st).temp.toNat) :=
  if_neg (not_or_intro h0 (Nat.not_lt.2 h2))

end

theorem fenceDests_stks (m : Module) (fence : Nat) (ds : List (Nat × Nat × Nat)) : (fenceDests m fence ds).stks = m.stks := by
  unfold fenceDests
  refine foldl_keeps (fun b : Module => b.stks = m.stks) _ (fun _ _ hb => ?_) ds m rfl
  exact hb

/-! ### The state bits of a stack through the end of a job -/

section
variable {β : Type} (g : Stack → β)

/-- A field of a stack that a change of a stack keeps. -/
theorem stkField_onStk (m : Module) (i t : Nat) {f : Stack → Stack} (hf : ∀ s, g (f s) = g s) :
    g (stkAt (onStk m i f) t) = g (stkAt m t) := by
  by_cases h : t = i
  · subst h; rw [stkAt_onStk_same, hf]
  · rw [stkAt_onStk_ne _ _ _ _ h]

/-- Such a field that the fences and the injection registers of a stack do not touch: the end of every job keeps it. -/
theorem stkField_dropJobs (m : Module) (t : Nat) (hfence : ∀ (s : Stack) x, g { s with fence := x } = g s)
    (hfi : ∀ (s : Stack) x, g { s with fiCtrl := x } = g s) : g (stkAt (dropJobs m) t) = g (stkAt m t) := by
  have hunits (b : Module) (fence : Nat) (h : DieHold) : g (stkAt (fenceUnits b fence h) t) = g (stkAt b t) := by
    unfold fenceUnits
    split
    · rfl
    · exact stkField_onStk g _ _ _ fun s => hfence s _
  have hfiOff (b : Module) (d : Nat) : g (stkAt (fiOff b d) t) = g (stkAt b t) := by
    unfold fiOff
    rw [stkField_onStk g _ _ _ fun s => hfi s _, stkField_onStk g _ _ _ fun s => hfi s _]
    rfl
  have htear (b : Module) (tag : Nat) (j : Job) : g (stkAt (tearDown b tag j 0) t) = g (stkAt b t) := by
    refine foldl_keeps (fun x : Module => g (stkAt x t) = g (stkAt b t)) _ (fun x h hx => ?_) j.dies _ ?_
    · rw [hunits, hfiOff]
      exact hx
    · refine (congrArg (fun x : Tab Stack => g (tget {} x t)) (fenceDests_stks _ _ _)).trans ?_
      refine foldl_keeps (fun x : Module => g (stkAt x t) = g (stkAt b t)) _ (fun _ _ hx => ?_) j.clusters _ rfl
      exact hx
  refine foldl_keeps (fun x : Module => g (stkAt x t) = g (stkAt m t)) _ (fun x p hx => ?_) _ _ rfl
  split
  · exact (htear x p.1 p.2).trans hx
  · exact hx

end

theorem exec_tCrit (st : Fin 16) (s : State) : exec (.tCrit st) s = .next { s with m := tCritStep s.m st } := rfl

theorem exec_junctionShutdown (die : Nat) (s : State) :
    exec (.junctionShutdown die) s = .next { s with m := junctionStep s.m die } := rfl

/-- Settles O23: JUNCTION_SHUTDOWN and T_CRIT are a thermal shutdown (`thermalShutdown_down`) after the end of every job. -/
theorem thermalStops : Obligations.ThermalStops := by
  intro s down
  refine ⟨fun die halive => ?junction, fun st h0 h2 => ?crit, fun die => rfl⟩
  case junction =>
    obtain ⟨h1, h2, h3, h4, h5, h6, h7, h8, h9, hout, -⟩ :=
      thermalShutdown_down (dropJobs s.m) (thermalEvent die 460) (by simp [quayDropped]) (by simp [quayDropped])
    refine ⟨_, exec_junctionShutdown die s, ?_⟩
    rw [show junctionStep s.m die = _ from if_pos halive]
    rw [dropJobs_quay] at h7
    exact ⟨⟨h1, h2, h3, h4, h5, h6, h7, h8, h9⟩, hout.trans (dropJobs_hostOut s.m)⟩
  case crit =>
    obtain ⟨h1, h2', h3, h4, h5, h6, h7, h8, h9, -, hcrit⟩ :=
      thermalShutdown_down (dropJobs (onStk (critKilled s.m st) st (fun s => { s with crit := true })))
        (thermalEvent st.val (stkAt s.m st).temp.toNat) (by simp [quayDropped]) (by simp [quayDropped])
    refine ⟨_, exec_tCrit st s, ?_⟩
    rw [tCritStep_hot h0 h2]
    rw [dropJobs_quay] at h7
    refine ⟨⟨h1, h2', h3, h4, h5, h6, h7.trans (congrArg (satAdd · 1) (critKilled_ievents s.m st)), h8, h9⟩, ?_⟩
    rw [hcrit st st.isLt, stkField_dropJobs Stack.crit _ _ (fun _ _ => rfl) (fun _ _ => rfl), stkAt_onStk_same]

end Sys2Proof.Machine
end

section
/-! PROOFS. Halts, kills and quiesce checks (R466, R479, R480, R482, R498, R499, R501, R502): what the kill of a job leaves of its
clusters, what a breakpoint and a resume do to the halt of a die, and how the modulus table validates an entry (R166, R167). -/
namespace Sys2Proof.Machine
open Sys2Proof Sys2Proof.Certificates

/-! ## Entries of tables -/

section
variable {α : Type} [DecidableEq α] {d : α} {t : Tab α} {k : Nat}

omit [DecidableEq α] in
theorem mem_of_tget_ne (h : tget d t k ≠ d) : (k, tget d t k) ∈ t := by
  induction t with
  | nil => exact absurd rfl h
  | cons p t ih =>
    obtain ⟨j, w⟩ := p
    by_cases h1 : k = j
    · subst h1
      simp [tget]
    · by_cases h2 : k < j
      · simp [tget, h1, h2] at h
      · have e : tget d ((j, w) :: t) k = tget d t k := by simp [tget, h1, h2]
        rw [e] at h ⊢
        exact List.mem_cons_of_mem _ (ih h)

/-- Several indices set to one value. -/
theorem tget_foldl_tset (v : α) (ks : List Nat) :
    tget d (ks.foldl (fun t k => tset d t k v) t) k = if k ∈ ks then v else tget d t k := by
  induction ks generalizing t with
  | nil => simp
  | cons j ks ih =>
    rw [List.foldl_cons, ih]
    by_cases hk : k ∈ ks
    · simp [hk]
    · by_cases hj : k = j <;> simp [hk, hj, tget_tset]

end

/-! ## Rows behind the fence -/

section
variable (c : Cluster)

theorem mem_insFence (x f : FenceRow) : ∀ l : List FenceRow, f ∈ insFence x l ↔ f = x ∨ f ∈ l
  | [] => by simp [insFence]
  | y :: l => by
    unfold insFence
    split
    · simp
    · simp [mem_insFence x f l, or_left_comm]

theorem rowFenced_iff {r : Nat} : rowFenced c r = true ↔ ∃ f ∈ c.fence, f.row = r := by
  simp [rowFenced]

theorem rowFenced_fenceList (rows : List Nat) (fence r : Nat) :
    rowFenced (fenceList c rows fence) r = (decide (r ∈ rows) || rowFenced c r) := by
  induction rows generalizing c with
  | nil => simp [fenceList]
  | cons x rows ih =>
    have hcons : fenceList c (x :: rows) fence = fenceList { c with
      fence := insFence { row := x, fence := fence } (c.fence.filter (fun f => decide (f.row ≠ x))) } rows fence := rfl
    have hone : rowFenced { c with
        fence := insFence { row := x, fence := fence } (c.fence.filter (fun f => decide (f.row ≠ x))) } r =
          (decide (r = x) || rowFenced c r) := by
      rw [Bool.eq_iff_iff]
      simp only [rowFenced_iff, mem_insFence, List.mem_filter, decide_eq_true_eq, Bool.or_eq_true]
      constructor
      · rintro ⟨f, rfl | ⟨hf, -⟩, rfl⟩
        · exact .inl rfl
        · exact .inr ⟨f, hf, rfl⟩
      · rintro (rfl | ⟨f, hf, rfl⟩)
        · exact ⟨_, .inl rfl, rfl⟩
        · by_cases hx : f.row = x
          · exact ⟨_, .inl rfl, hx.symm⟩
          · exact ⟨f, .inr ⟨hf, hx⟩, rfl⟩
    rw [hcons, ih, hone]
    simp only [List.mem_cons, Bool.decide_or]
    cases decide (r = x) <;> cases decide (r ∈ rows) <;> rfl

theorem rowFenced_fenceRows (row0 rows fence r : Nat) :
    rowFenced (fenceRows c row0 rows fence) r = (decide (row0 ≤ r ∧ r < row0 + rows) || rowFenced c r) := by
  rw [Bool.eq_iff_iff]
  unfold fenceRows
  simp only [rowFenced_iff, List.mem_append, List.mem_filter, List.mem_map, List.mem_range, decide_eq_true_eq, Bool.or_eq_true,
    Bool.not_eq_true']
  constructor
  · rintro ⟨f, (⟨⟨hf, -⟩, -⟩ | ⟨i, hi, rfl⟩) | ⟨⟨hf, -⟩, -⟩, rfl⟩
    · exact .inr ⟨f, hf, rfl⟩
    · exact .inl ⟨Nat.le_add_right _ _, Nat.add_lt_add_left hi _⟩
    · exact .inr ⟨f, hf, rfl⟩
  · rintro (⟨h1, h2⟩ | ⟨f, hf, rfl⟩)
    · exact ⟨_, .inl (.inr ⟨r - row0, by omega, rfl⟩), by dsimp only; omega⟩
    · by_cases hout : f.row < row0 ∨ row0 + rows ≤ f.row
      · by_cases hfirst : f.fence < fence ∨ f.fence = fence ∧ f.row < row0
        · exact ⟨f, .inl (.inl ⟨⟨hf, hout⟩, hfirst⟩), rfl⟩
        · exact ⟨f, .inr ⟨⟨hf, hout⟩, by simpa using hfirst⟩, rfl⟩
      · exact ⟨_, .inl (.inr ⟨f.row - row0, by omega, rfl⟩), by dsimp only; omega⟩

end

/-! ## The clusters of a killed job -/

section
variable {c : Cluster} {tag k : Nat}

theorem mem_ctxsAll (hs : (ctxOf c k).state ≠ 0) (hj : (ctxOf c k).job = tag) : k ∈ ctxsAll c tag := by
  have hmem : (k, ctxOf c k) ∈ c.ctxs := mem_of_tget_ne fun h => hs (congrArg Context.state h)
  exact List.mem_map.2 ⟨_, List.mem_filter.2 ⟨hmem, by dsimp only; rw [decide_eq_true hs, hj]; simp⟩, rfl⟩

theorem ctxOf_killCluster (code : BitVec 4) (fence : Nat) (h : ClHold) :
    ctxOf (killCluster tag code fence h c) k = if k ∈ ctxsAll c tag then { kill := code } else ctxOf c k :=
  tget_foldl_tset (d := ({} : Context)) (t := c.ctxs) ({ kill := code } : Context) (ctxsAll c tag)

/-- No context of the cluster serves the job. -/
def unserved (tag : Nat) (c : Cluster) : Prop := ∀ k, (ctxOf c k).state ≠ 0 → (ctxOf c k).job ≠ tag

theorem unserved_killCluster (code : BitVec 4) (fence : Nat) (h : ClHold) : unserved tag (killCluster tag code fence h c) := by
  intro k hs hj
  rw [ctxOf_killCluster] at hs hj
  split at hs
  · exact hs rfl
  · next hk =>
    rw [if_neg hk] at hj
    exact hk (mem_ctxsAll hs hj)

theorem rowFenced_killCluster (code : BitVec 4) (fence : Nat) (h : ClHold) (r : Nat) (hr : h.row0 ≤ r ∧ r < h.row0 + h.rows
    ∨ rowFenced c r = true) : rowFenced (killCluster tag code fence h c) r = true := by
  unfold killCluster
  dsimp only
  rw [rowFenced_fenceList, rowFenced_fenceRows]
  rcases hr with hr | hr
  · simp [hr]
  · have hkeep : rowFenced (zeroHeaders { c with nte := killEngine tag c.nte } tag) r = rowFenced c r := rfl
    simp only [Bool.or_eq_true, decide_eq_true_eq]
    exact .inr (.inr hr)

end

/-- Cluster `h.cl` as the kill of a job leaves it: no context serves the job, and the rows of the entry are behind the fence. -/
def killedAt (tag : Nat) (h : ClHold) (m : Module) : Prop :=
  unserved tag (clAt m h.cl) ∧ ∀ r, h.row0 ≤ r → r < h.row0 + h.rows → rowFenced (clAt m h.cl) r = true

section
variable {tag : Nat} {h : ClHold} {m : Module}

theorem killedAt_onCl {i : Nat} {f : Cluster → Cluster} (hc : ∀ k, ctxOf (f (clAt m i)) k = ctxOf (clAt m i) k)
    (hf : ∀ r, rowFenced (clAt m i) r = true → rowFenced (f (clAt m i)) r = true) (hm : killedAt tag h m) :
    killedAt tag h (onCl m i f) := by
  obtain ⟨hctx, hrows⟩ := hm
  unfold killedAt
  by_cases hi : h.cl = i
  · subst hi
    rw [clAt_onCl_same]
    exact ⟨fun k => by rw [hc]; exact hctx k, fun r h1 h2 => hf r (hrows r h1 h2)⟩
  · rw [clAt_onCl_ne _ _ _ _ hi]
    exact ⟨hctx, hrows⟩

theorem killedAt_kill_same (code : BitVec 4) (fence : Nat) : killedAt tag h (onCl m h.cl (killCluster tag code fence h)) := by
  unfold killedAt
  rw [clAt_onCl_same]
  exact ⟨unserved_killCluster code fence h, fun r h1 h2 => rowFenced_killCluster code fence h r (.inl ⟨h1, h2⟩)⟩

theorem killedAt_kill (code : BitVec 4) (fence : Nat) (g : ClHold) (hm : killedAt tag h m) :
    killedAt tag h (onCl m g.cl (killCluster tag code fence g)) := by
  obtain ⟨hctx, hrows⟩ := hm
  unfold killedAt
  by_cases hi : h.cl = g.cl
  · rw [hi] at hrows ⊢
    rw [clAt_onCl_same]
    exact ⟨unserved_killCluster code fence g, fun r h1 h2 => rowFenced_killCluster code fence g r (.inr (hrows r h1 h2))⟩
  · rw [clAt_onCl_ne _ _ _ _ hi]
    exact ⟨hctx, hrows⟩

theorem killedAt_fenceDests (fence : Nat) (ds : List (Nat × Nat × Nat)) (hm : killedAt tag h m) :
    killedAt tag h (fenceDests m fence ds) := by
  unfold fenceDests
  refine foldl_keeps (killedAt tag h) _ (fun b d hb => killedAt_onCl (fun _ => rfl) (fun r hr => ?_) hb) ds m hm
  rw [rowFenced_fenceList, hr, Bool.or_true]

theorem fenceUnits_clusters (fence : Nat) (g : DieHold) : (fenceUnits m fence g).clusters = m.clusters := by
  unfold fenceUnits
  split <;> rfl

theorem killedAt_of_clusters {n : Module} (e : n.clusters = m.clusters) (hm : killedAt tag h m) : killedAt tag h n := by
  have hcl : clAt n h.cl = clAt m h.cl := congrArg (fun t => tget ({} : Cluster) t h.cl) e
  unfold killedAt
  rw [hcl]
  exact hm

theorem killedAt_foldl_kill (code : BitVec 4) (fence : Nat) {hs : List ClHold} (hmem : h ∈ hs) :
    killedAt tag h (hs.foldl (fun m g => onCl m g.cl (killCluster tag code fence g)) m) := by
  induction hs generalizing m with
  | nil => cases hmem
  | cons g hs ih =>
    rw [List.foldl_cons]
    rcases List.mem_cons.1 hmem with rfl | hmem
    · exact foldl_keeps (killedAt tag h) _ (fun _ g hb => killedAt_kill code fence g hb) hs _ (killedAt_kill_same code fence)
    · exact ih hmem

/-- What each part of a tear-down keeps, the whole keeps. -/
theorem tearDown_keeps (P : Module → Prop) {j : Job} {code : BitVec 4} (hm : P m)
    (hkill : ∀ b g, P b → P (onCl b g.cl (killCluster tag code (m.fenceSeq + 1) g)))
    (hdests : ∀ b f ds, P b → P (fenceDests b f ds))
    (hdie : ∀ b f (g : DieHold), P b → P (fenceUnits (fiOff (onDie b g.die (killDie tag j.started)) g.die) f g))
    (hrest : ∀ b fs tr gr, P b → P { b with fenceSeq := fs, transit := tr, graves := gr }) : P (tearDown m tag j code) := by
  refine hrest _ _ _ _ (foldl_keeps P _ (fun b g hb => hdie b _ g hb) j.dies _ (hdests _ _ _ ?_))
  exact foldl_keeps P _ (fun b g hb => hkill b g hb) j.clusters m hm

/-- The tear-down of a job stops its contexts and puts its rows behind the fence. -/
theorem killedAt_tearDown (j : Job) (code : BitVec 4) (hmem : h ∈ j.clusters) : killedAt tag h (tearDown m tag j code) := by
  refine killedAt_of_clusters (m := j.dies.foldl _ _) rfl ?_
  refine foldl_keeps (killedAt tag h) _ (fun b g hb => ?_) j.dies _ (killedAt_fenceDests _ _ (killedAt_foldl_kill code _ hmem))
  exact killedAt_of_clusters (fenceUnits_clusters _ _) (killedAt_of_clusters rfl hb)

end

/-! ## The kill of a job -/

section
variable (m : Module) (tag : Nat) (cause : KillCause) (trip : Option (Nat × Nat)) {j : Job}

/-- The snapshot that a kill hands over: of a watchdog trip, when the descriptor names an address (R503). -/
def killSnap (m : Module) (tag : Nat) (j : Job) : KillCause → Option (Nat × Nat) → Option (BitVec 64 × List Byte)
  | .waitTimeout, some t => if j.desc.snap = 0 then none else some (j.desc.snap, snapshotOf m tag j t)
  | _, _ => none

/-- A job in flight that is killed: torn down when it has started, the DRBG reseeded, and ended. -/
theorem killJob_eq (h : jobAt m tag = some j) (hk : j.killed = none) (hp : j.phase ≠ .finishing) :
    killJob m tag cause trip =
      let w := withSlips m tag j
      let m1 := onJob m tag (fun _ => { w with killed := some cause })
      finishJob (reseed (if w.started then tearDown m1 tag w (killCode cause) else m1)) tag (killStatus cause).1
        (killStatus cause).2 none (killSnap m tag w cause trip) := by
  unfold killJob
  rw [h]
  dsimp only
  rw [if_neg (by simp [hk, hp])]
  rfl

theorem OnlySlips.desc_eq {a b : Job} (h : OnlySlips a b) : b.desc = a.desc := congrArg (·.desc) h
theorem OnlySlips.started_eq {a b : Job} (h : OnlySlips a b) : b.started = a.started := congrArg (·.started) h
theorem OnlySlips.clusters_eq {a b : Job} (h : OnlySlips a b) : b.clusters = a.clusters := congrArg (·.clusters) h

/-- The completion that the kill queues. -/
theorem killJob_queues (h : jobAt m tag = some j) (hk : j.killed = none) (hp : j.phase ≠ .finishing) : ∃ c : Completion,
    (killJob m tag cause trip).quay.compl = m.quay.compl ++ [c] ∧ c.job = some tag ∧ c.ring = j.desc.ring ∧ c.cid = j.desc.cid
      ∧ c.status = (killStatus cause).1 ∧ c.detail = (killStatus cause).2
      ∧ c.snapshot = killSnap m tag (withSlips m tag j) cause trip := by
  have hslips : OnlySlips j (withSlips m tag j) := onlySlips_withSlips m tag j
  have hdesc : (withSlips m tag j).desc = j.desc := hslips.desc_eq
  rw [killJob_eq m tag cause trip h hk hp]
  generalize withSlips m tag j = w at hdesc
  extract_lets w' m1
  have hm1 : jobAt m1 tag = some { w with killed := some cause } := by
    rw [jobAt_onJob_same, h, Option.map_some]
  generalize hm2 : (if w'.started then tearDown m1 tag w' (killCode cause) else m1) = m2
  have hquay : m2.quay = m1.quay := by
    rw [← hm2]
    split
    · exact (tearDown_rest m1 tag w' _).2
    · rfl
  have hj2 : jobAt (reseed m2) tag = some { w with killed := some cause } := (jobAt_of_jobs_eq m1 (congrArg (·.jobs) hquay) tag).trans hm1
  rw [finishJob_compl _ _ _ _ _ _ hj2]
  have hcompl : (reseed m2).quay.compl = m.quay.compl := congrArg (·.compl) hquay
  rw [hcompl]
  exact ⟨_, rfl, rfl, congrArg JobDesc.ring hdesc, congrArg JobDesc.cid hdesc, rfl, rfl, rfl⟩

/-- The job itself: killed by the cause, and ended. -/
theorem jobAt_killJob_finishing (h : jobAt m tag = some j) (hk : j.killed = none) (hp : j.phase ≠ .finishing) :
    ∃ j', jobAt (killJob m tag cause trip) tag = some j' ∧ j'.killed = some cause ∧ j'.phase = .finishing := by
  rw [killJob_eq m tag cause trip h hk hp]
  generalize withSlips m tag j = w
  extract_lets w' m1
  have hm1 : jobAt m1 tag = some { w with killed := some cause } := by
    rw [jobAt_onJob_same, h, Option.map_some]
  generalize hm2 : (if w'.started then tearDown m1 tag w' (killCode cause) else m1) = m2
  have hjobs : m2.quay.jobs = m1.quay.jobs := by
    rw [← hm2]
    split
    · exact congrArg (·.jobs) (tearDown_rest m1 tag w' _).2
    · rfl
  have hj2 : jobAt (reseed m2) tag = some { w with killed := some cause } := (jobAt_of_jobs_eq m1 hjobs tag).trans hm1
  rw [jobAt_finishJob, hj2]
  exact ⟨_, rfl, rfl, rfl⟩

theorem finishJob_clusters (status detail : BitVec 8) (count : Option Nat) (snap : Option (BitVec 64 × List Byte)) :
    (finishJob m tag status detail count snap).clusters = m.clusters := by rw [finishJob_eq]

theorem finishJob_dies (status detail : BitVec 8) (count : Option Nat) (snap : Option (BitVec 64 × List Byte)) :
    (finishJob m tag status detail count snap).dies = m.dies := by rw [finishJob_eq]

/-- A started job leaves its clusters as `killedAt` says. -/
theorem killedAt_killJob (h : jobAt m tag = some j) (hk : j.killed = none) (hp : j.phase ≠ .finishing) (hs : j.started = true)
    {g : ClHold} (hg : g ∈ j.clusters) : killedAt tag g (killJob m tag cause trip) := by
  have hslips : OnlySlips j (withSlips m tag j) := onlySlips_withSlips m tag j
  have hstarted : (withSlips m tag j).started = true := hslips.started_eq.trans hs
  have hclusters : (withSlips m tag j).clusters = j.clusters := hslips.clusters_eq
  rw [killJob_eq m tag cause trip h hk hp]
  dsimp only
  rw [if_pos hstarted]
  refine killedAt_of_clusters (finishJob_clusters ..) (killedAt_of_clusters rfl (killedAt_tearDown _ _ ?_))
  rw [hclusters]
  exact hg

theorem killJob_drbgGens (h : jobAt m tag = some j) (hk : j.killed = none) (hp : j.phase ≠ .finishing) :
    (killJob m tag cause trip).hedge.drbgGens = 0 := by
  rw [killJob_eq m tag cause trip h hk hp]
  dsimp only
  rw [finishJob_eq]
  rfl

end

theorem killStatus_eq_causeStatus (cause : KillCause) : killStatus cause = causeStatus cause := by
  cases cause
  case ledgerFault code =>
    have h : BitVec.ofNat 8 code.toNat = code.setWidth 8 := by simp [BitVec.ofNat_toNat]
    exact congrArg (Prod.mk _) h
  all_goals rfl

theorem exec_jobKill (tag : Fin 1024) (cause : KillCause) (s : State) :
    exec (.jobKill tag cause) s = .next { s with m := killJob s.m tag cause none } := rfl

/-- Settles O29, by what the kill queues and what it leaves of the job and of its clusters. -/
theorem jobKills : Obligations.JobKills := by
  intro s tag cause j hj
  refine ⟨fun hk hp => ?_, fun hk => ?_⟩
  · obtain ⟨c, hcompl, -, hring, hcid, hstatus, hdetail, -⟩ := killJob_queues s.m tag cause none hj hk hp
    obtain ⟨j', hj', hkilled, hphase⟩ := jobAt_killJob_finishing s.m tag cause none hj hk hp
    exact ⟨_, c, j', exec_jobKill tag cause s, hcompl, hring, hcid,
      (Prod.ext hstatus hdetail).trans (killStatus_eq_causeStatus cause), hj', hkilled, hphase,
      killJob_drbgGens s.m tag cause none hj hk hp,
      fun hs g hg => killedAt_killJob s.m tag cause none hj hk hp hs hg⟩
  · rw [exec_jobKill, killJob_skip]
    intro j' hj'
    rw [hj] at hj'
    cases hj'
    exact .inl hk

/-! ## Watchdogs, breakpoints and the halt -/

section
variable (m : Module)

/-- A hold that is captured changes its context alone. -/
theorem captureHold_quay (cl k : Nat) : (captureHold m cl k).quay = m.quay := by
  unfold captureHold
  dsimp only
  split
  · split <;> rfl
  · rfl

theorem captureHolds_quay (l : List (Nat × Nat)) : (l.foldl (fun m p => captureHold m p.1 p.2) m).quay = m.quay :=
  foldl_keeps (fun b : Module => b.quay = m.quay) _ (fun b p hb => (captureHold_quay b p.1 p.2).trans hb) l m rfl

/-- The halt of a die through a change of a die that keeps it. -/
theorem halted_onDie (i d : Nat) {f : Die → Die} (hf : ∀ x, (f x).halted = x.halted) :
    (dieAt (onDie m i f) d).halted = (dieAt m d).halted := by
  by_cases h : d = i
  · subst h; rw [dieAt_onDie_same, hf]
  · rw [dieAt_onDie_ne _ _ _ _ h]

theorem killDie_halted (tag : Nat) (started : Bool) (d : Die) : (killDie tag started d).halted = d.halted := by
  unfold killDie
  dsimp only
  split <;> rfl

theorem fenceDests_dies (fence : Nat) (ds : List (Nat × Nat × Nat)) : (fenceDests m fence ds).dies = m.dies := by
  unfold fenceDests
  refine foldl_keeps (fun b : Module => b.dies = m.dies) _ (fun _ _ hb => ?_) ds m rfl
  exact hb

theorem fenceUnits_dies (fence : Nat) (h : DieHold) : (fenceUnits m fence h).dies = m.dies := by
  unfold fenceUnits
  split <;> rfl

/-- The tear-down of a job leaves the halt of every die to the other jobs (R482). -/
theorem tearDown_halted (tag : Nat) (j : Job) (code : BitVec 4) (d : Nat) :
    (dieAt (tearDown m tag j code) d).halted = (dieAt m d).halted := by
  have hdies {a b : Module} (e : a.dies = b.dies) : (dieAt a d).halted = (dieAt b d).halted :=
    congrArg (fun t => (tget ({} : Die) t d).halted) e
  refine tearDown_keeps (fun b => (dieAt b d).halted = (dieAt m d).halted) rfl (fun b _ hb => hb)
    (fun b f ds hb => (hdies (fenceDests_dies b f ds)).trans hb) (fun b f h hb => ?_) (fun _ _ _ _ hb => hb)
  have hfi (x : Module) : (dieAt (fiOff x h.die) d).halted = (dieAt x d).halted := by
    unfold fiOff
    rw [dieAt_onStk, dieAt_onStk]
    exact halted_onDie x h.die d fun _ => rfl
  rw [hdies (fenceUnits_dies _ f h), hfi, halted_onDie _ _ _ (killDie_halted tag j.started)]
  exact hb

theorem killJob_halted (tag : Nat) (cause : KillCause) (trip : Option (Nat × Nat)) (d : Nat) :
    (dieAt (killJob m tag cause trip) d).halted = (dieAt m d).halted := by
  have hdies {a b : Module} (e : a.dies = b.dies) : (dieAt a d).halted = (dieAt b d).halted :=
    congrArg (fun t => (tget ({} : Die) t d).halted) e
  cases hj : jobAt m tag with
  | none => rw [killJob_skip m tag cause trip (fun j hj' => nomatch hj.symm.trans hj')]
  | some j =>
    by_cases h : j.killed ≠ none ∨ j.phase = .finishing
    · rw [killJob_skip m tag cause trip]
      intro j' hj'
      cases hj.symm.trans hj'
      exact h
    · rw [not_or, not_not] at h
      rw [killJob_eq m tag cause trip hj h.1 h.2]
      refine (hdies (finishJob_dies ..)).trans ?_
      show (dieAt (ite _ _ _) d).halted = _
      split
      · exact tearDown_halted _ tag _ _ d
      · rfl

end

theorem exec_watchdogTrip (cl : Fin 512) (k : Fin 8) (s : State) :
    exec (.watchdogTrip cl k) s = .next { s with m := watchdogStep s.m cl k } := rfl
theorem exec_breakpoint (cl : Fin 512) (k : Fin 8) (s : State) :
    exec (.breakpoint cl k) s = .next { s with m := breakpointStep s.m cl k } := rfl
theorem exec_resume (d : Fin 8) (s : State) : exec (.resume d) s = .next { s with m := resumeStep s.m d } := rfl

section
variable {m : Module} {cl k : Nat}

/-- A trip: the kill of the context's job with WAIT_TIMEOUT, after the holds of its contexts are captured. -/
theorem watchdogStep_trips (hs : (ctxOf (clAt m cl) k).state = 1 ∨ (ctxOf (clAt m cl) k).state = 3)
    (hw : 2 ^ 28 ≤ (ctxOf (clAt m cl) k).wdog) : ∃ n t, n.quay = m.quay
      ∧ watchdogStep m cl k = killJob n (ctxOf (clAt m cl) k).job .waitTimeout (some t) :=
  ⟨_, _, captureHolds_quay m _, if_pos ⟨hs, hw⟩⟩

theorem breakpointStep_hit (h : (ctxOf (clAt m cl) k).brkHit = true) : breakpointStep m cl k =
    onDie (onCl m cl (fun c => onCtx c k (fun x => { x with brkHit := false }))) (dieOf cl) (fun d =>
      if d.halted ∧ ¬(d.haltAt = m.now ∧ (cl < d.haltSrc.toNat ∨ (cl = d.haltSrc.toNat ∧ k < d.haltCtx.toNat))) then d
      else { d with halted := true, haltSrc := BitVec.ofNat 9 cl, haltCtx := BitVec.ofNat 3 k, haltAt := m.now }) := by
  unfold breakpointStep
  dsimp only
  rw [h]
  rfl

end

/-- A halted die that another breakpoint of the same a-cycle halts takes its source alone. -/
theorem rehalted {d : Die} {src : BitVec 9} {ctx : BitVec 3} {now : Nat} (h : d.halted = true) (hn : d.haltAt = now) :
    { d with halted := true, haltSrc := src, haltCtx := ctx, haltAt := now } = { d with haltSrc := src, haltCtx := ctx } := by
  cases d
  cases h
  cases hn
  rfl

/-- Settles O35: the kill of a trip, the halt of a breakpoint and of RESUME, and the halt that a kill leaves. -/
theorem haltAndWatchdog : Obligations.HaltAndWatchdog := by
  intro s
  refine ⟨fun cl k j => ?trip, fun cl k hit => ?hit, fun d => ?resume, fun tag c => ?kill⟩
  case trip =>
    intro x hs hw hj hk hp
    obtain ⟨n, t, hquay, hstep⟩ := watchdogStep_trips (k := k) hs hw
    have hjn : jobAt n x.job = some j := (jobAt_of_jobs_eq s.m (congrArg (·.jobs) hquay) x.job).trans hj
    obtain ⟨c, hcompl, hjob, -, -, hstatus, hdetail, hsnap⟩ := killJob_queues n x.job .waitTimeout (some t) hjn hk hp
    refine ⟨_, c, exec_watchdogTrip cl k s, ?_, hjob, hstatus, hdetail, fun h0 => ?_⟩
    · rw [hstep, hcompl, hquay]
    · have hdesc : (withSlips n x.job j).desc = j.desc := (onlySlips_withSlips n x.job j).desc_eq
      refine ⟨snapshotOf n x.job (withSlips n x.job j) t, hsnap.trans ?_⟩
      rw [← hdesc] at h0 ⊢
      exact if_neg h0
  case hit =>
    refine ⟨_, exec_breakpoint cl k s, ?_⟩
    rw [breakpointStep_hit hit, show cl.val / 64 = dieOf cl from rfl, dieAt_onDie_same]
    refine ⟨?_, ?_, fun h => ?_, fun h => ?_⟩
    · split
      · next h => exact h.1
      · rfl
    · rw [clAt_onDie, clAt_onCl_same, ctxOf_onCtx_same]
    · exact if_neg fun hc => Bool.false_ne_true (h.symm.trans hc.1)
    · intro d
      by_cases hc : d.haltAt = s.m.now ∧ (cl.val < d.haltSrc.toNat ∨ cl.val = d.haltSrc.toNat ∧ k.val < d.haltCtx.toNat)
      · rw [if_pos hc]
        exact (if_neg fun hn => hn.2 hc).trans (rehalted h hc.1)
      · rw [if_neg hc]
        exact if_pos ⟨h, hc⟩
  case resume =>
    exact ⟨_, exec_resume d s, ⟨rfl, fun j hj => dieAt_onDie_ne _ _ _ _ hj⟩, dieAt_onDie_same ..⟩
  case kill => exact ⟨_, exec_jobKill tag c s, killJob_halted s.m tag c none⟩

end Sys2Proof.Machine
end

section
/-! PROOFS. The quiesce check (R498, R499) and the validation of a modulus table entry (R166, R167). -/
namespace Sys2Proof.Machine
open Sys2Proof Sys2Proof.Certificates

/-! ## Quiesce checks -/

section
variable (m : Module)

/-- A raised event sets its bit and no other (R571). -/
theorem raiseEvt_evt (i : Nat) : (raiseEvt m i).quay.evt = m.quay.evt ||| BitVec.ofNat 7 (2 ^ i) := by
  unfold raiseEvt
  dsimp only
  split
  · split <;> simp
  · rfl

theorem raiseEvt_qstate (i : Nat) : (raiseEvt m i).quay.qstate = m.quay.qstate := by
  unfold raiseEvt
  dsimp only
  split
  · split <;> simp
  · rfl

/-- Records that wait one after another. -/
theorem logLater_foldl (f : Nat → LogEvent) (ds : List Nat) : ds.foldl (fun m d => logLater m (f d)) m =
    onHedge m (fun h => { h with logQ := h.logQ ++ ds.map f }) := by
  induction ds generalizing m with
  | nil => simp [onHedge]
  | cons d ds ih => rw [List.foldl_cons, ih]; simp [onHedge, logLater]

/-- The dies at fault that no earlier check has noted. -/
def freshBad (m : Module) : List Nat := (uncleanDies m).filter (fun d => !m.quay.quiesceBad.contains d)

theorem uncleanDies_eq_nil : uncleanDies m = [] ↔ ∀ d, d < 8 → dieClear m d = true := by
  simp [uncleanDies]

variable {m}

/-- Before the last completion entry a quiesce check does nothing. -/
theorem quiesceCheckStep_early (h : m.quay.qstate ≠ 1 ∨ m.quay.jobs ≠ [] ∨ m.quay.uploads ≠ [] ∨ m.quay.compl ≠ []) :
    quiesceCheckStep m = m := if_pos h

theorem quiesceCheckStep_drained (h : ¬ (m.quay.qstate ≠ 1 ∨ m.quay.jobs ≠ [] ∨ m.quay.uploads ≠ [] ∨ m.quay.compl ≠ [])) :
    quiesceCheckStep m =
      if freshBad m = [] ∧ m.quay.quiesceBad = [] then raiseEvt (onQuay m (fun q => { q with qstate := 2 })) 0
      else onQuay ((freshBad m).foldl (fun m d => logLater m (quiesceEvent d)) m)
        (fun q => { q with quiesceBad := q.quiesceBad ++ freshBad m }) := if_neg h

/-- With no die noted, a check finds none at fault exactly when every book is clear. -/
theorem freshBad_clear : freshBad m = [] ∧ m.quay.quiesceBad = [] ↔
    (∀ d, d < 8 → dieClear m d = true) ∧ m.quay.quiesceBad = [] := by
  refine and_congr_left fun hbad => ?_
  have h : freshBad m = uncleanDies m := by simp [freshBad, hbad]
  rw [h, uncleanDies_eq_nil]

end

theorem exec_quiesceCheck (s : State) : exec .quiesceCheck s = .next { s with m := quiesceCheckStep s.m } := rfl

/-- Settles O26, by the two outcomes of a check after the last completion entry. -/
theorem quiesceChecks : Obligations.QuiesceChecks := by
  intro s
  refine ⟨fun hq hj hu hc => ?drained, fun h => ?early⟩
  case early => rw [exec_quiesceCheck, quiesceCheckStep_early h]
  case drained =>
    have hstep := quiesceCheckStep_drained (m := s.m) (by simp [hq, hj, hu, hc])
    refine ⟨fun hclear hbad => ?_, fun h => ?_⟩
    · refine ⟨_, exec_quiesceCheck s, ?_⟩
      rw [hstep, if_pos (freshBad_clear.2 ⟨hclear, hbad⟩)]
      exact ⟨raiseEvt_qstate .., raiseEvt_evt ..⟩
    · have hnot : ¬ (freshBad s.m = [] ∧ s.m.quay.quiesceBad = []) := by
        rw [freshBad_clear]
        rintro ⟨hclear, hbad⟩
        rcases h with ⟨d, hd, hf⟩ | h
        · exact Bool.false_ne_true (hf.symm.trans (hclear d hd))
        · exact h hbad
      refine ⟨_, freshBad s.m, exec_quiesceCheck s, rfl, ?_⟩
      rw [hstep, if_neg hnot, logLater_foldl]
      exact ⟨rfl, rfl⟩

/-! ## The modulus table -/

section
variable (t : Tab ModEntry) (i : Nat) (v : Word)

/-- A write of a word of the modulus table changes the entry that holds the word. -/
theorem tget_modTabWrite (k j : Nat) (hk : k < 4) : tget {} (modTabWrite t (4 * i + k) v) j =
    if j = i then modWrite (tget {} t i) k v else tget {} t j := by
  have hdiv : (4 * i + k) / 4 = i := by omega
  have hmod : (4 * i + k) % 4 = k := by omega
  unfold modTabWrite tmod
  rw [hdiv, hmod, tget_tset]

theorem modWrite_valid (e : ModEntry) (k : Nat) : (modWrite e k v).valid = false := by
  unfold modWrite
  split
  · rfl
  split
  · rfl
  split <;> rfl

/-- The five conditions of R166. -/
theorem modOk_iff (e : ModEntry) : modOk e = true ↔
    e.q.toNat % 2 = 1 ∧ 2 ^ 19 < e.q.toNat ∧ 10 ≤ e.ne.toNat ∧ e.ne.toNat ≤ 17 ∧ e.psi.toNat < e.q.toNat
      ∧ e.psiinv.toNat < e.q.toNat ∧ e.psi.toNat ^ (2 ^ e.ne.toNat) % e.q.toNat = e.q.toNat - 1
      ∧ e.psi.toNat * e.psiinv.toNat % e.q.toNat = 1 := by
  unfold modOk
  simp only [powMod_eq, Bool.and_eq_true, decide_eq_true_eq, and_assoc, gt_iff_lt]

end

theorem exec_modulusEntryValidate (cl : Fin 512) (i : Fin 256) (w : Word) (s : State) :
    exec (.modulusEntryValidate cl i w) s = .next { s with m := modValidateStep s.m cl i w } := rfl
theorem exec_modulusValidationDone (cl : Fin 512) (i : Fin 256) (s : State) :
    exec (.modulusValidationDone cl i) s = .next { s with m := modDoneStep s.m cl i } := rfl

theorem onCl_onlyCl (m : Module) (i : Nat) (f : Cluster → Cluster) : OnlyCl m (onCl m i f) i :=
  ⟨rfl, fun _ hj => clAt_onCl_ne _ _ _ _ hj⟩

/-- Settles O40: the write of word 3, the outcome of `modOk`, and the writes of the words before. -/
theorem modulusValidate : Obligations.ModulusValidate := by
  intro s cl i w e
  refine ⟨?start, ?done, fun t k hk => ?write⟩
  case start =>
    refine ⟨_, exec_modulusEntryValidate cl i w s, onCl_onlyCl .., ?_⟩
    unfold modValidateStep
    simp only [clAt_onCl_same]
    refine ⟨trivial, ?_, fun j hj => ?_⟩
    · rw [tget_modTabWrite _ _ _ _ _ (by decide), if_pos rfl]
      have hne : BitVec.ofNat 5 w.toNat = w.setWidth 5 := by simp [BitVec.ofNat_toNat]
      simp [modWrite, hne, e]
    · rw [tget_modTabWrite _ _ _ _ _ (by decide), if_neg hj]
  case done =>
    refine ⟨_, exec_modulusValidationDone cl i s, onCl_onlyCl .., ?_⟩
    unfold modDoneStep tmod
    simp only [clAt_onCl_same, tget_tset_same]
    refine ⟨trivial, fun j hj => tget_tset_ne _ hj, fun hb => ?_, fun hb => ?_⟩
    · exact if_neg (ne_true_of_eq_false hb)
    · have hdone : modDone e = { e with busy := false, valid := modOk e } := if_pos hb
      rw [hdone]
      exact ⟨rfl, modOk_iff e⟩
  case write =>
    rw [tget_modTabWrite _ _ _ _ _ (by omega), if_pos rfl]
    exact modWrite_valid ..

end Sys2Proof.Machine
end

section
/-! PROOFS. Instructions that a fetch buffer splits (R434, R441). Whether a buffer holds an instruction is asked of its first word and of
all its words apart: a buffer that ends within an instruction gives its length from the buffered header word, and its words, all of them,
from the stack. When the two copies of the header word differ in LEN, the words at the program counter are as many as the buffered
header says and yet not those of a whole instruction, and the instruction's own check of LEN kills the job (STREAM_INVALID). The
statements below ask of an instruction of several words only that it stands at the program counter (`MayIssue`) and not that its LEN
is the count of its words, so each of them fails on such a buffer. -/
namespace Sys2Proof.Machine
open Sys2Proof Sys2Proof.Certificates

/-- Cluster 3 with an active context 0 whose stream is `ws` and lies at offset 0 of stack 0, while its fetch buffer holds `first` alone,
another copy of the stream's first word. -/
def splitCluster (first : Word) (ws : List Word) : Cluster :=
  { ctxs := [(0, { state := 1, job := 7, len := ws.length, fbuf := (0, [first]) })] }

/-- A module with that cluster, changed by `f`, and that stream, and the dies `dies`. -/
def splitModule (first : Word) (ws : List Word) (f : Cluster → Cluster) (dies : Tab Die) : Module :=
  { clusters := [(3, f (splitCluster first ws))], stks := [(0, { mem := mput [] 0 (bytesOf ws) })], dies := dies }

/-- The number of the next instruction of context 0 of cluster 3. -/
def issued3 (m : Module) : Nat := (ctxOf (clAt m 3) 0).issued

/-- An instruction that issues counts. -/
theorem issued3_of_issued {m n : Module} {len : Nat} {tagged : Bool} {free : Option Nat} {x : Context}
    (h : Issued m n 3 0 len tagged free x) : issued3 n = x.issued + 1 := by
  obtain ⟨hctx, -, -⟩ := h
  unfold issued3
  rw [hctx]
  rfl

/-- One that leaves the count has not issued. -/
theorem not_issued {m n : Module} {len : Nat} {tagged : Bool} {free : Option Nat} {x : Context} (hx : x.issued = 0) (hn : issued3 n = 0) :
    ¬ Issued m n 3 0 len tagged free x := by
  intro h
  have hcount := issued3_of_issued h
  omega

/-! ## TMARK -/

/-- A TMARK whose buffered header says two words; the stack's copy says six. -/
def splitTmark : Module := splitModule 0x10A [0x50A, 0] id []

theorem mayIssue_splitTmark : MayIssue splitTmark 3 0 [0x50A, 0] 0x0A false := by
  refine ⟨⟨?_, ?_, ?_, ?_, ?_, ?_⟩, ?_, ?_, ?_, ?_, ?_, ?_, ?_⟩ <;> decide +kernel

/-- Refutes O31: TMARK does not issue from `splitTmark`. -/
theorem not_contextInstructions : ¬ Obligations.ContextInstructions := by
  intro h
  obtain ⟨-, h⟩ := h
  obtain ⟨n, hexec, -, -, hissued⟩ := (h { m := splitTmark } 3 0 0x50A 0 0).1 mayIssue_splitTmark
  have hn : tmarkStep splitTmark 3 0 [0x50A, 0] = n := by injection hexec with e; injection e
  subst hn
  exact absurd hissued (not_issued (show issued3 splitTmark = 0 by decide +kernel) (by decide +kernel))

/-! ## SIGNAL -/

/-- A SIGNAL of 1 to flag 0 of its own cluster whose buffered header says two words; the stack's copy says six. -/
def splitSignal : Module := splitModule 0x104 [0x504, 0x1000300] id []

theorem mayIssue_splitSignal : MayIssue splitSignal 3 0 [0x504, 0x1000300] 0x04 true := by
  refine ⟨⟨?_, ?_, ?_, ?_, ?_, ?_⟩, ?_, ?_, ?_, ?_, ?_, ?_, ?_⟩ <;> decide +kernel

/-- Refutes O32: SIGNAL does not issue from `splitSignal`. -/
theorem not_flagsWaitAndSignal : ¬ Obligations.FlagsWaitAndSignal := by
  intro h
  obtain ⟨-, h, -⟩ := h
  obtain ⟨n, hexec, -, -, hissued⟩ := (h { m := splitSignal } 3 0 0x504 0x1000300 mayIssue_splitSignal (by decide) (by decide)
    (by decide)).1 (by decide)
  have hn : signalStep splitSignal 3 0 [0x504, 0x1000300] = n := by injection hexec with e; injection e
  subst hn
  exact absurd hissued (not_issued (show issued3 splitSignal = 0 by decide +kernel) (by decide +kernel))

/-! ## PUSH -/

/-- A PUSH of the handle that register 0 owns, of the circulating pool 2, to queue 0 of its own cluster. -/
def splitPush : Module := splitModule 0x106 [0x506, 0xC0]
  (fun c => onCtx c 0 (fun x => { x with handles := [(0, 0x00800009)], own := 1 })) [(0, { pool := [(16, 0x1C900)] })]

theorem mayIssue_splitPush : MayIssue splitPush 3 0 [0x506, 0xC0] 0x06 true := by
  refine ⟨⟨?_, ?_, ?_, ?_, ?_, ?_⟩, ?_, ?_, ?_, ?_, ?_, ?_, ?_⟩ <;> decide +kernel

/-- Refutes O33: PUSH does not issue from `splitPush`. -/
theorem not_handleQueues : ¬ Obligations.HandleQueues := by
  intro h
  obtain ⟨-, h, -⟩ := h
  obtain ⟨n, own, hexec, hissued, -⟩ := (h { m := splitPush } 3 0 0x506 0xC0 mayIssue_splitPush).2.1 (by decide +kernel) (by decide)
    (by decide) (by decide +kernel) (by decide +kernel) (by decide +kernel)
  have hn : pushStep splitPush 3 0 [0x506, 0xC0] = n := by injection hexec with e; injection e
  subst hn
  exact absurd hissued (not_issued (show issued3 splitPush = 0 by decide +kernel) (by decide +kernel))

/-! ## START -/

/-- The configuration of an NTE operation of one limb of 1,024 words. -/
def splitNteSet : Tab Word := [(0, 0x2A0), (1, 0x600000), (2, 0x600000), (3, 1024)]

/-- A START of the NTE with that configuration. -/
def splitStart : Module := splitModule 0x102 [0x502, 0] (fun c => { c with nte := { cfg := splitNteSet } }) []

theorem mayIssue_splitStart : MayIssue splitStart 3 0 [0x502, 0] 0x02 true := by
  refine ⟨⟨?_, ?_, ?_, ?_, ?_, ?_⟩, ?_, ?_, ?_, ?_, ?_, ?_, ?_⟩ <;> decide +kernel

/-- Refutes O41: START does not issue from `splitStart`. -/
theorem not_starts : ¬ Obligations.Starts := by
  intro h
  obtain ⟨h, -⟩ := h
  obtain ⟨n, hexec, -, -, -, -, -, hissued, -⟩ := (h { m := splitStart } 3 0 0x502 0 .nte mayIssue_splitStart (by decide) (by decide)
    (by decide) (by decide) (by decide +kernel) (by decide +kernel) (by decide +kernel) (by decide +kernel) (by decide +kernel)
    (by decide +kernel)).1 (by decide +kernel) (by decide +kernel)
  have hn : startStep splitStart 3 0 [0x502, 0] = n := by injection hexec with e; injection e
  subst hn
  exact absurd hissued (not_issued (show issued3 splitStart = 0 by decide +kernel) (by decide +kernel))

/-! ## LOAD -/

/-- A LOAD of handle register 0; the stack's copy of the header says that no group follows. -/
def splitLoad : Module := splitModule 0x40030201 [0x40030001, 0, 5] id []

theorem mayIssue_splitLoad : MayIssue splitLoad 3 0 [0x40030001, 0, 5] 0x01 true := by
  refine ⟨⟨?_, ?_, ?_, ?_, ?_, ?_⟩, ?_, ?_, ?_, ?_, ?_, ?_, ?_⟩ <;> decide +kernel

theorem mayLoad_splitLoad : MayLoad splitLoad 3 0 [0x40030001, 0, 5] 3 0x400 [5] :=
  ⟨mayIssue_splitLoad, by decide, by decide, [(5, false)], by decide, by decide, by decide, rfl⟩

/-- Refutes O42: LOAD does not issue from `splitLoad`. -/
theorem not_loads : ¬ Obligations.Loads := by
  intro h
  obtain ⟨n, t, hexec, -, hissued, -⟩ := (h { m := splitLoad } 3 0 [0x40030001, 0, 5] [5] 3 0x400 mayLoad_splitLoad).2.1 rfl (by decide)
    (by decide +kernel)
  have hn : loadStep splitLoad 3 0 [0x40030001, 0, 5] = n := by injection hexec with e; injection e
  subst hn
  exact absurd hissued (not_issued (show issued3 splitLoad = 0 by decide +kernel) (by decide +kernel))

/-! ## SEAL -/

/-- A SEAL of one operand slot whose buffered header says four words; the stack's copy says six. -/
def splitSeal : Module := splitModule 0x30B [0x50B, 0, 0, 0x400] id []

theorem mayIssue_splitSeal : MayIssue splitSeal 3 0 [0x50B, 0, 0, 0x400] 0x0B true := by
  refine ⟨⟨?_, ?_, ?_, ?_, ?_, ?_⟩, ?_, ?_, ?_, ?_, ?_, ?_, ?_⟩ <;> decide +kernel

/-- Refutes O43: SEAL does not issue from `splitSeal`. -/
theorem not_seals : ¬ Obligations.Seals := by
  intro h
  obtain ⟨h, -⟩ := h
  obtain ⟨n, t, hexec, -, -, hissued, -⟩ := h { m := splitSeal } 3 0 0x50B 0 0 0x400 mayIssue_splitSeal (by decide) (by decide) (by decide)
    (by decide) (by decide) (by decide) (by decide) (by decide) (by decide +kernel) (by decide +kernel)
  have hn : sealStep splitSeal 3 0 [0x50B, 0, 0, 0x400] = n := by injection hexec with e; injection e
  subst hn
  exact absurd hissued (not_issued (show issued3 splitSeal = 0 by decide +kernel) (by decide +kernel))

/-! ## START of a stream engine -/

/-- A START of stream engine 0 with a loaded set of one transfer. -/
def splitStream : Module := splitModule 0x40102 [0x40502, 0] id [(0, { sd := [(3, 1)] })]

theorem mayIssue_splitStream : MayIssue splitStream 3 0 [0x40502, 0] 0x02 true := by
  refine ⟨⟨?_, ?_, ?_, ?_, ?_, ?_⟩, ?_, ?_, ?_, ?_, ?_, ?_, ?_⟩ <;> decide +kernel

/-- Refutes O47: the START of a stream engine does not issue from `splitStream`. -/
theorem not_streamStarts : ¬ Obligations.StreamStarts := by
  intro h
  obtain ⟨h, -⟩ := h
  have hidle : (steAt (dieAt splitStream 0) 0).active = none := by decide +kernel
  obtain ⟨n, hexec, -, -, -, -, -, hissued, -⟩ := ((h { m := splitStream } 3 0 0x40502 mayIssue_splitStream (by decide)).2 (by decide +kernel)
    (by decide +kernel) (fun a ha => nomatch hidle.symm.trans ha)).1 (.inl hidle) (by decide +kernel) (by decide +kernel)
    (fun ⟨_, _, hmode, _⟩ => absurd hmode (by decide +kernel)) (by decide +kernel) (by decide +kernel)
  have hn : steStartStep splitStream 3 0 [0x40502, 0] = n := by injection hexec with e; injection e
  subst hn
  exact absurd hissued (not_issued (show issued3 splitStream = 0 by decide +kernel) (by decide +kernel))

end Sys2Proof.Machine
end

section
/-! PROOFS. Submission entries (R300, R302, R560, R565 to R568): the checks of a job descriptor in their order, and the outcomes of
KEY_LOAD and KEY_LOAD_DONE. -/
namespace Sys2Proof.Machine
open Sys2Proof Sys2Proof.Certificates

/-! ## Job descriptors -/

section
variable (h : Hedge) (e tab : List Byte)

/-- The five checks, as the code tests them. -/
def failsAt (h : Hedge) (e tab : List Byte) : Nat → Bool
  | 1 => !(decide (field e 0 1 = 1 ∨ field e 0 1 = 2) && decide (field e 1 1 < 2) && zeroField e 30 2 && zeroField e 72 56)
  | 2 => !(decide (field e 8 8 % 64 = 0) && decide (field e 32 8 % 64 = 0) && decide (field e 40 8 % 64 = 0)
      && decide (field e 48 8 % 64 = 0) && (decide (field e 2 2 = 0) || decide (field e 56 8 % 64 = 0)) && decide (field e 64 8 % 8 = 0))
  | 3 => decide (field e 2 2 > 256 ∨ field e 28 2 > 256 ∨ (field e 0 1 = 2 ∧ field e 28 2 ≠ 0))
  | 4 => (List.range (field e 2 2)).any (fun i =>
      decide (field tab (16 * i) 8 % 64 ≠ 0 ∨ field tab (16 * i + 8) 8 % 64 ≠ 0 ∨ field tab (16 * i + 8) 8 = 0))
  | 5 => bit (field e 1 1) 0 && !(decide (field e 0 1 = 2) && uncheckedAllowed h)
  | _ => false

theorem failsAt_iff (k : Nat) : failsAt h e tab k = true ↔ descFails h e tab k := by
  match k with
  | 0 => exact iff_of_false Bool.false_ne_true id
  | 1 =>
    simp only [failsAt, descFails, Bool.not_eq_true', Bool.and_eq_false_iff, decide_eq_false_iff_not, Nat.not_lt, or_assoc]
  | 2 =>
    simp only [failsAt, descFails, Bool.not_eq_true', Bool.and_eq_false_iff, Bool.or_eq_false_iff, decide_eq_false_iff_not, or_assoc,
      ne_eq]
  | 3 => simp only [failsAt, descFails, decide_eq_true_eq, gt_iff_lt]
  | 4 => simp only [failsAt, descFails, List.any_eq_true, List.mem_range, decide_eq_true_eq]
  | 5 =>
    simp only [failsAt, descFails, uncheckedAllowed, Bool.and_eq_true, Bool.not_eq_true', ← Bool.not_eq_true, decide_eq_true_eq,
      Bool.or_eq_true]
  | _ + 6 => exact iff_of_false Bool.false_ne_true id

theorem jobCheck_eq : jobCheck h e tab =
    if failsAt h e tab 1 then 1 else if failsAt h e tab 2 then 2 else if failsAt h e tab 3 then 3
    else if failsAt h e tab 4 then 4 else if failsAt h e tab 5 then 5 else 0 := by
  unfold jobCheck failsAt
  simp only [decide_eq_true_eq]

/-- The number that the checks give is that of the first one that fails. -/
theorem jobCheck_first {k : Nat} (hk : descFails h e tab k) (hfirst : ∀ j, j < k → ¬ descFails h e tab j) :
    jobCheck h e tab = k := by
  have hf : failsAt h e tab k = true := (failsAt_iff h e tab k).2 hk
  have hb : ∀ j, j < k → ¬ failsAt h e tab j = true := fun j hj hj' => hfirst j hj ((failsAt_iff h e tab j).1 hj')
  rw [jobCheck_eq]
  match k with
  | 0 => exact absurd hf Bool.false_ne_true
  | 1 => rw [if_pos hf]
  | 2 => rw [if_neg (hb 1 (by decide)), if_pos hf]
  | 3 => rw [if_neg (hb 1 (by decide)), if_neg (hb 2 (by decide)), if_pos hf]
  | 4 => rw [if_neg (hb 1 (by decide)), if_neg (hb 2 (by decide)), if_neg (hb 3 (by decide)), if_pos hf]
  | 5 => rw [if_neg (hb 1 (by decide)), if_neg (hb 2 (by decide)), if_neg (hb 3 (by decide)), if_neg (hb 4 (by decide)), if_pos hf]
  | _ + 6 => exact absurd hf Bool.false_ne_true

theorem jobCheck_passes (hp : ∀ k, ¬ descFails h e tab k) : jobCheck h e tab = 0 := by
  have hb : ∀ j, ¬ failsAt h e tab j = true := fun j hj => hp j ((failsAt_iff h e tab j).1 hj)
  rw [jobCheck_eq, if_neg (hb 1), if_neg (hb 2), if_neg (hb 3), if_neg (hb 4), if_neg (hb 5)]

end

section
variable {m : Module} {i : Nat} {e tab pat : List Byte} {mine : Nat → Bool}

theorem ringAt_passEntry_same : ringAt (passEntry m i) i = { ringAt m i with
    sqHead := BitVec.ofNat 16 (((ringAt m i).sqHead.toNat + 1) % ringSize (ringAt m i).sqLogsz) } := by
  unfold passEntry
  rw [ringAt_onRing_same]
  rfl

theorem ringAt_passEntry_ne {j : Nat} (h : j ≠ i) : ringAt (passEntry m i) j = ringAt m j := by
  unfold passEntry
  rw [ringAt_onRing_ne _ _ _ _ h]
  rfl

theorem jobArrives_waits (hread : fetchOut m i = true) (hmine : mine (field e 0 1) = true) (hc : jobCheck m.hedge e tab = 0) :
    jobArrives m i e tab pat mine =
      onQuay (passEntry m i) (fun q => { q with waiting := q.waiting ++ [jobDescOf i e tab pat] }) := by
  unfold jobArrives
  rw [if_neg (by simp [hread, hmine])]
  exact if_pos hc

theorem jobArrives_fails (hread : fetchOut m i = true) (hmine : mine (field e 0 1) = true) (hc : jobCheck m.hedge e tab ≠ 0) :
    jobArrives m i e tab pat mine = queueCompletion (passEntry m i)
      { ring := i, cid := BitVec.ofNat 32 (field e 4 4), status := 0x20, detail := BitVec.ofNat 8 (jobCheck m.hedge e tab) } := by
  unfold jobArrives
  rw [if_neg (by simp [hread, hmine])]
  exact if_neg hc

end

/-- JOB and HAND are arrivals of an entry whose OPC is the command's. -/
theorem exec_jobArrives {s : State} {i : Fin 256} {e tab pat : List Byte} {c : Instr}
    (h : c = .job i e tab pat ∧ field e 0 1 ≠ 2 ∧ field e 0 1 ≠ 0x10 ∧ field e 0 1 ≠ 0x11
      ∨ c = .hand i e tab ∧ pat = [] ∧ field e 0 1 = 2) :
    ∃ mine : Nat → Bool, mine (field e 0 1) = true ∧ exec c s = .next { s with m := jobArrives s.m i e tab pat mine } := by
  rcases h with ⟨rfl, h1, h2, h3⟩ | ⟨rfl, rfl, h1⟩
  · exact ⟨fun o => !([2, 0x10, 0x11].contains o), by simp [h1, h2, h3], rfl⟩
  · exact ⟨fun o => decide (o = 2), by simp [h1], rfl⟩

/-- Settles O7, by the number that `jobCheck` gives. -/
theorem descriptorChecks : Obligations.DescriptorChecks := by
  intro s i e tab pat c hc hread passed
  obtain ⟨mine, hmine, hexec⟩ := exec_jobArrives (s := s) hc
  have hpassed (f : Quay → Quay) (hr : ∀ q, (f q).rings = q.rings) (hf : ∀ q, (f q).fetches = q.fetches)
      (hj : ∀ q, (f q).jobs = q.jobs) : passed (onQuay (passEntry s.m i) f) := by
    have hrings (j : Nat) : ringAt (onQuay (passEntry s.m i) f) j = ringAt (passEntry s.m i) j := ringAt_of_rings_eq (hr _) j
    refine ⟨(hrings i).trans ringAt_passEntry_same, fun j hj => (hrings j).trans (ringAt_passEntry_ne hj), ?_, rfl, hj _⟩
    unfold fetchOut
    rw [show (onQuay (passEntry s.m i) f).quay.fetches = _ from hf _]
    exact fetchOut_passEntry s.m i
  refine ⟨fun hp => ?_, fun k hk hfirst => ?_⟩
  · refine ⟨_, jobDescOf i e tab pat, hexec, ?_⟩
    rw [jobArrives_waits hread hmine (jobCheck_passes _ _ _ hp)]
    exact ⟨hpassed _ (fun _ => rfl) (fun _ => rfl) (fun _ => rfl), rfl, rfl, rfl, rfl, rfl, rfl, rfl, rfl⟩
  · have hcheck : jobCheck s.m.hedge e tab = k := jobCheck_first _ _ _ hk hfirst
    have hne : jobCheck s.m.hedge e tab ≠ 0 := by
      rw [hcheck]
      rintro rfl
      exact hk
    refine ⟨_, hexec, ?_⟩
    rw [jobArrives_fails hread hmine hne, hcheck]
    exact ⟨hpassed _ (fun _ => rfl) (fun _ => rfl) (fun _ => rfl), rfl, rfl⟩

/-! ## Key uploads -/

section
variable (m : Module)

/-- The stored pages change stacks and links: the Quay keeps all but its links. -/
theorem storePages_quay (k : KeySet) (pages : List (List Byte)) :
    (storePages m k pages).quay = { m.quay with links := (storePages m k pages).quay.links } := by
  unfold storePages
  refine foldl_keeps (fun b : Module => b.quay = { m.quay with links := b.quay.links }) _ (fun b p hb => ?_) _ m rfl
  have hcross := crossLink_only b (flitsFor (ceilDiv p.2.length 4)) (.quay (Fin.ofNat 8 (stkOf p.1 / 2)))
  have hput : (quayPut b p.1 p.2).quay =
    (crossLink (flitsFor (ceilDiv p.2.length 4)) b (.quay (Fin.ofNat 8 (stkOf p.1 / 2)))).quay := rfl
  rw [hput, hcross.1, hb]

variable {m} {i : Nat} {e man : List Byte} {pages : List (List Byte)}

/-- Whether a KEY_LOAD entry has the form of R567. -/
def keyForm (e man : List Byte) : Bool :=
  zeroField e 1 3 && zeroField e 32 96 && decide (field e 8 8 % 64 = 0 ∧ field e 24 8 % 64 = 0 ∧ man.length = field e 16 8)

theorem keyForm_iff : keyForm e man = true ↔ zeroField e 1 3 = true ∧ zeroField e 32 96 = true ∧ field e 8 8 % 64 = 0
    ∧ field e 24 8 % 64 = 0 ∧ man.length = field e 16 8 := by
  unfold keyForm
  simp only [Bool.and_eq_true, decide_eq_true_eq, and_assoc]

/-- The checks of an upload with the sets, uploads and retired pages of the module. -/
def keyCheck (m : Module) (man : List Byte) (pages : List (List Byte)) : Upload :=
  uploadCheck m.quay.imageSets m.quay.dir m.quay.uploads (fun st => (stkAt m st).retired) man pages

/-- Whether the stacks that take the pages of a set are reached and active. -/
def pagesReady (m : Module) (k : KeySet) : Bool := k.pages.all (fun a => spokeReady m (stkOf a / 2) && stackOpen m (stkOf a))

theorem pagesReady_iff {k : KeySet} : pagesReady m k = true ↔
    ∀ a ∈ k.pages, spokeReady m (stkOf a / 2) = true ∧ (stkAt m (stkOf a)).state = 3 := by
  unfold pagesReady stackOpen
  simp only [List.all_eq_true, Bool.and_eq_true, decide_eq_true_eq]

/-- The module with one upload more. -/
def addUpload (u : KeyUpload) (m : Module) : Module := onQuay m (fun q => { q with uploads := q.uploads ++ [u] })

section
variable (hread : fetchOut m i = true) (hopc : field e 0 1 = 0x10) (hn : m.quay.uploads.length < 4) (hq : m.quay.qstate = 0)
include hread hopc hn hq

theorem keyLoadStep_eq : keyLoadStep m i e man pages =
    if !keyForm e man then addUpload { ring := i, cid := BitVec.ofNat 32 (field e 4 4), status := 1 } (passEntry m i)
    else match keyCheck m man pages with
      | .fail st p => addUpload { ring := i, cid := BitVec.ofNat 32 (field e 4 4), status := st,
                                  page := if st = 7 ∨ st = 8 then BitVec.ofNat 32 p else 0 } (passEntry m i)
      | .good k ps =>
        if pagesReady m k then
          addUpload { ring := i, cid := BitVec.ofNat 32 (field e 4 4), status := 0, set := some k } (storePages (passEntry m i) k ps)
        else m := by
  have hwait : ¬ (!fetchOut m i || decide (field e 0 1 ≠ 0x10 ∨ m.quay.uploads.length ≥ 4 ∨ m.quay.qstate ≠ 0)) = true := by
    rw [hread, hopc, hq]
    simpa using hn
  unfold keyLoadStep
  rw [if_neg hwait]
  rfl

theorem keyLoadStep_malformed (hf : keyForm e man = false) : keyLoadStep m i e man pages =
    addUpload { ring := i, cid := BitVec.ofNat 32 (field e 4 4), status := 1 } (passEntry m i) := by
  rw [keyLoadStep_eq hread hopc hn hq, hf]
  rfl

theorem keyLoadStep_fails (hf : keyForm e man = true) {st : BitVec 8} {p : Nat} (hc : keyCheck m man pages = .fail st p) :
    ∃ page, keyLoadStep m i e man pages =
      addUpload { ring := i, cid := BitVec.ofNat 32 (field e 4 4), status := st, page := page } (passEntry m i) := by
  rw [keyLoadStep_eq hread hopc hn hq, hf, hc]
  exact ⟨_, rfl⟩

theorem keyLoadStep_good (hf : keyForm e man = true) {k : KeySet} {ps : List (List Byte)} (hc : keyCheck m man pages = .good k ps) :
    keyLoadStep m i e man pages =
      if pagesReady m k then
        addUpload { ring := i, cid := BitVec.ofNat 32 (field e 4 4), status := 0, set := some k } (storePages (passEntry m i) k ps)
      else m := by
  rw [keyLoadStep_eq hread hopc hn hq, hf, hc]
  rfl

end

theorem keyLoadDoneStep_set {u : KeyUpload} {k : KeySet} (hu : m.quay.uploads[i]? = some u) (hs : u.set = some k)
    (hfresh : ∀ x ∈ m.quay.dir, x.ksid ≠ k.ksid) : keyLoadDoneStep m i =
      keyCompletion (onQuay (onQuay m (fun q => { q with uploads := ldel q.uploads i })) (fun q => { q with dir := q.dir ++ [k] }))
        u.ring u.cid 0 0 := by
  unfold keyLoadDoneStep
  rw [hu]
  dsimp only
  rw [hs]
  exact if_neg (by simpa using hfresh)

theorem keyLoadDoneStep_failed {u : KeyUpload} (hu : m.quay.uploads[i]? = some u) (hs : u.set = none) : keyLoadDoneStep m i =
    keyCompletion (onQuay m (fun q => { q with uploads := ldel q.uploads i })) u.ring u.cid u.status u.page := by
  unfold keyLoadDoneStep
  rw [hu]
  dsimp only
  rw [hs]

end

theorem exec_keyLoad (i : Fin 256) (e man : List Byte) (pages : List (List Byte)) (s : State) :
    exec (.keyLoad i e man pages) s = .next { s with m := keyLoadStep s.m i e man pages } := rfl
theorem exec_keyLoadDone (i : Nat) (s : State) : exec (.keyLoadDone i) s = .next { s with m := keyLoadDoneStep s.m i } := rfl

/-- What an upload that begins leaves, once the entry has been passed: the directory, the jobs and the read. -/
theorem addUpload_keeps {m n : Module} {i : Nat} (u : KeyUpload) (hu : n.quay.uploads = m.quay.uploads)
    (hd : n.quay.dir = m.quay.dir) (hj : n.quay.jobs = m.quay.jobs) (hf : n.quay.fetches = (passEntry m i).quay.fetches) :
    (addUpload u n).quay.uploads = m.quay.uploads ++ [u] ∧ (addUpload u n).quay.dir = m.quay.dir
      ∧ (addUpload u n).quay.jobs = m.quay.jobs ∧ fetchOut (addUpload u n) i = false := by
  refine ⟨congrArg (· ++ [u]) hu, hd, hj, ?_⟩
  unfold fetchOut
  rw [show (addUpload u n).quay.fetches = _ from hf]
  exact fetchOut_passEntry m i

/-- Settles O9, by the outcomes of `keyLoadStep` and `keyLoadDoneStep`. -/
theorem keyLoads : Obligations.KeyLoads := by
  refine ⟨fun s i e man pages hread hopc hn hq => ?_, fun s i u hu => ⟨fun k hs hfresh => ?_, fun hs => ?_⟩⟩
  · intro form check ready
    have hform : keyForm e man = true ↔ form := keyForm_iff
    refine ⟨fun hwait => ?_, fun hready => ?_⟩
    · have hbad : ∃ k ps, form ∧ check = .good k ps ∧ ¬ pagesReady s.m k = true := by
        simp only [pagesReady_iff]
        by_contra hno
        exact hwait fun k ps hf hc => by
          by_contra hk
          exact hno ⟨k, ps, hf, hc, hk⟩
      obtain ⟨k, ps, hf, hc, hk⟩ := hbad
      rw [exec_keyLoad, keyLoadStep_good hread hopc hn hq (hform.2 hf) hc, if_neg hk]
    · by_cases hf : keyForm e man = true
      · cases hc : keyCheck s.m man pages with
        | fail st p =>
          obtain ⟨page, hstep⟩ := keyLoadStep_fails hread hopc hn hq hf hc
          refine ⟨_, { ring := i, cid := BitVec.ofNat 32 (field e 4 4), status := st, page := page },
            exec_keyLoad i e man pages s, ?_⟩
          rw [hstep]
          obtain ⟨h1, h2, h3, h4⟩ := addUpload_keeps (m := s.m) (n := passEntry s.m i) (i := i)
            { ring := i, cid := BitVec.ofNat 32 (field e 4 4), status := st, page := page } rfl rfl rfl rfl
          refine ⟨h1, rfl, rfl, h2, h3, h4, fun hn => absurd (hform.1 hf) hn, fun st' p' _ hc' => ?_, fun k ps _ hc' => ?_⟩
          · cases hc.symm.trans hc'
            exact ⟨rfl, rfl, rfl⟩
          · cases hc.symm.trans hc'
        | good k ps =>
          have hk : pagesReady s.m k = true := pagesReady_iff.2 (hready k ps (hform.1 hf) hc)
          refine ⟨_, { ring := i, cid := BitVec.ofNat 32 (field e 4 4), status := 0, set := some k },
            exec_keyLoad i e man pages s, ?_⟩
          rw [keyLoadStep_good hread hopc hn hq hf hc, if_pos hk]
          have hquay := storePages_quay (passEntry s.m i) k ps
          obtain ⟨h1, h2, h3, h4⟩ := addUpload_keeps (m := s.m) (n := storePages (passEntry s.m i) k ps) (i := i)
            { ring := i, cid := BitVec.ofNat 32 (field e 4 4), status := 0, set := some k }
            (by rw [hquay]; rfl) (by rw [hquay]; rfl) (by rw [hquay]; rfl) (by rw [hquay])
          refine ⟨h1, rfl, rfl, h2, h3, h4, fun hn => absurd (hform.1 hf) hn, fun st' p' _ hc' => ?_, fun k' ps' _ hc' => ?_⟩
          · cases hc.symm.trans hc'
          · cases hc.symm.trans hc'
            exact ⟨rfl, rfl⟩
      · refine ⟨_, { ring := i, cid := BitVec.ofNat 32 (field e 4 4), status := 1 }, exec_keyLoad i e man pages s, ?_⟩
        rw [keyLoadStep_malformed hread hopc hn hq (by simpa using hf)]
        obtain ⟨h1, h2, h3, h4⟩ := addUpload_keeps (m := s.m) (n := passEntry s.m i) (i := i)
          { ring := i, cid := BitVec.ofNat 32 (field e 4 4), status := 1 } rfl rfl rfl rfl
        exact ⟨h1, rfl, rfl, h2, h3, h4, fun _ => ⟨rfl, rfl⟩, fun _ _ hf' => absurd (hform.2 hf') hf,
          fun _ _ hf' => absurd (hform.2 hf') hf⟩
  · refine ⟨_, exec_keyLoadDone i s, ?_⟩
    rw [keyLoadDoneStep_set hu hs hfresh]
    exact ⟨rfl, rfl, rfl, rfl⟩
  · refine ⟨_, exec_keyLoadDone i s, ?_⟩
    rw [keyLoadDoneStep_failed hu hs]
    exact ⟨rfl, rfl, rfl, rfl⟩

end Sys2Proof.Machine
end

section
/-! PROOFS. The cold start, the resets of kind warm or stronger, and Rest (R582, R588, R595, R601, R656, R658, R664, R665, R670):
what each leaves of the Quay, of the Hedge and of every die, cluster and stack. -/
namespace Sys2Proof.Machine
open Sys2Proof Sys2Proof.Certificates

/-! ## Tables mapped entry by entry -/

theorem tget_map_of_ne {α : Type} {d : α} {t : Tab α} {k : Nat} (f : Nat → α → α) (h : tget d t k ≠ d) :
    tget d (t.map fun p => (p.1, f p.1 p.2)) k = f k (tget d t k) := by
  induction t with
  | nil => exact absurd rfl h
  | cons p t ih =>
    obtain ⟨j, v⟩ := p
    simp only [List.map_cons, tget] at h ⊢
    split
    next heq => subst heq; rfl
    next hne =>
      rw [if_neg hne] at h
      split
      next hlt => rw [if_pos hlt] at h; exact absurd rfl h
      next hge => rw [if_neg hge] at h; exact ih h

/-! ## The end of the cold start -/

section
variable {m : Module}

theorem raiseEvt_of_evtEn (i : Nat) (h : m.quay.evtEn = 0) :
    raiseEvt m i = onQuay m (fun q => { q with evt := q.evt ||| BitVec.ofNat 7 (2 ^ i) }) := by
  unfold raiseEvt
  rw [if_neg (by rw [h]; simp)]

/-- The end of service changes the warning, GLB_EVT and TEL_MARGIN.EOS alone, and EOS comes with the warning (R702). -/
theorem endOfService_eq (h : m.quay.evtEn = 0) : ∃ evt eos warn, endOfService m = { m with
    quay := { m.quay with evt := evt, eos := eos }, hedge := { m.hedge with warn := warn } } ∧ (eos = true → warn = true) := by
  unfold endOfService
  split
  · split
    · exact ⟨m.quay.evt, true, true, rfl, fun _ => rfl⟩
    · exact ⟨_, true, true, raiseEvt_of_evtEn 2 h, fun _ => rfl⟩
  · exact ⟨m.quay.evt, false, m.hedge.warn, rfl, nofun⟩

end

/-- What the steps that apply an image leave of a Hedge: the read path of UDS and the reference. -/
def HedgeKept (h h' : Hedge) : Prop := h'.udsClosed = h.udsClosed ∧ h'.refclk = h.refclk

theorem HedgeKept.trans {h h' h'' : Hedge} (hk : HedgeKept h h') (hk' : HedgeKept h' h'') : HedgeKept h h'' :=
  ⟨hk'.1.trans hk.1, hk'.2.trans hk.2⟩

section
variable (h : Hedge) (slot free : Nat)

theorem coldMargin_kept : HedgeKept h (coldMargin h) ∧ (coldMargin h).slot = h.slot := by
  unfold coldMargin
  split
  · exact ⟨⟨rfl, rfl⟩, rfl⟩
  · exact ⟨⟨rfl, rfl⟩, rfl⟩

theorem readLog_kept : HedgeKept h (readLog h) ∧ (readLog h).slot = h.slot := by
  unfold readLog
  split
  · exact ⟨⟨rfl, rfl⟩, rfl⟩
  · exact ⟨⟨rfl, rfl⟩, rfl⟩

theorem coldIdentity_kept : HedgeKept h (coldIdentity h free) ∧ (coldIdentity h free).slot = h.slot := by
  unfold coldIdentity
  split
  · exact ⟨⟨rfl, rfl⟩, rfl⟩
  · exact ⟨⟨rfl, rfl⟩, rfl⟩

theorem loadImage_kept : HedgeKept h (loadImage h slot) ∧ (loadImage h slot).slot = slot := by
  unfold loadImage
  dsimp only
  exact ⟨⟨rfl, rfl⟩, rfl⟩

theorem burnImage_kept : HedgeKept h (burnImage h) ∧ (burnImage h).slot = h.slot := ⟨⟨rfl, rfl⟩, rfl⟩

/-- The Hedge after steps 4 to 7 of the cold start have applied the image of a slot. -/
def imageHedge : Hedge := coldIdentity (burnImage (readLog (coldMargin (loadImage h slot)))) free

theorem imageHedge_kept : HedgeKept h (imageHedge h slot free) ∧ (imageHedge h slot free).slot = slot := by
  obtain ⟨hload, hloadSlot⟩ := loadImage_kept h slot
  obtain ⟨hmargin, hmarginSlot⟩ := coldMargin_kept (loadImage h slot)
  obtain ⟨hlog, hlogSlot⟩ := readLog_kept (coldMargin (loadImage h slot))
  obtain ⟨hburn, hburnSlot⟩ := burnImage_kept (readLog (coldMargin (loadImage h slot)))
  obtain ⟨hid, hidSlot⟩ := coldIdentity_kept (burnImage (readLog (coldMargin (loadImage h slot)))) free
  exact ⟨hload.trans (hmargin.trans (hlog.trans (hburn.trans hid))),
    hidSlot.trans (hburnSlot.trans (hlogSlot.trans (hmarginSlot.trans hloadSlot)))⟩

end

/-- The fields of the Quay that a warm or cold reset leaves at their reset values. -/
def QuayLost (q : Quay) : Prop :=
  q.jobs = [] ∧ q.compl = [] ∧ q.fetches = [] ∧ q.waiting = [] ∧ q.uploads = [] ∧ q.rings = [] ∧ q.dir = []
    ∧ q.replicas = [] ∧ q.plans = [] ∧ q.ready = false ∧ q.qstate = 0 ∧ q.ideReq = false ∧ q.lock = false

theorem lostAtReset_of {n : Module} (hq : QuayLost n.quay) (hpke : n.pke = {}) (ht : n.transit = []) (hg : n.graves = []) :
    LostAtReset n := by
  obtain ⟨h1, h2, h3, h4, h5, h6, h7, h8, h9, h10, h11, h12, h13⟩ := hq
  exact ⟨h1, h2, h3, h4, h5, h6, h7, h8, h9, h10, h11, h12, h13, hpke, ht, hg⟩

theorem quayLost_resetQuay (cold : Bool) (q : Quay) : QuayLost (resetQuay cold q) :=
  ⟨rfl, rfl, rfl, rfl, rfl, rfl, rfl, rfl, rfl, rfl, rfl, rfl, rfl⟩

/-! ## Dies, clusters and stacks after a warm or stronger reset -/

section
variable (m : Module) (cold : Bool)

theorem resetAllDies_clusters : (resetAllDies m cold).clusters = tabOf {} 512 (fun c => resetCluster true (clAt m c)) := by
  unfold resetAllDies
  dsimp only

theorem clAt_resetAllDies {cl : Nat} (h : cl < 512) : clAt (resetAllDies m cold) cl = resetCluster true (clAt m cl) := by
  rw [clAt, resetAllDies_clusters, tget_tabOf _ _ h]

theorem stkAt_resetAllDies {t : Nat} (h : t < 16) : stkAt (resetAllDies m cold) t = resetStack true cold 0 (stkAt m t) :=
  tget_tabOf _ _ h

end

/-! ## The cold start -/

/-- What the module keeps of its endpoint, its reference and the host's memory through a cold start. -/
def KeptAtBoot (m n : Module) : Prop := n.ep = m.ep ∧ n.hostOut = m.hostOut ∧ n.hedge.refclk = m.hedge.refclk
  ∧ n.quay.quiesceD3 = m.quay.quiesceD3

section
variable {m : Module}

/-- The module with the image of a slot applied, before the end of service is judged. -/
def imageApplied (m : Module) (slot : Nat) : Module :=
  let h1 := coldMargin (loadImage m.hedge slot)
  let h2 := imageHedge m.hedge slot m.free
  let m2 := resetAllDies { m with
    free := m.free + 1,
    hedge := { h2 with
      boot := .running, heartbeat := m.now, vqNow := h2.vq, logQ := h2.logQ ++ (imageSets h1).2 ++ coldRetireEvents h2,
      smbAddr := BitVec.ofNat 8 (field h2.config 7 1), sben := BitVec.ofNat 8 (field h2.config 8 1) } } true
  { m2 with
    stks := m2.stks.map (fun p => (p.1, { p.2 with
      tthrot := BitVec.ofNat 7 (field h2.config 6 1), retired := (loggedRegions h2.flash p.1).take 64,
      eos := p.2.eos || decide ((loggedRegions h2.flash p.1).length > 64) })),
    quay := { loadPlanner m2.hedge m2.quay with imageSets := (imageSets h1).1 } }

theorem bootImage_eq (slot : Nat) : bootImage m slot = endOfService (imageApplied m slot) := by
  unfold bootImage imageApplied imageHedge
  dsimp only

theorem imageApplied_clusters (slot : Nat) : (imageApplied m slot).clusters = (resetAllDies m true).clusters := by
  rw [resetAllDies_clusters]
  unfold imageApplied resetAllDies
  dsimp only
  rfl

theorem clAt_imageApplied (slot : Nat) {cl : Nat} (h : cl < 512) :
    clAt (imageApplied m slot) cl = resetCluster true (clAt m cl) := by
  rw [clAt, imageApplied_clusters, resetAllDies_clusters, tget_tabOf _ _ h]

theorem stkAt_imageApplied_state (slot : Nat) {t : Nat} (h : t < 16) : (stkAt (imageApplied m slot) t).state = 2 := by
  have hreset := stkAt_resetAllDies m true h
  have hne : tget {} (resetAllDies m true).stks t ≠ {} := by
    intro heq
    have hstate := congrArg Stack.state (hreset.symm.trans heq)
    exact absurd hstate (by decide : (2 : BitVec 3) ≠ 0)
  have hmap := tget_map_of_ne (fun k s => { s with
    tthrot := BitVec.ofNat 7 (field (imageHedge m.hedge slot m.free).config 6 1),
    retired := (loggedRegions (imageHedge m.hedge slot m.free).flash k).take 64,
    eos := s.eos || decide ((loggedRegions (imageHedge m.hedge slot m.free).flash k).length > 64) }) hne
  exact (congrArg Stack.state hmap).trans (congrArg Stack.state hreset)

/-- The module that boots the image of a slot (R595): it runs from that slot, and its slices and stacks wipe. -/
theorem bootImage_boots (slot : Nat) (hq : QuayLost m.quay) (hen : m.quay.evtEn = 0) (hpke : m.pke = {})
    (hu : m.hedge.udsClosed = true) : LostAtReset (bootImage m slot) ∧ (bootImage m slot).hedge.udsClosed = true
      ∧ ((bootImage m slot).hedge.boot = .running ∧ (bootImage m slot).hedge.slot = slot
        ∧ (∀ cl, cl < 512 → (clAt (bootImage m slot) cl).restricted = true ∧ (clAt (bootImage m slot) cl).wiping = true)
        ∧ (∀ t, t < 16 → (stkAt (bootImage m slot) t).state = 2)
        ∧ ((bootImage m slot).quay.eos = true → (bootImage m slot).hedge.warn = true))
      ∧ KeptAtBoot m (bootImage m slot) := by
  obtain ⟨evt, eos, warn, heq, hwarn⟩ := endOfService_eq (m := imageApplied m slot) hen
  obtain ⟨⟨huds, hclk⟩, hslot⟩ := imageHedge_kept m.hedge slot m.free
  rw [bootImage_eq, heq]
  refine ⟨lostAtReset_of hq hpke rfl rfl, huds.trans hu, ⟨rfl, hslot, fun cl hcl => ?_, fun t ht => ?_, hwarn⟩,
    ⟨rfl, rfl, hclk, rfl⟩⟩
  · have hc := clAt_imageApplied (m := m) slot hcl
    unfold clAt at hc ⊢
    rw [hc]
    exact ⟨rfl, rfl⟩
  · exact stkAt_imageApplied_state slot ht

/-- The module whose image slots both failed (R601): recovery, with the compute dies off. -/
theorem recoverBoot_boots (hq : QuayLost m.quay) (hpke : m.pke = {}) (hu : m.hedge.udsClosed = true) :
    LostAtReset (recoverBoot m) ∧ (recoverBoot m).hedge.udsClosed = true
      ∧ ((recoverBoot m).hedge.boot = .recovery
        ∧ ∀ d, d < 8 → (dieAt (recoverBoot m) d).railOn = false ∧ (dieAt (recoverBoot m) d).clocks = false)
      ∧ KeptAtBoot m (recoverBoot m) := by
  refine ⟨lostAtReset_of hq hpke rfl rfl, (readLog_kept m.hedge).1.1.trans hu, ⟨rfl, fun d hd => ?_⟩,
    ⟨rfl, rfl, (readLog_kept m.hedge).1.2, rfl⟩⟩
  have hdie : dieAt (recoverBoot m) d = { clocks := false, railOn := false, mhz := 2000 } := tget_tabOf _ _ hd
  rw [hdie]
  exact ⟨rfl, rfl⟩

theorem coldStart_boots (hq : QuayLost m.quay) (hen : m.quay.evtEn = 0) (hpke : m.pke = {}) :
    Booted (coldFuses m.hedge) (coldStart m) ∧ KeptAtBoot m (coldStart m) := by
  unfold Booted coldStart
  dsimp only
  cases hslot : (chooseSlot (coldFuses m.hedge)).1 with
  | some slot =>
    obtain ⟨hlost, huds, hboot, hkept⟩ := bootImage_boots (m := { m with hedge := { coldFuses m.hedge with
      logQ := (coldFuses m.hedge).logQ ++ (chooseSlot (coldFuses m.hedge)).2 } }) slot hq hen hpke rfl
    exact ⟨⟨hlost, huds, hboot⟩, hkept⟩
  | none =>
    obtain ⟨hlost, huds, hboot, hkept⟩ := recoverBoot_boots (m := { m with hedge := { coldFuses m.hedge with
      logQ := (coldFuses m.hedge).logQ ++ (chooseSlot (coldFuses m.hedge)).2 } }) hq hpke rfl
    exact ⟨⟨hlost, huds, hboot⟩, hkept⟩

theorem booted_clkreq {h : Hedge} {n : Module} (clkreq : Bool) (hb : Booted h n) :
    Booted h (onHedge n (fun x => { x with clkreq := clkreq })) := hb

theorem booted_running_or_recovery {h : Hedge} {n : Module} (hb : Booted h n) :
    n.hedge.boot = .running ∨ n.hedge.boot = .recovery := by
  obtain ⟨-, -, hboot⟩ := hb
  split at hboot
  · exact .inl hboot.1
  · exact .inr hboot.1

end

/-! ## Cold resets -/

section
variable (m : Module) (perst : Bool)

/-- A cold reset boots from the Hedge's reset state (R664); the link goes down, and no host write happens. -/
theorem coldReset_boots : Booted (coldFuses (resetHedge m.hedge)) (coldReset m perst)
    ∧ (coldReset m perst).ep = resetEp false false perst m.ep ∧ (coldReset m perst).hostOut = m.hostOut
    ∧ (coldReset m perst).hedge.refclk = (resetHedge m.hedge).refclk
    ∧ (coldReset m perst).quay.quiesceD3 = false := by
  obtain ⟨hb, hep, hout, hclk, hd3⟩ := coldStart_boots (m := { dropJobs m with
    quay := resetQuay true m.quay, ep := resetEp false false perst m.ep, pke := {}, hedge := resetHedge m.hedge,
    transit := [], flagIn := [], graves := [], fenceSeq := 0 }) (quayLost_resetQuay true m.quay) rfl rfl
  exact ⟨hb, hep, hout.trans (dropJobs_hostOut m), hclk, hd3⟩

@[simp] theorem countInterrupt_ep : (countInterrupt m).ep = m.ep := rfl
@[simp] theorem countInterrupt_hedge : (countInterrupt m).hedge = m.hedge := rfl
@[simp] theorem countInterrupt_hostOut : (countInterrupt m).hostOut = m.hostOut := rfl

theorem lostAtReset_countInterrupt {n : Module} (h : LostAtReset n) : LostAtReset (countInterrupt n) := by
  obtain ⟨h1, h2, h3, h4, h5, h6, h7, h8, h9, h10, h11, h12, h13, hpke, ht, hg⟩ := h
  exact lostAtReset_of ⟨h1, h2, h3, h4, h5, h6, h7, h8, h9, h10, h11, h12, h13⟩ hpke ht hg

/-- A command that steps to a module does so to every module equal to it. -/
theorem next_of_eq {s : State} {m n : Module} (h : m = n) :
    (Host.Outcome.next { s with m := m } : Host.Outcome State Fault Refusal) = .next { s with m := n } := by rw [h]

theorem coldResetStep_alive {m : Module} (h : alive m = true) : coldResetStep m perst = coldReset m perst := if_pos h

theorem resetHedge_refclk (h : Hedge) : (resetHedge h).refclk = h.refclk := by
  unfold resetHedge dropUpdate
  split <;> rfl

theorem resetHedge_fuses_eq (h : Hedge) : (resetHedge h).fuses = h.fuses := by
  unfold resetHedge dropUpdate
  split <;> rfl

end

/-- Settles O21: each of the four is the cold start of `coldStart_boots`; the link and READY as `readyStep_ready` says. -/
theorem coldStarts : Obligations.ColdStarts := by
  refine ⟨fun s => ?power, fun s halive => ⟨?cold, ?perst, fun hclk => ?refclk, fun s => ⟨⟨_, rfl, rfl, rfl, rfl, rfl, rfl⟩, ?ready⟩⟩⟩
  case power =>
    refine ⟨powerOn s.m, rfl, ?_⟩
    unfold powerOn
    exact (coldStart_boots ⟨rfl, rfl, rfl, rfl, rfl, rfl, rfl, rfl, rfl, rfl, rfl, rfl, rfl⟩ rfl rfl).1
  case cold =>
    obtain ⟨hb, -, hout, -⟩ := coldReset_boots s.m s.m.ep.perst
    exact ⟨_, next_of_eq (coldResetStep_alive s.m.ep.perst halive), hb, hout⟩
  case perst =>
    obtain ⟨hb, hep, hout, -⟩ := coldReset_boots s.m true
    have hstep := coldResetStep_alive true halive
    generalize coldReset s.m true = k at hb hep hout hstep
    refine ⟨onHedge k (fun h => { h with clkreq := false }), ?_, ?_, ?_, rfl, hout⟩
    · exact next_of_eq (congrArg (fun n => onHedge n (fun h => { h with clkreq := false })) hstep)
    · exact booted_clkreq false hb
    · exact congrArg Endpoint.perst hep
  case refclk =>
    obtain ⟨hb, -, -, hclk', -⟩ := coldReset_boots (onHedge s.m (fun h => { h with refclk := true })) s.m.ep.perst
    refine ⟨_, next_of_eq ?_, hclk'.trans (resetHedge_refclk _), hb⟩
    unfold refclkStableStep
    rw [if_neg (ne_true_of_eq_false hclk)]
    exact coldResetStep_alive s.m.ep.perst halive
  case ready =>
    intro hboot hperst hwipes hcrs
    have hw : readyWaits s.m = false := by
      simp [readyWaits, hboot, hperst, hwipes, hcrs]
    exact ⟨_, _, (exec_ready s).trans (next_of_eq (readyStep_ready hw)), rfl, rfl, rfl⟩

/-! ## The warm reset -/

section
variable (m : Module) (linkUp : Bool)

/-- The module at the values of a warm reset, before the retained area is judged. -/
def warmValues : Module := { dropJobs m with
  quay := resetQuay false m.quay, ep := resetEp linkUp (linkUp && m.ep.linkUp) m.ep.perst m.ep, pke := {},
  hedge := resetHedge m.hedge, transit := [], flagIn := [], graves := [], fenceSeq := 0 }

/-- The module that restarts after a warm reset whose retained area passes its check. -/
def warmRestart : Module :=
  let m2 := resetAllDies (warmValues m linkUp) false
  { m2 with
    quay := loadPlanner m2.hedge m2.quay,
    hedge := { m2.hedge with boot := .running, heartbeat := m.now, vqNow := m2.hedge.vq,
                             logQ := m2.hedge.logQ ++ retireEvents (warmValues m linkUp) },
    stks := (List.range 16).foldl (fun t st => tmod {} t st (retireRegions m2.hedge st)) m2.stks }

variable {m}

theorem warmReset_restarts (hrec : m.hedge.boot ≠ .recovery) (hok : retainedOk (resetHedge m.hedge) = true) :
    warmReset m linkUp = warmRestart m linkUp := by
  unfold warmReset
  rw [if_neg hrec]
  exact if_neg (by simp [hok])

theorem warmReset_cold (hrec : m.hedge.boot ≠ .recovery) (hbad : retainedOk (resetHedge m.hedge) = false) :
    warmReset m linkUp = countInterrupt (coldReset (logLater (warmValues m linkUp) coldEvent) m.ep.perst) := by
  unfold warmReset
  rw [if_neg hrec]
  exact if_pos (by simp [hbad])

theorem clAt_warmRestart {cl : Nat} (h : cl < 512) :
    clAt (warmRestart m linkUp) cl = resetCluster true (clAt (warmValues m linkUp) cl) := by
  rw [← clAt_resetAllDies (warmValues m linkUp) false h]
  unfold clAt warmRestart
  dsimp only

theorem retireRegions_state (h : Hedge) (st : Nat) (s : Stack) : (retireRegions h st s).state = s.state := rfl

theorem stkAt_warmRestart_state {t : Nat} (h : t < 16) : (stkAt (warmRestart m linkUp) t).state = 2 := by
  unfold stkAt warmRestart
  dsimp only
  refine foldl_keeps (fun b : Tab Stack => (tget {} b t).state = 2) _ (fun b st hb => ?_) _ _ ?_
  · unfold tmod
    rw [tget_tset]
    split
    next heq => rw [← heq]; exact hb
    next => exact hb
  · exact congrArg Stack.state (stkAt_resetAllDies (warmValues m linkUp) false h)

/-- What a warm reset of a module that is not in recovery leaves (R665, R598). -/
theorem warmReset_leaves (hrec : m.hedge.boot ≠ .recovery) : LostAtReset (warmReset m linkUp)
    ∧ (warmReset m linkUp).hostOut = m.hostOut ∧ (linkUp = false → (warmReset m linkUp).ep.ide = [])
    ∧ (if retainedOk (resetHedge m.hedge) then
        (warmReset m linkUp).hedge.boot = .running ∧ (warmReset m linkUp).hedge.fuses = m.hedge.fuses
        ∧ (∀ cl, cl < 512 → (clAt (warmReset m linkUp) cl).restricted = true ∧ (clAt (warmReset m linkUp) cl).wiping = true
            ∧ (clAt (warmReset m linkUp) cl).ctxs = [] ∧ (clAt (warmReset m linkUp) cl).queues = []
            ∧ (clAt (warmReset m linkUp) cl).flags = [] ∧ (clAt (warmReset m linkUp) cl).scb = [])
        ∧ (∀ t, t < 16 → (stkAt (warmReset m linkUp) t).state = 2)
      else (warmReset m linkUp).hedge.boot = .running ∨ (warmReset m linkUp).hedge.boot = .recovery) := by
  cases hok : retainedOk (resetHedge m.hedge) with
  | true =>
    rw [warmReset_restarts linkUp hrec hok, if_pos rfl]
    refine ⟨lostAtReset_of (quayLost_resetQuay false m.quay) rfl rfl rfl, dropJobs_hostOut m, fun h => ?_, rfl,
      resetHedge_fuses_eq m.hedge, fun cl hcl => ?_, fun t ht => stkAt_warmRestart_state linkUp ht⟩
    · rw [h]
      rfl
    · rw [clAt_warmRestart linkUp hcl]
      exact ⟨rfl, rfl, rfl, rfl, rfl, rfl⟩
  | false =>
    rw [warmReset_cold linkUp hrec hok, if_neg Bool.false_ne_true]
    obtain ⟨hb, hep, hout, -⟩ := coldReset_boots (logLater (warmValues m linkUp) coldEvent) m.ep.perst
    have hboot := booted_running_or_recovery hb
    obtain ⟨hlost, -, -⟩ := hb
    rw [countInterrupt_ep, countInterrupt_hedge, countInterrupt_hostOut, hep]
    exact ⟨lostAtReset_countInterrupt hlost, hout.trans (dropJobs_hostOut m), fun _ => rfl, hboot⟩

end

theorem warmResetStep_alive {m : Module} (linkUp : Bool) (h : alive m = true) : warmResetStep m linkUp = warmReset m linkUp :=
  if_pos h

/-- Settles O20: all five are the warm reset of `warmReset_leaves`, DL_DOWN with the link down. -/
theorem warmResets : Obligations.WarmResets := by
  intro s c halive hrec hc
  have hup : exec c s = .next { s with m := warmResetStep s.m true } → ∃ n, exec c s = .next { s with m := n }
      ∧ n = warmReset s.m true := fun h => ⟨_, h, warmResetStep_alive true halive⟩
  obtain ⟨hlost, hout, -, hrest⟩ := warmReset_leaves true hrec
  rcases hc with ⟨rfl, hopen⟩ | rfl | rfl | rfl | rfl
  · exact ⟨_, next_bar0 hopen (warmResetStep_alive true halive), hlost, hout, nofun, hrest⟩
  · exact ⟨_, next_of_eq (warmResetStep_alive true halive), hlost, hout, nofun, hrest⟩
  · exact ⟨_, next_of_eq (warmResetStep_alive true halive), hlost, hout, nofun, hrest⟩
  · exact ⟨_, next_of_eq (warmResetStep_alive true halive), hlost, hout, nofun, hrest⟩
  · obtain ⟨hlost, hout, hide, hrest⟩ := warmReset_leaves (m := onEp s.m (fun e => { e with linkUp := false })) false hrec
    refine ⟨_, next_of_eq (warmResetStep_alive false halive), hlost, hout,
      fun _ k => ?_, hrest⟩
    rw [hide rfl]
    rfl

/-! ## Rest -/

section
variable {m : Module}

/-- The module in Rest (R543, R656). -/
def resting (m : Module) : Module := { m with
  dies := tabOf {} 8 (fun d => { resetDie false m.hedge.rate (dieAt m d) with clocks := false, railOn := false, mV := 0 }),
  clusters := tabOf {} 512 (fun c => restCluster (clAt m c)), stks := tabOf {} 16 (fun s => restStack (stkAt m s)),
  transit := [], flagIn := [], pke := {},
  hedge := { m.hedge with
    sram := m.hedge.sram.filter (fun p => decide (retainedBase ≤ p.1)), boot := .restMonitor, power := .rest, kp := 0,
    vqNow := 650, overPolls := 0, underPolls := 0 } }

theorem restEntryStep_rests (hq : m.quay.qstate = 2) (hd3 : m.quay.quiesceD3 = true) (hd3hot : m.ep.d3hot = true)
    (hboot : m.hedge.boot = .running) (hf : anyFence m = false) : restEntryStep m = resting m :=
  if_neg (by simp [hq, hd3, hd3hot, hboot, hf])

theorem clAt_resting {cl : Nat} (h : cl < 512) : clAt (resting m) cl = restCluster (clAt m cl) := by
  unfold clAt resting
  dsimp only
  rw [tget_tabOf _ _ h]
  rfl

theorem stkAt_resting {t : Nat} (h : t < 16) : stkAt (resting m) t = restStack (stkAt m t) := tget_tabOf _ _ h

theorem dieAt_resting {d : Nat} (h : d < 8) : dieAt (resting m) d =
    { resetDie false m.hedge.rate (dieAt m d) with clocks := false, railOn := false, mV := 0 } := tget_tabOf _ _ h

theorem restExit_clusters : (restExit m).clusters = tabOf {} 512 (fun c => resetCluster false (clAt m c)) := by
  unfold restExit
  dsimp only

theorem clAt_restExit {cl : Nat} (h : cl < 512) : clAt (restExit m) cl = resetCluster false (clAt m cl) := by
  rw [clAt, restExit_clusters, tget_tabOf _ _ h]

theorem stkAt_restExit {t : Nat} (h : t < 16) :
    stkAt (restExit m) t = { stkAt m t with state := 3, frame := 0, fiCtrl := 0 } := tget_tabOf _ _ h

theorem dieAt_restExit {d : Nat} (h : d < 8) : dieAt (restExit m) d =
    { resetDie false m.hedge.rate (dieAt m d) with railOn := true, mV := vOf m.hedge d m.hedge.rate } := tget_tabOf _ _ h

theorem d0Step_exits (hboot : m.hedge.boot = .restMonitor) (hok : retainedOk m.hedge = true) :
    d0Step m = restExit (onEp m (fun e => { e with d3hot := false })) := by
  unfold d0Step
  dsimp only
  rw [if_neg (not_not_intro hboot), if_neg (by simp [hok])]

theorem d0Step_cold (hboot : m.hedge.boot = .restMonitor) (hbad : retainedOk m.hedge = false) : d0Step m =
    countInterrupt (coldReset (logLater (onEp m (fun e => { e with d3hot := false })) coldEvent) m.ep.perst) := by
  unfold d0Step
  dsimp only
  rw [if_neg (not_not_intro hboot), if_pos (by simp [hbad])]

theorem d0Step_awake (hboot : m.hedge.boot ≠ .restMonitor) : d0Step m =
    onQuay (onEp m (fun e => { e with d3hot := false })) (fun q => { q with quiesceD3 := false }) := if_pos hboot

end

theorem countInterrupt_quiesce (m : Module) : (countInterrupt m).quay.qstate = m.quay.qstate
    ∧ (countInterrupt m).quay.quiesceD3 = m.quay.quiesceD3 := ⟨rfl, rfl⟩

/-- Settles O24: Rest entry (`resting`) and exit (`restExit`) keep the Quay's keys and plans and the stacks' contents. -/
theorem restStates : Obligations.RestStates := by
  intro s kept
  refine ⟨?d3hot, fun hq hd3 hd3hot hboot hf => ?entry, fun hboot => ?d0, fun hboot => next_of_eq (d0Step_awake hboot)⟩
  case d3hot =>
    refine ⟨_, rfl, rfl, ⟨rfl, rfl, rfl, fun t _ => rfl⟩, ?_⟩
    exact congrArg (fun b => ({ s.m.quay with
      qstate := if s.m.quay.qstate = 0 then 1 else s.m.quay.qstate, quiesceD3 := b } : Quay)) (Bool.or_true s.m.quay.quiesceD3)
  case entry =>
    refine ⟨resting s.m, next_of_eq (restEntryStep_rests hq hd3 hd3hot hboot hf), ⟨rfl, rfl, rfl, fun t ht => ?_⟩, rfl, rfl, rfl,
      rfl, fun a ha p hp => ?_, fun t ht => ?_, fun cl hcl => ?_, fun d hd => ?_⟩
    · rw [stkAt_resting ht]
      rfl
    · have hbase : retainedBase ≤ p.1 := of_decide_eq_true (List.mem_filter.1 hp).2
      unfold retainedBase at hbase
      omega
    · rw [stkAt_resting ht]
      rfl
    · rw [clAt_resting hcl]
      exact ⟨rfl, rfl⟩
    · rw [dieAt_resting hd]
      exact ⟨rfl, rfl⟩
  case d0 =>
    cases hok : retainedOk s.m.hedge with
    | true =>
      refine ⟨_, next_of_eq (d0Step_exits hboot hok), rfl, rfl, rfl, ?_⟩
      rw [if_pos rfl]
      refine ⟨⟨rfl, rfl, rfl, fun t ht => ?_⟩, rfl, rfl, fun t ht => ?_, fun cl hcl => ?_, fun d hd => ?_⟩
      · rw [stkAt_restExit ht]
        rfl
      · rw [stkAt_restExit ht]
      · rw [clAt_restExit hcl]
        exact ⟨rfl, rfl⟩
      · rw [dieAt_restExit hd]
        exact ⟨rfl, rfl⟩
    | false =>
      obtain ⟨hb, hep, -, -, hd3⟩ :=
        coldReset_boots (logLater (onEp s.m (fun e => { e with d3hot := false })) coldEvent) s.m.ep.perst
      have hstep := d0Step_cold hboot hok
      generalize coldReset (logLater (onEp s.m (fun e => { e with d3hot := false })) coldEvent) s.m.ep.perst = k
        at hb hep hd3 hstep
      have hboot := booted_running_or_recovery hb
      obtain ⟨⟨-, -, -, -, -, -, -, -, -, -, hq, -⟩, -, -⟩ := hb
      refine ⟨_, next_of_eq hstep, hq, hd3, congrArg Endpoint.d3hot hep, ?_⟩
      rw [if_neg Bool.false_ne_true]
      exact hboot

end Sys2Proof.Machine
end

section
/-! PROOFS. The words of a memory, and the commands of a slice (R344 to R357). -/
namespace Sys2Proof.Machine
open Sys2Proof Sys2Proof.Certificates

/-! ## Runs and words of a canonical memory -/

section
variable {α : Type} [DecidableEq α] {d : α}

theorem twalk_eq (n : Nat) : ∀ {t : Tab α} {k lo : Nat}, twfFrom d lo t = true → k ≤ lo →
    twalk d t k n = (List.range' k n).map (tget d t) := by
  induction n with
  | zero => intro t k lo _ _; cases t <;> rfl
  | succ n ih =>
    intro t k lo h hk
    rw [List.range'_succ, List.map_cons]
    cases t with
    | nil => rw [twalk, ih (t := []) (lo := k + 1) rfl le_rfl]; rfl
    | cons p t =>
      obtain ⟨j, v⟩ := p
      have h' := h
      simp only [twfFrom, Bool.and_eq_true, decide_eq_true_eq] at h'
      obtain ⟨⟨hlo, hv⟩, ht⟩ := h'
      unfold twalk
      split
      next hjk =>
        rw [ih ht (by omega), show tget d ((j, v) :: t) k = v from if_pos hjk.symm]
        congr 1
        refine List.map_congr_left fun i hi => ?_
        have hik : k < i := by have := (List.mem_range'_1.1 hi).1; omega
        exact ((if_neg (by omega)).trans (if_neg (by omega)) :
          (if i = j then v else if i < j then d else tget d t i) = tget d t i).symm
      next hjk =>
        have hlt : k < j := by omega
        rw [ih (t := (j, v) :: t) (lo := j) (by simp [twfFrom, hv, ht]) hlt,
          show tget d ((j, v) :: t) k = d from (if_neg (by omega)).trans (if_pos hlt)]

/-- A run read from a canonical table is what its entries read as, one by one. -/
theorem tgetRange_eq {t : Tab α} (k n : Nat) (h : twf d t = true) : tgetRange d t k n = (List.range' k n).map (tget d t) := by
  unfold tgetRange
  rw [twalk_eq n (twfFrom_dropWhile_lt t k h) le_rfl]
  exact List.map_congr_left fun i hi => tget_dropWhile_lt t (List.mem_range'_1.1 hi).1

end

theorem leNat_leBytes (n x : Nat) : leNat (leBytes n x) = x % 256 ^ n := by
  induction n generalizing x with
  | zero => simp [leBytes, leNat, Nat.mod_one]
  | succ n ih =>
    rw [leBytes, leNat, ih, BitVec.toNat_ofNat, show 256 ^ (n + 1) = 256 * 256 ^ n from pow_succ' 256 n, Nat.mod_mul]

section
variable {m : Mem}

theorem mbytes_eq (a n : Nat) (h : memWf m = true) : mbytes m a n = (List.range' a n).map (mget m) := tgetRange_eq a n h

theorem mword_eq (w : Nat) (h : memWf m = true) : mword m w =
    BitVec.ofNat 32 (leNat [mget m (4 * w), mget m (4 * w + 1), mget m (4 * w + 2), mget m (4 * w + 3)]) := by
  unfold mword
  rw [mbytes_eq _ _ h]
  rfl

/-- Two memories with the same bytes at two words have the same words there. -/
theorem mword_congr {m' : Mem} {w w' : Nat} (h : memWf m = true) (h' : memWf m' = true)
    (hb : ∀ j, j < 4 → mget m' (4 * w' + j) = mget m (4 * w + j)) : mword m' w' = mword m w := by
  rw [mword_eq w h, mword_eq w' h', show mget m' (4 * w') = mget m (4 * w) from hb 0 (by decide), hb 1 (by decide),
    hb 2 (by decide), hb 3 (by decide)]

theorem getD_bytesOf (ws : List Word) (i : Nat) (hi : i < ws.length) {j : Nat} (hj : j < 4) :
    (bytesOf ws).getD (4 * i + j) 0 = (leBytes 4 (ws.getD i 0).toNat).getD j 0 := by
  induction ws generalizing i with
  | nil => exact absurd hi (Nat.not_lt_zero _)
  | cons w ws ih =>
    rw [bytesOf]
    cases i with
    | zero =>
      rw [List.getD_append _ _ _ _ (by rw [leBytes_length]; omega)]
      simp
    | succ i =>
      rw [List.getD_append_right _ _ _ _ (by rw [leBytes_length]; omega), leBytes_length,
        show 4 * (i + 1) + j - 4 = 4 * i + j by omega, ih i (by simpa using hi), List.getD_cons_succ]

/-- A word read after words written: inside the run the word written, outside it what was there. -/
theorem mword_mputWords (a : Nat) (ws : List Word) (w : Nat) (h : memWf m = true) :
    mword (mputWords m a ws) w = if a ≤ w ∧ w < a + ws.length then ws.getD (w - a) 0 else mword m w := by
  have hb (j : Nat) (hj : j < 4) : mget (mputWords m a ws) (4 * w + j) =
      if a ≤ w ∧ w < a + ws.length then (leBytes 4 (ws.getD (w - a) 0).toNat).getD j 0 else mget m (4 * w + j) := by
    unfold mputWords
    rw [mget_mput _ _ _ h, bytesOf_length]
    by_cases hin : a ≤ w ∧ w < a + ws.length
    · rw [if_pos hin, if_pos (by omega), ← getD_bytesOf ws (w - a) (by omega) hj]
      congr 1
      omega
    · rw [if_neg hin, if_neg (by omega)]
  by_cases hin : a ≤ w ∧ w < a + ws.length
  · simp only [if_pos hin] at hb ⊢
    rw [mword_eq w (memWf_mputWords a ws h), show mget (mputWords m a ws) (4 * w) = _ from hb 0 (by decide), hb 1 (by decide),
      hb 2 (by decide), hb 3 (by decide)]
    have hle := leNat_leBytes 4 (ws.getD (w - a) 0).toNat
    generalize ws.getD (w - a) 0 = x at hle ⊢
    refine BitVec.eq_of_toNat_eq ?_
    rw [BitVec.toNat_ofNat]
    have hlt := x.isLt
    exact (congrArg (· % 2 ^ 32) hle).trans (by omega)
  · simp only [if_neg hin] at hb ⊢
    exact mword_congr h (memWf_mputWords a ws h) hb

end

/-! ## The two bank mappings -/

/-- Entries moved one by one to places that tell them apart: a place reads as the entry that moved there. -/
theorem tget_foldl_tset_move {α : Type} [DecidableEq α] {d : α} {f : Nat → Nat} (hf : Function.Injective f) (k : Nat) :
    ∀ {t : Tab α} {lo : Nat} (acc : Tab α), twfFrom d lo t = true →
      tget d (t.foldl (fun a p => tset d a (f p.1) p.2) acc) (f k) =
        if tget d t k = d then tget d acc (f k) else tget d t k
  | [], _, acc, _ => (if_pos rfl).symm
  | (j, v) :: t, lo, acc, h => by
    simp only [twfFrom, Bool.and_eq_true, decide_eq_true_eq] at h
    obtain ⟨⟨-, hv⟩, ht⟩ := h
    rw [List.foldl_cons, tget_foldl_tset_move hf k _ ht, tget_tset]
    by_cases hkj : k = j
    · rw [if_pos (congrArg f hkj), show tget d ((j, v) :: t) k = v from if_pos hkj, if_neg hv,
        if_pos (tget_of_lt ht (by omega))]
    · rw [if_neg fun h => hkj (hf h)]
      have hcons : tget d ((j, v) :: t) k = tget d t k := by
        refine (if_neg hkj).trans ?_
        split
        · exact (tget_of_lt ht (by omega)).symm
        · rfl
      rw [hcons]

theorem mod_xor_lt (a b : Nat) : a % 64 ^^^ b % 64 < 64 :=
  Nat.xor_lt_two_pow (n := 6) (Nat.mod_lt a (by decide)) (Nat.mod_lt b (by decide))

theorem otherBank_row (row : Nat) {col : Nat} (h : col < 64) : otherBank (64 * row + col) = 64 * row + (col ^^^ row % 64) := by
  unfold otherBank
  rw [show (64 * row + col) / 64 = row by omega, show (64 * row + col) % 64 = col by omega, Nat.mul_comm]

/-- The mapping exchanges two words (R357): a word moved twice is where it was. -/
theorem otherBank_otherBank (w : Nat) : otherBank (otherBank w) = w := by
  have hlt : w % 64 ^^^ w / 64 % 64 < 64 := mod_xor_lt w (w / 64)
  have hw : otherBank w = 64 * (w / 64) + (w % 64 ^^^ w / 64 % 64) := by
    unfold otherBank
    rw [Nat.mul_comm]
  rw [hw, otherBank_row _ hlt, Nat.xor_assoc, Nat.xor_self, Nat.xor_zero]
  exact Nat.div_add_mod w 64

/-- Where a byte stands under the other mapping. -/
def otherByte (b : Nat) : Nat := 4 * otherBank (b / 4) + b % 4

theorem otherByte_injective : Function.Injective otherByte := by
  intro a b h
  unfold otherByte at h
  have hbank : otherBank (a / 4) = otherBank (b / 4) := by omega
  have hword : a / 4 = b / 4 := by rw [← otherBank_otherBank (a / 4), hbank, otherBank_otherBank]
  omega

theorem mword_remapSlice {c : Cluster} (w : Nat) (h : memWf c.scratch = true) :
    mword (remapSlice c).scratch (otherBank w) = mword c.scratch w := by
  refine mword_congr h (memWf_remapSlice c) fun j hj => ?_
  have hmove := tget_foldl_tset_move (d := (0 : Byte)) otherByte_injective (4 * w + j) [] h
  have hplace : otherByte (4 * w + j) = 4 * otherBank w + j := by
    unfold otherByte
    rw [show (4 * w + j) / 4 = w by omega, show (4 * w + j) % 4 = j by omega]
  rw [hplace] at hmove
  refine hmove.trans ?_
  split
  next hz => exact hz.symm
  next => rfl

/-! ## Scrub, wipe and modes -/

section
variable (m : Module) (c : Cluster)

theorem mword_zeroRow (r w : Nat) (h : memWf c.scratch = true) :
    mword (zeroRow c r).scratch w = if w / 64 = r then 0 else mword c.scratch w := by
  unfold zeroRow
  dsimp only
  rw [mword_mputWords _ _ _ h, List.length_replicate]
  by_cases hw : w / 64 = r
  · rw [if_pos hw, if_pos (by omega), List.getD_replicate (y := 0) _ (by omega)]
  · rw [if_neg hw, if_neg (by omega)]

theorem mem_zeroRow_spErr {r : Nat} {p : Nat × Nat} (h : p ∈ (zeroRow c r).spErr) : p ∈ c.spErr ∧ p.1 / 64 ≠ r := by
  obtain ⟨hp, hr⟩ := List.mem_filter.1 h
  exact ⟨hp, of_decide_eq_true hr⟩

theorem mayRestrict_iff : mayRestrict c = true ↔ c.nte.run = none ∧ c.nte.pend = none ∧ c.rme.run = none ∧ c.rme.pend = none
    ∧ c.vec.run = none ∧ c.vec.pend = none ∧ c.scb = [] := by
  unfold mayRestrict
  simp [and_assoc]

variable (cl : Nat)

theorem scrubRewriteStep_empty (h : (clAt m cl).rewriteQ = []) : scrubRewriteStep m cl = m := by
  unfold scrubRewriteStep
  rw [h]

theorem scrubRewriteStep_cons {w : Nat} {rest : List Nat} (h : (clAt m cl).rewriteQ = w :: rest) : scrubRewriteStep m cl =
    onCl m cl (fun c => { c with
      rewriteQ := rest, spErr := if tget 0 c.spErr w = 1 then tset 0 c.spErr w 0 else c.spErr }) := by
  unfold scrubRewriteStep
  rw [h]

theorem scrubRowStep_empty (h : (clAt m cl).fence = []) : scrubRowStep m cl = m := by
  unfold scrubRowStep
  rw [h]

theorem scrubRowStep_cons {f : FenceRow} {rest : List FenceRow} (h : (clAt m cl).fence = f :: rest) : scrubRowStep m cl =
    settleFences (onCl m cl (fun c => { zeroRow c f.row with fence := rest })) := by
  unfold scrubRowStep
  rw [h]

end

/-! ## Landing pairs -/

section
variable (t : Tab Word) (p : Nat) (v : Word)

theorem lpStore_lo : lpStore t (2 * p) v = tset 0 (tset 0 t (2 * p) v) (2 * p + 1) (maskW (tget 0 t (2 * p + 1)) 0x7FFF) :=
  if_pos (by omega)

theorem lpStore_hi : lpStore t (2 * p + 1) v = tset 0 t (2 * p + 1) (maskW v 0x7FFF) := if_neg (by omega)

theorem tget_lpStore_lo : tget 0 (lpStore t (2 * p) v) (2 * p) = v
    ∧ tget 0 (lpStore t (2 * p) v) (2 * p + 1) = maskW (tget 0 t (2 * p + 1)) 0x7FFF := by
  rw [lpStore_lo, tget_tset_ne _ (by omega : (2 * p : Nat) ≠ 2 * p + 1)]
  simp

theorem tget_lpStore_hi : tget 0 (lpStore t (2 * p + 1) v) (2 * p) = tget 0 t (2 * p)
    ∧ tget 0 (lpStore t (2 * p + 1) v) (2 * p + 1) = maskW v 0x7FFF := by
  rw [lpStore_hi, tget_tset_ne _ (by omega : (2 * p : Nat) ≠ 2 * p + 1)]
  simp

theorem tget_lpStore_other (hi : Bool) {q : Nat} (h : q / 2 ≠ p) :
    tget 0 (lpStore t (2 * p + b2n hi) v) q = tget 0 t q := by
  cases hi with
  | false =>
    rw [show 2 * p + b2n false = 2 * p from rfl, lpStore_lo, tget_tset_ne _ (by omega), tget_tset_ne _ (by omega)]
  | true => rw [show 2 * p + b2n true = 2 * p + 1 from rfl, lpStore_hi, tget_tset_ne _ (by omega)]

end

theorem lpWriteCl_bad {p : Nat} {hi : Bool} {v : Word} {c : Cluster}
    (h : lpOk (tget 0 (lpStore c.lp (2 * p + b2n hi) v) (2 * p)).toNat
      (tget 0 (lpStore c.lp (2 * p + b2n hi) v) (2 * p + 1)).toNat = false) : lpWriteCl p hi v c = c :=
  if_neg (ne_true_of_eq_false h)

theorem lpWriteCl_good {p : Nat} {hi : Bool} {v : Word} {c : Cluster}
    (h : lpOk (tget 0 (lpStore c.lp (2 * p + b2n hi) v) (2 * p)).toNat
      (tget 0 (lpStore c.lp (2 * p + b2n hi) v) (2 * p + 1)).toNat = true) :
    lpWriteCl p hi v c = { c with lp := lpStore c.lp (2 * p + b2n hi) v } := if_pos h

/-- A single write of a landing-pair word (R344), by the pair that it leaves. -/
theorem lpWriteCl_leaves (p : Nat) (hi : Bool) (v : Word) (c : Cluster) {w0 w1 : Word}
    (h0 : tget 0 (lpStore c.lp (2 * p + b2n hi) v) (2 * p) = w0)
    (h1 : tget 0 (lpStore c.lp (2 * p + b2n hi) v) (2 * p + 1) = w1) :
    lpWriteCl p hi v c = { c with lp := (lpWriteCl p hi v c).lp }
      ∧ (lpOk w0.toNat w1.toNat = false → (lpWriteCl p hi v c).lp = c.lp)
      ∧ (lpOk w0.toNat w1.toNat = true → tget 0 (lpWriteCl p hi v c).lp (2 * p) = w0
          ∧ tget 0 (lpWriteCl p hi v c).lp (2 * p + 1) = w1
          ∧ ∀ q, q / 2 ≠ p → tget 0 (lpWriteCl p hi v c).lp q = tget 0 c.lp q) := by
  cases hok : lpOk w0.toNat w1.toNat with
  | false =>
    rw [lpWriteCl_bad (by rw [h0, h1]; exact hok)]
    exact ⟨rfl, fun _ => rfl, nofun⟩
  | true =>
    rw [lpWriteCl_good (by rw [h0, h1]; exact hok)]
    exact ⟨rfl, nofun, fun _ => ⟨h0, h1, fun q hq => tget_lpStore_other c.lp p v hi hq⟩⟩

/-- Settles O45: each command by what it writes of its slice, the words by `mword_zeroRow` and `mword_remapSlice`. -/
theorem scratchpadCommands : Obligations.ScratchpadCommands := by
  intro s cl c
  refine ⟨fun w rest h => ?rewrite, fun h => next_of_eq (scrubRewriteStep_empty s.m cl h), fun f rest h => ?row,
    fun h => next_of_eq (scrubRowStep_empty s.m cl h), fun hw hr => ?wipe, fun h => next_of_eq (if_neg (ne_true_of_eq_false h)),
    fun v => ⟨_, rfl, onCl_onlyCl _ _ _, ?restrict⟩, fun v => ⟨_, rfl, onCl_onlyCl _ _ _, ?hashoff⟩, fun p hi v => ?pair⟩
  case rewrite =>
    refine ⟨_, next_of_eq (scrubRewriteStep_cons s.m cl h), onCl_onlyCl _ _ _, ?_⟩
    rw [clAt_onCl_same]
    refine ⟨rfl, rfl, ?_, fun v hv => ?_⟩
    · dsimp only
      split
      · rw [tget_tset_same]; decide
      next hne => exact hne
    · dsimp only
      split
      · exact tget_tset_ne _ hv
      · rfl
  case row =>
    obtain ⟨fl, qs, rs, fr, hsettle⟩ := clAt_settleFences
      (m := onCl s.m cl (fun c => { zeroRow c f.row with fence := rest })) cl
    rw [clAt_onCl_same] at hsettle
    refine ⟨_, next_of_eq (scrubRowStep_cons s.m cl h), ?_⟩
    rw [hsettle]
    exact ⟨rfl, rfl, rfl, fun hwf w => mword_zeroRow c f.row w hwf, fun p hp => mem_zeroRow_spErr c hp⟩
  case wipe =>
    obtain ⟨fl, qs, rs, fr, hsettle⟩ := clAt_settleFences
      (m := onCl s.m cl (fun c => { wipedSlice c with restricted := true })) cl
    rw [clAt_onCl_same] at hsettle
    refine ⟨_, next_of_eq (if_pos (by rw [Bool.and_eq_true]; exact ⟨hw, hr⟩)), ?_⟩
    rw [hsettle]
    exact ⟨rfl, rfl, rfl, rfl, rfl, rfl, rfl, rfl, rfl⟩
  case restrict =>
    rw [clAt_onCl_same]
    unfold restrictCl
    simp only [mayRestrict_iff]
    rfl
  case hashoff =>
    rw [clAt_onCl_same]
    unfold hashoffCl
    refine ⟨fun h => if_pos (by rw [show (clAt s.m cl).restricted = false from h]; rfl), fun h hv => ?_, fun h hv => ?_⟩
    · rw [if_neg (by simp [show (clAt s.m cl).restricted = true from h]), if_pos hv]
    · rw [if_neg (by simp [show (clAt s.m cl).restricted = true from h]), if_neg hv]
      refine ⟨rfl, h, rfl, fun hwf row col hcol => ?_⟩
      rw [← otherBank_row row hcol]
      exact mword_remapSlice _ hwf
  case pair =>
    intro w0 w1
    refine ⟨_, rfl, onCl_onlyCl _ _ _, ?_⟩
    rw [clAt_onCl_same]
    cases hi with
    | false => exact lpWriteCl_leaves p false v c (tget_lpStore_lo c.lp p v).1 (tget_lpStore_lo c.lp p v).2
    | true => exact lpWriteCl_leaves p true v c (tget_lpStore_hi c.lp p v).1 (tget_lpStore_hi c.lp p v).2

end Sys2Proof.Machine
end

section
/-! PROOFS. What issuing leaves when an instruction's words may issue, and the commands of an entry of the descriptor table and of
a landing pair (R344, R362, R366). -/
namespace Sys2Proof.Machine
open Sys2Proof Sys2Proof.Certificates

/-! ## An instruction that may issue -/

section
variable {m : Module} {cl k : Nat}

theorem slotFree_of {slot : Bool} (h : slot = true → (clAt m cl).issueFree ≤ m.now ∧ outranked m cl k = false) :
    slot = true → slotOwn m cl k = false ∧ slotTaken m cl k = false := by
  intro hslot
  obtain ⟨hfree, hrank⟩ := h hslot
  have hnot : ¬ m.now < (clAt m cl).issueFree := by omega
  exact ⟨decide_eq_false fun h => hnot h.1, by simp [slotTaken, hnot, hrank]⟩

/-- An instruction that may issue does what its body makes of the module after the fetch (R441). -/
theorem attempt_mayIssue {ws : List Word} {op : Nat} {slot : Bool} (body : Module → Context → List Word → Res)
    (h : MayIssue m cl k ws op slot) (hop : opListed op = true) : attempt m cl k ws op slot body =
      resEffect (fetched m cl k ws.length) cl k op ws.length (body (fetched m cl k ws.length) (ctxOf (clAt m cl) k) ws) := by
  obtain ⟨⟨hs, hr, hw, hl, hp, hc⟩, hh, hb, hL, hF, hd, hf, ho⟩ := h
  exact attempt_issues m cl k ws op slot body hs hr hw hl hp (decide_eq_true hc) hh hb hL hF hd (slotFree_of hf) ho hop

/-- A clean fetch changes the buffer of its context and nothing else of the module. -/
theorem fetched_onlyBuf {len : Nat} (h : fetchHits m (ctxOf (clAt m cl) k) len = []) :
    OnlyCl m (fetched m cl k len) cl
      ∧ clAt (fetched m cl k len) cl = { clAt m cl with ctxs := (clAt (fetched m cl k len) cl).ctxs }
      ∧ ∀ j, j ≠ k → ctxOf (clAt (fetched m cl k len) cl) j = ctxOf (clAt m cl) j := by
  rcases fetched_clean m cl k h with heq | heq
  · rw [heq]
    exact ⟨⟨rfl, fun _ _ => rfl⟩, rfl, fun _ _ => rfl⟩
  · rw [heq]
    refine ⟨onCl_onlyCl _ _ _, ?_, fun j hj => ?_⟩
    · rw [clAt_onCl_same]; rfl
    · rw [clAt_onCl_same, ctxOf_onCtx_ne _ _ _ _ hj]

/-- An instruction of one word has LEN 0. -/
theorem lenOf_single {w0 : Word} (h : AtPc m cl k [w0]) : lenOf [w0] = 0 := by
  obtain ⟨-, -, hw, hl, hp, -⟩ := h
  simp only [List.length_cons, List.length_nil, Nat.zero_add] at hl hp
  have hlt : (ctxOf (clAt m cl) k).pc < (ctxOf (clAt m cl) k).len := hp
  unfold wordsAt at hw
  rw [hl, Nat.min_eq_left (by omega)] at hw
  unfold lenAt at hl
  rw [if_pos hlt, hw] at hl
  have hbits : bits w0.toNat 15 8 = 0 := by
    have h1 : 1 + bits w0.toNat 15 8 = 1 := hl
    omega
  exact hbits

theorem onlyCl_trans {a b c : Module} (h : OnlyCl a b cl) (h' : OnlyCl b c cl) : OnlyCl a c cl :=
  ⟨by rw [h'.1, h.1], fun j hj => (h'.2 j hj).trans (h.2 j hj)⟩

/-- What issuing leaves of a cluster but the context that issues and its slot. -/
theorem afterIssue_eq (now op len cycles : Nat) (c : Cluster) : afterIssue now k op len cycles c = { c with
    ctxs := (afterIssue now k op len cycles c).ctxs, issueFree := (afterIssue now k op len cycles c).issueFree,
    issueOwner := (afterIssue now k op len cycles c).issueOwner } := by
  unfold afterIssue
  dsimp only
  split <;> rfl

theorem ctxOf_afterIssue (now op len cycles : Nat) (c : Cluster) : ctxOf (afterIssue now k op len cycles c) k =
    issueCtx (tget 0 c.brk k) (decide (op = 0x0D)) len (ctxOf c k) := by
  unfold afterIssue
  dsimp only
  split
  · exact ctxOf_onCtx_same _ _ _
  · exact ctxOf_onCtx_same _ _ _

/-- An instruction whose body changes its cluster alone, by what keeps contexts and breakpoints, is issued after it. -/
theorem issued_of_onCl {len op cycles : Nat} {f : Cluster → Cluster} (hF : fetchHits m (ctxOf (clAt m cl) k) len = [])
    (hop : op ≠ 0x0D) (hcyc : cycles ≠ 0) (hctx : ∀ c, (f c).ctxs = c.ctxs) (hbrk : ∀ c, (f c).brk = c.brk) :
    Issued m (onCl (onCl (fetched m cl k len) cl f) cl (afterIssue (fetched m cl k len).now k op len cycles)) cl k len false
      (some (m.now + cycles)) (ctxOf (clAt m cl) k) := by
  obtain ⟨honly, hcl, -⟩ := fetched_onlyBuf (len := len) hF
  have hnow : (fetched m cl k len).now = m.now := by rw [honly.1]
  have hbrk' : (f (clAt (fetched m cl k len) cl)).brk = (clAt m cl).brk := by rw [hbrk, hcl]
  have hx : ctxOf (f (clAt (fetched m cl k len) cl)) k = ctxOf (clAt (fetched m cl k len) cl) k := by
    unfold ctxOf
    rw [hctx]
  unfold Issued
  rw [clAt_onCl_same, clAt_onCl_same, ctxOf_afterIssue, hbrk', hx, ← ctxOf_fetched, decide_eq_false hop, hnow]
  unfold afterIssue
  dsimp only
  rw [if_neg hcyc]
  exact ⟨rfl, rfl, rfl⟩

end

/-! ## Entries of the descriptor table -/

theorem onDie_onlyDie (m : Module) (i : Nat) (f : Die → Die) : OnlyDie m (onDie m i f) i :=
  ⟨rfl, fun _ hj => dieAt_onDie_ne _ _ _ _ hj⟩

theorem tget_tmod {α : Type} [DecidableEq α] (d : α) (t : Tab α) (k : Nat) (f : α → α) (j : Nat) :
    tget d (tmod d t k f) j = if j = k then f (tget d t k) else tget d t j := tget_tset t

/-- The codes of the descriptor checks that fail are 1 to 3. -/
theorem descCheck_code (m : Module) (d tag : Nat) (x : Desc) : (descCheck m d tag x).1 = 0 ↔ descCheck m d tag x = (0, 0) := by
  unfold descCheck
  dsimp only
  repeat' split
  all_goals simp

section
variable (m : Module) (die n : Nat)

theorem descDoneStep_idle (h : (tget {} (dieAt m die).dstat n).busy = false) : descDoneStep m die n = m :=
  if_pos (by rw [h]; rfl)

/-- What a validation that ends leaves of an entry's status. -/
def doneStat (m : Module) (die n : Nat) : DStat :=
  let st := tget {} (dieAt m die).dstat n
  let r := descCheck m die st.job.toNat (descOf (dieAt m die) n)
  { valid := decide (r.1 = 0), busy := false, code := BitVec.ofNat 2 r.1, check := BitVec.ofNat 4 r.2, job := st.job }

theorem descDoneStep_busy (h : (tget {} (dieAt m die).dstat n).busy = true) :
    descDoneStep m die n = onDie m die (fun d => { d with dstat := tset {} d.dstat n (doneStat m die n) }) :=
  if_neg (by rw [h]; simp)

end

/-! ## A landing pair exchanged -/

section
variable (t : Tab Word) (p : Nat)

theorem tget_lpSwap_lo : tget 0 (lpSwap t p) (2 * p) = tget 0 t (2 * p) ^^^ 0x40000000 := by
  unfold lpSwap
  dsimp only
  rw [tget_tset_ne _ (by omega), tget_tset_same]

theorem tget_lpSwap_hi : tget 0 (lpSwap t p) (2 * p + 1) = tget 0 t (2 * p + 1) + 0x10000 := tget_tset_same _

theorem tget_lpSwap_other {q : Nat} (h : q / 2 ≠ p) : tget 0 (lpSwap t p) q = tget 0 t q := by
  unfold lpSwap
  dsimp only
  rw [tget_tset_ne _ (by omega), tget_tset_ne _ (by omega)]

end

theorem swapBody_valid {m : Module} {cl : Nat} {x : Context} {w0 : Word} (hlen : lenOf [w0] = 0) (hp : w0.toNat / 65536 < 32)
    (hv : (tget (0 : Word) (clAt m cl).lp (2 * (w0.toNat / 65536))).getLsbD 31 = true) : swapBody cl m x [w0] =
      .done 1 (onCl m cl (fun c => { c with lp := lpSwap c.lp (w0.toNat / 65536) })) := by
  have harg : argOf [w0] = w0.toNat / 65536 := rfl
  unfold swapBody
  dsimp only
  rw [harg, Nat.mod_eq_of_lt hp, if_neg (by rw [hlen]; omega), if_neg (by rw [bit_toNat, hv]; simp)]

/-- Settles O46: each command of an entry by the one place of DSTAT it sets, SWAP by the body that `attempt_mayIssue` gives. -/
theorem descriptorCommands : Obligations.DescriptorCommands := by
  constructor
  · intro s die d
    refine ⟨fun v => ⟨_, rfl, onDie_onlyDie _ _ _, ?commit⟩, fun e h => next_of_eq (descDoneStep_idle s.m die e h),
      fun e hb => ?done, fun e w v => ⟨_, rfl, onDie_onlyDie _ _ _, ?write⟩⟩
    case commit =>
      unfold dcmtStep
      rw [dieAt_onDie_same]
      refine ⟨rfl, ?_, fun q hq => tget_tset_ne _ hq⟩
      dsimp only
      rw [tget_tset_same]
      congr 1
      refine BitVec.eq_of_toNat_eq ?_
      simp [BitVec.extractLsb'_toNat, Nat.shiftRight_eq_div_pow]
    case done =>
      refine ⟨_, next_of_eq (descDoneStep_busy s.m die e hb), onDie_onlyDie _ _ _, ?_⟩
      rw [dieAt_onDie_same]
      refine ⟨rfl, ?_, fun q hq => tget_tset_ne _ hq⟩
      dsimp only
      rw [tget_tset_same]
      simp only [doneStat, descCheck_code]
      rfl
    case write =>
      rw [dieAt_onDie_same]
      refine ⟨rfl, fun q => tget_tset _, fun q => ?_⟩
      unfold descWriteDie
      dsimp only
      rw [tget_tmod]
  · intro s cl k w0 c p hmay hp hv
    have hbody := swapBody_valid (cl := cl) (m := fetched s.m cl k 1) (x := ctxOf (clAt s.m cl) k) (w0 := w0) (lenOf_single hmay.1) hp
    obtain ⟨-, -, -, -, hF, -⟩ := id hmay
    obtain ⟨honly, hcl, -⟩ := fetched_onlyBuf hF
    have hlp : (clAt (fetched s.m cl k 1) cl).lp = c.lp := by rw [show [w0].length = 1 from rfl] at hcl; rw [hcl]
    have hstep := attempt_mayIssue (swapBody cl) hmay rfl
    rw [show [w0].length = 1 from rfl, hbody (by rw [hlp]; exact hv)] at hstep
    refine ⟨_, next_of_eq hstep, onlyCl_trans (onlyCl_trans honly (onCl_onlyCl _ _ _)) (onCl_onlyCl _ _ _),
      issued_of_onCl hF (by decide) (by decide) (fun _ => rfl) (fun _ => rfl), ?_⟩
    simp only [resEffect]
    rw [clAt_onCl_same, clAt_onCl_same, afterIssue_eq]
    dsimp only
    rw [hlp]
    refine ⟨?_, tget_lpSwap_lo c.lp p, tget_lpSwap_hi c.lp p, fun q hq => tget_lpSwap_other c.lp p hq⟩
    rw [show [w0].length = 1 from rfl] at hcl
    rw [hcl]

end Sys2Proof.Machine
end

section
/-! PROOFS. A stream at the end of a stack (R434, R511). The symbols of a fetch are looked for in the stack that the stream's base
lies in, at the base's offset plus the program counter; what the fetch then counts and asks of the job is looked for at the sum of
the two, whose stack is the next one once the sum passes 2^37. A wrong unit beyond the end of the base's stack is then met by the
fetch and yet asks for no replay, so the statement on uncorrectable fetches fails there. -/
namespace Sys2Proof.Machine
open Sys2Proof Sys2Proof.Certificates

/-- Job 7, with a replay budget, whose context 0 of cluster 3 stands at word 1 of a stream that begins 4 bytes before 2^37; the unit
there has four wrong symbols in the tables of stack 0. -/
def streamAtEnd : Module :=
  { clusters := [(3, { ctxs := [(0, { state := 1, job := 7, base := 2 ^ 37 - 4, len := 2, pc := 1 })] })],
    stks := [(0, { err := [(2 ^ 31, 4)] })], quay := { jobs := [(7, some {})] } }

theorem atPc_streamAtEnd : AtPc streamAtEnd 3 0 [0] := by
  refine ⟨?_, ?_, ?_, ?_, ?_, ?_⟩ <;> decide +kernel

/-- The replay that job 7 has asked for. -/
def replayAsked7 (m : Module) : Option ReplayCause := (jobAt m 7).bind (·.replayReq)

/-- Refutes O30: the fetch of `streamAtEnd` meets a unit with four wrong symbols and job 7 asks for no replay. -/
theorem not_haltHolds : ¬ Obligations.HaltHolds := by
  intro h
  obtain ⟨hall, -⟩ := h { m := streamAtEnd } 3 0 [0] atPc_streamAtEnd
  obtain ⟨-, -, hrest⟩ := hall (.load 3 0 [0]) (by simp [seqCommands])
  obtain ⟨-, hfetch, -⟩ := hrest (by decide +kernel) (by decide +kernel)
  obtain ⟨n, hexec, -, hask⟩ := hfetch (by decide +kernel) (by decide +kernel) (by decide +kernel)
  obtain ⟨j', hj', hreq⟩ := hask {} (by decide +kernel) rfl
  have hn : loadStep streamAtEnd 3 0 [0] = n := by injection hexec with e; injection e
  subst hn
  have hnone : replayAsked7 (loadStep streamAtEnd 3 0 [0]) = none := by decide +kernel
  unfold replayAsked7 at hnone
  rw [show jobAt (loadStep streamAtEnd 3 0 [0]) 7 = some j' from hj', Option.bind_some, hreq] at hnone
  exact Option.some_ne_none _ hnone

end Sys2Proof.Machine
end

section
/-! PROOFS. Writes of registers (R10, R441, R549, R550): SQ_BASE in halves, GLB_EVT and GLB_EVTEN, a handle register, a word of the
pool table and PKE_IEN. -/
namespace Sys2Proof.Machine
open Sys2Proof Sys2Proof.Certificates

/-! ## Halves of a 64-bit value -/

theorem lowWord_eq (v : BitVec 64) : lowWord v = v.setWidth 32 := BitVec.ofNat_toNat 32 v

theorem ofNat_lowWord (v : BitVec 64) {k : Nat} (hk : k ≤ 32) : BitVec.ofNat k (lowWord v).toNat = v.setWidth k := by
  rw [lowWord_eq, BitVec.ofNat_toNat]
  exact BitVec.setWidth_setWidth_of_le v hk

theorem highWord_append_lowWord (v : BitVec 64) : highWord v ++ lowWord v = v := by
  refine BitVec.eq_of_toNat_eq ?_
  rw [BitVec.toNat_append, lowWord_eq, BitVec.toNat_setWidth, highWord, BitVec.toNat_ofNat]
  have hlt := v.isLt
  rw [← Nat.shiftLeft_add_eq_or_of_lt (Nat.mod_lt _ (by decide)), Nat.shiftLeft_eq]
  omega

/-! ## SQ_BASE -/

section
variable {m : Module} {i : Nat}

/-- The key under which the lower half of SQ_BASE of RING_i is latched. -/
def sqBaseKey (i : Nat) : Nat := (0x100000 + 64 * i) / 8 * 8

theorem sqBaseKey_high (i : Nat) : (0x100000 + 64 * i + 4) / 8 * 8 = sqBaseKey i := by
  unfold sqBaseKey
  omega

theorem ringRegWrite_sqLow (v : Word) : ringRegWrite m (0x100000 + 64 * i + 0) v =
    onQuay m (fun q => { q with half := tset none q.half (sqBaseKey i) (some v) }) := by
  obtain ⟨-, hbyte⟩ := ringReg_offset (i := i) (o := 0) (by decide)
  unfold ringRegWrite
  dsimp only
  rw [hbyte]
  rfl

/-- The upper half written after the lower one sets SQ_BASE to both (R550). -/
theorem ringRegWrite_sqHigh {lo : Word} (v : Word) (hoff : (ringAt m i).sqEn = false)
    (hlo : tget none m.quay.half (sqBaseKey i) = some lo) : ringRegWrite m (0x100000 + 64 * i + 4) v =
      onRing (onQuay m (fun q => { q with half := tset none q.half (sqBaseKey i) none })) i
        (fun r => { r with sqBase := v ++ lo }) := by
  obtain ⟨hring, hbyte⟩ := ringReg_offset (i := i) (o := 4) (by decide)
  unfold ringRegWrite
  dsimp only
  rw [hring, hbyte, sqBaseKey_high, if_pos (by decide)]
  unfold writeHalf
  rw [if_pos (by decide), hlo]
  exact if_neg (ne_true_of_eq_false hoff)

end

theorem ringsOpen_onQuay_half {m : Module} (h : RingsOpen m) (t : Tab (Option Word)) :
    RingsOpen (onQuay m (fun q => { q with half := t })) := h

/-! ## Registers over the Towpath -/

theorem exec_registerWrite_towpath {s : State} {t : RegTarget} {off : Nat} (v : BitVec 64) (ht : t ≠ .bar0)
    (halive : alive s.m = true) (halign : off % 4 = 0) :
    exec (.registerWrite t off false v) s = .next { s with m := regWord s.m t off (lowWord v) } := by
  rw [exec_registerWrite, ← regWrite_narrow halign]
  cases t with
  | bar0 => exact absurd rfl ht
  | cluster cl b => exact next_of_eq (if_pos halive)
  | die d b => exact next_of_eq (if_pos halive)
  | pke => exact next_of_eq (if_pos halive)

theorem seqWrite_handle (m : Module) (cl : Nat) {k r : Nat} (hk : k < 8) (hr : r < 16) (v : Word) :
    seqWrite m cl (0x5000 + 64 * k + 4 * r) v = onCl m cl (fun c => onCtx c k (fun y => { y with
      handles := tset 0xFFFFFFFF y.handles r v })) := by
  unfold seqWrite
  rw [if_neg (by omega), if_neg (by omega), if_neg (by simp [isRix]; omega), if_neg (by omega), if_neg (by omega),
    if_pos (by omega), show (0x5000 + 64 * k + 4 * r - 0x5000) / 64 = k by omega,
    show (0x5000 + 64 * k + 4 * r - 0x5000) % 64 / 4 = r by omega]

theorem steWrite_pool (m : Module) (d : Nat) {p : Nat} (hp : p < 1024) (v : Word) : steWrite m d (0x90000 + 32 * p + 16) v =
    onDie m d (fun x => { x with pool := tset 0 x.pool (8 * p + 4) v }) := by
  unfold steWrite
  rw [if_neg (by omega), if_neg (by omega), if_pos (by omega), show (0x90000 + 32 * p + 16 - 0x90000) / 4 = 8 * p + 4 by omega,
    show (0x90000 + 32 * p + 16 - 0x90000) % 32 / 4 = 4 by omega]
  have hmask : maskW v (poolMask 4) = v := BitVec.and_allOnes (x := v)
  rw [hmask]

/-- Settles O19: the two halves of SQ_BASE, and the one register that each other write sets. -/
theorem registerWrites : Obligations.RegisterWrites := by
  intro s v w
  refine ⟨fun i hopen hoff => ?ring, fun hopen => ⟨?evt, ?evtEn⟩, fun halive => ⟨fun cl k r => ?handle, fun d p => ?pool, ?ien⟩⟩
  case ring =>
    have hlow := ringRegWrite_sqLow (m := s.m) (i := i) (lowWord v)
    have hhigh (x : Word) := ringRegWrite_sqHigh (m := onQuay s.m (fun q => { q with
      half := tset none q.half (sqBaseKey i) (some (lowWord v)) })) (i := i) x hoff (tget_tset_same _)
    have hring (x : Word) : ringAt (ringRegWrite (onQuay s.m (fun q => { q with
        half := tset none q.half (sqBaseKey i) (some (lowWord v)) })) (0x100000 + 64 * i + 4) x) i =
          { ringAt s.m i with sqBase := x ++ lowWord v } := by
      rw [hhigh, ringAt_onRing_same]
      rfl
    have hopen' := ringsOpen_onQuay_half hopen (tset none s.m.quay.half (sqBaseKey i) (some (lowWord v)))
    have hwide := exec_registerWrite_ring_wide (i := i) hopen (o := 0) (by decide) rfl v hlow hopen.2
    rw [Nat.add_zero] at hwide
    have hnarrow := exec_registerWrite_ring (i := i) hopen (o := 0) (by decide) rfl v
    rw [hlow, Nat.add_zero] at hnarrow
    have hupper := exec_registerWrite_ring (s := { s with m := onQuay s.m (fun q => { q with
      half := tset none q.half (sqBaseKey i) (some (lowWord v)) }) }) (i := i) hopen' (o := 4) (by decide) rfl w
    rw [show 0x100000 + 64 * i.val + 4 = 0x100004 + 64 * i.val by omega] at hupper
    refine ⟨⟨_, hwide, ?_, fun j hj => ?_⟩, ⟨_, _, hnarrow, fun j => rfl, hupper, ?_⟩⟩
    · rw [hring, highWord_append_lowWord]
    · rw [hhigh, ringAt_onRing_ne _ _ _ _ hj]
      rfl
    · have hw := hring (lowWord w)
      rw [show 0x100000 + 64 * i.val + 4 = 0x100004 + 64 * i.val by omega] at hw
      rw [hw, lowWord_eq, lowWord_eq]
  case evt =>
    rw [exec_registerWrite_aligned v hopen rfl, regWrite_narrow rfl]
    refine next_of_eq (?_ : onQuay s.m (fun q => { q with evt := q.evt &&& ~~~(BitVec.ofNat 7 (lowWord v).toNat) }) = _)
    rw [ofNat_lowWord v (by decide)]
    rfl
  case evtEn =>
    rw [exec_registerWrite_aligned v hopen rfl, regWrite_narrow rfl]
    refine next_of_eq (?_ : onQuay s.m (fun q => { q with evtEn := BitVec.ofNat 7 (lowWord v).toNat }) = _)
    rw [ofNat_lowWord v (by decide)]
    rfl
  case handle =>
    have hstep := exec_registerWrite_towpath (t := .cluster cl .seq) (off := 0x5000 + 64 * k.val + 4 * r.val) v nofun
      halive (by omega)
    rw [show regWord s.m (.cluster cl .seq) (0x5000 + 64 * k.val + 4 * r.val) (lowWord v) = _ from
      seqWrite_handle s.m cl k.isLt r.isLt (lowWord v)] at hstep
    refine ⟨_, hstep, onCl_onlyCl _ _ _, tset 0xFFFFFFFF (ctxOf (clAt s.m cl) k).handles r (lowWord v), ?_, ?_,
      fun q hq => tget_tset_ne _ hq⟩
    · rw [clAt_onCl_same]
      rfl
    · rw [tget_tset_same, lowWord_eq]
  case pool =>
    have hstep := exec_registerWrite_towpath (t := .die d .ste) (off := 0x90000 + 32 * p.val + 16) v nofun halive
      (by omega)
    rw [show regWord s.m (.die d .ste) (0x90000 + 32 * p.val + 16) (lowWord v) = _ from
      steWrite_pool s.m d p.isLt (lowWord v)] at hstep
    refine ⟨_, hstep, onDie_onlyDie _ _ _, tset 0 (dieAt s.m d).pool (8 * p + 4) (lowWord v), ?_, ?_,
      fun q hq => tget_tset_ne _ hq⟩
    · rw [dieAt_onDie_same]
    · rw [tget_tset_same, lowWord_eq]
  case ien =>
    rw [exec_registerWrite_towpath (t := .pke) (off := 0x30) v nofun halive rfl]
    refine next_of_eq (?_ : onPke s.m (fun k => { k with ien := BitVec.ofNat 2 (lowWord v).toNat }) = _)
    rw [ofNat_lowWord v (by decide)]
    rfl

end Sys2Proof.Machine
end

section
/-! PROOFS. Frequency, power and the watchdogs (R535, R645, R646, R653, R654, R655, R661, R668). -/
namespace Sys2Proof.Machine
open Sys2Proof Sys2Proof.Certificates

/-! ## Events -/

section
variable (m : Module) (i : Nat)

/-- An event sets its bit of GLB_EVT, may send or note an interrupt and assert WAKE#, and leaves all else. -/
theorem raiseEvt_only : raiseEvt m i = { m with
    quay := (raiseEvt m i).quay, hedge := { m.hedge with wake := (raiseEvt m i).hedge.wake }, msixOut := (raiseEvt m i).msixOut } := by
  unfold raiseEvt signalVec
  dsimp only
  split
  · split
    · split <;> rfl
    · split <;> rfl
  · rfl

theorem dieAt_raiseEvt (d : Nat) : dieAt (raiseEvt m i) d = dieAt m d := by
  rw [raiseEvt_only]
  rfl

end

/-! ## Frequency -/

section
variable (m : Module) (d : Nat)

/-- The next frequency on the way from `x` to `t`, 25 MHz at a time. -/
def stepTowards (x t : Nat) : Nat := if x < t then min t (x + 25) else max t (x - 25)

/-- The die after a step of its clock. -/
def aclkStepped : Module := onDie m d (fun x => { x with
  mhz := stepTowards (dieAt m d).mhz (dieTarget m d),
  mV := max x.mV (vOf m.hedge d (stepTowards (dieAt m d).mhz (dieTarget m d))) })

theorem aclkStepOf_there (h : (dieAt m d).mhz = dieTarget m d) : aclkStepOf m d = m := if_pos (by simp [h])

theorem aclkStepOf_away (halive : alive m = true) (hrail : (dieAt m d).railOn = true) (h : (dieAt m d).mhz ≠ dieTarget m d) :
    aclkStepOf m d = if stepTowards (dieAt m d).mhz (dieTarget m d) < m.hedge.rate
      ∧ stepTowards (dieAt m d).mhz (dieTarget m d) < (dieAt m d).mhz
      then raiseEvt (aclkStepped m d) 3 else aclkStepped m d := by
  unfold aclkStepOf
  dsimp only
  rw [if_neg (by simp [halive, hrail, h])]
  rfl

theorem dieAt_aclkStepped : dieAt (aclkStepped m d) d = { dieAt m d with
    mhz := stepTowards (dieAt m d).mhz (dieTarget m d),
    mV := max (dieAt m d).mV (vOf m.hedge d (stepTowards (dieAt m d).mhz (dieTarget m d))) } := dieAt_onDie_same ..

/-- What a step leaves: the die at the next frequency, and bit 3 of GLB_EVT when it fell below the committed rate. -/
theorem aclkStepOf_leaves (halive : alive m = true) (hrail : (dieAt m d).railOn = true) (h : (dieAt m d).mhz ≠ dieTarget m d) :
    (∀ e, dieAt (aclkStepOf m d) e = dieAt (aclkStepped m d) e) ∧ (aclkStepOf m d).clusters = m.clusters
      ∧ (aclkStepOf m d).stks = m.stks ∧ (aclkStepOf m d).quay.evt =
        if stepTowards (dieAt m d).mhz (dieTarget m d) < m.hedge.rate
          ∧ stepTowards (dieAt m d).mhz (dieTarget m d) < (dieAt m d).mhz then m.quay.evt ||| 8 else m.quay.evt := by
  rw [aclkStepOf_away m d halive hrail h]
  split
  · exact ⟨fun e => dieAt_raiseEvt _ _ e, by rw [raiseEvt_only]; rfl, by rw [raiseEvt_only]; rfl, raiseEvt_evt _ _⟩
  · exact ⟨fun e => rfl, rfl, rfl, rfl⟩

end

/-! ## Readings -/

/-- The table of readings after those of a list. -/
def readingsAfter (rs : List RailReading) (t : Tab Nat) : Tab Nat :=
  rs.foldl (fun t r => tset 0 (tset 0 t (2 * r.rail) r.mV) (2 * r.rail + 1) r.mA) t

theorem tget_readingsAfter_other {rs : List RailReading} {q : Nat} (h : q / 2 ∉ rs.map (·.rail)) (t : Tab Nat) :
    tget 0 (readingsAfter rs t) q = tget 0 t q := by
  induction rs generalizing t with
  | nil => rfl
  | cons r rs ih =>
    rw [List.map_cons, List.mem_cons, not_or] at h
    obtain ⟨hr, hrs⟩ := h
    refine (ih hrs _).trans ?_
    rw [tget_tset_ne _ (by omega), tget_tset_ne _ (by omega)]

/-- Each rail of a poll reads as the poll gave it. -/
theorem tget_readingsAfter {rs : List RailReading} (hrs : (rs.map (·.rail)).Nodup) (t : Tab Nat) {r : RailReading} (hr : r ∈ rs) :
    tget 0 (readingsAfter rs t) (2 * r.rail) = r.mV ∧ tget 0 (readingsAfter rs t) (2 * r.rail + 1) = r.mA := by
  induction rs generalizing t with
  | nil => exact absurd hr List.not_mem_nil
  | cons r' rs ih =>
    rw [List.map_cons, List.nodup_cons] at hrs
    rcases List.mem_cons.1 hr with rfl | hr
    · have hlo := tget_readingsAfter_other (q := 2 * r.rail) (by rw [show 2 * r.rail / 2 = r.rail by omega]; exact hrs.1)
        (tset 0 (tset 0 t (2 * r.rail) r.mV) (2 * r.rail + 1) r.mA)
      have hhi := tget_readingsAfter_other (q := 2 * r.rail + 1) (by rw [show (2 * r.rail + 1) / 2 = r.rail by omega]; exact hrs.1)
        (tset 0 (tset 0 t (2 * r.rail) r.mV) (2 * r.rail + 1) r.mA)
      refine ⟨hlo.trans ?_, hhi.trans (tget_tset_same _)⟩
      rw [tget_tset_ne _ (by omega), tget_tset_same]
    · exact ih hrs.2 _ hr

/-! ## Watchdogs -/

theorem alive_of_running {m : Module} (h : m.hedge.boot = .running) : alive m = true := by
  simp [alive, h]

/-- A warm reset that a watchdog asks for: jobs, keys and plans are lost, and no host write happens. -/
theorem warmResetStep_lost {m : Module} (h : m.hedge.boot = .running) :
    LostAtReset (warmResetStep m true) ∧ (warmResetStep m true).hostOut = m.hostOut := by
  obtain ⟨hlost, hout, -⟩ := warmReset_leaves true (m := m) (by rw [h]; decide)
  rw [warmResetStep_alive true (alive_of_running h)]
  exact ⟨hlost, hout⟩

theorem dieAt_setClocks (m : Module) (on : Bool) {d : Nat} (h : d < 8) : dieAt (setClocks m on) d = { dieAt m d with clocks := on } :=
  tget_tabOf _ _ h

theorem not_idleEntry {m : Module} (h : workBegun m = true ∨ anyFence m = true) : idleEntryStep m = m := by
  refine if_neg fun hidle => ?_
  obtain ⟨-, -, hwork, hfence⟩ := hidle
  rcases h with h | h
  · exact Bool.false_ne_true (hwork.symm.trans h)
  · exact Bool.false_ne_true (hfence.symm.trans h)

/-- Settles O52, by what each command leaves; the watchdogs are the warm reset of `warmReset_leaves`. -/
theorem powerAndClocks : Obligations.PowerAndClocks := by
  intro s
  refine ⟨fun d => ?aclk, fun rs w hrs => ⟨_, rfl, rfl, rfl, rfl, rfl, fun r hr => tget_readingsAfter hrs _ hr⟩,
    ⟨_, rfl, rfl, rfl⟩, ⟨_, rfl, rfl, rfl⟩,
    fun hpower hboot hwork hfence => ⟨_, next_of_eq (if_pos ⟨hpower, hboot, hwork, hfence⟩), rfl,
      fun d hd => dieAt_setClocks _ _ hd, rfl, rfl⟩, fun h => next_of_eq (not_idleEntry h),
    fun hpower hwork => ⟨_, next_of_eq (if_pos ⟨hpower, hwork⟩), rfl, fun d hd => dieAt_setClocks _ _ hd, rfl, rfl⟩,
    fun hwork => next_of_eq (if_neg fun h => Bool.false_ne_true (hwork.symm.trans h.2)), fun hboot => ?firmware, rfl,
    fun hboot hlate => ?planner, fun hearly => next_of_eq (if_neg fun h => absurd h.2 (Nat.not_le.2 hearly))⟩
  case aclk =>
    intro x t f
    refine ⟨fun h => next_of_eq (aclkStepOf_there s.m d h), fun halive hrail h => ?_⟩
    obtain ⟨hdies, hclusters, hstks, hevt⟩ := aclkStepOf_leaves s.m d halive hrail h
    exact ⟨_, rfl, (hdies d).trans (dieAt_aclkStepped s.m d), fun e he => (hdies e).trans (dieAt_onDie_ne _ _ _ _ he), hclusters,
      hstks, hevt⟩
  case firmware =>
    obtain ⟨hlost, hout⟩ := warmResetStep_lost (m := countInterrupt (logLater s.m (warmEvent 1))) hboot
    exact ⟨_, next_of_eq (if_pos hboot), hlost, hout⟩
  case planner =>
    obtain ⟨hlost, hout⟩ := warmResetStep_lost (m := countInterrupt (logLater s.m (warmEvent 2))) hboot
    exact ⟨_, next_of_eq (if_pos ⟨hboot, hlate⟩), hlost, hout⟩

end Sys2Proof.Machine
end

section
/-! PROOFS. The sideband (R591, R620 to R623, R671): sensors, the firmware update and its directory, and the events. -/
namespace Sys2Proof.Machine
open Sys2Proof Sys2Proof.Certificates

section
variable (m : Module)

theorem updateServed_iff : updateServed m = true ↔ m.hedge.boot = .running ∨ m.hedge.boot = .recovery := decide_eq_true_iff

/-- The slot that update data goes to: that of the update, and the inactive one when it begins. -/
def updateSlot (h : Hedge) : Nat := match h.update with
  | some u => u.slot
  | none => 1 - activeSlot h.flash

theorem updateDataStep_serves {off : Nat} {bs : List Byte} (hserve : updateServed m = true) (hlc : m.hedge.lifecycle = none)
    (hfit : off + bs.length ≤ 2 ^ 21) : updateDataStep m off bs = onHedge m (fun h => { h with
      update := some { slot := updateSlot m.hedge, verified := false },
      flash := mput h.flash (slotBase (updateSlot m.hedge) + off) bs }) := by
  unfold updateDataStep
  rw [if_neg (by simp [hserve, hlc]; omega)]
  rfl

theorem updateDataStep_beyond {off : Nat} {bs : List Byte} (h : 2 ^ 21 < off + bs.length) : updateDataStep m off bs = m :=
  if_pos (by simp; exact .inr h)

theorem verifyStep_serves {u : Update} (hu : m.hedge.update = some u) (hserve : updateServed m = true) : verifyStep m =
    onHedge m (fun h => { h with update := some { u with verified := decide (imageCheck h.fuses h.flash u.slot = 0) } }) := by
  unfold verifyStep
  rw [hu]
  exact if_pos hserve

theorem activateStep_unverified {u : Update} (hu : m.hedge.update = some u) (hv : u.verified = false) : activateStep m = m := by
  unfold activateStep
  rw [hu]
  exact if_neg (by simp [hv])

theorem activateStep_verified {u : Update} (hu : m.hedge.update = some u) (hserve : updateServed m = true) (hv : u.verified = true) :
    activateStep m = onHedge m (fun h => { h with update := none, flash := setDirectory h.flash u.slot }) := by
  unfold activateStep
  rw [hu]
  exact if_pos (by simp [hserve, hv])

theorem verifyStep_idle (hu : m.hedge.update = none) : verifyStep m = m := by
  unfold verifyStep
  rw [hu]

theorem activateStep_idle (hu : m.hedge.update = none) : activateStep m = m := by
  unfold activateStep
  rw [hu]

end

theorem dropUpdate_idle {h : Hedge} (hu : h.update = none) : dropUpdate h = h := by
  unfold dropUpdate
  rw [hu]

theorem dropUpdate_eq (h : Hedge) : dropUpdate h = { h with update := none, flash := (dropUpdate h).flash } := by
  cases hu : h.update with
  | none => rw [dropUpdate_idle hu, ← hu]
  | some u =>
    unfold dropUpdate
    rw [hu]

/-- The flash copy that a change of the directory writes, and its SEQ. -/
def directoryPlace (flash : Mem) : Nat × Nat := match dirInForce flash with
  | some i => (1 - i, field (dirCopy flash i) 8 4 + 1)
  | none => (0, 0)

theorem directoryPlace_le (flash : Mem) : (directoryPlace flash).1 ≤ 1 := by
  unfold directoryPlace
  split
  · exact Nat.sub_le 1 _
  · exact Nat.zero_le 1

/-- A change of the directory writes one copy of 64 bytes below the margin record (R591). -/
theorem mget_setDirectory {flash : Mem} (slot : Nat) {a : Nat} (hf : memWf flash = true) (ha : 0x20000 ≤ a) :
    mget (setDirectory flash slot) a = mget flash a := by
  have hdir : setDirectory flash slot = mput flash (0x10000 * (directoryPlace flash).1) (withCrc (leBytes 4 0x5249445A ++ leBytes 1 1
      ++ leBytes 1 slot ++ zeros 2 ++ leBytes 4 (directoryPlace flash).2 ++ zeros 48)) := rfl
  have hplace := directoryPlace_le flash
  rw [hdir, mget_mput _ _ _ hf, if_neg]
  simp only [withCrc, zeros, List.length_append, leBytes_length, List.length_replicate]
  omega

/-- Settles O55: each command of the sideband by the fields of the Hedge it sets. -/
theorem sidebandCommands : Obligations.SidebandCommands := by
  intro s h
  refine ⟨fun k halive => ⟨_, next_of_eq (if_pos halive), rfl, rfl⟩, fun off bs hserve hlc hfit => ?data,
    fun off bs hbeyond => next_of_eq (updateDataStep_beyond s.m hbeyond),
    fun u hu hserve => ⟨?verify, fun hv => ?stays, fun hv hslot hf => ?activate⟩,
    fun hu => ⟨next_of_eq (verifyStep_idle s.m hu), next_of_eq (activateStep_idle s.m hu), ?cancelIdle⟩,
    ⟨_, rfl, rfl, ?_, dropUpdate_eq h⟩, fun e halive => next_of_eq (if_pos halive), ?event⟩
  case data =>
    intro slot
    refine ⟨_, next_of_eq (updateDataStep_serves s.m ((updateServed_iff s.m).2 hserve) hlc hfit), rfl, rfl, fun hf a => ?_⟩
    exact mget_mput _ _ _ hf
  case verify =>
    exact ⟨_, next_of_eq (verifyStep_serves s.m hu ((updateServed_iff s.m).2 hserve)), rfl, rfl⟩
  case stays => exact next_of_eq (activateStep_unverified s.m hu hv)
  case activate =>
    exact ⟨_, next_of_eq (activateStep_verified s.m hu ((updateServed_iff s.m).2 hserve) hv), rfl, rfl, rfl,
      fun a ha => mget_setDirectory _ hf ha⟩
  case cancelIdle =>
    refine next_of_eq (n := s.m) ?_
    unfold onHedge
    rw [dropUpdate_idle hu]
  case event =>
    refine next_of_eq (congrArg (fun b => onHedge s.m (fun h => { h with events := h.events.drop 1, alert := b })) ?_)
    cases s.m.hedge.events with
    | nil => rfl
    | cons e es => cases es <;> simp
  · rw [show (onHedge s.m dropUpdate).hedge = _ from dropUpdate_eq h]

end Sys2Proof.Machine
end

section
/-! PROOFS. The SPDM responder, IDE key management and DOE (R577 to R579, R605 to R607): a request answers with one code and one
change of the responder's state, or with ERROR. -/
namespace Sys2Proof.Machine
open Sys2Proof Sys2Proof.Certificates

/-- Module `k` differs from `m` in the responder's state, which is `p`, the free values and what the DRBG has given. -/
def OnlySpdm (m k : Module) (p : Spdm) : Prop :=
  k.ep = { m.ep with spdm := p } ∧ k.quay = m.quay ∧ k.clusters = m.clusters
    ∧ k.hedge = { m.hedge with drbgCount := k.hedge.drbgCount, drbgGens := k.hedge.drbgGens }

section
variable {s : State} {c : Instr} {p : Spdm}

theorem replies_of_reply {k : Module} {code : Nat} {body : List Byte} (hk : OnlySpdm s.m k p)
    (hexec : exec c s = .next { s with m := spdmReply k code body }) : Replies c s (BitVec.ofNat 8 code) p := by
  obtain ⟨hep, hquay, hclusters, hhedge⟩ := hk
  refine ⟨_, body, hexec, ?_, ?_, hquay, hclusters, hhedge⟩
  · unfold spdmReply onSpdm onEp
    dsimp only
    rw [hep]
  · unfold spdmReply onSpdm onEp
    dsimp only
    rw [hep]

theorem replies_of_fail {k : Module} {e : Nat} (hk : OnlySpdm s.m k p) (hexec : exec c s = .next { s with m := spdmFail k e }) :
    Replies c s 0x7F p := replies_of_reply hk hexec

theorem onlySpdm_refl (m : Module) : OnlySpdm m m m.ep.spdm := ⟨rfl, rfl, rfl, rfl⟩

variable (hrun : s.m.hedge.boot = .running) {b : Bool} {f : Module → Module}
include hrun

theorem spdmWhen_served (hb : b = true) : spdmWhen s.m b f = f s.m := by
  unfold spdmWhen spdmServe
  exact (if_pos hrun).trans (if_pos hb)

theorem spdmWhen_refused (hb : b = false) : spdmWhen s.m b f = spdmFail s.m errUnexpected := by
  unfold spdmWhen spdmServe
  exact (if_pos hrun).trans (if_neg (ne_true_of_eq_false hb))

/-- A request out of order answers ERROR and changes nothing else. -/
theorem replies_refused (hexec : exec c s = .next { s with m := spdmWhen s.m b f }) (hb : b = false) :
    Replies c s 0x7F s.m.ep.spdm :=
  replies_of_fail (onlySpdm_refl s.m) (hexec.trans (next_of_eq (spdmWhen_refused hrun hb)))

/-- A request that is served and whose check fails answers ERROR. -/
theorem replies_invalid {k : Module} {e : Nat} (hexec : exec c s = .next { s with m := spdmWhen s.m b f }) (hb : b = true)
    (hk : OnlySpdm s.m k p) (hf : f s.m = spdmFail k e) : Replies c s 0x7F p :=
  replies_of_fail hk (hexec.trans (next_of_eq ((spdmWhen_served hrun hb).trans hf)))

/-- A request that is served answers its code. -/
theorem replies_served {k : Module} {code : Nat} {body : List Byte} (hexec : exec c s = .next { s with m := spdmWhen s.m b f })
    (hb : b = true) (hk : OnlySpdm s.m k p) (hf : f s.m = spdmReply k code body) : Replies c s (BitVec.ofNat 8 code) p :=
  replies_of_reply hk (hexec.trans (next_of_eq ((spdmWhen_served hrun hb).trans hf)))

end

/-- The IDE streams after a message that applies. -/
theorem ideStep_applies {s : State} {stream : Nat} {op : IdeOp} {y : IdeStream} (hrun : s.m.hedge.boot = .running)
    (hsession : s.m.ep.spdm.session = true) (hy : ideApply (tget {} s.m.ep.ide stream) op = some y) : ideStep s.m stream op =
      spdmReply (onEp s.m (fun e => { e with ide := tset {} e.ide stream y })) 0x7E [] := by
  unfold ideStep
  rw [spdmWhen_served hrun hsession]
  rw [hy]

theorem replies_ideKm_invalid {s : State} {i : Fin 5} {op : IdeOp} (hrun : s.m.hedge.boot = .running)
    (hsession : s.m.ep.spdm.session = true) (hnone : ideApply (tget {} s.m.ep.ide i) op = none) :
    Replies (.ideKm i op) s 0x7F s.m.ep.spdm := by
  refine replies_invalid hrun rfl hsession (onlySpdm_refl s.m) (e := errInvalid) ?_
  rw [hnone]

/-- The message gives the stream the state that R577 names for it. -/
theorem ideApply_of {x y : IdeStream} {op : IdeOp} (h : (∃ key, op = .program key ∧ key.length = 32 ∧ y = { x with key := key })
    ∨ (op = .go ∧ x.key ≠ [] ∧ y = { x with secure := true }) ∨ (op = .stop ∧ y = {})) : ideApply x op = some y := by
  rcases h with ⟨key, rfl, hlen, rfl⟩ | ⟨rfl, hkey, rfl⟩ | ⟨rfl, rfl⟩
  · exact if_pos hlen
  · exact if_neg hkey
  · rfl

/-- Settles O56: each request is served or refused by its condition (`replies_served`, `replies_refused`). -/
theorem spdmCommands : Obligations.SpdmCommands := by
  intro s hrun p neg ak
  refine ⟨?version, fun f => ⟨?caps, ?noCaps⟩, fun a => ⟨?algs, ?noAlgs⟩, fun h => ⟨?digests, fun off len hoff => ?cert⟩,
    fun h => ⟨replies_refused hrun rfl h, fun sl off len => replies_refused hrun rfl h⟩, fun sl off len hsl => ?slot,
    fun nonce hlen => ⟨fun h => ?challenge, fun h => replies_refused hrun rfl h, fun signed i hi hneg hsign => ?meas⟩,
    fun share => ?kex, fun h g => replies_refused hrun rfl h, fun h => ⟨?finish, ?badFinish⟩,
    fun h => ⟨replies_refused hrun rfl h, replies_refused hrun rfl h, replies_refused hrun rfl h,
      fun i op => replies_refused hrun rfl h⟩,
    fun h => ⟨?heartbeat, ?update, ?close, fun i => ?ide⟩, ⟨_, rfl, rfl, rfl⟩, fun i => ?doe⟩
  case version =>
    exact replies_of_reply (k := onSpdm s.m (fun _ => { version := true })) ⟨rfl, rfl, rfl, rfl⟩ (next_of_eq (if_pos hrun))
  case caps =>
    intro hv halgs
    exact replies_served hrun rfl (by
        simp [negotiated, show s.m.ep.spdm.version = true from hv, show s.m.ep.spdm.algs = none from halgs])
      (k := onSpdm (takeBytes s.m 4).2 (fun p => { p with caps := some f })) ⟨rfl, rfl, rfl, rfl⟩ rfl
  case noCaps =>
    intro hv
    refine replies_refused hrun rfl ?_
    rcases hv with hv | halgs
    · rw [show s.m.ep.spdm.version = false from hv]; rfl
    · simp [negotiated, Option.isSome_iff_ne_none.2 (show s.m.ep.spdm.algs ≠ none from halgs)]
  case algs =>
    intro hcaps halgs
    exact replies_served hrun rfl (by
        simp [negotiated, Option.isSome_iff_ne_none.2 (show s.m.ep.spdm.caps ≠ none from hcaps),
          show s.m.ep.spdm.algs = none from halgs])
      (k := onSpdm s.m (fun p => { p with algs := some (a &&& 0xF) })) ⟨rfl, rfl, rfl, rfl⟩ rfl
  case noAlgs =>
    intro hv
    refine replies_refused hrun rfl ?_
    rcases hv with hcaps | halgs
    · rw [show s.m.ep.spdm.caps = none from hcaps]; rfl
    · simp [negotiated, Option.isSome_iff_ne_none.2 (show s.m.ep.spdm.algs ≠ none from halgs)]
  case digests => exact replies_served hrun rfl h (onlySpdm_refl s.m) rfl
  case cert =>
    exact replies_served hrun rfl h (onlySpdm_refl s.m) (if_neg (by
      rintro (h | h)
      · exact h rfl
      · omega))
  case slot =>
    cases hc : (negotiated s.m && s.m.hedge.ak.isSome) with
    | false => exact replies_refused hrun rfl hc
    | true => exact replies_invalid hrun rfl hc (onlySpdm_refl s.m) (if_pos (.inl hsl))
  case challenge =>
    refine replies_served hrun rfl h (k := (takeBytes (spdmDraw s.m).2 64).2) ⟨rfl, rfl, rfl, rfl⟩ (if_neg ?_)
    rintro (h | h)
    · exact h rfl
    · exact h hlen
  case meas =>
    have hc : (negotiated s.m && (!signed || canSign s.m)) = true := by
      cases signed with
      | false => simp [show negotiated s.m = true from hneg]
      | true => simp [show negotiated s.m = true from hneg, hsign rfl]
    have hbad : ¬ ((signed && decide (nonce.length ≠ 32)) || decide (7 < i.toNat ∧ i.toNat < 255)) = true := by
      rcases hi with hi | rfl
      · simp [hlen]; omega
      · simp [hlen]
    cases signed with
    | false => exact replies_served hrun rfl hc (k := (spdmDraw s.m).2) ⟨rfl, rfl, rfl, rfl⟩ (if_neg hbad)
    | true => exact replies_served hrun rfl hc (k := (takeBytes (spdmDraw s.m).2 64).2) ⟨rfl, rfl, rfl, rfl⟩ (if_neg hbad)
  case kex =>
    intro ready
    refine ⟨fun h => replies_refused hrun rfl h,
      fun h hs => replies_invalid hrun rfl h (onlySpdm_refl s.m) (if_pos hs), fun h hs hbad => ?_, fun h hs hlen hgood => ?_⟩
    · refine replies_invalid hrun rfl h (e := errInvalid) (k := onSpdm s.m (fun p => { p with keying := false, share := [] }))
        ⟨rfl, rfl, rfl, rfl⟩ ?_
      exact (if_neg (ne_true_of_eq_false hs)).trans (if_pos hbad)
    · refine ⟨(Config.drbg s.m.hedge.drbgCount).toNat % (p256n - 1) + 1, Nat.le_add_left _ _, ?_, ?_⟩
      · have hmod := Nat.mod_lt (Config.drbg s.m.hedge.drbgCount).toNat (show 0 < p256n - 1 by decide)
        have hpos : 0 < p256n := by decide
        omega
      · refine replies_served hrun rfl h (k := onSpdm (takeBytes (spdmDraw s.m).2 64).2 (fun p => { p with
          keying := true, keyUpdates := 0,
          share := beBytes 32 (mulP256 ((Config.drbg s.m.hedge.drbgCount).toNat % (p256n - 1) + 1) (sharePoint share)).1 }))
          ⟨rfl, rfl, rfl, rfl⟩ ((if_neg (ne_true_of_eq_false hs)).trans (if_neg ?_))
        rintro (h | h)
        · exact h hlen
        · exact h hgood
  case finish =>
    exact replies_served hrun rfl h (k := onSpdm s.m (fun p => { p with keying := false, session := true }))
      ⟨rfl, rfl, rfl, rfl⟩ rfl
  case badFinish =>
    exact replies_invalid hrun rfl h (k := onSpdm s.m (fun p => { p with keying := false, share := [] })) ⟨rfl, rfl, rfl, rfl⟩ rfl
  case heartbeat => exact replies_served hrun rfl h (onlySpdm_refl s.m) rfl
  case update =>
    exact replies_served hrun rfl h (k := onSpdm s.m (fun p => { p with keyUpdates := p.keyUpdates + 1 })) ⟨rfl, rfl, rfl, rfl⟩ rfl
  case close =>
    exact replies_served hrun rfl h (k := onSpdm s.m (fun p => { p with session := false, share := [], keyUpdates := 0 }))
      ⟨rfl, rfl, rfl, rfl⟩ rfl
  case ide =>
    intro x
    exact ⟨fun key hkey => replies_ideKm_invalid hrun h (if_neg hkey), fun hkey => replies_ideKm_invalid hrun h (if_pos hkey),
      fun op y hop => ⟨_, next_of_eq (ideStep_applies hrun h (ideApply_of hop)), tget_tset_same _,
        fun q hq => tget_tset_ne _ hq, rfl⟩⟩
  case doe =>
    have halive := alive_of_running hrun
    refine ⟨_, if i.toNat ≤ 2 then leBytes 2 1 ++ leBytes 1 i.toNat ++ leBytes 1 ((i.toNat + 1) % 3) else [0xFF, 0xFF, 0xFF, 0],
      next_of_eq (if_pos halive), rfl, rfl, ?_, fun hi => ?_⟩
    · split <;> rfl
    · rw [if_pos hi]
      exact BitVec.ofNat_toNat 8 i |>.trans (BitVec.setWidth_eq i)

end Sys2Proof.Machine
end

section
/-! PROOFS. The memory stacks (R511, R515, R518, R519, R526 to R541): frames, scrub, patrol, fence, wipe, heat, and the places of
offsets. -/
namespace Sys2Proof.Machine
open Sys2Proof Sys2Proof.Certificates

/-! ## Parts of a table -/

/-- A place of a part of a canonical table, chosen by place: what the table holds when the place is in the part, else nothing. -/
theorem tget_filter {α : Type} [DecidableEq α] {d : α} (q : Nat → Bool) (k : Nat) :
    ∀ {t : Tab α} {lo : Nat}, twfFrom d lo t = true →
      tget d (t.filter (fun p => q p.1)) k = if q k then tget d t k else d
  | [], _, _ => by
    rw [List.filter_nil]
    split <;> rfl
  | (j, v) :: t, lo, h => by
    simp only [twfFrom, Bool.and_eq_true, decide_eq_true_eq] at h
    obtain ⟨-, ht⟩ := h
    have ih := tget_filter q k ht
    rw [List.filter_cons]
    by_cases hkj : k = j
    · subst hkj
      have hself : tget d ((k, v) :: t) k = v := if_pos rfl
      rw [hself]
      split
      next hq => exact if_pos rfl
      next hq => rw [ih, if_neg hq]
    · have hcons : ∀ u : Tab α, tget d ((j, v) :: u) k = if k < j then d else tget d u k := fun u => if_neg hkj
      by_cases hlt : k < j
      · have hbelow : tget d t k = d := tget_of_lt ht (by omega)
        have hright : (if q k then tget d ((j, v) :: t) k else d) = d := by
          rw [hcons, if_pos hlt, ite_self]
        have hleft : (if q k then tget d t k else d) = d := by rw [hbelow, ite_self]
        rw [hright]
        split
        · rw [hcons, if_pos hlt]
        · rw [ih, hleft]
      · have hright : tget d ((j, v) :: t) k = tget d t k := by rw [hcons, if_neg hlt]
        rw [hright]
        split
        · rw [hcons, if_neg hlt, ih]
        · exact ih

theorem satAdd_zero {w : Nat} (x : BitVec w) : satAdd x 0 = x := by
  unfold satAdd
  rw [if_neg (by have := x.isLt; omega), Nat.add_zero]
  exact (BitVec.ofNat_toNat w x).trans (BitVec.setWidth_eq x)

theorem onStk_onlyStk (m : Module) (i : Nat) (f : Stack → Stack) : OnlyStk m (onStk m i f) i :=
  ⟨rfl, fun _ hj => stkAt_onStk_ne _ _ _ _ hj⟩

theorem stkAt_settleFences (m : Module) (t : Nat) : stkAt (settleFences m) t = stkAt m t := by
  rw [settleFences_eq]
  rfl

/-! ## Frames -/

section
variable (m : Module) (st : Nat)

/-- A flip came at least 16 MCLK cycles ago. -/
def flipDue (t : Nat) : Bool := decide (t + mclkAc (dieAt m (st / 2)).mhz 16 ≤ m.now)

/-- A stack whose shadow map is in force when a flip is due. -/
def mapInForce (s : Stack) : Stack :=
  if s.flips.any (flipDue m st) then { s with map := s.shadow, flips := s.flips.filter (fun t => !flipDue m st t) } else s

/-- A stack at the start of its next frame, its map settled. -/
def nextFrame (s : Stack) : Stack := { s with
  frame := s.frame + 1, refreshed := (List.range 8).map (fun i => (8 * (s.frame + 1) + i) % 64),
  served := ceilDiv (positionsOf s 1 * (100 - s.level.toNat)) 100,
  thrFrames := if s.level ≠ 0 then satAdd s.thrFrames 1 else s.thrFrames,
  slowFrames := if (dieAt m (st / 2)).mhz < m.hedge.rate then satAdd s.slowFrames 1 else s.slowFrames }

theorem frameStep_stopped (h : frameRuns (stkAt m st) = false) : frameStep m st = m := if_pos (by rw [h]; rfl)

theorem frameStep_runs (h : frameRuns (stkAt m st) = true) :
    frameStep m st = onStk m st (fun _ => nextFrame m st (mapInForce m st (stkAt m st))) := if_neg (by rw [h]; simp)

theorem mapInForce_kept (s : Stack) : (mapInForce m st s).frame = s.frame ∧ (mapInForce m st s).mem = s.mem
    ∧ (mapInForce m st s).state = s.state ∧ (mapInForce m st s).level = s.level ∧ (mapInForce m st s).thrFrames = s.thrFrames
    ∧ (mapInForce m st s).slowFrames = s.slowFrames := by
  unfold mapInForce
  split <;> exact ⟨rfl, rfl, rfl, rfl, rfl, rfl⟩

theorem mapInForce_none {s : Stack} (h : ∀ f ∈ s.flips, flipDue m st f = false) : mapInForce m st s = s := by
  unfold mapInForce
  rw [if_neg]
  simpa using h

theorem mapInForce_due {s : Stack} (h : ∃ f ∈ s.flips, flipDue m st f = true) : mapInForce m st s =
    { s with map := s.shadow, flips := s.flips.filter (fun t => !flipDue m st t) } := by
  unfold mapInForce
  rw [if_pos]
  simpa using h

theorem mem_notDue {l : List Nat} {f : Nat} : f ∈ l.filter (fun t => !flipDue m st t) ↔
    f ∈ l ∧ m.now < f + ceilDiv (16 * (dieAt m (st / 2)).mhz) 1250 := by
  rw [List.mem_filter, Bool.not_eq_true', flipDue, decide_eq_false_iff_not, Nat.not_le]
  rfl

end

/-! ## Scrub, patrol, fence and wipe -/

section
variable {s : Stack}

theorem stackRewriteOne_runs {u : Nat} {rest : List Nat} (hs : s.state = 3) (hp : positionsOf s 0 ≠ 0) (hq : s.rewriteQ = u :: rest) :
    stackRewriteOne s = { s with
      rewriteQ := rest, err := if unitBad s u then s.err else s.err.filter (fun p => decide (p.1 ≠ u)) } := by
  unfold stackRewriteOne
  rw [hq]
  exact if_neg (by rintro (h | h); exacts [h hs, hp h])

/-- The units that a read of unit `u` meets, with no fence. -/
theorem unitsHit_unit (hf : s.fence = []) (u : Nat) : unitsHit s (64 * u) 64 = s.err.filter (fun p => decide (p.1 = u)) := by
  unfold unitsHit
  refine List.filter_congr fun p _ => ?_
  have hnf : stkFenced s (64 * p.1) = false := by
    unfold stkFenced
    rw [hf]
    rfl
  rw [hnf, Bool.not_false, Bool.and_true]
  refine decide_eq_decide.2 ⟨fun h => ?_, fun h => ?_⟩ <;> omega

theorem stkSee_clean (st : Nat) {off n : Nat} (h : unitsHit s off n = []) : stkSee st s off n = s := by
  unfold stkSee
  simp [h, satAdd_zero]

theorem stkUnc_clean {off n : Nat} (h : unitsHit s off n = []) : stkUnc s off n = none := by
  unfold stkUnc
  rw [h]
  rfl

theorem stkSee_bad (st : Nat) {off n u w : Nat} (h : unitsHit s off n = [(u, w)]) (hw : 3 < w) : stkSee st s off n = { s with
    eccUnc := satAdd s.eccUnc 1, lastUnc := BitVec.ofNat 41 (st * 2 ^ 37 + 64 * u) } := by
  unfold stkSee
  simp [h, hw, satAdd_zero]

theorem stkUnc_bad {off n u w : Nat} (h : unitsHit s off n = [(u, w)]) (hw : 3 < w) : stkUnc s off n = some u := by
  unfold stkUnc
  simp [h, hw]

end

section
variable {m : Module} {st : Nat} (hs : (stkAt m st).state = 3) (hp : positionsOf (stkAt m st) 0 ≠ 0)
include hs hp

theorem patrolStep_clean (hf : (stkAt m st).fence = []) (h : unitsHit (stkAt m st) (64 * (stkAt m st).patrol) 64 = []) :
    patrolStep m st = onStk m st (patrolOne st) := by
  unfold patrolStep
  dsimp only
  rw [if_neg (by rintro (h | h | h); exacts [h hs, hp h, h hf]), stkUnc_clean h]

theorem patrolStep_bad (hf : (stkAt m st).fence = []) {u w : Nat}
    (h : unitsHit (stkAt m st) (64 * (stkAt m st).patrol) 64 = [(u, w)]) (hw : 3 < w) :
    ∃ e : LogEvent, patrolStep m st = logLater (onStk m st (patrolOne st)) e ∧ e.cls = 2
      ∧ e.addr = BitVec.ofNat 64 (st * 2 ^ 37 + 64 * u) := by
  unfold patrolStep
  dsimp only
  rw [if_neg (by rintro (h | h | h); exacts [h hs, hp h, h hf]), stkUnc_bad h hw]
  exact ⟨_, rfl, rfl, rfl⟩

theorem fenceZeroStep_runs {f : StkFence} {rest : List StkFence} (hf : (stkAt m st).fence = f :: rest) : fenceZeroStep m st =
    settleFences (onStk m st (fun s => { zeroUnits s f.off f.len with fence := rest })) := by
  unfold fenceZeroStep
  dsimp only
  rw [hf]
  exact if_neg (by rintro (h | h); exacts [h hs, hp h])

end

theorem mget_zeroUnits {s : Stack} (off n a : Nat) (h : memWf s.mem = true) : mget (zeroUnits s off n).mem a =
    if off ≤ a ∧ a < off + n then 0 else mget s.mem a := by
  unfold mget zeroUnits
  dsimp only
  rw [tget_filter (fun a => decide (a < off ∨ off + n ≤ a)) a h]
  by_cases hin : off ≤ a ∧ a < off + n
  · rw [if_pos hin, if_neg (by simp; omega)]
  · rw [if_neg hin, if_pos (by simp; omega)]

/-- The wipe of every stack that wipes, before fences settle. -/
theorem stkAt_wipeFold (t : Nat) : ∀ (l : List Nat) (m : Module), l.Nodup →
    stkAt (l.foldl (fun m st => if (stkAt m st).state = 2 then onStk m st wipedStack else m) m) t =
      if t ∈ l ∧ (stkAt m t).state = 2 then wipedStack (stkAt m t) else stkAt m t
  | [], m, _ => by rw [List.foldl_nil, if_neg]; simp
  | st :: l, m, h => by
    obtain ⟨hst, hl⟩ := List.nodup_cons.1 h
    rw [List.foldl_cons, stkAt_wipeFold t l _ hl]
    by_cases hts : t = st
    · subst hts
      rw [if_neg (fun h => hst h.1)]
      by_cases h2 : (stkAt m t).state = 2
      · rw [if_pos h2, stkAt_onStk_same, if_pos ⟨List.mem_cons_self, h2⟩]
      · rw [if_neg h2, if_neg (fun h => h2 h.2)]
    · have hkeep : stkAt (if (stkAt m st).state = 2 then onStk m st wipedStack else m) t = stkAt m t := by
        split
        · exact stkAt_onStk_ne _ _ _ _ hts
        · rfl
      rw [hkeep]
      simp only [List.mem_cons, hts, false_or]

theorem stkAt_stackWipeStep (m : Module) {t : Nat} (ht : t < 16) : stkAt (stackWipeStep m) t =
    if (stkAt m t).state = 2 then wipedStack (stkAt m t) else stkAt m t := by
  unfold stackWipeStep
  rw [stkAt_settleFences, stkAt_wipeFold t _ _ (List.nodup_range)]
  simp only [List.mem_range, ht, true_and]

/-! ## Heat -/

theorem sampleStack_off {s : Stack} (v : BitVec 10) (h : s.state = 0) : sampleStack v s = s := if_pos h

theorem sampleStack_on {s : Stack} (v : BitVec 10) (h : s.state ≠ 0) : sampleStack v s = { s with
    temp := v, tmax := if s.tmax.toNat < v.toNat then v else s.tmax,
    critRun := if v.toNat ≥ 420 then s.critRun + 1 else 0,
    hotRun := if v.toNat ≥ 4 * s.tthrot.toNat then s.hotRun + 1 else 0,
    coolRun := if v.toNat + 8 ≤ 4 * s.tthrot.toNat then s.coolRun + 1 else 0 } := if_neg h

/-! ## Places -/

theorem placeOf_eq (off : Nat) : placeOf off =
    ⟨off / 64 % 64, off / 4096 % 16, off / 65536 % 64, off / 4194304 % 32768, off % 64⟩ := by
  unfold placeOf bits
  simp only [Nat.shiftRight_eq_div_pow]
  norm_num

/-- Every offset of a stack is one byte of one place (R511). -/
theorem offset_placeOf {off : Nat} (h : off < 2 ^ 37) : (placeOf off).offset = off := by
  rw [placeOf_eq]
  unfold StackPlace.offset
  dsimp only
  omega

theorem placeOf_lt (off : Nat) : (placeOf off).pseudo < 64 ∧ (placeOf off).column < 16 ∧ (placeOf off).bank < 64
    ∧ (placeOf off).row < 2 ^ 15 ∧ (placeOf off).byte < 64 := by
  rw [placeOf_eq]
  dsimp only
  omega

/-- Every place is that of its offset. -/
theorem placeOf_offset (p : StackPlace) (hp : p.pseudo < 64) (hc : p.column < 16) (hb : p.bank < 64) (hr : p.row < 2 ^ 15)
    (hy : p.byte < 64) : placeOf p.offset = p := by
  obtain ⟨pseudo, column, bank, row, byte⟩ := p
  rw [placeOf_eq]
  unfold StackPlace.offset
  dsimp only at *
  congr 1 <;> omega

theorem offset_lt (p : StackPlace) (hp : p.pseudo < 64) (hc : p.column < 16) (hb : p.bank < 64) (hr : p.row < 2 ^ 15)
    (hy : p.byte < 64) : p.offset < 2 ^ 37 := by
  unfold StackPlace.offset
  omega

theorem bank_parts (p : StackPlace) (hb : p.bank < 64) : p.bank = 16 * p.stackId + 4 * p.group + p.bankIn := by
  unfold StackPlace.stackId StackPlace.group StackPlace.bankIn bits
  simp only [Nat.shiftRight_eq_div_pow]
  norm_num
  omega

/-- Settles O51: each command by what it makes of its stack, the places by their arithmetic. -/
theorem stackCommands : Obligations.StackCommands := by
  intro s t k mhz runs
  refine ⟨fun h2 h3 => next_of_eq (frameStep_stopped s.m t (decide_eq_false (by rintro (h | h); exacts [h2 h, h3 h]))),
    fun h => ?frame, ⟨_, rfl, onStk_onlyStk _ _ _, stkAt_onStk_same ..⟩, fun u rest hr hq => ?rewrite,
    fun hr hf hclean => ?patrol, fun w hr hf hbad hw => ?patrolBad, fun f rest hr hf => ?fence,
    ⟨_, rfl, fun h => ?wiped, fun h => ?kept⟩, fun v => ⟨_, rfl, onStk_onlyStk _ _ _, fun h => ?off, fun h => ?sample⟩,
    ⟨_, rfl, onStk_onlyStk _ _ _, stkAt_onStk_same ..⟩, ⟨_, rfl, onStk_onlyStk _ _ _, stkAt_onStk_same ..⟩,
    fun off hoff => ⟨offset_placeOf hoff, placeOf_lt off⟩, fun p hp hc hb hrow hy =>
      ⟨placeOf_offset p hp hc hb hrow hy, offset_lt p hp hc hb hrow hy, ?channel, bank_parts p hb⟩⟩
  case frame =>
    refine ⟨_, next_of_eq (frameStep_runs s.m t (decide_eq_true h)), onStk_onlyStk _ _ _, ?_⟩
    rw [stkAt_onStk_same]
    obtain ⟨hframe, hmem, hstate, hlevel, hthr, hslow⟩ := mapInForce_kept s.m t k
    unfold nextFrame
    dsimp only
    rw [hframe, hmem, hstate, hlevel, hthr, hslow]
    refine ⟨rfl, rfl, rfl, rfl, ite_not .., rfl, fun hnone => ?_, fun hdue => ?_⟩
    · rw [mapInForce_none s.m t (fun f hf => decide_eq_false (Nat.not_le.2 (hnone f hf)))]
      exact ⟨rfl, rfl⟩
    · obtain ⟨f, hf, hlate⟩ := hdue
      rw [mapInForce_due s.m t ⟨f, hf, decide_eq_true hlate⟩]
      exact ⟨rfl, fun f => mem_notDue s.m t⟩
  case rewrite =>
    refine ⟨_, rfl, onStk_onlyStk _ _ _, ?_⟩
    rw [stkAt_onStk_same, stackRewriteOne_runs hr.1 hr.2 hq]
    refine ⟨rfl, rfl, ?_⟩
    unfold unitBad
    simp only [decide_eq_true_eq, GT.gt]
  case patrol =>
    have hunits : unitsHit k (64 * k.patrol) 64 = [] := by
      rw [unitsHit_unit hf, List.filter_eq_nil_iff]
      exact fun p hp => by simpa using hclean p hp
    refine ⟨_, next_of_eq (patrolStep_clean hr.1 hr.2 hf hunits), onStk_onlyStk _ _ _, ?_⟩
    rw [stkAt_onStk_same]
    unfold patrolOne
    rw [stkSee_clean t hunits]
  case patrolBad =>
    have hunits : unitsHit k (64 * k.patrol) 64 = [(k.patrol, w)] := by rw [unitsHit_unit hf, hbad]
    obtain ⟨e, hstep, hcls, haddr⟩ := patrolStep_bad hr.1 hr.2 hf hunits hw
    have hstk : stkAt (logLater (onStk s.m t (patrolOne t)) e) t = patrolOne t k := stkAt_onStk_same ..
    refine ⟨_, e, next_of_eq hstep, ?_, ?_, ?_, rfl, hcls, haddr⟩
    · rw [hstk, patrolOne, stkSee_bad t hunits hw]
    · rw [hstk, patrolOne, stkSee_bad t hunits hw]
    · rw [hstk]
      rfl
  case fence =>
    refine ⟨_, next_of_eq (fenceZeroStep_runs hr.1 hr.2 hf), ?_⟩
    simp only [stkAt_settleFences, stkAt_onStk_same]
    exact ⟨trivial, fun hwf a => mget_zeroUnits f.off f.len a hwf, fun q hq => stkAt_onStk_ne _ _ _ _ hq⟩
  case wiped =>
    rw [stkAt_stackWipeStep s.m t.isLt, if_pos h]
    exact ⟨rfl, rfl, rfl, rfl, rfl⟩
  case kept => rw [stkAt_stackWipeStep s.m t.isLt, if_neg h]
  case off => rw [stkAt_onStk_same, sampleStack_off v h]
  case sample =>
    rw [stkAt_onStk_same, sampleStack_on v h]
    refine ⟨rfl, ?_, rfl, rfl, rfl, rfl, rfl⟩
    dsimp only
    split <;> omega
  case channel =>
    unfold StackPlace.channel
    omega

end Sys2Proof.Machine
end

section
/-! PROOFS. Margin reviews, the march test, the persistent log and the entropy source (R608 to R610, R693 to R700, R705, R706). -/
namespace Sys2Proof.Machine
open Sys2Proof Sys2Proof.Certificates

/-! ## Bytes read where they were written -/

theorem mbytes_mput_same {m : Mem} (a : Nat) (bs : List Byte) (h : memWf m = true) : mbytes (mput m a bs) a bs.length = bs := by
  rw [mbytes_eq _ _ (memWf_mput a bs h)]
  refine List.ext_getElem (by simp) fun i hi hi' => ?_
  rw [List.getElem_map, List.getElem_range', mget_mput _ _ _ h, if_pos (by omega)]
  simp [hi']

/-! ## The highest rate step -/

section
variable (ss : List SentinelSample) (fenced : List Nat)

/-- Whether at most two clusters of each die exceed 0.850 V at a step. -/
def stepAllowed (k : Nat) : Bool := (List.range 8).all (fun d => decide ((overAt ss fenced d k).length ≤ 2))

theorem stepAllowed_iff (k : Nat) : stepAllowed ss fenced k = true ↔ ∀ d, d < 8 → (overAt ss fenced d k).length ≤ 2 := by
  simp [stepAllowed]

theorem rateStep_succ (k : Nat) :
    rateStep ss fenced (k + 1) = if stepAllowed ss fenced (k + 1) then k + 1 else rateStep ss fenced k := rfl

/-- `rateStep` is the highest allowed step up to `n`, or 0. -/
theorem rateStep_spec (n : Nat) : rateStep ss fenced n ≤ n ∧ (0 < rateStep ss fenced n → stepAllowed ss fenced (rateStep ss fenced n) = true)
    ∧ ∀ i, rateStep ss fenced n < i → i ≤ n → stepAllowed ss fenced i = false := by
  induction n with
  | zero => exact ⟨le_rfl, fun h => absurd h (lt_irrefl 0), fun i h1 h2 => by have : rateStep ss fenced 0 = 0 := rfl; omega⟩
  | succ n ih =>
    rw [rateStep_succ]
    obtain ⟨hle, hok, habove⟩ := ih
    cases hn : stepAllowed ss fenced (n + 1) with
    | true =>
      rw [if_pos rfl]
      exact ⟨le_rfl, fun _ => hn, fun i h1 h2 => by omega⟩
    | false =>
      rw [if_neg Bool.false_ne_true]
      refine ⟨by omega, hok, fun i h1 h2 => ?_⟩
      rcases Nat.lt_or_ge n i with h | h
      · rw [show i = n + 1 by omega, hn]
      · exact habove i h1 h

end

/-! ## Fencing -/

section
variable (m : Module) (cs : List Nat) (detail : Nat)

theorem mem_growMask_of_fenced {fenced : List Nat} {c : Nat} (h : c ∈ fenced) : c ∈ growMask fenced cs := by
  unfold growMask
  exact List.mem_append_left _ (List.mem_append_left _ h)

theorem mem_growMask_of_more {fenced : List Nat} {c : Nat} (h : c ∈ cs) : c ∈ growMask fenced cs := by
  by_cases hf : c ∈ fenced
  · exact mem_growMask_of_fenced cs hf
  · unfold growMask
    exact List.mem_append_left _ (List.mem_append_right _ (List.mem_filter.2 ⟨h, by simp [hf]⟩))

/-- Fencing grows the mask, takes the fenced clusters off the test lists, logs them, and drops the plans that use them. -/
theorem fenceClusters_eq : ∃ logs plans, fenceClusters m cs detail = { m with
    hedge := { m.hedge with
      fenceMask := growMask m.hedge.fenceMask cs, logQ := logs,
      testing := m.hedge.testing.filter (fun c => !(growMask m.hedge.fenceMask cs).contains c),
      marching := m.hedge.marching.filter (fun c => !(growMask m.hedge.fenceMask cs).contains c) },
    quay := { m.quay with plans := plans } } := by
  unfold fenceClusters
  dsimp only
  rw [logLater_foldl m (fun c => fenceEvent c detail)]
  exact ⟨_, _, rfl⟩

/-- The margin record written changes the flash and its SEQ alone. -/
theorem writeMargin_eq (h : Hedge) : writeMargin h = { h with
    flash := (writeMargin h).flash, marginSeq := (writeMargin h).marginSeq } := rfl

end

/-! ## The margin review -/

section
variable (m : Module) (cause : ReviewCause) (ss : List SentinelSample)

/-- The rate step that a review takes. -/
def reviewStepOf : Nat := rateStep ss m.hedge.fenceMask (stepOf m.hedge.rate)

/-- The rate that a review commits. -/
def reviewRate : Nat :=
  if cause = .slowFrames then max 2000 (2000 + 25 * reviewStepOf m ss - 25) else 2000 + 25 * reviewStepOf m ss

/-- The clusters that a review fences. -/
def reviewFences : List Nat := (List.range 8).flatMap (fun d => overAt ss m.hedge.fenceMask d (reviewStepOf m ss))

theorem raiseEvt_hedge (i : Nat) : (raiseEvt m i).hedge = { m.hedge with wake := (raiseEvt m i).hedge.wake } :=
  congrArg Module.hedge (raiseEvt_only m i)

theorem onDie_fold_kept (f : Nat → Die → Die) (l : List Nat) :
    (l.foldl (fun m d => onDie m d (f d)) m).hedge = m.hedge ∧ (l.foldl (fun m d => onDie m d (f d)) m).quay = m.quay := by
  refine foldl_keeps (fun b : Module => b.hedge = m.hedge ∧ b.quay = m.quay) _ (fun b d hb => ?_) l m ⟨rfl, rfl⟩
  exact hb

/-- The module after a review has fenced its clusters. -/
def reviewFenced : Module := fenceClusters m (reviewFences m ss) 1

/-- V(F) of every die after a review. -/
def reviewTable : List (List Nat) :=
  (List.range 8).map (fun d => vRow ss (reviewFenced m ss).hedge.fenceMask (m.hedge.vtab.getD d []) d)

/-- The Hedge after a review has written its margin record (R694). -/
def reviewHedge : Hedge := writeMargin { (reviewFenced m ss).hedge with
  rate := reviewRate m cause ss, vtab := reviewTable m ss, warn := m.hedge.warn || marginLow (reviewRate m cause ss) (reviewTable m ss),
  reviews := m.hedge.reviews + 1, reviewOpsec := m.hedge.opsec.toNat,
  slowAtReview := tabOf 0 16 (fun s => (stkAt m s).slowFrames), framesAtReview := tabOf 0 16 (fun s => (stkAt m s).frame) }

/-- The module after a review has set the rails, before its events. -/
def reviewRails : Module :=
  (List.range 8).foldl (fun n d => onDie n d (fun x => { x with
      mV := if x.railOn then vOf (reviewHedge m cause ss) d x.mhz else 0 }))
    (logLater { reviewFenced m ss with hedge := reviewHedge m cause ss } (reviewEvent (reviewRate m cause ss)))

theorem reviewOf_eq : reviewOf m cause ss =
    if marginLow (reviewRate m cause ss) (reviewTable m ss) && !m.hedge.warn then raiseEvt (raiseEvt (reviewRails m cause ss) 1) 2
    else raiseEvt (reviewRails m cause ss) 1 := rfl

theorem reviewRails_hedge : (reviewRails m cause ss).hedge = { reviewHedge m cause ss with
    logQ := (reviewHedge m cause ss).logQ ++ [reviewEvent (reviewRate m cause ss)] } :=
  (onDie_fold_kept _ _ _).1

/-- Bit 1 of GLB_EVT is set by event 1 and stays with event 2. -/
theorem evt_event1 (n : Module) : (raiseEvt n 1).quay.evt.getLsbD 1 = true
    ∧ (raiseEvt (raiseEvt n 1) 2).quay.evt.getLsbD 1 = true := by
  simp [raiseEvt_evt]

/-- What the review leaves of the Hedge and of GLB_EVT (R694, R696). -/
theorem reviewOf_leaves : (reviewOf m cause ss).quay.evt.getLsbD 1 = true
    ∧ ∃ wake, (reviewOf m cause ss).hedge = { (reviewRails m cause ss).hedge with wake := wake } := by
  obtain ⟨h1, h2⟩ := evt_event1 (reviewRails m cause ss)
  rw [reviewOf_eq]
  split
  · exact ⟨h2, _, by rw [raiseEvt_hedge, raiseEvt_hedge]⟩
  · exact ⟨h1, _, by rw [raiseEvt_hedge]⟩

theorem reviewFenced_mask : (reviewFenced m ss).hedge.fenceMask = growMask m.hedge.fenceMask (reviewFences m ss) := by
  obtain ⟨logs, plans, h⟩ := fenceClusters_eq m (reviewFences m ss) 1
  unfold reviewFenced
  rw [h]

theorem mem_reviewFences {d c : Nat} (hd : d < 8) (hc : c ∈ overAt ss m.hedge.fenceMask d (reviewStepOf m ss)) :
    c ∈ reviewFences m ss := List.mem_flatMap.2 ⟨d, List.mem_range.2 hd, hc⟩

end

/-! ## The march test -/

section
variable {m : Module} {cl : Nat} (failing : Bool) (ht : cl ∈ m.hedge.testing) (hh : clusterHeld m cl = false)
  (hr : mayRestrict (clAt m cl) = true)
include ht hh hr

/-- The start of a march test: the slice in restricted mode, hashed, and the cluster counted as fenced. -/
def marchStarted (m : Module) (cl : Nat) : Module :=
  onHedge (onCl m cl (fun c => { c with restricted := true, hashoff := false }))
    (fun h => { h with marching := h.marching ++ [cl] })

theorem marchStep_starts (hm : cl ∉ m.hedge.marching) : marchStep m cl failing = marchStarted m cl := by
  unfold marchStep
  rw [if_neg (by simp [ht, hh, hr]), if_pos (by simp [hm])]
  rfl

/-- The end of a march test: the slice wipes and the cluster is tested no more. -/
def marchEnded (m : Module) (cl : Nat) : Module :=
  onHedge (onCl m cl (fun c => { c with restricted := true, hashoff := false, wiping := true })) (fun h => { h with
    testing := h.testing.filter (fun c => decide (c ≠ cl)), marching := h.marching.filter (fun c => decide (c ≠ cl)) })

theorem marchStep_ends (hm : cl ∈ m.hedge.marching) : marchStep m cl failing =
    if failing then { fenceClusters (marchEnded m cl) [cl] 2 with
      hedge := writeMargin (fenceClusters (marchEnded m cl) [cl] 2).hedge }
    else marchEnded m cl := by
  unfold marchStep
  rw [if_neg (by simp [ht, hh, hr]), if_neg (by simp [hm])]
  rfl

end

theorem not_mem_marchEnded (m : Module) (cl : Nat) : cl ∉ (marchEnded m cl).hedge.testing := by
  simp [marchEnded, onHedge]

theorem clAt_marchEnded (m : Module) (cl : Nat) : clAt (marchEnded m cl) cl =
    { clAt m cl with restricted := true, hashoff := false, wiping := true } := by
  unfold marchEnded
  rw [clAt_onHedge, clAt_onCl_same]

theorem clAt_marchStarted (m : Module) (cl : Nat) : clAt (marchStarted m cl) cl =
    { clAt m cl with restricted := true, hashoff := false } := by
  unfold marchStarted
  rw [clAt_onHedge, clAt_onCl_same]

theorem clAt_marchStarted_ne (m : Module) {cl j : Nat} (h : j ≠ cl) : clAt (marchStarted m cl) j = clAt m j := by
  unfold marchStarted
  rw [clAt_onHedge, clAt_onCl_ne _ _ _ _ h]

/-! ## The log -/

theorem logBytes_length (e : LogEvent) (seq : Nat) (opsec : BitVec 64) : (logBytes e seq opsec).length = 64 := by
  have hdata : ((e.data ++ zeros 28).take 28).length = 28 := by
    simp [zeros]
  unfold logBytes withCrc
  simp only [List.length_append, leBytes_length, hdata, List.length_singleton]

/-- A record at a place that begins no sector takes the next SEQ and place, and erases nothing (R705). -/
theorem logAppend_within {h : Hedge} (e : LogEvent) (hpos : h.logPos % 1024 ≠ 0) : logAppend h e = { h with
    flash := mput h.flash (logAt h.logPos) (logBytes e h.logSeq h.opsec), logSeq := h.logSeq + 1,
    logPos := (h.logPos + 1) % logRecords } := by
  unfold logAppend
  dsimp only
  rw [if_neg hpos]
  rfl

theorem logAppend_counts {h : Hedge} (e : LogEvent) (hpos : h.logPos % 1024 ≠ 0) : (logAppend h e).opsec = h.opsec
    ∧ (logAppend h e).logSeq = h.logSeq + 1 ∧ (logAppend h e).fuses = h.fuses := by
  rw [logAppend_within e hpos]
  exact ⟨rfl, rfl, rfl⟩

theorem mbytes_logAppend {h : Hedge} (e : LogEvent) (hpos : h.logPos % 1024 ≠ 0) (hf : memWf h.flash = true) :
    mbytes (logAppend h e).flash (0x1000000 + 64 * h.logPos) 64 = logBytes e h.logSeq h.opsec := by
  have hput := mbytes_mput_same (logAt h.logPos) (logBytes e h.logSeq h.opsec) hf
  rw [logBytes_length] at hput
  rw [logAppend_within e hpos]
  exact hput

theorem dropEvent_eq (e : LogEvent) (l : List LogEvent) : dropEvent e l = l.erase e := by
  induction l with
  | nil => rfl
  | cons x l ih =>
    rw [dropEvent, List.erase_cons, ih]
    simp only [beq_iff_eq]

section
variable {m : Module} {e : LogEvent}

theorem logWriteStep_idle (h : m.hedge.boot = .off ∨ e ∉ m.hedge.logQ) : logWriteStep m e = m := by
  unfold logWriteStep
  rw [if_pos]
  simpa using h

/-- The Hedge after a waiting event got its record. -/
theorem logWriteStep_hedge (hb : m.hedge.boot ≠ .off) (he : e ∈ m.hedge.logQ) :
    (logWriteStep m e).hedge = logAppend { m.hedge with logQ := m.hedge.logQ.erase e } e := by
  unfold logWriteStep
  rw [if_neg (by simp [hb, he])]
  unfold onHedge
  dsimp only
  rw [dropEvent_eq]
  split <;> rfl

theorem heartbeatStep_running (h : m.hedge.boot = .running) : heartbeatStep m =
    onHedge m (fun h => logAppend { h with opsec := h.opsec + 3600 }
      { cls := 15, sev := 0, unit := 0, job := 0xFFFF, detail := 0, addr := 0, data := [] }) := if_neg (not_not_intro h)

theorem corrStep_running (unit : Word) {count : Word} (h : m.hedge.boot = .running) (hc : count ≠ 0) : corrStep m unit count =
    onHedge m (fun h => logAppend h
      { cls := 16, sev := 1, unit := unit, job := 0xFFFF, detail := 0, addr := 0, data := leBytes 4 count.toNat }) :=
  if_neg (by rintro (h' | h'); exacts [h' h, hc h'])

end

/-- The failures of the health test within the last 10 ms. -/
def recentFailures (m : Module) : List Nat := m.hedge.healthAt.filter (fun t => decide (m.now ≤ t + 10000 * m.hedge.rate))

/-- The DRBG instantiated again after a failure of the health test (R609). -/
def healthNoted (m : Module) : Module := onHedge m (fun h => { h with drbgGens := 0, healthAt := recentFailures m ++ [m.now] })

theorem healthStep_eq (m : Module) : healthStep m = if (recentFailures m).length ≥ 2 then
    raiseFault (logLater (healthNoted m) (warmEvent 3)) else healthNoted m := rfl

/-- Settles O53: the review by its stages (`reviewOf_leaves`), the march test and the log by their outcomes. -/
theorem marginLogAndEntropy : Obligations.MarginLogAndEntropy := by
  intro s h
  refine ⟨fun cause ss => ⟨fun hno => next_of_eq (if_neg fun hd => Bool.false_ne_true (hno.symm.trans hd.2)), fun hboot hdue => ?review⟩,
    fun cl failing ht hh hr hm => ?start, fun cl failing ht hh hr hm => ?finish, fun e he => next_of_eq (logWriteStep_idle he),
    fun e hb he hpos hf => ?write, fun hboot hpos hf => ?heartbeat, fun unit count hboot hc hpos hf => ?corr, ⟨_, rfl, ?reseed⟩,
    ?health, rfl⟩
  case review =>
    obtain ⟨hevt, wake, hhedge⟩ := reviewOf_leaves s.m cause ss
    obtain ⟨hle, hok, habove⟩ := rateStep_spec ss h.fenceMask (stepOf h.rate)
    refine ⟨reviewOf s.m cause ss, reviewStepOf s.m ss, next_of_eq (if_pos ⟨hboot, hdue⟩), ?_, hevt, ?_, hle, fun hc => ?_, fun hc => ?_,
      fun hpos => (stepAllowed_iff ss h.fenceMask _).1 (hok hpos), fun i h1 h2 => ?_, fun d hd c hc => ?_, fun c hc => ?_⟩
    · rw [hhedge, reviewRails_hedge]; rfl
    · rw [hhedge, reviewRails_hedge]; rfl
    · rw [hhedge, reviewRails_hedge]; exact if_neg hc
    · rw [hhedge, reviewRails_hedge]; exact if_pos hc
    · have hnot := habove i h1 h2
      rw [← Bool.not_eq_true, stepAllowed_iff] at hnot
      simpa using hnot
    · rw [hhedge, reviewRails_hedge]
      exact (reviewFenced_mask s.m ss).symm ▸ mem_growMask_of_more _ (mem_reviewFences s.m ss hd hc)
    · rw [hhedge, reviewRails_hedge]
      exact (reviewFenced_mask s.m ss).symm ▸ mem_growMask_of_fenced _ hc
  case start =>
    exact ⟨_, next_of_eq (marchStep_starts failing ht hh hr hm), ⟨rfl, fun j hj => clAt_marchStarted_ne s.m hj⟩,
      clAt_marchStarted s.m cl, rfl⟩
  case finish =>
    have hcl := clAt_marchEnded s.m cl
    have hstep := marchStep_ends failing ht hh hr hm
    cases failing with
    | false => exact ⟨_, next_of_eq hstep, not_mem_marchEnded s.m cl, hcl, nofun, fun _ => rfl⟩
    | true =>
      rw [if_pos rfl] at hstep
      obtain ⟨logs, plans, hfence⟩ := fenceClusters_eq (marchEnded s.m cl) [cl.val] 2
      refine ⟨_, next_of_eq hstep, ?_, ?_, fun _ => ?_, nofun⟩
      · rw [writeMargin_eq, hfence]
        exact fun hmem => not_mem_marchEnded s.m cl (List.mem_of_mem_filter hmem)
      · rw [hfence]
        exact hcl
      · rw [writeMargin_eq, hfence]
        exact mem_growMask_of_more _ (List.mem_singleton.2 rfl)
  case write =>
    have hhedge := logWriteStep_hedge hb he
    have hpos' : ({ h with logQ := h.logQ.erase e } : Hedge).logPos % 1024 ≠ 0 := hpos
    refine ⟨_, rfl, ?_, ?_, ?_, ?_, fun a ha => ?_⟩
    · rw [hhedge, logAppend_within e hpos']
    · rw [hhedge, logAppend_within e hpos']
      rfl
    · rw [hhedge, logAppend_within e hpos']
    · rw [hhedge]
      exact mbytes_logAppend e hpos' hf
    · rw [hhedge, logAppend_within e hpos']
      refine (mget_mput _ _ _ hf).trans (if_neg ?_)
      rw [logBytes_length]
      unfold logAt
      dsimp only
      omega
  case heartbeat =>
    have hpos' : ({ h with opsec := h.opsec + 3600 } : Hedge).logPos % 1024 ≠ 0 := hpos
    obtain ⟨hopsec, hseq, hfuses⟩ := logAppend_counts (h := { h with opsec := h.opsec + 3600 })
      { cls := 15, sev := 0, unit := 0, job := 0xFFFF, detail := 0, addr := 0, data := [] } hpos'
    exact ⟨_, _, next_of_eq (heartbeatStep_running hboot), rfl, hopsec, hseq, rfl, hfuses, mbytes_logAppend _ hpos' hf⟩
  case corr =>
    obtain ⟨hopsec, hseq, -⟩ := logAppend_counts (h := h)
      { cls := 16, sev := 1, unit := unit, job := 0xFFFF, detail := 0, addr := 0, data := leBytes 4 count.toNat } hpos
    exact ⟨_, _, next_of_eq (corrStep_running unit hboot hc), rfl, hopsec, hseq, rfl, rfl, rfl, rfl, mbytes_logAppend _ hpos hf⟩
  case reseed =>
    refine congrArg (fun x => ({ s.m with hedge := x } : Module)) ?_
    unfold reseedHedge
    by_cases hg : 2 ^ 20 ≤ s.m.hedge.drbgGens
    · rw [if_pos hg, if_pos hg]
    · rw [if_neg hg, if_neg hg]
  case health =>
    intro recent
    refine ⟨_, rfl, ?_⟩
    rw [healthStep_eq]
    split
    next hmany => exact ⟨rfl, rfl, fun hfew => absurd hfew (Nat.not_lt.2 hmany), fun _ => ⟨rfl, rfl⟩⟩
    next hfew => exact ⟨rfl, rfl, fun _ => ⟨rfl, rfl, rfl⟩, fun hmany => absurd hmany hfew⟩

end Sys2Proof.Machine
end

section
/-! PROOFS. The Hedge mailbox, lifecycle transitions, debug and the test port (R588, R604, R611 to R620). -/
namespace Sys2Proof.Machine
open Sys2Proof Sys2Proof.Certificates

/-! ## A command that starts -/

section
variable {m : Module} (opc : BitVec 8) {req : List Byte}

/-- The module with a request in HMB_CMD and HMB_DATA. -/
def mailIn (m : Module) (opc : BitVec 8) (req : List Byte) : Module :=
  onHedge m (fun h => { h with hmbOpc := opc, hmbLen := BitVec.ofNat 13 req.length, hmbData := mput h.hmbData 0 req })

/-- A command runs: its answer waits for MAILBOX_DONE. -/
def mailHeld (r : MailRun) : Module :=
  onHedge r.m (fun h => { h with mail := some { code := BitVec.ofNat 8 r.code, resp := r.resp, after := r.after } })

theorem mailWrite_idle (hmail : m.hedge.mail = none) : mailWrite m opc req = mailIn m opc req := by
  unfold mailWrite
  rw [hmail]
  rfl

theorem mailCommand_busy (hopen : Bar0Open m) (hmail : m.hedge.mail ≠ none) : mailCommand m opc req = m := by
  have hsome := Option.isSome_iff_ne_none.2 hmail
  have hwrite : mailWrite m opc (req.take 4096) = m := if_pos hsome
  unfold mailCommand
  rw [bar0_of_open _ hopen, hwrite]
  exact if_pos (by rw [hsome]; rfl)

theorem hmbLen_mailIn (hlen : req.length ≤ 4096) : (BitVec.ofNat 13 req.length).toNat = req.length := by
  rw [BitVec.toNat_ofNat]
  omega

variable (hopen : Bar0Open m) (hmail : m.hedge.mail = none) (hboot : m.hedge.boot = .running)
  (hknown : mailKnown opc.toNat = true)
include hopen hmail hboot hknown

/-- A known command of a right length runs on its request. -/
theorem mailCommand_runs (hlen : req.length ≤ 4096) (hok : mailLenOk opc.toNat req.length = true) :
    mailCommand m opc req =
      mailHeld (mailRun (mailIn m opc req) opc.toNat (mbytes (mput m.hedge.hmbData 0 req) 0 req.length)) := by
  unfold mailCommand
  rw [bar0_of_open _ hopen, List.take_of_length_le hlen, mailWrite_idle opc hmail]
  unfold mailGo
  dsimp only
  rw [if_neg (by
    rw [show (mailIn m opc req).hedge.mail = none from hmail, show alive (mailIn m opc req) = true from hopen.1]
    decide)]
  rw [show (mailIn m opc req).hedge.hmbOpc = opc from rfl, show (mailIn m opc req).hedge.hmbLen = BitVec.ofNat 13 req.length from rfl,
    hmbLen_mailIn hlen, show (mailIn m opc req).hedge.boot = .running from hboot, hknown, hok]
  rfl

/-- A known command of a wrong length answers BAD_LEN. -/
theorem mailCommand_badLen (hbad : mailLenOk opc.toNat (req.take 4096).length = false) :
    mailCommand m opc req = mailHeld { code := mailBadLen, m := mailIn m opc (req.take 4096) } := by
  have hlen : (req.take 4096).length ≤ 4096 := by simp
  unfold mailCommand
  rw [bar0_of_open _ hopen]
  generalize req.take 4096 = r at hbad hlen
  rw [mailWrite_idle opc hmail]
  unfold mailGo
  dsimp only
  rw [if_neg (by
    rw [show (mailIn m opc r).hedge.mail = none from hmail, show alive (mailIn m opc r) = true from hopen.1]
    decide)]
  rw [show (mailIn m opc r).hedge.hmbOpc = opc from rfl, show (mailIn m opc r).hedge.hmbLen = BitVec.ofNat 13 r.length from rfl,
    hmbLen_mailIn hlen, show (mailIn m opc r).hedge.boot = .running from hboot, hknown, hbad]
  rfl

end

/-- The request is read back from HMB_DATA as it was written. -/
theorem mailRequest_eq {m : Module} (req : List Byte) (hf : memWf m.hedge.hmbData = true) :
    mbytes (mput m.hedge.hmbData 0 req) 0 req.length = req := mbytes_mput_same 0 req hf

/-! ## Every job killed, and the memories wiped -/

/-- The kill of every job of the Quay's table. -/
def killAll (m : Module) : Module := (m.quay.jobs.map (·.1)).foldl (fun m t => killJob m t .killed none) m

theorem killAll_rest (m : Module) : SameRest m (killAll m) :=
  foldl_keeps (fun b : Module => SameRest m b) _ (fun b t hb => hb.trans (killJob_rest b t .killed none)) _ m (.refl m)

section
variable (m : Module)

/-- A cluster whose slice is to wipe, in restricted mode once it may enter it (R356). -/
def wipeAsked (x : Cluster) : Cluster := { x with restricted := x.restricted || mayRestrict x, wiping := true }

theorem mayRestrict_wipeAsked (x : Cluster) : mayRestrict (wipeAsked x) = mayRestrict x := rfl

theorem wipeMemories_clusters : (wipeMemories m).clusters = tabOf {} 512 (fun c => wipeAsked (clAt m c)) := by
  unfold wipeMemories wipeAsked
  dsimp only

theorem clAt_wipeMemories {c : Nat} (hc : c < 512) : clAt (wipeMemories m) c = wipeAsked (clAt m c) := by
  rw [clAt, wipeMemories_clusters, tget_tabOf _ _ hc]

theorem stkAt_wipeMemories {t : Nat} (ht : t < 16) :
    stkAt (wipeMemories m) t = { stkAt m t with state := 2, fence := [], rewriteQ := [] } := tget_tabOf _ _ ht

/-- With no command and no DMA the PKE's part of the wipe is its own wipe. -/
theorem wipeMemories_pke (hrun : m.pke.run = none) (hdma : m.pke.dmaRun = none) :
    (wipeMemories m).pke.mem = [] ∧ (wipeMemories m).pke.acc = 0 := by
  have hdone : pkeDoneStep m = m := by
    unfold pkeDoneStep
    rw [hrun]
  have hdmaDone : pkeDmaDoneStep m = m := by
    unfold pkeDmaDoneStep
    rw [hdma]
  have hwipe : (pkeWipeStep m).pke = { m.pke with mem := [], acc := 0, poolBits := 0, wiped := true } := by
    unfold pkeWipeStep onPke
    dsimp only
    rw [hrun, hdma]
    rfl
  have hpke : (wipeMemories m).pke = (pkeWipeStep (pkeDmaDoneStep (pkeDoneStep m))).pke := rfl
  rw [hpke, hdone, hdmaDone, hwipe]
  exact ⟨rfl, rfl⟩

/-- The wipe changes of the Hedge its SRAM alone. -/
theorem wipeMemories_hedge : (wipeMemories m).hedge = { m.hedge with sram := (wipeMemories m).hedge.sram } := by
  have hhedge : (wipeMemories m).hedge = (pkeDmaDoneStep (pkeDoneStep m)).hedge := rfl
  have hdone : (pkeDoneStep m).hedge = m.hedge := by
    unfold pkeDoneStep
    split <;> rfl
  rw [hhedge]
  unfold pkeDmaDoneStep
  split
  · rw [hdone]
  · dsimp only
    split
    · rw [hdone]
    · unfold onPke
      dsimp only
      rw [hdone]

end

/-! ## The commands of the mailbox -/

theorem field_leBytes (n x : Nat) (h : x < 256 ^ n) : field (leBytes n x) 0 n = x := by
  unfold field
  rw [List.drop_zero, List.take_of_length_le (by rw [leBytes_length]), leNat_leBytes, Nat.mod_eq_of_lt h]


theorem answers_mailHeld (r : MailRun) {code : BitVec 8} {resp : List Byte} {after : Nat} (hc : BitVec.ofNat 8 r.code = code)
    (hr : r.resp = resp) (ha : r.after = after) : Answers (mailHeld r) code resp after := by
  subst hc hr ha
  rfl

section
variable {s : State} (hopen : Bar0Open s.m) (hmail : s.m.hedge.mail = none) (hboot : s.m.hedge.boot = .running)
include hopen hmail hboot

theorem exec_info : ∃ n r, exec .info s = .next { s with m := n } ∧ Answers n 0 r 0 ∧ r.length = 64 := by
  refine ⟨_, _, next_of_eq (mailCommand_runs 0x01 hopen hmail hboot rfl (by decide) rfl), answers_mailHeld _ rfl rfl rfl, ?_⟩
  show ((Config.freeBytes _ ++ zeros 64).take 64).length = 64
  simp [zeros]

theorem exec_pldm (req : List Byte) :
    ∃ n r, exec (.pldm req) s = .next { s with m := n } ∧ Answers n 0 r 0 ∧ n.hedge.fuses = s.m.hedge.fuses := by
  have hlen : (req.take 4096).length ≤ 4096 := by simp
  have htake : mailCommand s.m 0x30 req = mailCommand s.m 0x30 (req.take 4096) := by
    unfold mailCommand
    rw [List.take_take]
    rfl
  exact ⟨_, _, next_of_eq (htake.trans (mailCommand_runs 0x30 hopen hmail hboot rfl hlen rfl)), answers_mailHeld _ rfl rfl rfl, rfl⟩

/-- A command of a right length runs on its request, which canonical HMB_DATA gives back. -/
theorem mailCommand_answers (opc : BitVec 8) {req : List Byte} (hknown : mailKnown opc.toNat = true) (hlen : req.length ≤ 4096)
    (hok : mailLenOk opc.toNat req.length = true) (hf : memWf s.m.hedge.hmbData = true) :
    mailCommand s.m opc req = mailHeld (mailRun (mailIn s.m opc req) opc.toNat req) := by
  rw [mailCommand_runs opc hopen hmail hboot hknown hlen hok, mailRequest_eq req hf]

theorem exec_logRead (off : Word) : ∃ n, exec (.logRead off) s = .next { s with m := n } ∧ (memWf s.m.hedge.hmbData = true →
    Answers n 0 (mbytes s.m.hedge.flash (0x1000000 + off.toNat) (min 4096 (0x1000000 - off.toNat))) 0) := by
  refine ⟨_, rfl, fun hf => ?_⟩
  have hlen : (leBytes 4 off.toNat).length = 4 := leBytes_length ..
  rw [mailCommand_answers hopen hmail hboot 0x02 rfl (by omega) (by rw [hlen]; rfl) hf]
  refine answers_mailHeld _ rfl ?_ rfl
  show logSlice s.m.hedge.flash (field (leBytes 4 off.toNat) 0 4) = _
  rw [field_leBytes 4 off.toNat off.isLt]
  rfl

theorem exec_dbgChal : ∃ n, exec .dbgChal s = .next { s with m := n }
    ∧ (hedgeBusy s.m.hedge = true → Answers n 7 [] 0 ∧ n.hedge.nonce = s.m.hedge.nonce)
    ∧ (hedgeBusy s.m.hedge = false → Answers n 0 (leBytes 32 (Config.drbg s.m.hedge.drbgCount).toNat) 0
        ∧ n.hedge.nonce = some { value := Config.drbg s.m.hedge.drbgCount } ∧ n.hedge.drbgCount = s.m.hedge.drbgCount + 1) := by
  have hrun (q : List Byte) : mailRun (mailIn s.m 0x20 []) 0x20 q = if hedgeBusy s.m.hedge then
      { code := mailBusyOther, m := mailIn s.m 0x20 [] }
    else { code := 0, resp := leBytes 32 (Config.drbg s.m.hedge.drbgCount).toNat,
           m := onHedge (mailIn s.m 0x20 []) (fun h => { h with
             nonce := some { value := Config.drbg s.m.hedge.drbgCount }, drbgCount := s.m.hedge.drbgCount + 1,
             drbgGens := s.m.hedge.drbgGens + 1 }) } := rfl
  refine ⟨_, next_of_eq ((mailCommand_runs 0x20 hopen hmail hboot rfl (by decide) rfl).trans (congrArg mailHeld (hrun _))),
    fun hb => ?_, fun hb => ?_⟩
  · rw [if_pos hb]
    exact ⟨rfl, rfl⟩
  · rw [if_neg (ne_true_of_eq_false hb)]
    exact ⟨rfl, rfl, rfl⟩

theorem exec_dbgLock : ∃ n, exec .dbgLock s = .next { s with m := n }
    ∧ Answers n (if hedgeBusy s.m.hedge then 7 else 0) [] (if hedgeBusy s.m.hedge then 0 else 1) := by
  have hrun (q : List Byte) : mailRun (mailIn s.m 0x22 []) 0x22 q = if hedgeBusy s.m.hedge then
      { code := mailBusyOther, m := mailIn s.m 0x22 [] }
    else { code := 0, after := 1, m := mailIn s.m 0x22 [] } := rfl
  refine ⟨_, next_of_eq ((mailCommand_runs 0x22 hopen hmail hboot rfl (by decide) rfl).trans (congrArg mailHeld (hrun _))), ?_⟩
  split
  · rfl
  · rfl

/-! ## DBG_UNLOCK -/

theorem exec_dbgUnlock_badLen {token : List Byte} (h : token.length ≠ 192) :
    ∃ n, exec (.dbgUnlock token) s = .next { s with m := n } ∧ Answers n 2 [] 0 ∧ n.hedge.debug = s.m.hedge.debug := by
  have hbad : mailLenOk 0x21 (token.take 4096).length = false := decide_eq_false (by
    rw [List.length_take]
    omega)
  exact ⟨_, next_of_eq (mailCommand_badLen 0x21 hopen hmail hboot rfl hbad), rfl, rfl⟩

/-- The module of a DBG_UNLOCK, its nonce used up. -/
def unlockIn (m : Module) (token : List Byte) : Module := onHedge (mailIn m 0x21 token) (fun h => { h with nonce := none })

theorem exec_dbgUnlock_eq {token : List Byte} (h : token.length = 192) (hf : memWf s.m.hedge.hmbData = true) :
    exec (.dbgUnlock token) s = .next { s with m := mailHeld (if unlockCheck s.m.hedge token = 0 then
      { code := 0, m := unlockStep (unlockIn s.m token) token }
      else { code := unlockCheck s.m.hedge token, m := unlockIn s.m token }) } :=
  next_of_eq (mailCommand_answers hopen hmail hboot 0x21 rfl (by omega) (by rw [h]; rfl) hf)

end

theorem field_one (bs : List Byte) (i : Nat) (h : i < bs.length) : BitVec.ofNat 8 (field bs i 1) = bs.getD i 0 := by
  unfold field
  rw [List.drop_eq_getElem_cons h, List.take_succ_cons, List.take_zero, List.getD_eq_getElem _ _ h]
  simp [leNat]

/-- An accepted unlock: debug opens with the token's scopes, and the memories are to wipe (R617). -/
theorem unlockStep_opens (m : Module) {token : List Byte} (hlen : token.length = 192) :
    (unlockStep m token).hedge.nonce = m.hedge.nonce ∧ (unlockStep m token).hedge.debug = true
      ∧ (unlockStep m token).hedge.scope = token.getD 6 0
      ∧ (∀ c, c < 512 → (clAt (unlockStep m token) c).wiping = true
          ∧ (mayRestrict (clAt (unlockStep m token) c) = true → (clAt (unlockStep m token) c).restricted = true))
      ∧ (∀ t, t < 16 → (stkAt (unlockStep m token) t).state = 2)
      ∧ (unlockStep m token).quay.dir = [] ∧ (unlockStep m token).quay.plans = [] ∧ (unlockStep m token).quay.sram = []
      ∧ (m.pke.run = none → m.pke.dmaRun = none → (unlockStep m token).pke.mem = [] ∧ (unlockStep m token).pke.acc = 0) := by
  have heq : unlockStep m token = onHedge (wipeMemories (killAll m)) (fun h => { h with
    debug := true, scope := BitVec.ofNat 8 (field token 6 1) }) := rfl
  have hrest := killAll_rest m
  have hnonce : (wipeMemories (killAll m)).hedge.nonce = m.hedge.nonce := by
    rw [wipeMemories_hedge]
    exact congrArg (fun n => n.hedge.nonce) hrest
  have hpke : (killAll m).pke = m.pke := congrArg (fun n => n.pke) hrest
  rw [heq]
  refine ⟨hnonce, rfl, field_one token 6 (by omega), fun c hc => ?_, fun t ht => ?_, rfl, rfl, rfl, fun hrun hdma => ?_⟩
  · rw [clAt_onHedge, clAt_wipeMemories _ hc]
    refine ⟨rfl, fun hr => ?_⟩
    rw [mayRestrict_wipeAsked] at hr
    unfold wipeAsked
    rw [hr, Bool.or_true]
  · rw [stkAt_onHedge, stkAt_wipeMemories _ ht]
  · exact wipeMemories_pke (killAll m) (by rw [hpke]; exact hrun) (by rw [hpke]; exact hdma)

/-- Outside SERVICE and RETURNED an unlock is BAD_STATE. -/
theorem unlockCheck_badState {h : Hedge} {token : List Byte} (hb : hedgeBusy h = false) (h3 : lcsOf h.fuses ≠ 3)
    (h4 : lcsOf h.fuses ≠ 4) : unlockCheck h token = 3 := by
  unfold unlockCheck
  rw [if_neg (ne_true_of_eq_false hb), if_pos ⟨h3, h4⟩]
  rfl

/-! ## LC_SET -/

theorem lcCheck_badState {h : Hedge} {target : Nat} {serial : BitVec 64} {token : List Byte}
    (hbad : hedgeBusy h = true ∨ lcsPermitted (lcsOf h.fuses) target = false) : lcCheck h target serial token = 3 := by
  unfold lcCheck
  rw [if_pos]
  · rfl
  · rcases hbad with hb | hb
    · rw [hb]; rfl
    · rw [hb]; exact Bool.or_true _

/-- Beyond the first state only SERIAL is asked for (R612, R614). -/
theorem lcCheck_forward {h : Hedge} {target : Nat} {serial : BitVec 64} {token : List Byte} (hb : hedgeBusy h = false)
    (h2 : 2 ≤ lcsOf h.fuses) (hlt : lcsOf h.fuses < target) (h5 : target ≤ 5) :
    lcCheck h target serial token = if serial = h.fuses.serial then 0 else 6 := by
  have hperm : lcsPermitted (lcsOf h.fuses) target = true := by
    unfold lcsPermitted
    rw [if_neg (by omega)]
    simp [h2, hlt, h5]
  unfold lcCheck
  rw [if_neg (by rw [hb, hperm]; decide), if_neg (by omega)]
  by_cases hs : serial = h.fuses.serial
  · rw [if_neg (not_not_intro hs), if_pos hs]
  · rw [if_pos hs, if_neg hs]
    rfl

/-- The request of an LC_SET. -/
def lcRequest (target : BitVec 8) (serial : BitVec 64) (token : List Byte) : List Byte :=
  leBytes 1 target.toNat ++ leBytes 8 serial.toNat ++ token

section
variable (target : BitVec 8) (serial : BitVec 64) (token : List Byte)

theorem lcRequest_length : (lcRequest target serial token).length = 9 + token.length := by
  unfold lcRequest
  simp only [List.length_append, leBytes_length]

theorem field_lcRequest_target : field (lcRequest target serial token) 0 1 = target.toNat := by
  have htake : ((lcRequest target serial token).drop 0).take 1 = leBytes 1 target.toNat := by
    unfold lcRequest
    rw [List.drop_zero, List.append_assoc, List.take_append_of_le_length (by rw [leBytes_length])]
    exact List.take_of_length_le (by rw [leBytes_length])
  unfold field
  rw [htake, leNat_leBytes]
  exact Nat.mod_eq_of_lt target.isLt

theorem field_lcRequest_serial : BitVec.ofNat 64 (field (lcRequest target serial token) 1 8) = serial := by
  have htake : ((lcRequest target serial token).drop 1).take 8 = leBytes 8 serial.toNat := by
    unfold lcRequest
    rw [List.append_assoc, List.drop_append_of_le_length (by rw [leBytes_length]), List.drop_of_length_le (by rw [leBytes_length]),
      List.nil_append, List.take_append_of_le_length (by rw [leBytes_length])]
    exact List.take_of_length_le (by rw [leBytes_length])
  unfold field
  rw [htake, leNat_leBytes]
  exact BitVec.eq_of_toNat_eq (by rw [BitVec.toNat_ofNat]; have := serial.isLt; omega)

theorem drop_lcRequest : (lcRequest target serial token).drop 9 = token := rfl

end

/-- The module of an LC_SET that carries a token, its nonce used up. -/
def lcIn (m : Module) (req : List Byte) : Module :=
  if req.length > 9 then onHedge (mailIn m 0x10 req) (fun h => { h with nonce := none }) else mailIn m 0x10 req

theorem lcIn_kept (m : Module) (req : List Byte) : (lcIn m req).hedge.fuses = m.hedge.fuses
    ∧ (lcIn m req).hedge.lifecycle = m.hedge.lifecycle := by
  unfold lcIn
  split <;> exact ⟨rfl, rfl⟩

/-- What an LC_SET answers, and the target that it records. -/
def lcRun (m : Module) (target : Nat) (serial : BitVec 64) (token req : List Byte) : MailRun :=
  if lcCheck m.hedge target serial token = 0 then
    { code := 0, after := 2, m := onHedge (lcIn m req) (fun h => { h with lifecycle := some target }) }
  else { code := lcCheck m.hedge target serial token, m := lcIn m req }

theorem exec_lcSet_eq {s : State} (hopen : Bar0Open s.m) (hmail : s.m.hedge.mail = none) (hboot : s.m.hedge.boot = .running)
    (target : BitVec 8) (serial : BitVec 64) {token : List Byte} (h : token.length = 0 ∨ token.length = 192)
    (hf : memWf s.m.hedge.hmbData = true) : exec (.lcSet target serial token) s =
      .next { s with m := mailHeld (lcRun s.m target.toNat serial token (lcRequest target serial token)) } := by
  have hlen := lcRequest_length target serial token
  have hok : mailLenOk 0x10 (lcRequest target serial token).length = true := decide_eq_true (by omega)
  refine next_of_eq ((mailCommand_answers hopen hmail hboot 0x10 rfl (by omega) hok hf).trans (congrArg mailHeld ?_))
  have hrun (q : List Byte) : mailRun (mailIn s.m 0x10 q) 0x10 q =
      lcRun s.m (field q 0 1) (BitVec.ofNat 64 (field q 1 8)) (q.drop 9) q := rfl
  refine (hrun _).trans ?_
  rw [field_lcRequest_target, field_lcRequest_serial, drop_lcRequest]

/-! ## MAILBOX_DONE -/

section
variable (m : Module) (x : Mail)

/-- The module with a response in HMB_DATA, before the event. -/
def mailFilled : Module := onHedge m (fun h => { h with
  mail := none, hmbData := mput h.hmbData 0 x.resp, hmbDone := true, hmbCode := x.code, hmbRlen := BitVec.ofNat 13 x.resp.length })

/-- An event sets its bit, and may send an interrupt or note it as pending. -/
theorem raiseEvt_quay (n : Module) (i : Nat) : ∃ pba, (raiseEvt n i).quay =
    { n.quay with evt := n.quay.evt ||| BitVec.ofNat 7 (2 ^ i), msixPba := pba } := by
  unfold raiseEvt signalVec
  dsimp only
  split
  · split
    · split <;> exact ⟨_, rfl⟩
    · split <;> exact ⟨_, rfl⟩
  · exact ⟨_, rfl⟩

theorem signalVec_eq (n : Module) (v : Nat) : ∃ pba msix, signalVec n v =
    { n with quay := { n.quay with msixPba := pba }, msixOut := msix } := by
  unfold signalVec
  split
  · exact ⟨_, _, rfl⟩
  · exact ⟨_, _, rfl⟩

/-- The end of a command sets DONE with its answer and GLB_EVT bit 5, and may send or note interrupts. -/
theorem mailFinish_eq : ∃ wake pba msix, mailFinish m x = { mailFilled m x with
    hedge := { (mailFilled m x).hedge with wake := wake },
    quay := { m.quay with evt := m.quay.evt ||| 32, msixPba := pba }, msixOut := msix } := by
  obtain ⟨pba, hquay⟩ := raiseEvt_quay (mailFilled m x) 5
  have honly := raiseEvt_only (mailFilled m x) 5
  rw [hquay] at honly
  have hfin : mailFinish m x = if m.hedge.hmbIen then signalVec (raiseEvt (mailFilled m x) 5) 511 else raiseEvt (mailFilled m x) 5 := rfl
  rw [hfin, honly]
  split
  · obtain ⟨pba', msix, hsig⟩ := signalVec_eq { mailFilled m x with
      quay := { (mailFilled m x).quay with evt := (mailFilled m x).quay.evt ||| BitVec.ofNat 7 (2 ^ 5), msixPba := pba },
      hedge := { (mailFilled m x).hedge with wake := (raiseEvt (mailFilled m x) 5).hedge.wake },
      msixOut := (raiseEvt (mailFilled m x) 5).msixOut } 511
    exact ⟨_, _, _, hsig⟩
  · exact ⟨_, _, _, rfl⟩

theorem mailDoneStep_idle (h : m.hedge.mail = none) : mailDoneStep m = m := by
  unfold mailDoneStep
  rw [h]

variable {m x}

theorem mailDoneStep_plain (h : m.hedge.mail = some x) (ha : x.after = 0) : mailDoneStep m = mailFinish m x := by
  unfold mailDoneStep
  rw [h]
  dsimp only
  rw [if_neg (by omega), if_neg (by omega)]

theorem mailDoneStep_reset (h : m.hedge.mail = some x) (ha : x.after = 1) : mailDoneStep m = warmResetStep (mailFinish m x) true := by
  unfold mailDoneStep
  rw [h]
  exact if_pos ha

theorem mailDoneStep_quiesce (h : m.hedge.mail = some x) (ha : x.after = 2) : mailDoneStep m = lcQuiesce (mailFinish m x) := by
  unfold mailDoneStep
  rw [h]
  dsimp only
  rw [if_neg (by omega), if_pos ha]

/-- The quiesce of a transition kills every job and ends every upload; the Hedge and GLB_EVT stay (R613). -/
theorem lcQuiesce_leaves (n : Module) : (lcQuiesce n).quay.qstate = 1 ∧ (lcQuiesce n).quay.uploads = []
    ∧ (lcQuiesce n).quay.evt = n.quay.evt ∧ (lcQuiesce n).hedge = { n.hedge with drbgGens := (lcQuiesce n).hedge.drbgGens } := by
  have hrest := killAll_rest n
  have hevt : (killAll n).quay.evt = n.quay.evt := congrArg (fun k => k.quay.evt) hrest
  have hhedge : (killAll n).hedge = { n.hedge with drbgGens := (killAll n).hedge.drbgGens } := congrArg (fun k => k.hedge) hrest
  exact ⟨rfl, rfl, hevt, hhedge⟩

end

/-! ## Lifecycle transitions -/

theorem bootImage_serial (m : Module) (slot : Nat) : (bootImage m slot).hedge.fuses.serial = m.hedge.fuses.serial := by
  rw [bootImage_fuses]
  have hburn : (burnImage (readLog (coldMargin (loadImage m.hedge slot)))).fuses.serial =
    (readLog (coldMargin (loadImage m.hedge slot))).fuses.serial := rfl
  rw [hburn, readLog_fuses, coldMargin_fuses, loadImage_fuses]

theorem coldStart_serial (m : Module) : (coldStart m).hedge.fuses.serial = m.hedge.fuses.serial := by
  unfold coldStart
  dsimp only
  split
  · rw [bootImage_serial]
    rfl
  · rw [recoverBoot_fuses]
    rfl

theorem coldReset_serial (m : Module) (perst : Bool) : (coldReset m perst).hedge.fuses.serial = m.hedge.fuses.serial := by
  unfold coldReset
  exact (coldStart_serial _).trans (congrArg Fuses.serial (resetHedge_fuses m.hedge))

theorem getLsbD_of_and_eq {w : Nat} {a b : BitVec w} (h : a &&& b = a) {i : Nat} (ha : a.getLsbD i = true) : b.getLsbD i = true := by
  rw [← h, BitVec.getLsbD_and, Bool.and_eq_true] at ha
  exact ha.2

/-- Both fuses of the target's pair are set by a transition (R613). -/
theorem burnLcs_pair (f : Fuses) {t : Nat} (h2 : 2 ≤ t) (h5 : t ≤ 5) : (burnLcs t f).lcs.getLsbD (2 * (t - 2)) = true
    ∧ (burnLcs t f).lcs.getLsbD (2 * (t - 2) + 1) = true := by
  have hcases : t = 2 ∨ t = 3 ∨ t = 4 ∨ t = 5 := by omega
  unfold burnLcs
  rcases hcases with rfl | rfl | rfl | rfl <;> simp

theorem le_lcsOf {f : Fuses} {t : Nat} (h2 : 2 ≤ t) (h5 : t ≤ 5) (h : f.lcs.getLsbD (2 * (t - 2)) = true) : t ≤ lcsOf f := by
  have hcases : t = 2 ∨ t = 3 ∨ t = 4 ∨ t = 5 := by omega
  unfold lcsOf
  dsimp only
  rcases hcases with rfl | rfl | rfl | rfl
  · have h0 : f.lcs.getLsbD (2 * 0) = true := h
    simp only [h0, Bool.true_or, if_true]
    split_ifs <;> omega
  · have h0 : f.lcs.getLsbD (2 * 1) = true := h
    simp only [h0, Bool.true_or, if_true]
    split_ifs <;> omega
  · have h0 : f.lcs.getLsbD (2 * 2) = true := h
    simp only [h0, Bool.true_or, if_true]
    split_ifs <;> omega
  · have h0 : f.lcs.getLsbD (2 * 3) = true := h
    simp only [h0, Bool.true_or, if_true]
    omega

/-- The module that a transition to `t` resets. -/
def transited (m : Module) (t : Nat) : Module :=
  onHedge (wipeMemories m) (fun h => { h with fuses := burnLcs t h.fuses, lifecycle := none })

theorem lifecycleStep_transits {m : Module} {t : Nat} (h : m.hedge.lifecycle = some t) (hq : m.quay.qstate = 2) :
    lifecycleStep m = coldReset (transited m t) m.ep.perst := by
  unfold lifecycleStep
  rw [h]
  exact if_neg (not_not_intro hq)

theorem lifecycleStep_stays {m : Module} (h : m.hedge.lifecycle = none ∨ m.quay.qstate ≠ 2) : lifecycleStep m = m := by
  unfold lifecycleStep
  split
  next t ht =>
    rcases h with h | h
    · rw [h] at ht
      exact absurd ht nofun
    · exact if_pos h
  next => rfl

theorem transited_fuses (m : Module) (t : Nat) : (transited m t).hedge.fuses = burnLcs t m.hedge.fuses :=
  congrArg (burnLcs t) (wipeMemories_fuses m)

theorem allOnes_of_and_eq {w : Nat} {a b : BitVec w} (h : a &&& b = a) (ha : a = BitVec.allOnes w) : b = BitVec.allOnes w := by
  rw [ha, BitVec.allOnes_and] at h
  exact h

/-! ## The test port -/

section
variable {m : Module} {die : Nat}

theorem jtagStep_closed {op : JtagOp} (h : jtagOpen m.hedge = false) (hop : ∀ o b, op ≠ .writeIdentity o b) :
    jtagStep m die op = { m with jtagOut := none } := by
  cases op with
  | readReg t off => simp [jtagStep, h]
  | writeReg t off wide v => simp [jtagStep, h]
  | readScratch cl w => simp [jtagStep, h]
  | writeScratch cl w v => simp [jtagStep, h]
  | readUds => rfl
  | writeIdentity o b => exact absurd rfl (hop o b)

theorem clAt_jtagOut (m : Module) (v : Option (BitVec 64)) (c : Nat) : clAt { m with jtagOut := v } c = clAt m c := rfl

theorem jtagStep_writeScratch {cl : Fin 512} {w : Nat} (v : Word) (halive : alive m = true) (hopen : jtagOpen m.hedge = true)
    (hdie : die = cl.val / 64) (hw : w < Config.sliceWords) (hr : (clAt m cl).restricted = true) :
    jtagStep m die (.writeScratch cl w v) = { onCl m cl (fun c => scrWrite c w v) with jtagOut := none } := by
  refine if_pos ?_
  simp [halive, hopen, hw, hr, dieOf, hdie]

theorem jtagStep_readScratch {cl : Fin 512} {w : Nat} (halive : alive m = true) (hopen : jtagOpen m.hedge = true)
    (hdie : die = cl.val / 64) (hw : w < Config.sliceWords) : jtagStep m die (.readScratch cl w) = { m with
      jtagOut := if (clAt m cl).restricted then some (BitVec.ofNat 64 (scrWord (clAt m cl) [] w).toNat) else none } := by
  refine congrArg (fun v => ({ m with jtagOut := v } : Module)) ?_
  simp [halive, hopen, hw, dieOf, hdie]

theorem jtagStep_writeUnrestricted {cl : Fin 512} {w : Nat} (v : Word) (hr : (clAt m cl).restricted = false) :
    jtagStep m die (.writeScratch cl w v) = { m with jtagOut := none } := by
  refine if_neg ?_
  simp [hr]

end

/-- A word written to a slice without a fence is the one word that changes. -/
theorem mword_scrWrite {c : Cluster} (w a : Nat) (v : Word) (hf : c.fence = []) (hwf : memWf c.scratch = true) :
    mword (scrWrite c w v).scratch a = if a = w then v else mword c.scratch a := by
  unfold scrWrite rowFenced
  rw [hf, List.any_nil, if_neg Bool.false_ne_true]
  dsimp only
  rw [mword_mputWords _ _ _ hwf, List.length_singleton]
  by_cases ha : a = w
  · rw [if_pos ha, if_pos (by omega), ha, Nat.sub_self]
    rfl
  · rw [if_neg ha, if_neg (by omega)]

/-- Settles O54: a command starts (`mailCommand_runs`) or is ignored; its end, the transition and the test port by their outcomes. -/
theorem mailboxCommands : Obligations.MailboxCommands := by
  intro s off target serial token req h
  refine ⟨fun c hc hopen hmail => ?busy, fun hopen hmail hboot => ⟨exec_info hopen hmail hboot, exec_pldm hopen hmail hboot req,
      exec_logRead hopen hmail hboot off, exec_dbgChal hopen hmail hboot, exec_dbgLock hopen hmail hboot,
      exec_dbgUnlock_badLen hopen hmail hboot, fun hlen hf => ?unlock, fun hlen hf => ?lcSet⟩,
    fun hmail => next_of_eq (mailDoneStep_idle s.m hmail), fun x hx ha => ?done, fun x hx ha halive hrec => ?reset,
    fun t ht hq h2 h5 => ?transition, fun hstay => next_of_eq (lifecycleStep_stays hstay), fun die op => ?jtag⟩
  case busy =>
    simp only [List.mem_cons, List.not_mem_nil, or_false] at hc
    rcases hc with rfl | rfl | rfl | rfl | rfl | rfl | rfl
    all_goals exact next_of_eq (mailCommand_busy _ hopen hmail)
  case unlock =>
    have hexec := exec_dbgUnlock_eq hopen hmail hboot hlen hf
    have hstays (hc : unlockCheck h token ≠ 0) : exec (.dbgUnlock token) s = .next { s with
        m := mailHeld { code := unlockCheck h token, m := unlockIn s.m token } } := by rw [hexec, if_neg hc]
    by_cases hc : unlockCheck h token = 0
    · rw [if_pos hc] at hexec
      obtain ⟨hnonce, hdebug, hscope, hcls, hstks, hdir, hplans, hsram, hpke⟩ := unlockStep_opens (unlockIn s.m token) hlen
      generalize unlockStep (unlockIn s.m token) token = n at hexec hnonce hdebug hscope hcls hstks hdir hplans hsram hpke
      refine ⟨_, hexec, answers_mailHeld _ (by rw [hc]) rfl rfl, hnonce, fun hb h3 h4 => unlockCheck_badState hb h3 h4,
        fun hne => absurd hc hne, fun _ => ⟨hdebug, hscope, hcls, hstks, hdir, hplans, hsram, hpke⟩⟩
    · exact ⟨_, hstays hc, answers_mailHeld _ rfl rfl rfl, rfl, fun hb h3 h4 => unlockCheck_badState hb h3 h4,
        fun _ => ⟨rfl, rfl, rfl⟩, fun h0 => absurd h0 hc⟩
  case lcSet =>
    obtain ⟨hfuses, hlifecycle⟩ := lcIn_kept s.m (lcRequest target serial token)
    have hexec := exec_lcSet_eq hopen hmail hboot target serial hlen hf
    unfold lcRun at hexec
    generalize lcIn s.m (lcRequest target serial token) = n at hfuses hlifecycle hexec
    by_cases hc : lcCheck s.m.hedge target.toNat serial token = 0
    · rw [if_pos hc] at hexec
      refine ⟨_, hexec, ?_⟩
      rw [if_pos hc, if_pos hc, hc]
      exact ⟨rfl, rfl, hfuses, fun hbad => hc.symm.trans (lcCheck_badState hbad),
        fun hb h2 hlt h5 => hc.symm.trans (lcCheck_forward hb h2 hlt h5)⟩
    · rw [if_neg hc] at hexec
      refine ⟨_, hexec, ?_⟩
      rw [if_neg hc, if_neg hc]
      exact ⟨rfl, hlifecycle, hfuses, fun hbad => lcCheck_badState hbad, fun hb h2 hlt h5 => lcCheck_forward hb h2 hlt h5⟩
  case done =>
    obtain ⟨wake, pba, msix, hfin⟩ := mailFinish_eq s.m x
    have hdata (hf : memWf h.hmbData = true) : mbytes (mput h.hmbData 0 x.resp) 0 x.resp.length = x.resp := mbytes_mput_same 0 x.resp hf
    rcases ha with ha | ha
    · refine ⟨_, next_of_eq ((mailDoneStep_plain hx ha).trans hfin), rfl, rfl, rfl, rfl, rfl, hdata, fun _ => ⟨rfl, rfl⟩, fun h2 => ?_⟩
      omega
    · obtain ⟨hqs, hup, hevt, hhedge⟩ := lcQuiesce_leaves (mailFinish s.m x)
      have hstep := mailDoneStep_quiesce hx ha
      generalize lcQuiesce (mailFinish s.m x) = n at hqs hup hevt hhedge hstep
      rw [hfin] at hevt hhedge
      refine ⟨n, next_of_eq hstep, ?_, ?_, ?_, ?_, hevt, fun hf => ?_, fun h0 => ?_, fun _ => ⟨hqs, hup⟩⟩
      · rw [hhedge]; rfl
      · rw [hhedge]; rfl
      · rw [hhedge]; rfl
      · rw [hhedge]; rfl
      · rw [hhedge]; exact hdata hf
      · omega
  case reset =>
    obtain ⟨wake, pba, msix, hfin⟩ := mailFinish_eq s.m x
    have halive' : alive (mailFinish s.m x) = true := by rw [hfin]; exact halive
    have hrec' : (mailFinish s.m x).hedge.boot ≠ .recovery := by rw [hfin]; exact hrec
    obtain ⟨hlost, -⟩ := warmReset_leaves true hrec'
    exact ⟨_, next_of_eq ((mailDoneStep_reset hx ha).trans (warmResetStep_alive true halive')), hlost⟩
  case transition =>
    obtain ⟨⟨hlost, -⟩, -⟩ := coldReset_boots (transited s.m t) s.m.ep.perst
    have hgrow := coldReset_fusesGrow (transited s.m t) s.m.ep.perst
    have hserial := coldReset_serial (transited s.m t) s.m.ep.perst
    have hstep := lifecycleStep_transits ht hq
    generalize coldReset (transited s.m t) s.m.ep.perst = n at hlost hgrow hserial hstep
    unfold FusesGrow at hgrow
    rw [transited_fuses] at hgrow hserial
    obtain ⟨-, -, huds, -, -, -, hlcs⟩ := hgrow
    obtain ⟨hlo, hhi⟩ := burnLcs_pair h.fuses h2 h5
    have hlo' := getLsbD_of_and_eq hlcs hlo
    refine ⟨n, next_of_eq hstep, hlost, hlo', getLsbD_of_and_eq hlcs hhi, le_lcsOf h2 h5 hlo', fun h5 => ?_, hserial⟩
    refine allOnes_of_and_eq huds ?_
    unfold burnLcs
    dsimp only
    rw [if_pos h5]
    rfl
  case jtag =>
    refine ⟨fun hop => by rw [hop]; rfl, fun hclosed hop => next_of_eq (jtagStep_closed hclosed hop),
      fun cl w v hop halive hopen hdie hw hr hf hwf => ?_, fun cl w hop halive hopen hdie hw => ?_, fun cl w v hop hr => ?_⟩
    · subst hop
      refine ⟨_, next_of_eq (jtagStep_writeScratch v halive hopen hdie hw hr), ?_⟩
      rw [clAt_jtagOut, clAt_onCl_same]
      exact ⟨(mword_scrWrite w w v hf hwf).trans (if_pos rfl), fun a ha => (mword_scrWrite w a v hf hwf).trans (if_neg ha)⟩
    · subst hop
      exact next_of_eq (jtagStep_readScratch halive hopen hdie hw)
    · subst hop
      exact next_of_eq (jtagStep_writeUnrestricted v hr)

end Sys2Proof.Machine
end

section
/-! PROOFS. The end of an engine's operation (R266, R322, R454, R464): what it leaves of the cluster, the job and the flags. -/
namespace Sys2Proof.Machine
open Sys2Proof Sys2Proof.Certificates

/-- A cluster when its engine `e` has ended the operation `o`. -/
def opEnded (e : Engine) (o : RunOp) (c : Cluster) : Cluster :=
  let c1 := onEng { c with scb := c.scb.filter (fun s => decide (s.opid ≠ o.opid)) } e (fun g => { g with run := none })
  match o.record with
  | some r => if (ctxsAll c o.job).contains o.ctx then onCtx c1 o.ctx (fun x =>
      { x with records := tmod {} x.records r (fun r => recordDone r (runCauses o)) }) else c1
  | none => c1

/-- A module when the engine `e` of cluster `cl` has ended the operation `o`. -/
def opEnd (m : Module) (cl : Nat) (e : Engine) (o : RunOp) : Module :=
  let m1 := onCl m cl (opEnded e o)
  let m2 := if o.frames = [] then m1 else onWindow m1 cl o.job (endDelivery o.frames)
  let m3 := onJob m2 o.job (fun j => jobFlags (landFlags j cl o.opid o.oflags) o.oflags)
  match o.dflag with
  | some f => addFlag m3 (cl * 256 + f) 1 o.job
  | none => m3

theorem onCl_eq_of_clAt {m : Module} {i : Nat} {f g : Cluster → Cluster} (h : f (clAt m i) = g (clAt m i)) :
    onCl m i f = onCl m i g := by
  unfold onCl tmod
  unfold clAt at h
  rw [h]

theorem opDone_waits {m : Module} {cl : Nat} {e : Engine} {o : RunOp} (hrun : (engOf (clAt m cl) e).run = some o)
    (h : (o.done && pagesReported o) = false) : opDone m cl e = m := by
  have hw : (!o.done || !pagesReported o) = true := by rw [← Bool.not_and, h]; rfl
  unfold opDone
  dsimp only
  rw [hrun]
  exact if_pos hw

theorem opDone_ends {m : Module} {cl : Nat} {e : Engine} {o : RunOp} (hrun : (engOf (clAt m cl) e).run = some o)
    (hd : o.done = true) (hp : pagesReported o = true) : opDone m cl e = opEnd m cl e o := by
  unfold opDone opEnd
  dsimp only
  rw [hrun]
  dsimp only
  rw [if_neg (by rw [hd, hp]; decide)]
  rfl

section
variable (e : Engine) (o : RunOp) (c : Cluster)

theorem onEng_keeps (f : EngineState → EngineState) :
    (onEng c e f).ctxs = c.ctxs ∧ (onEng c e f).scb = c.scb ∧ (onEng c e f).scratch = c.scratch ∧ (onEng c e f).flags = c.flags := by
  cases e <;> exact ⟨rfl, rfl, rfl, rfl⟩

theorem engOf_onCtx (k : Nat) (f : Context → Context) : engOf (onCtx c k f) e = engOf c e := by
  cases e <;> rfl

theorem engOf_with_scb (l : List ScbEntry) : engOf { c with scb := l } e = engOf c e := by
  cases e <;> rfl

/-- Both branches of an ended operation keep what the record's context does not hold. -/
theorem opEnded_eq : ∃ f : Context → Context, opEnded e o c =
    onCtx (onEng { c with scb := c.scb.filter (fun s => decide (s.opid ≠ o.opid)) } e (fun g => { g with run := none })) o.ctx f
      ∨ opEnded e o c = onEng { c with scb := c.scb.filter (fun s => decide (s.opid ≠ o.opid)) } e (fun g => { g with run := none }) := by
  unfold opEnded
  dsimp only
  split
  · split
    · exact ⟨_, .inl rfl⟩
    · exact ⟨id, .inr rfl⟩
  · exact ⟨id, .inr rfl⟩

theorem engOf_opEnded : (engOf (opEnded e o c) e).run = none := by
  obtain ⟨f, h | h⟩ := opEnded_eq e o c <;> rw [h]
  · rw [engOf_onCtx, engOf_onEng_same]
  · rw [engOf_onEng_same]

theorem engOf_opEnded_other {f : Engine} (hf : f ≠ e) : engOf (opEnded e o c) f = engOf c f := by
  obtain ⟨g, h | h⟩ := opEnded_eq e o c <;> rw [h]
  · rw [engOf_onCtx, engOf_onEng_ne _ _ hf, engOf_with_scb]
  · rw [engOf_onEng_ne _ _ hf, engOf_with_scb]

theorem opEnded_keeps : (opEnded e o c).scb = c.scb.filter (fun x => decide (x.opid ≠ o.opid))
    ∧ (opEnded e o c).scratch = c.scratch ∧ (opEnded e o c).flags = c.flags := by
  obtain ⟨-, hs, hm, hf⟩ := onEng_keeps e { c with scb := c.scb.filter (fun s => decide (s.opid ≠ o.opid)) } (fun g => { g with run := none })
  obtain ⟨g, h | h⟩ := opEnded_eq e o c <;> rw [h] <;> exact ⟨hs, hm, hf⟩

theorem ctxOf_onEng (k : Nat) (f : EngineState → EngineState) : ctxOf (onEng c e f) k = ctxOf c k := by
  cases e <;> rfl

theorem ctxOf_opEnded_other {k : Nat} (hk : k ≠ o.ctx ∨ o.record = none) : ctxOf (opEnded e o c) k = ctxOf c k := by
  unfold opEnded
  dsimp only
  split
  · next r hr =>
      have hne : k ≠ o.ctx := hk.resolve_right (by rw [hr]; exact nofun)
      split
      · rw [ctxOf_onCtx_ne _ _ _ _ hne, ctxOf_onEng]; rfl
      · rw [ctxOf_onEng]; rfl
  · rw [ctxOf_onEng]; rfl

theorem records_opEnded {r : Nat} (hr : o.record = some r) (hc : o.ctx ∈ ctxsAll c o.job) :
    (ctxOf (opEnded e o c) o.ctx).records = tmod {} (ctxOf c o.ctx).records r (fun r => recordDone r (runCauses o)) := by
  unfold opEnded
  dsimp only
  rw [hr]
  dsimp only
  rw [if_pos (List.contains_iff_mem.mpr hc), ctxOf_onCtx_same, ctxOf_onEng]
  rfl

end

section
variable (m : Module) (cl : Nat) (e : Engine) (o : RunOp)

/-- What the end of an operation leaves of the module. -/
theorem opEnd_leaves : (opEnd m cl e o).clusters = (onCl m cl (opEnded e o)).clusters
    ∧ (opEnd m cl e o).quay = (onJob m o.job (fun j => jobFlags (landFlags j cl o.opid o.oflags) o.oflags)).quay
    ∧ (opEnd m cl e o).flagIn = m.flagIn ++ (o.dflag.toList.map (fun f => { addr := cl * 256 + f, add := 1, job := o.job })) := by
  unfold opEnd
  dsimp only
  by_cases hf : o.frames = []
  · rw [if_pos hf]
    cases o.dflag with
    | none => exact ⟨rfl, rfl, (List.append_nil _).symm⟩
    | some f => exact ⟨rfl, rfl, rfl⟩
  · rw [if_neg hf]
    cases o.dflag with
    | none => exact ⟨rfl, rfl, (List.append_nil _).symm⟩
    | some f => exact ⟨rfl, rfl, rfl⟩

theorem clAt_opEnd_same : clAt (opEnd m cl e o) cl = opEnded e o (clAt m cl) := by
  have h : clAt (opEnd m cl e o) cl = clAt (onCl m cl (opEnded e o)) cl := congrArg (fun t => tget ({} : Cluster) t cl) (opEnd_leaves m cl e o).1
  rw [h, clAt_onCl_same]

theorem clAt_opEnd_other {q : Nat} (hq : q ≠ cl) : clAt (opEnd m cl e o) q = clAt m q := by
  have h : clAt (opEnd m cl e o) q = clAt (onCl m cl (opEnded e o)) q := congrArg (fun t => tget ({} : Cluster) t q) (opEnd_leaves m cl e o).1
  rw [h, clAt_onCl_ne _ _ _ _ hq]

theorem jobAt_opEnd {j : Job} (hj : jobAt m o.job = some j) :
    jobAt (opEnd m cl e o) o.job = some (jobFlags (landFlags j cl o.opid o.oflags) o.oflags) := by
  have h : jobAt (opEnd m cl e o) o.job = jobAt (onJob m o.job (fun j => jobFlags (landFlags j cl o.opid o.oflags) o.oflags)) o.job :=
    congrArg (fun q : Quay => tget none q.jobs o.job) (opEnd_leaves m cl e o).2.1
  rw [h, jobAt_onJob_same, hj]
  rfl

end

/-- What the three commands that end an operation do. -/
theorem exec_done {s : State} {cl : Fin 512} {e : Engine} {cmd : Instr}
    (h : (cmd = .nteDone cl ∧ e = .nte) ∨ (cmd = .rmeDone cl ∧ e = .rme) ∨ (cmd = .vecDone cl ∧ e = .vec)) :
    exec cmd s = .next { s with m := opDone s.m cl e } := by
  rcases h with ⟨rfl, rfl⟩ | ⟨rfl, rfl⟩ | ⟨rfl, rfl⟩ <;> rfl

/-- Settles O39: an operation that is not done stays; one that is done leaves its engine, its scoreboard entries, its record's
count, the job's open flags and its DFLAG, and nothing else. -/
theorem operationDone : Obligations.OperationDone := by
  intro s cl e cmd o hcmd hrun
  refine ⟨fun hw => (exec_done hcmd).trans (by rw [opDone_waits hrun hw]), fun hd hp => ?_⟩
  obtain ⟨hscb, hscr, hflags⟩ := opEnded_keeps e o (clAt s.m cl)
  refine ⟨opEnd s.m cl e o, (exec_done hcmd).trans (by rw [opDone_ends hrun hd hp]), ?_⟩
  rw [clAt_opEnd_same]
  refine ⟨engOf_opEnded e o _, fun f hf => engOf_opEnded_other e o _ hf, hscb, hscr, fun r hr hc => ?_,
    fun k hk => ctxOf_opEnded_other e o _ hk, hflags, (opEnd_leaves s.m cl e o).2.2, fun j hj => ?_,
    fun q hq => clAt_opEnd_other s.m cl e o hq⟩
  · have hrec := records_opEnded e o (clAt s.m cl) hr hc
    dsimp only
    rw [hrec]
    exact ⟨tget_tset_same _, fun q hq => tget_tset_ne _ hq⟩
  · refine ⟨_, jobAt_opEnd s.m cl e o hj, rfl, fun hl => ?_, fun p hl => ?_⟩
    · exact congrArg (Option.map _) hl
    · refine ⟨_, congrArg (Option.map _) hl, ?_⟩
      dsimp only
      split <;> rfl

end Sys2Proof.Machine
end

section
/-! PROOFS. The job-end audit (R494 to R497): its checks in order, and the completion that it queues. -/
namespace Sys2Proof.Machine
open Sys2Proof Sys2Proof.Certificates

section
variable (m : Module) (tag : Nat) (j : Job)

/-- Every pool that the job holds is balanced. -/
def poolsBalance : Prop := ∀ h ∈ j.dies, ∀ i, i < h.pools → (ledgerOf m h.die (h.pool0 + i)).fqv = true →
  (ledgerOf m h.die (h.pool0 + i)).free.toNat = bits (poolWord m h.die (h.pool0 + i) 1) 15 0 + 1
    ∧ (ledgerOf m h.die (h.pool0 + i)).queued = 0 ∧ (ledgerOf m h.die (h.pool0 + i)).held = 0
    ∧ (ledgerOf m h.die (h.pool0 + i)).transit = 0

/-- Every credit entry of the job has its grant back. -/
def creditsReturned : Prop := ∀ h ∈ j.dies, ∀ p ∈ (dieAt m h.die).credits, p.2.valid = true → p.2.job.toNat = tag →
  p.2.avail = p.2.grant

/-- Every frame of the job's key windows is FREE. -/
def windowsFree : Prop := ∀ h ∈ j.dies, ∀ w ∈ (dieAt m h.die).windows, w.job = tag → ∀ k, k < w.size → (tget {} w.frames k).st = 0

/-- Every flag that the job holds is 0. -/
def flagsClear : Prop := ∀ h ∈ j.clusters, ∀ i, i < h.flags → tget 0 (clAt m h.cl).flags (h.flag0 + i) = 0

def poolAtFault : Option (Nat × Nat) :=
  (j.dies.flatMap (fun h => (List.range h.pools).map (fun i => (h.die, h.pool0 + i)))).find? (fun p => !poolBalanced m p.1 p.2)

def creditAtFault : Option DieHold := j.dies.find? (fun h => (dieAt m h.die).credits.any (fun p =>
  p.2.valid && decide (p.2.job.toNat = tag ∧ p.2.avail ≠ p.2.grant)))

def windowAtFault : Option DieHold := j.dies.find? (fun h => (dieAt m h.die).windows.any (fun w => decide (w.job = tag)
  && (List.range w.size).any (fun k => decide ((tget {} w.frames k).st ≠ 0))))

def flagAtFault : Option ClHold := j.clusters.find? (fun h => (List.range h.flags).any (fun i =>
  decide (tget 0 (clAt m h.cl).flags (h.flag0 + i) ≠ 0)))

theorem poolBalanced_iff (d p : Nat) : poolBalanced m d p = true ↔ ((ledgerOf m d p).fqv = true →
    (ledgerOf m d p).free.toNat = bits (poolWord m d p 1) 15 0 + 1 ∧ (ledgerOf m d p).queued = 0 ∧ (ledgerOf m d p).held = 0
      ∧ (ledgerOf m d p).transit = 0) := by
  unfold poolBalanced
  cases h : (ledgerOf m d p).fqv <;> simp [h]

theorem poolAtFault_none : poolAtFault m j = none ↔ poolsBalance m j := by
  unfold poolAtFault poolsBalance
  simp only [List.find?_eq_none, List.mem_flatMap, List.mem_map, List.mem_range, Bool.not_eq_true, Bool.not_eq_false', ← poolBalanced_iff]
  constructor
  · intro h d hd i hi
    exact h _ ⟨d, hd, i, hi, rfl⟩
  · rintro h _ ⟨d, hd, i, hi, rfl⟩
    exact h d hd i hi

theorem creditAtFault_none : creditAtFault m tag j = none ↔ creditsReturned m tag j := by
  unfold creditAtFault creditsReturned
  simp only [List.find?_eq_none, List.any_eq_true, Bool.and_eq_true, decide_eq_true_eq, not_exists, not_and, Decidable.not_not, ne_eq]

theorem windowAtFault_none : windowAtFault m tag j = none ↔ windowsFree m tag j := by
  unfold windowAtFault windowsFree
  simp only [List.find?_eq_none, List.any_eq_true, Bool.and_eq_true, decide_eq_true_eq, List.mem_range, not_exists, not_and,
    Decidable.not_not, ne_eq]

theorem flagAtFault_none : flagAtFault m j = none ↔ flagsClear m j := by
  unfold flagAtFault flagsClear
  simp only [List.find?_eq_none, List.any_eq_true, decide_eq_true_eq, List.mem_range, not_exists, not_and, Decidable.not_not, ne_eq]

/-- The audit's outcome from the four checks in order (R497). -/
theorem auditFault_eq : auditFault m tag j =
    match poolAtFault m j, creditAtFault m tag j, windowAtFault m tag j, flagAtFault m j with
    | some (d, p), _, _, _ => some (6, d, p)
    | none, some h, _, _ => some (7, h.die, 0)
    | none, none, some h, _ => some (8, h.die, 0)
    | none, none, none, some h => some (9, dieOf h.cl, 0)
    | none, none, none, none => none := rfl

/-- The code of the audit's fault is that of the first check that fails. -/
theorem auditFault_cases :
    (poolsBalance m j → creditsReturned m tag j → windowsFree m tag j → flagsClear m j → auditFault m tag j = none)
    ∧ (¬ poolsBalance m j → ∃ f, auditFault m tag j = some (6, f))
    ∧ (poolsBalance m j → ¬ creditsReturned m tag j → ∃ f, auditFault m tag j = some (7, f))
    ∧ (poolsBalance m j → creditsReturned m tag j → ¬ windowsFree m tag j → ∃ f, auditFault m tag j = some (8, f))
    ∧ (poolsBalance m j → creditsReturned m tag j → windowsFree m tag j → ¬ flagsClear m j → ∃ f, auditFault m tag j = some (9, f)) := by
  rw [auditFault_eq, ← poolAtFault_none, ← creditAtFault_none, ← windowAtFault_none, ← flagAtFault_none]
  cases poolAtFault m j with
  | some p => exact ⟨nofun, fun _ => ⟨_, rfl⟩, nofun, nofun, nofun⟩
  | none =>
    refine ⟨fun _ hc hw hf => ?_, fun h => absurd rfl h, fun _ hc => ?_, fun _ hc hw => ?_, fun _ hc hw hf => ?_⟩
    · rw [hc, hw, hf]
    · obtain ⟨h, hc⟩ := Option.ne_none_iff_exists'.mp hc
      rw [hc]
      exact ⟨_, rfl⟩
    · obtain ⟨h, hw⟩ := Option.ne_none_iff_exists'.mp hw
      rw [hc, hw]
      exact ⟨_, rfl⟩
    · obtain ⟨h, hf⟩ := Option.ne_none_iff_exists'.mp hf
      rw [hc, hw, hf]
      exact ⟨_, rfl⟩

variable {m tag j}

/-- The job and the completions that a module has, for the end of a job with its slip figures. -/
theorem finishJob_queues {n : Module} (hq : n.quay = (onJob m tag (withSlips m tag)).quay) (hj : jobAt m tag = some j)
    (status detail : BitVec 8) : ∃ c : Completion, (finishJob n tag status detail none none).quay.compl = m.quay.compl ++ [c]
      ∧ c.cid = j.desc.cid ∧ c.job = some tag ∧ c.status = status ∧ c.detail = detail := by
  have hn : jobAt n tag = some (withSlips m tag j) := by
    have h : jobAt n tag = jobAt (onJob m tag (withSlips m tag)) tag := congrArg (fun q : Quay => tget none q.jobs tag) hq
    rw [h, jobAt_onJob_same, hj]
    rfl
  refine ⟨completionOf tag (withSlips m tag j) status detail none (jobMhz n (withSlips m tag j)) (tDone n) none, ?_, ?_, rfl, rfl, rfl⟩
  · rw [finishJob_compl n tag status detail none none hn, hq, onJob_quay_compl]
  · exact congrArg (·.cid) (onlySlips_withSlips m tag j).desc_eq

theorem jobFinish_queues (hj : jobAt m tag = some j) : ∃ c : Completion, (jobFinish m tag j).quay.compl = m.quay.compl ++ [c]
    ∧ c.cid = j.desc.cid ∧ c.job = some tag ∧ c.status = 0 := by
  let P (b : Module) : Prop := b.quay = (onJob m tag (withSlips m tag)).quay
  have h1 : P (j.clusters.foldl (fun m h => onCl m h.cl (releaseCluster tag)) (onJob m tag (withSlips m tag))) :=
    foldl_keeps P (fun m (h : ClHold) => onCl m h.cl (releaseCluster tag)) (fun _ _ hb => hb) _ _ rfl
  have h2 := foldl_keeps P (fun m (h : DieHold) => onDie m h.die (releaseDieJob tag h)) (fun _ _ hb => hb) j.dies _ h1
  obtain ⟨c, hc, hcid, hjob, hst, -⟩ := finishJob_queues h2 hj 0 (BitVec.ofNat 8 j.firstCheck)
  exact ⟨c, hc, hcid, hjob, hst⟩

theorem jobFault_queues (hj : jobAt m tag = some j) (f : Nat × Nat × Nat) : ∃ c : Completion,
    (jobFault m tag j f).quay.compl = m.quay.compl ++ [c]
      ∧ c.cid = j.desc.cid ∧ c.job = some tag ∧ c.status = 0x36 ∧ c.detail = BitVec.ofNat 8 f.1 := by
  obtain ⟨code, die, pool⟩ := f
  unfold jobFault
  dsimp only
  refine finishJob_queues ((tearDown_rest _ tag j 0).2.trans ?_) hj 0x36 _
  split <;> rfl

/-- The audit's step, by where the audit stands. -/
theorem auditStep_starts (hj : jobAt m tag = some j) (hs : j.started = true) (hq : jobQuiet m tag j = true) (ha : j.auditing = none) :
    auditStep m tag = onJob m tag (fun j => { j with phase := .auditing, auditing := some m.now }) := by
  unfold auditStep
  rw [hj]
  dsimp only
  rw [if_neg (by rw [hs, hq]; decide), ha]

theorem auditStep_early {t : Nat} (hj : jobAt m tag = some j) (hs : j.started = true) (hq : jobQuiet m tag j = true)
    (ha : j.auditing = some t) (ht : m.now < t + 512) : auditStep m tag = m := by
  unfold auditStep
  rw [hj]
  dsimp only
  rw [if_neg (by rw [hs, hq]; decide), ha]
  exact if_pos ht

theorem auditStep_checks {t : Nat} (hj : jobAt m tag = some j) (hs : j.started = true) (hq : jobQuiet m tag j = true)
    (ha : j.auditing = some t) (ht : t + 512 ≤ m.now) : auditStep m tag = match auditFault m tag j with
      | none => jobFinish m tag j
      | some f => jobFault m tag j f := by
  unfold auditStep
  rw [hj]
  dsimp only
  rw [if_neg (by rw [hs, hq]; decide), ha]
  exact if_neg (Nat.not_lt.mpr ht)

end

/-- Settles O14: the audit starts, waits 512 a-cycles, and ends the job by the first of its checks that fails. -/
theorem jobEndAudit : Obligations.JobEndAudit := by
  intro s tag j hj hs hq pools credits windows flags
  refine ⟨fun ha => next_of_eq (auditStep_starts hj hs hq ha), fun t ha ht => next_of_eq (auditStep_early hj hs hq ha ht),
    fun t ha ht => ?_⟩
  have hstep := auditStep_checks hj hs hq ha ht
  obtain ⟨hnone, h6, h7, h8, h9⟩ := auditFault_cases s.m tag j
  cases hf : auditFault s.m tag j with
  | none =>
    rw [hf] at hstep h6 h7 h8 h9
    obtain ⟨c, hc, hcid, hjob, hst⟩ := jobFinish_queues hj
    have hno : ∀ {k : Nat}, ¬ ∃ g, (none : Option (Nat × Nat × Nat)) = some (k, g) := fun ⟨_, hg⟩ => nomatch hg
    exact ⟨_, c, next_of_eq hstep, hc, hcid, hjob, fun _ _ _ _ => hst, fun a => absurd (h6 a) hno, fun a b => absurd (h7 a b) hno,
      fun a b d => absurd (h8 a b d) hno, fun a b d e => absurd (h9 a b d e) hno⟩
  | some f =>
    rw [hf] at hstep hnone h6 h7 h8 h9
    obtain ⟨c, hc, hcid, hjob, hst, hdet⟩ := jobFault_queues hj f
    have hcode : ∀ {k : Nat}, (∃ g, some f = some (k, g)) → c.status = 0x36 ∧ c.detail = BitVec.ofNat 8 k := by
      rintro k ⟨g, hg⟩
      cases hg
      exact ⟨hst, hdet⟩
    exact ⟨_, c, next_of_eq hstep, hc, hcid, hjob, fun a b d e => absurd (hnone a b d e) (Option.some_ne_none f), fun a => hcode (h6 a),
      fun a b => hcode (h7 a b), fun a b d => hcode (h8 a b d), fun a b d e => hcode (h9 a b d e)⟩

end Sys2Proof.Machine
end

section
/-! PROOFS. The start of a job (R433, R435, R494): what its tables leave, and the contexts it makes. -/
namespace Sys2Proof.Machine
open Sys2Proof Sys2Proof.Certificates

/-- Two modules with the same a-cycle, jobs, contexts and counts of open jobs. -/
def SameStarts (a b : Module) : Prop :=
  b.now = a.now ∧ b.quay.jobs = a.quay.jobs ∧ (∀ c, (clAt b c).ctxs = (clAt a c).ctxs)
    ∧ ∀ d, (dieAt b d).openJobs = (dieAt a d).openJobs

theorem SameStarts.refl (a : Module) : SameStarts a a := ⟨rfl, rfl, fun _ => rfl, fun _ => rfl⟩

theorem SameStarts.trans {a b c : Module} (h : SameStarts a b) (g : SameStarts b c) : SameStarts a c := by
  obtain ⟨hn, hj, hc, hd⟩ := h
  obtain ⟨gn, gj, gc, gd⟩ := g
  exact ⟨gn.trans hn, gj.trans hj, fun i => (gc i).trans (hc i), fun i => (gd i).trans (hd i)⟩

section
variable (m : Module)

theorem sameStarts_onDie (i : Nat) {f : Die → Die} (hf : ∀ d, (f d).openJobs = d.openJobs) : SameStarts m (onDie m i f) := by
  refine ⟨rfl, rfl, fun _ => rfl, fun d => ?_⟩
  by_cases h : d = i
  · rw [h, dieAt_onDie_same, hf]
  · rw [dieAt_onDie_ne _ _ _ _ h]

theorem sameStarts_onCl (i : Nat) {f : Cluster → Cluster} (hf : ∀ c, (f c).ctxs = c.ctxs) : SameStarts m (onCl m i f) := by
  refine ⟨rfl, rfl, fun c => ?_, fun _ => rfl⟩
  by_cases h : c = i
  · rw [h, clAt_onCl_same, hf]
  · rw [clAt_onCl_ne _ _ _ _ h]

theorem grantPool_openJobs (tag p : Nat) (ws : List Word) (d : Die) : (grantPool tag p ws d).openJobs = d.openJobs := rfl

theorem sameStarts_writePool (tag : Nat) (p : PoolPlan) : SameStarts m (writePool m tag p) :=
  sameStarts_onDie m _ (fun _ => rfl)

theorem sameStarts_handPools (tag : Nat) (bufs : List (Nat × Nat)) (h : DieHold) : SameStarts m (handPools tag bufs h m) :=
  sameStarts_onDie m h.die (f := fun d => (List.range h.pools).foldl (fun d i =>
    grantPool tag (h.pool0 + i) (handPoolWords bufs m.free i) d) d) (fun d =>
    foldl_keeps (fun b : Die => b.openJobs = d.openJobs) (fun b i => grantPool tag (h.pool0 + i) (handPoolWords bufs m.free i) b)
      (fun _ _ hb => hb) _ _ rfl)

theorem sameStarts_writeCredit (tag : Nat) (c : CreditPlan) : SameStarts m (writeCredit m tag c) :=
  sameStarts_onDie m _ (fun _ => rfl)

theorem sameStarts_fillPool (die p : Nat) : SameStarts m (fillPool m die p) := by
  unfold fillPool
  dsimp only
  split
  · exact .refl m
  · refine (sameStarts_onDie m die ?_).trans (sameStarts_onCl _ _ ?_)
    · exact fun _ => rfl
    · exact fun _ => rfl

theorem sameStarts_fillPools (h : DieHold) : SameStarts m (fillPools m h) :=
  foldl_keeps (SameStarts m) _ (fun b _ hb => hb.trans (sameStarts_fillPool b _ _)) _ m (.refl m)

theorem writeDescs_openJobs (tag : Nat) (ds : List DescPlan) (i : Nat) (d : Die) : (writeDescs tag ds i d).openJobs = d.openJobs := by
  unfold writeDescs
  refine foldl_keeps (fun b : Die => b.openJobs = d.openJobs) _ (fun b _ hb => ?_) _ _ rfl
  exact hb

theorem quayPut_sameStarts (a : Nat) (bs : List Byte) : SameStarts m (quayPut m a bs) ∧ (quayPut m a bs).clusters = m.clusters := by
  obtain ⟨hrest, hdies⟩ := crossLink_only m (flitsFor (ceilDiv bs.length 4)) (.quay (Fin.ofNat 8 (stkOf a / 2)))
  have hcl : (quayPut m a bs).clusters = m.clusters := congrArg (·.clusters) hrest
  refine ⟨⟨congrArg (·.now) hrest, congrArg (·.quay.jobs) hrest, fun c => ?_, fun d => congrArg (·.openJobs) (hdies d)⟩, hcl⟩
  unfold clAt
  rw [hcl]

/-! ## The dies -/

/-- One die of a start. -/
def openDie (tag : Nat) (j : Job) (m : Module) (h : DieHold) : Module :=
  onDie (fillPools m h) h.die (fun d => startDie tag m.now j h (writeDescs tag j.descs h.die d))

theorem openDie_keeps (tag : Nat) (j : Job) (h : DieHold) : (openDie tag j m h).now = m.now
    ∧ (openDie tag j m h).quay.jobs = m.quay.jobs ∧ (∀ c, (clAt (openDie tag j m h) c).ctxs = (clAt m c).ctxs)
    ∧ ∀ d, (dieAt (openDie tag j m h) d).openJobs = (dieAt m d).openJobs + if h.die = d then 1 else 0 := by
  obtain ⟨hn, hj, hc, hd⟩ := sameStarts_fillPools m h
  refine ⟨hn, hj, hc, fun d => ?_⟩
  unfold openDie
  by_cases e : h.die = d
  · subst e
    rw [dieAt_onDie_same, if_pos rfl, ← hd h.die]
    exact congrArg (· + 1) (writeDescs_openJobs tag j.descs h.die _)
  · rw [dieAt_onDie_ne _ _ _ _ (Ne.symm e), hd, if_neg e]
    rfl

/-- The dies of a start: each counts one open job for every entry that names it. -/
theorem openDies_keeps (tag : Nat) (j : Job) (hs : List DieHold) : (hs.foldl (openDie tag j) m).now = m.now
    ∧ (hs.foldl (openDie tag j) m).quay.jobs = m.quay.jobs
    ∧ (∀ c, (clAt (hs.foldl (openDie tag j) m) c).ctxs = (clAt m c).ctxs)
    ∧ ∀ d, (dieAt (hs.foldl (openDie tag j) m) d).openJobs = (dieAt m d).openJobs + (hs.map (·.die)).count d := by
  induction hs generalizing m with
  | nil => exact ⟨rfl, rfl, fun _ => rfl, fun _ => rfl⟩
  | cons h hs ih =>
    obtain ⟨hn, hj, hc, hd⟩ := openDie_keeps m tag j h
    obtain ⟨gn, gj, gc, gd⟩ := ih (openDie tag j m h)
    refine ⟨gn.trans hn, gj.trans hj, fun c => (gc c).trans (hc c), fun d => ?_⟩
    rw [List.foldl_cons, gd, hd, List.map_cons, List.count_cons, beq_eq_decide]
    by_cases e : h.die = d
    · rw [if_pos e, if_pos (decide_eq_true e)]; omega
    · rw [if_neg e, if_neg (by simp [e])]; omega

/-! ## The clusters -/

theorem startCluster_keeps (tag : Nat) (j : Job) (h : ClHold) : (startCluster m tag j h).now = m.now
    ∧ (startCluster m tag j h).quay.jobs = m.quay.jobs ∧ (∀ d, (dieAt (startCluster m tag j h) d).openJobs = (dieAt m d).openJobs)
    ∧ ∀ c, c ≠ h.cl → clAt (startCluster m tag j h) c = clAt m c := by
  unfold startCluster
  cases freeCtx (clAt m h.cl) with
  | none => exact ⟨rfl, rfl, fun _ => rfl, fun _ _ => rfl⟩
  | some k =>
    dsimp only
    generalize hm1 : onCl m h.cl _ = m1
    obtain ⟨⟨hn, hj, -, hd⟩, hcl⟩ := quayPut_sameStarts m1 (streamBase j h.cl) (h.stream.flatMap (fun w => leBytes 4 w.toNat))
    subst hm1
    refine ⟨hn, hj, hd, fun c hc => ?_⟩
    rw [clAt, hcl]
    exact clAt_onCl_ne _ _ _ _ hc

theorem startCluster_starts (tag : Nat) (j : Job) (h : ClHold) {k : Nat} (hk : freeCtx (clAt m h.cl) = some k) :
    ctxOf (clAt (startCluster m tag j h) h.cl) k = startCtx tag m.now (streamBase j h.cl) j h := by
  unfold startCluster
  rw [hk]
  dsimp only
  rw [clAt, (quayPut_sameStarts _ _ _).2, ← clAt, clAt_onCl_same, ctxOf_onCtx_same]

theorem freeCtx_of_ctxs {a b : Cluster} (h : a.ctxs = b.ctxs) : freeCtx a = freeCtx b := by
  unfold freeCtx ctxOf
  rw [h]

theorem freeCtx_lt {c : Cluster} {k : Nat} (h : freeCtx c = some k) : k < 8 :=
  List.mem_range.mp (List.mem_of_find?_eq_some h)

/-- The clusters of a start: each gets a context for the job. -/
theorem startClusters_starts (tag : Nat) (j : Job) {hs : List ClHold} (hfree : ∀ h ∈ hs, (freeCtx (clAt m h.cl)).isSome = true)
    (hnd : (hs.map (·.cl)).Nodup) :
    (∀ h ∈ hs, ∃ k, k < 8 ∧ ctxOf (clAt (hs.foldl (fun m h => startCluster m tag j h) m) h.cl) k
      = startCtx tag m.now (streamBase j h.cl) j h)
    ∧ (hs.foldl (fun m h => startCluster m tag j h) m).quay.jobs = m.quay.jobs
    ∧ (∀ d, (dieAt (hs.foldl (fun m h => startCluster m tag j h) m) d).openJobs = (dieAt m d).openJobs)
    ∧ ∀ c, c ∉ hs.map (·.cl) → clAt (hs.foldl (fun m h => startCluster m tag j h) m) c = clAt m c := by
  induction hs generalizing m with
  | nil => exact ⟨nofun, rfl, fun _ => rfl, fun _ _ => rfl⟩
  | cons g hs ih =>
    rw [List.map_cons, List.nodup_cons] at hnd
    obtain ⟨hg, hnd⟩ := hnd
    obtain ⟨hn, hj, hd, hc⟩ := startCluster_keeps m tag j g
    have hne : ∀ h ∈ hs, h.cl ≠ g.cl := fun h hh e => hg (e ▸ List.mem_map_of_mem hh)
    have hfree' : ∀ h ∈ hs, (freeCtx (clAt (startCluster m tag j g) h.cl)).isSome = true := fun h hh => by
      rw [hc _ (hne h hh)]
      exact hfree h (List.mem_cons_of_mem _ hh)
    obtain ⟨ictx, ijobs, idies, icl⟩ := ih (startCluster m tag j g) hfree' hnd
    refine ⟨fun h hh => ?_, ijobs.trans hj, fun d => (idies d).trans (hd d), fun c hcn => ?_⟩
    · rcases List.mem_cons.mp hh with rfl | hh
      · obtain ⟨k, hk⟩ := Option.isSome_iff_exists.mp (hfree h List.mem_cons_self)
        refine ⟨k, freeCtx_lt hk, ?_⟩
        rw [List.foldl_cons, icl _ hg, startCluster_starts m tag j h hk]
      · obtain ⟨k, hk, hctx⟩ := ictx h hh
        exact ⟨k, hk, by rw [List.foldl_cons, hctx, hn]⟩
    · rw [List.map_cons, List.mem_cons, not_or] at hcn
      rw [List.foldl_cons, icl _ hcn.2, hc _ hcn.1]

/-- The tables before the dies: pools and credits. -/
def startBooks (m : Module) (tag : Nat) (j : Job) : Module :=
  let m1 := j.pools.foldl (fun m p => writePool m tag p) m
  let m2 := if j.desc.hand then j.dies.foldl (fun m h => handPools tag j.desc.bufs h m) m1 else m1
  j.credits.foldl (fun m c => writeCredit m tag c) m2

theorem sameStarts_startBooks (tag : Nat) (j : Job) : SameStarts m (startBooks m tag j) := by
  have h1 : SameStarts m (j.pools.foldl (fun m p => writePool m tag p) m) :=
    foldl_keeps (SameStarts m) _ (fun b p hb => hb.trans (sameStarts_writePool b tag p)) _ m (.refl m)
  unfold startBooks
  dsimp only
  refine foldl_keeps (SameStarts m) _ (fun b c hb => hb.trans (sameStarts_writeCredit b tag c)) _ _ ?_
  split
  · exact foldl_keeps (SameStarts m) _ (fun b h hb => hb.trans (sameStarts_handPools b tag j.desc.bufs h)) _ _ h1
  · exact h1

theorem startTables_eq (tag : Nat) (j : Job) : startTables m tag j =
    j.clusters.foldl (fun m h => startCluster m tag j h) (j.dies.foldl (openDie tag j) (startBooks m tag j)) := rfl

/-- What the tables of a start write: a context on each cluster, one open job more on each die, and no job. -/
theorem startTables_starts (tag : Nat) (j : Job) (hfree : ∀ h ∈ j.clusters, (freeCtx (clAt m h.cl)).isSome = true)
    (hcl : (j.clusters.map (·.cl)).Nodup) (hdie : (j.dies.map (·.die)).Nodup) :
    (∀ h ∈ j.clusters, ∃ k, k < 8 ∧ ctxOf (clAt (startTables m tag j) h.cl) k = startCtx tag m.now (streamBase j h.cl) j h)
    ∧ (startTables m tag j).quay.jobs = m.quay.jobs
    ∧ ∀ h ∈ j.dies, (dieAt (startTables m tag j) h.die).openJobs = (dieAt m h.die).openJobs + 1 := by
  obtain ⟨bn, bj, bc, bd⟩ := sameStarts_startBooks m tag j
  rw [startTables_eq]
  obtain ⟨dn, dj, dc, dd⟩ := openDies_keeps (startBooks m tag j) tag j j.dies
  generalize j.dies.foldl (openDie tag j) (startBooks m tag j) = m4 at dn dj dc dd
  obtain ⟨hctx, hjobs, hdies, -⟩ := startClusters_starts m4 tag j (fun h hh => by
    rw [freeCtx_of_ctxs ((dc h.cl).trans (bc h.cl))]
    exact hfree h hh) hcl
  refine ⟨fun h hh => ?_, hjobs.trans (dj.trans bj), fun h hh => ?_⟩
  · obtain ⟨k, hk, e⟩ := hctx h hh
    exact ⟨k, hk, by rw [e, dn, bn]⟩
  · rw [hdies, dd, bd, List.count_eq_one_of_mem hdie (List.mem_map_of_mem hh)]

end

/-- The step of a start whose conditions hold. -/
theorem jobStartStep_starts {m : Module} {tag : Nat} {j : Job} (hj : jobAt m tag = some j) (hp : j.phase = .planned)
    (hpow : m.hedge.power = .active) (hh : holdsFree m tag j = true) (hs : slotsFree m tag j = true) (hpw : powerOk m j = true)
    (hcl : ∀ h ∈ j.clusters, (freeCtx (clAt m h.cl)).isSome = true ∧ spokeReady m (h.cl / 64) = true)
    (hd : ∀ h ∈ j.dies, (stkAt m (2 * h.die)).state = 3 ∧ (stkAt m (2 * h.die + 1)).state = 3) :
    jobStartStep m tag = onJob (startTables (drawSeeds m tag j.floods) tag j) tag
      (fun j => { j with phase := .running, origin := m.now, lastWrite := m.now }) := by
  have h1 : j.clusters.any (fun h => (freeCtx (clAt m h.cl)).isNone || !spokeReady m (dieOf h.cl)) = false := by
    rw [List.any_eq_false]
    intro h hm
    obtain ⟨hf, hr⟩ := hcl h hm
    have hr' : spokeReady m (dieOf h.cl) = true := hr
    rw [hr', ← Option.not_isSome, hf]
    decide
  have h2 : j.dies.any (fun h => !stacksOpen m h.die) = false := by
    rw [List.any_eq_false]
    intro h hm
    obtain ⟨ha, hb⟩ := hd h hm
    unfold stacksOpen stackOpen
    rw [ha, hb]
    decide
  unfold jobStartStep
  rw [hj]
  dsimp only
  rw [if_neg (by simp [hp, hpow, hh, hs, hpw, h1, h2])]

theorem jobAt_drawSeeds {m : Module} {tag : Nat} {j : Job} (hj : jobAt m tag = some j) (n : Nat) :
    ∃ seeds, jobAt (drawSeeds m tag n) tag = some { j with seeds := seeds } ∧ seeds.length = n := by
  refine ⟨(List.range n).map (fun i => Config.drbg (m.hedge.drbgCount + i)), ?_, (List.length_map ..).trans List.length_range⟩
  exact (jobAt_onJob_same ..).trans (congrArg (Option.map _) hj)

/-- Settles O13: the tables of the start are folds over the plan's dies and clusters, and no entry of either is named twice. -/
theorem jobStarts : Obligations.JobStarts := by
  intro s tag j hj hp hpow hh hs hpw hcl hd hncl hnd
  have hstep := jobStartStep_starts hj hp hpow hh hs hpw hcl hd
  obtain ⟨seeds, hseeds, hlen⟩ := jobAt_drawSeeds hj j.floods
  obtain ⟨hctx, hjobs, hopen⟩ := startTables_starts (drawSeeds s.m tag j.floods) tag j (fun h hm => (hcl h hm).1) hncl hnd
  have hjob : jobAt (startTables (drawSeeds s.m tag j.floods) tag j) tag = some { j with seeds := seeds } := by
    rw [← hseeds, jobAt, hjobs, jobAt]
  generalize startTables (drawSeeds s.m tag j.floods) tag j = n at hstep hctx hopen hjob
  refine ⟨_, _, next_of_eq hstep, (jobAt_onJob_same ..).trans (congrArg (Option.map _) hjob), rfl, rfl, hlen, fun h hm => ?_, hopen⟩
  obtain ⟨k, hk, e⟩ := hctx h hm
  refine ⟨k, hk, ?_⟩
  rw [clAt_onJob, e]
  exact ⟨rfl, rfl, rfl, rfl, rfl, rfl⟩

end Sys2Proof.Machine
end

section
/-! PROOFS. The reset of a compute die (R581, R666, R667, R670, R703). -/
namespace Sys2Proof.Machine
open Sys2Proof Sys2Proof.Certificates

/-! ## A change of every cluster of a die -/

/-- The clusters `a` to `a + n - 1`, each changed by `f` of its place. -/
def onClRange (a n : Nat) (f : Nat → Cluster → Cluster) (m : Module) : Module :=
  (List.range n).foldl (fun m l => onCl m (a + l) (f l)) m

section
variable (m : Module) (a : Nat) (f : Nat → Cluster → Cluster)

theorem onClRange_succ (n : Nat) : onClRange a (n + 1) f m = onCl (onClRange a n f m) (a + n) (f n) := by
  unfold onClRange
  rw [List.range_succ, List.foldl_append]
  rfl

theorem clAt_onClRange (n c : Nat) : clAt (onClRange a n f m) c = if a ≤ c ∧ c < a + n then f (c - a) (clAt m c) else clAt m c := by
  induction n with
  | zero => rw [if_neg (by omega)]; rfl
  | succ n ih =>
    rw [onClRange_succ]
    by_cases h : c = a + n
    · subst h
      rw [clAt_onCl_same, ih, if_neg (by omega), if_pos (by omega), Nat.add_sub_cancel_left]
    · rw [clAt_onCl_ne _ _ _ _ h, ih]
      by_cases hc : a ≤ c ∧ c < a + n
      · rw [if_pos hc, if_pos (by omega)]
      · rw [if_neg hc, if_neg (by omega)]

theorem onClRange_only (n : Nat) : onClRange a n f m = { m with clusters := (onClRange a n f m).clusters } :=
  foldl_keeps (fun b : Module => b = { m with clusters := b.clusters }) (fun m l => onCl m (a + l) (f l))
    (fun b l hb => by
      show onCl b _ _ = _
      unfold onCl
      rw [show b = _ from hb]) (List.range n) m rfl

theorem clAt_onClRange_die (d l : Nat) (hl : l < 64) : clAt (onClRange (64 * d) 64 f m) (64 * d + l) = f l (clAt m (64 * d + l)) := by
  rw [clAt_onClRange, if_pos (by omega), Nat.add_sub_cancel_left]

end

/-! ## The kill of several jobs -/

theorem jobAt_finishJob_other (m : Module) {t u : Nat} (hne : u ≠ t) (status detail : BitVec 8) (count : Option Nat)
    (snap : Option (BitVec 64 × List Byte)) : jobAt (finishJob m t status detail count snap) u = jobAt m u := by
  unfold finishJob
  split
  · rfl
  · exact jobAt_onJob_ne _ _ _ _ hne

theorem jobAt_killJob_other (m : Module) {t u : Nat} (hne : u ≠ t) (cause : KillCause) (trip : Option (Nat × Nat)) :
    jobAt (killJob m t cause trip) u = jobAt m u := by
  by_cases hk : ∃ j, jobAt m t = some j ∧ j.killed = none ∧ j.phase ≠ .finishing
  · obtain ⟨j, hj, hkn, hp⟩ := hk
    rw [killJob_eq m t cause trip hj hkn hp]
    extract_lets w m1
    have h1 : jobAt m1 u = jobAt m u := jobAt_onJob_ne _ _ _ _ hne
    generalize hm2 : (if w.started then tearDown m1 t w (killCode cause) else m1) = m2
    have hquay : m2.quay = m1.quay := by
      rw [← hm2]
      split
      · exact (tearDown_rest _ _ _ _).2
      · rfl
    have h2 : jobAt (reseed m2) u = jobAt m1 u := congrArg (fun q : Quay => tget none q.jobs u) hquay
    rw [jobAt_finishJob_other _ hne, h2, h1]
  · rw [killJob_skip]
    intro j hj
    by_contra hn
    rw [not_or, not_not] at hn
    exact hk ⟨j, hj, hn.1, hn.2⟩

theorem mem_compl_killJob {m : Module} {c : Completion} (h : c ∈ m.quay.compl) (t : Nat) (cause : KillCause) (trip : Option (Nat × Nat)) :
    c ∈ (killJob m t cause trip).quay.compl := by
  by_cases hk : ∃ j, jobAt m t = some j ∧ j.killed = none ∧ j.phase ≠ .finishing
  · obtain ⟨j, hj, hkn, hp⟩ := hk
    obtain ⟨x, hx, -⟩ := killJob_queues m t cause trip hj hkn hp
    rw [hx]
    exact List.mem_append_left _ h
  · rw [killJob_skip]
    · exact h
    intro j hj
    by_contra hn
    rw [not_or, not_not] at hn
    exact hk ⟨j, hj, hn.1, hn.2⟩

/-- Each job of a list that is in flight completes with the status and detail of the cause. -/
theorem killJobs_queue {m : Module} {ts : List Nat} {t : Nat} {j : Job} (cause : KillCause) (ht : t ∈ ts) (hj : jobAt m t = some j)
    (hk : j.killed = none) (hp : j.phase ≠ .finishing) :
    ∃ c ∈ (ts.foldl (fun m t => killJob m t cause none) m).quay.compl,
      c.job = some t ∧ c.cid = j.desc.cid ∧ c.status = (killStatus cause).1 ∧ c.detail = (killStatus cause).2 := by
  induction ts generalizing m with
  | nil => cases ht
  | cons u ts ih =>
    rw [List.foldl_cons]
    by_cases hu : t = u
    · subst hu
      obtain ⟨c, hc, hjob, -, hcid, hst, hdet, -⟩ := killJob_queues m t cause none hj hk hp
      have hmem : c ∈ (killJob m t cause none).quay.compl := by
        rw [hc]
        exact List.mem_append_right _ (List.mem_singleton_self c)
      exact ⟨c, foldl_keeps (fun b : Module => c ∈ b.quay.compl) _ (fun b v hb => mem_compl_killJob hb v cause none) ts _ hmem,
        hjob, hcid, hst, hdet⟩
    · exact ih ((List.mem_cons.mp ht).resolve_left hu) ((jobAt_killJob_other m hu cause none).trans hj)

theorem killJobs_rest (m : Module) (ts : List Nat) (cause : KillCause) : SameRest m (ts.foldl (fun m t => killJob m t cause none) m) :=
  foldl_keeps (SameRest m) _ (fun b t hb => hb.trans (killJob_rest b t cause none)) ts m (.refl m)

/-! ## The die -/

section
variable (m : Module) (d : Nat)

/-- The die before its fences settle. -/
def dieCleared : Module :=
  let f := (stkAt m (2 * ((d + 1) % 8))).frame
  let m2 := onClRange (64 * d) 64 (fun _ => resetCluster false) (onDie m d (resetDie false (dieAt m d).mhz))
  let m3 := onStk (onStk m2 (2 * d) (resetStack false false f)) (2 * d + 1) (resetStack false false f)
  { m3 with
    flagIn := m3.flagIn.filter (fun e => decide (e.addr / 2 ^ 14 ≠ d)),
    transit := m3.transit.filter (fun x => match x with
      | .report e _ _ _ => decide (e ≠ d)
      | .credit e _ => decide (e ≠ d)
      | _ => true) }

/-- The Quay without what a die held (R410, R666). -/
def quayWithout (d : Nat) (q : Quay) : Quay := { q with
  quiesceBad := q.quiesceBad.filter (· ≠ d),
  dir := q.dir.filter (fun k => !setOnDie d k),
  replicas := q.replicas.filter (fun r => decide (stkOf r.addr / 2 ≠ d)),
  plans := q.plans.filter (fun p => !planOnDie d p) }

theorem resetOneDie_eq : resetOneDie m d = settleFences (onQuay (dieCleared m d) (quayWithout d)) := rfl

theorem dieCleared_only : (dieCleared m d).quay = m.quay ∧ (dieCleared m d).hedge = m.hedge ∧ (dieCleared m d).aer = m.aer := by
  have h := onClRange_only (onDie m d (resetDie false (dieAt m d).mhz)) (64 * d) (fun _ => resetCluster false) 64
  unfold dieCleared
  generalize onClRange (64 * d) 64 (fun _ => resetCluster false) (onDie m d (resetDie false (dieAt m d).mhz)) = n at h ⊢
  rw [h]
  exact ⟨rfl, rfl, rfl⟩

theorem clAt_dieCleared {l : Nat} (hl : l < 64) : clAt (dieCleared m d) (64 * d + l) = resetCluster false (clAt m (64 * d + l)) := by
  have h := clAt_onClRange_die (onDie m d (resetDie false (dieAt m d).mhz)) (fun _ => resetCluster false) d l hl
  unfold dieCleared
  generalize onClRange (64 * d) 64 (fun _ => resetCluster false) (onDie m d (resetDie false (dieAt m d).mhz)) = n at h ⊢
  exact h

theorem stkAt_dieCleared : (stkAt (dieCleared m d) (2 * d)).state = 2 ∧ (stkAt (dieCleared m d) (2 * d + 1)).state = 2 := by
  unfold dieCleared
  generalize onClRange (64 * d) 64 (fun _ => resetCluster false) (onDie m d (resetDie false (dieAt m d).mhz)) = n
  generalize (stkAt m (2 * ((d + 1) % 8))).frame = f
  have h0 : stkAt (onStk (onStk n (2 * d) (resetStack false false f)) (2 * d + 1) (resetStack false false f)) (2 * d)
      = resetStack false false f (stkAt n (2 * d)) := by
    rw [stkAt_onStk_ne _ _ _ _ (by omega), stkAt_onStk_same]
  exact ⟨congrArg (·.state) h0, congrArg (·.state) (stkAt_onStk_same ..)⟩

/-- What a die reset leaves of its clusters, its stacks and the rest. -/
theorem resetOneDie_leaves : (resetOneDie m d).quay = quayWithout d m.quay ∧ (resetOneDie m d).hedge = m.hedge
    ∧ (resetOneDie m d).aer = m.aer
    ∧ (∀ l, l < 64 → (clAt (resetOneDie m d) (64 * d + l)).wiping = true ∧ (clAt (resetOneDie m d) (64 * d + l)).restricted = true
      ∧ (clAt (resetOneDie m d) (64 * d + l)).ctxs = [])
    ∧ (stkAt (resetOneDie m d) (2 * d)).state = 2 ∧ (stkAt (resetOneDie m d) (2 * d + 1)).state = 2 := by
  obtain ⟨hq, hh, ha⟩ := dieCleared_only m d
  have hcl := fun l (hl : l < 64) => clAt_dieCleared m d hl
  obtain ⟨hs0, hs1⟩ := stkAt_dieCleared m d
  rw [resetOneDie_eq]
  generalize dieCleared m d = n at hq hh ha hcl hs0 hs1 ⊢
  have hset := settleFences_eq (onQuay n (quayWithout d))
  refine ⟨(congrArg (·.quay) hset).trans (congrArg (quayWithout d) hq), (congrArg (·.hedge) hset).trans hh,
    (congrArg (·.aer) hset).trans ha, fun l hl => ?_, ?_, ?_⟩
  · obtain ⟨fl, qs, rs, fr, h⟩ := clAt_settleFences (onQuay n (quayWithout d)) (64 * d + l)
    rw [h, clAt_onQuay, hcl l hl]
    exact ⟨rfl, rfl, rfl⟩
  · rw [stkAt_settleFences]
    exact hs0
  · rw [stkAt_settleFences]
    exact hs1

/-- A die reset: the die's jobs complete, and the die is as a reset leaves it. -/
theorem dieReset_resets (hd : d < 8) (detail : Nat) : DieWasReset m (dieReset m d detail) d := by
  unfold dieReset
  dsimp only
  rw [dif_pos hd]
  have hkill := fun t j (ht : t ∈ jobsOnDie m d) hj hk hp => killJobs_queue (m := m) (t := t) (j := j) (.dieReset ⟨d, hd⟩) ht hj hk hp
  have hrest := killJobs_rest m (jobsOnDie m d) (.dieReset ⟨d, hd⟩)
  generalize (jobsOnDie m d).foldl (fun m t => killJob m t (.dieReset ⟨d, hd⟩) none) m = m1 at hkill hrest
  obtain ⟨hq, hh, ha, hcl, hs0, hs1⟩ := resetOneDie_leaves (reseed m1) d
  generalize resetOneDie (reseed m1) d = m2 at hq hh ha hcl hs0 hs1
  obtain ⟨pba, hevt⟩ := raiseEvt_quay m2 6
  have honly := raiseEvt_only m2 6
  refine ⟨fun t j ht hj hk hp => ?_, fun l hl => ?_, ?_, ?_, fun k hk a hka => ?_, ?_, ?_, ?_, ?_⟩
  · obtain ⟨c, hc, hjob, hcid, hst, hdet⟩ := hkill t j ht hj hk hp
    refine ⟨c, ?_, hjob, hcid, hst, hdet⟩
    show c ∈ (raiseEvt m2 6).quay.compl
    rw [hevt, hq]
    exact hc
  · have h : clAt (raiseEvt m2 6) (64 * d + l) = clAt m2 (64 * d + l) := by rw [honly]; rfl
    have hl' := hcl l hl
    rw [← h] at hl'
    exact hl'
  · have h : stkAt (raiseEvt m2 6) (2 * d) = stkAt m2 (2 * d) := by rw [honly]; rfl
    rw [← h] at hs0
    exact hs0
  · have h : stkAt (raiseEvt m2 6) (2 * d + 1) = stkAt m2 (2 * d + 1) := by rw [honly]; rfl
    rw [← h] at hs1
    exact hs1
  · have hk' : k ∈ (raiseEvt m2 6).quay.dir := hk
    rw [hevt, hq] at hk'
    have hoff : (!setOnDie d k) = true := (List.mem_filter.mp hk').2
    intro he
    rw [show setOnDie d k = true from List.any_eq_true.mpr ⟨a, hka, decide_eq_true he⟩] at hoff
    exact Bool.noConfusion hoff
  · show (raiseEvt m2 6).quay.evt = _
    rw [raiseEvt_evt, hq]
    show m1.quay.evt ||| 64 = m.quay.evt ||| 64
    rw [hrest]
  · show (raiseEvt m2 6).aer ++ _ = _
    rw [raiseEvt_aer, ha]
    show m1.aer ++ _ = _
    rw [hrest]
  · show satAdd (raiseEvt m2 6).quay.ievents 1 = _
    rw [hevt, hq]
    show satAdd m1.quay.ievents 1 = _
    rw [hrest]
  · show (raiseEvt m2 6).hedge.drbgGens = 0
    rw [honly]
    show m2.hedge.drbgGens = 0
    rw [hh]
    rfl

/-- The record of an engine's die reset, and the fence of its cluster, touch the Hedge and the plans alone. -/
theorem engineBlame_only (cl : Nat) (e : Engine) : ∃ h plans, engineBlame m cl e =
    { m with hedge := h, quay := { m.quay with plans := plans } } := by
  unfold engineBlame
  dsimp only
  split
  · obtain ⟨logs, plans, h⟩ := fenceClusters_eq
      { m with hedge := { m.hedge with engineResets := (dieOf cl, engineKey cl e, m.hedge.opsec.toNat) :: m.hedge.engineResets } } [cl] 3
    rw [h]
    exact ⟨_, _, rfl⟩
  · exact ⟨_, m.quay.plans, rfl⟩

theorem blamedReset_resets (hd : d < 8) (cl : Nat) (e : Engine) : DieWasReset m (dieReset (engineBlame m cl e) d 3) d := by
  obtain ⟨h, plans, hb⟩ := engineBlame_only m cl e
  rw [hb]
  exact dieReset_resets { m with hedge := h, quay := { m.quay with plans := plans } } d hd 3

end

/-- A die reset on a module whose firmware runs, by its cause. -/
theorem dieResetStep_runs {m : Module} (d : Nat) (c : DieResetCause) (ha : alive m = true) (hb : m.hedge.boot = .running)
    (hq : c = .quiesceCheck → m.quay.qstate = 1 ∧ d ∈ m.quay.quiesceBad) :
    (∃ k, dieResetStep m d c = dieReset m d k) ∨ ∃ cl e, dieResetStep m d c = dieReset (engineBlame m cl e) d 3 := by
  unfold dieResetStep
  rw [if_neg (by rw [ha, hb]; decide)]
  cases c with
  | quiesceCheck =>
    obtain ⟨hqs, hbad⟩ := hq rfl
    exact .inl ⟨1, if_pos ⟨hqs, List.contains_iff_mem.mpr hbad⟩⟩
  | internalError => exact .inl ⟨2, rfl⟩
  | engineStuck cl e => exact .inr ⟨cl.val, e, rfl⟩
  | linkRetrain => exact .inl ⟨4, rfl⟩

/-- Settles O27: every cause ends in the reset of the die, after the record of the engine that caused it. -/
theorem dieResets : Obligations.DieResets := by
  intro s
  refine ⟨fun d c halive hboot hq => ?_, fun cl e o hrun hover => ?_⟩
  · rcases dieResetStep_runs d.val c halive hboot hq with ⟨k, hstep⟩ | ⟨cl, e, hstep⟩
    · exact ⟨_, next_of_eq hstep, dieReset_resets s.m d d.isLt k⟩
    · exact ⟨_, next_of_eq hstep, blamedReset_resets s.m d d.isLt cl e⟩
  · have hstep : overrunStep s.m cl e = dieReset (engineBlame s.m cl e) (cl.val / 64) 3 := by
      unfold overrunStep
      rw [hrun]
      exact if_pos hover
    exact ⟨_, next_of_eq hstep, blamedReset_resets s.m _ (by omega) cl e⟩

end Sys2Proof.Machine
end

section
/-! PROOFS. The resets of an engine, a stream engine and a Ferry (R193, R313, R340, R349, R462, R483, R664, R670, R691). -/
namespace Sys2Proof.Machine
open Sys2Proof Sys2Proof.Certificates

/-! ## Rows behind the fence -/

theorem mem_dedup_foldl (rs acc : List Nat) (r : Nat) :
    r ∈ rs.foldl (fun (acc : List Nat) r => if acc.contains r then acc else acc ++ [r]) acc ↔ r ∈ acc ∨ r ∈ rs := by
  induction rs generalizing acc with
  | nil => simp
  | cons x rs ih =>
    rw [List.foldl_cons, ih, List.mem_cons]
    split
    · next h =>
      have hx : x ∈ acc := List.contains_iff_mem.mp h
      constructor
      · rintro (h | h)
        · exact .inl h
        · exact .inr (.inr h)
      · rintro (h | rfl | h)
        · exact .inl h
        · exact .inl hx
        · exact .inr h
    · rw [List.mem_append, List.mem_singleton, or_assoc]

/-- A row of some spans is a row of more spans. -/
theorem mem_spanRows_append {as : List Span} {r : Nat} (h : r ∈ spanRows as) (bs : List Span) : r ∈ spanRows (as ++ bs) := by
  unfold spanRows at h ⊢
  rw [mem_dedup_foldl] at h ⊢
  rw [List.flatMap_append, List.mem_append]
  exact h.imp id .inl

/-- The clusters of two modules differ in their fences alone. -/
def OnlyFences (a b : Module) : Prop := ∀ c, clAt b c = { clAt a c with fence := (clAt b c).fence }

theorem OnlyFences.trans {a b c : Module} (h : OnlyFences a b) (g : OnlyFences b c) : OnlyFences a c := fun i => by
  rw [g i, h i]

theorem onlyFences_fenceList (m : Module) (i : Nat) (rows : Cluster → List Nat) (f : Nat) :
    OnlyFences m (onCl m i (fun c => fenceList c (rows c) f)) := by
  intro c
  by_cases h : c = i
  · subst h
    rw [clAt_onCl_same]
    rfl
  · rw [clAt_onCl_ne _ _ _ _ h]

/-- Fencing rows leaves every fenced row behind the fence. -/
theorem rowFenced_onCl_fenceList {m : Module} {c r : Nat} (h : rowFenced (clAt m c) r = true) (i : Nat) (rows : Cluster → List Nat)
    (f : Nat) : rowFenced (clAt (onCl m i (fun c => fenceList c (rows c) f)) c) r = true := by
  by_cases e : c = i
  · subst e
    rw [clAt_onCl_same, rowFenced_fenceList, h, Bool.or_true]
  · rw [clAt_onCl_ne _ _ _ _ e]
    exact h

/-- The rows of a destination that the fence `f` does not hold yet. -/
def freshRows (f : Nat) (d : Nat × Nat × Nat) (c : Cluster) : List Nat :=
  ((List.range (d.2.2 + 1 - d.2.1)).map (d.2.1 + ·)).filter (fun r => !c.fence.any (fun g => decide (g.row = r ∧ g.fence = f)))

theorem fenceDests_cons (m : Module) (f : Nat) (d : Nat × Nat × Nat) (ds : List (Nat × Nat × Nat)) :
    fenceDests m f (d :: ds) = fenceDests (onCl m d.1 (fun c => fenceList c (freshRows f d c) f)) f ds := rfl

theorem onlyFences_fenceDests (m : Module) (f : Nat) (ds : List (Nat × Nat × Nat)) : OnlyFences m (fenceDests m f ds) := by
  induction ds generalizing m with
  | nil => exact fun _ => rfl
  | cons d ds ih =>
    rw [fenceDests_cons]
    exact (onlyFences_fenceList m d.1 (freshRows f d) f).trans (ih _)

theorem rowFenced_fenceDests_of {m : Module} {c r : Nat} (h : rowFenced (clAt m c) r = true) (f : Nat) (ds : List (Nat × Nat × Nat)) :
    rowFenced (clAt (fenceDests m f ds) c) r = true := by
  induction ds generalizing m with
  | nil => exact h
  | cons d ds ih => exact ih (rowFenced_onCl_fenceList h d.1 (freshRows f d) f)

theorem rowFenced_fresh (m : Module) (f : Nat) {d : Nat × Nat × Nat} {r : Nat} (hlo : d.2.1 ≤ r) (hhi : r ≤ d.2.2) :
    rowFenced (clAt (onCl m d.1 (fun c => fenceList c (freshRows f d c) f)) d.1) r = true := by
  rw [clAt_onCl_same, rowFenced_fenceList, Bool.or_eq_true, decide_eq_true_eq]
  by_cases h : (clAt m d.1).fence.any (fun g => decide (g.row = r ∧ g.fence = f)) = true
  · obtain ⟨g, hg, he⟩ := List.any_eq_true.mp h
    exact .inr ((rowFenced_iff _).mpr ⟨g, hg, (of_decide_eq_true he).1⟩)
  · refine .inl (List.mem_filter.mpr ⟨List.mem_map.mpr ⟨r - d.2.1, List.mem_range.mpr (by omega), by omega⟩, ?_⟩)
    rw [Bool.not_eq_true] at h
    rw [h]
    rfl

theorem rowFenced_fenceDests (m : Module) (f : Nat) {ds : List (Nat × Nat × Nat)} {d : Nat × Nat × Nat} (hd : d ∈ ds) {r : Nat}
    (hlo : d.2.1 ≤ r) (hhi : r ≤ d.2.2) : rowFenced (clAt (fenceDests m f ds) d.1) r = true := by
  induction ds generalizing m with
  | nil => cases hd
  | cons e ds ih =>
    rw [fenceDests_cons]
    rcases List.mem_cons.mp hd with rfl | hd
    · exact rowFenced_fenceDests_of (rowFenced_fresh m f hlo hhi) f ds
    · exact ih _ hd

/-! ## Fault injection off -/

section
variable (m : Module) (d : Nat)

/-- Fault injection off changes one die and its stacks, and no memory. -/
theorem fiOff_only : fiOff m d = { m with dies := (fiOff m d).dies, stks := (fiOff m d).stks } := rfl

theorem dieAt_fiOff_other {i : Nat} (h : i ≠ d) : dieAt (fiOff m d) i = dieAt m i := by
  unfold fiOff
  rw [dieAt_onStk, dieAt_onStk, dieAt_onDie_ne _ _ _ _ h]

theorem dieAt_fiOff : dieAt (fiOff m d) d = { dieAt m d with xbaFi := 0, links := (dieAt (fiOff m d) d).links } := by
  unfold fiOff
  rw [dieAt_onStk, dieAt_onStk, dieAt_onDie_same]

theorem stkAt_fiOff (t : Nat) : stkAt (fiOff m d) t = if t / 2 = d then { stkAt m t with fiCtrl := 0 } else stkAt m t := by
  unfold fiOff
  by_cases h1 : t = 2 * d + 1
  · subst h1
    rw [stkAt_onStk_same, stkAt_onStk_ne _ _ _ _ (by omega), stkAt_onDie, if_pos (by omega)]
  · rw [stkAt_onStk_ne _ _ _ _ h1]
    by_cases h0 : t = 2 * d
    · subst h0
      rw [stkAt_onStk_same, stkAt_onDie, if_pos (by omega)]
    · rw [stkAt_onStk_ne _ _ _ _ h0, stkAt_onDie, if_neg (by omega)]

/-- The end of a unit's reset: the DRBG reseeds, fault injection is off, and the unit's die changes. -/
def unitCleared (f : Die → Die) : Module := onDie (fiOff (reseed m) d) d f

theorem unitCleared_only (f : Die → Die) : unitCleared m d f = { m with
    dies := (unitCleared m d f).dies, stks := (unitCleared m d f).stks, hedge := { m.hedge with drbgGens := 0 } } := rfl

theorem clAt_unitCleared (f : Die → Die) (c : Nat) : clAt (unitCleared m d f) c = clAt m c := rfl

theorem dieAt_unitCleared_other (f : Die → Die) {i : Nat} (h : i ≠ d) : dieAt (unitCleared m d f) i = dieAt m i := by
  unfold unitCleared
  rw [dieAt_onDie_ne _ _ _ _ h, dieAt_fiOff_other _ _ h]
  rfl

theorem dieAt_unitCleared (f : Die → Die) : ∃ links, dieAt (unitCleared m d f) d = f { dieAt m d with xbaFi := 0, links := links } := by
  refine ⟨(dieAt (fiOff (reseed m) d) d).links, ?_⟩
  unfold unitCleared
  rw [dieAt_onDie_same, dieAt_fiOff]
  rfl

theorem stkAt_unitCleared (f : Die → Die) (t : Nat) :
    stkAt (unitCleared m d f) t = if t / 2 = d then { stkAt m t with fiCtrl := 0 } else stkAt m t := by
  unfold unitCleared
  rw [stkAt_onDie, stkAt_fiOff]
  rfl

/-- Breakpoints and unchecked mode off. -/
def modeOff (c : Cluster) : Cluster := { c with brk := [], unchecked := 0 }

theorem engineOff_eq : engineOff m d = onClRange (64 * d) 64 (fun _ => modeOff) m := rfl

theorem clAt_onClRange_div (f : Nat → Cluster → Cluster) (c : Nat) : clAt (onClRange (64 * d) 64 f m) c =
    if c / 64 = d then f (c - 64 * d) (clAt m c) else clAt m c := by
  rw [clAt_onClRange]
  by_cases h : c / 64 = d
  · rw [if_pos (by omega), if_pos h]
  · rw [if_neg (by omega), if_neg h]

end

/-! ## An engine -/

section
variable (m : Module) (cl : Nat) (tag : Option Nat) (spans : List Span)

/-- The stopped operations' rows behind the fence, when there are any. -/
def stopAll : Module := if spans = [] then m else stopRanges m cl tag spans

theorem stopAll_only : stopAll m cl tag spans = { m with
    clusters := (stopAll m cl tag spans).clusters, fenceSeq := (stopAll m cl tag spans).fenceSeq } := by
  unfold stopAll
  split <;> rfl

theorem clAt_stopAll_other {c : Nat} (h : c ≠ cl) : clAt (stopAll m cl tag spans) c = clAt m c := by
  unfold stopAll
  split
  · rfl
  · exact clAt_onCl_ne m cl c (fun c => fenceList c (spanRows spans) (fenceFor m tag)) h

theorem clAt_stopAll : ∃ fence, clAt (stopAll m cl tag spans) cl = { clAt m cl with fence := fence }
    ∧ ∀ r ∈ spanRows spans, rowFenced { clAt m cl with fence := fence } r = true := by
  unfold stopAll
  split
  · next h =>
    rw [h]
    exact ⟨_, rfl, nofun⟩
  · refine ⟨_, clAt_onCl_same m cl (fun c => fenceList c (spanRows spans) (fenceFor m tag)), fun r hr => ?_⟩
    have h := rowFenced_fenceList (c := clAt m cl) (spanRows spans) (fenceFor m tag) r
    rw [decide_eq_true hr, Bool.true_or] at h
    exact h

end

/-- What the operations that an engine reset stops would have written. -/
def stopSpans (c : Cluster) (e : Engine) : List Span :=
  (match (engOf c e).run with
    | some r => opWrites e r.regs r.rix
    | none => [])
  ++ (match (engOf c e).pend with
    | some _ => opWrites e (engOf c e).cfg c.rix
    | none => [])

/-- The job of the operations that an engine reset stops. -/
def stopTag (c : Cluster) (e : Engine) : Option Nat := match (engOf c e).run, (engOf c e).pend with
  | some r, _ => some r.job
  | none, some p => some p.job
  | none, none => none

/-- A cluster whose engine has been reset. -/
def engineCleared (e : Engine) (c : Cluster) : Cluster := { onEng c e (fun _ => {}) with
  brk := [], unchecked := 0, rix := clearRix e c.rix, scb := c.scb.filter (fun x => decide (x.eng ≠ engNo e)) }

theorem engineResetStep_eq (m : Module) (cl : Nat) (e : Engine) : engineResetStep m cl e =
    onCl (fiOff (reseed (stopAll m cl (stopTag (clAt m cl) e) (stopSpans (clAt m cl) e))) (dieOf cl)) cl (engineCleared e) := rfl

theorem engOf_engineCleared (e : Engine) (c : Cluster) : engOf (engineCleared e c) e = {} := by
  cases e <;> rfl

theorem engOf_engineCleared_other {e g : Engine} (h : g ≠ e) (c : Cluster) : engOf (engineCleared e c) g = engOf c g := by
  have h1 : engOf (engineCleared e c) g = engOf (onEng c e (fun _ => {})) g := by cases g <;> rfl
  rw [h1, engOf_onEng_ne _ _ h]

theorem engineCleared_keeps (e : Engine) (c : Cluster) : (engineCleared e c).scratch = c.scratch ∧ (engineCleared e c).fence = c.fence := by
  cases e <;> exact ⟨rfl, rfl⟩

theorem engOf_with_fence (c : Cluster) (f : List FenceRow) (g : Engine) : engOf { c with fence := f } g = engOf c g := by
  cases g <;> rfl

/-! ## A stream engine -/

section
variable (m : Module) (d s : Nat)

/-- The rows of a stream engine's destinations behind the fence, when there are any. -/
def streamStopped : Module :=
  let e := tget {} (dieAt m d).ste s
  let f := fenceFor m ((e.active.or e.shadow).map (·.job))
  if streamDests none e = [] then m else { fenceDests m f (streamDests none e) with fenceSeq := max f m.fenceSeq }

/-- Whether a stream engine has a stream of the cluster with this operation number. -/
def streamsOp (e : StreamEngine) (cl opid : Nat) : Bool := [e.active, e.shadow].any (fun o => match o with
  | some t => decide (t.cl = cl ∧ t.opid = opid)
  | none => false)

/-- A cluster of the die of a stream engine that has been reset. -/
def portCleared (e : StreamEngine) (cl : Nat) (c : Cluster) : Cluster := { c with
  rix := c.rix.filter (fun p => decide (p.1 / 4 ≠ 2)),
  scb := c.scb.filter (fun x => decide (x.eng ≠ 4) || !streamsOp e cl x.opid) }

/-- The die of a stream engine that has been reset. -/
def streamCleared (x : Die) : Die := { x with
  ste := tset {} x.ste s {}, sd := x.sd.filter (fun p => decide (p.1 < 8 * s ∨ 8 * s + 8 ≤ p.1)) }

/-- The module before the die's own part of a stream engine's reset. -/
def portsCleared : Module := onClRange (64 * d) 64 (fun l => portCleared (tget {} (dieAt m d).ste s) (64 * d + l))
  (engineOff (streamStopped m d s) d)

theorem streamResetStep_eq : streamResetStep m d s = unitCleared (portsCleared m d s) d (streamCleared s) := rfl

theorem streamStopped_only : streamStopped m d s = { m with
    clusters := (streamStopped m d s).clusters, fenceSeq := (streamStopped m d s).fenceSeq } := by
  unfold streamStopped
  dsimp only
  split
  · rfl
  · generalize fenceFor m _ = f
    have h : ∀ ds (a : Module), fenceDests a f ds = { a with clusters := (fenceDests a f ds).clusters } := by
      intro ds
      induction ds with
      | nil => exact fun _ => rfl
      | cons x ds ih =>
        intro a
        rw [fenceDests_cons, ih]
        rfl
    rw [h]

theorem streamStopped_fences : OnlyFences m (streamStopped m d s) := by
  unfold streamStopped
  dsimp only
  split
  · exact fun _ => rfl
  · exact onlyFences_fenceDests m _ _

theorem rowFenced_streamStopped {x : Nat × Nat × Nat} (hx : x ∈ streamDests none (tget {} (dieAt m d).ste s)) {r : Nat}
    (hlo : x.2.1 ≤ r) (hhi : r ≤ x.2.2) : rowFenced (clAt (streamStopped m d s) x.1) r = true := by
  unfold streamStopped
  dsimp only
  rw [if_neg (List.ne_nil_of_mem hx)]
  exact rowFenced_fenceDests m _ hx hlo hhi

theorem portsCleared_only : portsCleared m d s = { m with
    clusters := (portsCleared m d s).clusters, fenceSeq := (portsCleared m d s).fenceSeq } := by
  have h1 := streamStopped_only m d s
  have h2 := onClRange_only (streamStopped m d s) (64 * d) (fun _ => modeOff) 64
  have h3 := onClRange_only (engineOff (streamStopped m d s) d) (64 * d)
    (fun l => portCleared (tget {} (dieAt m d).ste s) (64 * d + l)) 64
  rw [← engineOff_eq] at h2
  unfold portsCleared
  generalize onClRange (64 * d) 64 _ (engineOff (streamStopped m d s) d) = n3 at h3 ⊢
  generalize engineOff (streamStopped m d s) d = n2 at h2 h3
  generalize streamStopped m d s = n1 at h1 h2
  rw [h3, h2, h1]

theorem clAt_portsCleared (c : Nat) : clAt (portsCleared m d s) c = if c / 64 = d
    then portCleared (tget {} (dieAt m d).ste s) c (modeOff (clAt (streamStopped m d s) c)) else clAt (streamStopped m d s) c := by
  unfold portsCleared
  rw [clAt_onClRange_div, engineOff_eq, clAt_onClRange_div]
  by_cases h : c / 64 = d
  · rw [if_pos h, if_pos h, if_pos h, show 64 * d + (c - 64 * d) = c by omega]
  · rw [if_neg h, if_neg h, if_neg h]

theorem streamsOp_of {e : StreamEngine} {t : Stream} (h : e.active = some t ∨ e.shadow = some t) : streamsOp e t.cl t.opid = true := by
  unfold streamsOp
  rcases h with h | h <;> simp [h]

theorem fence_portsCleared (c : Nat) : (clAt (portsCleared m d s) c).fence = (clAt (streamStopped m d s) c).fence := by
  rw [clAt_portsCleared]
  split <;> rfl

end

/-! ## A Ferry -/

/-- The die of a Ferry that has been reset. -/
def ferryCleared (x : Die) : Die := { resetFerry x with windows := x.windows.map (fun w => { w with frames := [], landed := 0 }) }

theorem ferryResetStep_eq (m : Module) (d : Nat) : ferryResetStep m d = unitCleared (engineOff m d) d ferryCleared := rfl

/-- Settles O28: each reset is a change of its unit after the fence of the stopped work, and the fault injection of its die off. -/
theorem unitResets : Obligations.UnitResets := by
  intro s rest
  refine ⟨fun cl e hr => ?_, fun d k => ?_, fun d => ?_⟩
  · have hstep : resetUnit s.m (.engine cl e) = engineResetStep s.m cl e := if_pos hr
    obtain ⟨fence, hcl, hrows⟩ := clAt_stopAll s.m cl (stopTag (clAt s.m cl) e) (stopSpans (clAt s.m cl) e)
    have honly := stopAll_only s.m cl (stopTag (clAt s.m cl) e) (stopSpans (clAt s.m cl) e)
    have hother := fun {c : Nat} (h : c ≠ cl.val) => clAt_stopAll_other s.m cl (stopTag (clAt s.m cl) e) (stopSpans (clAt s.m cl) e) h
    rw [engineResetStep_eq] at hstep
    generalize stopAll s.m cl _ _ = m0 at hcl honly hother hstep
    have hn : clAt (onCl (fiOff (reseed m0) (dieOf cl)) cl (engineCleared e)) cl
        = engineCleared e { clAt s.m cl with fence := fence } :=
      (clAt_onCl_same ..).trans (congrArg (engineCleared e) hcl)
    obtain ⟨hscr, hfence⟩ := engineCleared_keeps e { clAt s.m cl with fence := fence }
    refine ⟨_, next_of_eq hstep, ?_, fun g hg => ?_, fun x hx => ?_, ?_, ?_, ?_, ?_, fun o ho r hrow => ?_, ?_, ?_, fun j hj => ?_⟩
    · rw [hn]; exact engOf_engineCleared e _
    · rw [hn, engOf_engineCleared_other hg, engOf_with_fence]
    · rw [hn] at hx
      exact of_decide_eq_true (List.mem_filter.mp hx).2
    · rw [hn]; rfl
    · rw [hn]; rfl
    · rw [hn]; rfl
    · rw [hn]; exact hscr
    · have hmem : r ∈ spanRows (stopSpans (clAt s.m cl) e) := by
        unfold stopSpans
        rw [ho]
        exact mem_spanRows_append hrow _
      have hf := hrows r hmem
      rw [hn]
      unfold rowFenced at hf ⊢
      rw [hfence]
      exact hf
    · exact congrArg (·.quay) honly
    · exact congrArg (fun n : Module => { n.hedge with drbgGens := 0 }) honly
    · exact (clAt_onCl_ne _ _ _ _ hj).trans (hother hj)
  · have hstep : resetUnit s.m (.stream d k) = unitCleared (portsCleared s.m d k) d (streamCleared k) := streamResetStep_eq s.m d k
    have honly := portsCleared_only s.m d k
    have hcl := clAt_portsCleared s.m d k
    have hfence := fence_portsCleared s.m d k
    have hstop := streamStopped_fences s.m d k
    have hrows := fun x hx r hlo hhi => rowFenced_streamStopped s.m d k (x := x) hx (r := r) hlo hhi
    generalize portsCleared s.m d k = m1 at hstep honly hcl hfence
    generalize streamStopped s.m d k = m0 at hcl hfence hstop hrows
    have hdie : ∀ i, dieAt m1 i = dieAt s.m i := fun i => by rw [honly]; rfl
    have hstk : ∀ t, stkAt m1 t = stkAt s.m t := fun t => by rw [honly]; rfl
    obtain ⟨links, hd⟩ := dieAt_unitCleared m1 d (streamCleared k)
    have hn := unitCleared_only m1 d (streamCleared k)
    have hother := fun i h => dieAt_unitCleared_other m1 d (streamCleared k) (i := i) h
    have hst := stkAt_unitCleared m1 d (streamCleared k)
    have hcl' := clAt_unitCleared m1 d (streamCleared k)
    generalize unitCleared m1 d (streamCleared k) = n at hstep hd hn hother hst hcl'
    have hsame : ∀ c, c / 64 = d.val → clAt n c = portCleared (tget {} (dieAt s.m d).ste k) c (modeOff (clAt m0 c)) :=
      fun c hc => (hcl' c).trans ((hcl c).trans (if_pos hc))
    have hfc : ∀ c, (clAt n c).fence = (clAt m0 c).fence := fun c => by rw [hcl', hfence]
    refine ⟨n, next_of_eq hstep, ⟨?_, fun i hi => (hother i hi).trans (hdie i), fun t ht => ?_, ?_, fun t ht => ?_⟩, ?_, fun i hi => ?_,
      fun p hp => ?_, fun x hx r hlo hhi => ?_, fun c hc => ?_, fun c hc => ?_, fun t ht hc x hx h4 => ?_, fun c hc x hx h4 => ?_⟩
    · rw [hn, honly]
    · rw [hst, if_neg ht, hstk]
    · rw [hd]; rfl
    · rw [hst, if_pos ht, hstk]; exact ⟨rfl, rfl⟩
    · rw [hd]; exact tget_tset_same _
    · rw [hd, ← hdie d]; exact tget_tset_ne _ hi
    · rw [hd] at hp
      have h := of_decide_eq_true (List.mem_filter.mp hp).2
      omega
    · have h := hrows x hx r hlo hhi
      unfold rowFenced at h ⊢
      rw [hfc]
      exact h
    · rw [hsame c hc, hstop c]
      rfl
    · rw [hcl', hcl, if_neg hc, ← hstop c]
    · rw [hsame t.cl hc] at hx
      have h := (List.mem_filter.mp hx).2
      rw [h4] at h
      intro he
      rw [he, streamsOp_of ht] at h
      exact absurd h (by decide)
    · rw [hsame c hc]
      refine List.mem_filter.mpr ⟨?_, by rw [decide_eq_true h4, Bool.true_or]⟩
      show x ∈ (clAt m0 c).scb
      rw [hstop c]
      exact hx
  · have hstep : resetUnit s.m (.ferry d) = unitCleared (engineOff s.m d) d ferryCleared := ferryResetStep_eq s.m d
    have honly : engineOff s.m d = { s.m with clusters := (engineOff s.m d).clusters } :=
      onClRange_only s.m (64 * d) (fun _ => modeOff) 64
    have hcl : ∀ c, clAt (engineOff s.m d) c = if c / 64 = d.val then modeOff (clAt s.m c) else clAt s.m c :=
      clAt_onClRange_div s.m d (fun _ => modeOff)
    generalize engineOff s.m d = m1 at hstep honly hcl
    have hdie : ∀ i, dieAt m1 i = dieAt s.m i := fun i => by rw [honly]; rfl
    have hstk : ∀ t, stkAt m1 t = stkAt s.m t := fun t => by rw [honly]; rfl
    obtain ⟨links, hd⟩ := dieAt_unitCleared m1 d ferryCleared
    have hn := unitCleared_only m1 d ferryCleared
    have hother := fun i h => dieAt_unitCleared_other m1 d ferryCleared (i := i) h
    have hst := stkAt_unitCleared m1 d ferryCleared
    have hcl' := clAt_unitCleared m1 d ferryCleared
    generalize unitCleared m1 d ferryCleared = n at hstep hd hn hother hst hcl'
    refine ⟨n, next_of_eq hstep, ⟨?_, fun i hi => (hother i hi).trans (hdie i), fun t ht => ?_, ?_, fun t ht => ?_⟩, ?_, ?_, ?_, ?_, ?_, ?_,
      fun w hw k => ?_, fun c hc => ?_, fun c hc => ?_⟩
    · rw [hn, honly]
    · rw [hst, if_neg ht, hstk]
    · rw [hd]; rfl
    · rw [hst, if_pos ht, hstk]; exact ⟨rfl, rfl⟩
    · rw [hd]; rfl
    · rw [hd]; rfl
    · rw [hd]; rfl
    · rw [hd]; rfl
    · rw [hd]; rfl
    · rw [hd]; rfl
    · rw [hd] at hw
      obtain ⟨v, -, rfl⟩ := List.mem_map.mp hw
      rfl
    · rw [hcl', hcl, if_pos hc]
      rfl
    · rw [hcl', hcl, if_neg hc]

end Sys2Proof.Machine
end

section
/-! PROOFS. Pontoon links (R15, R686 to R692): sequence, retry, retrain and injected faults. -/
namespace Sys2Proof.Machine
open Sys2Proof Sys2Proof.Certificates

/-! ## The ends of a link -/

theorem ring_neighbours_ne : ∀ d : Fin 8, d ≠ d - 1 ∧ d ≠ d + 1 := by decide

theorem peerOf_ne (e : LinkEnd) : peerOf e ≠ e := by
  cases e with
  | quay d => exact nofun
  | pon d l =>
    unfold peerOf
    dsimp only
    split
    · next h => rw [h]; exact fun he => absurd (LinkEnd.pon.inj he).2 (by decide)
    · split
      · next h => rw [h]; exact fun he => absurd (LinkEnd.pon.inj he).2 (by decide)
      · exact nofun

section
variable (m : Module) (e : LinkEnd) (f : Link → Link)

theorem linkAt_onLink_same : linkAt (onLink m e f) e = f (linkAt m e) := by
  cases e with
  | pon d l =>
    unfold linkAt onLink
    dsimp only
    rw [dieAt_onDie_same]
    exact tget_tset_same _
  | quay d => exact tget_tset_same _

theorem linkAt_onLink_ne {g : LinkEnd} (h : g ≠ e) : linkAt (onLink m e f) g = linkAt m g := by
  cases e with
  | quay d =>
    cases g with
    | pon d' l' => rfl
    | quay d' => exact tget_tset_ne _ (fun he => h (congrArg LinkEnd.quay (Fin.ext he)))
  | pon d l =>
    cases g with
    | quay d' => rfl
    | pon d' l' =>
      unfold linkAt onLink
      dsimp only
      by_cases hd : d'.val = d.val
      · have hl : l'.val ≠ l.val := fun hl => h (by rw [Fin.ext hd, Fin.ext hl])
        rw [hd, dieAt_onDie_same]
        exact tget_tset_ne _ hl
      · rw [dieAt_onDie_ne _ _ _ _ hd]

theorem linkAt_onQuay {f : Quay → Quay} (hf : ∀ q, (f q).links = q.links) (g : LinkEnd) : linkAt (onQuay m f) g = linkAt m g := by
  cases g with
  | pon d l => rfl
  | quay d => exact congrArg (fun t => tget ({} : Link) t d) (hf m.quay)

/-- A change of a link's far end leaves this end. -/
theorem linkAt_onLink_peer : linkAt (onLink m (peerOf e) f) e = linkAt m e := linkAt_onLink_ne m (peerOf e) f (peerOf_ne e).symm

theorem onLink_rest : (onLink m e f).clusters = m.clusters ∧ (onLink m e f).hedge = m.hedge := by
  cases e <;> exact ⟨rfl, rfl⟩

end

theorem linkAt_onHedge (m : Module) (f : Hedge → Hedge) (g : LinkEnd) : linkAt (onHedge m f) g = linkAt m g := by
  cases g <;> rfl

theorem linkAt_aerReport (m : Module) (a : Aer) (g : LinkEnd) : linkAt (aerReport m a) g = linkAt m g := by
  cases g <;> rfl

theorem linkAt_logLater (m : Module) (a : LogEvent) (g : LinkEnd) : linkAt (logLater m a) g = linkAt m g := by
  cases g <;> rfl

/-! ## A flit -/

theorem links_tget_map {g : Die → Die} (hg : ∀ d, (g d).links = d.links) (t : Tab Die) (k : Nat) :
    (tget ({} : Die) (t.map fun p => (p.1, g p.2)) k).links = (tget {} t k).links := by
  induction t with
  | nil => rfl
  | cons p t ih =>
    obtain ⟨j, v⟩ := p
    rw [List.map_cons]
    unfold tget
    split
    · exact hg v
    · split
      · rfl
      · exact ih

/-- A die whose NEG_COUNT times a retry has put off. -/
def negShifted (now t : Nat) (d : Die) : Die := { d with
  ledger := d.ledger.map (fun q =>
    let later (o : Option Nat) : Option Nat := o.map (fun a => a + (now - max a t))
    (q.1, { q.2 with negFree := later q.2.negFree, negQueued := later q.2.negQueued, negHeld := later q.2.negHeld,
                     negTransit := later q.2.negTransit })) }

theorem shiftNeg_eq (m : Module) (t : Nat) : shiftNeg m t = { m with dies := m.dies.map fun p => (p.1, negShifted m.now t p.2) } := rfl

theorem linkAt_shiftNeg (m : Module) (t : Nat) (g : LinkEnd) : linkAt (shiftNeg m t) g = linkAt m g := by
  cases g with
  | quay d => rfl
  | pon d l =>
    refine congrArg (fun t => tget ({} : Link) t l) ?_
    rw [shiftNeg_eq]
    exact links_tget_map (g := negShifted m.now t) (fun _ => rfl) m.dies d

theorem linkAt_settleRetry (old : Link) (m : Module) (e g : LinkEnd) : linkAt (settleRetry old m e) g = linkAt m g := by
  unfold settleRetry
  split
  · exact linkAt_shiftNeg m _ g
  · rfl

section
variable (l : Link) (b : List Byte)

theorem senderSends_fresh {l : Link} (h : l.retryAt = none) (job : Option Nat) (seq : Word) (b : List Byte) : senderSends job seq b l =
    { l with retry := (l.retry ++ [({ seq := seq, bytes := b, job := job } : RetryFlit)]).take 512, nextSeq := seq + 1 } := by
  unfold senderSends
  rw [h]
  rfl

theorem takeForward_only : takeForward b l = { l with fwd := (takeForward b l).fwd } := by
  unfold takeForward
  split <;> rfl

theorem senderSends_fiCount (job : Option Nat) (seq : Word) : (senderSends job seq b l).fiCount = l.fiCount := by
  unfold senderSends
  split <;> rfl

variable {l b}

theorem receiverTakes_expected (hok : flitOk b = true) (hs : flitSeq b = l.expected) :
    receiverTakes b l = { l with expected := l.expected + 1, discarding := false } := by
  unfold receiverTakes
  exact if_pos (by rw [hok, decide_eq_true hs]; rfl)

theorem receiverTakes_otherSeq (hok : flitOk b = true) (hs : flitSeq b ≠ l.expected) : receiverTakes b l =
    { l with seqErr := satAdd l.seqErr 1, discarding := true, nakTx := if l.discarding then l.nakTx else satAdd l.nakTx 1 } := by
  unfold receiverTakes
  rw [if_neg (by rw [hok, decide_eq_false hs]; decide), hok]
  cases hd : l.discarding
  · rfl
  · dsimp only
    rw [if_pos rfl, if_pos rfl, if_pos rfl, ← hd]

theorem receiverTakes_badCrc (hok : flitOk b = false) : receiverTakes b l =
    { l with crcErr := satAdd l.crcErr 1, discarding := true, nakTx := if l.discarding then l.nakTx else satAdd l.nakTx 1 } := by
  unfold receiverTakes
  rw [hok, Bool.false_and, if_neg Bool.false_ne_true]
  cases hd : l.discarding
  · rfl
  · dsimp only
    rw [if_neg Bool.false_ne_true, if_pos rfl, if_pos rfl, ← hd]

end

/-- What a link end keeps when a flit is handed on to it or delivered at it. -/
theorem linkAt_deliver (m : Module) (e : LinkEnd) (b : List Byte) (g : LinkEnd) :
    linkAt (deliver m e b) g = { linkAt m g with fwd := (linkAt (deliver m e b) g).fwd, rx := (linkAt (deliver m e b) g).rx } := by
  unfold deliver
  split
  · rfl
  · split
    · next n _ =>
      by_cases h : g = n
      · rw [h, linkAt_onLink_same]
      · rw [linkAt_onLink_ne _ _ _ h]
    · by_cases h : g = e
      · rw [h, linkAt_onLink_same]
      · rw [linkAt_onLink_ne _ _ _ h]

theorem deliver_here {m : Module} {e : LinkEnd} {b : List Byte} (h1 : 1 ≤ flitType b) (h4 : flitType b ≤ 4)
    (hd : (∃ d, e = .quay d) ∨ flitDie e b = (linkUnit e).1) : deliver m e b = onLink m e (fun l => { l with rx := b.take 240 }) := by
  have hon : onward m e b = none := by
    cases e with
    | quay d => rfl
    | pon d l =>
      have hdie : flitDie (.pon d l) b = d.val := hd.resolve_left (fun ⟨_, h⟩ => nomatch h)
      unfold onward
      exact if_pos hdie
  unfold deliver
  rw [if_neg (by omega), hon]

theorem onward_ring {m : Module} {b : List Byte} {d : Fin 8} {l : Fin 3} (hd : flitDie (.pon d l) b ≠ d.val) :
    (l = 1 → onward m (.pon d l) b = some (.pon d 0)) ∧ (l = 0 → onward m (.pon d l) b = some (.pon d 1)) := by
  unfold onward
  refine ⟨fun h => ?_, fun h => ?_⟩
  · dsimp only
    rw [if_neg hd, if_pos h]
  · dsimp only
    rw [if_neg hd, if_neg (by rw [h]; decide), if_pos h]

theorem deliver_onward {m : Module} {e n : LinkEnd} {b : List Byte} (h1 : 1 ≤ flitType b) (h4 : flitType b ≤ 4)
    (hn : onward m e b = some n) : deliver m e b = onLink m n (fun l => { l with fwd := l.fwd ++ [b.take 244] }) := by
  unfold deliver
  rw [if_neg (by omega), hn]

section
variable (m : Module) (e : LinkEnd) (b : List Byte)

/-- The module when the far end has sent the flit. -/
def flitSent : Module :=
  onLink m (peerOf e) (fun l => takeForward b (senderSends (flitJob m (peerOf e) b) (sentSeq l b) b l))

theorem flitReceiveStep_eq : flitReceiveStep m e b = receiveAt (flitSent m e b) e b := rfl

theorem linkAt_flitSent : linkAt (flitSent m e b) e = linkAt m e := linkAt_onLink_peer m e _

theorem linkAt_flitSent_peer : linkAt (flitSent m e b) (peerOf e) = takeForward b
    (senderSends (flitJob m (peerOf e) b) (sentSeq (linkAt m (peerOf e)) b) b (linkAt m (peerOf e))) := linkAt_onLink_same m (peerOf e) _

theorem linkAt_flitSent_other {g : LinkEnd} (h : g ≠ peerOf e) : linkAt (flitSent m e b) g = linkAt m g := linkAt_onLink_ne m _ _ h

/-- The module when the receiver has taken the flit and its ACK, before what the flit carries goes on. -/
def flitTaken : Module := settleRetry (linkAt m e) (onLink (onLink m e (receiverTakes b)) e (senderAcked (flitAck b))) e

variable {m e b}

theorem receiveAt_takes (hok : flitOk b = true) (hs : flitSeq b = (linkAt m e).expected) :
    receiveAt m e b = deliver (flitTaken m e b) e b := by
  unfold receiveAt
  dsimp only
  rw [if_pos (by rw [hok, decide_eq_true hs]; rfl)]
  rfl

theorem receiveAt_discards (h : (flitOk b && decide (flitSeq b = (linkAt m e).expected)) = false) :
    receiveAt m e b = onLink m e (receiverTakes b) := by
  unfold receiveAt
  dsimp only
  rw [h]
  rfl

theorem linkAt_flitTaken : linkAt (flitTaken m e b) e = senderAcked (flitAck b) (receiverTakes b (linkAt m e)) := by
  unfold flitTaken
  rw [linkAt_settleRetry, linkAt_onLink_same, linkAt_onLink_same]

theorem linkAt_flitTaken_other {g : LinkEnd} (h : g ≠ e) : linkAt (flitTaken m e b) g = linkAt m g := by
  unfold flitTaken
  rw [linkAt_settleRetry, linkAt_onLink_ne _ _ _ h, linkAt_onLink_ne _ _ _ h]

/-- The end that sent a flit keeps all but what it is to forward, whatever the receiver does with the flit. -/
theorem linkAt_receiveAt_other {g : LinkEnd} (h : g ≠ e) :
    linkAt (receiveAt m e b) g = { linkAt m g with fwd := (linkAt (receiveAt m e b) g).fwd, rx := (linkAt (receiveAt m e b) g).rx } := by
  by_cases hc : flitOk b = true ∧ flitSeq b = (linkAt m e).expected
  · have hd := linkAt_deliver (flitTaken m e b) e b g
    rw [receiveAt_takes hc.1 hc.2]
    rw [linkAt_flitTaken_other h] at hd
    exact hd
  · rw [receiveAt_discards, linkAt_onLink_ne _ _ _ h]
    rw [← Bool.not_eq_true, Bool.and_eq_true, decide_eq_true_eq]
    exact hc

/-- A flit taken: the end that takes it. -/
theorem linkAt_receiveAt_takes (hok : flitOk b = true) (hs : flitSeq b = (linkAt m e).expected) :
    linkAt (receiveAt m e b) e = { senderAcked (flitAck b) { linkAt m e with expected := (linkAt m e).expected + 1, discarding := false } with
      fwd := (linkAt (receiveAt m e b) e).fwd, rx := (linkAt (receiveAt m e b) e).rx } := by
  have hd := linkAt_deliver (flitTaken m e b) e b e
  rw [receiveAt_takes hok hs]
  rw [linkAt_flitTaken, receiverTakes_expected hok hs] at hd
  exact hd

/-- Where what a taken flit carries goes. -/
theorem receiveAt_carries (hok : flitOk b = true) (hs : flitSeq b = (linkAt m e).expected) (h1 : 1 ≤ flitType b) (h4 : flitType b ≤ 4) :
    ((∃ d, e = .quay d) ∨ flitDie e b = (linkUnit e).1 → (linkAt (receiveAt m e b) e).rx = b.take 240)
    ∧ (∀ n, n ≠ e → (∀ a, onward a e b = some n) → (linkAt (receiveAt m e b) n).fwd = (linkAt m n).fwd ++ [b.take 244]
      ∧ (linkAt (receiveAt m e b) e).rx = (linkAt m e).rx) := by
  rw [receiveAt_takes hok hs]
  refine ⟨fun hd => ?_, fun n hn hon => ?_⟩
  · rw [deliver_here h1 h4 hd, linkAt_onLink_same]
  · rw [deliver_onward h1 h4 (hon _), linkAt_onLink_same, linkAt_onLink_ne _ _ _ hn.symm, linkAt_flitTaken_other hn, linkAt_flitTaken,
      receiverTakes_expected hok hs]
    exact ⟨rfl, rfl⟩

end

/-! ## Replays that a link asks for -/

theorem linkAt_askReplay (m : Module) (t : Nat) (c : ReplayCause) (g : LinkEnd) : linkAt (askReplay m t c) g = linkAt m g :=
  linkAt_onQuay m (fun _ => rfl) g

theorem jobAt_askReplay_other (m : Module) {t u : Nat} (h : u ≠ t) (c : ReplayCause) : jobAt (askReplay m t c) u = jobAt m u :=
  jobAt_onJob_ne _ _ _ _ h

theorem replayWaits_askReplay_of {m : Module} {u : Nat} (h : replayWaits m u = true) (t : Nat) (c : ReplayCause) :
    replayWaits (askReplay m t c) u = true := by
  unfold replayWaits at h ⊢
  by_cases hu : u = t
  · subst hu
    unfold askReplay
    rw [jobAt_onJob_same]
    cases hj : jobAt m u with
    | none => rw [hj] at h; exact h
    | some j =>
      rw [hj] at h
      dsimp only [Option.map_some] at h ⊢
      split
      · rfl
      · exact h
  · rw [jobAt_askReplay_other m hu]
    exact h

theorem replayWaits_askReplay {m : Module} {t : Nat} (h : jobReplays m t = true) (c : ReplayCause) : replayWaits (askReplay m t c) t = true := by
  unfold jobReplays at h
  unfold replayWaits askReplay
  rw [jobAt_onJob_same]
  cases hj : jobAt m t with
  | none => rw [hj] at h; exact absurd h Bool.false_ne_true
  | some j =>
    rw [hj] at h
    dsimp only [Option.map_some] at h ⊢
    rw [h, Bool.true_and]
    cases hr : j.replayReq with
    | none => rfl
    | some x => rw [if_neg (by simp), hr]; rfl

theorem replayWaits_askReplays {m : Module} {ts : List Nat} {t : Nat} (ht : t ∈ ts) (h : jobReplays m t = true) (c : ReplayCause) :
    replayWaits (ts.foldl (fun m t => askReplay m t c) m) t = true := by
  induction ts generalizing m with
  | nil => cases ht
  | cons u ts ih =>
    rw [List.foldl_cons]
    by_cases hu : t = u
    · subst hu
      exact foldl_keeps (fun b => replayWaits b t = true) _ (fun b v hb => replayWaits_askReplay_of hb v c) ts _ (replayWaits_askReplay h c)
    · refine ih ((List.mem_cons.mp ht).resolve_left hu) ?_
      unfold jobReplays at h ⊢
      rw [jobAt_askReplay_other m hu]
      exact h

theorem linkAt_askReplays (m : Module) (ts : List Nat) (c : ReplayCause) (g : LinkEnd) :
    linkAt (ts.foldl (fun m t => askReplay m t c) m) g = linkAt m g :=
  foldl_keeps (fun b => linkAt b g = linkAt m g) _ (fun b t hb => (linkAt_askReplay b t c g).trans hb) ts m rfl

/-! ## Exhaustion and retrain -/

section
variable {m : Module} {e : LinkEnd}

theorem exhaustedStep_waits (h : (linkAt m e).training = true ∨ ∀ f ∈ (linkAt m e).retry, f.sends < 9) : exhaustedStep m e = m := by
  unfold exhaustedStep
  refine if_pos ?_
  rcases h with h | h
  · rw [h]; rfl
  · have hany : (linkAt m e).retry.any (fun f => decide (f.sends ≥ 9)) = false := by
      rw [List.any_eq_false]
      intro f hf
      have := h f hf
      rw [decide_eq_true_eq]
      omega
    rw [hany, Bool.not_false, Bool.or_true]

/-- A link in its first attempt to retrain. -/
def retraining (l : Link) : Link :=
  { l with exhaust := satAdd l.exhaust 1, retrain := satAdd l.retrain 1, training := true, attempts := 1 }

theorem exhaustedStep_asks (ht : (linkAt m e).training = false) (hf : ∃ f ∈ (linkAt m e).retry, 9 ≤ f.sends)
    (hj : ∀ j ∈ retryJobs (linkAt m e), jobReplays m j = true) : exhaustedStep m e =
      (retryJobs (linkAt m e)).foldl (fun m t => askReplay m t .pontoon) (logLater (onLink m e retraining) (exhaustEvent e)) := by
  obtain ⟨f, hfm, hfs⟩ := hf
  have hany : (linkAt m e).retry.any (fun f => decide (f.sends ≥ 9)) = true := List.any_eq_true.mpr ⟨f, hfm, decide_eq_true hfs⟩
  have hall : (retryJobs (linkAt m e)).any (fun t => !jobReplays m t) = false := by
    rw [List.any_eq_false]
    intro t htm
    rw [hj t htm]
    decide
  unfold exhaustedStep
  dsimp only
  rw [if_neg (by rw [ht, hany]; decide), if_neg (by rw [hall]; decide)]
  rfl

theorem jobReplays_retraining (t : Nat) : jobReplays (logLater (onLink m e retraining) (exhaustEvent e)) t = jobReplays m t := by
  unfold jobReplays jobAt
  cases e <;> rfl

end

section
variable {m : Module} {e : LinkEnd} (ht : (linkAt m e).training = true)
include ht

theorem retrainStep_good : retrainStep m e true = onLink m e (fun l => { l with
    training := false, attempts := 0, retry := l.retry.map (fun f => { f with sends := 1 }) }) := by
  unfold retrainStep
  dsimp only
  rw [if_neg (by rw [ht]; decide), if_pos rfl]

theorem retrainStep_again (ha : (linkAt m e).attempts < 3) :
    retrainStep m e false = onLink m e (fun l => { l with attempts := l.attempts + 1, retrain := satAdd l.retrain 1 }) := by
  unfold retrainStep
  dsimp only
  rw [if_neg (by rw [ht]; decide), if_neg Bool.false_ne_true, if_pos ha]

theorem retrainStep_dead (ha : 3 ≤ (linkAt m e).attempts) {d : Fin 8} (hp : peerOf e = .quay d) : retrainStep m e false =
    aerReport (onHedge (onLink m e (fun l => { l with training := false, attempts := 0, retry := [], retryAt := none }))
      (fun h => { h with faultPin := true })) (.uncorrectableInternal true) := by
  unfold retrainStep
  dsimp only
  rw [if_neg (by rw [ht]; decide), if_neg Bool.false_ne_true, if_neg (by omega)]
  unfold linkDead
  rw [hp]

end

/-! ## Fault injection -/

/-- A dropped flit is in its sender's retry buffer, and its receiver does not see it. -/
theorem fiLink_drops {m : Module} {e : LinkEnd} (b next : List Byte) (hl : fiLive (linkAt m e).fiCtrl = true)
    (hw : (linkAt m e).fiCtrl.toNat % 4 = 1) : ∃ f : Link → Link, (∀ l, (f l).fiCount = l.fiCount)
      ∧ fiLink m e b next = onLink (onLink m e (fun l => { l with fiCtrl := fiAfter l.fiCtrl, fiCount := satAdd l.fiCount 1 })) e f := by
  unfold fiLink
  dsimp only
  rw [if_neg (by rw [hl]; decide), hw]
  refine ⟨_, fun l => ?_, rfl⟩
  rw [takeForward_only]
  exact senderSends_fiCount l b _ _

section
variable {m : Module} {cl w : Nat}

/-- An injection at a word of a cluster's slice: the word, or its count of wrong bits. -/
def fiWord (n w : Nat) (c : Cluster) : Cluster :=
  if n % 4 = 3 then { c with scratch := mputWords c.scratch w [mword c.scratch w ^^^ BitVec.ofNat 32 (2 ^ bits n 24 20)] }
  else { c with spErr := tset 0 c.spErr w (n % 4) }

theorem fiScratch_injects (hl : fiLive (dieAt m (cl / 64)).xbaFi = true) (hs : bits (dieAt m (cl / 64)).xbaFi.toNat 30 25 = cl % 64)
    (hf : rowFenced (clAt m cl) (w / 64) = false) : fiScratch m cl w =
      onCl (onDie m (cl / 64) (fun x => { x with xbaFi := fiAfter x.xbaFi, xbaFiCount := satAdd x.xbaFiCount 1 })) cl
        (fiWord (dieAt m (cl / 64)).xbaFi.toNat w) := by
  have hd : dieOf cl = cl / 64 := rfl
  have hr : rowFenced (clAt m cl) (rowOf w) = false := hf
  unfold fiScratch
  dsimp only
  rw [hd, if_neg (by rw [hl, decide_eq_false (not_not.mpr hs), hr]; decide)]
  rfl

theorem fiWord_counts {n : Nat} (c : Cluster) (h : n % 4 ≠ 3) : fiWord n w c = { c with spErr := tset 0 c.spErr w (n % 4) } := if_neg h

theorem fiWord_flips {n : Nat} (c : Cluster) (h : n % 4 = 3) : fiWord n w c =
    { c with scratch := mputWords c.scratch w [mword c.scratch w ^^^ BitVec.ofNat 32 (2 ^ bits n 24 20)] } := if_pos h

theorem fiUnit_injects {st off k : Nat} (hl : fiLive (stkAt m st).fiCtrl = true) (hm : bits (stkAt m st).fiCtrl.toNat 1 0 = 1)
    (hk : bits (stkAt m st).fiCtrl.toNat 22 20 = k) (h1 : 1 ≤ k) (h5 : k ≤ 5) (hf : stkFenced (stkAt m st) off = false) :
    fiUnit m st off = onStk m st (fun s => { s with
      err := tset 0 s.err (off / 64) k, fiCtrl := fiAfter s.fiCtrl, fiCount := satAdd s.fiCount 1 }) := by
  unfold fiUnit
  dsimp only
  rw [hk, if_neg]
  rw [hl, hf, decide_eq_false (by omega)]
  decide

end

/-- What a flit that crosses leaves of the end that sent it (R687). -/
theorem flitReceive_sender {m : Module} {e : LinkEnd} (b : List Byte) (h : (linkAt m (peerOf e)).retryAt = none) :
    (linkAt (flitReceiveStep m e b) (peerOf e)).nextSeq = sentSeq (linkAt m (peerOf e)) b + 1
    ∧ ((linkAt m (peerOf e)).retry.length < 512 → ∃ job, (linkAt (flitReceiveStep m e b) (peerOf e)).retry =
        (linkAt m (peerOf e)).retry ++ [{ seq := sentSeq (linkAt m (peerOf e)) b, bytes := b, job := job }]) := by
  have hpeer := linkAt_flitSent_peer m e b
  rw [senderSends_fresh h, takeForward_only] at hpeer
  rw [flitReceiveStep_eq, linkAt_receiveAt_other (peerOf_ne e), hpeer]
  refine ⟨rfl, fun hlen => ⟨_, List.take_of_length_le ?_⟩⟩
  rw [List.length_append, List.length_singleton]
  omega

/-- What a flit in its turn leaves of the end that takes it. -/
theorem flitReceive_takes {m : Module} {e : LinkEnd} {b : List Byte} (hok : flitOk b = true) (hs : flitSeq b = (linkAt m e).expected) :
    linkAt (flitReceiveStep m e b) e =
      { senderAcked (flitAck b) { linkAt m e with expected := (linkAt m e).expected + 1, discarding := false } with
        fwd := (linkAt (flitReceiveStep m e b) e).fwd, rx := (linkAt (flitReceiveStep m e b) e).rx } := by
  have h := linkAt_receiveAt_takes (m := flitSent m e b) (e := e) hok (by rw [linkAt_flitSent]; exact hs)
  rw [linkAt_flitSent] at h
  rw [flitReceiveStep_eq]
  exact h

/-- Where what such a flit carries goes. -/
theorem flitReceive_carries {m : Module} {e : LinkEnd} {b : List Byte} (hok : flitOk b = true) (hs : flitSeq b = (linkAt m e).expected)
    (h1 : 1 ≤ flitType b) (h4 : flitType b ≤ 4) :
    ((∃ d, e = .quay d) ∨ flitDie e b = (linkUnit e).1 → (linkAt (flitReceiveStep m e b) e).rx = b.take 240)
    ∧ (∀ n, n ≠ e → n ≠ peerOf e → (∀ a, onward a e b = some n) →
      (linkAt (flitReceiveStep m e b) n).fwd = (linkAt m n).fwd ++ [b.take 244] ∧ (linkAt (flitReceiveStep m e b) e).rx = (linkAt m e).rx) := by
  obtain ⟨hhere, hon⟩ := receiveAt_carries (m := flitSent m e b) (e := e) hok (by rw [linkAt_flitSent]; exact hs) h1 h4
  rw [flitReceiveStep_eq]
  refine ⟨hhere, fun n hne hnp ho => ?_⟩
  obtain ⟨hfwd, hrx⟩ := hon n hne ho
  rw [linkAt_flitSent_other m e b hnp] at hfwd
  rw [linkAt_flitSent] at hrx
  exact ⟨hfwd, hrx⟩

/-- What a flit out of its turn, or with a wrong FCRC, leaves of the end that discards it. -/
theorem flitReceive_discards {m : Module} {e : LinkEnd} {b : List Byte} (h : (flitOk b && decide (flitSeq b = (linkAt m e).expected)) = false) :
    linkAt (flitReceiveStep m e b) e = receiverTakes b (linkAt m e) := by
  rw [flitReceiveStep_eq, receiveAt_discards (by rw [linkAt_flitSent]; exact h), linkAt_onLink_same, linkAt_flitSent]

/-- Settles O50: every command is a change of one end of a link, of the flit's way on, or of what a fault register names. -/
theorem pontoonLinks : Obligations.PontoonLinks := by
  intro s e r t
  refine ⟨fun b => ?flit, fun q => ⟨fun h => ?nak, fun h => ?noNak⟩, fun h => next_of_eq (exhaustedStep_waits h),
    fun ht hf hj => ?exhausts, fun good ht => next_of_eq ?untrained, fun ht => ?trained, fun ht ha => ?again, fun d ht ha hp => ?dead,
    fun g v => ⟨fun h => next_of_eq (if_pos (by rw [h]; rfl)), fun h => ?arm⟩, fun b next hl hw => ?drop,
    fun cl w => ?scratch, fun u off => ?unit⟩
  case flit =>
    refine ⟨_, rfl, flitReceive_sender b, fun hok hs => ?_, fun hok hs => ?_, fun hok => ?_⟩
    · have hl := flitReceive_takes hok hs
      have hc := flitReceive_carries hok hs
      generalize flitReceiveStep s.m e b = n at hl hc
      refine ⟨?_, ?_, ?_, ?_, ?_, ?_, fun h1 h4 => ⟨(hc h1 h4).1, fun d he hd => ?_, fun d he hd => ?_⟩⟩
      · rw [hl]; rfl
      · rw [hl]; rfl
      · rw [hl]; rfl
      · rw [hl]; rfl
      · rw [hl]; rfl
      · rw [hl]; rfl
      · subst he
        refine (hc h1 h4).2 (.pon d 0) (fun h => ?_) (fun h => ?_) (fun a => (onward_ring hd).1 rfl)
        · exact absurd (LinkEnd.pon.inj h).2 (by decide)
        · exact (ring_neighbours_ne d).1 (LinkEnd.pon.inj h).1
      · subst he
        refine (hc h1 h4).2 (.pon d 1) (fun h => ?_) (fun h => ?_) (fun a => (onward_ring hd).2 rfl)
        · exact absurd (LinkEnd.pon.inj h).2 (by decide)
        · exact (ring_neighbours_ne d).2 (LinkEnd.pon.inj h).1
    · rw [flitReceive_discards (by rw [hok, decide_eq_false hs]; rfl), receiverTakes_otherSeq hok hs]
      exact ⟨rfl, rfl, rfl, rfl, rfl, rfl⟩
    · rw [flitReceive_discards (by rw [hok]; rfl), receiverTakes_badCrc hok]
      exact ⟨rfl, rfl, rfl, rfl, rfl, rfl⟩
  case nak =>
    obtain ⟨f, hf, hq⟩ := h
    exact ⟨_, rfl, (linkAt_onLink_same ..).trans (if_pos (List.any_eq_true.mpr ⟨f, hf, decide_eq_true hq⟩))⟩
  case noNak =>
    refine ⟨_, rfl, (linkAt_onLink_same ..).trans (if_neg fun hany => ?_)⟩
    obtain ⟨f, hf, hq⟩ := List.any_eq_true.mp hany
    exact h f hf (of_decide_eq_true hq)
  case exhausts =>
    refine ⟨_, next_of_eq (exhaustedStep_asks ht hf hj), ?_, fun j hjm => ?_⟩
    · rw [linkAt_askReplays, linkAt_logLater, linkAt_onLink_same]
      rfl
    · exact replayWaits_askReplays hjm ((jobReplays_retraining j).trans (hj j hjm)) .pontoon
  case untrained => exact if_pos (by rw [ht]; rfl)
  case trained => exact ⟨_, next_of_eq (retrainStep_good ht), linkAt_onLink_same ..⟩
  case again => exact ⟨_, next_of_eq (retrainStep_again ht ha), linkAt_onLink_same ..⟩
  case dead =>
    refine ⟨_, next_of_eq (retrainStep_dead ht ha hp), rfl, ?_⟩
    rw [linkAt_aerReport, linkAt_onHedge, linkAt_onLink_same]
  case arm =>
    refine ⟨_, next_of_eq (if_neg (by rw [h]; decide)), ?_⟩
    cases g with
    | pon d l => exact ⟨congrArg (·.fiCtrl) (linkAt_onLink_same s.m (.pon d l) _), rfl, rfl⟩
    | xba d => exact ⟨congrArg (·.xbaFi) (dieAt_onDie_same ..), rfl, rfl⟩
    | msc u => exact ⟨congrArg (·.fiCtrl) (stkAt_onStk_same ..), rfl, rfl⟩
  case drop =>
    obtain ⟨f, hf, hstep⟩ := fiLink_drops b next hl hw
    refine ⟨_, next_of_eq hstep, ?_, ?_⟩
    · rw [linkAt_onLink_ne _ _ _ (peerOf_ne e), linkAt_onLink_ne _ _ _ (peerOf_ne e)]
    · rw [linkAt_onLink_same, hf, linkAt_onLink_same]
  case scratch =>
    intro c f hl hs hf
    refine ⟨_, next_of_eq (fiScratch_injects hl hs hf), fun q hq => ?_, ?_, fun h3 => ?_, fun h3 => ?_⟩
    · rw [clAt_onCl_ne _ _ _ _ hq, clAt_onDie]
    · rw [dieAt_onCl, dieAt_onDie_same]
    · rw [clAt_onCl_same, clAt_onDie, fiWord_counts _ h3]
      exact ⟨tget_tset_same _, rfl⟩
    · rw [clAt_onCl_same, clAt_onDie, fiWord_flips _ h3]
      refine ⟨rfl, fun hwf v => ?_⟩
      dsimp only
      rw [mword_mputWords _ _ _ hwf, List.length_singleton]
      by_cases hv : v = w
      · rw [if_pos (by omega), if_pos hv, hv, Nat.sub_self]
        rfl
      · rw [if_neg (by omega), if_neg hv]
  case unit =>
    intro k hl hm h1 h5 hf
    refine ⟨_, next_of_eq (fiUnit_injects hl hm rfl h1 h5 hf), onStk_onlyStk _ _ _, ?_⟩
    rw [stkAt_onStk_same]
    exact ⟨tget_tset_same _, rfl, rfl⟩

end Sys2Proof.Machine
end

section
/-! PROOFS. The work of an engine's operation (R49, R216, R221, R323, R350, R464): what it leaves as it was. -/
namespace Sys2Proof.Machine
open Sys2Proof Sys2Proof.Certificates

/-! ## Accesses of a slice -/

/-- Two clusters with the same contexts, scoreboard, flags and engines. -/
def SameBooks (a b : Cluster) : Prop :=
  b.ctxs = a.ctxs ∧ b.scb = a.scb ∧ b.flags = a.flags ∧ b.nte = a.nte ∧ b.rme = a.rme ∧ b.vec = a.vec

theorem SameBooks.trans {a b c : Cluster} (h : SameBooks a b) (g : SameBooks b c) : SameBooks a c := by
  obtain ⟨h1, h2, h3, h4, h5, h6⟩ := h
  obtain ⟨g1, g2, g3, g4, g5, g6⟩ := g
  exact ⟨g1.trans h1, g2.trans h2, g3.trans h3, g4.trans h4, g5.trans h5, g6.trans h6⟩

theorem scrWrite_sameBooks (c : Cluster) (w : Nat) (v : Word) : SameBooks c (scrWrite c w v) := by
  unfold scrWrite
  split <;> exact ⟨rfl, rfl, rfl, rfl, rfl, rfl⟩

theorem scrWrites_sameBooks (c : Cluster) (ws : List (Nat × Word)) : SameBooks c (scrWrites c ws) :=
  foldl_keeps (SameBooks c) _ (fun b p hb => hb.trans (scrWrite_sameBooks b p.1 p.2)) ws c ⟨rfl, rfl, rfl, rfl, rfl, rfl⟩

/-- A write, or what the fence makes of it, keeps every other word. -/
theorem mword_scrWrite_other {c : Cluster} {a w : Nat} (v : Word) (hwf : memWf c.scratch = true) (h : a ≠ w) :
    mword (scrWrite c w v).scratch a = mword c.scratch a := by
  unfold scrWrite
  split
  · rfl
  · dsimp only
    rw [mword_mputWords _ _ _ hwf, List.length_singleton, if_neg (by omega)]

theorem mword_scrWrites_other {c : Cluster} {ws : List (Nat × Word)} {a : Nat} (hwf : memWf c.scratch = true)
    (h : ∀ p ∈ ws, p.1 ≠ a) : mword (scrWrites c ws).scratch a = mword c.scratch a := by
  induction ws generalizing c with
  | nil => rfl
  | cons p ws ih =>
    have hstep : scrWrites c (p :: ws) = scrWrites (scrWrite c p.1 p.2) ws := rfl
    rw [hstep, ih (memWf_scrWrite c p.1 p.2 hwf) (fun q hq => h q (List.mem_cons_of_mem _ hq)),
      mword_scrWrite_other p.2 hwf (h p List.mem_cons_self).symm]

section
variable (m : Module) (cl tag : Nat) (reads : List Nat) (writes : List (Nat × Word))

/-- What the accesses of an operation change: the cluster, the job and the Hedge. -/
theorem scrAccess_only : ∃ quay hedge, scrAccess m cl tag reads writes =
    { onCl m cl (fun c => scrWrites (scrReadFx c reads) writes) with quay := quay, hedge := hedge } := by
  unfold scrAccess
  dsimp only
  split
  · exact ⟨_, _, rfl⟩
  · exact ⟨_, _, rfl⟩

end

/-! ## The effect of an operation -/

/-- Two operations alike in what its owner, its registers and its record say. -/
def SameOp (o p : RunOp) : Prop :=
  p.job = o.job ∧ p.ctx = o.ctx ∧ p.opid = o.opid ∧ p.record = o.record ∧ p.dflag = o.dflag ∧ p.frames = o.frames ∧ p.regs = o.regs

/-- The operation as its engine carries it on. -/
def carriedOp (m : Module) (cl : Nat) (o : RunOp) (x : OpOut) (fin : Bool) : RunOp :=
  { runRaised o x.r with
    done := fin
    held := o.held ++ (x.outs.map (fun w => ({ addr := w.1, val := w.2.1, pages := w.2.2 } : HeldWord))).filter (fun w => !heldReady o.pages w)
    memUnc := o.memUnc || (readsLost (clAt m cl) x.reads && !jobReplays m o.job) }

/-- The words that an operation writes at once. -/
def readyWrites (o : RunOp) (x : OpOut) : List (Nat × Word) :=
  ((x.outs.map (fun w => ({ addr := w.1, val := w.2.1, pages := w.2.2 } : HeldWord))).filter (heldReady o.pages)).map (heldVal o.pages)

theorem mem_readyWrites {o : RunOp} {x : OpOut} {p : Nat × Word} (h : p ∈ readyWrites o x) : ∃ q ∈ x.outs, q.1 = p.1 := by
  obtain ⟨w, hw, rfl⟩ := List.mem_map.mp h
  obtain ⟨q, hq, rfl⟩ := List.mem_map.mp (List.mem_filter.mp hw).1
  exact ⟨q, hq, rfl⟩

/-- A cluster after the effect of an operation. -/
def opWorked (m : Module) (cl : Nat) (e : Engine) (o : RunOp) (x : OpOut) (fin : Bool) (c : Cluster) : Cluster :=
  onEng (markUnconf o (scrWrites (scrReadFx c x.reads) (readyWrites o x))) e
    (fun g => { stick g x.r with run := some (carriedOp m cl o x fin) })

theorem opEffect_eq (m : Module) (cl : Nat) (e : Engine) (o : RunOp) (x : OpOut) (fin : Bool) : opEffect m cl e o x fin =
    onCl (scrAccess m cl o.job x.reads (readyWrites o x)) cl (fun c => onEng (markUnconf o c) e
      (fun g => { stick g x.r with run := some (carriedOp m cl o x fin) })) := rfl

section
variable (m : Module) (cl : Nat) (e : Engine) (o : RunOp) (x : OpOut) (fin : Bool)

theorem opEffect_leaves : clAt (opEffect m cl e o x fin) cl = opWorked m cl e o x fin (clAt m cl)
    ∧ (∀ j, j ≠ cl → clAt (opEffect m cl e o x fin) j = clAt m j) ∧ (opEffect m cl e o x fin).dies = m.dies
    ∧ (opEffect m cl e o x fin).stks = m.stks ∧ (opEffect m cl e o x fin).pke = m.pke := by
  obtain ⟨quay, hedge, h⟩ := scrAccess_only m cl o.job x.reads (readyWrites o x)
  rw [opEffect_eq, h]
  refine ⟨?_, fun j hj => ?_, rfl, rfl, rfl⟩
  · rw [clAt_onCl_same]
    exact congrArg (fun c => onEng (markUnconf o c) e (fun g => { stick g x.r with run := some (carriedOp m cl o x fin) }))
      (clAt_onCl_same m cl (fun c => scrWrites (scrReadFx c x.reads) (readyWrites o x)))
  · rw [clAt_onCl_ne _ _ _ _ hj]
    exact clAt_onCl_ne m cl j (fun c => scrWrites (scrReadFx c x.reads) (readyWrites o x)) hj

end

section
variable (o : RunOp) (c : Cluster)

theorem markUnconf_keeps : (markUnconf o c).scb = c.scb ∧ (markUnconf o c).flags = c.flags ∧ (markUnconf o c).scratch = c.scratch := by
  unfold markUnconf
  split <;> exact ⟨rfl, rfl, rfl⟩

theorem engOf_markUnconf (e : Engine) : engOf (markUnconf o c) e = engOf c e := by
  unfold markUnconf
  split
  · rfl
  · rfl
  · exact engOf_onCtx e c _ _

theorem markUnconf_noPages (h : o.pages = []) : markUnconf o c = c := by
  unfold markUnconf
  rw [h]

theorem markUnconf_noRecord (h : o.record = none) : markUnconf o c = c := by
  unfold markUnconf
  rw [h]
  cases o.pages <;> rfl

theorem markUnconf_marks {r : Nat} (hr : o.record = some r) (hp : o.pages ≠ []) : markUnconf o c = onCtx c o.ctx (fun x => { x with
    records := tmod {} x.records r (fun r => { r with unconf := o.pages.any (fun p => p.report.isNone) }) }) := by
  unfold markUnconf
  rw [hr]
  cases h : o.pages with
  | nil => exact absurd h hp
  | cons p ps => rfl

theorem ctxOf_markUnconf_other {k : Nat} (h : k ≠ o.ctx ∨ o.record = none) : ctxOf (markUnconf o c) k = ctxOf c k := by
  cases hr : o.record with
  | none => rw [markUnconf_noRecord o c hr]
  | some r =>
    by_cases hp : o.pages = []
    · rw [markUnconf_noPages o c hp]
    · rw [markUnconf_marks o c hr hp]
      exact ctxOf_onCtx_ne _ _ _ _ (h.resolve_right (by rw [hr]; exact nofun))

end

theorem ctxOf_of_ctxs {a b : Cluster} (h : a.ctxs = b.ctxs) (k : Nat) : ctxOf a k = ctxOf b k := by
  unfold ctxOf
  rw [h]

/-- The effect of an operation that carries on `o` is work of `o`, of the words that it puts out. -/
theorem opEffect_worked (m : Module) (cl : Nat) (e : Engine) {o p : RunOp} (x : OpOut) (fin : Bool) {outs : List (Nat × Word × List Nat)}
    (hop : SameOp o p) (houts : ∀ a ∈ x.outs, ∃ b ∈ outs, b.1 = a.1) : Worked m (opEffect m cl e p x fin) cl e o outs fin := by
  obtain ⟨hjob, hctx, hopid, hrec, hdf, hfr, hregs⟩ := hop
  obtain ⟨hcl, hother, hdies, hstks, hpke⟩ := opEffect_leaves m cl e p x fin
  generalize hw : scrWrites (scrReadFx (clAt m cl) x.reads) (readyWrites p x) = w
  have hbooks : SameBooks (clAt m cl) w := by
    rw [← hw]
    exact SameBooks.trans (b := scrReadFx (clAt m cl) x.reads) ⟨rfl, rfl, rfl, rfl, rfl, rfl⟩ (scrWrites_sameBooks _ _)
  obtain ⟨hc, hscb, hflags, -⟩ := hbooks
  have hrun : (engOf (clAt (opEffect m cl e p x fin) cl) e).run = some (carriedOp m cl p x fin) := by
    rw [hcl]
    unfold opWorked
    rw [engOf_onEng_same]
  have hn : ∃ f, clAt (opEffect m cl e p x fin) cl = onEng (markUnconf p w) e f := ⟨_, hcl.trans (by unfold opWorked; rw [hw])⟩
  obtain ⟨f, hn⟩ := hn
  obtain ⟨-, kscb, kscr, kflags⟩ := onEng_keeps e (markUnconf p w) f
  obtain ⟨uscb, uflags, uscr⟩ := markUnconf_keeps p w
  have hctxs : ∀ k, ctxOf (clAt (opEffect m cl e p x fin) cl) k = ctxOf (markUnconf p w) k := fun k => by rw [hn, ctxOf_onEng]
  refine ⟨⟨_, hrun, rfl, hjob, hctx, hopid, hrec, hdf, hfr, hregs⟩, ?_, ?_, fun k hk => ?_, fun q r hq hr => ⟨fun hp => ?_, fun hp => ?_⟩,
    hother, hdies, hstks, hpke, fun hwf a ha => ?_⟩
  · rw [hn, kscb, uscb, hscb]
  · rw [hn, kflags, uflags, hflags]
  · rw [hctxs, ctxOf_markUnconf_other p w (by rw [hctx, hrec]; exact hk)]
    exact ctxOf_of_ctxs hc k
  · rw [hrun] at hr
    cases hr
    rw [hctxs, markUnconf_noPages p w hp]
    exact ctxOf_of_ctxs hc _
  · rw [hrun] at hr
    cases hr
    have hp' : p.pages ≠ [] := hp
    rw [hctxs, markUnconf_marks p w (hrec.trans hq) hp', hctx, ctxOf_onCtx_same, ctxOf_of_ctxs hc]
    rfl
  · rw [hn, kscr, uscr, ← hw]
    refine mword_scrWrites_other (c := scrReadFx (clAt m cl) x.reads) hwf (fun b hb he => ?_)
    obtain ⟨g, hg, hge⟩ := mem_readyWrites hb
    obtain ⟨h, hh, hhe⟩ := houts g hg
    exact ha h hh (hhe.trans (hge.trans he))

theorem mem_onPages {o : RunOp} {x : OpOut} {a : Nat × Word × List Nat} (h : a ∈ (onPages o x).outs) : ∃ b ∈ x.outs, b.1 = a.1 := by
  obtain ⟨b, hb, rfl⟩ := List.mem_map.mp h
  exact ⟨b, hb, rfl⟩

/-- The words of the freed holding region come after those that the passes put out. -/
theorem mem_freeHold_onPages {o : RunOp} {t : RmeCfg} {nf : Nat} {x : OpOut} {a : Nat × Word × List Nat}
    (h : a ∈ (freeHold t nf (onPages o x)).outs) : ∃ b ∈ (freeHold t nf x).outs, b.1 = a.1 := by
  rcases List.mem_append.mp h with h | h
  · obtain ⟨b, hb, he⟩ := mem_onPages h
    exact ⟨b, List.mem_append_left _ hb, he⟩
  · exact ⟨a, List.mem_append_right _ h, rfl⟩

/-! ## The commands -/

section
variable {m : Module} {cl : Nat} {o : RunOp}

theorem nteStep_works (hrun : (clAt m cl).nte.run = some o) (hd : o.done = false) {op : Nat} (hop : (nteCfg o.regs).op = op) :
    nteStep m cl op = opEffect m cl .nte o (nteRun (clAt m cl) o) true := by
  unfold nteStep
  dsimp only
  rw [hrun]
  exact if_pos ⟨by rw [hd]; rfl, hop⟩

theorem macStep_works (hrun : (clAt m cl).rme.run = some o) (hd : o.done = false) {mode : Nat} (hm : (rmeCfg o.regs).mode = mode) :
    macStep m cl mode = opEffect m cl .rme (withPages o (keyInOf m cl o)) (macRun (clAt m cl) o (keyInOf m cl o)) true := by
  unfold macStep
  dsimp only
  rw [hrun]
  exact if_pos ⟨by rw [hd]; rfl, hm⟩

theorem openStep_works (hrun : (clAt m cl).rme.run = some o) (hd : o.done = false) (hm : (rmeCfg o.regs).mode = 2) (hb : o.blocks = 0)
    (hn : chainNorm (rmeCfg o.regs).chain = none) : openStep m cl = opEffect m cl .rme (withPages o (keyInOf m cl o))
      (onPages (withPages o (keyInOf m cl o)) (openRun (clAt m cl) o)) true := by
  unfold openStep
  dsimp only
  rw [hrun]
  dsimp only
  rw [if_pos ⟨by rw [hd]; rfl, hm, hb⟩, hn]

theorem openStep_drains (hrun : (clAt m cl).rme.run = some o) (hd : o.done = false) (hm : (rmeCfg o.regs).mode = 2) (hb : o.blocks = 0)
    (hn : chainNorm (rmeCfg o.regs).chain ≠ none) : openStep m cl = opEffect m cl .rme
      { withPages o (keyInOf m cl o) with blocks := blockCount (rmeCfg o.regs) }
      (onPages (withPages o (keyInOf m cl o)) ((List.range (min 2 (blockCount (rmeCfg o.regs)))).foldl
        (drainBlock (clAt m cl) o (rmeCfg o.regs)) { c := clAt m cl })) false := by
  obtain ⟨st, hst⟩ := Option.ne_none_iff_exists'.mp hn
  unfold openStep
  dsimp only
  rw [hrun]
  dsimp only
  rw [if_pos ⟨by rw [hd]; rfl, hm, hb⟩, hst]

theorem trailingStep_waits (hrun : (clAt m cl).rme.run = some o) (hp : pagesReported o = false) (block : Nat) :
    trailingStep m cl block = m := by
  unfold trailingStep
  dsimp only
  rw [hrun]
  dsimp only
  split
  · exact if_neg (by rw [hp]; exact fun h => absurd h.2.2.2 Bool.false_ne_true)
  · rfl

/-- What a trailing pass puts out. -/
def passOut (m : Module) (c : Cluster) (o : RunOp) (t : RmeCfg) (st : Stage) : OpOut :=
  let x := passBlock o t st { c := c } o.passed
  let x1 := onPages o (if o.passed + 2 < o.blocks then drainBlock c o t x (o.passed + 2) else x)
  if decide (o.passed + 1 = o.blocks) then freeHold t m.free x1 else x1

theorem trailingStep_passes (hrun : (clAt m cl).rme.run = some o) (hd : o.done = false) (hp : pagesReported o = true)
    (hb : o.passed < o.blocks) {st : Stage} (hst : chainNorm (rmeCfg o.regs).chain = some st) : ∃ free, trailingStep m cl o.passed =
      { opEffect m cl .rme { o with passed := o.passed + 1 } (passOut m (clAt m cl) o (rmeCfg o.regs) st)
          (decide (o.passed + 1 = o.blocks)) with free := free } := by
  unfold trailingStep
  dsimp only
  rw [hrun]
  dsimp only
  rw [hst]
  dsimp only
  rw [if_pos ⟨by rw [hd]; rfl, rfl, hb, hp⟩]
  exact ⟨_, rfl⟩

theorem mem_passOut {c : Cluster} {t : RmeCfg} {st : Stage} {a : Nat × Word × List Nat} (h : a ∈ (passOut m c o t st).outs) :
    ∃ b ∈ (let y := passBlock o t st { c := c } o.passed
           if o.passed + 2 < o.blocks then (drainBlock c o t y (o.passed + 2)).outs
           else if o.passed + 1 = o.blocks then (freeHold t m.free y).outs else y.outs), b.1 = a.1 := by
  unfold passOut at h
  dsimp only at h ⊢
  by_cases h2 : o.passed + 2 < o.blocks
  · rw [if_pos h2, if_neg (by rw [decide_eq_true_eq]; omega)] at h
    rw [if_pos h2]
    exact mem_onPages h
  · rw [if_neg h2] at h ⊢
    by_cases h1 : o.passed + 1 = o.blocks
    · rw [if_pos (decide_eq_true h1)] at h
      rw [if_pos h1]
      exact mem_freeHold_onPages h
    · rw [if_neg (by rw [decide_eq_true_eq]; exact h1)] at h
      rw [if_neg h1]
      exact mem_onPages h

theorem vecStep_works (hrun : (clAt m cl).vec.run = some o) (hd : o.done = false) (hp : (vecProg o.word (vecCfg o.regs)).any
    (fun u => !uopOk (vecCfg o.regs).luten (vecCfg o.regs).w (vecCfg o.regs).l u) = false) :
    vecStep m cl = opEffect m cl .vec o (vecRun (clAt m cl) o (vecProg o.word (vecCfg o.regs))) true := by
  unfold vecStep
  dsimp only
  rw [hrun]
  dsimp only
  rw [hd, if_neg Bool.false_ne_true, hp, if_neg Bool.false_ne_true]

end

/-- Settles O38: each command is the effect of its operation, which changes the engine, its record and the words that it puts out. -/
theorem engineOperations : Obligations.EngineOperations := by
  intro s cl o c t hd
  have hself : SameOp o o := ⟨rfl, rfl, rfl, rfl, rfl, rfl, rfl⟩
  have hpaged : ∀ y, SameOp o (withPages o y) := fun y => ⟨rfl, rfl, rfl, rfl, rfl, rfl, rfl⟩
  refine ⟨fun hrun cmd hcmd => ?_, fun hrun cmd hcmd => ?_, fun hrun hm hb hn => ?_, fun hrun hm hb hn => ?_,
    fun hrun hp => next_of_eq (trailingStep_waits hrun hp _), fun hrun hp hb st hst => ?_, fun hrun hp => ?_⟩
  · have hw := opEffect_worked s.m cl .nte (nteRun c o) true hself (fun a ha => ⟨a, ha, rfl⟩)
    rcases hcmd with ⟨rfl, hop⟩ | ⟨rfl, hop⟩
    · exact ⟨_, next_of_eq (nteStep_works hrun hd hop), hw⟩
    · exact ⟨_, next_of_eq (nteStep_works hrun hd hop), hw⟩
  · have hw := opEffect_worked s.m cl .rme (macRun c o (keyInOf s.m cl o)) true (hpaged (keyInOf s.m cl o)) (fun a ha => ⟨a, ha, rfl⟩)
    rcases hcmd with ⟨rfl, hm⟩ | ⟨rfl, hm⟩
    · exact ⟨_, next_of_eq (macStep_works hrun hd hm), hw⟩
    · exact ⟨_, next_of_eq (macStep_works hrun hd hm), hw⟩
  · exact ⟨_, next_of_eq (openStep_works hrun hd hm hb hn), opEffect_worked s.m cl .rme _ true (hpaged _) (fun a ha => mem_onPages ha)⟩
  · refine ⟨_, next_of_eq (openStep_drains hrun hd hm hb hn),
      opEffect_worked s.m cl .rme _ false ⟨rfl, rfl, rfl, rfl, rfl, rfl, rfl⟩ (fun a ha => mem_onPages ha), ?_⟩
    rw [(opEffect_leaves ..).1]
    exact ⟨_, rfl, rfl, rfl⟩
  · obtain ⟨free, hstep⟩ := trailingStep_passes hrun hd hp hb hst
    have hw := opEffect_worked s.m cl .rme (o := o) (p := { o with passed := o.passed + 1 }) (passOut s.m c o t st)
      (decide (o.passed + 1 = o.blocks)) ⟨rfl, rfl, rfl, rfl, rfl, rfl, rfl⟩ (fun a ha => mem_passOut ha)
    refine ⟨_, next_of_eq hstep, hw, ?_⟩
    have hcl := (opEffect_leaves s.m cl .rme { o with passed := o.passed + 1 } (passOut s.m c o t st) (decide (o.passed + 1 = o.blocks))).1
    generalize opEffect s.m cl .rme { o with passed := o.passed + 1 } (passOut s.m c o t st) (decide (o.passed + 1 = o.blocks)) = n at hcl
    have hn : clAt { n with free := free } cl = clAt n cl := rfl
    rw [hn, hcl]
    exact ⟨_, rfl, rfl, rfl⟩
  · exact ⟨_, next_of_eq (vecStep_works hrun hd hp), opEffect_worked s.m cl .vec _ true hself (fun a ha => ⟨a, ha, rfl⟩)⟩

end Sys2Proof.Machine
end

section
/-! PROOFS. What an NTE operation of one limb writes, and what a residue sum is (R165, R170, R173, R177, R180, R181). -/
namespace Sys2Proof.Machine
open Sys2Proof Sys2Proof.Certificates

/-! ## The transforms -/

theorem invBlock_length (q psi logn : Nat) : ∀ k i (a : List Nat), a.length = 2 ^ k → (invBlock q psi logn k i a).length = 2 ^ k
  | 0, _, a, h => h
  | k + 1, i, a, h => by
    have hk : a.length = 2 ^ k + 2 ^ k := by rw [h, pow_succ]; omega
    have hlo := invBlock_length q psi logn k (2 * i) (a.take (2 ^ k)) (by rw [List.length_take]; omega)
    have hhi := invBlock_length q psi logn k (2 * i + 1) (a.drop (2 ^ k)) (by rw [List.length_drop]; omega)
    unfold invBlock
    dsimp only
    rw [List.length_append, List.length_zipWith, List.length_zipWith, hlo, hhi, pow_succ]
    omega

theorem fwdBlock_below {q : Nat} (hq : 0 < q) (psi logn : Nat) : ∀ k i (a : List Nat), (∀ x ∈ a, x < q) →
    ∀ x ∈ fwdBlock q psi logn k i a, x < q
  | 0, _, _, h => h
  | k + 1, i, a, _ => by
    intro x hx
    unfold fwdBlock at hx
    dsimp only at hx
    rcases List.mem_append.mp hx with hx | hx
    · refine fwdBlock_below hq psi logn k _ _ (fun y hy => ?_) x hx
      obtain ⟨j, hj, rfl⟩ := List.mem_iff_getElem.mp hy
      rw [List.getElem_zipWith]
      exact Nat.mod_lt _ hq
    · refine fwdBlock_below hq psi logn k _ _ (fun y hy => ?_) x hx
      obtain ⟨j, hj, rfl⟩ := List.mem_iff_getElem.mp hy
      rw [List.getElem_zipWith]
      exact Nat.mod_lt _ hq

/-- The transform of kind `inv` of a limb (R171, R172). -/
def limbNtt (inv : Bool) (e : ModEntry) (logn : Nat) (a : List Nat) : List Nat :=
  if inv then nttInv e.q.toNat (psiInvN e logn) logn 1 a else nttFwd e.q.toNat (psiN e logn) logn 1 a

theorem limbNtt_length (inv : Bool) (e : ModEntry) {logn : Nat} {a : List Nat} (h : a.length = 2 ^ logn) : (limbNtt inv e logn a).length = 2 ^ logn := by
  unfold limbNtt
  split
  · unfold nttInv
    dsimp only
    rw [List.length_map, invBlock_length _ _ _ _ _ _ h]
  · unfold nttFwd
    exact fwdBlock_length _ _ _ _ _ _ (by rw [List.length_map, h])

theorem limbNtt_below (inv : Bool) {e : ModEntry} (hq : 0 < e.q.toNat) (logn : Nat) (a : List Nat) : ∀ x ∈ limbNtt inv e logn a, x < e.q.toNat := by
  intro x hx
  unfold limbNtt at hx
  split at hx
  · unfold nttInv at hx
    obtain ⟨y, -, rfl⟩ := List.mem_map.mp hx
    exact Nat.mod_lt _ hq
  · unfold nttFwd at hx
    refine fwdBlock_below hq _ _ _ _ _ (fun y hy => ?_) x hx
    obtain ⟨z, -, rfl⟩ := List.mem_map.mp hy
    exact Nat.mod_lt _ hq

/-! ## A run of words written to a slice without a fence -/

theorem scrWrite_fence (c : Cluster) (w : Nat) (v : Word) : (scrWrite c w v).fence = c.fence := by
  unfold scrWrite
  split <;> rfl

theorem mword_scrWrites_run {c : Cluster} (a : Nat) {vs : List Word} {j : Nat} (hj : j < vs.length) (hf : c.fence = [])
    (hwf : memWf c.scratch = true) (k : Nat) :
    mword (scrWrites c ((vs.zipIdx k).map (fun p => (a + p.2, p.1)))).scratch (a + k + j) = vs[j] := by
  induction vs generalizing c k j with
  | nil => cases hj
  | cons v vs ih =>
    have hstep : scrWrites c (((v :: vs).zipIdx k).map (fun p => (a + p.2, p.1)))
        = scrWrites (scrWrite c (a + k) v) ((vs.zipIdx (k + 1)).map (fun p => (a + p.2, p.1))) := rfl
    have hf' : (scrWrite c (a + k) v).fence = [] := (scrWrite_fence c _ v).trans hf
    have hwf' := memWf_scrWrite c (a + k) v hwf
    rw [hstep]
    cases j with
    | zero =>
      rw [mword_scrWrites_other hwf', mword_scrWrite _ _ v hf hwf, if_pos (Nat.add_zero _)]
      · rfl
      · intro p hp
        obtain ⟨q, hq, rfl⟩ := List.mem_map.mp hp
        have := (List.mem_zipIdx hq).1
        dsimp only
        omega
    | succ j =>
      have h := ih (j := j) (by simpa using hj) hf' hwf' (k + 1)
      rw [show a + k + (j + 1) = a + (k + 1) + j by omega, h]
      rfl

/-- An operation whose words depend on no page writes them all at once, as they are. -/
theorem readyWrites_putRun (o : RunOp) (c : Cluster) (a : Nat) (vs : List Word) (r : Raised) (rd : List Nat) :
    readyWrites o ((({ c := c } : OpOut).see r rd).putRun a vs) = vs.zipIdx.map (fun p => (a + p.2, p.1)) := by
  unfold readyWrites
  have hready : ∀ w ∈ ((({ c := c } : OpOut).see r rd).putRun a vs).outs.map
      (fun w => ({ addr := w.1, val := w.2.1, pages := w.2.2 } : HeldWord)), w.pages = [] := by
    intro w hw
    obtain ⟨b, hb, rfl⟩ := List.mem_map.mp hw
    obtain ⟨p, -, rfl⟩ := List.mem_map.mp hb
    rfl
  rw [List.filter_eq_self.mpr (fun w hw => by unfold heldReady; rw [hready w hw]; rfl)]
  show ((vs.zipIdx.map (fun p => (a + p.2, p.1, ([] : List Nat)))).map _).map _ = _
  rw [List.map_map, List.map_map]
  rfl

/-! ## One limb -/

section
variable {c : Cluster} {o : RunOp} {t : NteCfg}

/-- A slice without a fence, a mark or a memory error, read by an operation for which no row is zeroed. -/
def clean (c : Cluster) (o : RunOp) : Prop := c.fence = [] ∧ c.poisoned = [] ∧ c.spErr = [] ∧ o.zeroRows = []

theorem scrWord_clean (h : clean c o) (w : Nat) : scrWord c o.zeroRows w = mword c.scratch w := by
  obtain ⟨hf, hp, hs, hz⟩ := h
  unfold scrWord rowFenced
  rw [hf, hp, hs, hz]
  rfl

/-- The input words of the first limb. -/
def limbWords (c : Cluster) (t : NteCfg) : List Nat := (List.range (2 ^ t.logn)).map (fun j => (mword c.scratch (t.src % 2 ^ 21 + j)).toNat)

theorem pro_nil (h : t.chain.stages = []) : t.chain.pro = [] ∧ t.chain.epi = [] := by
  unfold Chain.pro Chain.epi
  rw [h]
  exact ⟨List.take_nil, List.drop_nil⟩

theorem limbIn_clean (h : clean c o) (hs : t.chain.stages = []) (q : Nat) : limbIn c o t 0 q =
    { vs := limbWords c t, reads := (List.range (2 ^ t.logn)).map (t.src % 2 ^ 21 + 0 * t.stride + ·) } := by
  have hg : nteGdecomp t = none := by
    unfold nteGdecomp
    rw [(pro_nil hs).1]
  unfold limbIn limbWords scrRun
  rw [hg]
  dsimp only
  rw [(pro_nil hs).1, List.map_map, Nat.zero_mul, Nat.add_zero]
  have hw : (fun x : Word => x.toNat) ∘ (fun i => scrWord c o.zeroRows (t.src % 2 ^ 21 + i))
      = fun j => (mword c.scratch (t.src % 2 ^ 21 + j)).toNat := funext fun j => congrArg BitVec.toNat (scrWord_clean h _)
  rw [hw]
  rfl

theorem foldl_and_nothing {α : Type} (l : List (α × Raised × List Nat)) (h : ∀ x ∈ l, x.2.1 = {}) :
    l.foldl (fun r x => r.and x.2.1) ({} : Raised) = {} := by
  induction l with
  | nil => rfl
  | cons x l ih =>
    rw [List.foldl_cons, h x List.mem_cons_self]
    exact ih (fun y hy => h y (List.mem_cons_of_mem _ hy))

theorem limbStages_none (e : ModEntry) (i i0 : Nat) (vs : List Nat) : limbStages c o t e i i0 [] vs = (vs, {}, []) := by
  unfold limbStages
  dsimp only [resStages]
  rw [if_pos rfl, List.map_map, foldl_and_nothing]
  · have hfst : (fun x : Nat × Raised × List Nat => x.1) ∘ (fun p : Nat × Nat => (p.1, ({} : Raised), ([] : List Nat))) = Prod.fst := rfl
    rw [hfst, List.zipIdx_map_fst]
  · intro x hx
    obtain ⟨p, -, rfl⟩ := List.mem_map.mp hx
    rfl

/-- Whether a word of the first limb is at or above the prime (R173). -/
def limbAbove (c : Cluster) (t : NteCfg) (e : ModEntry) : Bool := (limbWords c t).any (fun v => e.valid && decide (v ≥ e.q.toNat))

theorem nteLimb_invalid (he : entFor (entOf o t.midx) t.logn = false) :
    ∃ dom rd, nteLimb o t { c := c } 0 = (({ c := c } : OpOut).see { modInvalid := true, domain := dom } rd).putRun (t.dst % 2 ^ 21)
      (List.replicate (2 ^ t.logn) 0) := by
  unfold nteLimb
  dsimp only
  rw [Nat.zero_mul, Nat.add_zero, Nat.zero_mul, Nat.add_zero, he]
  exact ⟨_, _, rfl⟩

theorem nteLimb_valid (h : clean c o) (hs : t.chain.stages = []) (hm : t.cmul = false) (he : entFor (entOf o t.midx) t.logn = true)
    (inv : Bool) (hop : t.op = b2n inv) : ∃ r rd, r.domain = limbAbove c t (entOf o t.midx) ∧
      nteLimb o t { c := c } 0 = (({ c := c } : OpOut).see r rd).putRun (t.dst % 2 ^ 21)
        ((if limbAbove c t (entOf o t.midx) then List.replicate (2 ^ t.logn) 0
          else limbNtt inv (entOf o t.midx) t.logn (limbWords c t)).map (BitVec.ofNat 32)) := by
  have hg : (nteGdecomp t).isSome = false := by
    unfold nteGdecomp
    rw [(pro_nil hs).1]
    rfl
  have htr : (if t.op = 0 then nttFwd (entOf o t.midx).q.toNat (psiN (entOf o t.midx) t.logn) t.logn 1 (limbWords c t)
      else nttInv (entOf o t.midx).q.toNat (psiInvN (entOf o t.midx) t.logn) t.logn 1 (limbWords c t))
      = limbNtt inv (entOf o t.midx) t.logn (limbWords c t) := by
    rw [hop]
    cases inv <;> rfl
  unfold nteLimb
  dsimp only
  rw [Nat.zero_mul, Nat.add_zero, Nat.zero_mul, Nat.add_zero, he, limbIn_clean h hs, hm, hg, (pro_nil hs).1, (pro_nil hs).2]
  cases hdom : limbAbove c t (entOf o t.midx) with
  | false =>
    have hany : (limbWords c t).any (fun v => (entOf o t.midx).valid && decide (v ≥ (entOf o t.midx).q.toNat)) = false := hdom
    simp only [limbStages_none, hany, Bool.not_true, Bool.false_eq_true, if_false, Bool.false_and, Bool.or_false, Bool.true_and, htr]
    exact ⟨_, _, rfl, rfl⟩
  | true =>
    have hany : (limbWords c t).any (fun v => (entOf o t.midx).valid && decide (v ≥ (entOf o t.midx).q.toNat)) = true := hdom
    simp only [limbStages_none, hany, Bool.not_true, Bool.false_eq_true, if_false, if_true, Bool.false_and, Bool.or_false, Bool.true_and]
    exact ⟨_, _, rfl, rfl⟩

end

/-! ## The command -/

section
variable {m : Module} {cl : Nat} {o : RunOp} {t : NteCfg}

/-- What an operation that puts out one run of words leaves of a slice without a fence. -/
theorem opEffect_run (hf : (clAt m cl).fence = []) (hwf : memWf (clAt m cl).scratch = true) (c : Cluster) (r : Raised) (rd : List Nat)
    (a : Nat) (vs : List Word) :
    (∀ j (hj : j < vs.length), mword (clAt (opEffect m cl .nte o ((({ c := c } : OpOut).see r rd).putRun a vs) true) cl).scratch (a + j)
      = vs[j])
    ∧ (clAt (opEffect m cl .nte o ((({ c := c } : OpOut).see r rd).putRun a vs) true) cl).nte.modInvalid
      = ((clAt m cl).nte.modInvalid || (Raised.and {} r).modInvalid)
    ∧ (clAt (opEffect m cl .nte o ((({ c := c } : OpOut).see r rd).putRun a vs) true) cl).nte.domain
      = ((clAt m cl).nte.domain || (Raised.and {} r).domain) := by
  rw [(opEffect_leaves ..).1]
  unfold opWorked
  rw [readyWrites_putRun]
  generalize hw : scrWrites (scrReadFx (clAt m cl) _) (vs.zipIdx.map (fun p => (a + p.2, p.1))) = w
  have hbooks : SameBooks (clAt m cl) w := by
    rw [← hw]
    exact SameBooks.trans (b := scrReadFx (clAt m cl) _) ⟨rfl, rfl, rfl, rfl, rfl, rfl⟩ (scrWrites_sameBooks _ _)
  obtain ⟨-, -, -, hnte, -⟩ := hbooks
  have hnte' : (markUnconf o w).nte = (clAt m cl).nte := (engOf_markUnconf o w .nte).trans hnte
  refine ⟨fun j hj => ?_, ?_, ?_⟩
  · have hscr : (onEng (markUnconf o w) .nte (fun g => { stick g ((({ c := c } : OpOut).see r rd).putRun a vs).r with
        run := some (carriedOp m cl o ((({ c := c } : OpOut).see r rd).putRun a vs) true) })).scratch = w.scratch :=
      (onEng_keeps .nte _ _).2.2.1.trans (markUnconf_keeps o w).2.2
    rw [hscr, ← hw]
    exact mword_scrWrites_run (c := scrReadFx (clAt m cl) _) a hj hf hwf 0
  · exact congrArg (fun g => (stick g ((({ c := c } : OpOut).see r rd).putRun a vs).r).modInvalid) hnte'
  · exact congrArg (fun g => (stick g ((({ c := c } : OpOut).see r rd).putRun a vs).r).domain) hnte'

theorem nteRun_single (c : Cluster) (h : (nteCfg o.regs).count = 1) : nteRun c o = nteLimb o (nteCfg o.regs) { c := c } 0 := by
  unfold nteRun
  dsimp only
  rw [h]
  rfl

theorem exec_nte (s : State) (cl : Fin 512) (inv : Bool) :
    exec (if inv then .nteInv cl else .nteFwd cl) s = .next { s with m := nteStep s.m cl (b2n inv) } := by
  cases inv <;> rfl

theorem limbAbove_iff {c : Cluster} {e : ModEntry} (hv : e.valid = true) : limbAbove c t e = true ↔ ∃ v ∈ limbWords c t, e.q.toNat ≤ v := by
  unfold limbAbove
  rw [List.any_eq_true]
  refine exists_congr fun v => and_congr_right fun _ => ?_
  rw [hv, Bool.true_and, decide_eq_true_eq]

end

/-! ## Residue sums -/

theorem raised_foldl (l : List (Option Nat × Raised × List Nat × List Nat)) (r : Raised) :
    (l.foldl (fun r x => r.and x.2.1) r).domain = (r.domain || l.any (fun x => x.2.1.domain))
    ∧ (l.foldl (fun r x => r.and x.2.1) r).modInvalid = (r.modInvalid || l.any (fun x => x.2.1.modInvalid))
    ∧ (l.foldl (fun r x => r.and x.2.1) r).dead = (r.dead || l.any (fun x => x.2.1.dead)) := by
  induction l generalizing r with
  | nil => simp
  | cons x l ih =>
    obtain ⟨h1, h2, h3⟩ := ih (r.and x.2.1)
    rw [List.foldl_cons, h1, h2, h3, List.any_cons, List.any_cons, List.any_cons, ← Bool.or_assoc, ← Bool.or_assoc, ← Bool.or_assoc]
    exact ⟨rfl, rfl, rfl⟩

section
variable (c : Cluster) (o : RunOp) (t : RmeCfg) (y : KeyIn) (g n m : Nat)

def macEntryC : ModEntry := entOf o (rmeEntryC o.word t g n)
def macEntryA (k : Nat) : ModEntry := if t.mode = 0 then entOf o (rmeEntryA o.word t g k) else macEntryC o t g n
def macA (k : Nat) : Nat := (scrWord c o.zeroRows (aWordAddr t (rixOf o.rix 0) g n k m)).toNat
def macB (k : Nat) : Nat := (scrWord c o.zeroRows (bWordAddr t y g n k m)).toNat

/-- Whether an operand of product `k` is at or above the prime of its valid entry. -/
def macAbove (k : Nat) : Bool :=
  ((macEntryA o t g n k).valid && decide (macA c o t g n m k ≥ (macEntryA o t g n k).q.toNat))
    || ((macEntryC o t g n).valid && decide (macB c o t y g n m k ≥ (macEntryC o t g n).q.toNat))

/-- The products of an anchor word. -/
def macTerms : List (Option Nat × Raised × List Nat × List Nat) :=
  (List.range t.k).map (fun k => macTerm c o t y (macEntryC o t g n) g n k m)

def macRaised : Raised := (macTerms c o t y g n m).foldl (fun r x => r.and x.2.1)
  { modInvalid := !(macEntryC o t g n).valid, dead := !(macEntryC o t g n).valid }

theorem macWord_r : (macWord c o t y g n m).r = macRaised c o t y g n m := rfl

theorem macWord_v : (macWord c o t y g n m).v =
    if (macTerms c o t y g n m).any (fun x => x.1.isNone) || (macRaised c o t y g n m).dead then 0
    else lsum ((macTerms c o t y g n m).map (fun x => x.1.getD 0)) % (macEntryC o t g n).q.toNat := rfl

variable {t} (hp : t.chain.pro = [])
include hp

/-- A product: its value, and what it raises. -/
theorem macTerm_eq (k : Nat) : (macTerm c o t y (macEntryC o t g n) g n k m).1 =
      (if (macEntryA o t g n k).valid && !macAbove c o t y g n m k then some (macA c o t g n m k * macB c o t y g n m k) else none)
    ∧ (macTerm c o t y (macEntryC o t g n) g n k m).2.1 =
      { modInvalid := !(macEntryA o t g n k).valid, domain := macAbove c o t y g n m k, dead := !(macEntryA o t g n k).valid } := by
  unfold macTerm macAbove macEntryA macA macB
  rw [hp]
  dsimp only [resStages]
  generalize (if t.mode = 0 then entOf o (rmeEntryA o.word t g k) else macEntryC o t g n) = ea
  generalize (scrWord c o.zeroRows (aWordAddr t (rixOf o.rix 0) g n k m)).toNat = av
  generalize (scrWord c o.zeroRows (bWordAddr t y g n k m)).toNat = bv
  generalize (ea.valid && decide (av ≥ ea.q.toNat) || (macEntryC o t g n).valid && decide (bv ≥ (macEntryC o t g n).q.toNat)) = bad
  cases ea.valid <;> cases bad <;> exact ⟨rfl, rfl⟩

theorem macRaised_domain : (macRaised c o t y g n m).domain = (List.range t.k).any (macAbove c o t y g n m) := by
  unfold macRaised macTerms
  rw [(raised_foldl _ _).1, List.any_map]
  exact congrArg (List.any (List.range t.k)) (funext fun k => congrArg (·.domain) (macTerm_eq c o y g n m hp k).2)

theorem macRaised_modInvalid : (macRaised c o t y g n m).modInvalid =
    (!(macEntryC o t g n).valid || (List.range t.k).any (fun k => !(macEntryA o t g n k).valid)) := by
  unfold macRaised macTerms
  rw [(raised_foldl _ _).2.1, List.any_map]
  exact congrArg (fun f => _ || List.any (List.range t.k) f) (funext fun k => congrArg (·.modInvalid) (macTerm_eq c o y g n m hp k).2)

theorem macRaised_dead : (macRaised c o t y g n m).dead =
    (!(macEntryC o t g n).valid || (List.range t.k).any (fun k => !(macEntryA o t g n k).valid)) := by
  unfold macRaised macTerms
  rw [(raised_foldl _ _).2.2, List.any_map]
  exact congrArg (fun f => _ || List.any (List.range t.k) f) (funext fun k => congrArg (·.dead) (macTerm_eq c o y g n m hp k).2)

theorem macTerms_none : (macTerms c o t y g n m).any (fun x => x.1.isNone) =
    (List.range t.k).any (fun k => !((macEntryA o t g n k).valid && !macAbove c o t y g n m k)) := by
  unfold macTerms
  rw [List.any_map]
  refine congrArg (List.any (List.range t.k)) (funext fun k => ?_)
  show (macTerm c o t y (macEntryC o t g n) g n k m).1.isNone = _
  rw [(macTerm_eq c o y g n m hp k).1]
  cases (macEntryA o t g n k).valid && !macAbove c o t y g n m k <;> rfl

end

theorem lsum_eq_sum (l : List Nat) : lsum l = l.sum := by
  induction l with
  | nil => rfl
  | cons x l ih => rw [List.sum_cons, ← ih]; rfl

section
variable (c : Cluster) (o : RunOp) {t : RmeCfg} (y : KeyIn) (g n m : Nat) (hp : t.chain.pro = [])
include hp

/-- A sum whose entries are valid and whose words are below their primes. -/
theorem macWord_sums (hc : (macEntryC o t g n).valid = true) (ha : ∀ k, k < t.k → (macEntryA o t g n k).valid = true)
    (hb : ∀ k, k < t.k → macA c o t g n m k < (macEntryA o t g n k).q.toNat ∧ macB c o t y g n m k < (macEntryC o t g n).q.toNat) :
    (macWord c o t y g n m).v = ((List.range t.k).map (fun k => macA c o t g n m k * macB c o t y g n m k)).sum % (macEntryC o t g n).q.toNat
    ∧ (macWord c o t y g n m).r.domain = false := by
  have habove : ∀ k ∈ List.range t.k, macAbove c o t y g n m k = false := fun k hk => by
    obtain ⟨h1, h2⟩ := hb k (List.mem_range.mp hk)
    unfold macAbove
    rw [decide_eq_false (by omega), decide_eq_false (by omega), Bool.and_false, Bool.and_false]
    rfl
  have hvalid : ∀ k ∈ List.range t.k, (macEntryA o t g n k).valid = true := fun k hk => ha k (List.mem_range.mp hk)
  have hdom : (macRaised c o t y g n m).domain = false := by
    rw [macRaised_domain c o y g n m hp, List.any_eq_false]
    intro k hk
    rw [habove k hk]
    exact Bool.false_ne_true
  have hdead : (macRaised c o t y g n m).dead = false := by
    rw [macRaised_dead c o y g n m hp, hc, Bool.not_true, Bool.false_or, List.any_eq_false]
    intro k hk
    rw [hvalid k hk]
    decide
  have hnone : (macTerms c o t y g n m).any (fun x => x.1.isNone) = false := by
    rw [macTerms_none c o y g n m hp, List.any_eq_false]
    intro k hk
    rw [hvalid k hk, habove k hk]
    decide
  have hvals : (macTerms c o t y g n m).map (fun x => x.1.getD 0) =
      (List.range t.k).map (fun k => macA c o t g n m k * macB c o t y g n m k) := by
    unfold macTerms
    rw [List.map_map]
    refine List.map_congr_left fun k hk => ?_
    show (macTerm c o t y (macEntryC o t g n) g n k m).1.getD 0 = _
    rw [(macTerm_eq c o y g n m hp k).1, hvalid k hk, habove k hk]
    rfl
  refine ⟨?_, hdom⟩
  rw [macWord_v, hnone, hdead, hvals, lsum_eq_sum]
  rfl

/-- A word at or above the prime of its valid entry. -/
theorem macAbove_of {k : Nat} (hk : k < t.k) (h : (macEntryA o t g n k).valid = true ∧ (macEntryA o t g n k).q.toNat ≤ macA c o t g n m k
    ∨ (macEntryC o t g n).valid = true ∧ (macEntryC o t g n).q.toNat ≤ macB c o t y g n m k) :
    (macWord c o t y g n m).r.domain = true := by
  rw [macWord_r, macRaised_domain c o y g n m hp]
  refine List.any_eq_true.mpr ⟨k, List.mem_range.mpr hk, ?_⟩
  unfold macAbove
  rw [Bool.or_eq_true, Bool.and_eq_true, Bool.and_eq_true, decide_eq_true_eq, decide_eq_true_eq]
  exact h

/-- A product that is not taken makes the word 0. -/
theorem macWord_zero {k : Nat} (hk : k < t.k) (h : ((macEntryA o t g n k).valid && !macAbove c o t y g n m k) = false) :
    (macWord c o t y g n m).v = 0 := by
  have hnone : (macTerms c o t y g n m).any (fun x => x.1.isNone) = true := by
    rw [macTerms_none c o y g n m hp]
    exact List.any_eq_true.mpr ⟨k, List.mem_range.mpr hk, by rw [h]; rfl⟩
  rw [macWord_v, hnone]
  rfl

/-- An entry that is not valid makes the word 0 with MOD_INVALID. -/
theorem macWord_invalid (h : (macEntryC o t g n).valid = false ∨ ∃ k, k < t.k ∧ (macEntryA o t g n k).valid = false) :
    (macWord c o t y g n m).v = 0 ∧ (macWord c o t y g n m).r.modInvalid = true := by
  have hor : (!(macEntryC o t g n).valid || (List.range t.k).any (fun k => !(macEntryA o t g n k).valid)) = true := by
    rcases h with h | ⟨k, hk, h⟩
    · rw [h]; rfl
    · rw [Bool.or_eq_true]
      exact .inr (List.any_eq_true.mpr ⟨k, List.mem_range.mpr hk, by rw [h]; rfl⟩)
  refine ⟨?_, (macRaised_modInvalid c o y g n m hp).trans hor⟩
  rw [macWord_v, (macRaised_dead c o y g n m hp).trans hor, Bool.or_true]
  rfl

end

/-- Settles O37: the one limb of the operation is one run of words, and a residue sum is its products' sum. -/
theorem transformsAndSums : Obligations.TransformsAndSums := by
  refine ⟨fun s cl o inv => ?limb, fun c o t y g n m hp => ?valid, fun c o t y g n m hp => ?invalid⟩
  case limb =>
    intro c t e n src dst a hrun hd hop hcount hstages hcmul hf hpo hsp hz hwf
    have hclean : clean c o := ⟨hf, hpo, hsp, hz⟩
    have hstep := (exec_nte s cl inv).trans (next_of_eq ((nteStep_works hrun hd hop).trans
      (congrArg (fun x => opEffect s.m cl .nte o x true) (nteRun_single c hcount))))
    refine ⟨_, hstep, fun he hb j hj => ?_, fun he => ?_, fun he hb => ?_⟩
    · obtain ⟨r, rd, -, hlimb⟩ := nteLimb_valid hclean hstages hcmul he inv hop
      have hv : e.valid = true := (Bool.and_eq_true_iff.mp he).1
      have hno : limbAbove c t e = false := by
        rw [← Bool.not_eq_true, limbAbove_iff hv]
        rintro ⟨v, hv, hle⟩
        exact absurd (hb v hv) (by omega)
      have halen : (limbWords c t).length = n := by
        unfold limbWords
        rw [List.length_map, List.length_range]
      have hq : 0 < e.q.toNat := by
        have hmem : (mword c.scratch (src + j)).toNat ∈ a := List.mem_map.mpr ⟨j, List.mem_range.mpr hj, rfl⟩
        have := hb _ hmem
        omega
      have hlen : (limbNtt inv e t.logn (limbWords c t)).length = n := limbNtt_length inv e halen
      rw [hno, if_neg Bool.false_ne_true] at hlimb
      have hw := (opEffect_run hf hwf c r rd dst ((limbNtt inv e t.logn (limbWords c t)).map (BitVec.ofNat 32)) (o := o)).1 j
        (by rw [List.length_map, hlen]; exact hj)
      rw [hlimb, hw, List.getElem_map, BitVec.toNat_ofNat, Nat.mod_eq_of_lt]
      · rw [← List.getD_eq_getElem (d := 0)]
        unfold limbNtt
        rfl
      · have h1 := limbNtt_below inv hq t.logn (limbWords c t) _ (List.getElem_mem (by rw [hlen]; exact hj))
        have h2 := e.q.isLt
        omega
    · obtain ⟨dom, rd, hlimb⟩ := nteLimb_invalid (c := c) he
      obtain ⟨hw, hmod, -⟩ := opEffect_run hf hwf c { modInvalid := true, domain := dom } rd dst (List.replicate n 0) (o := o)
      rw [hlimb]
      refine ⟨by rw [hmod]; exact Bool.or_true _, fun j hj => ?_⟩
      rw [hw j (by rw [List.length_replicate]; exact hj), List.getElem_replicate]
    · obtain ⟨r, rd, hr, hlimb⟩ := nteLimb_valid hclean hstages hcmul he inv hop
      have hv : e.valid = true := (Bool.and_eq_true_iff.mp he).1
      have hyes : limbAbove c t e = true := (limbAbove_iff hv).mpr hb
      rw [hyes, if_pos rfl, List.map_replicate] at hlimb
      obtain ⟨hw, -, hdom⟩ := opEffect_run hf hwf c r rd dst (List.replicate n (BitVec.ofNat 32 0)) (o := o)
      rw [hlimb]
      refine ⟨?_, fun j hj => ?_⟩
      · have hr' : (Raised.and {} r).domain = true := (Bool.false_or _).trans (hr.trans hyes)
        rw [hdom, hr', Bool.or_true]
      · rw [hw j (by rw [List.length_replicate]; exact hj), List.getElem_replicate]
        rfl
  case valid =>
    intro ec ea av bv hc ha
    refine ⟨macWord_sums c o y g n m hp hc ha, ?_⟩
    rintro ⟨k, hk, h⟩
    have habove : macAbove c o t y g n m k = true := by
      unfold macAbove
      rw [Bool.or_eq_true, Bool.and_eq_true, Bool.and_eq_true, decide_eq_true_eq, decide_eq_true_eq]
      exact h.imp (fun h => ⟨ha k hk, h⟩) (fun h => ⟨hc, h⟩)
    exact ⟨macWord_zero c o y g n m hp hk (by rw [habove]; exact Bool.and_false _),
      macAbove_of c o y g n m hp hk (h.imp (fun h => ⟨ha k hk, h⟩) (fun h => ⟨hc, h⟩))⟩
  case invalid =>
    intro ec ea av bv h
    obtain ⟨hv, hmod⟩ := macWord_invalid c o y g n m hp h
    exact ⟨hv, hmod, fun ⟨k, hk, hb⟩ => macAbove_of c o y g n m hp hk hb⟩

end Sys2Proof.Machine
end

section
/-! PROOFS. The Ferry: what a LAND writes, the key tokens, and the report of a page's binding check (R313 to R325, R730). -/
namespace Sys2Proof.Machine
open Sys2Proof Sys2Proof.Certificates

/-! ## Words written to a slice without a fence -/

/-- A word of a list of writes that says one thing of its address stands there afterwards. -/
theorem mword_scrWrites_mem {c : Cluster} {ws : List (Nat × Word)} {a : Nat × Word} (ha : a ∈ ws) (hone : ∀ b ∈ ws, b.1 = a.1 → b.2 = a.2)
    (hf : c.fence = []) (hwf : memWf c.scratch = true) : mword (scrWrites c ws).scratch a.1 = a.2 := by
  induction ws generalizing c with
  | nil => cases ha
  | cons p ws ih =>
    have hstep : scrWrites c (p :: ws) = scrWrites (scrWrite c p.1 p.2) ws := rfl
    have hf' : (scrWrite c p.1 p.2).fence = [] := (scrWrite_fence c _ _).trans hf
    have hwf' := memWf_scrWrite c p.1 p.2 hwf
    have hone' : ∀ b ∈ ws, b.1 = a.1 → b.2 = a.2 := fun b hb => hone b (List.mem_cons_of_mem _ hb)
    rw [hstep]
    by_cases hmem : a ∈ ws
    · exact ih hmem hone' hf' hwf'
    · have hap : a = p := (List.mem_cons.mp ha).resolve_right hmem
      by_cases hagain : ∃ b ∈ ws, b.1 = a.1
      · obtain ⟨b, hb, he⟩ := hagain
        have hba : b = a := Prod.ext he (hone' b hb he)
        exact absurd (hba ▸ hb) hmem
      · rw [mword_scrWrites_other hwf' (fun b hb he => hagain ⟨b, hb, he⟩), mword_scrWrite _ _ _ hf hwf, ← hap, if_pos rfl]

/-- The words of one row of a LAND in its frames (R315). -/
def paddedRow (n : Nat) (row : List Word) : List Word := row.take n ++ List.replicate (n - (row.take n).length) 0

theorem paddedRow_length (n : Nat) (row : List Word) : (paddedRow n row).length = n := by
  unfold paddedRow
  rw [List.length_append, List.length_replicate, List.length_take]
  omega

theorem mem_landWords {base : Nat} {p : LandPlan} {a : Nat × Word} (h : a ∈ landWords base p) :
    ∃ k j row, p.rows[k]? = some row ∧ j < 1024 * p.perRow ∧ a.1 = base + 1024 * p.perRow * k + j
      ∧ (paddedRow (1024 * p.perRow) row)[j]? = some a.2 := by
  obtain ⟨r, hr, hw⟩ := List.mem_flatMap.mp h
  have hmap : a ∈ (paddedRow (1024 * p.perRow) r.1).zipIdx.map (fun w => (base + 1024 * p.perRow * r.2 + w.2, w.1)) := hw
  clear hw
  obtain ⟨w, hw, rfl⟩ := List.mem_map.mp hmap
  have hw' : (paddedRow (1024 * p.perRow) r.1)[w.2]? = some w.1 := List.mem_zipIdx_iff_getElem?.mp hw
  have hj : w.2 < 1024 * p.perRow := by
    have h := (List.getElem?_eq_some_iff.mp hw').1
    rw [paddedRow_length] at h
    exact h
  exact ⟨r.2, w.2, r.1, List.mem_zipIdx_iff_getElem?.mp hr, hj, rfl, hw'⟩

/-- The rows of a LAND do not meet. -/
theorem landWords_agree {base : Nat} {p : LandPlan} {a b : Nat × Word} (ha : a ∈ landWords base p) (hb : b ∈ landWords base p)
    (h : b.1 = a.1) : b.2 = a.2 := by
  obtain ⟨k, j, row, hrow, hj, hak, hav⟩ := mem_landWords ha
  obtain ⟨k', j', row', hrow', hj', hbk, hbv⟩ := mem_landWords hb
  generalize 1024 * p.perRow = n at *
  have hsum : n * k' + j' = n * k + j := by omega
  have hk : k' = k := by
    have h1 : (n * k' + j') / n = k' := by rw [Nat.mul_add_div (by omega), Nat.div_eq_of_lt hj', Nat.add_zero]
    have h2 : (n * k + j) / n = k := by rw [Nat.mul_add_div (by omega), Nat.div_eq_of_lt hj, Nat.add_zero]
    rw [← h1, ← h2, hsum]
  subst hk
  have hjj : j' = j := by omega
  subst hjj
  rw [hrow] at hrow'
  cases hrow'
  rw [hav] at hbv
  exact (Option.some.inj hbv).symm

/-! ## The windows of a die -/

theorem framesBecome_map (d e : Die) (f : KeyWindow → KeyWindow) (g : KeyWindow → Nat → Frame) (he : e.windows = d.windows.map f)
    (hf : ∀ w, (f w).cl = w.cl ∧ (f w).job = w.job ∧ (f w).base = w.base ∧ (f w).size = w.size)
    (hg : ∀ w q, tget {} (f w).frames q = g w q) : FramesBecome d e g := by
  refine ⟨by rw [he, List.length_map], fun i w hw => ⟨f w, ?_, ?_⟩⟩
  · rw [he, List.getElem?_map, hw]
    rfl
  · obtain ⟨h1, h2, h3, h4⟩ := hf w
    exact ⟨h1, h2, h3, h4, hg w⟩

/-- The frames of a LAND's window. -/
theorem tget_landFrames (c : FerryCmd) (f : Nat) (p : LandPlan) (w : KeyWindow) (q : Nat) : tget {} (landFrames c f p w).frames q =
    if f ≤ q ∧ q < f + p.rows.length * p.perRow then { st := 1, page := p.page, left := c.ndlv, reading := 0, seq := w.landed + (q - f) }
    else tget {} w.frames q := by
  unfold landFrames
  dsimp only
  generalize p.rows.length * p.perRow = n
  induction n with
  | zero => rw [if_neg (by omega)]; rfl
  | succ n ih =>
    rw [List.range_succ, List.foldl_append, List.foldl_cons, List.foldl_nil]
    by_cases h : q = f + n
    · subst h
      rw [tget_tset_same, if_pos (by omega), Nat.add_sub_cancel_left]
    · rw [tget_tset_ne _ h, ih]
      by_cases hq : f ≤ q ∧ q < f + n
      · rw [if_pos hq, if_pos (by omega)]
      · rw [if_neg hq, if_neg (by omega)]

/-- One window when the frame at frame number `f` of the slice of local cluster `cl` changes. -/
def windowOnFrame (cl f : Nat) (g : Frame → Frame) (w : KeyWindow) : KeyWindow :=
  if w.cl = cl ∧ w.base ≤ 1024 * f ∧ 1024 * f < w.base + 1024 * w.size then
    { w with frames := tmod {} w.frames ((1024 * f - w.base) / 1024) g } else w

theorem onFrame_windows (d : Die) (cl f : Nat) (g : Frame → Frame) : (onFrame d cl f g).windows = d.windows.map (windowOnFrame cl f g) := rfl

theorem windowOnFrame_keeps (cl f : Nat) (g : Frame → Frame) (w : KeyWindow) : (windowOnFrame cl f g w).cl = w.cl
    ∧ (windowOnFrame cl f g w).job = w.job ∧ (windowOnFrame cl f g w).base = w.base ∧ (windowOnFrame cl f g w).size = w.size := by
  unfold windowOnFrame
  split <;> exact ⟨rfl, rfl, rfl, rfl⟩

theorem tget_windowOnFrame_at {cl f : Nat} (g : Frame → Frame) {w : KeyWindow} {q : Nat} (h : IsFrame w cl f q) :
    tget {} (windowOnFrame cl f g w).frames q = g (tget {} w.frames q) := by
  obtain ⟨hcl, hlo, hhi, hq⟩ := h
  unfold windowOnFrame
  rw [if_pos ⟨hcl, hlo, hhi⟩, tget_tmod, if_pos hq, hq]

theorem tget_windowOnFrame_off {cl f : Nat} (g : Frame → Frame) {w : KeyWindow} {q : Nat} (h : ¬ IsFrame w cl f q) :
    tget {} (windowOnFrame cl f g w).frames q = tget {} w.frames q := by
  unfold windowOnFrame
  split
  · next hw =>
    obtain ⟨hcl, hlo, hhi⟩ := hw
    rw [tget_tmod, if_neg (fun hq => h ⟨hcl, hlo, hhi, hq⟩)]
  · rfl

/-- A change of a frame that leaves every frame but those with `P` as it is. -/
theorem tget_windowOnFrame_if {cl f : Nat} {g : Frame → Frame} {P : Frame → Prop} (hg : ∀ x, ¬ P x → g x = x) {w : KeyWindow} {q : Nat}
    (h : ¬ (IsFrame w cl f q ∧ P (tget {} w.frames q))) : tget {} (windowOnFrame cl f g w).frames q = tget {} w.frames q := by
  by_cases hf : IsFrame w cl f q
  · rw [tget_windowOnFrame_at g hf]
    exact hg _ (fun hp => h ⟨hf, hp⟩)
  · exact tget_windowOnFrame_off g hf

/-! ## A LAND -/

section
variable (m : Module)

theorem scrAccess_leaves (cl tag : Nat) (reads : List Nat) (ws : List (Nat × Word)) :
    clAt (scrAccess m cl tag reads ws) cl = scrWrites (scrReadFx (clAt m cl) reads) ws
    ∧ (∀ c, c ≠ cl → clAt (scrAccess m cl tag reads ws) c = clAt m c) ∧ (scrAccess m cl tag reads ws).dies = m.dies := by
  obtain ⟨q, h, e⟩ := scrAccess_only m cl tag reads ws
  rw [e]
  refine ⟨?_, fun c hc => ?_, rfl⟩
  · exact clAt_onCl_same m cl (fun c => scrWrites (scrReadFx c reads) ws)
  · exact clAt_onCl_ne m cl c (fun c => scrWrites (scrReadFx c reads) ws) hc

theorem stkAccess_keeps (a n tag : Nat) (cause : ReplayCause) : (stkAccess m a n tag cause).clusters = m.clusters
    ∧ (stkAccess m a n tag cause).dies = m.dies := by
  unfold stkAccess
  dsimp only
  split <;> exact ⟨rfl, rfl⟩

theorem landWrite_dies (cl tag : Nat) (ws : List (Nat × Word)) : (landWrite m cl tag ws).dies = m.dies := by
  unfold landWrite
  split
  · rfl
  · exact (scrAccess_leaves m cl tag [] ws).2.2

/-- The landing writes of a cluster that is neither restricted nor fenced. -/
theorem landWrite_open {cl : Nat} (hr : (clAt m cl).restricted = false) (tag : Nat) (ws : List (Nat × Word)) :
    clAt (landWrite m cl tag ws) cl = scrWrites (scrReadFx (clAt m cl) []) ws := by
  unfold landWrite
  rw [hr, if_neg Bool.false_ne_true]
  exact (scrAccess_leaves m cl tag [] ws).1

/-- The module of a LAND whose page has been read, and whose replay, if any, has been asked for. -/
def pageRead (c : FerryCmd) (tag : Nat) (replay : Bool) : Module :=
  let m1 := stkAccess m c.slot Config.pageSlotBytes tag .memory
  if replay then askReplay m1 tag .keyPage else m1

theorem pageRead_keeps (c : FerryCmd) (tag : Nat) (replay : Bool) :
    (pageRead m c tag replay).clusters = m.clusters ∧ (pageRead m c tag replay).dies = m.dies := by
  cases replay <;> exact stkAccess_keeps m _ _ _ _

/-- The module of a LAND before the tokens of its die change. -/
def landed (die : Nat) (l : FerryList) (c : FerryCmd) (f : Nat) (p : LandPlan) : Module :=
  match landWindow (dieAt m die) die l.job c with
  | some (w, _) => landWrite (pageRead m c l.job (p.page.corrupt && !p.exhausted)) (64 * die + c.cl) l.job (landWords (w.base + 1024 * f) p)
  | none => pageRead m c l.job (p.page.corrupt && !p.exhausted)

/-- A die when a LAND has begun. -/
def dieLanding (now : Nat) (l : FerryList) (c : FerryCmd) (f : Nat) (p : LandPlan) (d : Die) : Die :=
  let late := now - (l.origin + c.tmark)
  { d with
    windows := d.windows.map (fun w => if w.cl = c.cl ∧ w.job = l.job then landFrames c f p w else w),
    lists := d.lists.map (fun x => if x.job = l.job then { x with idx := x.idx + 1 } else x),
    cmdIdx := BitVec.ofNat 16 l.idx, ferBusy := true, ferCrc := d.ferCrc || p.page.corrupt,
    ferExhaust := d.ferExhaust || p.dry, ferLate := d.ferLate || decide (late > 0),
    ferLateCycles := satAdd d.ferLateCycles late, ferPages := satAdd d.ferPages 1,
    ferCrcFails := satAdd d.ferCrcFails (b2n p.page.corrupt) }

theorem landStep_eq (die : Nat) (l : FerryList) (c : FerryCmd) (f : Nat) (p : LandPlan) :
    landStep m die l c f p = onDie (landed m die l c f p) die (dieLanding m.now l c f p) := by
  unfold landStep landed
  cases landWindow (dieAt m die) die l.job c <;> rfl

theorem landed_dies (die : Nat) (l : FerryList) (c : FerryCmd) (f : Nat) (p : LandPlan) : (landed m die l c f p).dies = m.dies := by
  have h := (pageRead_keeps m c l.job (p.page.corrupt && !p.exhausted)).2
  unfold landed
  split
  · exact (landWrite_dies ..).trans h
  · exact h

theorem mword_landed {die : Nat} {l : FerryList} {c : FerryCmd} {f : Nat} {p : LandPlan} (hr : (clAt m (64 * die + c.cl)).restricted = false)
    (hf : (clAt m (64 * die + c.cl)).fence = []) (hwf : memWf (clAt m (64 * die + c.cl)).scratch = true) {w : KeyWindow} {f' : Nat}
    (hw : landWindow (dieAt m die) die l.job c = some (w, f')) {a : Nat × Word} (ha : a ∈ landWords (w.base + 1024 * f) p) :
    mword (clAt (landed m die l c f p) (64 * die + c.cl)).scratch a.1 = a.2 := by
  have hat : clAt (pageRead m c l.job (p.page.corrupt && !p.exhausted)) (64 * die + c.cl) = clAt m (64 * die + c.cl) := by
    unfold clAt
    rw [(pageRead_keeps m c l.job (p.page.corrupt && !p.exhausted)).1]
  unfold landed
  rw [hw]
  dsimp only
  rw [landWrite_open _ (by rw [hat]; exact hr), hat]
  exact mword_scrWrites_mem (c := scrReadFx (clAt m (64 * die + c.cl)) []) ha (fun b hb h => landWords_agree ha hb h) hf hwf

/-! ## The steps of a Ferry -/

variable {m}

theorem ferryStep_lands {die : Nat} {l : FerryList} {c : FerryCmd} {f : Nat} {p : LandPlan} {b : Bool} (hh : (dieAt m die).halted = false)
    (hpick : ferryPick m die b = some (l, .land c f p)) : ferryStep m die b = landStep m die l c f p := by
  unfold ferryStep
  rw [hh, if_neg Bool.false_ne_true, hpick]

theorem ferryStep_kills {die : Nat} {l : FerryList} {cause : KillCause} {b : Bool} (hh : (dieAt m die).halted = false)
    (hpick : ferryPick m die b = some (l, .kill cause)) : ferryStep m die b = killJob m l.job cause none := by
  unfold ferryStep
  rw [hh, if_neg Bool.false_ne_true, hpick]

/-- A die when a list has ended. -/
def listEnded (l : FerryList) (d : Die) : Die := { d with
  lists := d.lists.map (fun x => if x.job = l.job then { x with ended := true } else x), cmdIdx := BitVec.ofNat 16 l.idx }

theorem ferryStep_ends {die : Nat} {l : FerryList} {b : Bool} (hh : (dieAt m die).halted = false)
    (hpick : ferryPick m die b = some (l, .endList)) : ferryStep m die b = onDie m die (listEnded l) := by
  unfold ferryStep
  rw [hh, if_neg Bool.false_ne_true, hpick]
  rfl

end

theorem satAdd_one_toNat {w : Nat} (x : BitVec w) : (satAdd x 1).toNat = min (x.toNat + 1) (2 ^ w - 1) := by
  have hx := x.isLt
  unfold satAdd
  split
  · rw [BitVec.toNat_ofNat, Nat.mod_eq_of_lt (by omega)]
    omega
  · rw [BitVec.toNat_ofNat, Nat.mod_eq_of_lt (by omega)]
    omega

/-! ## The report of a page -/

section
variable {m : Module} {cl i rn : Nat} {o : RunOp} {pu : PageUse}

/-- The pages of an operation when page `i` is reported. -/
def pagesWith (ps : List PageUse) (i : Nat) (causes : List Nat) : List PageUse :=
  ps.zipIdx.map (fun p => if p.2 = i then { p.1 with report := some causes } else p.1)

theorem getElem?_pagesWith (ps : List PageUse) (i : Nat) (causes : List Nat) (j : Nat) : (pagesWith ps i causes)[j]? =
    ps[j]?.map (fun p => if j = i then { p with report := some causes } else p) := by
  unfold pagesWith
  rw [List.getElem?_map, List.getElem?_zipIdx, Option.map_map, Nat.zero_add]
  rfl

theorem reportRun_eq (o : RunOp) (i : Nat) (causes : List Nat) : (reportRun o i causes).1 =
    { o with pages := pagesWith o.pages i causes, held := o.held.filter (fun w => !heldReady (pagesWith o.pages i causes) w) } := rfl

/-- The causes that the report of page `pu` finds (R321). -/
def reportCauses (m : Module) (cl : Nat) (o : RunOp) (rn : Nat) (pu : PageUse) : List Nat :=
  let r := tget {} (ctxOf (clAt m cl) o.ctx).records rn
  bindCauses (jobSetsOf m o.job) (keyWant r (((jobAt m o.job).bind (fun j => recPrim j r)).map (·.2))) (targetHdr (clAt m cl) r pu.info) pu.info

/-- The running operation when the report has come. -/
def reportedRun (o : RunOp) (i : Nat) (causes : List Nat) : RunOp :=
  { (reportRun o i causes).1 with keyfail := (reportRun o i causes).1.keyfail || (pageRaised o i causes).keyfail }

/-- A cluster when the report of page `i` of its RME's operation has come. -/
def clReported (o : RunOp) (i : Nat) (causes : List Nat) (c : Cluster) : Cluster :=
  { markUnconf (reportRun o i causes).1 c with
    rme := { stick c.rme (pageRaised o i causes) with run := some (reportedRun o i causes) } }

theorem bindingStep_reports (hrun : (clAt m cl).rme.run = some o) (hp : o.pages[i]? = some pu) (hr : pu.report = none)
    (hrec : o.record = some rn) : bindingStep m cl i =
      let m2 := onCl (scrAccess m cl o.job [] (reportRun o i (reportCauses m cl o rn pu)).2) cl (clReported o i (reportCauses m cl o rn pu))
      if reportCauses m cl o rn pu = [] then m2
      else onDie m2 (dieOf cl) (fun d => { d with ferBind := true, ferBindFails := satAdd d.ferBindFails 1 }) := by
  unfold bindingStep
  dsimp only
  rw [hrun]
  dsimp only
  rw [hp, hrec]
  dsimp only
  rw [hr, if_neg (by decide)]
  rfl

theorem clReported_ctx (o : RunOp) (i : Nat) (causes : List Nat) (c : Cluster) (k : Nat) :
    ctxOf (clReported o i causes c) k = ctxOf (markUnconf (reportRun o i causes).1 c) k := rfl

theorem clReported_scb (o : RunOp) (i : Nat) (causes : List Nat) (c : Cluster) : (clReported o i causes c).scb = c.scb :=
  (markUnconf_keeps _ c).1

theorem pageRaised_keyfail (o : RunOp) (i : Nat) (causes : List Nat) :
    (pageRaised o i causes).keyfail = true ↔ causes ≠ [] ∧ ∃ w ∈ o.held, i ∈ w.pages := by
  unfold pageRaised
  dsimp only
  rw [Bool.and_eq_true, decide_eq_true_eq, List.any_eq_true]
  simp only [List.contains_iff_mem]

/-- What the report leaves: the cluster, after the held words that it frees are written, and the die's count of failures. -/
theorem bindingStep_leaves (hrun : (clAt m cl).rme.run = some o) (hp : o.pages[i]? = some pu) (hr : pu.report = none)
    (hrec : o.record = some rn) : ∃ w, SameBooks (clAt m cl) w
      ∧ clAt (bindingStep m cl i) cl = clReported o i (reportCauses m cl o rn pu) w
      ∧ (reportCauses m cl o rn pu = [] → dieAt (bindingStep m cl i) (cl / 64) = dieAt m (cl / 64))
      ∧ (reportCauses m cl o rn pu ≠ [] → dieAt (bindingStep m cl i) (cl / 64) =
        { dieAt m (cl / 64) with ferBind := true, ferBindFails := satAdd (dieAt m (cl / 64)).ferBindFails 1 }) := by
  have hstep := bindingStep_reports hrun hp hr hrec
  generalize reportCauses m cl o rn pu = causes at hstep
  obtain ⟨hacc, -, hdies⟩ := scrAccess_leaves m cl o.job [] (reportRun o i causes).2
  have hcl := clAt_onCl_same (scrAccess m cl o.job [] (reportRun o i causes).2) cl (clReported o i causes)
  have hdie : dieAt (onCl (scrAccess m cl o.job [] (reportRun o i causes).2) cl (clReported o i causes)) (cl / 64) = dieAt m (cl / 64) :=
    congrArg (fun t => tget ({} : Die) t (cl / 64)) hdies
  rw [hacc] at hcl
  generalize onCl (scrAccess m cl o.job [] (reportRun o i causes).2) cl (clReported o i causes) = m2 at hstep hcl hdie
  refine ⟨scrWrites (scrReadFx (clAt m cl) []) (reportRun o i causes).2,
    SameBooks.trans (b := scrReadFx (clAt m cl) []) ⟨rfl, rfl, rfl, rfl, rfl, rfl⟩ (scrWrites_sameBooks _ _), ?_, fun h => ?_, fun h => ?_⟩
  · rw [hstep]
    dsimp only
    split
    · exact hcl
    · exact hcl
  · rw [hstep]
    dsimp only
    rw [if_pos h]
    exact hdie
  · rw [hstep]
    dsimp only
    rw [if_neg h, ← hdie]
    exact dieAt_onDie_same ..

end

/-- Settles O44: a LAND is its words, its tokens and its counters; each other command is a change of one frame, one list or one
running operation. -/
theorem ferryCommands : Obligations.FerryCommands := by
  refine ⟨fun s die l c f p => ?land, fun s die l cause j b hh hpick hj hk hph => ?kill, fun s die l hh hpick => ?ends,
    fun s die cl f => ?staged, fun s die cl f => ?released, fun s cl i rn o pu hrun hp hr hrec => ?report⟩
  case land =>
    intro d hh hpick
    have hstep := (ferryStep_lands hh hpick).trans (landStep_eq s.m die l c f p)
    have hdies := landed_dies s.m die l c f p
    have hdie : ∀ e, dieAt (landed s.m die l c f p) e = dieAt s.m e := fun e => congrArg (fun t => tget ({} : Die) t e) hdies
    refine ⟨_, fun w q => if w.cl = c.cl ∧ w.job = l.job then tget {} (landFrames c f p w).frames q else tget {} w.frames q,
      next_of_eq hstep, ?_, fun w q hcl hjob => ?_, fun w q hne => if_neg hne, ?_, ?_, ?_, fun e he => ?_, fun hres hf hwf w hw a ha => ?_⟩
    · refine framesBecome_map d _ (fun w => if w.cl = c.cl ∧ w.job = l.job then landFrames c f p w else w) _ ?_ (fun w => ?_) (fun w q => ?_)
      · rw [dieAt_onDie_same, hdie]
        rfl
      · split <;> exact ⟨rfl, rfl, rfl, rfl⟩
      · split <;> rfl
    · dsimp only
      rw [if_pos ⟨hcl, hjob⟩, tget_landFrames]
    · rw [dieAt_onDie_same, hdie]
      rfl
    · rw [dieAt_onDie_same, hdie]
      exact satAdd_one_toNat d.ferPages
    · rw [dieAt_onDie_same]
      rfl
    · rw [dieAt_onDie_ne _ _ _ _ he, hdie]
    · rw [clAt_onDie]
      exact mword_landed s.m hres hf hwf hw ha
  case kill =>
    obtain ⟨x, hx, hjob, hst, -⟩ := killJob_compl s.m l.job cause none hj hk hph
    have hexec : exec (if b then .ferryEnd die else .land die) s = .next { s with m := ferryStep s.m die b } := by cases b <;> rfl
    exact ⟨_, x, hexec.trans (next_of_eq (ferryStep_kills hh hpick)), hx, hjob, hst⟩
  case ends =>
    refine ⟨_, next_of_eq (ferryStep_ends hh hpick), onDie_onlyDie _ _ _, ?_⟩
    rw [dieAt_onDie_same]
    exact ⟨rfl, rfl⟩
  case staged =>
    refine ⟨_, fun w q => tget {} (windowOnFrame cl f (fun x => if x.st = 1 then { x with st := 2 } else x) w).frames q, rfl,
      onDie_onlyDie _ _ _, ?_, fun w q => ⟨fun hf hst => ?_, fun hn => ?_⟩⟩
    · refine framesBecome_map _ _ (windowOnFrame cl f (fun x => if x.st = 1 then { x with st := 2 } else x)) _ ?_
        (windowOnFrame_keeps _ _ _) (fun _ _ => rfl)
      rw [dieAt_onDie_same]
      rfl
    · exact (tget_windowOnFrame_at _ hf).trans (if_pos hst)
    · exact tget_windowOnFrame_if (P := fun x => x.st = 1) (fun x hx => if_neg hx) hn
  case released =>
    refine ⟨_, fun w q => tget {} (windowOnFrame cl f (fun x => if x.st = 2 ∧ x.left = 0 ∧ x.reading = 0 then {} else x) w).frames q, rfl,
      onDie_onlyDie _ _ _, ?_, fun w q => ⟨fun hf hst hl hrd => ?_, fun hn => ?_⟩⟩
    · refine framesBecome_map _ _ (windowOnFrame cl f (fun x => if x.st = 2 ∧ x.left = 0 ∧ x.reading = 0 then {} else x)) _ ?_
        (windowOnFrame_keeps _ _ _) (fun _ _ => rfl)
      rw [dieAt_onDie_same]
      rfl
    · exact (tget_windowOnFrame_at _ hf).trans (if_pos ⟨hst, hl, hrd⟩)
    · exact tget_windowOnFrame_if (P := fun x => x.st = 2 ∧ x.left = 0 ∧ x.reading = 0) (fun x hx => if_neg hx) hn
  case report =>
    intro r want causes d
    obtain ⟨w, ⟨hctxs, hscb, -⟩, hcl, hgood, hbad⟩ := bindingStep_leaves hrun hp hr hrec
    have hrc : reportCauses s.m cl o rn pu = causes := rfl
    rw [hrc] at hcl hgood hbad
    generalize hn : bindingStep s.m cl i = n at hcl hgood hbad
    have hpages : (reportRun o i causes).1.pages ≠ [] := fun h => by
      have h1 := getElem?_pagesWith o.pages i causes i
      rw [show pagesWith o.pages i causes = [] from h, hp] at h1
      exact absurd h1 nofun
    refine ⟨n, reportedRun o i causes, next_of_eq hn, ?_, ?_, fun j hj => ?_, ?_, rfl, rfl, ?_, fun k hk => ?_, ?_, hgood, hbad⟩
    · rw [hcl]; rfl
    · exact (getElem?_pagesWith o.pages i causes i).trans (by rw [hp]; exact congrArg some (if_pos rfl))
    · refine (getElem?_pagesWith o.pages i causes j).trans ?_
      rw [show (fun p : PageUse => if j = i then { p with report := some causes } else p) = id from funext fun p => if_neg hj, Option.map_id]
      rfl
    · have hk := pageRaised_keyfail o i causes
      show (o.keyfail || (pageRaised o i causes).keyfail) = true ↔ _
      rw [Bool.or_eq_true, hk]
    · rw [hcl, clReported_scb, hscb]
    · rw [hcl, clReported_ctx, ctxOf_markUnconf_other (reportRun o i causes).1 w (.inl hk), ctxOf_of_ctxs hctxs]
    · rw [hcl, clReported_ctx, markUnconf_marks (reportRun o i causes).1 w hrec hpages]
      refine (ctxOf_onCtx_same ..).trans ?_
      rw [show (reportRun o i causes).1.ctx = o.ctx from rfl, ctxOf_of_ctxs hctxs]
      rfl

end Sys2Proof.Machine
end

section
/-! PROOFS. The PKE: what a command-mode command computes, MAC mode, the end, the wipe, DMA and the random pool (R624 to R642). -/
namespace Sys2Proof.Machine
open Sys2Proof Sys2Proof.Certificates

/-! ## The inverse modulo an odd number -/

/-- Euclid's steps with enough fuel: the greatest common divisor, and a factor that gives it modulo `q`. Each step at least halves the
product of the two remainders. -/
theorem egcdF_spec (q a : Int) : ∀ (f r0 r1 : Nat) (t0 t1 : Int), r1 ≤ r0 → r0 * r1 < 2 ^ f → q ∣ t0 * a - r0 → q ∣ t1 * a - r1 →
    (egcdF f r0 r1 t0 t1).1 = Nat.gcd r0 r1 ∧ q ∣ (egcdF f r0 r1 t0 t1).2 * a - (egcdF f r0 r1 t0 t1).1
  | 0, r0, r1, t0, t1, hle, hf, h0, _ => by
    obtain rfl : r1 = 0 := by
      have hprod : r0 * r1 = 0 := by omega
      rcases Nat.mul_eq_zero.mp hprod with h | h <;> omega
    exact ⟨by simp [egcdF], h0⟩
  | f + 1, r0, r1, t0, t1, hle, hf, h0, h1 => by
    unfold egcdF
    by_cases hz : r1 = 0
    · rw [if_pos (by exact_mod_cast hz)]
      exact ⟨by simp [hz], h0⟩
    · have hpos : 0 < r1 := Nat.pos_of_ne_zero hz
      have hlt : r0 % r1 < r1 := Nat.mod_lt _ hpos
      have hsum : r1 + r0 % r1 ≤ r0 := by
        have hd : r1 * (r0 / r1) + r0 % r1 = r0 := Nat.div_add_mod _ _
        have hq : 1 ≤ r0 / r1 := Nat.div_pos hle hpos
        nlinarith
      have hhalf : r1 * (r0 % r1) < 2 ^ f := by
        rw [pow_succ] at hf
        nlinarith
      have hdvd : q ∣ (t0 - (r0 : Int) / r1 * t1) * a - ((r0 % r1 : Nat) : Int) := by
        have hmod : ((r0 % r1 : Nat) : Int) = r0 - r1 * ((r0 : Int) / r1) := by rw [Int.natCast_mod, Int.emod_def]
        have hsplit : (t0 - (r0 : Int) / r1 * t1) * a - ((r0 % r1 : Nat) : Int)
            = (t0 * a - r0) - (r0 : Int) / r1 * (t1 * a - r1) := by rw [hmod]; ring
        rw [hsplit]
        exact dvd_sub h0 (dvd_mul_of_dvd_right h1 _)
      rw [if_neg (by exact_mod_cast hz), ← Int.natCast_mod, Nat.gcd_comm, Nat.gcd_rec, Nat.gcd_comm]
      exact egcdF_spec q a f r1 (r0 % r1) t1 _ hlt.le hhalf h1 hdvd

/-- MINV's result: the inverse below the modulus. -/
theorem invMod_spec {m x : Nat} (hm : 1 < m) (hx : x < m) (hg : Nat.gcd x m = 1) : invMod m x < m ∧ invMod m x * x % m = 1 := by
  have hfuel : m * x < 2 ^ (2 * Nat.log2 m + 4) := by
    have hlog : m < 2 ^ (Nat.log2 m + 1) := Nat.lt_log2_self
    calc m * x < 2 ^ (Nat.log2 m + 1) * 2 ^ (Nat.log2 m + 1) := by nlinarith
      _ ≤ 2 ^ (2 * Nat.log2 m + 4) := by rw [← pow_add]; exact Nat.pow_le_pow_right (by omega) (by omega)
  obtain ⟨hgcd, hdvd⟩ := egcdF_spec m x (2 * Nat.log2 m + 4) m x 0 1 hx.le hfuel (by simp) (by simp)
  rw [Nat.gcd_comm, hg] at hgcd
  have hval : invMod m x = ((egcdF (2 * Nat.log2 m + 4) m x 0 1).2 % (m : Int)).toNat := by
    unfold invMod
    rw [← Int.natCast_mod, Nat.mod_eq_of_lt hx]
    exact if_pos hgcd
  rw [hgcd] at hdvd
  generalize (egcdF (2 * Nat.log2 m + 4) m x 0 1).2 = t at hdvd hval
  have hm0 : (0 : Int) < m := by omega
  have hnn : 0 ≤ t % (m : Int) := Int.emod_nonneg _ hm0.ne'
  have hcast : (invMod m x : Int) = t % m := by rw [hval, Int.toNat_of_nonneg hnn]
  have hlt : t % (m : Int) < m := Int.emod_lt_of_pos _ hm0
  refine ⟨by omega, ?_⟩
  have hone : (((invMod m x * x % m : Nat) : Int)) = 1 := by
    push_cast
    rw [hcast, Int.mul_emod, Int.emod_emod, ← Int.mul_emod, ((Int.modEq_iff_dvd.mpr hdvd).symm : t * x % m = 1 % m), Int.emod_eq_of_lt (by omega) (by omega)]
    rfl
  exact_mod_cast hone

/-! ## The command that the registers name -/

/-- The command of a command-mode code with its operand slots. -/
def pkeAsked (k : Pke) (i : Nat) (cls : BitVec 2) (a b c d : BitVec 8) : PkeReq :=
  { opc := i, cls := cls.toNat, a := a.toNat, b := b.toNat, c := c.toNat, d := d.toNat,
    base := k.list.toNat % 256, count := k.list.toNat / 256 }

theorem toNat_append_bytes (a b c d : BitVec 8) :
    (d ++ c ++ b ++ a).toNat = ((d.toNat * 256 + c.toNat) * 256 + b.toNat) * 256 + a.toNat := by
  simp only [BitVec.toNat_append]
  rw [← Nat.shiftLeft_add_eq_or_of_lt a.isLt, ← Nat.shiftLeft_add_eq_or_of_lt b.isLt, ← Nat.shiftLeft_add_eq_or_of_lt c.isLt]
  simp only [Nat.shiftLeft_eq]

theorem bits_append_bytes (a b c d : BitVec 8) :
    bits (d ++ c ++ b ++ a).toNat 7 0 = a.toNat ∧ bits (d ++ c ++ b ++ a).toNat 15 8 = b.toNat
      ∧ bits (d ++ c ++ b ++ a).toNat 23 16 = c.toNat ∧ bits (d ++ c ++ b ++ a).toNat 31 24 = d.toNat := by
  have ha := a.isLt
  have hb := b.isLt
  have hc := c.isLt
  have hd := d.isLt
  rw [toNat_append_bytes]
  simp only [bits, Nat.shiftRight_eq_div_pow]
  omega

/-- The module after the writes of PKE_CMD and PKE_OPS by an idle PKE's driver. -/
def pkeCmdSet (m : Module) (i : Nat) (cls : BitVec 2) (a b c d : BitVec 8) : Module :=
  onPke m (fun k => { k with opc := BitVec.ofNat 8 i, cls := cls, ops := d ++ c ++ b ++ a })

theorem pkeReq_pkeCmdSet (m : Module) {i : Nat} (hi : i ∈ pkeCodes) (cls : BitVec 2) (a b c d : BitVec 8) :
    pkeReq (pkeCmdSet m i cls a b c d).pke = pkeAsked m.pke i cls a b c d := by
  obtain ⟨h0, h1, h2, h3⟩ := bits_append_bytes a b c d
  have hi' : (BitVec.ofNat 8 i).toNat = i := by
    simp only [pkeCodes, List.mem_cons, List.not_mem_nil, or_false] at hi
    rw [BitVec.toNat_ofNat]
    omega
  show PkeReq.mk _ _ _ _ _ _ _ _ = PkeReq.mk _ _ _ _ _ _ _ _
  rw [PkeReq.mk.injEq]
  exact ⟨hi', rfl, h0, h1, h2, h3, rfl, rfl⟩

theorem exec_pkeCmd (s : State) {i : Nat} (hi : i ∈ pkeCodes) (cls : BitVec 2) (a b c d : BitVec 8) :
    exec (pkeCmd i cls a b c d) s = .next { s with m := pkeCommand s.m (BitVec.ofNat 8 i) cls a b c d } := by
  simp only [pkeCodes, List.mem_cons, List.not_mem_nil, or_false] at hi
  rcases hi with rfl | rfl | rfl | rfl | rfl | rfl | rfl | rfl | rfl <;> rfl

/-! ## START -/

section
variable {m : Module}

theorem pkeRegs_idle {f : Pke → Pke} (h : m.pke.run = none) : pkeRegs m f = onPke m f := by
  simp [pkeRegs, onPke, h]

theorem pkeRegs_running {f : Pke → Pke} (h : m.pke.run ≠ none) : pkeRegs m f = onPke m (fun k => { k with ignored := true }) := by
  simp [pkeRegs, onPke, Option.isSome_iff_ne_none.mpr h]

theorem pkeStart_running (h : m.pke.run ≠ none) : pkeStart m = onPke m (fun k => { k with ignored := true }) := by
  simp [pkeStart, pkeBusy, Option.isSome_iff_ne_none.mpr h]

/-- An idle PKE begins a command that needs no more bits than the pool holds. -/
theorem pkeStart_begins (hrun : m.pke.run = none) (hwait : m.pke.waitRng = none) (hdma : m.pke.dmaRun = none)
    (hbits : (pkeReq m.pke).opc = 0x20 ∨ pkeRefused (pkeReq m.pke) = true ∨ pkeNeed (pkeReq m.pke).opc ≤ m.pke.poolBits) :
    pkeStart m = pkeBegin m (pkeReq m.pke) := by
  unfold pkeStart
  rw [if_neg (by simp [pkeBusy, hrun, hwait, hdma]), if_neg]
  rintro ⟨h1, h2, h3⟩
  rcases hbits with h | h | h
  · exact h1 h
  · simp [h] at h2
  · omega

/-- An idle PKE lets a command wait that lacks bits. -/
theorem pkeStart_waits (hrun : m.pke.run = none) (hwait : m.pke.waitRng = none) (hdma : m.pke.dmaRun = none)
    (hopc : (pkeReq m.pke).opc ≠ 0x20) (hok : pkeRefused (pkeReq m.pke) = false) (hbits : m.pke.poolBits < pkeNeed (pkeReq m.pke).opc) :
    pkeStart m = onPke m (fun k => { k with waitRng := some (pkeReq m.pke) }) := by
  unfold pkeStart
  rw [if_neg (by simp [pkeBusy, hrun, hwait, hdma]), if_pos ⟨hopc, by simp [hok], hbits⟩]

end

/-! ## Results -/

section
variable {k : Pke} {r : PkeReq} {extra : List Byte}

theorem pkeRunOf_refused (h : pkeRefused r = true) : pkeRunOf k r extra = { code := 1, dur := 4 } := if_pos h

/-- A command whose checks all pass writes its results with code 0. -/
theorem pkeRunOf_passed (h : pkeRefused r = false) (hx : (pkeResult k r extra).fails = []) :
    (pkeRunOf k r extra).code = 0 ∧ (pkeRunOf k r extra).writes = outWrites r.d (pkeResult k r extra).outs := by
  unfold pkeRunOf
  rw [if_neg (by simp [h])]
  simp [hx]

/-- A command with a failed check writes zeros with the least code. -/
theorem pkeRunOf_failed (h : pkeRefused r = false) (hx : (pkeResult k r extra).fails ≠ []) :
    (pkeRunOf k r extra).code = BitVec.ofNat 8 (lmin 10 (pkeResult k r extra).fails)
      ∧ (pkeRunOf k r extra).writes = outWrites r.d ((pkeResult k r extra).outs.map (fun _ => 0)) := by
  unfold pkeRunOf
  rw [if_neg (by simp [h])]
  simp [hx]

theorem outWrites_one (d x : Nat) : outWrites d [x] = [(d, leBytes 128 x)] := rfl

theorem outWrites_two (d x y : Nat) : outWrites d [x, y] = [(d, leBytes 128 x), (d + 2, leBytes 128 y)] := rfl

theorem lmin_mem (d : Nat) (l : List Nat) : lmin d l = d ∨ lmin d l ∈ l := by
  induction l generalizing d with
  | nil => exact .inl rfl
  | cons x xs ih =>
    have hmin : lmin d (x :: xs) = min x (lmin x xs) := rfl
    rcases min_choice x (lmin x xs) with h | h
    · exact .inr (by rw [hmin, h]; exact List.mem_cons_self)
    · rw [hmin, h]
      rcases ih x with hx | hx
      · exact .inr (by rw [hx]; exact List.mem_cons_self)
      · exact .inr (List.mem_cons_of_mem _ hx)

/-- The least code of failed checks is not 0. -/
theorem ofNat_lmin_ne_zero (l : List Nat) (h : ∀ x ∈ l, 0 < x ∧ x < 256) : BitVec.ofNat 8 (lmin 10 l) ≠ 0 := by
  have hrange : 0 < lmin 10 l ∧ lmin 10 l < 256 := by
    rcases lmin_mem 10 l with h0 | h0
    · omega
    · exact h _ h0
  intro h0
  have hnat : lmin 10 l % 2 ^ 8 = 0 := by simpa [BitVec.toNat_ofNat] using congrArg BitVec.toNat h0
  omega

theorem failIf_false (c : Nat) : failIf false c = [] := rfl

theorem failIf_true (c : Nat) : failIf true c = [c] := rfl

theorem mem_failIf {b : Bool} {c x : Nat} (h : x ∈ failIf b c) : x = c := by
  cases b
  · cases h
  · exact List.mem_singleton.mp h

theorem failIf_eq_nil {b : Bool} {c : Nat} : failIf b c = [] ↔ b = false := by cases b <;> simp [failIf]

end

/-! ## The modular commands -/

theorem pkeResult_modular {k : Pke} {r : PkeReq} {extra : List Byte} (h : r.opc ≤ 5) :
    pkeResult k r extra = pkeModular r.opc (pkeClass r.cls).1 (pkeOperand k r.a) (pkeOperand k r.b) (pkeOperand k r.c) := by
  unfold pkeResult
  dsimp only
  split <;> first | omega | rfl

section
variable {k : Pke} {r : PkeReq} {extra : List Byte}

theorem pkeModular_outs_length (opc l x y m : Nat) : ∃ z, (pkeModular opc l x y m).outs = [z] := by
  unfold pkeModular
  dsimp only
  split <;> exact ⟨_, rfl⟩

/-- A modulus that is even or below 3 fails with code 2. -/
theorem pkeModular_modulus {m : Nat} (opc l x y : Nat) (h : m % 2 = 0 ∨ m < 3) :
    lmin 10 (pkeModular opc l x y m).fails = 2 ∧ (pkeModular opc l x y m).fails ≠ [] := by
  have hbad : failIf (decide (m % 2 = 0 ∨ m < 3)) 2 = [2] := by simp [h, failIf]
  unfold pkeModular
  rw [hbad]
  dsimp only
  split <;> refine ⟨?_, by simp⟩ <;> simp only [failIf] <;> split_ifs <;> simp [lmin]

theorem oddModulus_passes {m : Nat} (hodd : m % 2 = 1) (h3 : 3 ≤ m) : failIf (decide (m % 2 = 0 ∨ m < 3)) 2 = [] :=
  failIf_eq_nil.mpr (by simp; omega)

/-- R630: MADD to MEXP refuse an even modulus and one below 3. -/
theorem pkeRunOf_modulus (hok : pkeRefused r = false) (ho : r.opc ≤ 5) (hm : pkeOperand k r.c % 2 = 0 ∨ pkeOperand k r.c < 3) :
    (pkeRunOf k r extra).code = 2 ∧ (pkeRunOf k r extra).writes = [(r.d, leBytes 128 0)] := by
  obtain ⟨hmin, hne⟩ := pkeModular_modulus r.opc (pkeClass r.cls).1 (pkeOperand k r.a) (pkeOperand k r.b) hm
  obtain ⟨z, hz⟩ := pkeModular_outs_length r.opc (pkeClass r.cls).1 (pkeOperand k r.a) (pkeOperand k r.b) (pkeOperand k r.c)
  have hres := pkeResult_modular (k := k) (extra := extra) ho
  obtain ⟨hcode, hwrites⟩ := pkeRunOf_failed (k := k) (extra := extra) hok (by rw [hres]; exact hne)
  rw [hres] at hcode hwrites
  rw [hmin] at hcode
  rw [hz] at hwrites
  exact ⟨hcode, hwrites⟩

/-- MADD, MSUB and MMUL of operands below an odd modulus (R628). -/
theorem pkeRunOf_sum (hok : pkeRefused r = false) (ho : r.opc ≤ 3) (hodd : pkeOperand k r.c % 2 = 1) (h3 : 3 ≤ pkeOperand k r.c)
    (hx : pkeOperand k r.a < pkeOperand k r.c) (hy : pkeOperand k r.b < pkeOperand k r.c) :
    (pkeRunOf k r extra).code = 0 ∧ (pkeRunOf k r extra).writes = [(r.d, leBytes 128
      (if r.opc = 1 then (pkeOperand k r.a + pkeOperand k r.b) % pkeOperand k r.c
        else if r.opc = 2 then (pkeOperand k r.a + pkeOperand k r.c - pkeOperand k r.b) % pkeOperand k r.c
        else pkeOperand k r.a * pkeOperand k r.b % pkeOperand k r.c))] := by
  have hres := pkeResult_modular (k := k) (extra := extra) (show r.opc ≤ 5 by omega)
  have hin : failIf (decide (pkeOperand k r.a ≥ pkeOperand k r.c ∨ pkeOperand k r.b ≥ pkeOperand k r.c)) 3 = [] :=
    failIf_eq_nil.mpr (by simp; omega)
  unfold pkeModular at hres
  rw [oddModulus_passes hodd h3, hin] at hres
  dsimp only at hres
  split at hres
  · omega
  · omega
  · have hpass := pkeRunOf_passed (k := k) (extra := extra) hok (by rw [hres]; rfl)
    rw [hres] at hpass
    exact hpass

/-- MEXP: the power (R628). -/
theorem pkeRunOf_power (hok : pkeRefused r = false) (ho : r.opc = 5) (hodd : pkeOperand k r.c % 2 = 1) (h3 : 3 ≤ pkeOperand k r.c)
    (hx : pkeOperand k r.a < pkeOperand k r.c) (hy : pkeOperand k r.b < 2 ^ (pkeClass r.cls).1) :
    (pkeRunOf k r extra).code = 0
      ∧ (pkeRunOf k r extra).writes = [(r.d, leBytes 128 (pkeOperand k r.a ^ pkeOperand k r.b % pkeOperand k r.c))] := by
  have hres := pkeResult_modular (k := k) (extra := extra) (show r.opc ≤ 5 by omega)
  have hin : failIf (decide (pkeOperand k r.a ≥ pkeOperand k r.c ∨ pkeOperand k r.b ≥ 2 ^ (pkeClass r.cls).1)) 3 = [] :=
    failIf_eq_nil.mpr (by rw [decide_eq_false_iff_not]; omega)
  unfold pkeModular at hres
  rw [oddModulus_passes hodd h3, hin, ho] at hres
  dsimp only at hres
  rw [powMod_eq] at hres
  have hpass := pkeRunOf_passed (k := k) (extra := extra) hok (by rw [hres]; rfl)
  rw [hres] at hpass
  exact hpass

/-- MINV of an operand prime to the modulus (R628). -/
theorem pkeRunOf_inverse (hok : pkeRefused r = false) (ho : r.opc = 4) (hodd : pkeOperand k r.c % 2 = 1) (h3 : 3 ≤ pkeOperand k r.c)
    (hx : pkeOperand k r.a < pkeOperand k r.c) (h0 : 0 < pkeOperand k r.a) (hg : Nat.gcd (pkeOperand k r.a) (pkeOperand k r.c) = 1) :
    (pkeRunOf k r extra).code = 0
      ∧ (pkeRunOf k r extra).writes = [(r.d, leBytes 128 (invMod (pkeOperand k r.c) (pkeOperand k r.a)))] := by
  have hres := pkeResult_modular (k := k) (extra := extra) (show r.opc ≤ 5 by omega)
  have hin : failIf (decide (pkeOperand k r.a ≥ pkeOperand k r.c)) 3 = [] := failIf_eq_nil.mpr (by simp; omega)
  have hprime : failIf (decide (pkeOperand k r.a = 0 ∨ Nat.gcd (pkeOperand k r.a) (pkeOperand k r.c) ≠ 1)) 7 = [] :=
    failIf_eq_nil.mpr (by simp [hg]; omega)
  unfold pkeModular at hres
  rw [ho] at hres
  dsimp only at hres
  rw [oddModulus_passes hodd h3, hin, hprime] at hres
  have hpass := pkeRunOf_passed (k := k) (extra := extra) hok (by rw [hres]; rfl)
  rw [hres] at hpass
  exact hpass

/-- MINV of an operand that shares a factor with the modulus (R630). -/
theorem pkeRunOf_noInverse (hok : pkeRefused r = false) (ho : r.opc = 4) (hodd : pkeOperand k r.c % 2 = 1) (h3 : 3 ≤ pkeOperand k r.c)
    (hx : pkeOperand k r.a < pkeOperand k r.c) (hg : Nat.gcd (pkeOperand k r.a) (pkeOperand k r.c) ≠ 1) :
    (pkeRunOf k r extra).code = 7 ∧ (pkeRunOf k r extra).writes = [(r.d, leBytes 128 0)] := by
  have hres := pkeResult_modular (k := k) (extra := extra) (show r.opc ≤ 5 by omega)
  have hin : failIf (decide (pkeOperand k r.a ≥ pkeOperand k r.c)) 3 = [] := failIf_eq_nil.mpr (by simp; omega)
  have hshared : failIf (decide (pkeOperand k r.a = 0 ∨ Nat.gcd (pkeOperand k r.a) (pkeOperand k r.c) ≠ 1)) 7 = [7] := by
    rw [decide_eq_true (Or.inr hg), failIf_true]
  unfold pkeModular at hres
  rw [ho] at hres
  dsimp only at hres
  rw [oddModulus_passes hodd h3, hin, hshared] at hres
  have hfail := pkeRunOf_failed (k := k) (extra := extra) hok (by rw [hres]; simp)
  rw [hres] at hfail
  exact hfail

/-! ## The curve commands -/

theorem pointFails_range (q : Nat × Nat) : ∀ x ∈ pointFails q false, 0 < x ∧ x < 256 := by
  intro x hx
  unfold pointFails at hx
  rcases List.mem_append.mp hx with h | h
  · rcases List.mem_append.mp h with h | h <;> have := mem_failIf h <;> omega
  · have := mem_failIf h
    omega

/-- A point passes exactly in range, away from the origin, and on the curve. -/
theorem pointFails_eq_nil (q : Nat × Nat) : pointFails q false = [] ↔
    q.1 < p256p ∧ q.2 < p256p ∧ ¬(q.1 = 0 ∧ q.2 = 0) ∧ onP256 q = true := by
  have hsplit : pointFails q false = [] ↔
      (¬(q.1 ≥ p256p ∨ q.2 ≥ p256p) ∧ ¬(q = (0, 0))) ∧ onP256 (q.1 % p256p, q.2 % p256p) = true := by
    unfold pointFails
    rw [List.append_eq_nil_iff, List.append_eq_nil_iff, failIf_eq_nil, failIf_eq_nil, failIf_eq_nil]
    simp only [Bool.or_false, decide_eq_false_iff_not, Bool.not_eq_false']
  rw [hsplit, Prod.ext_iff]
  constructor
  · rintro ⟨⟨h1, h2⟩, h3⟩
    have hx : q.1 < p256p := by omega
    have hy : q.2 < p256p := by omega
    rw [Nat.mod_eq_of_lt hx, Nat.mod_eq_of_lt hy] at h3
    exact ⟨hx, hy, h2, h3⟩
  · rintro ⟨hx, hy, h2, h3⟩
    rw [Nat.mod_eq_of_lt hx, Nat.mod_eq_of_lt hy]
    exact ⟨⟨by omega, h2⟩, h3⟩

/-- POINT_VALIDATE: code 0 exactly for a valid point. -/
theorem pkeRunOf_point (hok : pkeRefused r = false) (ho : r.opc = 0x13) :
    (pkeRunOf k r extra).code = 0 ↔ pointFails (pkePoint k r.a) false = [] := by
  have hres : pkeResult k r extra = { fails := pointFails (pkePoint k r.a) false, outs := [1] } := by
    simp [pkeResult, ho]
  by_cases h : pointFails (pkePoint k r.a) false = []
  · exact iff_of_true (pkeRunOf_passed hok (by rw [hres]; exact h)).1 h
  · refine iff_of_false ?_ h
    rw [(pkeRunOf_failed (k := k) (extra := extra) hok (by rw [hres]; exact h)).1, hres]
    exact ofNat_lmin_ne_zero _ (pointFails_range _)

/-- ECDH_P256: the x-coordinate of the product. -/
theorem pkeRunOf_ecdh (hok : pkeRefused r = false) (ho : r.opc = 0x12) (hq : pointFails (pkePoint k r.a) false = [])
    (h0 : 0 < pkeOperand k r.b) (hn : pkeOperand k r.b < p256n) :
    (pkeRunOf k r extra).code = 0
      ∧ (pkeRunOf k r extra).writes = [(r.d, leBytes 128 (mulP256 (pkeOperand k r.b) (pkePoint k r.a)).1)] := by
  have hres : pkeResult k r extra = pkeEcdh (pkePoint k r.a) (pkeOperand k r.b) := by
    simp [pkeResult, ho]
  have hrange : decide (pkeOperand k r.b ≥ p256n) = false := decide_eq_false (by omega)
  have hzero : decide (pkeOperand k r.b = 0) = false := decide_eq_false (by omega)
  have hfails : (pkeEcdh (pkePoint k r.a) (pkeOperand k r.b)).fails = [] := by
    unfold pkeEcdh
    rw [hrange, hzero, hq]
    rfl
  have hpass := pkeRunOf_passed (k := k) (extra := extra) hok (by rw [hres]; exact hfails)
  rw [hres] at hpass
  exact hpass

/-- ECDSA_VERIFY_P256 of operands that pass their checks. -/
theorem pkeRunOf_verify (hok : pkeRefused r = false) (ho : r.opc = 0x11) (hq : pointFails (pkePoint k r.a) false = [])
    (he : pkeOperand k r.b < 2 ^ 256) (hr0 : 0 < pkeOperand k r.c) (hrn : pkeOperand k r.c < p256n)
    (hs0 : 0 < pkeOperand k (r.c + 2)) (hsn : pkeOperand k (r.c + 2) < p256n) :
    (pkeRunOf k r extra).code
      = if ecdsaVerify (pkePoint k r.a) (pkeOperand k r.b) (pkeOperand k r.c) (pkeOperand k (r.c + 2)) then 0 else 8 := by
  have hres : pkeResult k r extra
      = pkeVerify (pkePoint k r.a) (pkeOperand k r.b) (pkeOperand k r.c) (pkeOperand k (r.c + 2)) := by
    simp [pkeResult, ho]
  generalize hv : ecdsaVerify (pkePoint k r.a) (pkeOperand k r.b) (pkeOperand k r.c) (pkeOperand k (r.c + 2)) = v
  have hrange : decide (pkeOperand k r.b ≥ 2 ^ 256 ∨ pkeOperand k r.c ≥ p256n ∨ pkeOperand k (r.c + 2) ≥ p256n) = false :=
    decide_eq_false (by omega)
  have hzero : decide (pkeOperand k r.c = 0 ∨ pkeOperand k (r.c + 2) = 0) = false := decide_eq_false (by omega)
  have hfails : (pkeVerify (pkePoint k r.a) (pkeOperand k r.b) (pkeOperand k r.c) (pkeOperand k (r.c + 2))).fails
      = failIf (!v) 8 := by
    unfold pkeVerify
    dsimp only
    rw [hrange, hzero, hq, hv]
    rfl
  cases v with
  | true => exact (pkeRunOf_passed (k := k) (extra := extra) hok (by rw [hres]; exact hfails)).1
  | false =>
    rw [(pkeRunOf_failed (k := k) (extra := extra) hok (by rw [hres, hfails]; simp [failIf])).1, hres, hfails]
    rfl

/-- The range and zero checks of ECDSA_SIGN_P256. -/
def signFails (d e : Nat) : List Nat := failIf (decide (d ≥ p256n ∨ e ≥ 2 ^ 256)) 3 ++ failIf (decide (d = 0)) 4

theorem pkeSign_bad {d z : Nat} {ex : List Byte} (h : signFails d z ≠ []) : pkeSign d z ex = { fails := signFails d z, outs := [0, 0] } := by
  rw [pkeSign]
  exact if_pos h

theorem pkeSign_good {d z e : Nat} {ex : List Byte} (h : signFails d z = []) (hn : nonceOf d z ex = some e) :
    pkeSign d z ex = { fails := failIf (decide ((ecdsaSignWith d z e).1 = 0 ∨ (ecdsaSignWith d z e).2 = 0)) 10,
                       outs := [(ecdsaSignWith d z e).1, (ecdsaSignWith d z e).2] } := by
  rw [pkeSign]
  refine (if_neg (not_not_intro h)).trans ?_
  rw [hn]

/-- ECDSA_SIGN_P256 with the nonce of its key, digest and k'. -/
theorem pkeRunOf_sign (hok : pkeRefused r = false) (ho : r.opc = 0x10) (hd0 : 0 < pkeOperand k r.a) (hdn : pkeOperand k r.a < p256n)
    (he : pkeOperand k r.b < 2 ^ 256) {e : Nat} (hnonce : nonceOf (pkeOperand k r.a) (pkeOperand k r.b) extra = some e)
    (hr : 0 < (ecdsaSignWith (pkeOperand k r.a) (pkeOperand k r.b) e).1)
    (hs : 0 < (ecdsaSignWith (pkeOperand k r.a) (pkeOperand k r.b) e).2) :
    (pkeRunOf k r extra).code = 0 ∧ (pkeRunOf k r extra).writes =
      [(r.d, leBytes 128 (ecdsaSignWith (pkeOperand k r.a) (pkeOperand k r.b) e).1),
        (r.d + 2, leBytes 128 (ecdsaSignWith (pkeOperand k r.a) (pkeOperand k r.b) e).2)] := by
  have hres : pkeResult k r extra = pkeSign (pkeOperand k r.a) (pkeOperand k r.b) extra := by
    simp [pkeResult, ho]
  generalize pkeOperand k r.a = d at *
  generalize pkeOperand k r.b = z at *
  have hgood : signFails d z = [] := by
    refine List.append_eq_nil_iff.mpr ⟨failIf_eq_nil.mpr (decide_eq_false ?_), failIf_eq_nil.mpr (decide_eq_false hd0.ne')⟩
    exact not_or.mpr ⟨not_le.mpr hdn, not_le.mpr he⟩
  have hnone : decide ((ecdsaSignWith d z e).1 = 0 ∨ (ecdsaSignWith d z e).2 = 0) = false := decide_eq_false (by omega)
  have hval : pkeSign d z extra = { fails := [], outs := [(ecdsaSignWith d z e).1, (ecdsaSignWith d z e).2] } := by
    rw [pkeSign_good hgood hnonce, hnone, failIf_false]
  have hpass := pkeRunOf_passed (k := k) (extra := extra) hok (by rw [hres, hval])
  rw [hres, hval] at hpass
  exact hpass

/-- ECDSA_SIGN_P256 with a key out of range: a failure, and zeros. -/
theorem pkeRunOf_badKey (hok : pkeRefused r = false) (ho : r.opc = 0x10) (hd : pkeOperand k r.a = 0 ∨ p256n ≤ pkeOperand k r.a) :
    (pkeRunOf k r extra).code ≠ 0 ∧ ∀ w ∈ (pkeRunOf k r extra).writes, w.2 = leBytes 128 0 := by
  have hres : pkeResult k r extra = pkeSign (pkeOperand k r.a) (pkeOperand k r.b) extra := by
    simp [pkeResult, ho]
  generalize pkeOperand k r.a = d at *
  generalize pkeOperand k r.b = z at *
  have hbad : signFails d z ≠ [] := by
    intro h0
    obtain ⟨h1, h2⟩ := List.append_eq_nil_iff.mp h0
    rcases hd with hd | hd
    · exact of_decide_eq_false (failIf_eq_nil.mp h2) hd
    · exact of_decide_eq_false (failIf_eq_nil.mp h1) (.inl hd)
  have hval := pkeSign_bad (ex := extra) hbad
  have hfail := pkeRunOf_failed (k := k) (extra := extra) hok (by rw [hres, hval]; exact hbad)
  rw [hres, hval] at hfail
  refine ⟨?_, ?_⟩
  · rw [hfail.1]
    refine ofNat_lmin_ne_zero _ fun x hx => ?_
    rcases List.mem_append.mp hx with h | h <;> have := mem_failIf h <;> omega
  · rw [hfail.2]
    intro w hw
    rw [List.map_cons, List.map_cons, List.map_nil, outWrites_two] at hw
    rcases List.mem_cons.mp hw with rfl | hw
    · rfl
    · rw [List.mem_singleton.mp hw]

end

/-! ## A command begins -/

section
variable {m : Module} {r : PkeReq}

theorem pkeOperand_congr {k k' : Pke} (h : k'.mem = k.mem) : pkeOperand k' = pkeOperand k := by
  funext slot
  rw [pkeOperand, pkeOperand, h]

/-- A command reads nothing of the PKE but its operand memory. -/
theorem pkeRunOf_congr {k k' : Pke} (h : k'.mem = k.mem) (r : PkeReq) (extra : List Byte) : pkeRunOf k' r extra = pkeRunOf k r extra := by
  have hres : pkeResult k' r extra = pkeResult k r extra := by
    rw [pkeResult, pkeResult, pkePoint, pkePoint, pkeOperand_congr h]
  rw [pkeRunOf, pkeRunOf, hres]

/-- The random bytes behind the seed of a command's placement stream. -/
def pkeExtra (m : Module) : List Byte := beBytes 32 (Config.drbg (m.hedge.drbgCount + 1)).toNat

theorem pkeBegin_mem : (pkeBegin m r).pke.mem = m.pke.mem := rfl

theorem pkeBegin_acc : (pkeBegin m r).pke.acc = m.pke.acc := rfl

theorem pkeBegin_waitRng : (pkeBegin m r).pke.waitRng = none := rfl

theorem pkeBegin_clusters : (pkeBegin m r).clusters = m.clusters := rfl

theorem pkeBegin_quay : (pkeBegin m r).quay = m.quay := rfl

theorem pkeBegin_poolBits : (pkeBegin m r).pke.poolBits = m.pke.poolBits - (if pkeRefused r then 0 else pkeNeed r.opc) := rfl

theorem pkeBegin_drbg :
    (pkeBegin m r).hedge.drbgCount = m.hedge.drbgCount + (if pkeRefused r then 0 else pkeNeed r.opc) / 256 := rfl

/-- The seed of the placement stream of a command that draws bits. -/
def pkeSeed (m : Module) (r : PkeReq) : Option (BitVec 256 × Nat × Nat) :=
  if r.opc = 0x20 ∨ (if pkeRefused r then 0 else pkeNeed r.opc) = 0 then none
  else some (Config.drbg m.hedge.drbgCount, r.opc, r.cls)

theorem pkeBegin_run : ∃ x, (pkeBegin m r).pke.run = some x := ⟨_, rfl⟩

theorem pkeBegin_runs_command (h : r.opc ≠ 0x20) :
    (pkeBegin m r).pke.run = some { pkeRunOf m.pke r (pkeExtra m) with seed := pkeSeed m r } := by
  have hrun : (if r.opc = 0x20 then macRunOf m.pke r else pkeRunOf m.pke r (pkeExtra m)) = pkeRunOf m.pke r (pkeExtra m) := if_neg h
  rw [← hrun]
  rfl

theorem pkeBegin_runs_mac (h : r.opc = 0x20) :
    (pkeBegin m r).pke.run = some { macRunOf m.pke r with seed := pkeSeed m r } := by
  have hrun : (if r.opc = 0x20 then macRunOf m.pke r else pkeRunOf m.pke r (pkeExtra m)) = macRunOf m.pke r := if_pos h
  rw [← hrun]
  rfl

end

section
variable {m : Module} {i : Nat} {cls : BitVec 2} {a b c d : BitVec 8}

theorem pkeCodes_ne_mac (hi : i ∈ pkeCodes) : i ≠ 0x20 := by
  rintro rfl
  revert hi
  decide

theorem pkeCommand_begins (hi : i ∈ pkeCodes) (hrun : m.pke.run = none) (hwait : m.pke.waitRng = none) (hdma : m.pke.dmaRun = none)
    (hbits : pkeRefused (pkeAsked m.pke i cls a b c d) = true ∨ pkeNeed i ≤ m.pke.poolBits) :
    pkeCommand m (BitVec.ofNat 8 i) cls a b c d = pkeBegin (pkeCmdSet m i cls a b c d) (pkeAsked m.pke i cls a b c d) := by
  have hreq := pkeReq_pkeCmdSet m hi cls a b c d
  rw [pkeCommand, pkeRegs_idle hrun]
  refine (pkeStart_begins (m := pkeCmdSet m i cls a b c d) hrun hwait hdma ?_).trans (by rw [hreq])
  rw [hreq]
  exact .inr hbits

theorem pkeCommand_waits (hi : i ∈ pkeCodes) (hrun : m.pke.run = none) (hwait : m.pke.waitRng = none) (hdma : m.pke.dmaRun = none)
    (hok : pkeRefused (pkeAsked m.pke i cls a b c d) = false) (hbits : m.pke.poolBits < pkeNeed i) :
    pkeCommand m (BitVec.ofNat 8 i) cls a b c d
      = onPke (pkeCmdSet m i cls a b c d) (fun k => { k with waitRng := some (pkeAsked m.pke i cls a b c d) }) := by
  have hreq := pkeReq_pkeCmdSet m hi cls a b c d
  rw [pkeCommand, pkeRegs_idle hrun, ← hreq]
  refine pkeStart_waits (m := pkeCmdSet m i cls a b c d) hrun hwait hdma ?_ ?_ ?_
  · rw [hreq]
    exact pkeCodes_ne_mac hi
  · rw [hreq]
    exact hok
  · rw [hreq]
    exact hbits

theorem pkeCommand_running (opc : BitVec 8) (h : m.pke.run ≠ none) :
    pkeCommand m opc cls a b c d = onPke m (fun k => { k with ignored := true }) := by
  rw [pkeCommand, pkeRegs_running h, pkeStart_running (m := onPke m (fun k => { k with ignored := true })) h]
  rfl

theorem pkeCmdSet_runs_command (hi : i ∈ pkeCodes) :
    (pkeBegin (pkeCmdSet m i cls a b c d) (pkeAsked m.pke i cls a b c d)).pke.run
      = some { pkeRunOf m.pke (pkeAsked m.pke i cls a b c d) (pkeExtra m) with seed := pkeSeed m (pkeAsked m.pke i cls a b c d) } := by
  rw [pkeBegin_runs_command (m := pkeCmdSet m i cls a b c d) (pkeCodes_ne_mac hi : (pkeAsked m.pke i cls a b c d).opc ≠ 0x20),
    pkeRunOf_congr (k := m.pke) (k' := (pkeCmdSet m i cls a b c d).pke) rfl]
  rfl

end

/-! ## MAC mode -/

/-- The MAC-mode command that PKE_LIST names. -/
def macAsked (k : Pke) (base : BitVec 8) (count : BitVec 11) : PkeReq :=
  { opc := 0x20, cls := k.cls.toNat, a := k.ops.toNat % 256, b := bits k.ops.toNat 15 8,
    c := bits k.ops.toNat 23 16, d := bits k.ops.toNat 31 24, base := base.toNat, count := count.toNat }

/-- The module after the writes of PKE_CMD and PKE_LIST. -/
def pkeMacSet (m : Module) (base : BitVec 8) (count : BitVec 11) : Module :=
  onPke m (fun k => { k with opc := 0x20, list := count ++ base })

theorem toNat_count_base (base : BitVec 8) (count : BitVec 11) : (count ++ base).toNat = count.toNat * 256 + base.toNat := by
  rw [BitVec.toNat_append, ← Nat.shiftLeft_add_eq_or_of_lt base.isLt, Nat.shiftLeft_eq]

theorem pkeReq_pkeMacSet (m : Module) (base : BitVec 8) (count : BitVec 11) :
    pkeReq (pkeMacSet m base count).pke = macAsked m.pke base count := by
  have hb := base.isLt
  have hlist := toNat_count_base base count
  show PkeReq.mk _ _ _ _ _ _ _ _ = PkeReq.mk _ _ _ _ _ _ _ _
  rw [PkeReq.mk.injEq]
  refine ⟨rfl, rfl, by simp [bits, pkeMacSet, onPke], rfl, rfl, rfl, ?_, ?_⟩
  · show (count ++ base).toNat % 256 = _
    omega
  · show (count ++ base).toNat / 256 = _
    omega

theorem macStart_begins {m : Module} {base : BitVec 8} {count : BitVec 11} (hrun : m.pke.run = none) (hwait : m.pke.waitRng = none)
    (hdma : m.pke.dmaRun = none) :
    pkeStart (pkeRegs m (fun k => { k with opc := 0x20, list := count ++ base }))
      = pkeBegin (pkeMacSet m base count) (macAsked m.pke base count) := by
  have hreq := pkeReq_pkeMacSet m base count
  rw [pkeRegs_idle hrun]
  refine (pkeStart_begins (m := pkeMacSet m base count) hrun hwait hdma ?_).trans (by rw [hreq])
  rw [hreq]
  exact .inl rfl

theorem macRunOf_refused {k : Pke} {r : PkeReq} (h : macOk k r = false) : macRunOf k r = { code := 1, dur := 4 } := by
  rw [macRunOf, if_pos (by simp [h])]

theorem macRunOf_runs {k : Pke} {r : PkeReq} (h : macOk k r = true) : (macRunOf k r).code = 0
    ∧ (macRunOf k r).acc = some (((List.range r.count).map (macEntry k r.base)).foldl wideStep (k.acc, k.mem, [])).1 := by
  rw [macRunOf, if_neg (by simp [h])]
  exact ⟨rfl, rfl⟩

/-! ## Windows -/

/-- A choice of positions has a place for every slot, and as many real ones as it chooses. -/
theorem slotChoices_mem : ∀ (k n : Nat), ∀ l ∈ slotChoices k n, l.length = n ∧ (l.filter (fun b => b)).length = k
  | 0, n, l, h => by
    rw [slotChoices, List.mem_singleton] at h
    subst h
    exact ⟨List.length_replicate, by simp⟩
  | k + 1, 0, l, h => by cases h
  | k + 1, n + 1, l, h => by
    rw [slotChoices, List.mem_append, List.mem_map, List.mem_map] at h
    rcases h with ⟨t, ht, rfl⟩ | ⟨t, ht, rfl⟩
    · obtain ⟨h1, h2⟩ := slotChoices_mem k n t ht
      exact ⟨by rw [List.length_cons, h1], by rw [List.filter_cons_of_pos rfl, List.length_cons, h2]⟩
    · obtain ⟨h1, h2⟩ := slotChoices_mem (k + 1) n t ht
      exact ⟨by rw [List.length_cons, h1], by rw [List.filter_cons_of_neg (by simp), h2]⟩

/-- There is a choice when there are slots enough. -/
theorem slotChoices_pos : ∀ (k n : Nat), k ≤ n → 0 < (slotChoices k n).length
  | 0, n, _ => by rw [slotChoices]; exact Nat.one_pos
  | k + 1, 0, h => absurd h (by omega)
  | k + 1, n + 1, h => by
    have := slotChoices_pos k n (by omega)
    rw [slotChoices, List.length_append, List.length_map]
    omega

theorem windowSlots_spec (seed : BitVec 256) (opc cl w : Nat) (h : windowReal opc w ≤ (ladderShape opc cl).2) :
    (windowSlots seed opc cl w).length = (ladderShape opc cl).2
      ∧ ((windowSlots seed opc cl w).filter (fun b => b)).length = windowReal opc w := by
  refine slotChoices_mem _ _ _ ?_
  rw [windowSlots, List.getD_eq_getElem _ _ (Nat.mod_lt _ (slotChoices_pos _ _ h))]
  exact List.getElem_mem _

/-! ## The end, DMA and the pool -/

section
variable {m : Module}

theorem pkeDoneStep_running {r : PkeRun} (h : m.pke.run = some r) : pkeDoneStep m = onPke m (fun k => { k with
      mem := r.writes.foldl (fun t w => mput t (64 * w.1) w.2) k.mem, acc := r.acc.getD k.acc, run := none, done := true,
      code := r.code, failmask := r.failmask, dur := r.dur, cnt := satAdd k.cnt 1,
      dummy := match r.seed with
        | some (s, opc, cls) => ladderRegs s opc cls
        | none => k.dummy }) := by
  unfold pkeDoneStep
  split
  · next h' => simp [h] at h'
  · next r' h' =>
    obtain rfl : r = r' := Option.some.inj (h.symm.trans h')
    rfl

/-- The module after the writes of PKE_DMA_SRC and PKE_DMA_CTL. -/
def pkeDmaSet (m : Module) (addr : BitVec 21) (slot : BitVec 8) (num : BitVec 9) (up : Bool) : Module :=
  onPke m (fun k => { k with dmaSrc := addr, dmaCtl := BitVec.ofNat 1 (b2n up) ++ num ++ slot })

theorem toNat_dmaCtl (slot : BitVec 8) (num : BitVec 9) (up : Bool) :
    (BitVec.ofNat 1 (b2n up) ++ num ++ slot).toNat = (b2n up * 512 + num.toNat) * 256 + slot.toNat := by
  rw [BitVec.toNat_append, BitVec.toNat_append, ← Nat.shiftLeft_add_eq_or_of_lt slot.isLt, ← Nat.shiftLeft_add_eq_or_of_lt num.isLt]
  simp only [Nat.shiftLeft_eq]
  cases up <;> rfl

theorem pkeMove_pkeDmaSet (m : Module) (addr : BitVec 21) (slot : BitVec 8) (num : BitVec 9) (up : Bool) :
    pkeMove (pkeDmaSet m addr slot num up).pke = { addr := addr.toNat, slot := slot.toNat, nslot := num.toNat, toSram := up } := by
  have hs := slot.isLt
  have hn := num.isLt
  have hctl := toNat_dmaCtl slot num up
  have hup : b2n up ≤ 1 := by cases up <;> decide
  show PkeMove.mk _ _ _ _ = PkeMove.mk _ _ _ _
  rw [PkeMove.mk.injEq]
  refine ⟨rfl, ?_, ?_, ?_⟩
  · show bits (BitVec.ofNat 1 (b2n up) ++ num ++ slot).toNat 7 0 = _
    rw [hctl, bits, Nat.shiftRight_eq_div_pow]
    omega
  · show bits (BitVec.ofNat 1 (b2n up) ++ num ++ slot).toNat 16 8 = _
    rw [hctl, bits, Nat.shiftRight_eq_div_pow]
    omega
  · show bit (BitVec.ofNat 1 (b2n up) ++ num ++ slot).toNat 17 = _
    rw [hctl, bit, Nat.shiftRight_eq_div_pow]
    have hdiv : ((b2n up * 512 + num.toNat) * 256 + slot.toNat) / 2 ^ 17 % 2 = b2n up := by omega
    rw [hdiv]
    cases up <;> rfl

theorem pkeDmaStart_mem : (pkeDmaStart m).pke.mem = m.pke.mem := by
  unfold pkeDmaStart onPke
  dsimp only
  split <;> rfl

theorem pkeDmaStart_runs (hrun : m.pke.run = none) (hwait : m.pke.waitRng = none) (hdma : m.pke.dmaRun = none)
    (hok : moveOk (pkeMove m.pke) = true) : (pkeDmaStart m).pke.dmaRun = some (pkeMove m.pke) := by
  unfold pkeDmaStart onPke
  dsimp only
  rw [if_neg (by simp [pkeBusy, hrun, hwait, hdma, hok])]

theorem pkeDmaStart_refuses (h : ¬(m.pke.run = none ∧ m.pke.waitRng = none ∧ m.pke.dmaRun = none) ∨ moveOk (pkeMove m.pke) = false) :
    (pkeDmaStart m).pke.dmaRefused = true ∧ (pkeDmaStart m).pke.dmaRun = m.pke.dmaRun := by
  have hno : (pkeBusy m.pke || m.pke.dmaRun.isSome || !moveOk (pkeMove m.pke)) = true := by
    rcases h with h | h
    · have : pkeBusy m.pke = true ∨ m.pke.dmaRun.isSome = true := by
        by_contra hc
        simp [pkeBusy] at hc
        exact h ⟨hc.1.1, hc.1.2, hc.2⟩
      rcases this with h' | h' <;> simp [h']
    · simp [h]
  unfold pkeDmaStart onPke
  dsimp only
  rw [if_pos hno]
  exact ⟨rfl, rfl⟩

theorem moveOk_iff (x : PkeMove) : moveOk x = true ↔
    x.addr % 64 = 0 ∧ 1 ≤ x.nslot ∧ x.slot + x.nslot ≤ 256 ∧ x.addr + 64 * x.nslot ≤ 2 ^ 21 := decide_eq_true_iff

theorem pkeDmaDoneStep_up {x : PkeMove} (h : m.pke.dmaRun = some x) (hup : x.toSram = true) : pkeDmaDoneStep m =
    { m with
      hedge := { m.hedge with sram := mput m.hedge.sram x.addr (mbytes m.pke.mem (64 * x.slot) (64 * x.nslot)) },
      pke := { m.pke with dmaRun := none, dmaDone := true } } := by
  unfold pkeDmaDoneStep
  split
  · next h' => simp [h] at h'
  · next y h' =>
    obtain rfl : x = y := Option.some.inj (h.symm.trans h')
    exact if_pos hup

theorem pkeDmaDoneStep_down {x : PkeMove} (h : m.pke.dmaRun = some x) (hup : x.toSram = false) : pkeDmaDoneStep m =
    onPke m (fun k => { k with
      mem := mput k.mem (64 * x.slot) (mbytes m.hedge.sram x.addr (64 * x.nslot)), dmaRun := none, dmaDone := true }) := by
  unfold pkeDmaDoneStep
  split
  · next h' => simp [h] at h'
  · next y h' =>
    obtain rfl : x = y := Option.some.inj (h.symm.trans h')
    exact if_neg (by simp [hup])

/-- A block of one memory copied to another. -/
theorem mget_mput_mbytes {t u : Mem} (a b n q : Nat) (ht : memWf t = true) (hu : memWf u = true) :
    mget (mput t a (mbytes u b n)) q = if a ≤ q ∧ q < a + n then mget u (b + (q - a)) else mget t q := by
  rw [mget_mput a q _ ht, mbytes_eq _ _ hu, List.length_map, List.length_range']
  split
  · next h =>
    rw [List.getD_eq_getElem _ _ (by simp; omega), List.getElem_map, List.getElem_range', Nat.one_mul]
  · rfl

theorem poolStep_full (h : 1024 ≤ m.pke.poolBits) : poolStep m = m := if_pos h

theorem poolStep_idle (h : m.pke.poolBits < 1024) (hw : m.pke.waitRng = none) :
    poolStep m = onHedge (onPke m (fun k => { k with poolBits := 1024 })) (fun h => { h with drbgGens := h.drbgGens + 1 }) := by
  unfold poolStep
  rw [if_neg (by omega), hw]

theorem poolStep_begins {r : PkeReq} (h : m.pke.poolBits < 1024) (hw : m.pke.waitRng = some r) :
    poolStep m = pkeBegin (onHedge (onPke m (fun k => { k with poolBits := 1024 })) (fun h => { h with drbgGens := h.drbgGens + 1 })) r := by
  unfold poolStep
  rw [if_neg (by omega), hw]

end

/-! ## What a command of the PKE computes -/

/-- The results that a command-mode command leaves to write, by its code. -/
def PkeComputes (m : Module) (i : Nat) (cls : BitVec 2) (a b c d : BitVec 8) (r : PkeRun) : Prop :=
  let op := pkeOperand m.pke
  let n := op c.toNat
  let x := op a.toNat
  let y := op b.toNat
  (i ≤ 5 → (n % 2 = 0 ∨ n < 3) → r.code = 2 ∧ r.writes = [(d.toNat, leBytes 128 0)])
  ∧ (i ≤ 3 → n % 2 = 1 → 3 ≤ n → x < n → y < n → r.code = 0 ∧ r.writes = [(d.toNat, leBytes 128
        (if i = 1 then (x + y) % n else if i = 2 then (x + n - y) % n else x * y % n))])
  ∧ (i = 5 → n % 2 = 1 → 3 ≤ n → x < n → y < 2 ^ (pkeClass cls.toNat).1 → r.code = 0 ∧ r.writes = [(d.toNat, leBytes 128 (x ^ y % n))])
  ∧ (i = 4 → n % 2 = 1 → 3 ≤ n → x < n → 0 < x → Nat.gcd x n = 1 →
        ∃ z, r.code = 0 ∧ r.writes = [(d.toNat, leBytes 128 z)] ∧ z < n ∧ z * x % n = 1)
  ∧ (i = 4 → n % 2 = 1 → 3 ≤ n → x < n → Nat.gcd x n ≠ 1 → r.code = 7 ∧ r.writes = [(d.toNat, leBytes 128 0)])
  ∧ (i = 0x13 → (r.code = 0 ↔ x < p256p ∧ op (a.toNat + 2) < p256p ∧ ¬(x = 0 ∧ op (a.toNat + 2) = 0)
        ∧ onP256 (x, op (a.toNat + 2)) = true))
  ∧ (i = 0x12 → pointFails (x, op (a.toNat + 2)) false = [] → 0 < y → y < p256n →
        r.code = 0 ∧ r.writes = [(d.toNat, leBytes 128 (mulP256 y (x, op (a.toNat + 2))).1)])
  ∧ (i = 0x11 → pointFails (x, op (a.toNat + 2)) false = [] → y < 2 ^ 256 → 0 < n → n < p256n →
        0 < op (c.toNat + 2) → op (c.toNat + 2) < p256n →
        r.code = if ecdsaVerify (x, op (a.toNat + 2)) y n (op (c.toNat + 2)) then 0 else 8)
  ∧ (i = 0x10 → 0 < x → x < p256n → y < 2 ^ 256 → ∀ e,
        nonceOf x y (pkeExtra m) = some e → 0 < (ecdsaSignWith x y e).1 → 0 < (ecdsaSignWith x y e).2 → r.code = 0 ∧ r.writes =
          [(d.toNat, leBytes 128 (ecdsaSignWith x y e).1), (d.toNat + 2, leBytes 128 (ecdsaSignWith x y e).2)])
  ∧ (i = 0x10 → (x = 0 ∨ p256n ≤ x) → r.code ≠ 0 ∧ ∀ w ∈ r.writes, w.2 = leBytes 128 0)

theorem pkeRunOf_computes (m : Module) {i : Nat} {cls : BitVec 2} {a b c d : BitVec 8}
    (hok : pkeRefused (pkeAsked m.pke i cls a b c d) = false) (seed : Option (BitVec 256 × Nat × Nat)) :
    PkeComputes m i cls a b c d { pkeRunOf m.pke (pkeAsked m.pke i cls a b c d) (pkeExtra m) with seed := seed } := by
  refine ⟨fun hi hm => pkeRunOf_modulus hok hi hm, fun hi hodd h3 hx hy => pkeRunOf_sum hok hi hodd h3 hx hy,
    fun hi hodd h3 hx hy => pkeRunOf_power hok hi hodd h3 hx hy, fun hi hodd h3 hx h0 hg => ?_,
    fun hi hodd h3 hx hg => pkeRunOf_noInverse hok hi hodd h3 hx hg,
    fun hi => (pkeRunOf_point hok hi).trans (pointFails_eq_nil _), fun hi hq h0 hn => pkeRunOf_ecdh hok hi hq h0 hn,
    fun hi hq he h0 hn hs0 hsn => pkeRunOf_verify hok hi hq he h0 hn hs0 hsn,
    fun hi h0 hn he e hnonce hr hs => pkeRunOf_sign hok hi h0 hn he hnonce hr hs, fun hi hx => pkeRunOf_badKey hok hi hx⟩
  obtain ⟨hcode, hwrites⟩ := pkeRunOf_inverse (extra := pkeExtra m) hok hi hodd h3 hx h0 hg
  obtain ⟨hlt, hone⟩ := invMod_spec (by omega) hx hg
  exact ⟨_, hcode, hwrites, hlt, hone⟩

theorem pkeCmd_runs (s : State) {i : Nat} {cls : BitVec 2} {a b c d : BitVec 8} (hi : i ∈ pkeCodes)
    (hidle : s.m.pke.run = none ∧ s.m.pke.waitRng = none ∧ s.m.pke.dmaRun = none)
    (hbits : pkeRefused (pkeAsked s.m.pke i cls a b c d) = true ∨ pkeNeed i ≤ s.m.pke.poolBits) :
    ∃ n r, exec (pkeCmd i cls a b c d) s = .next { s with m := n } ∧ n.pke.run = some r ∧ n.pke.mem = s.m.pke.mem
      ∧ n.clusters = s.m.clusters ∧ n.quay = s.m.quay
      ∧ (pkeRefused (pkeAsked s.m.pke i cls a b c d) = true →
        r.code = 1 ∧ r.writes = [] ∧ r.dur = 4 ∧ r.seed = none ∧ n.pke.poolBits = s.m.pke.poolBits)
      ∧ (pkeRefused (pkeAsked s.m.pke i cls a b c d) = false → n.pke.poolBits = s.m.pke.poolBits - pkeNeed i
        ∧ n.hedge.drbgCount = s.m.hedge.drbgCount + pkeNeed i / 256
        ∧ r.seed = (if pkeNeed i = 0 then none else some (Config.drbg s.m.hedge.drbgCount, i, cls.toNat))
        ∧ PkeComputes s.m i cls a b c d r) := by
  obtain ⟨hrun, hwait, hdma⟩ := hidle
  have hbegin := pkeCommand_begins hi hrun hwait hdma hbits
  have hexec := exec_pkeCmd s hi cls a b c d
  rw [hbegin] at hexec
  have hpool := pkeBegin_poolBits (m := pkeCmdSet s.m i cls a b c d) (r := pkeAsked s.m.pke i cls a b c d)
  have hdrbg := pkeBegin_drbg (m := pkeCmdSet s.m i cls a b c d) (r := pkeAsked s.m.pke i cls a b c d)
  refine ⟨_, _, hexec, pkeCmdSet_runs_command hi, rfl, rfl, rfl, fun href => ?_, fun hok => ?_⟩
  · rw [if_pos href] at hpool
    rw [pkeRunOf_refused href]
    exact ⟨rfl, rfl, rfl, if_pos (.inr (if_pos href)), hpool⟩
  · have hno : ¬pkeRefused (pkeAsked s.m.pke i cls a b c d) = true := by simp [hok]
    rw [if_neg hno] at hpool hdrbg
    refine ⟨hpool, hdrbg, ?_, pkeRunOf_computes s.m hok _⟩
    show pkeSeed s.m (pkeAsked s.m.pke i cls a b c d) = _
    rw [pkeSeed, if_neg hno]
    exact if_congr (or_iff_right (pkeCodes_ne_mac hi)) rfl rfl

theorem pkeCmd_waits (s : State) {i : Nat} {cls : BitVec 2} {a b c d : BitVec 8} (hi : i ∈ pkeCodes)
    (hidle : s.m.pke.run = none ∧ s.m.pke.waitRng = none ∧ s.m.pke.dmaRun = none)
    (hok : pkeRefused (pkeAsked s.m.pke i cls a b c d) = false) (hbits : s.m.pke.poolBits < pkeNeed i) :
    ∃ n, exec (pkeCmd i cls a b c d) s = .next { s with m := n } ∧ n.pke.run = none
      ∧ n.pke.waitRng = some (pkeAsked s.m.pke i cls a b c d) ∧ n.pke.mem = s.m.pke.mem := by
  obtain ⟨hrun, hwait, hdma⟩ := hidle
  have hexec := exec_pkeCmd s hi cls a b c d
  rw [pkeCommand_waits hi hrun hwait hdma hok hbits] at hexec
  exact ⟨_, hexec, hrun, rfl, rfl⟩

theorem macMode_runs (s : State) (base : BitVec 8) (count : BitVec 11)
    (hidle : s.m.pke.run = none ∧ s.m.pke.waitRng = none ∧ s.m.pke.dmaRun = none) :
    ∃ n x, exec (.macMode base count) s = .next { s with m := n } ∧ n.pke.run = some x ∧ n.pke.mem = s.m.pke.mem
      ∧ n.pke.acc = s.m.pke.acc
      ∧ (macOk s.m.pke (macAsked s.m.pke base count) = false → x.code = 1 ∧ x.writes = [] ∧ x.acc = none)
      ∧ (macOk s.m.pke (macAsked s.m.pke base count) = true → x.code = 0 ∧ x.acc = some
          (((List.range count.toNat).map (macEntry s.m.pke base.toNat)).foldl wideStep (s.m.pke.acc, s.m.pke.mem, [])).1) := by
  obtain ⟨hrun, hwait, hdma⟩ := hidle
  have hexec : exec (.macMode base count) s
      = .next { s with m := pkeStart (pkeRegs s.m (fun k => { k with opc := 0x20, list := count ++ base })) } := rfl
  rw [macStart_begins hrun hwait hdma] at hexec
  have hrunMac := pkeBegin_runs_mac (m := pkeMacSet s.m base count) (r := macAsked s.m.pke base count) rfl
  refine ⟨_, _, hexec, hrunMac, rfl, rfl, fun href => ?_, fun hok => ?_⟩
  · have h := macRunOf_refused (k := (pkeMacSet s.m base count).pke) (r := macAsked s.m.pke base count) href
    rw [h]
    exact ⟨rfl, rfl, rfl⟩
  · exact macRunOf_runs (k := (pkeMacSet s.m base count).pke) (r := macAsked s.m.pke base count) hok

theorem pkeDone_ends (s : State) (r : PkeRun) (h : s.m.pke.run = some r) :
    ∃ n, exec .pkeDone s = .next { s with m := n } ∧ OnlyPke s.m n ∧ n.pke.run = none
      ∧ n.pke.done = true ∧ n.pke.code = r.code ∧ n.pke.failmask = r.failmask ∧ n.pke.dur = r.dur
      ∧ n.pke.cnt.toNat = min (s.m.pke.cnt.toNat + 1) (2 ^ 32 - 1) ∧ n.pke.acc = r.acc.getD s.m.pke.acc
      ∧ (∀ sd opc cl, r.seed = some (sd, opc, cl) → n.pke.dummy = ladderRegs sd opc cl)
      ∧ (r.seed = none → n.pke.dummy = s.m.pke.dummy)
      ∧ (r.writes = [] → n.pke.mem = s.m.pke.mem)
      ∧ (∀ slot v, r.writes = [(slot, leBytes 128 v)] → memWf s.m.pke.mem = true → ∀ x, mget n.pke.mem x =
          if 64 * slot ≤ x ∧ x < 64 * slot + 128 then (leBytes 128 v).getD (x - 64 * slot) 0 else mget s.m.pke.mem x) := by
  have hexec : exec .pkeDone s = .next { s with m := pkeDoneStep s.m } := rfl
  rw [pkeDoneStep_running h] at hexec
  refine ⟨_, hexec, rfl, rfl, rfl, rfl, rfl, rfl, satAdd_one_toNat _, rfl, fun sd opc cl hs => ?_, fun hs => ?_, fun hw => ?_,
    fun slot v hw hwf x => ?_⟩
  · simp only [onPke, hs]
  · simp only [onPke, hs]
  · simp only [onPke, hw, List.foldl_nil]
  · simp only [onPke, hw, List.foldl_cons, List.foldl_nil]
    rw [mget_mput _ _ _ hwf, leBytes_length]

theorem pkeDma_starts (s : State) (addr : BitVec 21) (slot : BitVec 8) (num : BitVec 9) (up : Bool) :
    ∃ n, exec (.pkeDma addr slot num up) s = .next { s with m := n } ∧ OnlyPke s.m n ∧ n.pke.mem = s.m.pke.mem
      ∧ ((s.m.pke.run = none ∧ s.m.pke.waitRng = none ∧ s.m.pke.dmaRun = none) → addr.toNat % 64 = 0 → 1 ≤ num.toNat →
          slot.toNat + num.toNat ≤ 256 → addr.toNat + 64 * num.toNat ≤ 2 ^ 21 → n.pke.dmaRun =
            some { addr := addr.toNat, slot := slot.toNat, nslot := num.toNat, toSram := up })
      ∧ ((¬(s.m.pke.run = none ∧ s.m.pke.waitRng = none ∧ s.m.pke.dmaRun = none) ∨ addr.toNat % 64 ≠ 0 ∨ num.toNat = 0
          ∨ 256 < slot.toNat + num.toNat ∨ 2 ^ 21 < addr.toNat + 64 * num.toNat) →
          n.pke.dmaRefused = true ∧ n.pke.dmaRun = s.m.pke.dmaRun) := by
  have hmove := pkeMove_pkeDmaSet s.m addr slot num up
  have hiff := moveOk_iff (pkeMove (pkeDmaSet s.m addr slot num up).pke)
  rw [hmove] at hiff
  refine ⟨pkeDmaStart (pkeDmaSet s.m addr slot num up), rfl, rfl, pkeDmaStart_mem, ?_, fun h => ?_⟩
  · rintro ⟨hrun, hwait, hdma⟩ h1 h2 h3 h4
    rw [pkeDmaStart_runs (m := pkeDmaSet s.m addr slot num up) hrun hwait hdma (by rw [hmove]; exact hiff.mpr ⟨h1, h2, h3, h4⟩), hmove]
  · refine pkeDmaStart_refuses (m := pkeDmaSet s.m addr slot num up) ?_
    rw [hmove]
    rcases h with h | h
    · exact .inl h
    · refine .inr (Bool.eq_false_iff.mpr fun hok => ?_)
      obtain ⟨h1, h2, h3, h4⟩ := hiff.mp hok
      dsimp only at h1 h2 h3 h4
      omega

theorem pkeDmaDone_moves (s : State) (x : PkeMove) (h : s.m.pke.dmaRun = some x) :
    ∃ n, exec .pkeDmaDone s = .next { s with m := n } ∧ n.pke.dmaRun = none ∧ n.pke.dmaDone = true
      ∧ (x.toSram = true → memWf s.m.hedge.sram = true → memWf s.m.pke.mem = true → n.pke.mem = s.m.pke.mem ∧ ∀ q,
          mget n.hedge.sram q = if x.addr ≤ q ∧ q < x.addr + 64 * x.nslot then mget s.m.pke.mem (64 * x.slot + (q - x.addr))
            else mget s.m.hedge.sram q)
      ∧ (x.toSram = false → memWf s.m.hedge.sram = true → memWf s.m.pke.mem = true → n.hedge = s.m.hedge ∧ ∀ q,
          mget n.pke.mem q = if 64 * x.slot ≤ q ∧ q < 64 * x.slot + 64 * x.nslot
            then mget s.m.hedge.sram (x.addr + (q - 64 * x.slot)) else mget s.m.pke.mem q) := by
  have hexec : exec .pkeDmaDone s = .next { s with m := pkeDmaDoneStep s.m } := rfl
  cases hup : x.toSram with
  | true =>
    rw [pkeDmaDoneStep_up h hup] at hexec
    exact ⟨_, hexec, rfl, rfl, fun _ h1 h2 => ⟨rfl, fun q => mget_mput_mbytes _ _ _ q h1 h2⟩, fun hc => absurd hc (by simp)⟩
  | false =>
    rw [pkeDmaDoneStep_down h hup] at hexec
    exact ⟨_, hexec, rfl, rfl, fun hc => absurd hc (by simp), fun _ h1 h2 => ⟨rfl, fun q => mget_mput_mbytes _ _ _ q h2 h1⟩⟩

/-- Settles O57: START's branches, the results by command, MAC mode, the end, the wipe, the windows, DMA and the pool. -/
theorem pkeCommands : Obligations.PkeCommands := by
  unfold Obligations.PkeCommands
  intro s cls a b c d
  refine ⟨fun i hi hidle hbits => pkeCmd_runs s hi hidle hbits, fun i hi hidle hok hbits => pkeCmd_waits s hi hidle hok hbits, ?running,
    fun base count hidle => macMode_runs s base count hidle, ?nothing, fun r h => pkeDone_ends s r h, ?wipe, ?real, ?curve, ?wipeBusy,
    fun addr slot num up => pkeDma_starts s addr slot num up, fun x h => pkeDmaDone_moves s x h, ?full, ?refill, ?resume⟩
  case running =>
    intro i hi hrun
    have hexec := exec_pkeCmd s hi cls a b c d
    rw [pkeCommand_running _ hrun] at hexec
    exact ⟨_, hexec, rfl⟩
  case nothing =>
    intro hrun
    have hkeep : pkeDoneStep s.m = s.m := by
      unfold pkeDoneStep
      rw [hrun]
    exact congrArg (fun m => Host.Outcome.next { s with m := m }) hkeep
  case wipe =>
    intro hrun hdma
    refine ⟨_, rfl, rfl, ?_⟩
    show (if s.m.pke.run.isSome then _ else if s.m.pke.dmaRun.isSome then _ else _) = _
    rw [hrun, hdma]
    rfl
  case wipeBusy =>
    intro hrun
    exact ⟨_, rfl, rfl, if_pos (Option.isSome_iff_ne_none.mpr hrun)⟩
  case real =>
    intro seed opc cl w ho _
    subst ho
    exact windowSlots_spec seed 5 cl w (show 2 ≤ 4 by omega)
  case curve =>
    intro seed opc cl w ho
    have hreal : windowReal opc w ≤ 8 ∧ (ladderShape opc cl).2 = 8 := by
      rcases ho with rfl | rfl | rfl <;> exact ⟨Nat.lt_succ_iff.mp (Nat.mod_lt _ (by omega)), rfl⟩
    rw [(windowSlots_spec seed opc cl w (by omega)).1, hreal.2]
  case full =>
    intro h
    have hexec : exec .randomPoolRefill s = .next { s with m := poolStep s.m } := rfl
    rw [poolStep_full h] at hexec
    exact hexec
  case refill =>
    intro h hw
    have hexec : exec .randomPoolRefill s = .next { s with m := poolStep s.m } := rfl
    rw [poolStep_idle h hw] at hexec
    exact ⟨_, hexec, rfl⟩
  case resume =>
    intro r h hw
    have hexec : exec .randomPoolRefill s = .next { s with m := poolStep s.m } := rfl
    rw [poolStep_begins h hw] at hexec
    obtain ⟨x, hx⟩ := pkeBegin_run (m := onHedge (onPke s.m (fun k => { k with poolBits := 1024 }))
      (fun h => { h with drbgGens := h.drbgGens + 1 })) (r := r)
    exact ⟨_, x, hexec, hx, rfl, rfl⟩

end Sys2Proof.Machine
end

section
/-! PROOFS. The planner: what PLAN_JOB leaves for a rejected graph, a graph planned afresh and a hand plan (R395 to R432). -/
namespace Sys2Proof.Machine
open Sys2Proof Sys2Proof.Certificates

/-! ## The receipt -/

theorem withCrc_length (bs : List Byte) : (withCrc bs).length = bs.length + 4 := by
  rw [withCrc, List.length_append, leBytes_length]

theorem receiptBytes_length (tag rate hints : Nat) (r : Receipt) : (receiptBytes tag rate hints r).length = 128 := by
  rw [receiptBytes, withCrc_length]
  simp only [List.length_append, leBytes_length, zeros, List.length_replicate]

section
variable {m : Module} {tag : Nat} {j : Job}

/-- The job of a receipt, and the one host write that it makes. -/
theorem writeReceipt_hostOut (r : Receipt) : ∃ bs : List Byte, bs.length = 128
    ∧ (writeReceipt m tag j r).hostOut = m.hostOut ++ [{ addr := j.desc.rcpt, bytes := bs }] :=
  ⟨_, receiptBytes_length tag m.hedge.rate j.desc.hints.toNat r, rfl⟩

theorem writeReceipt_quay (r : Receipt) : (writeReceipt m tag j r).quay = (onJob m tag (fun j => { j with receipt := true })).quay := rfl

theorem jobAt_writeReceipt (r : Receipt) (hj : jobAt m tag = some j) :
    jobAt (writeReceipt m tag j r) tag = some { j with receipt := true } := by
  have h : jobAt (writeReceipt m tag j r) tag = jobAt (onJob m tag (fun j => { j with receipt := true })) tag := rfl
  rw [h, jobAt_onJob_same, hj]
  rfl

/-! ## A rejected image -/

theorem finishJob_hostOut (status detail : BitVec 8) (count : Option Nat) (snap : Option (BitVec 64 × List Byte)) :
    (finishJob m tag status detail count snap).hostOut = m.hostOut := by
  unfold finishJob
  split <;> rfl

theorem finishJob_plans (status detail : BitVec 8) (count : Option Nat) (snap : Option (BitVec 64 × List Byte)) :
    (finishJob m tag status detail count snap).quay.plans = m.quay.plans := by
  unfold finishJob
  split <;> rfl

/-- A rejection writes one receipt and completes the job with the plan status. -/
theorem planReject_completes (late : Bool) (us : Nat) (fig : Receipt → Receipt) (r : Reject) (hj : jobAt m tag = some j) :
    (∃ bs : List Byte, bs.length = 128
      ∧ (planReject m tag j late us fig r).hostOut = m.hostOut ++ [{ addr := j.desc.rcpt, bytes := bs }])
    ∧ (∃ x : Completion, (planReject m tag j late us fig r).quay.compl = m.quay.compl ++ [x]
      ∧ x.status = BitVec.ofNat 8 r.status ∧ x.cid = j.desc.cid)
    ∧ (planReject m tag j late us fig r).quay.plans = m.quay.plans := by
  unfold planReject
  dsimp only
  generalize hrec : Receipt.mk _ _ _ _ _ _ _ _ _ _ _ _ _ _ _ _ _ _ = rec
  have hjob : jobAt (onJob (writeReceipt m tag j rec) tag (fun j => { j with planned := late })) tag
      = some { j with receipt := true, planned := late } := by
    rw [jobAt_onJob_same, jobAt_writeReceipt rec hj]
    rfl
  have hcompl := finishJob_compl _ tag (BitVec.ofNat 8 r.status) 0 none none hjob
  rw [onJob_quay_compl, writeReceipt_quay, onJob_quay_compl] at hcompl
  refine ⟨?_, ⟨_, hcompl, rfl, rfl⟩, ?_⟩
  · rw [finishJob_hostOut]
    exact writeReceipt_hostOut rec
  · rw [finishJob_plans]
    rfl

/-! ## A graph planned afresh -/

/-- Numbering the floods of a list changes their seeds alone. -/
theorem numberFloods_seedless (seeds : List Nat) (ps : List LPrim) :
    (numberFloods seeds ps).map (fun p => { p with seed := 0 }) = ps.map (fun p => { p with seed := 0 }) := by
  induction ps generalizing seeds with
  | nil => rfl
  | cons p ps ih =>
    unfold numberFloods
    split <;> rw [List.map_cons, List.map_cons, ih]

theorem cachePut_fits {p : CachedPlan} (h : cacheFits (m.quay.plans ++ [p]) = true) : cachePut m p = m.quay.plans ++ [p] := by
  have hevict : cacheEvict m p (m.quay.plans.length + 1) m.quay.plans = some m.quay.plans := by
    unfold cacheEvict
    exact if_pos h
  rw [cachePut, hevict]

theorem planDone_hostOut (k : Checked) (hs : List HostTensor) (c : PlanChoice) (wait : BitVec 64) (us key flags : Nat) (id : Option Nat) :
    ∃ bs : List Byte, bs.length = 128
      ∧ (planDone m tag j k hs c wait us key flags id).hostOut = m.hostOut ++ [{ addr := j.desc.rcpt, bytes := bs }] :=
  ⟨_, receiptBytes_length _ _ _ _, rfl⟩

theorem planDone_quay (k : Checked) (hs : List HostTensor) (c : PlanChoice) (wait : BitVec 64) (us key flags : Nat) (id : Option Nat) :
    (planDone m tag j k hs c wait us key flags id).quay.plans = m.quay.plans
      ∧ (planDone m tag j k hs c wait us key flags id).quay.compl = m.quay.compl := ⟨rfl, rfl⟩

/-- The module with a planned job's custom sets in its books. -/
def planSets (m : Module) (tag : Nat) (k : Checked) : Module :=
  onQuay m (fun q => { q with jobSets := q.jobSets.filter (fun p => decide (p.1 ≠ tag)) ++ k.g.sets.map (fun s => (tag, s)) })

theorem jobAt_planDone (k : Checked) (hs : List HostTensor) (c : PlanChoice) (wait : BitVec 64) (us key flags : Nat) (id : Option Nat)
    (hj : jobAt m tag = some j) : jobAt (planDone m tag j k hs c wait us key flags id) tag
      = some (plannedJob (loweredOf m k) { j with receipt := true } c wait k id) := by
  have hj' : jobAt (planSets m tag k) tag = some j := hj
  have hdone : planDone m tag j k hs c wait us key flags id
      = onJob (writeReceipt (planSets m tag k) tag j (planReceipt m k hs c wait us key flags)) tag
          (fun j => plannedJob (loweredOf m k) j c wait k id) := rfl
  rw [hdone, jobAt_onJob_same, jobAt_writeReceipt _ hj']
  rfl

/-- The cached plan of a graph planned afresh. -/
def planEntry (m : Module) (j : Job) (k : Checked) (c : PlanChoice) (key : Nat) : CachedPlan :=
  { id := m.quay.planSeq + 1, key := BitVec.ofNat 64 key, choice := c, patches := j.desc.patches, uses := k.uses, log := k.log,
    seq := m.quay.planSeq + 1, kinds := ksidKinds m.quay.dir k.g, pages := needPages m.quay.dir (m.quay.imageSets ++ k.g.sets) k }

/-- What a planned job shows of the choice it was planned with. -/
structure PlannedAs (m : Module) (j : Job) (k : Checked) (c : PlanChoice) (x : Job) : Prop where
  phase : x.phase = .planned
  clusters : x.clusters = c.clusters
  dies : x.dies = c.dies
  places : x.places = c.places
  bound : x.bound = c.boundAc
  waitAc : x.waitAc = c.waitAc
  desc : x.desc = j.desc
  prims : x.prims.map (fun p => { p with seed := 0 }) = (loweredOf m k).map (fun p => { p with seed := 0 })

theorem plannedJob_plannedAs (k : Checked) (c : PlanChoice) (id : Option Nat) :
    PlannedAs m j k c (plannedJob (loweredOf m k) { j with receipt := true } c c.waitAc k id) where
  phase := rfl
  clusters := rfl
  dies := rfl
  places := rfl
  bound := rfl
  waitAc := rfl
  desc := rfl
  prims := numberFloods_seedless _ _

/-- Planning afresh writes the receipt, makes the job a planned one, and caches the plan where there is room. -/
theorem planFresh_plans (k : Checked) (hs : List HostTensor) (c : PlanChoice) (key : Nat) (again : Bool) (hj : jobAt m tag = some j) :
    (∃ bs : List Byte, bs.length = 128
      ∧ (planFresh m tag j k hs c key again).hostOut = m.hostOut ++ [{ addr := j.desc.rcpt, bytes := bs }])
    ∧ (∃ x, jobAt (planFresh m tag j k hs c key again) tag = some x ∧ PlannedAs m j k c x)
    ∧ (planFresh m tag j k hs c key again).quay.compl = m.quay.compl
    ∧ (cacheFits (m.quay.plans ++ [planEntry m j k c key]) = true →
      (planFresh m tag j k hs c key again).quay.plans = m.quay.plans ++ [planEntry m j k c key]) := by
  have hfresh : planFresh m tag j k hs c key again
      = planDone (onQuay m (fun q => { q with planSeq := m.quay.planSeq + 1, plans := cachePut m (planEntry m j k c key) })) tag j k hs c
          c.waitAc c.planUs.toNat key (4 * b2n again) (some (m.quay.planSeq + 1)) := rfl
  rw [hfresh]
  refine ⟨planDone_hostOut .., ⟨_, jobAt_planDone _ _ _ _ _ _ _ _ hj, plannedJob_plannedAs ..⟩, (planDone_quay ..).2, fun hfit => ?_⟩
  rw [(planDone_quay ..).1]
  exact cachePut_fits hfit

/-- A choice that a plan may hold, within its time, its entries and the proof of its waits, is planned. -/
theorem planNew_fresh {b : List Byte} {k : Checked} {hs : List HostTensor} {c : PlanChoice} (key : Nat) (again : Bool)
    (hturn : planTurn m j = true) (htime : c.planUs.toNat * 1000 ≤ 2000000 + 100 * entriesOf c.clusters (loweredOf m k))
    (hentries : entriesOf c.clusters (loweredOf m k) ≤ 16777216) (hplaced : c.placed = true) (hchoice : choiceOk m tag j k hs c = true)
    (hdeg : fencedNow m = [] ∨ degradedOk m (BitVec.ofNat 64 (planKey b k.g j.desc.hints.toNat [])) c = true)
    (hwaits : waitsOk c (planTimeline j.desc c) = true) :
    planNew m tag j b k hs c key again = planFresh m tag j k hs c key again := by
  have hdeg' : (decide (fencedNow m ≠ []) && !degradedOk m (BitVec.ofNat 64 (planKey b k.g j.desc.hints.toNat [])) c) = false := by
    rcases hdeg with h | h <;> simp [h]
  unfold planNew
  dsimp only
  rw [hturn, decide_eq_false (not_lt.mpr htime), if_neg (by simp), if_neg (not_lt.mpr hentries), hplaced, if_neg (by simp), hchoice, hdeg',
    if_neg (by simp), hwaits, if_neg (by simp)]

/-- Valid hints and no cached plan to replay: the graph is planned anew. -/
theorem planValid_new {b : List Byte} {k : Checked} {hs : List HostTensor} {c : PlanChoice} (hmode : j.desc.hints.toNat % 4 < 2)
    (hbits : j.desc.hints.toNat < 4096)
    (hmiss : cacheHit m (BitVec.ofNat 64 (planKey b k.g j.desc.hints.toNat (fencedNow m))) k = none) :
    planValid m tag j b k hs c = planNew m tag j b k hs c (planKey b k.g j.desc.hints.toNat (fencedNow m))
      (m.quay.plans.any (fun p => decide (p.key.toNat = planKey b k.g j.desc.hints.toNat (fencedNow m)))) := by
  unfold planValid
  dsimp only
  rw [if_neg (by omega), hmiss]

/-- The module's step for a graph image that passes its checks, with buffers in range. -/
theorem planGraph_valid {b : List Byte} {k : Checked} {c : PlanChoice}
    (hcheck : graphCheck b j.desc.glen.toNat j.desc.patches m.quay.imageSets m.quay.dir = .ok k) (hslots : j.desc.npatch = k.g.hdr.nslot)
    (hbufs : ∀ h ∈ hostTensors k (m.quay.imageSets ++ k.g.sets) j.desc.bufs, h.t.buf < j.desc.nbuf)
    (hrange : badRange (hostTensors k (m.quay.imageSets ++ k.g.sets) j.desc.bufs) j.desc.bufs = none) :
    planGraph m tag j b c = planValid m tag j b k (hostTensors k (m.quay.imageSets ++ k.g.sets) j.desc.bufs) c := by
  have hnone : (hostTensors k (m.quay.imageSets ++ k.g.sets) j.desc.bufs).any (fun h => decide (h.t.buf ≥ j.desc.nbuf)) = false := by
    rw [List.any_eq_false]
    intro h hh
    have := hbufs h hh
    simp; omega
  unfold planGraph
  rw [hcheck]
  dsimp only
  rw [if_neg (by simp [hslots, hnone]), hrange]

theorem planGraph_rejected {b : List Byte} {c : PlanChoice} {r : Reject}
    (hcheck : graphCheck b j.desc.glen.toNat j.desc.patches m.quay.imageSets m.quay.dir = .error r) :
    planGraph m tag j b c = planReject m tag j false c.planUs.toNat id r := by
  unfold planGraph
  rw [hcheck]

/-- PLAN_JOB of an admitted job whose whole image has arrived. -/
theorem planStep_arrived {b : List Byte} {c : PlanChoice} (hj : jobAt m tag = some j) (hp : j.phase = .admitted)
    (hlen : b.length = j.desc.glen.toNat) (hmuted : muted m = false) (halive : alive m = true) :
    planStep m tag b c = if j.desc.hand then planHand m tag j b c else planGraph m tag j b c := by
  unfold planStep
  rw [hj]
  dsimp only
  rw [if_neg (by simp [hp, hlen, hmuted, halive])]

/-! ## A hand plan -/

/-- What a planned hand job shows of its plan. -/
structure HandPlanned (h : HandPlan) (c : PlanChoice) (x : Job) : Prop where
  phase : x.phase = .planned
  clusters : x.clusters = h.clusters
  bound : x.bound = BitVec.ofNat 64 (2 ^ 64 - 1)
  waitAc : x.waitAc = c.waitAc
  places : x.places = c.places
  floods : x.floods = handFloods h.clusters

/-- A hand plan that passes its checks, with its places free and a wait long enough. -/
theorem planHand_plans {b : List Byte} {c : PlanChoice} {h : HandPlan} (hj : jobAt m tag = some j) (hhints : j.desc.hints = 0)
    (hcheck : handCheck b j.desc.glen.toNat m.quay.dir (outOfService m) = .ok h) (hform : placesForm h.clusters c.places = true)
    (hfree : placesFree m tag none h.clusters c.places = true) (hwait : waitFor m tag h.clusters (handDies h) [] ≤ c.waitAc.toNat) :
    (∃ bs : List Byte, bs.length = 128 ∧ (planHand m tag j b c).hostOut = m.hostOut ++ [{ addr := j.desc.rcpt, bytes := bs }])
    ∧ (∃ x, jobAt (planHand m tag j b c) tag = some x ∧ HandPlanned h c x)
    ∧ (planHand m tag j b c).quay.plans = m.quay.plans := by
  unfold planHand
  dsimp only
  rw [if_neg (not_not_intro hhints), hcheck]
  dsimp only
  rw [hform, hfree, decide_eq_false (not_lt.mpr hwait), if_neg (by simp)]
  generalize hrec : Receipt.mk _ _ _ _ _ _ _ _ _ _ _ _ _ _ _ _ _ _ = rec
  have hrest := jobAt_writeReceipt rec hj
  refine ⟨writeReceipt_hostOut rec, ⟨_, (jobAt_onJob_same _ _ _).trans (congrArg _ hrest), ⟨rfl, rfl, rfl, rfl, rfl, rfl⟩⟩, rfl⟩

end

/-- Settles O12: a rejection, a fresh plan and a hand plan, each through what it does to the job, the host and the cache. -/
theorem planOutcomes : Obligations.PlanOutcomes := by
  unfold Obligations.PlanOutcomes
  intro s tag b c j hj hp hlen hmuted halive
  have hexec : exec (.planJob tag b c) s = .next { s with m := planStep s.m tag b c } := rfl
  rw [planStep_arrived hj hp hlen hmuted halive] at hexec
  refine ⟨fun r hhand hcheck => ?_, fun k hhand hcheck => ?_, fun h hhand hhints hcheck hform hfree hwait => ?_⟩
  · rw [hhand, if_neg (by simp), planGraph_rejected hcheck] at hexec
    obtain ⟨hout, ⟨x, hcompl, hstatus, hcid⟩, hplans⟩ := planReject_completes false c.planUs.toNat id r hj
    exact ⟨_, x, hexec, hout, hcompl, hstatus, hcid, hplans⟩
  · intro hs key hslots hbufs hrange hmode hbits hmiss hturn htime hentries hplaced hchoice hdeg hwaits
    rw [hhand, if_neg (by simp), planGraph_valid hcheck hslots hbufs hrange, planValid_new hmode hbits hmiss,
      planNew_fresh _ _ hturn htime hentries hplaced hchoice hdeg hwaits] at hexec
    obtain ⟨hout, ⟨x, hjob, hx⟩, hcompl, hcache⟩ := planFresh_plans (m := s.m) k hs c key
      (s.m.quay.plans.any (fun p => decide (p.key.toNat = key))) hj
    exact ⟨_, x, hexec, hout, hjob, hx.phase, hx.clusters, hx.dies, hx.places, hx.bound, hx.waitAc, hx.desc, hx.prims, hcompl, hcache⟩
  · rw [hhand, if_pos rfl] at hexec
    obtain ⟨hout, ⟨x, hjob, hx⟩, hplans⟩ := planHand_plans hj hhints hcheck hform hfree hwait
    exact ⟨_, x, hexec, hout, hjob, hx.phase, hx.clusters, hx.bound, hx.waitAc, hx.places, hx.floods, hplans⟩

end Sys2Proof.Machine
end

section
/-! PROOFS. A landing point whose row copy runs over the end of a stack (R419, R421, R511, R527). The replay looks for wrong symbols
of the copy's units in the stack that the copy begins in, and then reads each unit at the sum of the stack's base and the unit's
offset, which lies in the next stack once it passes 2^37. There the read meets a wrong symbol, corrects and counts it, and a stack
changes that the statement says stays. -/
namespace Sys2Proof.Machine
open Sys2Proof Sys2Proof.Certificates

/-- A copy of row 0 that begins 64 bytes before the end of stack 0: of its four units, three lie in stack 1. -/
def overrunCopy : LandingPoint := { saves := [{ cl := 0, row := 0, rows := 1, at_ := 2 ^ 37 - 64 }] }

/-- Job 7, running, asked to replay from `overrunCopy`; unit 0 of stack 1 has one wrong symbol, and stack 0 has none. -/
def overrunReplay : Module :=
  { stks := [(1, { err := [(0, 1)] })],
    quay := { jobs := [(7, some { phase := .running, landing := some overrunCopy, replayReq := some .memory })] } }

theorem overrunCopy_clean (u : LostUnit) (hu : u ∈ copyUnits overrunCopy) : tget 0 (stkAt overrunReplay u.stack.val).err u.unit = 0 := by
  have hall : (copyUnits overrunCopy).all (fun u => decide (tget 0 (stkAt overrunReplay u.stack.val).err u.unit = 0)) = true := by
    decide +kernel
  exact of_decide_eq_true (List.all_eq_true.mp hall u hu)

/-- Refutes O49: the replay of `overrunReplay` counts a corrected unit of stack 1. -/
theorem not_landingAndReplay : ¬ Obligations.LandingAndReplay := by
  intro h
  obtain ⟨-, -, hreplay⟩ := h { m := overrunReplay } 7 _ rfl
  obtain ⟨-, hgood, -⟩ := hreplay .memory
  obtain ⟨n, j', hexec, -, -, -, -, -, -, -, -, hstks, -⟩ := hgood rfl rfl (by simp) (by simp)
    (fun p hp u hu => by
      obtain rfl : overrunCopy = p := Option.some.inj hp
      exact overrunCopy_clean u hu)
  have hn : replayStep overrunReplay 7 .memory [] = n := by injection hexec with e; injection e
  have hcounted : (stkAt (replayStep overrunReplay 7 .memory []) 1).eccCorr = 1 := by decide +kernel
  have hbefore : (stkAt overrunReplay 1).eccCorr = 0 := by decide +kernel
  have hsame := congrArg (·.eccCorr) (hstks 1)
  rw [← hn, hcounted] at hsame
  exact absurd (hsame.trans hbefore) (by decide)

end Sys2Proof.Machine
end

section
/-! PROOFS. A transfer: what it waits for, what kills its job, and where its words land (R326 to R332, R369 to R374, R420 to R422). -/
namespace Sys2Proof.Machine
open Sys2Proof Sys2Proof.Certificates

/-! ## What the parts of a transfer leave -/

/-- Two clusters with the same contexts, flags, scoreboard and unchecked contexts. -/
def SameContexts (a b : Cluster) : Prop := b.ctxs = a.ctxs ∧ b.flags = a.flags ∧ b.scb = a.scb ∧ b.unchecked = a.unchecked

theorem SameContexts.refl (a : Cluster) : SameContexts a a := ⟨rfl, rfl, rfl, rfl⟩

theorem SameContexts.trans {a b c : Cluster} (h : SameContexts a b) (g : SameContexts b c) : SameContexts a c := by
  obtain ⟨h1, h2, h3, h4⟩ := h
  obtain ⟨g1, g2, g3, g4⟩ := g
  exact ⟨g1.trans h1, g2.trans h2, g3.trans h3, g4.trans h4⟩

/-- Two modules with the same contexts, flags, scoreboards and stream engines, and the same planned jobs. -/
structure StreamFrame (m n : Module) : Prop where
  books : ∀ c, SameContexts (clAt m c) (clAt n c)
  ste : ∀ d, (dieAt n d).ste = (dieAt m d).ste
  planned : ∀ t, plannedAt n t = plannedAt m t

/-- And the same links. -/
structure MoveFrame (m n : Module) : Prop extends StreamFrame m n where
  links : ∀ l, linkAt n l = linkAt m l

theorem StreamFrame.trans {a b c : Module} (h : StreamFrame a b) (g : StreamFrame b c) : StreamFrame a c where
  books := fun q => (h.books q).trans (g.books q)
  ste := fun d => (g.ste d).trans (h.ste d)
  planned := fun t => (g.planned t).trans (h.planned t)

theorem MoveFrame.trans {a b c : Module} (h : MoveFrame a b) (g : MoveFrame b c) : MoveFrame a c where
  toStreamFrame := h.toStreamFrame.trans g.toStreamFrame
  links := fun l => (g.links l).trans (h.links l)

section
variable (m : Module)

theorem plannedAt_congr {m n : Module} {t : Nat} (h : (jobAt n t).map (·.desc) = (jobAt m t).map (·.desc)) : plannedAt n t = plannedAt m t := by
  unfold plannedAt
  generalize jobAt n t = a at h ⊢
  generalize jobAt m t = b at h ⊢
  cases a <;> cases b
  · rfl
  · cases h
  · cases h
  · simp only [Option.map_some, Option.some.injEq] at h
    simp only [h]

/-- A change of neither clusters, dies, jobs nor the Quay's links. -/
theorem MoveFrame.of_eq {m n : Module} (hc : n.clusters = m.clusters) (hd : n.dies = m.dies) (hj : n.quay.jobs = m.quay.jobs)
    (hl : n.quay.links = m.quay.links) : MoveFrame m n where
  books := fun c => by rw [clAt, clAt, hc]; exact .refl _
  ste := fun d => by rw [dieAt, dieAt, hd]
  planned := fun t => plannedAt_congr (by rw [jobAt_of_jobs_eq m hj])
  links := fun l => by
    cases l with
    | pon d l => rw [linkAt, linkAt, dieAt, dieAt, hd]
    | quay d => rw [linkAt, linkAt, hl]

theorem MoveFrame.refl : MoveFrame m m := .of_eq rfl rfl rfl rfl

theorem moveFrame_onCl (c : Nat) {f : Cluster → Cluster} (hf : ∀ x, SameContexts x (f x)) : MoveFrame m (onCl m c f) where
  books := fun q => by
    by_cases h : q = c
    · rw [h, clAt_onCl_same]; exact hf _
    · rw [clAt_onCl_ne _ _ _ _ h]; exact .refl _
  ste := fun _ => rfl
  planned := fun _ => rfl
  links := fun l => by cases l <;> rfl

theorem moveFrame_onDie (d : Nat) {f : Die → Die} (hs : ∀ x, (f x).ste = x.ste) (hl : ∀ x, (f x).links = x.links) :
    MoveFrame m (onDie m d f) where
  books := fun _ => .refl _
  ste := fun q => by
    by_cases h : q = d
    · rw [h, dieAt_onDie_same, hs]
    · rw [dieAt_onDie_ne _ _ _ _ h]
  planned := fun _ => rfl
  links := fun l => by
    cases l with
    | quay q => rfl
    | pon q l =>
      rw [linkAt, linkAt]
      by_cases h : q.val = d
      · rw [h, dieAt_onDie_same, hl]
      · rw [dieAt_onDie_ne _ _ _ _ h]

theorem moveFrame_onJob (t : Nat) {f : Job → Job} (hf : ∀ j, (f j).desc = j.desc) : MoveFrame m (onJob m t f) where
  books := fun _ => .refl _
  ste := fun _ => rfl
  planned := fun q => by
    refine plannedAt_congr ?_
    by_cases h : q = t
    · rw [h, jobAt_onJob_same, Option.map_map]
      exact congrArg (fun g => Option.map g (jobAt m t)) (funext hf)
    · rw [jobAt_onJob_ne _ _ _ _ h]
  links := fun l => by cases l <;> rfl

theorem moveFrame_onStk (t : Nat) (f : Stack → Stack) : MoveFrame m (onStk m t f) := .of_eq rfl rfl rfl rfl

theorem moveFrame_onHedge (f : Hedge → Hedge) : MoveFrame m (onHedge m f) := .of_eq rfl rfl rfl rfl

theorem moveFrame_foldl {α : Type} (f : Module → α → Module) (hf : ∀ n a, MoveFrame n (f n a)) (l : List α) : MoveFrame m (l.foldl f m) :=
  foldl_keeps (MoveFrame m) f (fun b a hb => hb.trans (hf b a)) l m (.refl m)

/-! ## Reads and writes -/

theorem moveFrame_askReplay (tag : Nat) (c : ReplayCause) : MoveFrame m (askReplay m tag c) :=
  moveFrame_onJob m tag fun j => by
    show (if _ then _ else _ : Job).desc = _
    split <;> rfl

theorem scrWrites_sameContexts (c : Cluster) (ws : List (Nat × Word)) : SameContexts c (scrWrites c ws) :=
  foldl_keeps (SameContexts c) _ (fun b p hb => hb.trans (by unfold scrWrite; split <;> exact .refl b)) ws c (.refl c)

theorem moveFrame_scrAccess (cl tag : Nat) (reads : List Nat) (writes : List (Nat × Word)) : MoveFrame m (scrAccess m cl tag reads writes) := by
  have hacc : MoveFrame m (onCl m cl (fun c => scrWrites (scrReadFx c reads) writes)) :=
    moveFrame_onCl m cl fun x => SameContexts.trans (b := scrReadFx x reads) (.refl x) (scrWrites_sameContexts _ _)
  have hjob (k : Nat) : MoveFrame m (onJob (onCl m cl (fun c => scrWrites (scrReadFx c reads) writes)) tag
      (fun j => { j with fence := j.fence + k })) := hacc.trans (moveFrame_onJob _ tag fun _ => rfl)
  unfold scrAccess
  dsimp only
  split
  · unfold scrUnc
    dsimp only
    refine MoveFrame.trans ?_ (moveFrame_onHedge _ _)
    refine MoveFrame.trans ?_ (moveFrame_onHedge _ _)
    refine MoveFrame.trans ?_ (moveFrame_askReplay _ tag _)
    exact hjob _
  · exact hjob _

theorem moveFrame_stkAccess (a n tag : Nat) (cause : ReplayCause) : MoveFrame m (stkAccess m a n tag cause) := by
  unfold stkAccess
  dsimp only
  split
  · exact moveFrame_onStk m _ _
  · exact ((moveFrame_onStk m _ _).trans (moveFrame_askReplay _ tag cause)).trans (.of_eq rfl rfl rfl rfl)

theorem moveFrame_stackFenceHits (cl tag n : Nat) : MoveFrame m (stackFenceHits m cl tag n) := by
  unfold stackFenceHits
  split
  · exact .refl m
  · refine MoveFrame.trans ?_ (moveFrame_onJob _ tag ?_)
    · exact moveFrame_onCl m cl fun _ => .refl _
    · exact fun _ => rfl

theorem moveFrame_readFx (cl tag : Nat) (p : Slot) (ws : List Nat) : MoveFrame m (readFx m cl tag p ws) := by
  unfold readFx
  split
  · split
    · exact moveFrame_onCl m _ fun _ => .refl _
    · exact moveFrame_scrAccess m _ tag ws []
  · split
    · exact (moveFrame_stackFenceHits m cl tag _).trans (moveFrame_foldl _ _ (fun b u => moveFrame_stkAccess b _ _ tag _) _)
    · exact .refl m

theorem moveFrame_writeWords (cl tag : Nat) (p : Slot) (ws : List (Nat × Word)) : MoveFrame m (writeWords m cl tag p ws) := by
  unfold writeWords
  split
  · dsimp only
    split
    · exact moveFrame_onCl m _ fun _ => .refl _
    · exact moveFrame_scrAccess m _ tag [] _
  · dsimp only
    split
    · exact (moveFrame_stackFenceHits m cl tag _).trans (moveFrame_foldl _ _ (fun b r => moveFrame_onStk b _ _) _)
    · refine moveFrame_foldl m _ ?_ _
      exact fun b r => .of_eq rfl rfl rfl rfl

theorem moveFrame_markLost (p : Slot) (ws : List Nat) : MoveFrame m (markLost m p ws) := by
  unfold markLost
  split
  · exact .refl m
  · split
    · exact moveFrame_onCl m _ fun c => by split <;> exact .refl c
    · split
      · exact moveFrame_foldl m _ (fun b w => moveFrame_onStk b _ _) _
      · exact .refl m

/-! ## Objects and counts -/

theorem moveFrame_noteIngest (tag : Nat) (v : Move) (units : List (List Word)) (walk : List (Bool × Int)) (objs : List Moved) :
    MoveFrame m (noteIngest tag v units walk objs m) := by
  unfold noteIngest
  split
  · exact .refl m
  · exact moveFrame_onJob m tag fun j => by dsimp only; split <;> rfl

theorem moveFrame_auditParts (tag : Nat) (parts : List Shadow) : MoveFrame m (auditParts m tag parts).1 := by
  unfold auditParts
  split
  · exact .refl m
  · have hran (g : Quay → BitVec 64) : MoveFrame m (onJob (onQuay m (fun q => { q with audits := q.audits + 1, auditFails := g q })) tag
        (fun j => { j with auditRan := true })) := by
      refine MoveFrame.trans ?_ (moveFrame_onJob _ tag ?_)
      · exact .of_eq rfl rfl rfl rfl
      · exact fun _ => rfl
    dsimp only
    generalize parts.all (shadowSame m) = same
    cases same with
    | true => exact hran (fun q => q.auditFails)
    | false =>
      simp only [Bool.false_eq_true, if_false]
      split
      · exact (hran (fun q => q.auditFails + 1)).trans (moveFrame_askReplay _ tag _)
      · exact hran (fun q => q.auditFails + 1)

theorem moveFrame_auditEgress (tag cl slot plen : Nat) (hb : List Byte) : MoveFrame m (auditEgress m tag cl slot plen hb).1 := by
  unfold auditEgress
  split
  · split
    · exact .refl m
    · exact moveFrame_auditParts m tag _
  · exact .refl m

theorem moveFrame_egressObj (tag : Nat) (v : Move) (k : Nat) (inb : Bool) (addr : Nat) (o : Moved) (hslot : Nat) :
    MoveFrame m (egressObj m tag v k inb addr o hslot).1 := by
  unfold egressObj
  dsimp only
  generalize haudit : (if (decide (v.pd.kind = 2) && inb && decide (v.ps.kind = 0)) = true then _ else _ : Module × List Byte) = p
  have hp : MoveFrame m p.1 := by
    rw [← haudit]
    split
    · exact moveFrame_auditEgress m tag _ _ _ _
    · exact .refl m
  generalize (if (decide (v.pd.kind = 2) && inb && noiseOver (jobSetsOf m tag) p.2) = true then
    egressCause p.2 o.pay.length 8 else p.2) = h2
  split
  · refine hp.trans (moveFrame_onJob _ tag ?_)
    exact fun _ => rfl
  · exact hp

theorem moveFrame_egressAll (tag : Nat) (v : Move) (hslot : Nat) (ws : List (Bool × Int)) :
    ∀ (m : Module) (k : Nat) (os : List Moved), MoveFrame m (egressAll tag v hslot m k ws os).1 := by
  induction ws with
  | nil => exact fun m k os => .refl m
  | cons t ws ih =>
    intro m k os
    cases os with
    | nil => exact .refl m
    | cons o os => exact (moveFrame_egressObj m tag v k t.1 _ o hslot).trans (ih _ (k + 1) os)

theorem moveFrame_putHeaders (cl tag : Nat) (v : Move) (hslot : Nat) (objs : List Moved) (walk : List (Bool × Int)) :
    MoveFrame m (putHeaders m cl tag v hslot objs walk) := by
  unfold putHeaders
  split
  · exact moveFrame_writeWords m cl tag _ _
  · split
    · refine moveFrame_onCl m _ fun c => ?_
      refine foldl_keeps (SameContexts c) _ ?_ _ c (.refl c)
      exact fun b o hb => hb
    · exact .refl m

theorem moveFrame_countMove (die tag oob clip : Nat) (objs : List Moved) : MoveFrame m (countMove m die tag oob clip objs) := by
  unfold countMove
  dsimp only
  refine MoveFrame.trans ?_ (moveFrame_onJob _ tag ?_)
  · refine moveFrame_onDie m die ?_ ?_ <;> exact fun _ => rfl
  · exact fun _ => rfl

theorem moveFrame_noteReplica (v : Move) : MoveFrame m (noteReplica m v) := by
  unfold noteReplica
  dsimp only
  split
  · split
    · exact .of_eq rfl rfl rfl rfl
    · exact .refl m
  · exact .refl m

theorem streamFrame_crossPath (path : List LinkEnd) (words : Nat) : StreamFrame m (crossPath m path words) := by
  obtain ⟨heq, hdies⟩ := crossPath_only m path words
  refine ⟨fun c => ?_, fun d => ?_, fun t => ?_⟩
  · rw [heq]; exact .refl _
  · rw [hdies d]
  · exact plannedAt_congr (by rw [heq]; rfl)

end

/-! ## The move in its parts -/

/-- The end of a transfer once its words are written: lost words, headers, marks, counts, the last write and a replica. -/
def moveCounts (m : Module) (v : Move) (die tag cl now hslot : Nat) (lost : List Nat) (outs objs : List Moved) (rows : List Nat)
    (oob clip : Nat) : Module :=
  let m4 := putHeaders (if v.dst.obj then m else markLost m v.pd lost) cl tag v hslot outs (v.dst.walk v.bd)
  let m5 := onCl m4 v.pd.cl (fun c => { c with poisoned := rows.foldl (fun t r => tset false t r true) c.poisoned })
  let m6 := countMove m5 die tag oob clip objs
  noteReplica (if v.pd.kind = 2 then onJob m6 tag (fun j => { j with lastWrite := now }) else m6) v

section
variable (m : Module) (v : Move) (die s : Nat) (st : Stream) (host : List Word)

theorem moveFrame_moveCounts (tag cl now hslot : Nat) (lost : List Nat) (outs objs : List Moved) (rows : List Nat) (oob clip : Nat) :
    MoveFrame m (moveCounts m v die tag cl now hslot lost outs objs rows oob clip) := by
  unfold moveCounts
  dsimp only
  have h3 : MoveFrame m (if v.dst.obj = true then m else markLost m v.pd lost) := by
    split
    · exact .refl m
    · exact moveFrame_markLost m _ _
  have h4 := h3.trans (moveFrame_putHeaders _ cl tag v hslot outs (v.dst.walk v.bd))
  generalize putHeaders _ cl tag v hslot outs (v.dst.walk v.bd) = m4 at h4
  have h5 : MoveFrame m4 (onCl m4 v.pd.cl (fun c => { c with poisoned := rows.foldl (fun t r => tset false t r true) c.poisoned })) :=
    moveFrame_onCl m4 _ fun c => .refl c
  have h6 := (h4.trans h5).trans (moveFrame_countMove _ die tag oob clip objs)
  refine MoveFrame.trans ?_ (moveFrame_noteReplica _ v)
  split
  · refine h6.trans (moveFrame_onJob _ tag ?_)
    exact fun _ => rfl
  · exact h6

/-- A transfer's parts: its data crosses to the die, reads and objects follow, its data crosses out and is written, and the counts
follow; the bank cycles slip, and the stream has moved. -/
theorem moveStep_parts : ∃ (a : Module) (w : Nat) (ws : List (Nat × Word)) (lost : List Nat) (outs objs : List Moved) (rows : List Nat)
    (oob clip : Nat) (bs : List (List Nat)),
    MoveFrame (crossPath m (pathIn m st.job die v.ps) (inWords v (v.src.walk v.bs))) a
    ∧ moveStep m die s st v host = onSte (bankSlips (moveCounts
        (writeWords (crossPath a (pathOut m st.job die v.pd) w) st.cl st.job v.pd ws) v die st.job st.cl m.now (ssetOf st.set).hslot
          lost outs objs rows oob clip) st.cl st.ctx bs) die s (fun e => { e with active := some { st with moved := true } }) := by
  unfold moveStep
  dsimp only
  generalize hm1 : noteIngest _ _ _ _ _ (readFx (crossPath m _ _) _ _ _ _) = m1
  have h1 : MoveFrame (crossPath m (pathIn m st.job die v.ps) (inWords v (v.src.walk v.bs))) m1 := by
    rw [← hm1]
    exact (moveFrame_readFx _ _ _ _ _).trans (moveFrame_noteIngest _ _ _ _ _ _)
  generalize hp : (if v.dst.obj = true then egressAll _ _ _ m1 _ _ _ else _ : Module × List Moved) = p
  have h2 : MoveFrame m1 p.1 := by
    rw [← hp]
    split
    · exact moveFrame_egressAll _ _ _ _ _ _ _
    · exact .refl m1
  exact ⟨p.1, _, _, _, _, _, _, _, _, _, h1.trans h2, rfl⟩

/-- The transfer without its slips and its end. -/
theorem moveStep_frame : ∃ (x : Module) (bs : List (List Nat)), StreamFrame m x
    ∧ (pathIn m st.job die v.ps = [] → pathOut m st.job die v.pd = [] → ∀ l, linkAt x l = linkAt m l)
    ∧ (pathOut m st.job die v.pd = [] →
      ∀ l, linkAt x l = linkAt (crossPath m (pathIn m st.job die v.ps) (inWords v (v.src.walk v.bs))) l)
    ∧ moveStep m die s st v host = onSte (bankSlips x st.cl st.ctx bs) die s (fun e => { e with active := some { st with moved := true } }) := by
  obtain ⟨a, w, ws, lost, outs, objs, rows, oob, clip, bs, hread, hstep⟩ := moveStep_parts m v die s st host
  have hin := streamFrame_crossPath m (pathIn m st.job die v.ps) (inWords v (v.src.walk v.bs))
  have hout := streamFrame_crossPath a (pathOut m st.job die v.pd) w
  have hrest := (moveFrame_writeWords (crossPath a (pathOut m st.job die v.pd) w) st.cl st.job v.pd ws).trans
    (moveFrame_moveCounts _ v die st.job st.cl m.now (ssetOf st.set).hslot lost outs objs rows oob clip)
  refine ⟨_, bs, ((hin.trans hread.toStreamFrame).trans hout).trans hrest.toStreamFrame, fun h1 h2 l => ?_, fun h2 l => ?_, hstep⟩
  · have hl := hread.links l
    rw [h1] at hl
    rw [hrest.links l, h2]
    exact hl
  · rw [hrest.links l, h2]
    exact hread.links l

end

/-! ## The slips and the stream engine -/

theorem runsUnchecked_frame {m x : Module} (h : StreamFrame m x) (cl k : Nat) : runsUnchecked x cl k = runsUnchecked m cl k := by
  obtain ⟨hctx, -, -, hun⟩ := h.books cl
  rw [runsUnchecked, runsUnchecked, hun, ctxOf_of_ctxs hctx, h.planned]

section
variable (x : Module) (cl k : Nat) (bs : List (List Nat))

theorem bankSlips_rest : (bankSlips x cl k bs).dies = x.dies ∧ (bankSlips x cl k bs).quay = x.quay := by
  unfold bankSlips
  split <;> exact ⟨rfl, rfl⟩

/-- Bank cycles leave a cluster's contexts but one, and all else of it. -/
theorem bankSlips_cluster (c : Nat) : (clAt (bankSlips x cl k bs) c).flags = (clAt x c).flags
    ∧ (clAt (bankSlips x cl k bs) c).scb = (clAt x c).scb ∧ (clAt (bankSlips x cl k bs) c).scratch = (clAt x c).scratch
    ∧ ∀ j, (c ≠ cl ∨ j ≠ k) → ctxOf (clAt (bankSlips x cl k bs) c) j = ctxOf (clAt x c) j := by
  unfold bankSlips
  split
  · by_cases h : c = cl
    · rw [h, clAt_onCl_same]
      exact ⟨rfl, rfl, rfl, fun j hj => ctxOf_onCtx_ne _ _ _ _ (hj.resolve_left (not_not_intro rfl))⟩
    · rw [clAt_onCl_ne _ _ _ _ h]
      exact ⟨rfl, rfl, rfl, fun _ _ => rfl⟩
  · exact ⟨rfl, rfl, rfl, fun _ _ => rfl⟩

/-- Bank cycles slip the context when it runs unchecked. -/
theorem bankSlips_context : ∃ b, ctxOf (clAt (bankSlips x cl k bs) cl) k = bankSlip b (ctxOf (clAt x cl) k)
    ∧ (runsUnchecked x cl k = false → b = 0) := by
  unfold bankSlips
  split
  · next h => exact ⟨_, by rw [clAt_onCl_same, ctxOf_onCtx_same], fun hc => absurd (h.symm.trans hc) (by decide)⟩
  · exact ⟨0, (if_pos rfl).symm, fun _ => rfl⟩

end

section
variable (x : Module) (d s : Nat) (f : StreamEngine → StreamEngine)

theorem steAt_onSte_same : steAt (dieAt (onSte x d s f) d) s = f (steAt (dieAt x d) s) := by
  unfold onSte
  rw [dieAt_onDie_same]
  exact tget_tset_same _

theorem steAt_onSte_ne {q : Nat} (h : q ≠ s) : steAt (dieAt (onSte x d s f) d) q = steAt (dieAt x d) q := by
  unfold onSte
  rw [dieAt_onDie_same]
  exact tget_tset_ne _ h

theorem linkAt_onSte (l : LinkEnd) : linkAt (onSte x d s f) l = linkAt x l := by
  cases l with
  | quay q => rfl
  | pon q l =>
    rw [linkAt, linkAt, onSte]
    by_cases h : q.val = d
    · rw [h, dieAt_onDie_same]
    · rw [dieAt_onDie_ne _ _ _ _ h]

end

theorem linkAt_congr {x y : Module} (hd : y.dies = x.dies) (hq : y.quay = x.quay) (l : LinkEnd) : linkAt y l = linkAt x l := by
  cases l with
  | pon q l => rw [linkAt, linkAt, dieAt, dieAt, hd]
  | quay q => rw [linkAt, linkAt, hq]

/-! ## Flits over a path -/

theorem pon_peerOf_peerOf : ∀ (d : Fin 8) (l : Fin 3), peerOf (peerOf (.pon d l)) = .pon d l := by decide

theorem peerOf_peerOf (e : LinkEnd) : peerOf (peerOf e) = e := by
  cases e with
  | pon d l => exact pon_peerOf_peerOf d l
  | quay d => rfl

theorem peerOf_inj {a b : LinkEnd} (h : peerOf a = peerOf b) : a = b := by rw [← peerOf_peerOf a, h, peerOf_peerOf]

section
variable (m : Module) (k : Nat)

theorem crossLink_nextSeq (e g : LinkEnd) : (linkAt (crossLink k m e) g).nextSeq =
    if g = e then (linkAt m e).nextSeq + BitVec.ofNat 32 k else (linkAt m g).nextSeq := by
  have hpeer : (linkAt (crossLink k m e) g).nextSeq
      = (linkAt (onLink m e (fun l => { l with nextSeq := l.nextSeq + BitVec.ofNat 32 k })) g).nextSeq := by
    unfold crossLink
    by_cases h : g = peerOf e
    · rw [h, linkAt_onLink_same]
    · rw [linkAt_onLink_ne _ _ _ h]
  rw [hpeer]
  split
  · next h => rw [h, linkAt_onLink_same]
  · next h => rw [linkAt_onLink_ne _ _ _ h]

theorem crossLink_expected (e g : LinkEnd) : (linkAt (crossLink k m e) g).expected =
    if g = peerOf e then (linkAt m (peerOf e)).expected + BitVec.ofNat 32 k else (linkAt m g).expected := by
  have hsend (q : LinkEnd) : (linkAt (onLink m e (fun l => { l with nextSeq := l.nextSeq + BitVec.ofNat 32 k })) q).expected
      = (linkAt m q).expected := by
    by_cases h : q = e
    · rw [h, linkAt_onLink_same]
    · rw [linkAt_onLink_ne _ _ _ h]
  unfold crossLink
  split
  · next h => rw [h, linkAt_onLink_same]; exact congrArg (· + BitVec.ofNat 32 k) (hsend _)
  · next h => rw [linkAt_onLink_ne _ _ _ h]; exact hsend g

/-- Links that a path does not name keep their numbers. -/
theorem crossLinks_other (path : List LinkEnd) : ∀ (m : Module) (g : LinkEnd),
    (g ∉ path → (linkAt (path.foldl (crossLink k) m) g).nextSeq = (linkAt m g).nextSeq)
    ∧ ((∀ e ∈ path, g ≠ peerOf e) → (linkAt (path.foldl (crossLink k) m) g).expected = (linkAt m g).expected) := by
  induction path with
  | nil => exact fun m g => ⟨fun _ => rfl, fun _ => rfl⟩
  | cons e path ih =>
    intro m g
    obtain ⟨h1, h2⟩ := ih (crossLink k m e) g
    refine ⟨fun h => ?_, fun h => ?_⟩
    · obtain ⟨hne, hnot⟩ := not_or.mp (fun hc => h (List.mem_cons.mpr hc))
      exact (h1 hnot).trans ((crossLink_nextSeq m k e g).trans (if_neg hne))
    · exact (h2 fun q hq => h q (List.mem_cons_of_mem _ hq)).trans
        ((crossLink_expected m k e g).trans (if_neg (h e List.mem_cons_self)))

/-- Flits over a path that names no link twice cross each of its links once. -/
theorem crossLinks_crossed (path : List LinkEnd) (hnd : path.Nodup) : ∀ m : Module, Crossed m (path.foldl (crossLink k) m) path k := by
  induction path with
  | nil => exact fun m e he => absurd he (List.not_mem_nil)
  | cons p path ih =>
    obtain ⟨hp, hnd'⟩ := List.nodup_cons.mp hnd
    intro m e he
    by_cases hep : e = p
    · obtain ⟨h1, -⟩ := crossLinks_other k path (crossLink k m p) p
      obtain ⟨-, h2⟩ := crossLinks_other k path (crossLink k m p) (peerOf p)
      have hpeer : ∀ q ∈ path, peerOf p ≠ peerOf q := fun q hq hc => hp (by rw [peerOf_inj hc]; exact hq)
      rw [hep]
      exact ⟨(h1 hp).trans ((crossLink_nextSeq m k p p).trans (if_pos rfl)),
        (h2 hpeer).trans ((crossLink_expected m k p _).trans (if_pos rfl))⟩
    · obtain ⟨h1, h2⟩ := ih hnd' (crossLink k m p) e ((List.mem_cons.mp he).resolve_left hep)
      have hne : peerOf e ≠ peerOf p := fun hc => hep (peerOf_inj hc)
      rw [crossLink_nextSeq, if_neg hep] at h1
      rw [crossLink_expected, if_neg hne] at h2
      exact ⟨h1, h2⟩

end

theorem ringHops_nodup : ∀ (forward : Bool) (a b : Fin 8), (ringHops forward 8 a b).Nodup := by decide +kernel

theorem ringHops_self (forward : Bool) (f a : Nat) : ringHops forward f a a = [] := by
  cases f with
  | zero => rfl
  | succ f => exact if_pos rfl

theorem slotDie_lt {p : Slot} {d : Nat} (h : slotDie p = some d) : d < 8 := by
  unfold slotDie at h
  split at h
  · obtain rfl := Option.some.inj h; omega
  · split at h
    · obtain rfl := Option.some.inj h; omega
    · cases h

theorem pathIn_nodup (m : Module) (tag : Nat) (die : Fin 8) {p : Slot} (h : slotDie p ≠ none) : (pathIn m tag die p).Nodup := by
  obtain ⟨d, hd⟩ := Option.ne_none_iff_exists'.mp h
  have hlt := slotDie_lt hd
  rw [pathIn, hd]
  exact ringHops_nodup _ ⟨d, hlt⟩ die

theorem pathIn_self (m : Module) (tag : Nat) {die : Nat} {p : Slot} (h : slotDie p = some die) : pathIn m tag die p = [] := by
  rw [pathIn, h]
  exact ringHops_self _ _ _

theorem pathOut_self (m : Module) (tag : Nat) {die : Nat} {p : Slot} (h : slotDie p = some die) : pathOut m tag die p = [] := by
  rw [pathOut, h]
  exact ringHops_self _ _ _

/-! ## Words moved between two slices -/

/-- A descriptor of single 32-bit words has units of one word. -/
theorem unit_of_words {x : Desc} (hf : x.fmt = 0) (ho : x.obj = false) : x.packed = false ∧ x.unit = 1 := by
  have hp : x.packed = false := by simp [Desc.packed, hf]
  exact ⟨hp, by simp [Desc.unit, ho, hp]⟩

theorem moveCheck_fmt {m : Module} {die : Nat} {st : Stream} {v : Move} (h : moveCheck m die st = .ok v) : v.dst.fmt = v.src.fmt := by
  unfold moveCheck at h
  extract_lets d s src dst hs hd bs bd supplied at h
  split at h
  · cases h
  split at h
  · cases h
  split at h
  · next ps pd _ _ =>
    extract_lets c1 c2 at h
    clear_value c2 src dst bs bd
    split at h
    · cases h
    split at h
    · cases h
    · next hok =>
      have hfmt : src.fmt = dst.fmt := not_not.mp (not_or.mp (not_or.mp hok).2).1
      split at h
      · split at h
        · cases h
        split at h
        · cases h
        · cases h
          exact hfmt.symm
      · cases h
  · cases h

/-- The word that element `k` of a source walk reads. -/
def sourceWord (v : Move) (rix : Rix) (k : Nat) (a : Int) : Nat :=
  if rix.mode = 2 then transposedAddr rix k % 2 ^ 21 else v.ps.start + a.toNat

/-- A source walk of single words in bounds addresses one word for each of its elements. -/
theorem unitAddrs_words {v : Move} (rix : Rix) (hu : v.src.unit = 1) (hk : v.ps.kind = 0) (w : List (Bool × Int)) (hin : ∀ t ∈ w, t.1 = true) :
    ∀ k, unitAddrs v.src v.ps rix k w = (w.zipIdx k).map (fun t => [sourceWord v rix t.2 t.1.2]) := by
  induction w with
  | nil => exact fun _ => rfl
  | cons t w ih =>
    intro k
    obtain ⟨inb, a⟩ := t
    obtain rfl : inb = true := hin _ List.mem_cons_self
    rw [unitAddrs, if_pos rfl, hu, ih (fun q hq => hin q (List.mem_cons_of_mem _ hq)), List.zipIdx_cons, List.map_cons]
    simp [sourceWord, hk]

/-- Units of one word of a slice that is neither restricted nor fenced read as its words. -/
theorem readUnits_words {m : Module} {x : Desc} {p : Slot} (zero : List Nat) (hk : p.kind = 0) (hr : (clAt m p.cl).restricted = false)
    (hf : (clAt m p.cl).fence = []) (as : List Nat) :
    ∀ host : List Word, readUnits m x p zero (as.map (fun a => [a])) host = as.map (fun a => [scrWord (clAt m p.cl) zero a]) := by
  induction as with
  | nil => exact fun _ => rfl
  | cons a as ih =>
    intro host
    have hunit : unitWords m p zero x.fillUnit [a] (host.take x.unit) = [scrWord (clAt m p.cl) zero a] := by
      simp [unitWords, hk, hr, rowFenced, hf]
    rw [List.map_cons, readUnits, if_neg (by simp), hunit, ih, List.map_cons]

/-- Single words sent: word `k` of the elements to place `k` of the walk. -/
theorem writeElts_words {x : Desc} (hf : x.fmt = 0) (hp : x.packed = false) (w : List (Bool × Int)) (hin : ∀ t ∈ w, t.1 = true) :
    ∀ es : List Elt, (writeElts x w es).flatMap (·.words) = (w.zip es).map (fun p => (p.1.2, BitVec.ofNat 32 p.2.1)) := by
  induction w with
  | nil => exact fun _ => rfl
  | cons t w ih =>
    intro es
    have ht : t.1 = true := hin t List.mem_cons_self
    have ih' := ih (fun q hq => hin q (List.mem_cons_of_mem _ hq))
    have hdrop := ih' (es.drop 1)
    unfold writeElts
    rw [hp]
    dsimp only
    rw [List.flatMap_cons, if_neg (by decide), hdrop]
    cases es with
    | nil => simp [writeUnit, ht, hf, packElts, isMx, packRow]
    | cons e es => simp [writeUnit, ht, hf, packElts, isMx, packRow]

/-- The words that a transfer of words between two slices sends, with their places. -/
def sentWords (m : Module) (v : Move) (st : Stream) (host : List Word) : List (Nat × Word) :=
  ((writeElts v.dst (v.dst.walk v.bd) (sourceElts v.src (readUnits m v.src v.ps
    ((st.zeroRows.filter (fun r => decide (r.1 = v.ps.cl))).map (·.2))
    (unitAddrs v.src v.ps (rixOf st.rix 2) 0 (v.src.walk v.bs)) host))).flatMap (·.words)).map (fun w => (w.1.toNat, w.2))

section
variable {m : Module} {v : Move} {st : Stream} {host : List Word}

theorem noteIngest_slice (tag : Nat) (units : List (List Word)) (walk : List (Bool × Int)) (objs : List Moved) (h : v.ps.kind = 0) :
    noteIngest tag v units walk objs m = m := by
  rw [noteIngest, if_pos (by omega)]

theorem openOut_slice (tag : Nat) (ws : List (Nat × Word)) {p : Slot} (h : p.kind = 0) : openOut m tag p ws = ws := by
  unfold openOut
  split
  · rw [if_pos (.inl (by omega))]
  · rfl

/-- The end of a transfer of words between two slices: lost words and counts. -/
def sliceCounts (m : Module) (v : Move) (die tag : Nat) (lost : List Nat) (oob clip : Nat) : Module :=
  noteReplica (countMove (onCl (markLost m v.pd lost) v.pd.cl (fun c => { c with poisoned := c.poisoned })) die tag oob clip []) v

theorem putHeaders_slice (cl tag hslot : Nat) (objs : List Moved) (walk : List (Bool × Int)) (hso : v.src.obj = false)
    (hdo : v.dst.obj = false) : putHeaders m cl tag v hslot objs walk = m := by
  rw [putHeaders, if_neg (by simp [hdo]), if_neg (by simp [hso])]

/-- A transfer of words between two slices: reads, the writes of the words sent, and the counts. -/
theorem moveStep_slices (die s : Nat) (hps : v.ps.kind = 0) (hpd : v.pd.kind = 0) (hso : v.src.obj = false) (hdo : v.dst.obj = false) :
    ∃ (us : List Nat) (w : Nat) (lost : List Nat) (oob clip : Nat) (bs : List (List Nat)),
      moveStep m die s st v host = onSte (bankSlips (sliceCounts
        (writeWords (crossPath (readFx (crossPath m (pathIn m st.job die v.ps) (inWords v (v.src.walk v.bs))) st.cl st.job v.ps us)
          (pathOut m st.job die v.pd) w) st.cl st.job v.pd (sentWords m v st host)) v die st.job lost oob clip) st.cl st.ctx bs)
        die s (fun e => { e with active := some { st with moved := true } }) := by
  have hsrc (tag : Nat) (units : List (List Word)) (walk : List (Bool × Int)) : sourceObjs m tag v units walk = [] := by
    rw [sourceObjs, if_neg (by simp [hso])]
  have hhost : ¬v.pd.kind = 2 := by omega
  unfold moveStep
  dsimp only
  rw [hsrc, List.zipIdx_nil, List.map_nil, noteIngest_slice _ _ _ _ hps]
  simp only [openOut_slice _ _ hpd, putHeaders_slice _ _ _ _ _ hso hdo, hso, hdo, hhost, Bool.false_eq_true, and_false, if_false,
    List.foldl_nil]
  exact ⟨_, _, _, _, _, _, rfl⟩

/-- Two modules whose slices hold the same words behind the same fences. -/
def SameSlices (m n : Module) : Prop :=
  ∀ c, (clAt n c).scratch = (clAt m c).scratch ∧ (clAt n c).fence = (clAt m c).fence ∧ (clAt n c).restricted = (clAt m c).restricted

theorem SameSlices.of_clusters {m n : Module} (h : n.clusters = m.clusters) : SameSlices m n := fun c => by
  rw [clAt, clAt, h]
  exact ⟨rfl, rfl, rfl⟩

theorem SameSlices.trans {a b c : Module} (h : SameSlices a b) (g : SameSlices b c) : SameSlices a c := fun q => by
  obtain ⟨h1, h2, h3⟩ := h q
  obtain ⟨g1, g2, g3⟩ := g q
  exact ⟨g1.trans h1, g2.trans h2, g3.trans h3⟩

theorem sameSlices_onCl (m : Module) (c : Nat) {f : Cluster → Cluster}
    (hf : ∀ x, (f x).scratch = x.scratch ∧ (f x).fence = x.fence ∧ (f x).restricted = x.restricted) : SameSlices m (onCl m c f) := fun q => by
  by_cases h : q = c
  · rw [h, clAt_onCl_same]; exact hf _
  · rw [clAt_onCl_ne _ _ _ _ h]; exact ⟨rfl, rfl, rfl⟩

theorem sameSlices_crossPath (m : Module) (path : List LinkEnd) (words : Nat) : SameSlices m (crossPath m path words) :=
  .of_clusters (by rw [(crossPath_only m path words).1])

/-- Reads of a slice leave every slice. -/
theorem sameSlices_readFx (m : Module) (cl tag : Nat) {p : Slot} (ws : List Nat) (hp : p.kind = 0) : SameSlices m (readFx m cl tag p ws) := by
  unfold readFx
  rw [if_pos hp]
  split
  · refine sameSlices_onCl m _ ?_
    exact fun _ => ⟨rfl, rfl, rfl⟩
  · intro q
    rw [clAt_scrAccess]
    split
    · next h => rw [h]; exact ⟨rfl, rfl, rfl⟩
    · exact ⟨rfl, rfl, rfl⟩

theorem sameSlices_countMove (m : Module) (die tag oob clip : Nat) (objs : List Moved) : SameSlices m (countMove m die tag oob clip objs) :=
  .of_clusters rfl

theorem sameSlices_noteReplica (m : Module) (v : Move) : SameSlices m (noteReplica m v) := by
  unfold noteReplica
  dsimp only
  split
  · split <;> exact .of_clusters rfl
  · exact .of_clusters rfl

theorem sameSlices_markLost (m : Module) {p : Slot} (ws : List Nat) (hp : p.kind = 0) : SameSlices m (markLost m p ws) := by
  unfold markLost
  split
  · exact .of_clusters rfl
  · refine sameSlices_onCl m _ fun c => ?_
    split <;> exact ⟨rfl, rfl, rfl⟩

/-- The counts of a transfer of words between slices leave every slice. -/
theorem sameSlices_sliceCounts (x : Module) (die tag : Nat) (lost : List Nat) (oob clip : Nat) (hpd : v.pd.kind = 0) :
    SameSlices x (sliceCounts x v die tag lost oob clip) := by
  unfold sliceCounts
  refine SameSlices.trans ?_ (sameSlices_noteReplica _ v)
  refine SameSlices.trans ?_ (sameSlices_countMove _ die tag oob clip [])
  refine SameSlices.trans (sameSlices_markLost x lost hpd) (sameSlices_onCl _ _ ?_)
  exact fun _ => ⟨rfl, rfl, rfl⟩

/-- The words of a list written to an open slice at places that each say one thing. -/
theorem mword_writeWords {x : Module} (cl tag : Nat) {p : Slot} {ws : List (Nat × Word)} (hp : p.kind = 0) (hr : (clAt x p.cl).restricted = false)
    (hf : (clAt x p.cl).fence = []) (hwf : memWf (clAt x p.cl).scratch = true) {a : Nat × Word} (ha : a ∈ ws)
    (hone : ∀ b ∈ ws, b.1 = a.1 → b.2 = a.2) : mword (clAt (writeWords x cl tag p ws) p.cl).scratch (p.start + a.1) = a.2 := by
  unfold writeWords
  rw [if_pos hp]
  dsimp only
  rw [if_neg (by simp [hr]), clAt_scrAccess, if_pos rfl]
  refine mword_scrWrites_mem (a := (p.start + a.1, a.2)) (List.mem_map_of_mem ha) (fun b hb he => ?_) hf hwf
  obtain ⟨c, hc, rfl⟩ := List.mem_map.mp hb
  exact hone c hc (Nat.add_left_cancel he)

/-- The elements of a source of single words. -/
theorem sourceElts_words {x : Desc} (hp : x.packed = false) (f : Nat → Word) (as : List Nat) :
    sourceElts x (as.map (fun a => [f a])) = as.map (fun a => ((f a).toNat, 0)) := by
  unfold sourceElts
  rw [List.flatMap_map, hp]
  exact List.flatMap_pure_eq_map (fun a => ((f a).toNat, 0)) as

/-- What a transfer of words sends: word `k` of the source to place `k` of the destination. -/
theorem sentWords_eq (hfs : v.src.fmt = 0) (hfd : v.dst.fmt = 0) (hso : v.src.obj = false) (hps : v.ps.kind = 0)
    (hr : (clAt m v.ps.cl).restricted = false) (hf : (clAt m v.ps.cl).fence = []) (hsin : ∀ t ∈ v.src.walk v.bs, t.1 = true)
    (hdin : ∀ t ∈ v.dst.walk v.bd, t.1 = true) :
    sentWords m v st host = ((v.dst.walk v.bd).zip (v.src.walk v.bs).zipIdx).map (fun p => (p.1.2.toNat,
      scrWord (clAt m v.ps.cl) ((st.zeroRows.filter (fun r => decide (r.1 = v.ps.cl))).map (·.2))
        (sourceWord v (rixOf st.rix 2) p.2.2 p.2.1.2))) := by
  obtain ⟨hpack, hunit⟩ := unit_of_words hfs hso
  have haddr := unitAddrs_words (rixOf st.rix 2) hunit hps (v.src.walk v.bs) hsin 0
  have hpackd : v.dst.packed = false := by simp [Desc.packed, hfd]
  have hsingle : (v.src.walk v.bs).zipIdx.map (fun t => [sourceWord v (rixOf st.rix 2) t.2 t.1.2])
      = ((v.src.walk v.bs).zipIdx.map (fun t => sourceWord v (rixOf st.rix 2) t.2 t.1.2)).map (fun a => [a]) := by rw [List.map_map]; rfl
  unfold sentWords
  rw [haddr, hsingle, readUnits_words _ hps hr hf, writeElts_words hfd hpackd _ hdin, sourceElts_words hpack, List.map_map,
    List.zip_map_right, List.map_map, List.zip_map_right, List.map_map]
  refine List.map_congr_left fun p _ => Prod.ext rfl ?_
  exact (BitVec.ofNat_toNat _ _).trans (BitVec.setWidth_eq _)

/-- Element `k` of the source stands at place `k` of the destination. -/
theorem moveStep_mword (die s : Nat) (hps : v.ps.kind = 0) (hpd : v.pd.kind = 0) (hfs : v.src.fmt = 0) (hfd : v.dst.fmt = 0)
    (hso : v.src.obj = false) (hdo : v.dst.obj = false) (hrs : (clAt m v.ps.cl).restricted = false) (hfes : (clAt m v.ps.cl).fence = [])
    (hrd : (clAt m v.pd.cl).restricted = false) (hfed : (clAt m v.pd.cl).fence = []) (hwf : memWf (clAt m v.pd.cl).scratch = true)
    (hsin : ∀ t ∈ v.src.walk v.bs, t.1 = true) (hdin : ∀ t ∈ v.dst.walk v.bd, t.1 = true)
    (hnd : ((v.dst.walk v.bd).map (fun t => t.2.toNat)).Nodup) {k : Nat} {a b : Int} (ha : (v.src.walk v.bs)[k]? = some (true, a))
    (hb : (v.dst.walk v.bd)[k]? = some (true, b)) :
    mword (clAt (moveStep m die s st v host) v.pd.cl).scratch (v.pd.start + b.toNat) =
      scrWord (clAt m v.ps.cl) ((st.zeroRows.filter (fun r => decide (r.1 = v.ps.cl))).map (·.2)) (sourceWord v (rixOf st.rix 2) k a) := by
  obtain ⟨us, w, lost, oob, clip, bs, hstep⟩ := moveStep_slices (m := m) (st := st) (host := host) die s hps hpd hso hdo
  have hsent := sentWords_eq (m := m) (st := st) (host := host) hfs hfd hso hps hrs hfes hsin hdin
  have hread := ((sameSlices_crossPath m (pathIn m st.job die v.ps) (inWords v (v.src.walk v.bs))).trans
    (sameSlices_readFx _ st.cl st.job us hps)).trans (sameSlices_crossPath _ (pathOut m st.job die v.pd) w)
  generalize crossPath (readFx _ st.cl st.job v.ps us) (pathOut m st.job die v.pd) w = x at hread hstep
  obtain ⟨hscr, hfence, hrestr⟩ := hread v.pd.cl
  have hcounts := (sameSlices_sliceCounts (writeWords x st.cl st.job v.pd (sentWords m v st host)) die st.job lost oob clip hpd v.pd.cl).1
  have hslips := (bankSlips_cluster (sliceCounts (writeWords x st.cl st.job v.pd (sentWords m v st host)) v die st.job lost oob clip)
    st.cl st.ctx bs v.pd.cl).2.2.1
  rw [hstep]
  show mword (clAt (bankSlips _ _ _ _) v.pd.cl).scratch _ = _
  rw [hslips, hcounts]
  generalize hval : scrWord (clAt m v.ps.cl) ((st.zeroRows.filter (fun r => decide (r.1 = v.ps.cl))).map (·.2))
    (sourceWord v (rixOf st.rix 2) k a) = val
  refine mword_writeWords (a := (b.toNat, val)) st.cl st.job hpd (hrestr.trans hrd) (hfence.trans hfed) (by rw [hscr]; exact hwf) ?_
    (fun q hq he => ?_)
  · rw [hsent]
    refine List.mem_map.mpr ⟨((true, b), (true, a), k), List.mem_of_getElem? (i := k) ?_, by rw [hval]⟩
    rw [List.getElem?_zip_eq_some]
    exact ⟨hb, by rw [List.getElem?_zipIdx, ha]; simp⟩
  · rw [hsent] at hq
    obtain ⟨⟨td, ts, i⟩, hp, rfl⟩ := List.mem_map.mp hq
    obtain ⟨i', hi'⟩ := List.mem_iff_getElem?.mp hp
    obtain ⟨hd', hs'⟩ := List.getElem?_zip_eq_some.mp hi'
    have hk : i' = k := by
      have hlt : i' < ((v.dst.walk v.bd).map (fun t => t.2.toNat)).length := by
        rw [List.length_map]
        exact (List.getElem?_eq_some_iff.mp hd').1
      refine (List.getElem?_inj hlt hnd).mp ?_
      rw [List.getElem?_map, List.getElem?_map, hd', hb]
      exact congrArg some he
    rw [List.getElem?_zipIdx, hk, ha] at hs'
    cases hs'
    rw [← hval, Nat.zero_add]

end

/-! ## When a transfer moves -/

section
variable {m : Module}

theorem scalarView_slots (tag : Nat) (v : Move) : (scalarView m tag v).ps = v.ps ∧ (scalarView m tag v).pd = v.pd := by
  unfold scalarView
  dsimp only
  split <;> exact ⟨rfl, rfl⟩

theorem scalarPlen_onDie (tag : Nat) (x : Desc) {p : Slot} (base : Int) (h : p.kind ≠ 2) : scalarPlen m tag x p base = none := by
  unfold scalarPlen
  split
  · exact if_pos (.inr (.inl h))
  · rfl

/-- A transfer without a host side takes no scalar object apart. -/
theorem scalarView_onDie (tag : Nat) {v : Move} (hs : v.ps.kind ≠ 2) (hd : v.pd.kind ≠ 2) : scalarView m tag v = v := by
  unfold scalarView
  rw [scalarPlen_onDie tag _ _ hs, scalarPlen_onDie tag _ _ hd]

theorem kind_of_slotDie {p : Slot} (h : slotDie p ≠ none) : p.kind ≠ 2 := fun hk => h (by simp [slotDie, hk])

variable {die s : Nat} {host : List Word} {st : Stream}

/-- A moved stream, a halted die and an entry that validates make a transfer wait. -/
theorem transferStep_waits (ha : (steAt (dieAt m die) s).active = some st)
    (h : st.moved = true ∨ (dieAt m die).halted = true ∨ (tget {} (dieAt m die).dstat (ssetOf st.set).srcd).busy = true
      ∨ (tget {} (dieAt m die).dstat (ssetOf st.set).dstd).busy = true) : transferStep m die s host = m := by
  unfold transferStep
  dsimp only
  rw [ha]
  dsimp only
  refine if_pos ?_
  rcases h with h | h | h | h <;> simp only [h, Bool.or_true, Bool.true_or]

/-- A transfer that may be checked. -/
structure MayMove (m : Module) (die s : Nat) (st : Stream) : Prop where
  active : (steAt (dieAt m die) s).active = some st
  moved : st.moved = false
  halted : (dieAt m die).halted = false
  source : (tget {} (dieAt m die).dstat (ssetOf st.set).srcd).busy = false
  dest : (tget {} (dieAt m die).dstat (ssetOf st.set).dstd).busy = false

theorem MayMove.not_waits (h : MayMove m die s st) : ¬(st.moved || (dieAt m die).halted
    || (tget {} (dieAt m die).dstat (ssetOf st.set).srcd).busy || (tget {} (dieAt m die).dstat (ssetOf st.set).dstd).busy) = true := by
  rw [h.moved, h.halted, h.source, h.dest]
  decide

theorem transferStep_refused (h : MayMove m die s st) {cause : KillCause} (hc : moveCheck m die st = .error cause) :
    transferStep m die s host = killJob m st.job cause none := by
  unfold transferStep
  dsimp only
  rw [h.active]
  dsimp only
  rw [if_neg h.not_waits, hc]

variable {v : Move}

theorem transferStep_held (h : MayMove m die s st) (hc : moveCheck m die st = .ok v)
    (hw : writesLive m st.job v = true ∨ granted m st.job die s v = false ∨ yieldsMove m st.job die v = true
      ∨ ∃ l ∈ pathIn m st.job die v.ps ++ pathOut m st.job die v.pd, linkReady m l = false) : transferStep m die s host = m := by
  unfold transferStep
  dsimp only
  rw [h.active]
  dsimp only
  rw [if_neg h.not_waits, hc]
  refine if_pos ?_
  rcases hw with hw | hw | hw | ⟨l, hl, hw⟩
  · simp [hw]
  · simp [hw]
  · simp [hw]
  · have hall : (pathIn m st.job die v.ps ++ pathOut m st.job die v.pd).all (linkReady m) = false :=
      List.all_eq_false.mpr ⟨l, hl, by simp [hw]⟩
    rw [hall]
    rfl

theorem transferStep_moves (h : MayMove m die s st) (hc : moveCheck m die st = .ok v) (hlive : writesLive m st.job v = false)
    (hgrant : granted m st.job die s v = true) (hyield : yieldsMove m st.job die v = false)
    (hlinks : ∀ l ∈ pathIn m st.job die v.ps ++ pathOut m st.job die v.pd, linkReady m l = true) :
    transferStep m die s host = moveStep m die s st (scalarView m st.job v) host := by
  have hall : (pathIn m st.job die v.ps ++ pathOut m st.job die v.pd).all (linkReady m) = true := List.all_eq_true.mpr hlinks
  unfold transferStep
  dsimp only
  rw [h.active]
  dsimp only
  rw [if_neg h.not_waits, hc]
  refine if_neg ?_
  rw [hall, hlive, hgrant, hyield]
  decide

end

/-- What a move leaves of the stream engines, the flags and the contexts. -/
theorem moveStep_leaves (m : Module) (v : Move) (die s : Nat) (st : Stream) (host : List Word) :
    steAt (dieAt (moveStep m die s st v host) die) s = { steAt (dieAt m die) s with active := some { st with moved := true } }
    ∧ (∀ q, q ≠ s → steAt (dieAt (moveStep m die s st v host) die) q = steAt (dieAt m die) q)
    ∧ (∀ c, (clAt (moveStep m die s st v host) c).flags = (clAt m c).flags ∧ (clAt (moveStep m die s st v host) c).scb = (clAt m c).scb)
    ∧ (∀ c k, (c ≠ st.cl ∨ k ≠ st.ctx) → ctxOf (clAt (moveStep m die s st v host) c) k = ctxOf (clAt m c) k)
    ∧ (∃ b, ctxOf (clAt (moveStep m die s st v host) st.cl) st.ctx = bankSlip b (ctxOf (clAt m st.cl) st.ctx)
      ∧ (runsUnchecked m st.cl st.ctx = false → b = 0))
    ∧ (pathIn m st.job die v.ps = [] → pathOut m st.job die v.pd = [] → ∀ l, linkAt (moveStep m die s st v host) l = linkAt m l)
    ∧ (pathOut m st.job die v.pd = [] → ∀ l, linkAt (moveStep m die s st v host) l
      = linkAt (crossPath m (pathIn m st.job die v.ps) (inWords v (v.src.walk v.bs))) l) := by
  obtain ⟨x, bs, hframe, hstay, hcross, hstep⟩ := moveStep_frame m v die s st host
  obtain ⟨hdies, hquay⟩ := bankSlips_rest x st.cl st.ctx bs
  have hcluster := bankSlips_cluster x st.cl st.ctx bs
  obtain ⟨b, hslip, hzero⟩ := bankSlips_context x st.cl st.ctx bs
  have hlink (l : LinkEnd) : linkAt (moveStep m die s st v host) l = linkAt x l := by
    rw [hstep, linkAt_onSte]
    exact linkAt_congr hdies hquay l
  have hste (q : Nat) : steAt (dieAt (bankSlips x st.cl st.ctx bs) die) q = steAt (dieAt m die) q := by
    rw [dieAt, hdies, steAt, steAt]
    exact congrArg (fun t => tget ({} : StreamEngine) t q) (hframe.ste die)
  have hclusters (c : Nat) : clAt (moveStep m die s st v host) c = clAt (bankSlips x st.cl st.ctx bs) c := by
    rw [hstep]
    rfl
  refine ⟨?_, fun q hq => ?_, fun c => ?_, fun c k hk => ?_, ⟨b, ?_, fun h => hzero ((runsUnchecked_frame hframe _ _).trans h)⟩,
    fun h1 h2 l => (hlink l).trans (hstay h1 h2 l), fun h2 l => (hlink l).trans (hcross h2 l)⟩
  · rw [hstep, steAt_onSte_same, hste]
  · rw [hstep, steAt_onSte_ne _ _ _ _ hq, hste]
  · obtain ⟨-, hflags, hscb, -⟩ := hframe.books c
    obtain ⟨h1, h2, -, -⟩ := hcluster c
    rw [hclusters]
    exact ⟨h1.trans hflags, h2.trans hscb⟩
  · rw [hclusters, (hcluster c).2.2.2 k hk, ctxOf_of_ctxs (hframe.books c).1]
  · rw [hclusters, hslip, ctxOf_of_ctxs (hframe.books st.cl).1]

/-- Settles O48: the waits, the kill, and the move through its parts. -/
theorem transfers : Obligations.Transfers := by
  unfold Obligations.Transfers
  intro s die e host st d x hactive
  have hexec : exec (.transfer die e host) s = .next { s with m := transferStep s.m die e host } := rfl
  refine ⟨fun h => ?_, fun hmoved hhalted hsrc hdst => ⟨fun cause j hc hj hk hp => ?_, fun v hc => ?_⟩⟩
  · rw [transferStep_waits hactive h] at hexec
    exact hexec
  · rw [transferStep_refused ⟨hactive, hmoved, hhalted, hsrc, hdst⟩ hc] at hexec
    obtain ⟨y, hcompl, hjob, -, -, hstatus, -⟩ := killJob_queues s.m st.job cause none hj hk hp
    exact ⟨_, y, hexec, hcompl, hjob, hstatus⟩
  · intro path zero rix
    refine ⟨fun hw => ?_, fun hlive hgrant hyield hlinks => ?_⟩
    · rw [transferStep_held ⟨hactive, hmoved, hhalted, hsrc, hdst⟩ hc hw] at hexec
      exact hexec
    · rw [transferStep_moves ⟨hactive, hmoved, hhalted, hsrc, hdst⟩ hc hlive hgrant hyield hlinks] at hexec
      obtain ⟨hps, hpd⟩ := scalarView_slots (m := s.m) st.job v
      obtain ⟨hste, hothers, hbooks, hctxs, hslip, hstay, hcross⟩ := moveStep_leaves s.m (scalarView s.m st.job v) die e st host
      rw [hps, hpd] at hstay hcross
      refine ⟨_, hexec, hste, hothers, hbooks, hctxs, hslip, fun hs hd => ?_, fun hs hd => ?_, ?_⟩
      · exact hstay (pathIn_self s.m st.job hs) (pathOut_self s.m st.job hd)
      · rw [scalarView_onDie st.job (kind_of_slotDie hs) (kind_of_slotDie (by rw [hd]; exact Option.some_ne_none _))] at hcross ⊢
        have hcrossed := crossLinks_crossed (flitsFor (inWords v (v.src.walk v.bs))) _ (pathIn_nodup s.m st.job die hs) s.m
        intro l hl
        rw [hcross (pathOut_self s.m st.job hd) l, hcross (pathOut_self s.m st.job hd) (peerOf l)]
        exact hcrossed l hl
      · intro hks hkd hfmt hso hdo hrs hfes hrd hfed hwf hsin hdin hnd k a b ha hb
        have hview : scalarView s.m st.job v = v := scalarView_onDie st.job (by omega) (by omega)
        rw [hview]
        exact moveStep_mword die e hks hkd hfmt ((moveCheck_fmt hc).trans hfmt) hso hdo hrs hfes hrd hfed hwf hsin hdin hnd ha hb

end Sys2Proof.Machine
end
